-- ==== Sys2Proof/Word.lean ====
section
/-! DEFINITION. The word types of the ZN-9768 model: registers are 64 bits (R5), memory is bytes. -/

namespace Sys2Proof

/-- One byte of memory, of a packet or of an image. -/
abbrev Byte := BitVec 8

/-- A 64-bit register or one word of a ZTI entry (R5, R81). -/
abbrev Word := BitVec 64

end Sys2Proof
end

