-- ==== Sys2Proof/Packets.lean ====
section
/-! DEFINITION. What arrives at the device from outside: the operand types of the commands.
Each structure follows the wire layout its rule gives, field by field.  A checksum, a frame check or
an authentication tag is carried as the outcome of the receiver's own comparison (log entry 5). -/

namespace Sys2Proof

/-- The mailbox door a request is written at (R303): the door of an instance window, or the one
behind the manager I3C port. -/
inductive Door where
  | window (inst : BitVec 7)
  | i3c
  deriving DecidableEq, Repr, Inhabited

/-- The SYNC block of a SYNC_REQ (R124). -/
structure SyncBlock where
  op : Byte
  flags : Byte
  zero : BitVec 16
  id : BitVec 32
  value : Word
  deadline : Word
  deriving DecidableEq, Repr, Inhabited

/-- The CONN block of the connection packets (R148). -/
structure ConnBlock where
  node : BitVec 18
  inst : BitVec 7
  peerInst : BitVec 7
  qp : BitVec 20
  peerQp : BitVec 20
  verMin : Byte
  ver : Byte
  cipher : Byte
  pmtu : Byte
  pkey : BitVec 16
  tag : BitVec 16
  startPsn : BitVec 32
  kcv : BitVec 32
  reason : Byte
  circuit : Bool
  /-- The fields marked zero: 0x06, FLAGS bits 7:1, and 0x22 to 0x3F. -/
  zero06 : BitVec 16
  flagsZero : BitVec 7
  zero22 : BitVec 240
  deriving DecidableEq, Repr, Inhabited

/-- What a sealed packet has on the wire in place of its payload (R141, R142): its IV, the sealed text, the tag. -/
structure SealedPart where
  iv : BitVec 96
  text : List Byte
  tag : BitVec 128
  deriving DecidableEq, Repr, Inhabited

/-- What follows the headers of a ZTP packet (R123). -/
inductive ZtpBody where
  | none
  | data (bytes : List Byte)
  | sync (blk : SyncBlock)
  | conn (blk : ConnBlock)
  deriving DecidableEq, Repr, Inhabited

/-- A ZTP packet: base header (R122), extension headers (R124), body. -/
structure ZtpPacket where
  typ : Byte
  first : Bool
  last : Bool
  ar : Bool
  sealedBit : Bool
  flagsZero : BitVec 4
  ver : Byte
  zero3 : Byte
  dstQp : BitVec 32
  srcQp : BitVec 32
  psn : BitVec 32
  msn : BitVec 32
  pkey : BitVec 16
  conn : BitVec 16
  ts : BitVec 32
  zero1C : BitVec 32
  sealNo : Word
  raddr : Word
  rkey : BitVec 32
  length : BitVec 32
  signal : BitVec 32
  radd : BitVec 32
  syndrome : Byte
  status : Byte
  aethZero : BitVec 16
  epsn : BitVec 32
  result : Word
  body : ZtpBody
  ecrcOk : Bool
  tagOk : Bool
  /-- A NAK FAILED that refuses the RSIG counter of a WRITE: the requester learns it by means the
  spec does not state (R127, R261; log entry 5). -/
  sigRefused : Bool
  /-- What the device puts on the wire for the body of a packet it seals; the body stands beside it as the far end
  reads it. -/
  wire : Option SealedPart
  deriving DecidableEq, Repr, Inhabited

/-- How a packet reached the transport or the sequencer: through a port, or delivered locally at
lookup (`port = none`, set 16 of R211); the source node, the routing bank and the congestion mark. -/
structure Arrival where
  port : Option (BitVec 4)
  src : BitVec 18
  srcIp : BitVec 128
  bank : Bool
  ce : Bool
  deriving DecidableEq, Repr, Inhabited

/-- A CSP packet (R181). -/
structure CspPacket where
  typ : Byte
  gather : Bool
  ceEcho : Bool
  flagsZero : BitVec 6
  level : Byte
  stream : Byte
  collId : BitVec 32
  step : BitVec 32
  sender : BitVec 32
  seq : BitVec 32
  offset : BitVec 32
  pkey : BitVec 16
  len : BitVec 16
  ts : BitVec 32
  payload : List Byte
  crcOk : Bool
  deriving DecidableEq, Repr, Inhabited

/-- The PTP messages the model names (R17, R18): what a PTP frame carries. -/
inductive PtpMsg where
  | sync (originNs : Nat) (twoStep : Bool)
  | followUp (originNs : Nat)
  | announce (tlv : Option (BitVec 16)) (accuracy : Byte)
  | pdelayReq
  | pdelayResp (turnNs : Nat)
  | delayReq (clock : Word) (seq : BitVec 16)
  | delayResp (clock : Word) (seq : BitVec 16) (recvNs : Nat)
  deriving DecidableEq, Repr, Inhabited

/-- The body of a link control frame (R194, R330). -/
inductive LinkCtl where
  | hello (verMax : Byte) (port : BitVec 4) (planId : Word)
  | ack (lseq : BitVec 16)
  | nak (lseq : BitVec 16)
  | credit (vc : BitVec 3) (amount : BitVec 16)
  | notice (alt : BitVec 16) (e : Word) (hops : Byte) (origin : BitVec 18)
  deriving DecidableEq, Repr, Inhabited

/-- The payload of a fabric frame by KIND (R192). -/
inductive FrameBody where
  | ztp (p : ZtpPacket)
  | csp (p : CspPacket)
  | ptp (m : PtpMsg)
  | ctl (m : LinkCtl)
  | other (bytes : List Byte)
  deriving DecidableEq, Repr, Inhabited

/-- A frame on a fabric link: link word (R191), route header (R192), payload. -/
structure FabFrame where
  lseq : BitVec 16
  lack : BitVec 16
  crValid : Bool
  crVc : BitVec 3
  crAmt : BitVec 16
  linkZero : BitVec 12
  kind : BitVec 4
  vc : BitVec 3
  bank : Bool
  ce : Bool
  alt : Bool
  flagsZero : BitVec 6
  hops : Byte
  zero3 : Byte
  dst : BitVec 32
  src : BitVec 32
  pkey : BitVec 16
  len : BitVec 16
  body : FrameBody
  lcrcOk : Bool
  deriving DecidableEq, Repr, Inhabited

/-- The IP and UDP headers of an Ethernet frame (R120, R229). -/
structure IpHeader where
  v6 : Bool
  src : BitVec 128
  dst : BitVec 128
  dscp : BitVec 6
  ecn : BitVec 2
  fragment : Bool
  /-- DF, and IPv4 options or IPv6 extension headers (R120, R223). -/
  df : Bool
  extra : Bool
  udp : Bool
  udpSrc : BitVec 16
  udpDst : BitVec 16
  udpSumZero : Bool
  udpSumOk : Bool
  deriving DecidableEq, Repr, Inhabited

/-- What an Ethernet frame carries (R224, R229). -/
inductive EthBody where
  | ztp (p : ZtpPacket)
  | csp (p : CspPacket)
  | ptp (m : PtpMsg)
  | arp (target : BitVec 128) (request : Bool)
  | ns (target : BitVec 128) (solicit : Bool)
  | pause (quanta : BitVec 16)
  | pfc (classes : Byte) (quanta : List (BitVec 16))
  | raw (bytes : List Byte)
  deriving DecidableEq, Repr, Inhabited

/-- A frame on an Ethernet-mode port; `length` counts destination address through FCS (R223). -/
structure EthFrame where
  dst : BitVec 48
  src : BitVec 48
  doubleTag : Bool
  tag : Option (BitVec 3 × BitVec 12)
  control : Bool
  length : Nat
  fcsOk : Bool
  ip : Option IpHeader
  body : EthBody
  deriving DecidableEq, Repr, Inhabited

/-- What the boot ROM finds on the flash pins (R341). -/
inductive Flash where
  | absent
  | blank
  | image (bytes : List Byte)
  deriving DecidableEq, Repr, Inhabited

/-- A companion's request on a Pomel link: the agent itself or a device behind it (R273). -/
inductive ReqClass where
  | agent
  | forwarded
  deriving DecidableEq, Repr, Inhabited

/-- The line a companion asks to keep a copy of (R275): a line of the aperture or of the control space. -/
structure LineAddr where
  ctrl : Bool
  addr : BitVec 40
  deriving DecidableEq, Repr, Inhabited

/-- Number of the 64-byte line. -/
def LineAddr.line (a : LineAddr) : Nat := a.addr.toNat / 64

/-- What the patrol scrub finds at a word (R248, R252). -/
inductive ScrubFind where
  | clean
  | corrected
  | uncorrectable
  deriving DecidableEq, Repr, Inhabited

/-- The outcome of a training of an HBM channel (R249). -/
inductive TrainResult where
  | trained
  | failed
  deriving DecidableEq, Repr, Inhabited

/-- A pending wait: at the head of a work queue, or held for a remote requester (R111). -/
inductive WaitRef where
  | queue (q : BitVec 19)
  | held (qp : BitVec 20) (msn : BitVec 32)
  deriving DecidableEq, Repr, Inhabited

/-- A rate-controlled flow (R138, R184). -/
inductive FlowRef where
  | qp (n : BitVec 20)
  | stream (slot : BitVec 6) (st : BitVec 3)
  deriving DecidableEq, Repr, Inhabited

end Sys2Proof
end

