-- ==== Sys2Proof/Syntax.lean ====
section
/-! DEFINITION. The commands of the ZN-9768, one constructor per row of the table of operations.
An operand says what arrives with the event: the Pomel link an access comes in on, the value written,
the packet received, the queue, QP, slot, port or link concerned (log entry 4). -/

namespace Sys2Proof

/-- One command: an access, a packet, a timer, a signal or an internal step of the device. -/
inductive Instr where
  /-- TIME_EPOCH_WRITE (R12): Manager writes TIME_EPOCH; the write is ignored while a plan is loaded or any queue is not IDLE. -/
  | timeEpochWrite (link : BitVec 2) (value : Word)
  /-- TIME_CTRL_WRITE (R16): Manager writes TIME_CTRL; a ROLE write is ignored while a plan is loaded, HOLD_RATE 0 is taken as 1 and low ERR_LIMIT writes are ignored. -/
  | timeCtrlWrite (link : BitVec 2) (value : Word)
  /-- PTP_SYNC_RECEIVED (R31): A PTP sync from the parent is timestamped, the offset is measured, ESTIMATE is renewed, and LOCK moves and fabric time is corrected. -/
  | ptpSyncReceived (port : BitVec 4) (origin : Word) (sub : BitVec 4)
  /-- ANNOUNCE_RECEIVED (R414): An Announce message is received; the parent's error TLV or clockAccuracy gives P for the estimate. -/
  | announceReceived (port : BitVec 4) (tlv : Option (BitVec 16)) (accuracy : Byte) (rank : Word)
  /-- SYNC_INTERVAL_EXPIRY (R31): Four sync intervals pass without a valid sync while LOCKED; LOCK goes to HOLDOVER and ESTIMATE takes its holdover value. -/
  | syncIntervalExpiry
  /-- HOLDOVER_LIMIT_EXCEEDED (R31): The growing holdover ESTIMATE exceeds ERR_LIMIT; a time fault is logged and LOCK goes to LOST. -/
  | holdoverLimitExceeded
  /-- TIME_PPS_IN_EDGE (R20): A rising edge on TIME_PPS_IN marks a TAI second boundary in GRANDMASTER_BOARD role and is timestamped. -/
  | timePpsInEdge (sub : BitVec 4) (refOk : Bool)
  /-- TIME_TOD (R20): Mailbox command giving the TAI second of the next TIME_PPS_IN edge; refused MALFORMED unless ROLE is GRANDMASTER_BOARD. -/
  | timeTod (door : Door) (link : BitVec 2)
  /-- PPS_OUT_PULSE (R21): At each fabric-time second boundary TIME_PPS_OUT starts a pulse on GPIO_7 when the claim, EN and LOCK allow it. -/
  | ppsOutPulse
  /-- PPS_OUT_PULSE_END (R21): WIDTH_US microseconds after its start the TIME_PPS_OUT pulse ends. -/
  | ppsOutPulseEnd
  /-- ISOBAR_ARM (R29): Writing ISOBAR_CTRL.SNAP arms a snapshot at ISOBAR_TIME, or sets LATE if T is under 4,096 ns ahead. -/
  | isobarArm (link : BitVec 2) (value : Word)
  /-- ISOBAR_LATCH (R30): In the latch tick every unit copies the registers of R378 into shadows, LATCHED_SNAP updates and PEAK fields reset. -/
  | isobarLatch
  /-- SHEET_START (R24): A sheet boundary of a port's ream is reached and the admitted VCs change; held packets and circuit traffic may now start. -/
  | sheetStart (port : BitVec 4)
  /-- EGRESS_FRAME_START (R208): A fabric egress port starts the next frame chosen by arbitration among frames its sheet admits and for which it holds credit. -/
  | egressFrameStart (port : BitVec 4)
  /-- PLAN_LOAD (R46): Mailbox command that range-checks the image, copies it into the plan store and begins the load checks. -/
  | planLoad (door : Door) (link : BitVec 2)
  /-- PLAN_LOAD_COMPLETE (R36): The load checks end; the next slot becomes LOADED with QPs pinned and the bank written, or EMPTY with the failure recorded. -/
  | planLoadComplete
  /-- PLAN_ARM (R48): Mailbox command arming a front F for the loaded plan, or entering MISSED for a past F within the rejoin limits. -/
  | planArm (door : Door) (link : BitVec 2)
  /-- PLAN_CANCEL (R36): Mailbox command withdrawing a LOADED, ARMED or MISSED next plan, unpinning and clearing the inactive bank. -/
  | planCancel (door : Door) (link : BitVec 2)
  /-- PLAN_UNLOAD (R55): Mailbox command placing an empty plan in the next slot, armed for front F. -/
  | planUnload (door : Door) (link : BitVec 2)
  /-- PLAN_FRONT (R48): In the tick of F the armed plan becomes active on every unit, or the device misses the front and the slot becomes MISSED. -/
  | planFront
  /-- REJOIN_POINT (R53): A missed or resumed plan is adopted at the rejoin point, switching exactly as at a front. -/
  | rejoinPoint
  /-- PLAN_DRAIN_BOUND (R51): At F plus DRAIN_BOUND the old bank and unshared claims retire, unfinished old collective steps end FLUSHED and old granules return to the pool. -/
  | planDrainBound
  /-- WQ_DOORBELL (R63): A 64-bit write to a queue's doorbell slot advances PI if in range, or is ignored and counted as stale. -/
  | wqDoorbell (link : BitVec 2) (inst : BitVec 7) (q : BitVec 19) (value : Word)
  /-- ENTRY_START (R77): An issued entry starts once ring slot, ordering, in-flight, slot, landing space and credit conditions all hold. -/
  | entryStart (q : BitVec 19)
  /-- ENTRY_COMPLETE (R67): An entry completes; SIG_LOCAL is applied and, when its group is finished, the group's completion entry is written. -/
  | entryComplete (q : BitVec 19) (seq : BitVec 32)
  /-- CQ_DOORBELL (R70): A write to a ring's doorbell slot frees slots by moving CI and may arm an interrupt. -/
  | cqDoorbell (link : BitVec 2) (inst : BitVec 7) (ring : BitVec 17) (value : Word)
  /-- WQ_CREATE (R96): WQ_CMD CREATE makes a work queue IDLE from WQ_BASE and WQ_CFG, or refuses it with one code. -/
  | wqCreate (link : BitVec 2) (inst : BitVec 7) (value : Word)
  /-- CQ_CREATE (R96): CQ_CMD CREATE makes a completion ring from CQ_BASE and CQ_CFG, or refuses it. -/
  | cqCreate (link : BitVec 2) (inst : BitVec 7) (value : Word)
  /-- NOP (R84): Instruction that does nothing and completes at start. -/
  | nop (q : BitVec 19)
  /-- FENCE (R84): Instruction that holds the head until every earlier entry of the queue has completed. -/
  | fence (q : BitVec 19)
  /-- WRITE (R85): Instruction sending local data to a remote segment on a QP, optionally adding RADD to a remote counter. -/
  | write (q : BitVec 19)
  /-- READ (R85): Instruction reading remote data into a local segment once landing space is reserved. -/
  | read (q : BitVec 19)
  /-- COPY (R86): Instruction copying bytes between two segments of the queue's own instance. -/
  | copy (q : BitVec 19)
  /-- COPY_COMPLETE (R86): The destination of a COPY has been written and the entry completes with the bytes copied. -/
  | copyComplete (q : BitVec 19) (seq : BitVec 32)
  /-- SIGNAL (R102): Instruction adding a value to a local or remote counter, releasing waits it satisfies. -/
  | signal (q : BitVec 19)
  /-- WAIT_COUNTER (R104): Instruction holding the head until a counter reaches an expected value, range-checked at issue. -/
  | waitCounter (q : BitVec 19)
  /-- SEM_ADD (R105): Instruction adding to a semaphore, or ending SEMAPHORE_OVERFLOW without change. -/
  | semAdd (q : BitVec 19)
  /-- SEM_WAIT (R106): Instruction joining a semaphore's FIFO of waiters and subtracting its amount when served. -/
  | semWait (q : BitVec 19)
  /-- WAIT_QUEUE (R88): Instruction holding the head until a named queue's completed prefix reaches a target. -/
  | waitQueue (q : BitVec 19)
  /-- TIME_WAIT (R90): Instruction holding the head until a target fabric time is reached. -/
  | timeWait (q : BitVec 19)
  /-- TIME_WAIT_REACHED (R90): The tick of a TIME_WAIT's target is reached and the wait completes. -/
  | timeWaitReached (q : BitVec 19)
  /-- WAIT_DEADLINE (R82): A wait's deadline tick is reached with the wait unsatisfied; it ends WAIT_TIMEOUT, locally or at the responder. -/
  | waitDeadline (wait : WaitRef)
  /-- HOST_SIGNAL (R91): Instruction writing a flag into companion memory and/or sending an interrupt vector. -/
  | hostSignal (q : BitVec 19)
  /-- COLL_STEP (R92): Instruction starting one step of a collective on a slot. -/
  | collStep (q : BitVec 19)
  /-- COUCH_COPY (R264): Instruction copying a couch region into its older generation locally and at the partner, then committing. -/
  | couchCopy (q : BitVec 19)
  /-- RAW_SEND (R94): Instruction sending a raw Ethernet frame, or a large send cut into frames, on a held Ethernet port. -/
  | rawSend (q : BitVec 19)
  /-- SYNC_INIT (R100): SYNC_GCMD INIT zeroes a granule and sets its mode in one tick, or is refused MALFORMED. -/
  | syncInit (link : BitVec 2) (inst : BitVec 7) (value : Word)
  /-- SYNC_GSHARE_WRITE (R99): The owner writes SYNC_GSHARE0 or 1 to share a granule, effective the next tick. -/
  | syncGshareWrite (link : BitVec 2) (inst : BitVec 7) (upper : Bool) (value : Word)
  /-- SYNC_DOORBELL (R112): A companion 64-bit write adds an amount to a counter or semaphore, silently ignored if invalid. -/
  | syncDoorbell (link : BitVec 2) (inst : BitVec 7) (value : Word)
  /-- SYNC_RECLAIM (R115): Mailbox command returning an orphaned granule, zeroed, to the pool or its plan claim. -/
  | syncReclaim (door : Door) (link : BitVec 2)
  /-- SYNC_MEMORY_UE (R116): An uncorrectable sync-memory word orphans its granule and logs a memory fault. -/
  | syncMemoryUe (granule : BitVec 7)
  /-- LULL_BEGIN (R117): A head wait unsatisfied for the lull threshold becomes a lull and is reported to the power manager. -/
  | lullBegin (q : BitVec 19)
  /-- ZTP_PACKET_SEND (R138): The requester sends a request packet when its rate budget or circuit sheet allows. -/
  | ztpPacketSend (qp : BitVec 20)
  /-- WRITE_PACKET (R127): A WRITE request packet arrives at the responder and passes the checks, then is placed at most once. -/
  | writePacket (arr : Arrival) (pkt : ZtpPacket)
  /-- READ_REQ (R127): A READ_REQ arrives at the responder; it is checked and the read runs, sending READ_RESP packets. -/
  | readReq (arr : Arrival) (pkt : ZtpPacket)
  /-- SYNC_REQ (R127): A SYNC_REQ arrives; the remote sync operation is applied or held, and answered. -/
  | syncReq (arr : Arrival) (pkt : ZtpPacket)
  /-- ACK (R128): An ACK arrives at the requester, acknowledging PSNs and finishing messages. -/
  | ack (arr : Arrival) (pkt : ZtpPacket)
  /-- NAK (R133): A NAK SEQUENCE, BUSY or FAILED arrives and causes resend, back-off or message end. -/
  | nak (arr : Arrival) (pkt : ZtpPacket)
  /-- READ_RESP (R137): A READ_RESP arrives and is placed in PSN order, or dropped. -/
  | readResp (arr : Arrival) (pkt : ZtpPacket)
  /-- SYNC_DONE (R131): A SYNC_DONE arrives carrying the final status and RESULT of a held remote wait. -/
  | syncDone (arr : Arrival) (pkt : ZtpPacket)
  /-- CNP (R140): A CNP arrives and the requester cuts its rate. -/
  | cnp (arr : Arrival) (pkt : ZtpPacket)
  /-- ACK_DELAY_EXPIRY (R128): ACK_DELAY passes since the first unacknowledged packet and the responder sends an ACK. -/
  | ackDelayExpiry (qp : BitVec 20)
  /-- RETRY_TIMER_EXPIRY (R133): The retry timer expires; the requester resends from the oldest unacknowledged PSN, or exhausts retries. -/
  | retryTimerExpiry (qp : BitVec 20)
  /-- PROBE_TIMER_EXPIRY (R131): CAP after an ACK HELD, the requester resends the SYNC_REQ as a probe. -/
  | probeTimerExpiry (qp : BitVec 20) (msn : BitVec 32)
  /-- BUSY_BACKOFF_END (R136): A NAK BUSY back-off ends and the requester resends from the NAK's PSN, restarting its timer. -/
  | busyBackoffEnd (qp : BitVec 20)
  /-- RATE_PERIOD (R140): Once per PERIOD the requester updates alpha and its rate from RTT. -/
  | ratePeriod (flow : FlowRef)
  /-- CONTEXT_FETCH_COMPLETE (R152): A QP context fetched from the store becomes resident and held packets pass the checks from step 3. -/
  | contextFetchComplete (qp : BitVec 20)
  /-- QP_OPEN (R145): Mailbox command opening a QP with its peer, path, keys and parameters; the active end starts setup. -/
  | qpOpen (door : Door) (link : BitVec 2)
  /-- QP_CLOSE (R149): Mailbox command putting a QP into DRAINING, or closing it from OPENING or ERROR. -/
  | qpClose (door : Door) (link : BitVec 2)
  /-- CONN_REQ (R147): A CONN_REQ arrives at the passive end, which decides the setup and answers CONN_REP. -/
  | connReq (arr : Arrival) (pkt : ZtpPacket)
  /-- CONN_REP (R146): A CONN_REP arrives at the active end, which sends CONN_RTU and opens, or enters ERROR. -/
  | connRep (arr : Arrival) (pkt : ZtpPacket)
  /-- CONN_RTU (R146): A CONN_RTU arrives and the passive end becomes OPEN. -/
  | connRtu (arr : Arrival) (pkt : ZtpPacket)
  /-- DISC_REQ (R149): A DISC_REQ arrives; an OPEN QP drains, others answer DISC_REP. -/
  | discReq (arr : Arrival) (pkt : ZtpPacket)
  /-- DISC_REP (R154): A DISC_REP arrives and a drained QP becomes CLOSED. -/
  | discRep (arr : Arrival) (pkt : ZtpPacket)
  /-- CONN_REQ_TIMER (R146): Each millisecond the active end resends CONN_REQ while OPENING. -/
  | connReqTimer (qp : BitVec 20)
  /-- SETUP_TIMEOUT (R146): CONN_TRIES milliseconds pass without OPEN; the QP enters ERROR with SETUP_REASON 0xFF. -/
  | setupTimeout (qp : BitVec 20)
  /-- DISC_REQ_TIMER (R149): Each millisecond a drained QP resends DISC_REQ until DISC_REP arrives. -/
  | discReqTimer (qp : BitVec 20)
  /-- QP_DRAIN_BOUND (R149): The QP drain bound passes; unfinished messages end FLUSHED and the QP is CLOSED. -/
  | qpDrainBound (qp : BitVec 20)
  /-- CSP_DATA (R181): A CSP DATA piece arrives, is checked against the descriptor and staged, and is acknowledged. -/
  | cspData (arr : Arrival) (pkt : CspPacket)
  /-- CSP_ACK (R181): A CSP ACK arrives, updating arrival and consumption credits of a stream. -/
  | cspAck (arr : Arrival) (pkt : CspPacket)
  /-- PIECE_SEND (R180): The sequencer sends a piece once the receiver has granted credit and the sheet or rate allows. -/
  | pieceSend (slot : BitVec 6) (st : BitVec 3)
  /-- PIECE_CONSUME (R180): A press consumes a piece once it has arrived, combining and rounding as the algorithm requires. -/
  | pieceConsume (slot : BitVec 6) (st : BitVec 3)
  /-- PIECE_RESEND_TIMER (R183): A piece not acknowledged in time is sent again, or the step ends RETRY_EXHAUSTED after RETRIES repeats. -/
  | pieceResendTimer (slot : BitVec 6) (st : BitVec 3)
  /-- STEP_LIMIT_EXPIRY (R185): A step not complete STEP_LIMIT µs after start ends WAIT_TIMEOUT and the slot enters FAULT. -/
  | stepLimitExpiry (slot : BitVec 6)
  /-- COLL_STEP_COMPLETE (R178): Every element and residual of the step is written; the entry completes and the slot returns to IDLE. -/
  | collStepComplete (slot : BitVec 6)
  /-- FABRIC_FRAME_RECEIVED (R196): A frame arrives on a fabric link, is accepted in LSEQ order with good LCRC, and is delivered, forwarded or dropped. -/
  | fabricFrameReceived (port : BitVec 4) (frame : FabFrame)
  /-- HELLO (R194): A HELLO link control frame arrives; three in a row bring the link UP, or a different neighbour takes it DOWN. -/
  | hello (port : BitVec 4) (src : BitVec 18) (verMax : Byte) (nbrPort : BitVec 4) (planId : Word)
  /-- HELLO_TIMER (R194): Every 10 µs while TRAINING and every 1 ms while UP the port sends HELLO. -/
  | helloTimer (port : BitVec 4)
  /-- LINK_ACK (R194): A link-level ACK arrives acknowledging replayed frames up to an LSEQ. -/
  | linkAck (port : BitVec 4) (lseq : BitVec 16)
  /-- LINK_NAK (R196): A link-level NAK arrives and the sender replays from the expected LSEQ. -/
  | linkNak (port : BitVec 4) (lseq : BitVec 16)
  /-- CREDIT (R198): A CREDIT link control frame returns VC credits to the sender. -/
  | credit (port : BitVec 4) (vc : BitVec 3) (amount : BitVec 16)
  /-- REPLAY_TIMEOUT (R196): No acknowledgement advances for REPLAY_TO and the sender replays; eight fruitless replays enter RETRAIN. -/
  | replayTimeout (port : BitVec 4)
  /-- PCS_ALIGNMENT_LOSS (R195): PCS alignment is lost for 10 µs and the fabric link enters RETRAIN. -/
  | pcsAlignmentLoss (port : BitVec 4)
  /-- RETRAIN_MAX_EXPIRY (R195): RETRAIN_MAX elapses in RETRAIN; the replay buffer is discarded, a link fault logged and the link goes DOWN. -/
  | retrainMaxExpiry (port : BitVec 4)
  /-- FABRIC_RETRAIN_TIMER (R193): 1 ms after a fabric port goes DOWN with EN still 1, it starts training again. -/
  | fabricRetrainTimer (port : BitVec 4)
  /-- FLL_CFG_WRITE (R193): Manager writes FLL_CFG; EN starts training or takes the link DOWN, and MODE changes only with EN clear. -/
  | fllCfgWrite (link : BitVec 2) (port : BitVec 4) (value : Word)
  /-- FAB_NODE_WRITE (R222): Manager writes FAB_NODE; NODE is ignored while a plan slot holds a plan, and SET lets fabric ports train. -/
  | fabNodeWrite (link : BitVec 2) (value : Word)
  /-- VC0_HOLD_EXPIRY (R199): A VC0 packet waiting VC0_HOLD for credit is dropped and counted. -/
  | vc0HoldExpiry (port : BitVec 4)
  /-- ROUTE_COPY (R217): ROUTE_CMD COPY stages a RETIRED bank as a copy of the INJECT bank, or is refused. -/
  | routeCopy (link : BitVec 2) (value : Word)
  /-- ROUTE_DISCARD (R217): ROUTE_CMD DISCARD clears a manager-staged bank, or is refused. -/
  | routeDiscard (link : BitVec 2) (value : Word)
  /-- ROUTE_TBL_DATA_WRITE (R217): Manager writes a table entry or bitmap word into a RETIRED or manager-STAGED bank, staging a RETIRED one. -/
  | routeTblDataWrite (link : BitVec 2) (value : Word)
  /-- ROUTE_TBL_DATA_READ (R222): Manager reads the selected table entry, and INDEX advances when AUTO_INC is set. -/
  | routeTblDataRead (link : BitVec 2)
  /-- TABLE_FRONT_WRITE (R218): Manager writes TABLE_FRONT to arm a table front for the staged bank, or the write is refused. -/
  | tableFrontWrite (link : BitVec 2) (value : Word)
  /-- TABLE_FRONT (R219): In the tick of F injection moves to the armed bank and the old bank enters DRAIN. -/
  | tableFront
  /-- BANK_DRAIN_BOUND (R217): DRAIN_BOUND after a switch the DRAIN bank is cleared and becomes RETIRED. -/
  | bankDrainBound
  /-- ETH_FRAME_RECEIVED (R229): A frame received on an Ethernet-mode port passes format, filter, VLAN, policer and protocol steps. -/
  | ethFrameReceived (port : BitVec 4) (sub : BitVec 2) (frame : EthFrame)
  /-- PFC_REFRESH (R231): Half the pause time passes with occupancy above XON and the PFC frame is sent again. -/
  | pfcRefresh (port : BitVec 4) (sub : BitVec 2) (prio : BitVec 3)
  /-- PAUSE_FRAME (R232): A pause or PFC frame received on a sub-port stops the named priorities for quanta × 512 bit times. -/
  | pauseFrame (port : BitVec 4) (sub : BitVec 2) (frame : EthFrame)
  /-- PAUSE_EXPIRY (R232): The pause time of a priority runs out and its frames become eligible again. -/
  | pauseExpiry (port : BitVec 4) (sub : BitVec 2) (prio : BitVec 3)
  /-- ETH_FRAME_START (R233): A sub-port starts the next frame chosen by the three-level scheduler, subject to gates, shapers and pause. -/
  | ethFrameStart (port : BitVec 4) (sub : BitVec 2)
  /-- GATE_ENTRY (R238): The next entry of a port's gate list begins and the open gates change. -/
  | gateEntry (port : BitVec 4)
  /-- SUBPORT_LINK_UP (R228): An Ethernet sub-port comes up and a gratuitous ARP or neighbour advertisement is sent. -/
  | subportLinkUp (port : BitVec 4) (sub : BitVec 2)
  /-- SUBPORT_LINK_DOWN (R241): An Ethernet sub-port goes down; its frames in progress are lost and queued frames move to the next sub-port. -/
  | subportLinkDown (port : BitVec 4) (sub : BitVec 2)
  /-- SEG_SET (R256): SEG_CMD SET makes a segment VALID from SEG_BASE, SEG_CFG and SEG_KEY, or refuses it. -/
  | segSet (link : BitVec 2) (inst : BitVec 7) (value : Word)
  /-- SEG_CLEAR (R256): SEG_CMD CLEAR clears a segment, leaving it DRAINING while translations are held. -/
  | segClear (link : BitVec 2) (inst : BitVec 7) (value : Word)
  /-- PATROL_SCRUB (R248): The patrol scrub reads HBM words, writing back corrected errors and logging uncorrectable ones. -/
  | patrolScrub (addr : BitVec 40) (found : ScrubFind)
  /-- CHANNEL_RETRAIN (R249): Periodically or after a 5 °C move, an HBM channel retrains its timing in refresh windows. -/
  | channelRetrain (stack : BitVec 4) (res : TrainResult)
  /-- COUCH_REOPEN (R263): A couch QP in ERROR is closed and reopened by the control cores within 10 ms. -/
  | couchReopen (qp : BitVec 20)
  /-- PL_CFG_WRITE (R272): Manager writes PL_CFG; EN = 1 starts training and EN = 0 takes the link DOWN with an epoch bump. -/
  | plCfgWrite (link : BitVec 2) (pl : BitVec 2) (value : Word)
  /-- FORCE_DOWN (R272): PL_CMD FORCE_DOWN takes a Pomel link DOWN, bumping its epoch if it was UP or RETRAIN. -/
  | forceDown (link : BitVec 2) (pl : BitVec 2) (value : Word)
  /-- PL_TRAINING_COMPLETE (R271): Version and width are agreed and the Pomel link becomes UP; pending vectors are sent. -/
  | plTrainingComplete (pl : BitVec 2) (ver : BitVec 2) (agent : Bool) (lanes : BitVec 16)
  /-- PL_TRAINING_TIMEOUT (R271): A link not UP 500 ms after entering TRAINING logs a fault and sets cause BOARD. -/
  | plTrainingTimeout (pl : BitVec 2)
  /-- PL_RETRAIN_TIMER (R272): 1 ms after a Pomel link goes DOWN with EN 1, it enters TRAINING again. -/
  | plRetrainTimer (pl : BitVec 2)
  /-- PL_ALIGNMENT_LOSS (R272): Lane alignment is lost or eight replays fail and the Pomel link enters RETRAIN, holding requests. -/
  | plAlignmentLoss (pl : BitVec 2)
  /-- PL_REALIGNED (R272): Lanes align again within 20 µs and the link returns to UP, replaying held requests. -/
  | plRealigned (pl : BitVec 2) (lanes : BitVec 16)
  /-- PL_RETRAIN_TIMEOUT (R272): 20 µs in RETRAIN without alignment; the epoch is bumped and the link goes DOWN. -/
  | plRetrainTimeout (pl : BitVec 2)
  /-- RESET_NOTICE (R272): A companion's RESET_NOTICE arrives; the epoch is bumped and the link goes DOWN. -/
  | resetNotice (pl : BitVec 2)
  /-- RD_SHR (R276): A companion reads an aperture line keeping a shared copy, or a line of CTRL uncached. -/
  | rdShr (pl : BitVec 2) (cls : ReqClass) (addr : LineAddr)
  /-- RD_OWN (R277): A companion reads an aperture line for writing, tracked in the snoop filter, or a line of CTRL uncached. -/
  | rdOwn (pl : BitVec 2) (cls : ReqClass) (addr : LineAddr)
  /-- RD_NC (R274): A companion reads an aperture line uncached, or a CTRL register, checked against the aperture. -/
  | rdNc (pl : BitVec 2) (cls : ReqClass) (ctrl : Bool) (addr : BitVec 40) (size : BitVec 7)
  /-- WR_LINE (R274): A companion writes a whole line to the aperture or control space. -/
  | wrLine (pl : BitVec 2) (cls : ReqClass) (ctrl : Bool) (addr : BitVec 40) (data : BitVec 512)
  /-- WR_PART (R253): A companion writes masked bytes of a line to the aperture or control space. -/
  | wrPart (pl : BitVec 2) (cls : ReqClass) (ctrl : Bool) (addr : BitVec 40) (mask : BitVec 64) (data : BitVec 512)
  /-- SNP_INV (R278): The companion takes back a watched line and the device re-reads the watched queue entry. -/
  | snpInv (pl : BitVec 2) (addr : BitVec 52) (data : BitVec 512)
  /-- WATCH_POLL (R278): With no watch free, the device re-reads an early entry every 1 µs. -/
  | watchPoll (q : BitVec 19)
  /-- POMEL_FENCE (R280): A companion FENCE message completes once its earlier aperture writes are visible to every engine. -/
  | pomelFence (pl : BitVec 2)
  /-- CMP (R275): A completion, or CMP_ERR, arrives for a request the device sent to the companion. -/
  | cmp (pl : BitVec 2) (err : Bool) (data : BitVec 512)
  /-- REGISTER_WRITE (R297): A control-space write to a register without a row of its own takes its fields, or is counted as a violation. -/
  | registerWrite (link : BitVec 2) (addr : BitVec 34) (value : Word)
  /-- MBX_INFO (R306): Mailbox command returning the interface version and the versions of a command at this door. -/
  | mbxInfo (door : Door) (link : BitVec 2)
  /-- INST_CREATE (R299): Mailbox command creating an instance with its resources, or adding to instance 0. -/
  | instCreate (door : Door) (link : BitVec 2)
  /-- INST_CALM (R301): Mailbox command putting an instance into CALMING and starting its drain bound. -/
  | instCalm (door : Door) (link : BitVec 2)
  /-- INST_RESET (R302): Mailbox command resetting a CALM instance, releasing its resources. -/
  | instReset (door : Door) (link : BitVec 2)
  /-- INST_REMOVE (R300): Mailbox command calming an instance and resetting it once CALM. -/
  | instRemove (door : Door) (link : BitVec 2)
  /-- INST_DRAIN_BOUND (R301): The instance drain bound passes; what still runs ends FLUSHED and the instance becomes CALM. -/
  | instDrainBound (inst : BitVec 7)
  /-- INST_ZEROING_COMPLETE (R302): The zeroing of a resetting instance's HBM regions ends and the instance becomes FREE. -/
  | instZeroingComplete (inst : BitVec 7)
  /-- PWR_CAP_WRITE (R310): Manager writes the package cap, accepted or refused against the plans' reservations. -/
  | pwrCapWrite (link : BitVec 2) (value : Word)
  /-- CREDIT_PERIOD (R315): Every 1,024 ns each bucket and the shared pool are refilled. -/
  | creditPeriod
  /-- COEFFICIENT_UPDATE (R313): Every 10 ms the energy coefficients K and static estimate S are updated from the monitors. -/
  | coefficientUpdate (measured : List Nat) (staticW : BitVec 10)
  /-- THROTTLE_REQUEST (R318): At a 100 µs boundary with power over cap or Tj high, every unit is asked one more throttle level. -/
  | throttleRequest (tj : Byte)
  /-- THROTTLE_RELEASE (R318): At a 1 ms boundary with power and temperature low, every unit lowers one throttle level. -/
  | throttleRelease (tj : Byte)
  /-- DEFER_EXPIRY (R319): DEFER_US after a deferred request, the throttle takes effect regardless. -/
  | deferExpiry
  /-- THERMAL_OVERRIDE (R320): The hottest junction reaches 105 °C; every unit goes to L = 8, EMERG sets and a thermal fault is logged. -/
  | thermalOverride (tj : Byte)
  /-- EMERG_CLEAR (R320): The temperature falls below THROTTLE_TJ; EMERG clears and normal throttling resumes. -/
  | emergClear (tj : Byte)
  /-- FAULT_LOG_APPEND (R324): After every engine has reported for a tick, the tick's fault entries are appended in order. -/
  | faultLogAppend
  /-- CORE_ACK_WRITE (R326): Manager writes 1 to FLT_STATUS.CORE_ACK, clearing cause CORE. -/
  | coreAckWrite (link : BitVec 2) (value : Word)
  /-- ALT_NOTICE (R330): A link control notice of an alternate arrives and its earliest E is recorded and forwarded. -/
  | altNotice (port : BitVec 4) (alt : BitVec 16) (e : Word) (hops : Byte) (origin : BitVec 18)
  /-- NOTICE_REPEAT (R330): A notice is sent again 50 µs after its previous sending, three times in all. -/
  | noticeRepeat (alt : BitVec 16)
  /-- DECISION_POINT (R331): In the tick of E the alternate's items are applied in one tick, or refused whole. -/
  | decisionPoint
  /-- RESTORE_COMPLETE (R334): A region's restore READs end; the region records its generation or is left NONE. -/
  | restoreComplete (region : BitVec 16)
  /-- CORE_WATCHDOG_EXPIRY (R337): A control core misses its watchdog, is reset and logs a CORE entry; three in 10 s set cause CORE. -/
  | coreWatchdogExpiry (core : BitVec 4) (task : Byte)
  /-- PORST_N_RELEASE (R339): Reset is released after power-up and a cold boot starts, or BOOT_HALT if the halt fuse is blown. -/
  | porstNRelease (flash : Flash) (strap : BitVec 2)
  /-- PORST_N_ASSERT (R394): A PORST_N low of 10 µs or more is taken as a cold reset. -/
  | porstNAssert (lowNs : Nat)
  /-- FLASH_RETRY (R341): Every 1 s while the flash is absent or blank the boot tries again. -/
  | flashRetry (flash : Flash)
  /-- BOOT_COMPLETE (R339): Bring-up ends, the mailbox doors open and the device enters READY or DEGRADED. -/
  | bootComplete
  /-- WRST_N_ASSERT (R395): WRST_N low for 100 ns puts HBM in self-refresh and links DOWN. -/
  | wrstNAssert
  /-- WRST_N_RELEASE (R340): WRST_N is released and a warm boot runs, keeping what R335 lists. -/
  | wrstNRelease
  /-- RAIL_LOSS (R392): A main rail stays below its band for 10 µs and the device enters OFF. -/
  | railLoss
  /-- REFCLK_SYS_LOSS (R399): REFCLK_SYS stops or leaves range for 1 µs and is treated as WRST_N asserted, with FAULT_N low. -/
  | refclkSysLoss
  /-- REFCLK_SYS_RECOVERY (R399): REFCLK_SYS has been in range for 1 ms and the internal warm reset is released. -/
  | refclkSysRecovery
  /-- THERMAL_TRIP (R411): The junction reaches 115 °C or a stack 105 °C; the device enters OFF and drives THERMTRIP_N low. -/
  | thermalTrip
  /-- FW_STAGE_LOAD (R348): FW_STAGE LOAD copies and checks a new firmware image into the staging area. -/
  | fwStageLoad (door : Door) (link : BitVec 2)
  /-- FW_STAGE_COMMIT (R349): FW_STAGE COMMIT starts writing the staged image to the flash. -/
  | fwStageCommit (door : Door) (link : BitVec 2)
  /-- FW_STAGE_ABORT (R347): FW_STAGE ABORT discards the staged copy. -/
  | fwStageAbort (door : Door) (link : BitVec 2)
  /-- FW_STAGE_ADVANCE (R352): FW_STAGE ADVANCE blows security version fuses up to the given SVN. -/
  | fwStageAdvance (door : Door) (link : BitVec 2)
  /-- FLASH_WRITE_COMPLETE (R349): The flash write and read-back end; the staging condition becomes COMMITTED or FAILED. -/
  | flashWriteComplete (readBack : Bool)
  /-- FW_QUERY (R353): Mailbox command returning the running and flash versions and the staging condition. -/
  | fwQuery (door : Door) (link : BitVec 2)
  /-- IDENTITY (R356): Mailbox command writing the identity, device CA and AK certificates to a segment. -/
  | identity (door : Door) (link : BitVec 2)
  /-- ATTEST (R357): Mailbox command writing a signed attestation report with the given nonce. -/
  | attest (door : Door) (link : BitVec 2)
  /-- I3C_IDENTITY (R358): I3C command returning the 64-byte identity record, in every state but OFF. -/
  | i3cIdentity
  /-- I3C_MBX_WR (R402): I3C command writing a request word of the I3C mailbox door. -/
  | i3cMbxWr (w : Byte) (data : Word)
  /-- I3C_MBX_GO (R402): I3C command submitting the I3C door's mailbox request. -/
  | i3cMbxGo
  /-- I3C_MBX_RD (R402): I3C command reading a response word of the I3C door. -/
  | i3cMbxRd (w : Byte)
  /-- I3C_MBX_STAT (R402): I3C command reading the I3C door's mailbox status. -/
  | i3cMbxStat
  /-- SETDASA (R401): I3C common command assigning a dynamic address from the static address. -/
  | setdasa (dyn : BitVec 7)
  /-- ENTDAA (R401): I3C common command entering dynamic address assignment. -/
  | entdaa (dyn : BitVec 7)
  /-- RSTDAA (R401): I3C common command resetting the dynamic address. -/
  | rstdaa
  /-- GETPID (R401): I3C common command returning the provisional ID. -/
  | getpid
  /-- GETBCR (R401): I3C common command returning the bus characteristics register. -/
  | getbcr
  /-- GETDCR (R401): I3C common command returning the device characteristics register. -/
  | getdcr
  /-- MTR_VDD_RISE (R362): MTR_VDD rises; the island blows one boot fuse and starts counting from zero. -/
  | mtrVddRise
  /-- METER_PERIOD_CLOSE (R366): At a period boundary the island writes signed records for each non-FREE instance and the device set. -/
  | meterPeriodClose
  /-- METER_RING_FLUSH (R367): Once HBM serves again, held records are written to the ring in order. -/
  | meterRingFlush
  /-- MTR_IDENTITY (R368): Auditor command returning the island's identity. -/
  | mtrIdentity
  /-- CERT (R368): Auditor command returning part of the meter certificate. -/
  | cert (offset : BitVec 16)
  /-- LAST_SEQ (R368): Auditor command returning the newest RECORD_SEQ. -/
  | lastSeq
  /-- RECORD (R368): Auditor command returning a record from the island's SRAM. -/
  | record (seq : Word)
  /-- SPOT (R368): Auditor command producing a signed SPOT record with the given nonce, rate-limited. -/
  | spot (inst : Byte) (nonce : BitVec 256)
  /-- TST_LOOP_WRITE (R371): Manager sets a port loopback depth and pattern, taken only while the port is disabled and unused by plans. -/
  | tstLoopWrite (link : BitVec 2) (port : BitVec 4) (value : Word)
  /-- TST_PL_LOOP_WRITE (R374): Manager sets a Pomel link loopback, taken only while the link is disabled. -/
  | tstPlLoopWrite (link : BitVec 2) (pl : BitVec 2) (value : Word)
  /-- PHY_LOOP (R375): TST_MEM command running the HBM PHY loopback on the named stacks. -/
  | phyLoop (link : BitVec 2) (value : Word)
  /-- SELF_TEST (R375): TST_MEM command running the march test of the pool on the named stacks. -/
  | selfTest (link : BitVec 2) (value : Word)
  /-- MEM_TEST_COMPLETE (R375): A memory test ends and its results appear in TST_MEM_RES. -/
  | memTestComplete (failing : List (BitVec 40))
  /-- TST_INJECT_WRITE (R376): Manager arms an injected error on a pool word, applied at its next write. -/
  | tstInjectWrite (link : BitVec 2) (value : Word)
  /-- BYPASS (R377): JTAG instruction selecting the bypass register. -/
  | bypass
  /-- IDCODE (R377): JTAG instruction reading the IDCODE 0x1976_834B. -/
  | idcode
  /-- SAMPLE_PRELOAD (R377): JTAG instruction sampling and preloading the boundary register. -/
  | samplePreload
  /-- EXTEST (R377): JTAG instruction driving balls from the boundary register, loaded as BYPASS in service unless SCAN_EN. -/
  | extest
  /-- EXTEST_PULSE (R377): IEEE 1149.6 instruction testing AC-coupled lanes with pulses. -/
  | extestPulse
  /-- EXTEST_TRAIN (R377): IEEE 1149.6 instruction testing AC-coupled lanes with pulse trains. -/
  | extestTrain
  /-- CLAMP (R377): JTAG instruction holding ball states while bypassing. -/
  | clamp
  /-- HIGHZ (R377): JTAG instruction placing outputs at high impedance. -/
  | highz
  /-- STACK_STOPS_ANSWERING (R251): An HBM stack stops answering; the device marks it for retirement, sets RETIRE_PENDING, logs a memory fault and becomes DEGRADED. -/
  | stackStopsAnswering (stack : BitVec 4)
  /-- MTR_VDD_FALL (R393): MTR_VDD is removed; the island stops counting and signing, MTR_STATUS.RUNNING reads 0, and its counters are lost until the next rise. -/
  | mtrVddFall
  /-- PTP_SYNC_SEND (R17): At each sync interval set by SYNC_LOG, a MASTER port sends a Sync, with a Follow_Up when TWO_STEP = 1, timestamped under R19. -/
  | ptpSyncSend (port : BitVec 4)
  /-- ANNOUNCE_SEND (R414): A port sends an Announce message carrying the error TLV with its TIME_ERR.ESTIMATE. -/
  | announceSend (port : BitVec 4)
  /-- PDELAY_REQ (R17): A peer-delay message arrives on a fabric-mode port; the port answers it with timestamps, or measures the link delay that FLL_STATUS.LINK_DELAY shows. -/
  | pdelayReq (port : BitVec 4) (msg : PtpMsg) (sub : BitVec 4)
  /-- DELAY_REQ (R18): A Delay_Req arrives on an Ethernet-mode port acting as master and is answered with Delay_Resp under the end-to-end mechanism. -/
  | delayReq (port : BitVec 4) (msg : PtpMsg) (sub : BitVec 4)
  deriving DecidableEq, Repr

end Sys2Proof
end

