-- ==== Sys2Proof/Decode.lean ====
section
/-! DEFINITION. The command a word spells by the table of operations.  Every row of the table has an
empty list of bit fields: a command arrives as an event with operands, not as a word of bits, so no
word spells a command (log entry 1). -/

namespace Sys2Proof

/-- The command that `nbits` bits `w` spell by the table: none, because no row gives bits. -/
def decodeTableWord (_nbits _w : Nat) : Option Instr := none

end Sys2Proof
end

