-- ==== Sys2Proof/Machine/Bits.lean ====
section
/-! DEFINITION. Bit fields, byte orders and modular counts. -/

namespace Sys2Proof.Machine

/-- Bits `hi:lo` of a register, as a number (R4). -/
def fld (r : Word) (hi lo : Nat) : Nat := r.toNat / 2 ^ lo % 2 ^ (hi + 1 - lo)

/-- Bit `i` of a register. -/
def bit (r : Word) (i : Nat) : Bool := r.getLsbD i

/-- A register with bits `hi:lo` set to `v`, the rest unchanged. -/
def setFld (r : Word) (hi lo v : Nat) : Word :=
  BitVec.ofNat 64 (r.toNat - fld r hi lo * 2 ^ lo + v % 2 ^ (hi + 1 - lo) * 2 ^ lo)

/-- A register built from its fields `(hi, lo, value)`; bits no field covers read 0 (R5). -/
def reg (fs : List (Nat × Nat × Nat)) : Word :=
  BitVec.ofNat 64 (fs.foldl (fun a f => a + f.2.2 % 2 ^ (f.1 + 1 - f.2.1) * 2 ^ f.2.1) 0)

/-- The mask of a list of fields `(hi, lo)`. -/
def maskOf (fs : List (Nat × Nat)) : Word :=
  BitVec.ofNat 64 (fs.foldl (fun a f => a + (2 ^ (f.1 + 1 - f.2) - 1) * 2 ^ f.2) 0)

/-- What a write of `new` leaves in a register whose writable fields are `fs` (R5). -/
def merge (fs : List (Nat × Nat)) (old new : Word) : Word :=
  (old &&& ~~~(maskOf fs)) ||| (new &&& maskOf fs)

/-- A write sets a bit outside the writable fields (R297). -/
def rsvdSet (fs : List (Nat × Nat)) (new : Word) : Bool := (new &&& ~~~(maskOf fs)) != 0

/-- A count that wraps at `w` bits. -/
def wrap (w n : Nat) : Nat := n % 2 ^ w

/-- A count that saturates at `w` bits. -/
def sat (w n : Nat) : Nat := min n (2 ^ w - 1)

/-- `(a - b) mod 2^w`. -/
def dmod (w a b : Nat) : Nat := (a + 2 ^ w - b % 2 ^ w) % 2 ^ w

/-- `a` lies before `b` in a sequence of `w`-bit numbers. -/
def before (w a b : Nat) : Bool := dmod w a b ≥ 2 ^ (w - 1)

/-- Least whole number not below `a / b`. -/
def ceilDiv (a b : Nat) : Nat := (a + b - 1) / b

/-- The low byte of a number. -/
def byteOf (n : Nat) : Byte := BitVec.ofNat 8 n

/-- `k` bytes of `n`, least significant first. -/
def leBytes : Nat → Nat → List Byte
  | 0, _ => []
  | k + 1, n => byteOf n :: leBytes k (n / 256)

/-- The number that bytes hold, least significant first. -/
def leVal : List Byte → Nat
  | [] => 0
  | b :: bs => b.toNat + 256 * leVal bs

/-- `k` bytes of `n`, most significant first. -/
def beBytes (k n : Nat) : List Byte := (leBytes k n).reverse

/-- The number that bytes hold, most significant first. -/
def beVal (bs : List Byte) : Nat := leVal bs.reverse

/-- `n` bytes of a list from offset `o`. -/
def slice (bs : List Byte) (o n : Nat) : List Byte := (bs.drop o).take n

/-- A little-endian field of `n` bytes at offset `o`. -/
def leAt (bs : List Byte) (o n : Nat) : Nat := leVal (slice bs o n)

/-- All bytes from offset `o`, `n` of them, are zero. -/
def zeroAt (bs : List Byte) (o n : Nat) : Bool := (slice bs o n).all (· == 0)

/-- The eight 64-bit words of a 64-byte line. -/
def lineBytes (d : BitVec 512) : List Byte := leBytes 64 d.toNat

/-- A number read as two's complement in `w` bits. -/
def signed (w n : Nat) : Int := if n % 2 ^ w < 2 ^ (w - 1) then (n % 2 ^ w : Nat) else (n % 2 ^ w : Nat) - (2 ^ w : Nat)

/-- A signed number saturated to `w` bits, as the two's complement field. -/
def satSigned (w : Nat) (i : Int) : Nat :=
  let c := max (-(2 ^ (w - 1) : Nat) : Int) (min ((2 ^ (w - 1) : Nat) - 1) i)
  if c < 0 then (c + (2 ^ w : Nat)).toNat else c.toNat

/-- The numbers from `a`, `n` of them. -/
def rangeFrom (a n : Nat) : List Nat := (List.range n).map (· + a)

/-- Two ranges of numbers overlap. -/
def overlaps (a n b m : Nat) : Bool := decide (a < b + m) && decide (b < a + n)

/-- The range from `a` of `n` lies within the range from `b` of `m`. -/
def within (a n b m : Nat) : Bool := decide (b ≤ a) && decide (a + n ≤ b + m)

end Sys2Proof.Machine
end

