-- ==== Sys2Proof/Machine/Hash.lean ====
section
/-! DEFINITION. The hash SM3 of GB/T 32905, which R38, R174, R342, R355 and R365 name, and the CRC-32C (Castagnoli) of R121,
R181 and R358. Neither standard is part of the spec; their definitions are taken as published (log entry 5). -/

namespace Sys2Proof.Machine

/-! ### SM3 -/

/-- A 32-bit word of SM3. -/
abbrev W32 := BitVec 32

/-- The permutations P0 and P1. -/
def sm3P0 (x : W32) : W32 := x ^^^ x.rotateLeft 9 ^^^ x.rotateLeft 17
def sm3P1 (x : W32) : W32 := x ^^^ x.rotateLeft 15 ^^^ x.rotateLeft 23

/-- The message words of a block after its first 16, newest first: one more for each unit of fuel. -/
def sm3Expand : Nat → List W32 → List W32
  | 0, ws => ws
  | n + 1, ws =>
    let at_ := fun (k : Nat) => ws.getD (k - 1) 0
    sm3Expand n ((sm3P1 (at_ 16 ^^^ at_ 9 ^^^ (at_ 3).rotateLeft 15) ^^^ (at_ 13).rotateLeft 7 ^^^ at_ 6) :: ws)

/-- The eight words of the chaining value. -/
structure Sm3 where
  a : W32
  b : W32
  c : W32
  d : W32
  e : W32
  f : W32
  g : W32
  h : W32
  deriving DecidableEq, Repr, Inhabited

/-- Round `j` with the words W_j and W'_j. -/
def sm3Round (v : Sm3) (j : Nat) (w w' : W32) : Sm3 :=
  let t : W32 := if j < 16 then 0x79cc4519 else 0x7a879d8a
  let ss1 := (v.a.rotateLeft 12 + v.e + t.rotateLeft (j % 32)).rotateLeft 7
  let ss2 := ss1 ^^^ v.a.rotateLeft 12
  let ff := if j < 16 then v.a ^^^ v.b ^^^ v.c else (v.a &&& v.b) ||| (v.a &&& v.c) ||| (v.b &&& v.c)
  let gg := if j < 16 then v.e ^^^ v.f ^^^ v.g else (v.e &&& v.f) ||| (~~~v.e &&& v.g)
  let tt1 := ff + v.d + ss2 + w'
  let tt2 := gg + v.h + ss1 + w
  ⟨tt1, v.a, v.b.rotateLeft 9, v.c, sm3P0 tt2, v.e, v.f.rotateLeft 19, v.g⟩

/-- The rounds from `j` on, over the words still to come. -/
def sm3Rounds : Nat → Nat → List W32 → Sm3 → Sm3
  | 0, _, _, v => v
  | n + 1, j, ws, v => sm3Rounds n (j + 1) (ws.drop 1) (sm3Round v j (ws.getD 0 0) (ws.getD 0 0 ^^^ ws.getD 4 0))

/-- Compress one block of 64 bytes. -/
def sm3Block (v : Sm3) (b : List Byte) : Sm3 :=
  let first := (List.range 16).map (fun i => BitVec.ofNat 32 (beVal (slice b (4 * i) 4)))
  let r := sm3Rounds 64 0 (sm3Expand 52 first.reverse).reverse v
  ⟨v.a ^^^ r.a, v.b ^^^ r.b, v.c ^^^ r.c, v.d ^^^ r.d, v.e ^^^ r.e, v.f ^^^ r.f, v.g ^^^ r.g, v.h ^^^ r.h⟩

/-- Compress so many blocks. -/
def sm3Blocks : Nat → List Byte → Sm3 → Sm3
  | 0, _, v => v
  | n + 1, b, v => sm3Blocks n (b.drop 64) (sm3Block v (b.take 64))

/-- The message padded to whole blocks: a one bit, zeros, and its length in bits. -/
def sm3Pad (m : List Byte) : List Byte :=
  m ++ 0x80 :: (List.replicate ((119 - m.length % 64) % 64) 0 ++ beBytes 8 (8 * m.length))

/-- SM3 of a message; its first byte is the most significant of the result. -/
def sm3 (m : List Byte) : BitVec 256 :=
  let p := sm3Pad m
  let v := sm3Blocks (p.length / 64) p
    ⟨0x7380166f, 0x4914b2b9, 0x172442d7, 0xda8a0600, 0xa96f30bc, 0x163138aa, 0xe38dee4d, 0xb0fb0e4e⟩
  v.a ++ v.b ++ v.c ++ v.d ++ v.e ++ v.f ++ v.g ++ v.h

/-! ### CRC-32C -/

/-- One bit of a reflected CRC with polynomial `poly`. -/
def crcBit (poly c : W32) : W32 := if c.getLsbD 0 then (c >>> 1) ^^^ poly else c >>> 1

/-- One byte of a reflected CRC. -/
def crcByte (poly c : W32) (b : Byte) : W32 :=
  (List.range 8).foldl (fun c _ => crcBit poly c) (c ^^^ b.setWidth 32)

/-- A reflected CRC-32 with all-ones initial value and final inversion. -/
def crcOf (poly : W32) (m : List Byte) : W32 := ~~~(m.foldl (crcByte poly) 0xFFFFFFFF)

/-- CRC-32C: polynomial 0x1EDC6F41, reflected. -/
def crc32c (m : List Byte) : W32 := crcOf 0x82F63B78 m

end Sys2Proof.Machine
end

