-- ==== Sys2Proof/Config.lean ====
section
/-! DEFINITION. What the spec leaves to the part, to a standard it only names, or open altogether:
constants without a body, so that no proof can rest on a value of them (log entries 5 and 6). -/

namespace Sys2Proof.Config

/-- The free values: what the spec calls undefined, or does not state, where the machine goes on.
The argument is the model's own counter `State.draw`. -/
opaque freeValue : Nat → Word

/-- SM2 signature verification under a public key (R342): key, message, signature. -/
opaque sm2Verify : List Byte → List Byte → List Byte → Bool

/-- A signature by one of the device's own keys (R355, R357, R361): 0 the identity key, 1 the
attestation key of the booted image, 2 the island's key. -/
opaque sm2Sign : Nat → List Byte → List Byte

/-- The public key of the attestation key derived from the header hash and FUSE_SVN (R355). -/
opaque akPublic : BitVec 256 → Nat → List Byte

/-- AES-256-GCM and SM4-GCM (R141): cipher, key, IV, additional data and plain text; the text sealed, and its tag. -/
opaque gcm : Nat → List Byte → BitVec 96 → List Byte → List Byte → List Byte × BitVec 128

/-- A key of the boot and trust block (R143), by the number drawn at its boot, and the wrapping of a QP's key
under it. -/
opaque bootKey : Nat → BitVec 256
opaque wrapKey : BitVec 256 → List Byte → List Byte
opaque unwrapKey : BitVec 256 → List Byte → List Byte

/-- Device addresses, in the area reserved for firmware, of the 512-byte context and of the 2,048-byte result record of
a QP (R150, R246); the spec gives no layout of the context store. -/
opaque contextAt : Nat → Nat
opaque recordAt : Nat → Nat

/-- Device addresses of the two halves of the plan store, 64 MiB each, in the area reserved for firmware (R37, R246). -/
opaque planStore : Bool → Nat

/-- Fused at factory test (R343): the hash of the root key. -/
opaque rootHash : BitVec 256

/-- Fused at factory test (R343): the hash of the identity public key. -/
opaque idKeyHash : BitVec 256

/-- Fused at factory test (R343): the serial number, 16 bytes. -/
opaque serial : BitVec 128

/-- Security version fuses blown when the part leaves the factory (R343). -/
opaque fuseSvn : Nat

/-- KEY_REVOKE fuses when the part leaves the factory (R343). -/
opaque keyRevoke : BitVec 16

/-- The identity certificate and the device CA certificate in one-time memory (R354). -/
opaque idCert : List Byte
opaque caCert : List Byte

/-- The meter certificate and the hash of the island's public key (R361). -/
opaque meterCert : List Byte
opaque meterKeyHash : BitVec 256

/-- Boot fuses of the metering island blown before the model starts (R362). -/
opaque islandFuses : Nat

/-- Energy coefficients fused at factory test (R312), pJ per byte or per entry, by domain. -/
opaque factoryPj : Nat → Nat

/-- What the flash holds while a write of it is not verified (R351): draws the model's counter. -/
opaque flashPart : Nat → List Byte

/-- Static power at 105 degrees fused at factory test, mW (R314). -/
opaque staticMw : Nat

/-- Bytes of landing space that the transport reserves for READ responses (R77, R85); the spec gives no size. -/
opaque landingBytes : Nat

/-- Spare rows of each stack at reset (R250, R268); the spec gives no number. -/
opaque spareRows : Nat → Nat

/-- Rank of the device's own clock for the best master clock algorithm (R18), lower is better; the spec states no
clock attributes of the device. -/
opaque ownRank : Word

/-- The node's start PSN and connection tag choices (R146), which the spec leaves to the device. -/
opaque startPsn : Nat → BitVec 32
opaque connTag : Nat → BitVec 16

/-- The control core that runs a recovery task (R324, R336), by task code; the spec names none. -/
opaque taskCore : Nat → BitVec 4

/-- What a couch QP uses that the plan image does not give (R262, R263): the partner's QP number, the
path MTU code and the partition key, by the couch QP's own number. -/
opaque couchPeerQp : Nat → BitVec 20
opaque couchPmtu : Nat → BitVec 8
opaque couchPkey : Nat → BitVec 16

/-- With so many spare rows left in a stack: the bank of a row (by its 2 KiB block) has none, and a quarter
or more of the stack's banks have none (R250, R251). The spec gives neither banks nor their spares. -/
opaque bankSpent : Nat → Nat → Bool
opaque quarterSpent : Nat → Nat → Bool

end Sys2Proof.Config
end

