-- ==== Sys2Proof/Machine/Table.lean ====
section
/-! DEFINITION. Sparse tables: a list of numbered cells with strictly rising numbers, each number at
most once.  Queues, rings, QPs, instances, ports and the like are held in them, so that equal tables
are equal data. -/

namespace Sys2Proof.Machine

/-- A table of numbered cells. -/
structure Tbl (α : Type) where
  cells : List (Nat × α)
  deriving DecidableEq, Repr, Inhabited

namespace Tbl

/-- The table that lists nothing. -/
def empty {α : Type} : Tbl α := ⟨[]⟩

/-- The cell of number `k` in a list of cells. -/
def lookup {α : Type} (k : Nat) : List (Nat × α) → Option α
  | [] => none
  | (j, v) :: rest => if j = k then some v else lookup k rest

/-- The cell of number `k`, if the table lists it. -/
def find {α : Type} (t : Tbl α) (k : Nat) : Option α := lookup k t.cells

/-- The cell of number `k`, or `d` where the table lists none. -/
def findD {α : Type} (t : Tbl α) (k : Nat) (d : α) : α := (t.find k).getD d

/-- Put a cell into a rising list, replacing the cell of the same number. -/
def insertCell {α : Type} (k : Nat) (v : α) : List (Nat × α) → List (Nat × α)
  | [] => [(k, v)]
  | (j, w) :: rest =>
    if k < j then (k, v) :: (j, w) :: rest
    else if k = j then (k, v) :: rest
    else (j, w) :: insertCell k v rest

/-- The table with cell `k` set to `v`. -/
def put {α : Type} (t : Tbl α) (k : Nat) (v : α) : Tbl α := ⟨insertCell k v t.cells⟩

/-- Remove cell `k` from a list of cells. -/
def dropCell {α : Type} (k : Nat) : List (Nat × α) → List (Nat × α)
  | [] => []
  | (j, w) :: rest => if j = k then dropCell k rest else (j, w) :: dropCell k rest

/-- The table without cell `k`. -/
def erase {α : Type} (t : Tbl α) (k : Nat) : Tbl α := ⟨dropCell k t.cells⟩

/-- The numbers the table lists, rising. -/
def keys {α : Type} (t : Tbl α) : List Nat := t.cells.map Prod.fst

/-- The contents the table lists, by rising number. -/
def vals {α : Type} (t : Tbl α) : List α := t.cells.map Prod.snd

/-- Change cell `k`, taken as `d` where the table lists none. -/
def modifyD {α : Type} (t : Tbl α) (k : Nat) (d : α) (f : α → α) : Tbl α := t.put k (f (t.findD k d))

/-- Change cell `k` if the table lists it. -/
def modify {α : Type} (t : Tbl α) (k : Nat) (f : α → α) : Tbl α :=
  match t.find k with
  | some v => t.put k (f v)
  | none => t

/-- Change every cell the table lists. -/
def mapCells {α : Type} (t : Tbl α) (f : Nat → α → α) : Tbl α :=
  ⟨t.cells.map (fun c => (c.1, f c.1 c.2))⟩

/-- Keep the cells that satisfy `p`. -/
def keep {α : Type} (t : Tbl α) (p : Nat → α → Bool) : Tbl α :=
  ⟨t.cells.filter (fun c => p c.1 c.2)⟩

/-- The numbers of a list of cells rise strictly. -/
def rising {α : Type} : List (Nat × α) → Bool
  | [] => true
  | [_] => true
  | (j, _) :: (k, w) :: rest => decide (j < k) && rising ((k, w) :: rest)

/-- The canonical form of a table. -/
def wf {α : Type} (t : Tbl α) : Bool := rising t.cells

end Tbl
end Sys2Proof.Machine
end

