-- ==== Sys2Proof/Machine/State.lean ====
section
/-! DEFINITION. The state of the ZN-9768: every register, table, buffer, counter, mode and pin the
spec gives the part, one structure per chapter, and the queue of waiting commands.
Counts and times are natural numbers with the width of their field in the docstring; a register that
software writes whole is a 64-bit word.  Fabric time never wraps in service (R12). -/

namespace Sys2Proof.Machine

/-- How a command stops.  The model raises no fault: every command of the table has an effect in
every state, if only that nothing happens (log entry 3). -/
inductive Fault where
  /-- Raised by nobody; kept so that the outcome type has a fault reason. Safe. -/
  | unreachable
  deriving DecidableEq, Repr

/-- Why a command has no meaning. -/
inductive Refusal where
  /-- Raised by an arm of the dispatcher whose command is not modelled yet. Safe. -/
  | notModelled (mnemonic : String)
  deriving DecidableEq, Repr

/-! ### Chapter 1: fabric time -/

/-- TIME_STATUS.LOCK (R31). -/
inductive Lock where
  | acquiring | locked | holdover | lost
  deriving DecidableEq, Repr, Inhabited

/-- Per port, what PTP has learnt (R18, R22, R414). -/
structure PtpPort where
  cfg : Word
  /-- The parent's advertised estimate from its error TLV, if its Announce carries one. -/
  tlv : Option Nat
  /-- The bound its clockAccuracy names, ns. -/
  accBound : Nat
  /-- Rank of the best master heard (Ethernet, AUTO), lower is better, and when it was last heard. -/
  rank : Option Nat
  heardAt : Nat
  /-- How the far end sends its PTP frames: 0 directly over 802.3, 1 over UDP on IPv4, 2 over UDP on IPv6. -/
  transport : Nat
  /-- What the last Sync took on its way here by both clocks, ns (R18, R19). -/
  msLeg : Int
  /-- Mean path delay of the end-to-end mechanism, ns. -/
  pathDelay : Nat
  /-- Time at which the port last sent a Sync, an Announce, a peer-delay or a delay request. -/
  lastSync : Nat
  lastReq : Option Nat
  /-- PTP time at which the last Sync left, for its Follow_Up (R17). -/
  syncAt : Nat
  deriving DecidableEq, Repr, Inhabited

/-- The time unit (chapter 1). -/
structure TimeUnit where
  /-- Fabric time, ns: the start of the current tick (R11, R13). -/
  now : Nat
  ctrl : Word
  lock : Lock
  stepCount : Nat
  source : Nat
  refOk : Bool
  ppsLast : Option Nat
  offset : Int
  filt : Nat
  parentErr : Nat
  /-- Time of the last valid sync and the estimate at it (R22). -/
  lastValid : Option Nat
  estAtSync : Nat
  /-- Consecutive valid sync intervals, up to 16 (R31). -/
  streak : Nat
  everLocked : Bool
  /-- Offset still to be slewed away, in femtoseconds (R33). -/
  slew : Int
  /-- REFCLK_SYS time since the release of PORST_N, in femtoseconds (R33). -/
  ref : Nat
  /-- TAI second given for the next pulse, and when it was given (R20). -/
  tod : Option (Nat × Nat)
  ppsCfg : Word
  ppsOut : Option Nat
  epoch : Nat
  ports : Tbl PtpPort
  isoTime : Word
  /-- T of the armed snapshot: ISOBAR_TIME as it stood when SNAP was written (R29). -/
  isoAt : Nat
  isoArmed : Bool
  isoArmedSnap : Nat
  isoSnap : Nat
  isoStepped : Bool
  isoLost : Bool
  isoLate : Bool
  deriving DecidableEq, Repr, Inhabited

/-! ### Chapter 2: plans, with the sections of chapters 6 to 9, 12 and 13 -/

/-- A claim or resource entry (R41, R298). -/
structure Claim where
  kind : Nat
  flags : Nat
  owner : Nat
  zero : Nat
  first : Nat
  count : Nat
  attr : Nat
  deriving DecidableEq, Repr, Inhabited

/-- A port schedule (R40). -/
structure Sched where
  port : Nat
  guard : Nat
  sheets : List (BitVec 32)
  deriving DecidableEq, Repr, Inhabited

/-- One set of the routing tables (R200); words of the bitmap hold 64 keys each. -/
structure RouteSet where
  group : Tbl (BitVec 32)
  member : Tbl (BitVec 32)
  keys : Tbl Word
  deriving DecidableEq, Repr, Inhabited

/-- An entry of the CIRCUITS section (R213). -/
structure Circuit where
  port : Nat
  circuit : Nat
  txKind : Nat
  rxKind : Nat
  txArg : Nat
  rxArg : Nat
  deriving DecidableEq, Repr, Inhabited

/-- A collective descriptor (R156, R157). -/
structure Descriptor where
  collId : Nat
  slot : Nat
  owner : Nat
  op : Nat
  mode : Nat
  inFmt : Nat
  outFmt : Nat
  wire1 : Nat
  wire2 : Nat
  inputs : Nat
  l0Seg : Nat
  n1 : Nat
  n2 : Nat
  self : Nat
  maxElems : Nat
  treeMax : Nat
  pieceLog : Nat
  stage : Nat
  pkey : Nat
  circ1 : Nat
  circ2 : Nat
  stepLimit : Nat
  stageBase : Nat
  efBase : Nat
  creditBase : Nat
  members : List Nat
  deriving DecidableEq, Repr, Inhabited

/-- An entry of the COUCH section (R262). -/
structure CouchEnt where
  region : Nat
  role : Nat
  owner : Nat
  length : Nat
  source : Nat
  gen0 : Nat
  gen1 : Nat
  partner : Nat
  qp : Nat
  key : Nat
  partnerRegion : Nat
  deriving DecidableEq, Repr, Inhabited

/-- A reservation of the ENERGY section (R314). -/
structure EnergyEnt where
  kind : Nat
  target : Nat
  mw : Nat
  zero : Nat
  deriving DecidableEq, Repr, Inhabited

/-- An item of an alternate (R327). -/
inductive AltItem where
  | sheet (port sheet : Nat) (entry : BitVec 32)
  | circuit (c : Circuit)
  | dropCircuit (port circuit : Nat)
  | descriptor (d : Descriptor)
  | endSlot (slot : Nat)
  | unknown (typ : Nat)
  deriving DecidableEq, Repr, Inhabited

/-- An entry of the ALTERNATES section (R327). -/
structure AltEnt where
  alt : Nat
  kind : Nat
  trigger : Nat
  subject : Nat
  items : List AltItem
  deriving DecidableEq, Repr, Inhabited

/-- A gate block of the ETHERNET section (R238). -/
structure GateBlock where
  port : Nat
  guard : Nat
  zero : Nat
  entries : List (BitVec 32)
  deriving DecidableEq, Repr, Inhabited

/-- A path entry of the ETHERNET section (R242). -/
structure PathEnt where
  slot : Nat
  stream : Nat
  port : Nat
  v6 : Bool
  vid : Nat
  dscp : Nat
  dst : BitVec 128
  deriving DecidableEq, Repr, Inhabited

/-- A plan: its image and what the sections of the image say (R38 to R41). -/
structure Plan where
  image : List Byte
  planId : Word
  minor : Nat
  node : Nat
  epoch : Nat
  timeBudget : Nat
  drainBound : Nat
  rejoin : Nat
  digest : BitVec 256
  claims : List Claim
  scheds : List Sched
  routing : Tbl RouteSet
  circuits : List Circuit
  collVersion : Nat
  descs : List Descriptor
  couch : List CouchEnt
  hasEnergy : Bool
  energy : List EnergyEnt
  hasAlts : Bool
  altsVersion : Nat
  altPeriod : Nat
  altHash : BitVec 256
  alts : List AltEnt
  gates : List GateBlock
  paths : List PathEnt
  deriving DecidableEq, Repr, Inhabited

/-- The condition of the next plan slot (R36). -/
inductive NextCond where
  | empty | loading | loaded | armed | missed
  deriving DecidableEq, Repr, Inhabited

/-- The plan slots (chapter 2). -/
structure PlanSlots where
  active : Option Plan
  /-- Half of the plan store that holds the active image; the next image lies in the other (R37). -/
  activeStore : Bool
  /-- The front of the active plan: the origin of its schedules and gate lists (R40). -/
  activeF : Nat
  nextCond : NextCond
  next : Option Plan
  /-- The image under check: address, length, and the door and tag to answer (R36, R303). -/
  loadAddr : Nat
  loadLen : Nat
  loadDoor : Door
  loadTag : Word
  front : Nat
  /-- Claims of an old plan held until the drain bound, with that time and its PLAN_ID (R43). -/
  oldClaims : List Claim
  oldDescs : List Descriptor
  oldCouch : List CouchEnt
  oldScheds : List Sched
  oldCircuits : List Circuit
  oldF : Nat
  oldId : Word
  drainAt : Option Nat
  /-- The active plan waits for a rejoin point after a warm reset (R54). -/
  resuming : Bool
  /-- A missed plan was cancelled: cause PLAN stays until a switch (R36, R326). -/
  lateCause : Bool
  lockedAt : Nat
  armedAt : Nat
  bootAt : Nat
  result : Word
  lastSwitch : Nat
  switches : Nat
  missed : Nat
  refusedCount : Nat
  deriving DecidableEq, Repr, Inhabited

/-! ### Chapter 3: work queues and completion rings -/

/-- The eight words of a ZTI entry (R81). -/
structure Entry where
  w0 : Word
  w1 : Word
  w2 : Word
  w3 : Word
  w4 : Word
  w5 : Word
  w6 : Word
  w7 : Word
  deriving DecidableEq, Repr, Inhabited

/-- A translation taken at issue or at the first packet of a message (R257). -/
structure Xlat where
  inst : Nat
  seg : Nat
  board : Bool
  link : Nat
  /-- Device address or companion address of the first byte of the range. -/
  addr : Nat
  len : Nat
  /-- Epoch of the link when the translation was taken (R258). -/
  epoch : Nat
  deriving DecidableEq, Repr, Inhabited

/-- How an entry or message ended: status, RESULT and DETAIL (R68). -/
structure Ending where
  status : Nat
  result : Word
  detail : BitVec 32
  deriving DecidableEq, Repr, Inhabited

/-- An entry started and not completed (R71). -/
structure Started where
  seq : Nat
  gid : Nat
  entry : Entry
  issuedAt : Nat
  xlats : List Xlat
  /-- The opcode's own effect has run. -/
  ran : Bool
  /-- The entry has ended and waits for ENTRY_COMPLETE. -/
  ending : Option Ending
  /-- Resolved target or deadline of a time wait, or frames sent so far by a raw send. -/
  target : Nat
  deriving DecidableEq, Repr, Inhabited

/-- One completed, flushed or halted entry of a group (R68, R69). -/
structure Counted where
  seq : Nat
  opcode : Nat
  ending : Ending
  deriving DecidableEq, Repr, Inhabited

/-- A completion group whose completion is not written yet (R66 to R69). -/
structure Group where
  gid : Nat
  hasSlot : Bool
  count : Nat
  /-- Sequence number of the closing entry, once it has been passed. -/
  closedBy : Option Nat
  /-- First entry of the group in queue order that did not end OK. -/
  firstBad : Option Counted
  /-- The last counted entry in queue order. -/
  lastEnd : Option Counted
  /-- The closing entry's own end. -/
  closeEnd : Option Counted
  /-- The halted entry (R79) or the open group of lost queue memory (R416). -/
  halt : Option Counted
  deriving DecidableEq, Repr, Inhabited

/-- The head entry once it has been read and has passed its issue checks, or failed them with a
status that spares the queue (R415). -/
structure Issued where
  entry : Entry
  issuedAt : Nat
  xlats : List Xlat
  bad : Option Ending
  /-- When a ring slot was reserved for the group the entry opens (R66). -/
  slotAt : Option Nat
  deriving DecidableEq, Repr, Inhabited

/-- The states of a work queue (R95). -/
inductive QueueState where
  | idle | running | waiting | error | calm
  deriving DecidableEq, Repr, Inhabited

/-- WQ_STATUS.WAIT_REASON (R96). -/
inductive Reason where
  | none | early | ringFull | ordered | inflight | sync | time | slotBusy | energy | link | landing
  deriving DecidableEq, Repr, Inhabited

/-- A created work queue (R58 to R60, R95). -/
structure WorkQueue where
  inst : Nat
  base : Word
  depthLog : Nat
  level : Nat
  raw : Bool
  ring : Nat
  st : QueueState
  reason : Reason
  haltIdx : Nat
  haltStatus : Nat
  pi : Nat
  fetch : Nat
  earlyCounted : Bool
  head : Option Issued
  started : List Started
  groups : List Group
  nextGid : Nat
  /-- First unsatisfied evaluation of the wait at the head, and whether it is a lull (R117). -/
  waitSince : Option Nat
  lull : Bool
  deriving DecidableEq, Repr, Inhabited

/-- A created completion ring (R58, R66, R70). -/
structure Ring where
  inst : Nat
  base : Word
  depthLog : Nat
  vecEn : Bool
  vector : Nat
  rp : Nat
  wp : Nat
  ci : Nat
  armed : Bool
  lost : Bool
  deriving DecidableEq, Repr, Inhabited

/-! ### Chapter 4: sync memory -/

/-- A granule of the sync memory (R97 to R99, R114). -/
structure Granule where
  semMode : Bool
  orphan : Bool
  /-- Reclaimed while its owner was not ACTIVE: nameable once an instance of that number is (R115). -/
  unnamed : Bool
  share : BitVec 128
  /-- A share written in this tick, in force from the next (R118). -/
  shareNext : Option (BitVec 128 × Nat)
  deriving DecidableEq, Repr, Inhabited

/-- Who waits: the head of a queue, or a held remote request (R111). -/
inductive Waiter where
  | queue (q seq : Nat)
  | held (qp msn : Nat)
  deriving DecidableEq, Repr, Inhabited

/-- A wait on a sync object, in joining order (R106, R107). -/
structure Wait where
  who : Waiter
  sem : Bool
  id : Nat
  /-- Expected value of a counter wait, amount of a semaphore wait. -/
  value : Nat
  deadline : Option Nat
  /-- The tick it joined in, and its place among those that join in one tick (R107). -/
  joined : Nat
  rank : Nat
  deriving DecidableEq, Repr, Inhabited

/-- The sync memory (chapter 4). -/
structure SyncMem where
  values : Tbl Nat
  granules : Tbl Granule
  waits : List Wait
  busy : Nat
  /-- The tick whose waits are not evaluated yet (R107); of the objects changed in it, the value at the end of
  the tick before (R113) and the rank of the last addition. -/
  tickAt : Nat
  before : Tbl Nat
  ranks : Tbl Nat
  deriving DecidableEq, Repr, Inhabited

/-! ### Chapter 5: queue pairs -/

/-- The states of a QP (R154). -/
inductive QpState where
  | closed | opening | opened | draining | error
  deriving DecidableEq, Repr, Inhabited

/-- For whom a message runs: an entry of a queue, a couch copy, a restore. -/
inductive MsgOwner where
  | entry (q seq : Nat)
  | couch (region : Nat)
  | restore (region : Nat)
  deriving DecidableEq, Repr, Inhabited

/-- The kinds of message (R119). -/
inductive MsgKind where
  | write | read | sync
  deriving DecidableEq, Repr, Inhabited

/-- An unfinished message of a requester (R119, R125). -/
structure Msg where
  msn : Nat
  kind : MsgKind
  owner : MsgOwner
  /-- First PSN and span once the message has entered the PSN window (R119, R125). -/
  psn : Option Nat
  span : Nat
  len : Nat
  raddr : Word
  rkey : Nat
  signal : BitVec 32
  radd : Nat
  sync : SyncBlock
  xlat : Option Xlat
  /-- Bytes a WRITE made up by the device carries (a couch commit record). -/
  inlineData : List Byte
  placed : Nat
  /-- A sync message whose PSN has been passed keeps its own timer and count (R128, R131). -/
  passed : Bool
  held : Bool
  timerAt : Option Nat
  k : Nat
  deriving DecidableEq, Repr, Inhabited

/-- The outcome of a message in the responder's record (R129). -/
structure Outcome1 where
  msn : Nat
  status : Nat
  held : Bool
  result : Word
  /-- PSN and TS of the request, for the answer that comes later (R124, R131). -/
  psn : Nat
  ts : BitVec 32
  /-- The refusal of a WRITE's RSIG counter (R127). -/
  sig : Bool
  deriving DecidableEq, Repr, Inhabited

/-- The message a responder is part-way through (R127, R150). -/
structure Applying where
  msn : Nat
  endPsn : Nat
  radd : Word
  len : Nat
  done : Nat
  xlat : Option Xlat
  /-- A WRITE to a couch holder: region, and 0, 1 or 2 from RADDR (R266). -/
  couch : Option (Nat × Nat)
  recordBytes : List Byte
  deriving DecidableEq, Repr, Inhabited

/-- Identity of a QP (R145, R150). -/
structure QpIdent where
  owner : Nat
  peerNode : Nat
  peerInst : Nat
  peerQp : Nat
  path : Nat
  srcIp : BitVec 128
  dstIp : BitVec 128
  dscp : Nat
  vlan : Option Nat
  port : Nat
  pkey : Nat
  pmtu : Nat
  verMin : Nat
  verMax : Nat
  ver : Nat
  cipher : Nat
  key : List Byte
  kcv : BitVec 32
  baseUs : Nat
  capUs : Nat
  limit : Nat
  busyLimit : Nat
  conn : BitVec 16
  active : Bool
  /-- ZTP_CFG, ZTP_ACK and ZTP_RETRY.BUSY_DELAY as they stood at QP_OPEN (R155). -/
  cfg : Word
  ack : Word
  busyDelay : Nat
  deriving DecidableEq, Repr, Inhabited

/-- A QP context (R150) with its setup state and residency. -/
structure Qp where
  st : QpState
  ident : QpIdent
  /-- Unbound from its circuit until a decision point or front (R332). -/
  unbound : Bool
  nextPsn : Nat
  unacked : Nat
  sendPsn : Nat
  /-- The PSN after the last one ever sent. -/
  sentTo : Nat
  nextMsn : Nat
  /-- The tick and the queue of the last message that started (R119). -/
  lastStart : Nat × Nat
  k : Nat
  j : Nat
  timerAt : Option Nat
  backoff : Option (Nat × Nat)
  ignoreNak : Option Nat
  sealTx : Nat
  retries : Nat
  busyRx : Nat
  msgs : List Msg
  epsn : Nat
  applied : Nat
  record : Tbl Outcome1
  cur : Option Applying
  sealRx : Nat
  sinceAck : Nat
  firstUnacked : Option Nat
  gapNak : Option Nat
  lastCnp : Option Nat
  lastTs : BitVec 32
  rate : Nat
  alpha : Nat
  rtt : Nat
  /-- Time at which the rate lets the next request packet go (R138). -/
  readyAt : Nat
  /-- End of the current rate period (R140). -/
  periodAt : Nat
  cnpSeen : Bool
  /-- ZTP_CC0 and ZTP_CC1 as this period uses them (R140). -/
  cc0 : Word
  cc1 : Word
  cnpRx : Nat
  startPsn : Nat
  setupAt : Nat
  lastTry : Nat
  reply : Option ConnBlock
  setupReason : Nat
  lastStatus : Nat
  drainAt : Nat
  drainUs : Nat
  peerDisc : Bool
  resident : Bool
  fetching : Bool
  lastUse : Nat
  deriving DecidableEq, Repr, Inhabited

/-- Counters of the transport engine of one die (R155). -/
structure DieCounts where
  outOfWindow : Nat
  duplicate : Nat
  retries : Nat
  seqNaks : Nat
  busySent : Nat
  busyRx : Nat
  authFail : Nat
  ecrcFail : Nat
  staleDrop : Nat
  fetches : Nat
  /-- Packets in the miss buffer, in arrival order and numbered by it over both dies, and QPs whose packets are dropped
  (R152). -/
  miss : List (Nat × Arrival × ZtpPacket)
  missDrop : List Nat
  deriving DecidableEq, Repr, Inhabited

/-- The transport (chapter 5): configuration and the two dies. -/
structure Transport where
  cfg : Word
  retry : Word
  cc0 : Word
  cc1 : Word
  ack : Word
  pa : DieCounts
  pb : DieCounts
  uses : Nat
  deriving DecidableEq, Repr, Inhabited

/-! ### Chapter 6: collectives -/

/-- An exact value in a press: NaN, an infinity, or m times 2^e with the sign of a zero kept. -/
inductive Num where
  | nan
  | inf (neg : Bool)
  | fin (neg : Bool) (m : Nat) (e : Int)
  deriving DecidableEq, Repr, Inhabited

/-- The conditions of a collective slot (R187). -/
inductive SlotCond where
  | free | idle | running | fault
  deriving DecidableEq, Repr, Inhabited

/-- A piece that has been cut: not yet sent while `sends` is 0, else not yet acknowledged as arrived
(R180, R183). -/
structure SentPiece where
  count : Nat
  step : Nat
  gather : Bool
  bytes : List Byte
  sends : Nat
  lastAt : Nat
  deriving DecidableEq, Repr, Inhabited

/-- A piece that has arrived and is not consumed yet, with the STEP and GATHER of its packets (R181). -/
structure StagedPiece where
  step : Nat
  gather : Bool
  bytes : List Byte
  deriving DecidableEq, Repr, Inhabited

/-- An outgoing stream of one tree or ring (R179, R180). -/
structure OutStream where
  /-- Pieces cut so far, sent or not. -/
  sent : Nat
  arrivedAck : Nat
  consumedAck : Nat
  pieces : List SentPiece
  /-- Bytes of the current part ready to be cut into pieces, and units of this step emitted. -/
  ready : List Byte
  units : Nat
  rate : Nat
  alpha : Nat
  rtt : Nat
  readyAt : Nat
  periodAt : Nat
  cnpSeen : Bool
  /-- ZTP_CC0 and ZTP_CC1 as this period uses them (R140, R184). -/
  cc0 : Word
  cc1 : Word
  unbound : Bool
  deriving DecidableEq, Repr, Inhabited

/-- An incoming stream of one tree or ring (R179, R180). -/
structure InStream where
  arrived : Nat
  consumed : Nat
  /-- Pieces consumed when the running step began. -/
  base : Nat
  partialPiece : StagedPiece
  staged : List StagedPiece
  /-- Bytes of a unit that a piece boundary has cut. -/
  carry : List Byte
  /-- Units of this step already taken from the stream. -/
  units : Nat
  lastAck : Option Nat
  lastEcho : Option Nat
  /-- An ACK is owed: the TS and the path of the DATA that caused it, and a CE mark not echoed yet. -/
  owed : Bool
  ackTs : BitVec 32
  ackArr : Arrival
  ce : Bool
  deriving DecidableEq, Repr, Inhabited

/-- A step in progress on a slot (R166 to R178). -/
structure Run where
  q : Nat
  seq : Nat
  step : Nat
  elems : Nat
  half : Nat
  tree : Bool
  startAt : Nat
  src : List Xlat
  dst : Option Xlat
  /-- DST overlaps a range the step reads other than as R177 allows: what it holds is undefined. -/
  undefined : Bool
  /-- Combined value of each unit at this member so far. -/
  work : Tbl (List Num)
  /-- How many partials each unit has taken, per level. -/
  taken1 : Tbl Nat
  taken2 : Tbl Nat
  /-- Final bits of each unit in OUT_FMT. -/
  final : Tbl (List Byte)
  deriving DecidableEq, Repr, Inhabited

/-- A collective slot (R187, R189). -/
structure Slot where
  cond : SlotCond
  desc : Option Descriptor
  /-- COLL_CFG as it stood when the last step started, or when the descriptor took effect (R189). -/
  cfg : Word
  nextStep : Nat
  stepsOk : Nat
  lastStatus : Nat
  alg : Bool
  detail : BitVec 32
  faults : Nat
  run : Option Run
  outs : Tbl OutStream
  ins : Tbl InStream
  /-- An alternate waiting for the running step to end (R333). -/
  waiting : Option AltItem
  /-- The running step began on a descriptor that the plan switched to does not share (R51). -/
  oldStep : Bool
  deriving DecidableEq, Repr, Inhabited

/-- The sequencer and the presses (chapter 6). -/
structure Coll where
  slots : Tbl Slot
  cfg : Word
  piecesSent : Nat
  resends : Nat
  saturated : Nat
  nanOut : Nat
  staleDrop : Nat
  press : Tbl Nat
  deriving DecidableEq, Repr, Inhabited

/-! ### Chapter 7: fabric ports and routing -/

/-- The conditions of a fabric link or of a Pomel link (R195, R272). -/
inductive LinkCond where
  | down | training | up | retrain
  deriving DecidableEq, Repr, Inhabited

/-- A frame waiting at an egress port (R208). -/
structure Queued where
  frame : FabFrame
  /-- Arrival port, 16 for a frame this device injects, and the VC it arrived on. -/
  arr : Nat
  arrVc : Nat
  since : Nat
  /-- Out circuit of a VC7 frame. -/
  circuit : Nat
  waited : Bool
  deriving DecidableEq, Repr, Inhabited

/-- The counters of a fabric port (R222). -/
structure PortCounts where
  txBytes : Nat
  rxBytes : Nat
  lcrcErr : Nat
  replays : Nat
  retrains : Nat
  format : Nat
  bankDrop : Nat
  datelineDrop : Nat
  noRoute : Nat
  hopDrop : Nat
  pkeyDrop : Nat
  sheetLate : Nat
  circuitDrop : Nat
  vc0Drop : Nat
  sheetWaits : Nat
  /-- Tenths of a 1.2 GHz cycle by VC (FAB_STALL). -/
  stall : Tbl Nat
  peak : Tbl Nat
  fecCorrected : Nat
  fecUncorrected : Nat
  altTaken : Nat
  ceMarked : Nat
  deriving DecidableEq, Repr, Inhabited

/-- A network port in fabric mode (chapter 7). -/
structure Port where
  cfg : Word
  nbrNode : Nat
  nbrPort : Nat
  ver : Nat
  delay : Nat
  cond : LinkCond
  since : Nat
  helloFrom : Option (Nat × Nat × Nat)
  helloCount : Nat
  nbrPlan : Option Word
  lastHello : Nat
  fruitless : Nat
  aligned : Bool
  txSeq : Nat
  ackedSeq : Nat
  rxSeq : Nat
  nakSent : Bool
  progressAt : Nat
  /-- Frames sent and not acknowledged, with the circuit each went on, and those of them to be sent again
  (R196). -/
  replay : List Queued
  again : List Queued
  /-- When a version 1 port last sent a CREDIT frame for each VC (R194). -/
  creditAt : Tbl Nat
  /-- VCs whose head frame is stalled, with the time up to which its stall is counted (R222). -/
  stallAt : Tbl Nat
  credits : Tbl Nat
  owed : Tbl Nat
  queues : Tbl (List Queued)
  deficit : Tbl Int
  turn : Nat
  rr : Tbl Nat
  busyUntil : Nat
  lostNbr : Nat
  cnt : PortCounts
  deriving DecidableEq, Repr, Inhabited

/-- The conditions of a routing bank (R217). -/
inductive BankCond where
  | retired | staged | armed | inject | drain
  deriving DecidableEq, Repr, Inhabited

/-- A routing bank (R200, R217). -/
structure Bank where
  cond : BankCond
  sets : Tbl RouteSet
  mgr : Bool
  drainFrom : Nat
  deriving DecidableEq, Repr, Inhabited

/-- Routing of the device (chapter 7). -/
structure Routing where
  bank0 : Bank
  bank1 : Bank
  node : Word
  cfg : Word
  code : Nat
  tableFront : Option Nat
  sel : Word
  deriving DecidableEq, Repr, Inhabited

/-! ### Chapter 8: Ethernet ports -/

/-- A VLAN entry (R226). -/
structure Vlan where
  vlan : Word
  ip4 : Word
  ip6Hi : Word
  ip6Lo : Word
  deriving DecidableEq, Repr, Inhabited

/-- A frame waiting on a sub-port, with its flow, subscriber and class (R233). -/
structure EthQueued where
  frame : EthFrame
  flow : Nat
  subscriber : Nat
  cls : Nat
  response : Bool
  /-- 0 an instance's frame, 1 firmware's, 2 MAC control. -/
  rank : Nat
  held : Bool
  /-- The raw send the frame belongs to: queue, sequence number, last frame. -/
  rawOf : Option (Nat × Nat × Bool)
  /-- When it was queued. -/
  since : Nat
  deriving DecidableEq, Repr, Inhabited

/-- Fair-queueing tags of one scheduler child (R235). -/
structure Tags where
  s : Word
  fin : Word
  backlog : Bool
  deriving DecidableEq, Repr, Inhabited

/-- A token bucket: balance in 1/1,000 byte and the tick it stands at (R230, R237). -/
structure Bucket where
  bal : Int
  tickAt : Nat
  deriving DecidableEq, Repr, Inhabited

/-- A sub-port of an Ethernet-mode port (R225, R232, R233). -/
structure SubPort where
  up : Bool
  waiting : List EthQueued
  /-- The frame being sent, until `busyUntil`, as it stands on the line. -/
  flying : Option EthQueued
  pauseEnd : Tbl Nat
  portPause : Nat
  xoffAt : Tbl Nat
  svcV : Word
  svcTags : Tbl Tags
  subV : Tbl Word
  subTags : Tbl Tags
  drrD : Tbl Int
  drrFresh : Tbl Bool
  drrPtr : Nat
  flowTurn : Tbl Nat
  svcShape : Tbl Bucket
  subShape : Tbl Bucket
  portShape : Option Bucket
  busyUntil : Nat
  /-- When the next frame may start, the throttle level of the die counted in (R318). -/
  nextAt : Nat
  deriving DecidableEq, Repr, Inhabited

/-- A network port in Ethernet mode (chapter 8). -/
structure EthPort where
  cfg : Word
  pfc : Word
  police : Tbl Word
  polBucket : Tbl Bucket
  filter : Tbl Word
  vlans : Tbl Vlan
  svcNode : Tbl Word
  subNode : Tbl Word
  portNode : Word
  rxHeld : Tbl Nat
  subs : Tbl SubPort
  txFrames : Nat
  rxFrames : Nat
  dropFormat : Nat
  dropFilter : Nat
  dropProtocol : Nat
  dropBuffer : Nat
  pauseRx : Nat
  pauseTx : Nat
  policed : Nat
  gateHeld : Nat
  arpSent : Nat
  arpWindow : Nat
  deriving DecidableEq, Repr, Inhabited

/-- Ethernet (chapter 8). -/
structure Eth where
  ports : Tbl EthPort
  vsel : Word
  schSel : Word
  deriving DecidableEq, Repr, Inhabited

/-! ### Chapter 9: HBM, segments, couch regions -/

/-- Counters of one HBM stack (R268). -/
structure Stack where
  corrected : Nat
  uncorrected : Nat
  spared : Nat
  /-- Spare rows of the part, by its repair fuses; SPARES_LEFT holds them from the end of a cold boot (R250, R268). -/
  spare : Nat
  sparesLeft : Nat
  retrains : Nat
  /-- Times of the uncorrectable events that count toward retirement (R251). -/
  ueTimes : List Nat
  deriving DecidableEq, Repr, Inhabited

/-- HBM (chapter 9); the contents are in `State.mem`. -/
structure Hbm where
  cfg : Word
  live : BitVec 12
  retirePending : BitVec 12
  /-- Repair fuses: stacks retired for good. -/
  retired : BitVec 12
  passes : Nat
  position : Nat
  ueScrub : Bool
  ueStack : Nat
  ueAddr : Nat
  perStack : Tbl Stack
  /-- Word numbers (address over 8) that hold an uncorrectable error, and those whose error was
  injected (R376). -/
  bad : List Nat
  soft : List Nat
  injected : List Nat
  /-- Stacks that have stopped answering (R251). -/
  dead : BitVec 12
  /-- Rows of the stacks (`rowOf`) that scrub corrected, with the pass, and rows repaired (R250). -/
  scrubRows : List (Nat × Nat)
  repaired : List Nat
  deriving DecidableEq, Repr, Inhabited

/-- A segment (R255). -/
structure Seg where
  valid : Bool
  draining : Bool
  lost : Bool
  board : Bool
  link : Nat
  base : Nat
  len : Nat
  lr : Bool
  lw : Bool
  rr : Bool
  rw : Bool
  key : Nat
  uses : Nat
  deriving DecidableEq, Repr, Inhabited

/-- The condition of a couch region (R267). -/
inductive CouchCond where
  | none | valid | copying | doubt
  deriving DecidableEq, Repr, Inhabited

/-- A couch copy in progress (R264, R267). -/
structure CouchRun where
  q : Nat
  seq : Nat
  gen : Nat
  copySeq : Nat
  commitSent : Bool
  /-- A message of the copy ended badly: the copy ends with this. -/
  failed : Option Ending
  /-- Messages of the copy still unfinished. -/
  open_ : Nat
  /-- The copy first reads the partner's commit record (R267). -/
  resolving : Bool
  deriving DecidableEq, Repr, Inhabited

/-- A couch record (R264 to R267): a SOURCE region of this device, or a HOLDER's generations. -/
structure Couch where
  ent : CouchEnt
  cond : CouchCond
  validGen : Option Nat
  validSeq : Nat
  lastSeq : Nat
  doubtSeq : Nat
  doubtGen : Nat
  run : Option CouchRun
  inEffect : Bool
  deriving DecidableEq, Repr, Inhabited

/-! ### Chapter 10: Pomel links and interrupt vectors -/

/-- A request the device has sent, or holds, toward a companion (R287). -/
structure BoardReq where
  epoch : Nat
  addr : Nat
  bytes : Nat
  write : Bool
  deriving DecidableEq, Repr, Inhabited

/-- A Pomel link (chapter 10). -/
structure PLink where
  cfg : Word
  used : Word
  cond : LinkCond
  since : Nat
  trainSince : Nat
  boardCause : Bool
  lanes : Nat
  epoch : Nat
  agent : Bool
  width : Nat
  ver : Nat
  discarded : Nat
  retrains : Nat
  stallMax : Nat
  backInval : Nat
  watchFull : Nat
  lcrcErr : Nat
  aptViol : Nat
  replays : Nat
  intDropped : Nat
  txBytes : Nat
  rxBytes : Nat
  /-- Lines the companion holds, longest tracked first; the flag marks a line read for writing. -/
  snoop : List (Nat × Bool)
  /-- Line watches: companion line and the queue that waits (R278). -/
  watches : List (Nat × Nat)
  reqs : List BoardReq
  apt : Tbl Word
  deriving DecidableEq, Repr, Inhabited

/-- An interrupt vector (R284, R285). -/
structure Vec where
  en : Bool
  pending : Bool
  link : Nat
  target : Nat
  data : Nat
  deriving DecidableEq, Repr, Inhabited

/-! ### Chapter 11: instances and the mailbox -/

/-- The states of an instance (R300). -/
inductive InstState where
  | free | active | calming | calm | resetting
  deriving DecidableEq, Repr, Inhabited

/-- The registers of an instance window that hold a value of their own. -/
structure Window where
  wqSel : Nat
  /-- WQ_BASE and WQ_CFG of each queue, until it is created (R96). -/
  wqBase : Tbl Word
  wqCfg : Tbl Word
  wqDone : Bool
  wqCode : Nat
  cqSel : Nat
  /-- CQ_BASE and CQ_CFG of each ring, until it is created (R96). -/
  cqBase : Tbl Word
  cqCfg : Tbl Word
  cqDone : Bool
  cqCode : Nat
  early : Nat
  stale : Nat
  errors : Nat
  errPending : Bool
  errVec : Word
  gSel : Nat
  gDone : Bool
  gCode : Nat
  rdSel : Nat
  lulls : Nat
  dbIgnored : Nat
  dbOverflow : Nat
  qpSel : Nat
  dupRx : Nat
  retransmits : Nat
  collSel : Nat
  segSel : Nat
  segBase : Word
  segCfg : Word
  segKey : Nat
  segDone : Bool
  segCode : Nat
  remoteRefused : Nat
  lastReason : Nat
  lastSeg : Nat
  localRefused : Nat
  couchSel : Nat
  intSel : Nat
  energy : Nat
  telSel : Word
  segs : Tbl Seg
  deriving DecidableEq, Repr, Inhabited

/-- An instance (chapter 11). -/
structure Inst where
  st : InstState
  drainUs : Nat
  res : List Claim
  calmAt : Nat
  removing : Bool
  win : Window
  deriving DecidableEq, Repr, Inhabited

/-- A mailbox door (R303). -/
structure DoorState where
  req : Tbl Word
  resp : Tbl Word
  busy : Bool
  done : Bool
  tag : Nat
  ignored : Nat
  vecEn : Bool
  vector : Nat
  deriving DecidableEq, Repr, Inhabited

/-- The control space (R297, R308). -/
structure Ctrl where
  mgrLinks : Nat
  instSel : Nat
  /-- PL_APT_SEL (R292). -/
  aptSel : Word
  rsvdWrites : Tbl Nat
  refused : Tbl Nat
  lastViol : Word
  deriving DecidableEq, Repr, Inhabited

/-! ### Chapter 12: power -/

/-- A throttle unit (R318, R319). -/
structure Throttle where
  level : Nat
  deferredAt : Option Nat
  deferrals : Nat
  /-- Nanoseconds spent at L > 0 before `since`, and the time from which the rest counts. -/
  ns : Nat
  since : Nat
  deriving DecidableEq, Repr, Inhabited

/-- The power manager (chapter 12). -/
structure Power where
  cap : Nat
  capNext : Option Nat
  capHeld : Option Nat
  capDone : Bool
  capCode : Nat
  cfg : Word
  tj : Nat
  emerg : Bool
  staticW : Nat
  sharedRefill : Nat
  shared : Int
  bktSel : Nat
  /-- Balance and refill of each ENERGY entry of the active plan. -/
  balance : Tbl Int
  refill : Tbl Nat
  units : Tbl Throttle
  kFactor : Tbl Nat
  /-- Energy estimated per domain since the last update (R313). -/
  estimated : Tbl Nat
  /-- Energy charged, with the time, over the last 10 ms (R311). -/
  recent : List (Nat × Nat)
  /-- The queue numbers from which the dispatcher's two classes take the next head, round robin (R316). -/
  turnOwn : Nat
  turnPool : Nat
  energyWaits : Nat
  emergencies : Nat
  deferExpired : Nat
  lastPeriod : Nat
  deriving DecidableEq, Repr, Inhabited

/-! ### Chapter 13: faults and recovery -/

/-- A fault log entry (R322). -/
structure FaultEntry where
  time : Nat
  cls : Nat
  status : Nat
  engine : Nat
  inst : Nat
  timeDoubt : Bool
  degrades : Bool
  object : Nat
  detail : BitVec 32
  deriving DecidableEq, Repr, Inhabited

/-- The condition of an alternate (R331, R338). -/
inductive AltCond where
  | none | pending | applied | refused
  deriving DecidableEq, Repr, Inhabited

/-- A recorded alternate (R330, R338). -/
structure Alt where
  cond : AltCond
  e : Nat
  origin : Nat
  hops : Nat
  /-- The port the notice arrived on; 16 for a trigger of this device. -/
  arrPort : Nat
  sends : Nat
  lastSend : Nat
  planId : Word
  deriving DecidableEq, Repr, Inhabited

/-- A restore in progress (R334): the phase (0 waits for its QP, 1 reads the commit record, 2 reads the
generation), READs still unfinished, a failure met, and the record read. -/
structure Restore where
  phase : Nat
  open_ : Nat
  bad : Option Ending
  record : List Byte
  deriving DecidableEq, Repr, Inhabited

/-- Faults and recovery (chapter 13). -/
structure Faults where
  log : Tbl FaultEntry
  raised : List FaultEntry
  nextSeq : Nat
  oldest : Nat
  overwritten : Nat
  cfg : Word
  pending : Bool
  logSel : Nat
  vecEn : Bool
  vector : Nat
  classCount : Tbl Nat
  altSel : Nat
  alts : Tbl Alt
  /-- What applied alternates have changed: ports and sheets, circuits, slots (R331). -/
  touched : List (Nat × Nat × Nat)
  /-- Restores by region (R334). -/
  restoring : Tbl Restore
  restoreDone : Nat
  restoreFailed : Bool
  restoreStatus : Nat
  expiries : Nat
  /-- Time of the last watchdog expiry of each control core: ALIVE follows from it (R338). -/
  wdLast : Tbl Nat
  wdTimes : List Nat
  coreCause : Bool
  /-- The causes that stood when they were last looked at, and those that have set since the log was written: cause and
  tick (R322, DEGRADES). -/
  causesBefore : BitVec 8
  rises : List (Nat × Nat)
  deriving DecidableEq, Repr, Inhabited

/-! ### Chapter 14: boot and trust -/

/-- The device states (R339). -/
inductive DevState where
  | off | boot | bootHalt | ready | degraded
  deriving DecidableEq, Repr, Inhabited

/-- What the device is doing; READY and DEGRADED are both `service`, told apart by the causes
of R326. -/
inductive Phase where
  | off | boot | bootHalt | service
  deriving DecidableEq, Repr, Inhabited

/-- FW_PROGRESS.COND (R347). -/
inductive StageCond where
  | none | staged | writing | committed | failed
  deriving DecidableEq, Repr, Inhabited

/-- The boot and trust block (chapter 14). -/
structure Boot where
  phase : Phase
  /-- When the boot began, and whether its image has passed the checks of R344. -/
  startedAt : Nat
  verified : Bool
  haltStep : Nat
  waitFlash : Nat
  hbmValid : Bool
  /-- The boot in progress is a warm boot. -/
  warm : Bool
  haltFuse : Bool
  fuseSvn : Nat
  keyRevoke : BitVec 16
  flash : Flash
  stage : StageCond
  staged : List Byte
  bytesWritten : Nat
  attempts : Nat
  warmBoots : Nat
  repaired : Bool
  kindWarm : Bool
  running : Word
  runningSvn : Nat
  flashVersion : Word
  flashSvn : Nat
  headerHash : BitVec 256
  bootSvn : Nat
  /-- The key under which QP keys are wrapped, new at every boot (R143). -/
  wrapKey : BitVec 256
  /-- The code region of the control cores, a part of the reserved area that no address of any requester reaches: the
  verified body, read-only to every requester while locked (R346). -/
  code : List Byte
  codeLocked : Bool
  deriving DecidableEq, Repr, Inhabited

/-! ### Chapter 15: the metering island -/

/-- The seven meter counters of an instance or of the device set (R363). -/
structure Meter where
  netTx : Nat
  served : Nat
  board : Nat
  press : Nat
  hbmGms : Nat
  energy : Nat
  pkg : Nat
  deriving DecidableEq, Repr, Inhabited

/-- A watermark record (R365). -/
structure Watermark where
  node : Nat
  islandBoot : Nat
  inst : Nat
  timeDoubt : Bool
  isFinal : Bool
  spot : Bool
  gen : Nat
  periodS : Nat
  seq : Nat
  time : Nat
  m : Meter
  granules : Nat
  prevHash : BitVec 256
  nonce : BitVec 256
  deriving DecidableEq, Repr, Inhabited

/-- The metering island (chapter 15). -/
structure Island where
  running : Bool
  fuses : Nat
  meters : Tbl Meter
  gen : Tbl Nat
  seq : Nat
  prev : Tbl Watermark
  sram : List Watermark
  /-- Records in the ring of HBM, newest first. -/
  ring : List Watermark
  ringHeld : List Watermark
  notFree : List Nat
  period : Nat
  periodNext : Nat
  lastClose : Nat
  gmsAt : Nat
  rdSel : Word
  spots : List Nat
  deriving DecidableEq, Repr, Inhabited

/-! ### Chapters 16 and 17: test, telemetry, pins -/

/-- The JTAG instructions (R377). -/
inductive JtagInstr where
  | bypass | idcode | samplePreload | extest | extestPulse | extestTrain | clamp | highz
  deriving DecidableEq, Repr, Inhabited

/-- Test and telemetry (chapter 16). -/
structure Test where
  scanEn : Bool
  loop : Tbl Word
  prbs : Tbl Word
  plLoop : Tbl Word
  xport : Word
  memFails : Nat
  memFailed : BitVec 12
  memRunning : Option (Nat × BitVec 12)
  memDone : Bool
  memCode : Nat
  inject : Word
  injApplied : Nat
  injArmed : Bool
  telSel : Word
  /-- Shadows of the last isobar: device-global by offset; window by instance and offset; QP and
  bucket registers by object and offset. -/
  shadowDev : Tbl Word
  shadowWin : Tbl Word
  shadowObj : Tbl Word
  jtag : JtagInstr
  deriving DecidableEq, Repr, Inhabited

/-- Functions of a general pin (R41). -/
inductive GpioFn where
  | input
  | output
  | openDrain
  | ppsOut
  deriving DecidableEq, Repr, Inhabited

/-- Reset inputs, clock, straps and the manager I3C port (chapter 17). -/
structure Pins where
  porstLow : Bool
  wrstLow : Bool
  refclkLost : Bool
  offByFault : Bool
  thermTrip : Bool
  strap : Nat
  i3cDyn : Option Nat
  /-- Functions of the balls GPIO_0 to GPIO_15 that plan claims give; a ball that none claims is an input (R41, R48,
  R386). -/
  gpio : Tbl GpioFn
  deriving DecidableEq, Repr, Inhabited

/-- A packet delivered to this device: how it came, and on an Ethernet-mode port the priority, the sub-port and
the bytes it holds in the receive buffer (R231). -/
structure Inboxed where
  arr : Arrival
  body : FrameBody
  prio : Nat
  bytes : Nat
  /-- The sub-port it came in on. -/
  sub : Nat
  deriving DecidableEq, Repr, Inhabited

/-- What the device sends, newest first: the model's own log, read by no rule (log entry 7). -/
inductive Sent where
  | ztp (port : Option Nat) (vc : Nat) (p : ZtpPacket)
  | csp (slot : Nat) (dst : Nat) (p : CspPacket)
  | frame (port : Nat) (f : FabFrame)
  | eth (port sub : Nat) (f : EthFrame)
  | msgInt (link target data : Nat)
  | readData (link : Nat) (bytes : List Byte)
  | cmp (link : Nat)
  | cmpErr (link : Nat)
  | backInv (link line : Nat)
  | boardWrite (link addr : Nat) (bytes : List Byte)
  /-- RD_NC toward a companion (R275). -/
  | boardRead (link addr n : Nat)
  /-- RD_SHR toward a companion: a watch (R275, R278). -/
  | boardShr (link line : Nat)
  | i3c (bytes : List Byte)
  | auditor (bytes : List Byte)
  | regRead (link : Nat) (value : Word)
  | uart (seq : Nat)
  | jtag (value : Word)
  deriving DecidableEq, Repr, Inhabited

/-- The state of the ZN-9768. -/
structure State where
  /-- Commands waiting, first in, first out. -/
  pending : List Instr
  /-- The model's own counter of free values drawn (log entry 6). -/
  draw : Nat
  time : TimeUnit
  plans : PlanSlots
  queues : Tbl WorkQueue
  rings : Tbl Ring
  sync : SyncMem
  qps : Tbl Qp
  tp : Transport
  coll : Coll
  ports : Tbl Port
  routing : Routing
  eth : Eth
  hbm : Hbm
  /-- HBM contents by device address, in canonical form; a byte not listed reads 0. -/
  mem : List Host.Cell
  /-- Companion memory behind L0 to L3 as the device sees it (log entry 10). -/
  board0 : List Host.Cell
  board1 : List Host.Cell
  board2 : List Host.Cell
  board3 : List Host.Cell
  couch : Tbl Couch
  links : Tbl PLink
  vectors : Tbl Vec
  insts : Tbl Inst
  doors : Tbl DoorState
  ctrl : Ctrl
  pwr : Power
  flt : Faults
  boot : Boot
  mtr : Island
  tst : Test
  pins : Pins
  /-- Packets delivered to this device and not yet taken by their own command. -/
  inbox : List Inboxed
  out : List Sent
  deriving DecidableEq, Repr

/-! ### Reset

Every field at the value the spec gives for a cold reset; the fields the spec gives no value are
named in log entries 2, 6, 8 and 9. -/

/-- A port's PTP part: PTP_PORT_CFG has SYNC_LOG 0xA and EN 1 (R35); before any Announce, P of R22 stands at the
1,000 ns of an unknown clockAccuracy (DESIGN CHOICE, log entry 106). -/
def PtpPort.reset : PtpPort := { (default : PtpPort) with cfg := 0xA01, accBound := 1000 }

/-- The time unit at a cold reset (R35): HOLD_RATE 50, ERR_LIMIT 80, WIDTH_US 100,000. -/
def TimeUnit.reset : TimeUnit :=
  { (default : TimeUnit) with
    now := 0, ctrl := 0x32500000, lock := .acquiring, ppsCfg := 0x186A0000, ports := Tbl.empty }

/-- The plan slots at a cold reset: both empty (R54). -/
def PlanSlots.reset : PlanSlots :=
  { (default : PlanSlots) with active := none, nextCond := .empty, next := none, loadDoor := .i3c }

/-- A QP context at reset: CLOSED (R154). -/
def Qp.reset : Qp := { (default : Qp) with st := .closed, record := Tbl.empty }

/-- The transport configuration at reset (R155). -/
def Transport.reset : Transport :=
  { cfg := 0x50740201, retry := 0x4004803E80000010, cc0 := 0x005000101F400440,
    cc1 := 0x09C40271, ack := 0x03E8271000101404, pa := default, pb := default, uses := 0 }

/-- A collective slot at reset: FREE (R187). -/
def Slot.reset : Slot :=
  { (default : Slot) with cond := .free, desc := none, outs := Tbl.empty, ins := Tbl.empty }

/-- The sequencer at reset (R189): UDP_PORT 20,597, RETRIES 16, RTO 64. -/
def Coll.reset : Coll :=
  { (default : Coll) with slots := Tbl.empty, cfg := 0x507510000040, press := Tbl.empty }

/-- A fabric port at reset (R222): RETRAIN_MAX 200, REPLAY_TO 4,000, VER_MAX 2, DOWN. -/
def Port.reset : Port := { (default : Port) with cfg := 0x00C80FA000000020, cond := .down }

/-- A routing bank at a cold reset: RETIRED, empty (R220). -/
def Bank.reset : Bank := { cond := .retired, sets := Tbl.empty, mgr := false, drainFrom := 0 }

/-- Routing at reset (R222): MARK_K 32, REQ_W 1, COLL_W 1, VC0_HOLD 100, HOP_LIMIT 32. -/
def Routing.reset : Routing :=
  { bank0 := Bank.reset, bank1 := Bank.reset, node := 0, cfg := 0x0020010100640020,
    code := 0, tableFront := none, sel := 0 }

/-- An Ethernet port at reset (R244): MAX_FRAME 9,216, OVH 20, AN_EN 1, QUANTA 0xFFFF,
XOFF 4,096, XON 3,584, and scheduler nodes of WEIGHT 1, BURST 64. -/
def EthPort.reset : EthPort :=
  { (default : EthPort) with
    cfg := 0x9000500008000000, pfc := 0xFFFF000010000E00, portNode := 0x1000000040000 }

/-- A scheduler node at reset (R244): WEIGHT 1, BURST 64. -/
def schNodeReset : Word := 0x1000000040000

/-- A stack at reset; the spare rows it starts with are fused (R268). -/
def Stack.reset (s : Nat) : Stack := { (default : Stack) with spare := Config.spareRows s % 65536 }

/-- HBM at reset (R268): RETIRE_UE 16, RETRAIN_MS 1,000, SCRUB_H 24, all twelve stacks in the map. -/
def Hbm.reset : Hbm := { (default : Hbm) with cfg := 0x100003E80018, live := 0xFFF }

/-- A Pomel link at reset (R292): CACHE_EN 1, VER_MAX 2, EN 1, DOWN. -/
def PLink.reset : PLink :=
  { (default : PLink) with cfg := 0x1021, used := 0x1021, cond := .down }

/-- An instance at reset: FREE (R300). -/
def Inst.reset : Inst := { (default : Inst) with st := .free }

/-- Instance 0 at reset: ACTIVE (R300). -/
def Inst.manager : Inst := { (default : Inst) with st := .active }

/-- The control space at reset (R308): MGR_LINKS 0xF. -/
def Ctrl.reset : Ctrl := { (default : Ctrl) with mgrLinks := 15 }

/-- The power manager at reset (R321): cap 700 W, THROTTLE_TJ 100, DEFER_US 200, LULL_US 50. -/
def Power.reset : Power := { (default : Power) with cap := 700, cfg := 0x64C800320000 }

/-- Faults and recovery at reset (R338): DECIDE_MS 5, WD_MS 100, RESTORE_EN 1, ALIVE 0xFFFF. -/
def Faults.reset : Faults := { (default : Faults) with cfg := 0x05640001 }

/-- The boot and trust block before PORST_N is released: OFF, its fuses as made (R343). -/
def Boot.reset : Boot :=
  { (default : Boot) with
    phase := .off, fuseSvn := Config.fuseSvn % 129, keyRevoke := Config.keyRevoke, flash := .absent }

/-- The metering island at reset: running, PERIOD_S 60 (R362, R369). -/
def Island.reset : Island :=
  { (default : Island) with
    running := true, fuses := Config.islandFuses % 1025, period := 60, periodNext := 60 }

/-- Test and telemetry at reset (R380); the TAP holds IDCODE, as IEEE 1149.1 has it (log entry 30). -/
def Test.reset : Test := { (default : Test) with jtag := .idcode }

/-- The pins at reset: PORST_N held low (R394). -/
def Pins.reset : Pins := { (default : Pins) with porstLow := true }

/-- The machine at a cold reset, PORST_N still low (log entry 2). -/
def State.reset : State where
  pending := []
  draw := 0
  time := TimeUnit.reset
  plans := PlanSlots.reset
  queues := Tbl.empty
  rings := Tbl.empty
  sync := ⟨Tbl.empty, Tbl.empty, [], 0, 0, Tbl.empty, Tbl.empty⟩
  qps := Tbl.empty
  tp := Transport.reset
  coll := Coll.reset
  ports := Tbl.empty
  routing := Routing.reset
  eth := ⟨Tbl.empty, 0, 0⟩
  hbm := Hbm.reset
  mem := []
  board0 := []
  board1 := []
  board2 := []
  board3 := []
  couch := Tbl.empty
  links := Tbl.empty
  vectors := Tbl.empty
  insts := ⟨[(0, Inst.manager)]⟩
  doors := Tbl.empty
  ctrl := Ctrl.reset
  pwr := Power.reset
  flt := Faults.reset
  boot := Boot.reset
  mtr := Island.reset
  tst := Test.reset
  pins := Pins.reset
  inbox := []
  out := []

end Sys2Proof.Machine
end

