-- ==== Sys2Proof/Machine/Ops.lean ====
section
/-! DEFINITION. The named operations over the state that the chapters share: access to the tables,
HBM and companion memory, free values, faults raised, interrupt messages, meters. -/

namespace Sys2Proof.Machine

/-! ### Status codes (R7) -/

namespace St
def ok : Nat := 0x00
def localBounds : Nat := 0x01
def remoteAccess : Nat := 0x02
def retryExhausted : Nat := 0x03
def flushed : Nat := 0x04
def malformed : Nat := 0x05
def ownerLost : Nat := 0x06
def waitTimeout : Nat := 0x07
def targetUnavailable : Nat := 0x08
def memoryUncorrectable : Nat := 0x09
def partitionReject : Nat := 0x0A
def contextBusy : Nat := 0x0B
def planMismatch : Nat := 0x0C
def formatFault : Nat := 0x0D
def semOverflow : Nat := 0x0E
def counterRange : Nat := 0x0F
def energyRefused : Nat := 0x10
end St

/-! ### Reading and changing the tables -/

/-- Fabric time at the start of the current tick (R13). -/
def State.now (s : State) : Nat := s.time.now

/-- Fabric time at the start of the first tick that starts at or after `t` (R13). -/
def tickStart (t : Nat) : Nat := (t + 15) / 16 * 16

/-- Slewing moves fabric time by at most so many ppm: 100 in LOCKED and HOLDOVER, 1,000 otherwise (R33). -/
def slewPpm (t : TimeUnit) : Nat := if t.lock = .locked ∨ t.lock = .holdover then 100 else 1000

/-- Femtoseconds of the offset that a slew removes while `d` ns of fabric time pass (R33). -/
def slewed (t : TimeUnit) (d : Nat) : Nat := min t.slew.natAbs (d * slewPpm t)

/-- Fabric time passes to `t`: a slew under way runs it slow while it is ahead and fast while it is behind,
against REFCLK_SYS, until the offset is gone (R33; log entry 46). -/
def passTo (x : TimeUnit) (t : Nat) : TimeUnit :=
  let d := t - x.now
  { x with
    now := t, slew := if 0 ≤ x.slew then x.slew - slewed x d else x.slew + slewed x d
    ref := if 0 ≤ x.slew then x.ref + (d * 1000000 + slewed x d) else x.ref + (d * 1000000 - slewed x d) }

/-- An event that is due at `t` comes in the first tick at or after `t`, and never before now: its
command carries fabric time forward to that tick (R13; log entry 4). -/
def State.arriveAt (s : State) (t : Nat) : State :=
  { s with time := passTo s.time (max s.time.now (tickStart t)) }

/-- A target time is reached in the first tick that starts at or after it (R13). -/
def reached (s : State) (t : Nat) : Bool := decide (t ≤ s.now)

def State.port (s : State) (p : Nat) : Port := s.ports.findD p Port.reset
def State.ethPort (s : State) (p : Nat) : EthPort := s.eth.ports.findD p EthPort.reset
def State.link (s : State) (l : Nat) : PLink := s.links.findD l PLink.reset
def State.inst (s : State) (i : Nat) : Inst := s.insts.findD i Inst.reset
def State.qp (s : State) (q : Nat) : Qp := s.qps.findD q Qp.reset
def State.slot (s : State) (n : Nat) : Slot := s.coll.slots.findD n Slot.reset
def State.vec (s : State) (v : Nat) : Vec := s.vectors.findD v default
def State.door (s : State) (d : Nat) : DoorState := s.doors.findD d default
def State.granule (s : State) (g : Nat) : Granule := s.sync.granules.findD g default
def State.ptp (s : State) (p : Nat) : PtpPort := s.time.ports.findD p PtpPort.reset
def State.stack (s : State) (n : Nat) : Stack := s.hbm.perStack.findD n (Stack.reset n)
def State.meter (s : State) (i : Nat) : Meter := s.mtr.meters.findD i default
def State.seg (s : State) (i n : Nat) : Seg := (s.inst i).win.segs.findD n default

def State.modTime (s : State) (f : TimeUnit → TimeUnit) : State := { s with time := f s.time }
def State.modPtp (s : State) (p : Nat) (f : PtpPort → PtpPort) : State :=
  s.modTime (fun t => { t with ports := t.ports.modifyD p PtpPort.reset f })
def State.modPlans (s : State) (f : PlanSlots → PlanSlots) : State := { s with plans := f s.plans }
def State.modFlt (s : State) (f : Faults → Faults) : State := { s with flt := f s.flt }
def State.modPwr (s : State) (f : Power → Power) : State := { s with pwr := f s.pwr }
def State.modHbm (s : State) (f : Hbm → Hbm) : State := { s with hbm := f s.hbm }
def State.modMtr (s : State) (f : Island → Island) : State := { s with mtr := f s.mtr }
def State.modBoot (s : State) (f : Boot → Boot) : State := { s with boot := f s.boot }
def State.modTst (s : State) (f : Test → Test) : State := { s with tst := f s.tst }
def State.modColl (s : State) (f : Coll → Coll) : State := { s with coll := f s.coll }
def State.modSync (s : State) (f : SyncMem → SyncMem) : State := { s with sync := f s.sync }
def State.modRouting (s : State) (f : Routing → Routing) : State := { s with routing := f s.routing }
def State.modInsts (s : State) (f : Tbl Inst → Tbl Inst) : State := { s with insts := f s.insts }
def State.modQueue (s : State) (q : Nat) (f : WorkQueue → WorkQueue) : State :=
  { s with queues := s.queues.modify q f }
def State.modRing (s : State) (r : Nat) (f : Ring → Ring) : State :=
  { s with rings := s.rings.modify r f }
def State.modQp (s : State) (n : Nat) (f : Qp → Qp) : State :=
  { s with qps := s.qps.modifyD n Qp.reset f }
def State.modPort (s : State) (p : Nat) (f : Port → Port) : State :=
  { s with ports := s.ports.modifyD p Port.reset f }
def State.modCnt (s : State) (p : Nat) (f : PortCounts → PortCounts) : State :=
  s.modPort p (fun x => { x with cnt := f x.cnt })
def State.modEth (s : State) (p : Nat) (f : EthPort → EthPort) : State :=
  { s with eth := { s.eth with ports := s.eth.ports.modifyD p EthPort.reset f } }
def State.modSub (s : State) (p sub : Nat) (f : SubPort → SubPort) : State :=
  s.modEth p (fun e => { e with subs := e.subs.modifyD sub default f })
def State.modLink (s : State) (l : Nat) (f : PLink → PLink) : State :=
  { s with links := s.links.modifyD l PLink.reset f }
def State.modInst (s : State) (i : Nat) (f : Inst → Inst) : State :=
  { s with insts := s.insts.modifyD i Inst.reset f }
def State.modWin (s : State) (i : Nat) (f : Window → Window) : State :=
  s.modInst i (fun x => { x with win := f x.win })
def State.modSeg (s : State) (i n : Nat) (f : Seg → Seg) : State :=
  s.modWin i (fun w => { w with segs := w.segs.modifyD n default f })
def State.modSlot (s : State) (n : Nat) (f : Slot → Slot) : State :=
  s.modColl (fun c => { c with slots := c.slots.modifyD n Slot.reset f })
def State.modVec (s : State) (v : Nat) (f : Vec → Vec) : State :=
  { s with vectors := s.vectors.modifyD v default f }
def State.modDoor (s : State) (d : Nat) (f : DoorState → DoorState) : State :=
  { s with doors := s.doors.modifyD d default f }
def State.modGranule (s : State) (g : Nat) (f : Granule → Granule) : State :=
  s.modSync (fun m => { m with granules := m.granules.modifyD g default f })
def State.modStack (s : State) (n : Nat) (f : Stack → Stack) : State :=
  s.modHbm (fun h => { h with perStack := h.perStack.modifyD n (Stack.reset n) f })
def State.modCouch (s : State) (r : Nat) (f : Couch → Couch) : State :=
  { s with couch := s.couch.modify r f }
def State.modMeter (s : State) (i : Nat) (f : Meter → Meter) : State :=
  if s.mtr.running then s.modMtr (fun m => { m with meters := m.meters.modifyD i default f }) else s

/-- PTP time now (R11). -/
def ptpNow (s : State) : Nat := s.now + s.time.epoch * 1000000000

/-- A PTP message takes its timestamps as it leaves (R17, R19); `since` is when it was queued. -/
def stampPtp (s : State) (p since : Nat) : PtpMsg → PtpMsg
  | .sync _ two => .sync (ptpNow s) two
  | .followUp _ => .followUp (s.ptp p).syncAt
  | .pdelayResp _ => .pdelayResp (s.now - since)
  | m => m

/-- A PTP message has left a port: what it measures from now on. -/
def ptpLeft (s : State) (p : Nat) (m : PtpMsg) : State :=
  match m with
  | .sync t _ => s.modPtp p (fun x => { x with syncAt := t })
  | .pdelayReq => s.modPtp p (fun x => { x with lastReq := some s.now })
  | .delayReq _ _ => s.modPtp p (fun x => { x with lastReq := some s.now })
  | _ => s

/-- Note what the device sends, newest first (log entry 7). -/
def State.sent (s : State) (x : Sent) : State := { s with out := x :: s.out }

/-- Do `f` for each of a list in turn. -/
def forEach {α : Type} (xs : List α) (s : State) (f : State → α → State) : State := xs.foldl f s

/-- A value the spec leaves open: a constant without a body, applied to a counter (log entry 6). -/
def drawFree (s : State) : Word × State :=
  (Config.freeValue s.draw, { s with draw := s.draw + 1 })

/-- The device answers accesses: its mailbox doors are open (R340). -/
def State.inService (s : State) : Bool := s.boot.phase == .service

/-- Some clock of the main rails runs: the device is neither OFF nor halted. -/
def State.running (s : State) : Bool := s.inService || s.boot.phase == .boot

/-! ### Byte memory in canonical form -/

/-- What a byte that nothing has written reads as (log entry 9). -/
def unlistedByte : Byte := 0

/-- The byte at an address. -/
def readByte : List Host.Cell → Nat → Byte
  | [], _ => unlistedByte
  | (k, v) :: rest, a => if k = a then v else readByte rest a

/-- Store a byte, keeping addresses rising and listing no byte that equals an unlisted one. -/
def writeByte : List Host.Cell → Nat → Byte → List Host.Cell
  | [], a, b => if b = unlistedByte then [] else [(a, b)]
  | (k, v) :: rest, a, b =>
    if a < k then (if b = unlistedByte then (k, v) :: rest else (a, b) :: (k, v) :: rest)
    else if a = k then (if b = unlistedByte then rest else (a, b) :: rest)
    else (k, v) :: writeByte rest a b

/-- `n` bytes from an address. -/
def readBytes (m : List Host.Cell) (a : Nat) : Nat → List Byte
  | 0 => []
  | n + 1 => readByte m a :: readBytes m (a + 1) n

/-- Store bytes from an address upward. -/
def writeBytes : List Host.Cell → Nat → List Byte → List Host.Cell
  | m, _, [] => m
  | m, a, b :: bs => writeBytes (writeByte m a b) (a + 1) bs

/-- The canonical form of a memory from address `lo` on: rising, no unlisted byte listed. -/
def memWfFrom (lo : Nat) : List Host.Cell → Bool
  | [] => true
  | (k, v) :: rest => decide (lo ≤ k) && decide (v ≠ unlistedByte) && memWfFrom (k + 1) rest

/-- The canonical form of a memory. -/
def Memory.wf (m : List Host.Cell) : Bool := memWfFrom 0 m

/-- Companion memory behind link `l`. -/
def State.board (s : State) (l : Nat) : List Host.Cell :=
  if l = 0 then s.board0 else if l = 1 then s.board1 else if l = 2 then s.board2 else s.board3

def State.setBoard (s : State) (l : Nat) (m : List Host.Cell) : State :=
  if l = 0 then { s with board0 := m } else if l = 1 then { s with board1 := m }
  else if l = 2 then { s with board2 := m } else { s with board3 := m }

/-! ### Faults and interrupts -/

/-- A fault is reported; FAULT_LOG_APPEND writes it to the log (R322, R324). -/
def raiseFault (s : State) (cls status engine inst object : Nat) (detail : BitVec 32) : State :=
  s.modFlt (fun f => { f with raised := f.raised ++
    [{ time := s.now, cls := cls, status := status, engine := engine, inst := inst,
       timeDoubt := decide (s.time.lock ≠ .locked), degrades := false,
       object := object, detail := detail }] })

/-- Send MSG_INT if the vector is enabled and its link is UP, else set PENDING (R285). -/
def fireVector (s : State) (v : Nat) : State :=
  let x := s.vec v
  if x.en && (s.link x.link).cond == .up
  then (s.modVec v (fun y => { y with pending := false })).sent (.msgInt x.link x.target x.data)
  else s.modVec v (fun y => { y with pending := true })

/-- A pending vector sends in the first tick in which it may (R285). -/
def servePending (s : State) (v : Nat) : State :=
  let x := s.vec v
  if x.pending && x.en && (s.link x.link).cond == .up
  then (s.modVec v (fun y => { y with pending := false })).sent (.msgInt x.link x.target x.data)
  else s

/-- Serve every pending vector of link `l` (R285). -/
def servePendingOn (s : State) (l : Nat) : State :=
  forEach (s.vectors.keys.filter (fun v => (s.vec v).link == l)) s servePending

/-! ### HBM (R245 to R254) -/

/-- The stacks in the map, ascending (R245). -/
def liveList (h : Hbm) : List Nat := (List.range 12).filter (fun i => h.live.getLsbD i)

/-- Stack that holds a device address (R245). -/
def stackOf (h : Hbm) (a : Nat) : Nat :=
  (liveList h).getD (a / 4096 % (liveList h).length) 0

/-- Address within its stack of a device address (R245). -/
def stackAddr (h : Hbm) (a : Nat) : Nat := a / 4096 / (liveList h).length * 4096 + a % 4096

/-- HBM_AVAIL: granules of 2 MiB in the pool (R246). -/
def hbmAvail (h : Hbm) : Nat := (liveList h).length * 64000000000 / 2097152 - 1536

/-- Bytes of one granule of HBM, 2 MiB. -/
def gran : Nat := 2097152

/-- The words of HBM that a range touches. -/
def wordsOf (a n : Nat) : List Nat := if n = 0 then [] else rangeFrom (a / 8) ((a + n - 1) / 8 - a / 8 + 1)

/-- The lines of 64 bytes that a range touches. -/
def linesOf (a n : Nat) : List Nat := if n = 0 then [] else rangeFrom (a / 64) ((a + n - 1) / 64 - a / 64 + 1)

/-- A word that cannot be read: uncorrectable, or in a stack that has stopped answering (R251, R252). -/
def wordBad (h : Hbm) (w : Nat) : Bool := h.bad.contains w || h.dead.getLsbD (stackOf h (w * 8))

/-- The first uncorrectable word of a range. -/
def firstBad (h : Hbm) (a n : Nat) : Option Nat :=
  (wordsOf a n).find? (wordBad h)

/-- Index, counted from the start of the range, of the 64-byte block that holds word `w`,
saturating at 26 bits (R254). -/
def blockOf (a w : Nat) : Nat := sat 26 ((max (w * 8) a - a) / 64)

/-- Mark a stack for retirement and log it (R251). -/
def markRetired (s : State) (st : Nat) : State :=
  if s.hbm.retirePending.getLsbD st then s
  else raiseFault (s.modHbm (fun h => { h with
        retirePending := h.retirePending ||| (1#12 <<< st), retired := h.retired ||| (1#12 <<< st) }))
      0x03 0x00 (48 + st) 0xFF st 0xFFFFFFFF

/-- The row, 2 KiB, of a stack that holds a device address: it keeps its number when the map over the stacks changes
(R245, R250; log entry 9). -/
def rowOf (h : Hbm) (a : Nat) : Nat := stackOf h a * 2 ^ 40 + stackAddr h a / 2048

/-- Repair a row of a stack while its bank has a spare (R250); SPARED counts those repaired in service. -/
def repairRow (s : State) (st row : Nat) (inService : Bool) : State :=
  let left := (s.stack st).spare
  if left = 0 ∨ Config.bankSpent row left then s
  else
    let s := (s.modStack st (fun k => { k with
      spared := if inService then sat 16 (k.spared + 1) else k.spared
      spare := left - 1, sparesLeft := k.sparesLeft - 1 })).modHbm (fun h => { h with repaired := row :: h.repaired })
    if left = 1 ∨ Config.quarterSpent st (left - 1) then markRetired s st else s

/-- 24 hours in nanoseconds. -/
def day : Nat := 86400000000000

/-- Count and log the uncorrectable word `w`, met by a reader or by scrub (R252, R251, R376). -/
def logUe (s : State) (w : Nat) (scrub : Bool) : State :=
  let st := stackOf s.hbm (w * 8)
  let inj := s.hbm.injected.contains w
  let times := (s.stack st).ueTimes.filter (fun t => decide (s.now < t + day))
  let times := if inj then times else times ++ [s.now]
  let s := s.modStack st (fun k => { k with uncorrected := wrap 32 (k.uncorrected + 1), ueTimes := times })
  let s := s.modHbm (fun h => { h with ueScrub := scrub, ueStack := st, ueAddr := w * 8 })
  let s := raiseFault s 0x03 0x09 (48 + st) 0xFF st (BitVec.ofNat 32 (w * 8 / 256))
  if times.length > max 1 (fld s.hbm.cfg 47 40) then markRetired s st else s

/-- A read of some words corrects what it can: those that hold a correctable error are written back corrected and counted
(R247). -/
def correctWords (s : State) (ws : List Nat) : State :=
  forEach (ws.filter (fun w => s.hbm.soft.contains w)) s (fun s w =>
    (s.modStack (stackOf s.hbm (w * 8)) (fun k => { k with corrected := wrap 32 (k.corrected + 1) })).modHbm
      (fun h => { h with soft := h.soft.filter (· != w) }))

/-- A read of a range corrects its words (R247). -/
def correctRange (s : State) (a n : Nat) : State := correctWords s (wordsOf a n)

/-- Take back, from the companions of some links, the lines they hold that `p` names (R277): a line and whether it is held
for writing. -/
def takeBack (s : State) (links : List Nat) (p : Nat × Bool → Bool) : State :=
  forEach links s (fun s l =>
    let held := (s.link l).snoop.filter p
    if held.isEmpty then s
    else (forEach held s (fun s e => s.sent (.backInv l e.1))).modLink l
      (fun k => { k with snoop := k.snoop.filter (fun e => !p e) }))

/-- Before an engine writes a line that a companion holds, the device takes it back (R277). -/
def backInvLines (s : State) (lines : List Nat) : State := takeBack s [0, 1, 2, 3] (fun e => lines.contains e.1)

/-- The same for every line of a range. -/
def backInvRange (s : State) (a n : Nat) : State :=
  takeBack s [0, 1, 2, 3] (fun e => decide (a < e.1 * 64 + 64) && decide (e.1 * 64 < a + n))

/-- Before an engine reads lines that companions hold for writing, the device takes them back (R277); the companion that
asks keeps its own. What it wrote in them has come as its writes (log entry 130). -/
def takeOwned (s : State) (asker : Option Nat) (lines : List Nat) : State :=
  takeBack s ([0, 1, 2, 3].filter (fun l => asker != some l)) (fun e => e.2 && lines.contains e.1)

/-- The outcome of a read or write of memory by an operation. -/
inductive Access where
  | done
  | failed (status : Nat) (detail : BitVec 32)
  deriving DecidableEq, Repr, Inhabited

/-- DETAIL of MEMORY_UNCORRECTABLE (R254). -/
def ueDetail (stack : Nat) (remote : Bool) (block : Nat) : BitVec 32 :=
  BitVec.ofNat 32 (stack % 16 * 2 ^ 28 + remote.toNat * 2 ^ 27 + sat 26 block)

/-- DETAIL of TARGET_UNAVAILABLE (R290). -/
def lostDetail (link epoch : Nat) (remote : Bool) : BitVec 32 :=
  if remote then BitVec.ofNat 32 (2 ^ 27)
  else BitVec.ofNat 32 (link % 4 * 2 ^ 30 + epoch % 256 * 2 ^ 16)

/-- Apply an armed injection at the write of its word (R376). -/
def applyInjection (s : State) (words : List Nat) : State :=
  let w := fld s.tst.inject 39 0 / 8
  if s.tst.injArmed && words.contains w then
    let t := fld s.tst.inject 63 62
    let s := s.modTst (fun x => { x with injArmed := false, injApplied := wrap 32 (x.injApplied + 1) })
    if t = 3 then s.modHbm (fun h => { h with bad := w :: h.bad.filter (· != w), injected := w :: h.injected.filter (· != w) })
    else s.modHbm (fun h => { h with soft := w :: h.soft.filter (· != w), injected := w :: h.injected.filter (· != w) })
  else s

/-- The whole aligned words inside a range: a write clears their errors (R253). -/
def wholeWords (a n : Nat) : List Nat := (wordsOf a n).filter (fun w => decide (a ≤ w * 8) && decide (w * 8 + 8 ≤ a + n))

/-- Write bytes to HBM (R253): a word covered in part is read first, which corrects it (R247); one that is uncorrectable
refuses the write of its bytes; the bytes of every other word are stored. -/
def hbmWrite (s : State) (a : Nat) (bs : List Byte) : State × Access :=
  let whole := wholeWords a bs.length
  let stuck := (wordsOf a bs.length).filter (fun w => wordBad s.hbm w && !whole.contains w)
  let s := correctWords s ((wordsOf a bs.length).filter (fun w => !whole.contains w))
  let s := backInvLines s (linesOf a bs.length)
  let m := ((rangeFrom a bs.length).zip bs).foldl
    (fun m c => if stuck.contains (c.1 / 8) then m else writeByte m c.1 c.2) s.mem
  let s := { s with mem := m }
  let s := s.modHbm (fun h => { h with bad := h.bad.filter (fun w => !whole.contains w),
                                        soft := h.soft.filter (fun w => !whole.contains w),
                                        injected := h.injected.filter (fun w => !whole.contains w) })
  let s := applyInjection s (wordsOf a bs.length)
  match stuck with
  | [] => (s, .done)
  | w :: _ => (logUe s w false, .failed St.memoryUncorrectable (ueDetail (stackOf s.hbm (w * 8)) false (blockOf a w)))

/-- Store bytes to HBM for the device itself, whatever the words hold. -/
def hbmStore (s : State) (a : Nat) (bs : List Byte) : State := (hbmWrite s a bs).1

/-- Read bytes from HBM for a companion or for the device: the bytes, or the failure R252 gives and how many bytes stand
before the first 64-byte block that could not be moved. Lines held for writing elsewhere are taken back first (R277). -/
def hbmReadBy (asker : Option Nat) (s : State) (a n : Nat) : State × Access × List Byte :=
  let s := correctRange (takeOwned s asker (linesOf a n)) a n
  match firstBad s.hbm a n with
  | none => (s, .done, readBytes s.mem a n)
  | some w =>
    (logUe s w false, .failed St.memoryUncorrectable (ueDetail (stackOf s.hbm (w * 8)) false (blockOf a w)),
      readBytes s.mem a (blockOf a w * 64))

/-- An engine of the device reads bytes from HBM. -/
def hbmRead (s : State) (a n : Nat) : State × Access × List Byte := hbmReadBy none s a n

/-- The device writes words of its own area of HBM: whatever errors they held are gone (R253). -/
def healWords (s : State) (ok : Nat → Bool) : State :=
  s.modHbm (fun h => { h with
    bad := h.bad.filter (fun w => !ok w), soft := h.soft.filter (fun w => !ok w)
    injected := h.injected.filter (fun w => !ok w) })

/-- Zero a range of HBM, clearing every error in it (R302). -/
def hbmZero (s : State) (a n : Nat) : State :=
  let s := backInvRange s a n
  let out := fun w => !(decide (a < w * 8 + 8) && decide (w * 8 < a + n))
  { s with
    mem := s.mem.filter (fun c => !(decide (a ≤ c.1) && decide (c.1 < a + n)))
    hbm := { s.hbm with bad := s.hbm.bad.filter out, soft := s.hbm.soft.filter out, injected := s.hbm.injected.filter out } }

/-! ### Ranges an operation holds a translation of (R257) -/

/-- The companion behind the range has been reset since the translation was taken (R258, R289). -/
def xlatLost (s : State) (x : Xlat) : Bool := x.board && (s.link x.link).epoch != x.epoch

/-- A link carries accesses: it is UP and not looped back (R272, R374). -/
def linkCarries (s : State) (l : Nat) : Bool := (s.link l).cond == .up && fld (s.tst.plLoop.findD l 0) 2 0 == 0

/-- The range cannot be reached now because its link is not UP (R287), or is looped back (R374). -/
def xlatHeld (s : State) (x : Xlat) : Bool := x.board && !linkCarries s x.link

/-- Count bytes moved across a Pomel link (R292, R363). -/
def boardBytes (s : State) (l inst : Nat) (tx : Bool) (n : Nat) : State :=
  let s := s.modLink l (fun k => if tx then { k with txBytes := wrap 64 (k.txBytes + n) }
                                 else { k with rxBytes := wrap 64 (k.rxBytes + n) })
  s.modMeter inst (fun m => { m with board := wrap 64 (m.board + n) })

/-- A request toward a companion stays until its CMP (R287). -/
def boardReq (s : State) (l addr n : Nat) (write : Bool) : State :=
  s.modLink l (fun k => { k with reqs := k.reqs ++ [⟨k.epoch, addr, n, write⟩] })

/-- Read `n` bytes at offset `o` of a held range. -/
def xlatRead (s : State) (x : Xlat) (o n : Nat) : State × Access × List Byte :=
  if xlatLost s x then (s, .failed St.targetUnavailable (lostDetail x.link x.epoch false), [])
  else if x.board then
    let s := boardReq (boardBytes s x.link x.inst false n) x.link (x.addr + o) n false
    (s.sent (.boardRead x.link (x.addr + o) n), .done, readBytes (s.board x.link) (x.addr + o) n)
  else hbmRead s (x.addr + o) n

/-- Write bytes at offset `o` of a held range. -/
def xlatWrite (s : State) (x : Xlat) (o : Nat) (bs : List Byte) : State × Access :=
  if xlatLost s x then (s, .failed St.targetUnavailable (lostDetail x.link x.epoch false))
  else if x.board then
    let s := boardReq (boardBytes s x.link x.inst true bs.length) x.link (x.addr + o) bs.length true
    let s := s.setBoard x.link (writeBytes (s.board x.link) (x.addr + o) bs)
    (s.sent (.boardWrite x.link (x.addr + o) bs), .done)
  else hbmWrite s (x.addr + o) bs

/-- `n` bytes without a defined value (log entry 6). -/
def freeBytes : Nat → State → List Byte × State
  | 0, s => ([], s)
  | n + 1, s =>
    let d := drawFree s
    let r := freeBytes n d.2
    (BitVec.ofNat 8 d.1.toNat :: r.1, r.2)

/-- `n` bytes of HBM are undefined. -/
def undefineHbm (s : State) (a n : Nat) : State :=
  let r := freeBytes n (backInvRange s a n)
  { r.2 with mem := writeBytes r.2.mem a r.1 }

/-- The bytes of a held range are undefined from an offset to its end. Memory behind a companion that was reset is left as
it is (R288). -/
def undefineFrom (s : State) (x : Xlat) (o : Nat) : State :=
  if xlatLost s x then s
  else if x.board then
    let r := freeBytes (x.len - o) s
    r.2.setBoard x.link (writeBytes (r.2.board x.link) (x.addr + o) r.1)
  else undefineHbm s (x.addr + o) (x.len - o)

/-- Two held ranges overlap in memory. -/
def sameMemory (a b : Xlat) : Bool :=
  a.board == b.board && (!a.board || a.link == b.link) && overlaps a.addr a.len b.addr b.len
    && decide (0 < a.len) && decide (0 < b.len)

/-- A translation is taken: the segment's uses rise (R257). -/
def holdXlat (s : State) (x : Xlat) : State :=
  s.modSeg x.inst x.seg (fun g => { g with uses := g.uses + 1 })

/-- A translation ends: a cleared segment becomes free with its last use (R257). -/
def dropXlat (s : State) (x : Xlat) : State :=
  s.modSeg x.inst x.seg (fun g =>
    if g.draining && g.uses ≤ 1 then { g with uses := 0, draining := false, lost := false }
    else { g with uses := g.uses - 1 })

/-! ### Resources of instances and plans -/

/-- Claims in force: the active plan's and, until the drain bound, the old plan's (R43). -/
def activeClaims (s : State) : List Claim :=
  match s.plans.active with
  | some p => p.claims
  | none => []

def nextClaims (s : State) : List Claim :=
  match s.plans.nextCond, s.plans.next with
  | .loaded, some p => p.claims
  | .armed, some p => p.claims
  | .missed, some p => p.claims
  | _, _ => []

/-- A list of claims covers number `n` of a kind. -/
def covers (cs : List Claim) (kind n : Nat) : Bool :=
  cs.any (fun c => c.kind == kind && within n 1 c.first c.count)

/-- A claim of a kind covering `n` with the given owner. -/
def claimFor (cs : List Claim) (kind owner n : Nat) : Option Claim :=
  cs.find? (fun c => c.kind == kind && c.owner == owner && within n 1 c.first c.count)

/-- The instance holds number `n` of a kind: from the pool, or by a claim of the active plan, or by
a claim of the plan just replaced that is not released yet (R43, R59). -/
def holds (s : State) (i kind n : Nat) : Bool :=
  covers (s.inst i).res kind n || (claimFor (activeClaims s) kind i n).isSome
    || (claimFor s.plans.oldClaims kind i n).isSome

/-- The links an instance may use (R299). -/
def mayUse (s : State) (i l : Nat) : Bool :=
  covers (s.inst i).res 0x0D l || (i == 0 && s.ctrl.mgrLinks.testBit l)

/-! ### Names of the parts -/

/-- The die of a port: PA for P00 to P07, PB for P08 to P15. -/
def dieOf (p : Nat) : Bool := decide (8 ≤ p)

/-- Change the counters of the die that carries port `p` (R155). -/
def State.modDie (s : State) (p : Nat) (f : DieCounts → DieCounts) : State :=
  if dieOf p then { s with tp := { s.tp with pb := f s.tp.pb } }
  else { s with tp := { s.tp with pa := f s.tp.pa } }

def State.die (s : State) (p : Nat) : DieCounts := if dieOf p then s.tp.pb else s.tp.pa

/-- The issue engine of a queue (R324). -/
def engineOf (q : Nat) : Nat := 64 + q % 32

/-- This device's node ID (R222). -/
def nodeId (s : State) : Nat := fld s.routing.node 17 0

/-- PLAN_ACTIVE_ID (R57). -/
def activeId (s : State) : Word := match s.plans.active with | some p => p.planId | none => 0

/-- The next slot is MISSED, or the device awaits a rejoin point after a warm reset (R52, R54). -/
def missedLike (s : State) : Bool := s.plans.nextCond == .missed || s.plans.resuming

/-- A port is in Ethernet mode. -/
def isEth (s : State) (p : Nat) : Bool := bit (s.port p).cfg 0

/-- The loopback depth of a port (R370). -/
def loopOf (s : State) (p : Nat) : Nat := let v := fld (s.tst.loop.findD p 0) 2 0; if v > 4 then 0 else v

/-! ### Energy (R312, R316) -/

/-- Correction factor of a domain (R313). -/
def kOf (s : State) (d : Nat) : Nat := s.pwr.kFactor.findD d 4096

/-- Energy of `n` bytes (or entries) in a domain, pJ (R312). -/
def domainPj (s : State) (d n : Nat) : Nat := n * Config.factoryPj d * kOf s d / 4096

/-- An operation's energy over its domains, rounded to nJ. -/
def energyNj (s : State) (parts : List (Nat × Nat)) : Nat :=
  (parts.foldl (fun a p => a + domainPj s p.1 p.2) 0) / 1000

/-- Level of a throttle unit: 0 PA, 1 PB, 2 HUB, 3 HBM, 4 PL (R318). -/
def levelOf (s : State) (u : Nat) : Nat := (s.pwr.units.findD u default).level

/-- Time, ns, that the die of a port takes over a frame of `n` bytes at a line rate: a die at level L runs at
(16 − L)/16 of its full rate (R318; log entry 124). -/
def pacedTime (s : State) (p n rate : Nat) : Nat := ceilDiv (n * 16) (rate * (16 - levelOf s (dieOf p).toNat))

/-- Note estimated energy for the averages of R311 and R313. -/
def noteEnergy (s : State) (parts : List (Nat × Nat)) : State :=
  s.modPwr (fun w => { w with
    estimated := parts.foldl (fun t p => t.modifyD p.1 0 (· + domainPj s p.1 p.2)) w.estimated,
    recent := (s.now, energyNj s parts) :: w.recent.filter (fun r => decide (s.now < r.1 + 10000000)) })

/-- Charge the shared pool for work that no queue starts (R316, R363). -/
def chargeShared (s : State) (parts : List (Nat × Nat)) : State :=
  let nj := energyNj s parts
  ((noteEnergy s parts).modPwr (fun w => { w with shared := w.shared - nj })).modMeter 0xFF
    (fun m => { m with energy := wrap 64 (m.energy + nj) })

end Sys2Proof.Machine
end

