-- ==== Sys2Proof/Machine/Flags.lean ====
section
/-! DEFINITION. Status effects, DETAIL words and the device's condition flags: which status is
terminal for a queue (R78), the status-specific DETAIL words of R68, the causes of R326 and the
levels of FAULT_N (R387) and THERMTRIP_N (R411). -/

namespace Sys2Proof.Machine

/-- A status found at issue that puts the queue into ERROR (R78); FLUSHED and FORMAT_FAULT spare it. -/
def terminalAtIssue (status : Nat) : Bool :=
  status == St.localBounds || status == St.malformed || status == St.ownerLost ||
  status == St.planMismatch || status == St.counterRange

/-- DETAIL of LOCAL_BOUNDS and REMOTE_ACCESS (R260, R261): word, reason, segment. -/
def boundsDetail (word reason seg : Nat) : BitVec 32 :=
  BitVec.ofNat 32 (word % 16 * 2 ^ 28 + reason % 16 * 2 ^ 24 + seg % 16)

/-- DETAIL of RETRY_EXHAUSTED (R134): k and BUSY. -/
def retryDetail (k : Nat) (busy : Bool) : BitVec 32 :=
  BitVec.ofNat 32 (k % 256 * 2 ^ 24 + busy.toNat * 2 ^ 16)

/-- DETAIL of a failed COLL_STEP (R188): level and member. -/
def stepDetail (level member : Nat) : BitVec 32 :=
  BitVec.ofNat 32 (level % 4 * 2 ^ 20 + member % 2 ^ 18)

/-- Statuses that end a step and put its slot into FAULT (R187). -/
def stepFault (status : Nat) : Bool :=
  status == St.retryExhausted || status == St.waitTimeout || status == St.formatFault ||
  status == St.memoryUncorrectable || status == St.targetUnavailable || status == St.flushed

/-- A LINK alternate triggered by port `p` is APPLIED (R326, bit 3). -/
def linkAltApplied (s : State) (p : Nat) : Bool :=
  match s.plans.active with
  | none => false
  | some pl => pl.alts.any (fun a => a.kind == 0 && a.trigger == p &&
      (match s.flt.alts.find a.alt with | some r => r.cond == .applied | none => false))

/-- The active plan has a schedule on a fabric-mode port that is DOWN (R326, bit 3). -/
def linkCause (s : State) : Bool :=
  match s.plans.active with
  | none => false
  | some pl => pl.scheds.any (fun d => !isEth s d.port && (s.port d.port).cond == .down
      && !linkAltApplied s d.port)

/-- FLT_STATUS.CAUSES (R326). -/
def causes (s : State) : BitVec 8 :=
  let b := fun (c : Bool) (i : Nat) => if c then 2 ^ i else 0
  BitVec.ofNat 8 (b (s.time.lock == .lost) 0 + b (missedLike s || s.plans.lateCause) 1
    + b (s.hbm.retirePending != 0) 2 + b (linkCause s) 3 + b s.pwr.emerg 4
    + b (!s.flt.restoring.cells.isEmpty) 5 + b s.flt.coreCause 6
    + b ((List.range 4).any (fun l => (s.link l).boardCause)) 7)

/-- Look at the causes: those that have set since the last look set in this tick (R322, DEGRADES). What a tick without
faults has set is forgotten once it is over. -/
def noteCauses (s : State) : State :=
  let c := causes s
  s.modFlt (fun f => { f with
    causesBefore := c
    rises := f.rises.filter (fun r => r.2 == s.now || f.raised.any (fun e => e.time == r.2))
      ++ ((List.range 8).filter (fun b => c.getLsbD b && !f.causesBefore.getLsbD b)).map (fun b => (b, s.now)) })

/-- The device state (R10, R339): a booted device is DEGRADED while a cause is set, and READY while
none is (R326). -/
def devState (s : State) : DevState :=
  match s.boot.phase with
  | .off => .off
  | .boot => .boot
  | .bootHalt => .bootHalt
  | .service => if causes s = 0 then .ready else .degraded

/-- The cause that belongs to a fault class (R322). -/
def causeOfClass (cls : Nat) (detail : BitVec 32) (status : Nat) : Option Nat :=
  if cls = 0x06 then some 0 else if cls = 0x09 then some 1
  else if cls = 0x03 && detail == 0xFFFFFFFF && status == 0 then some 2
  else if cls = 0x04 then some 3 else if cls = 0x07 then some 4 else if cls = 0x0C then some 6
  else if cls = 0x05 && status == 0 then some 7 else none

/-- FAULT_N is driven low (R387): in BOOT_HALT, while the boot waits for its flash (R341), with cause CORE set (R337), with
REFCLK_SYS lost (R399), and in OFF entered through R392 or R411. While PORST_N is
low it is high impedance (R386). -/
def faultNLow (s : State) : Bool :=
  !s.pins.porstLow && (s.boot.phase == .bootHalt || (s.boot.phase == .boot && s.boot.waitFlash != 0) || s.flt.coreCause || s.pins.refclkLost
    || (s.boot.phase == .off && s.pins.offByFault))

/-- THERMTRIP_N is low once the package has tripped (R411). -/
def thermTripN (s : State) : Bool := !s.pins.thermTrip

end Sys2Proof.Machine
end

