-- ==== Sys2Proof/Machine/FabricOps.lean ====
section
/-! DEFINITION. Shared operations of the fabric ports: sheets (R24 to R28), table lookup (R202 to
R206), partition keys (R210, R211), injection, arbitration (R208, R209), link-level acknowledgement
and replay (R196), and the fall of a link (R195). -/

namespace Sys2Proof.Machine

/-! ### Reams and sheets -/

/-- Length of a sheet, ns (R24). -/
def sheetLen (e : BitVec 32) : Nat := 1024 + 256 * (e.toNat / 2 ^ 24)

/-- KIND of a sheet entry (R24): 0 UNPLANNED, 1 CIRCUIT, 2 CLOSED. -/
def sheetKind (e : BitVec 32) : Nat := e.toNat / 2 ^ 22 % 4

/-- CIRCUIT of a sheet entry (R24). -/
def sheetCircuit (e : BitVec 32) : Nat := e.toNat % 65536

/-- Length of a ream, ns (R24). -/
def reamLen (es : List (BitVec 32)) : Nat := es.foldl (fun a e => a + sheetLen e) 0

/-- A sheet of a port's ream at some moment: ream number, index, entry, start and end. -/
structure SheetNow where
  ream : Nat
  index : Nat
  entry : BitVec 32
  start : Nat
  stop : Nat
  deriving DecidableEq, Repr, Inhabited

/-- The sheet of a ream that holds offset `o`, counting from index `i` and time `t`. -/
def findSheet (ream : Nat) : List (BitVec 32) → Nat → Nat → Nat → Option SheetNow
  | [], _, _, _ => none
  | e :: es, i, t, o =>
    if o < sheetLen e then some ⟨ream, i, e, t, t + sheetLen e⟩
    else findSheet ream es (i + 1) (t + sheetLen e) (o - sheetLen e)

/-- The sheet in force at time `t` under a schedule with origin `o`; before `o` there is none (R24). -/
def sheetAt (d : Sched) (o t : Nat) : Option SheetNow :=
  let l := reamLen d.sheets
  if t < o ∨ l = 0 then none
  else let n := (t - o) / l
    findSheet n d.sheets 0 (o + n * l) ((t - o) % l)

/-- The schedule of a port in the active plan (R40). -/
def schedOf (s : State) (p : Nat) : Option Sched :=
  match s.plans.active with
  | some pl => pl.scheds.find? (fun d => d.port == p)
  | none => none

/-- The sheet of port `p` at time `t`. -/
def portSheet (s : State) (p t : Nat) : Option SheetNow :=
  match schedOf s p with
  | some d => sheetAt d s.plans.activeF t
  | none => none

/-- Guard of port `p`, ns; 0 without a schedule. -/
def guardOf (s : State) (p : Nat) : Nat :=
  match schedOf s p with
  | some d => d.guard
  | none => 0

/-- A sheet kind admits a VC (R25). -/
def admits (sh : Option SheetNow) (vc circuit : Nat) : Bool :=
  match sh with
  | none => decide (vc ≤ 6)
  | some x =>
    if sheetKind x.entry = 0 then decide (vc ≤ 6)
    else if sheetKind x.entry = 1 then vc == 0 || (vc == 7 && circuit == sheetCircuit x.entry)
    else vc == 0

/-- What a port may start now: a device that does not know the time, or has missed a front, starts
packets on VC0 only (R32, R52, R54). -/
def mayStart (s : State) (p vc circuit : Nat) : Bool :=
  if s.time.lock == .lost || missedLike s then vc == 0
  else admits (portSheet s p s.now) vc circuit

/-- Line rate of a fabric port, bytes per ns (R190). -/
def fabRate : Nat := 100

/-- End of a sheet: the last sheet of a plan ends at the front that follows it (R50). -/
def sheetEnd (s : State) (x : SheetNow) : Nat :=
  if s.plans.nextCond == .armed ∧ s.now < s.plans.front then min x.stop s.plans.front else x.stop

/-- A frame of `n` bytes clears the guard of the current sheet (R26, R50). -/
def fitsSheet (s : State) (p n : Nat) : Bool :=
  match portSheet s p s.now with
  | none => true
  | some x => decide (s.now * fabRate + n ≤ (sheetEnd s x - guardOf s p) * fabRate) && decide (guardOf s p ≤ sheetEnd s x)

/-! ### Sizes -/

def bodyLen : ZtpBody → Nat
  | .none => 0
  | .data b => b.length
  | .sync _ => 24
  | .conn _ => 64

/-- A ZTP type that carries an AETH (R123). -/
def hasAeth (t : Byte) : Bool := t == 0x11 || t == 0x12 || t == 0x14

/-- Bytes of a ZTP packet (R121). -/
def ztpLen (p : ZtpPacket) : Nat :=
  32 + (if p.sealedBit then 24 else 0) + (if (p.typ == 0x01 && p.first) || p.typ == 0x02 then 16 else 0)
    + (if p.typ == 0x01 && p.last then 8 else 0) + (if hasAeth p.typ then 16 else 0) + bodyLen p.body + 4

/-- Bytes of a CSP packet (R181). -/
def cspLen (p : CspPacket) : Nat := 32 + p.payload.length + 4

/-- Bytes of a fabric frame on the link (R190). -/
def frameLen (f : FabFrame) : Nat := 28 + f.len.toNat

/-- Credits a frame needs, in 64-byte units (R198). -/
def frameCredits (f : FabFrame) : Nat := ceilDiv (16 + f.len.toNat) 64

/-- Credits of a VC's whole buffer (R198). -/
def fullCredits (vc : Nat) : Nat := if vc = 0 then 1024 else if vc ≤ 6 then 3712 else 0

/-- Bytes queued for a VC at an egress port. -/
def queueBytes (k : Port) (vc : Nat) : Nat :=
  (k.queues.findD vc []).foldl (fun a q => a + frameLen q.frame) 0

/-! ### Banks and tables -/

/-- Routing bank 0 or 1. -/
def bankOf (r : Routing) (b : Bool) : Bank := if b then r.bank1 else r.bank0

/-- Change a routing bank. -/
def State.modBank (s : State) (b : Bool) (f : Bank → Bank) : State :=
  s.modRouting (fun r => if b then { r with bank1 := f r.bank1 } else { r with bank0 := f r.bank0 })

/-- The bank the device injects under, if any (R217). -/
def injectBank (s : State) : Option Bool :=
  if s.routing.bank0.cond == .inject then some false
  else if s.routing.bank1.cond == .inject then some true else none

/-- A table set of a bank. -/
def routeSet (s : State) (b : Bool) (set : Nat) : RouteSet :=
  (bankOf s.routing b).sets.findD set ⟨Tbl.empty, Tbl.empty, Tbl.empty⟩

/-- Key `k` is a member at set `set` of a bank (R210). -/
def keyMember (s : State) (b : Bool) (set k : Nat) : Bool :=
  ((routeSet s b set).keys.findD (k / 64) 0).getLsbD (k % 64)

/-- The table entry that routes to a node (R202). -/
def routeEntry (s : State) (b : Bool) (set dst : Nat) : BitVec 32 :=
  let r := routeSet s b set
  if dst / 512 ≠ nodeId s / 512 then r.group.findD (dst / 512 % 512) 0 else r.member.findD (dst % 512) 0

/-- The choices of an entry in order: choice number, port, dateline bit (R201, R202). -/
def choicesOf (e : BitVec 32) : List (Nat × Nat × Bool) :=
  [(0, e.toNat / 2 ^ 16 % 16, e.getLsbD 10)]
    ++ (if e.getLsbD 8 then [(1, e.toNat / 2 ^ 20 % 16, e.getLsbD 11)] else [])
    ++ (if e.getLsbD 9 then [(2, e.toNat / 2 ^ 24 % 16, e.getLsbD 12)] else [])

/-- A port is in fabric mode and UP; a port in loopback counts as not UP (R371). -/
def fabUp (s : State) (p : Nat) : Bool := !isEth s p && (s.port p).cond == .up && loopOf s p == 0

/-- Port `p` is at a near depth of loopback, enabled, so that what it sends comes back in (R370, R371). -/
def nearLoop (s : State) (p : Nat) : Bool := (loopOf s p == 1 || loopOf s p == 2) && bit (s.port p).cfg 1

/-- The port's own logic neither sends nor receives: a far loopback, or lanes that carry a pattern (R371,
R372). -/
def portMute (s : State) (p : Nat) : Bool :=
  decide (3 ≤ loopOf s p) || (fld (s.tst.loop.findD p 0) 5 4 != 0 && fld (s.tst.loop.findD p 0) 11 8 != 0)

/-- The looped port that frames to this node leave through, where TST_XPORT asks for one (R373). -/
def xportOf (s : State) : Option Nat := if bit s.tst.xport 4 then some (fld s.tst.xport 3 0) else none

/-- next_vc of R206. -/
def nextVc (v : Nat) (dl : Bool) : Option Nat :=
  if v = 0 then some 0 else if !dl then some v else if v % 2 = 1 then some (v + 1) else none

/-- Why a frame is dropped at lookup (R202). -/
inductive DropWhy where
  | bank | hop | pkey | noRoute | dateline
  deriving DecidableEq, Repr, Inhabited

/-- What the lookup of R202 decides. -/
inductive Lookup where
  | drop (why : DropWhy)
  | here
  | out (port choice vc : Nat)
  deriving DecidableEq, Repr, Inhabited

/-- The lookup of R202 for a frame in set `set` (16: injected by this device). -/
def lookupFrame (s : State) (f : FabFrame) (set : Nat) : Lookup :=
  if (bankOf s.routing f.bank).cond == .retired then .drop .bank
  else if f.dst.toNat = nodeId s then
    match (if set = 16 then xportOf s else none) with
    | none => .here
    | some p => if nearLoop s p && !isEth s p then .out p 0 f.vc.toNat else .drop .noRoute
  else if set ≠ 16 ∧ f.hops = 0 then .drop .hop
  else if set ≠ 16 ∧ keyMember s f.bank set f.pkey.toNat = false then .drop .pkey
  else
    let e := routeEntry s f.bank set f.dst.toNat
    if !e.getLsbD 31 then .drop .noRoute
    else match (choicesOf e).find? (fun c => c.2.1 != set && fabUp s c.2.1) with
      | none => .drop .noRoute
      | some c => match nextVc f.vc.toNat c.2.2 with
        | none => .drop .dateline
        | some v => .out c.2.1 c.1 v

/-- Count a drop at the arrival port, or at P00 for a frame of set 16 (R202). -/
def countDrop (s : State) (set : Nat) (why : DropWhy) : State :=
  s.modCnt (if set = 16 then 0 else set) (fun c =>
    match why with
    | .bank => { c with bankDrop := wrap 16 (c.bankDrop + 1) }
    | .hop => { c with hopDrop := wrap 16 (c.hopDrop + 1) }
    | .pkey => { c with pkeyDrop := wrap 16 (c.pkeyDrop + 1) }
    | .noRoute => { c with noRoute := wrap 16 (c.noRoute + 1) }
    | .dateline => { c with datelineDrop := wrap 16 (c.datelineDrop + 1) })

/-- A queued frame is held for a later sheet: this one does not admit its VC, or has no room for it left (R26,
R27). -/
def heldOver (s : State) (p : Nat) (q : Queued) : Bool :=
  !(mayStart s p q.frame.vc.toNat q.circuit && fitsSheet s p (frameLen q.frame))

/-- Count one sheet wait for each queued frame of a port that is held and was not before (R26, R27). -/
def noteWaits (s : State) (p : Nat) : State :=
  s.modPort p (fun k => { k with
    queues := k.queues.mapCells (fun _ qs => qs.map (fun q => { q with waited := q.waited || heldOver s p q }))
    cnt := { k.cnt with sheetWaits := wrap 64 (k.cnt.sheetWaits
      + (k.queues.vals.flatten.filter (fun q => !q.waited && heldOver s p q)).length) } })

/-- Queue a frame at an egress port, counting a sheet wait where its sheet does not allow it (R26, R27). -/
def enqueue (s : State) (p : Nat) (q : Queued) : State :=
  let held := heldOver s p q
  s.modPort p (fun k =>
    let k := { k with queues := k.queues.modifyD q.frame.vc.toNat [] (· ++ [{ q with waited := held }]) }
    { k with cnt := { k.cnt with
        sheetWaits := if held then wrap 64 (k.cnt.sheetWaits + 1) else k.cnt.sheetWaits
        peak := k.cnt.peak.put q.frame.vc.toNat
          (max (k.cnt.peak.findD q.frame.vc.toNat 0) (queueBytes k q.frame.vc.toNat)) } })

/-! ### Link control and time frames -/

/-- A link control frame of this device to the neighbour of a port (R194). -/
def ctlFrame (s : State) (p : Nat) (m : LinkCtl) : FabFrame :=
  { (default : FabFrame) with
    kind := 0xF, len := 16, src := BitVec.ofNat 32 (nodeId s), dst := BitVec.ofNat 32 (s.port p).nbrNode
    body := .ctl m, lcrcOk := true }

/-- A PTP message of `n` bytes to the neighbour of a port (R17, R192). -/
def ptpFrame (s : State) (p n : Nat) (m : PtpMsg) : FabFrame :=
  { ctlFrame s p (.ack 0) with kind := 3, len := BitVec.ofNat 16 n, body := .ptp m }

/-- A frame of this device on VC0 of a port: queued while the link is UP, for credit and a sheet (R25, R198,
R199); sent at once while it trains. -/
def sendVc0 (s : State) (p : Nat) (f : FabFrame) : State :=
  if (s.port p).cond == .up then enqueue s p ⟨f, 16, 0, s.now, 0, false⟩
  else (s.modCnt p (fun c => { c with txBytes := wrap 64 (c.txBytes + frameLen f) })).sent (.frame p f)

/-- Send a link control frame (R194). -/
def sendCtl (s : State) (p : Nat) (m : LinkCtl) : State := sendVc0 s p (ctlFrame s p m)

/-- A version 1 port returns what it owes for a VC in a CREDIT frame, at most every 100 ns (R194). -/
def sendCredit (p : Nat) (s : State) (vc : Nat) : State :=
  let k := s.port p
  let n := k.owed.findD vc 0
  let soon := match k.creditAt.find vc with | some t => decide (s.now < t + 100) | none => false
  if k.cond != .up || k.ver ≠ 1 || n = 0 || soon then s
  else sendCtl (s.modPort p (fun k => { k with owed := k.owed.put vc 0, creditAt := k.creditAt.put vc s.now })) p
    (.credit (BitVec.ofNat 3 vc) (BitVec.ofNat 16 n))

/-- The receiver returns the credits of a frame that leaves its buffer (R198): carried in the link
word of the next frame at version 2, in a CREDIT frame at version 1. -/
def freeBuffer (s : State) (arr vc n : Nat) : State :=
  if arr ≥ 16 ∨ vc = 7 then s
  else sendCredit arr (s.modPort arr (fun k => { k with owed := k.owed.modifyD vc 0 (· + n) })) vc

/-- How the payload of a frame reaches the transport or the sequencer of this device. -/
def deliver (s : State) (arr : Option Nat) (f : FabFrame) : State :=
  { s with inbox := s.inbox ++
      [{ arr := { port := arr.map (BitVec.ofNat 4), src := BitVec.ofNat 18 f.src.toNat, srcIp := 0,
                  bank := f.bank, ce := f.ce }
         body := f.body, prio := 0, bytes := 0, sub := 0 }] }

/-- handle(f, s) of R202. -/
def handleFrame (s : State) (f : FabFrame) (set : Nat) : State :=
  match lookupFrame s f set with
  | .drop why => freeBuffer (countDrop s set why) set f.vc.toNat (frameCredits f)
  | .here => freeBuffer (deliver s (if set = 16 then none else some set) f) set f.vc.toNat (frameCredits f)
  | .out p i v =>
    let g := { f with
      alt := f.alt || decide (i > 0)
      hops := if set ≠ 16 then f.hops - 1 else f.hops
      vc := BitVec.ofNat 3 v }
    let s := if i > 0 then s.modCnt p (fun c => { c with altTaken := wrap 32 (c.altTaken + 1) }) else s
    enqueue s p { frame := g, arr := set, arrVc := f.vc.toNat, since := s.now, circuit := 0, waited := false }

/-- HOPS at injection; 0 is taken as 1 (R222). -/
def hopLimit (s : State) : Nat := max 1 (fld s.routing.cfg 7 0)

/-- A frame of this device around a payload (R192, R202). -/
def ownFrame (s : State) (bank : Bool) (dst kind vc len : Nat) (pkey : BitVec 16) (body : FrameBody) : FabFrame :=
  { (default : FabFrame) with
    kind := BitVec.ofNat 4 kind, vc := BitVec.ofNat 3 vc, bank := bank,
    hops := BitVec.ofNat 8 (hopLimit s), dst := BitVec.ofNat 32 (dst % 2 ^ 18),
    src := BitVec.ofNat 32 (nodeId s), pkey := pkey, len := BitVec.ofNat 16 len, body := body, lcrcOk := true }

/-- Inject a routed frame (R202): with no injection bank it meets a RETIRED bank (log entry 11). -/
def inject (s : State) (dst kind vc len : Nat) (pkey : BitVec 16) (body : FrameBody) : State :=
  match injectBank s with
  | none => countDrop s 16 .bank
  | some b => handleFrame s (ownFrame s b dst kind vc len pkey body) 16

/-- Place a frame for an out circuit in the queue of its port (R153, R182). -/
def injectCircuit (s : State) (p circuit dst kind len : Nat) (pkey : BitVec 16) (body : FrameBody) : State :=
  enqueue s p { frame := ownFrame s ((injectBank s).getD false) dst kind 7 len pkey body,
                arr := 16, arrVc := 7, since := s.now, circuit := circuit, waited := false }

/-- The neighbour of a port runs the same plan, so circuits may be used (R212): its last HELLO named
the active plan, or the previous one within the drain bound. -/
def planMatch (s : State) (p : Nat) : Bool :=
  match (s.port p).nbrPlan with
  | none => false
  | some n => n == activeId s || (s.plans.drainAt.isSome && n == s.plans.oldId)

/-- VC7 frames may pass on a port: version 2 and a matching plan (R212). -/
def circuitsOn (s : State) (p : Nat) : Bool := (s.port p).ver == 2 && planMatch s p

/-! ### Arbitration -/

/-- A frame of KIND 0x1 or 0x2 is replayed (R196). -/
def replayed (f : FabFrame) : Bool := f.kind == 1 || f.kind == 2

/-- Bytes in a port's replay buffer of 256 KiB (R196). -/
def replayBytes (k : Port) : Nat := k.replay.foldl (fun a q => a + frameLen q.frame) 0

/-- The port's sheet lets a frame start now, and its bits leave before the guard (R25, R26, R32); VC7 frames need
the neighbour on the same plan (R212). -/
def sheetLets (s : State) (p : Nat) (q : Queued) : Bool :=
  !heldOver s p q && (q.frame.vc != 7 || circuitsOn s p)

/-- The replay buffer can keep a frame, and none waits in it to be sent again before (R196). -/
def replayLets (k : Port) (f : FabFrame) : Bool :=
  !replayed f || (k.again.isEmpty && decide (replayBytes k + frameLen f ≤ 262144))

/-- A queued frame may start now on port `p` (R208 step 1). -/
def eligible (s : State) (p : Nat) (q : Queued) : Bool :=
  let v := q.frame.vc.toNat
  sheetLets s p q && replayLets (s.port p) q.frame
    && (v == 7 || decide (frameCredits q.frame ≤ (s.port p).credits.findD v 0))

/-- The heads of a VC, one for each arrival port in arrival order, in round robin after `last`. -/
def headsOf (qs : List Queued) (last : Nat) : List Queued :=
  (rangeFrom (last + 1) 17).filterMap (fun a => qs.find? (fun q => q.arr == a % 17))

/-- The frames of a VC that the sheet admits: on VC7 those of the sheet's circuit (R25, R208, R214). -/
def admitted (s : State) (p v : Nat) : List Queued :=
  let qs := (s.port p).queues.findD v []
  if v = 7 then qs.filter (fun q => mayStart s p 7 q.circuit) else qs

/-- The frame VC `v` would start (R208 step 5). -/
def pickOnVc (s : State) (p v : Nat) : Option Queued :=
  (headsOf (admitted s p v) ((s.port p).rr.findD v 16)).find? (eligible s p)

/-- The VCs of the deficit round robin, in turn order (R208 step 4). -/
def drrVcs : List Nat := [1, 2, 5, 6]

/-- Quantum of a VC (R208); a weight of 0 is taken as 1. -/
def quantum (s : State) (v : Nat) : Nat :=
  4096 * max 1 (if v ≤ 2 then fld s.routing.cfg 47 40 else fld s.routing.cfg 39 32)

/-- Deficit round robin over VC1, VC2, VC5 and VC6. `turn` is the place in the order, with 4 added
once the VC at that place has been given its quantum. -/
def drrPick (s : State) (p : Nat) : Nat → Nat → Tbl Int → Option (Queued × Nat × Tbl Int)
  | 0, _, _ => none
  | n + 1, turn, d =>
    let v := drrVcs.getD (turn % 4) 1
    let next := (turn % 4 + 1) % 4
    if ((s.port p).queues.findD v []).isEmpty then drrPick s p n next (d.put v 0)
    else match pickOnVc s p v with
      | none => drrPick s p n next d
      | some q =>
        let have_ : Int := if turn < 4 then d.findD v 0 + quantum s v else d.findD v 0
        if (frameLen q.frame : Int) ≤ have_ then some (q, turn % 4 + 4, d.put v (have_ - frameLen q.frame))
        else drrPick s p n next (d.put v have_)

/-- The next frame a port starts, with its new round-robin places (R208). -/
def pickFrame (s : State) (p : Nat) : Option (Queued × Nat × Tbl Int) :=
  let k := s.port p
  match pickOnVc s p 0 with
  | some q => some (q, k.turn, k.deficit)
  | none => match pickOnVc s p 7 with
    | some q => some (q, k.turn, k.deficit)
    | none => match pickOnVc s p 3 with
      | some q => some (q, k.turn, k.deficit)
      | none => match pickOnVc s p 4 with
        | some q => some (q, k.turn, k.deficit)
        | none => drrPick s p 16 k.turn k.deficit

/-- Remove the first queued frame equal to `q`. -/
def dropQueued (q : Queued) : List Queued → List Queued
  | [] => []
  | x :: xs => if x = q then xs else x :: dropQueued q xs

/-- Credits of the first VC for which a port owes its neighbour some, at version 2 (R191, R198): of several the
lowest (DESIGN CHOICE, log entry 107). -/
def owedFirst (k : Port) : Option (Nat × Nat) :=
  if k.ver = 2 then k.owed.cells.find? (fun c => decide (c.2 > 0)) else none

/-- The link word of a frame that leaves a port (R191): at version 2 what was received in order, and
credits returned. -/
def linkWord (k : Port) (f : FabFrame) : FabFrame :=
  { f with
    lack := if k.ver = 2 then BitVec.ofNat 16 (dmod 16 k.rxSeq 1) else 0
    crValid := (owedFirst k).isSome
    crVc := BitVec.ofNat 3 ((owedFirst k).getD (0, 0)).1
    crAmt := BitVec.ofNat 16 ((owedFirst k).getD (0, 0)).2 }

/-- The credits that a link word has returned are owed no more. -/
def payOwed (k : Port) : Port :=
  match owedFirst k with
  | some c => { k with owed := k.owed.put c.1 0 }
  | none => k

/-- The meter set of a frame sent on a port (R363): the instance whose QP or collective stream it is of, or
the device set where it is another device's. -/
def frameMeter (s : State) (f : FabFrame) : Option Nat :=
  if f.src.toNat ≠ nodeId s then some 0xFF
  else match f.body with
    | .ztp p => let o := (s.qp p.srcQp.toNat).ident.owner
                if o < 128 then some o else none
    | .csp p => s.coll.slots.vals.findSome? (fun x => match x.desc with
        | some d => if d.collId = p.collId.toNat then some d.owner else none
        | none => none)
    | _ => none

/-- Count the bytes of a frame sent on a port, headers and replays included (R363). -/
def meterFrame (s : State) (f : FabFrame) : State :=
  match frameMeter s f with
  | some i => s.modMeter i (fun m => { m with netTx := wrap 64 (m.netTx + frameLen f) })
  | none => s

/-- The payload of a fabric frame as it leaves. -/
def stampBody (s : State) (p since : Nat) : FrameBody → FrameBody
  | .ptp m => .ptp (stampPtp s p since m)
  | b => b

/-- What a frame's leaving sets off in the time unit. -/
def bodyLeft (s : State) (p : Nat) (b : FrameBody) : State :=
  match b with
  | .ptp m => ptpLeft s p m
  | _ => s

/-- Start a chosen frame: CE marking (R209), the link word (R191), the replay buffer, credits and
counts. -/
def startFrame (s : State) (p : Nat) (q : Queued) (turn : Nat) (d : Tbl Int) : State :=
  let k := s.port p
  let v := q.frame.vc.toNat
  let mark := decide (1 ≤ v ∧ v ≤ 6) && decide (queueBytes k v > max 1 (fld s.routing.cfg 63 48) * 4096)
  let f := linkWord k { q.frame with
    body := stampBody s p q.since q.frame.body
    ce := q.frame.ce || mark
    lseq := if replayed q.frame then BitVec.ofNat 16 k.txSeq else 0 }
  let s := s.modPort p (fun k => { payOwed k with
    queues := k.queues.modifyD v [] (dropQueued q)
    credits := if v = 7 then k.credits else k.credits.modifyD v 0 (· - frameCredits f)
    txSeq := if replayed f then wrap 16 (k.txSeq + 1) else k.txSeq
    replay := if replayed f then k.replay ++ [{ q with frame := f }] else k.replay
    progressAt := if replayed f && k.replay.isEmpty then s.now else k.progressAt
    rr := k.rr.put v q.arr
    turn := turn
    deficit := d
    busyUntil := s.now + pacedTime s p (frameLen f) fabRate })
  let s := s.modCnt p (fun c => { c with
    txBytes := wrap 64 (c.txBytes + frameLen f)
    ceMarked := if mark && !q.frame.ce then wrap 32 (c.ceMarked + 1) else c.ceMarked })
  let s := freeBuffer (bodyLeft s p f.body) q.arr q.arrVc (frameCredits f)
  (meterFrame (chargeShared s (if q.arr < 16 then [(1, frameLen f)] else [])) f).sent (.frame p f)

/-! ### Link acknowledgement, replay and conditions -/

/-- The neighbour has received every frame up to `l` in order (R196). -/
def ackFrames (s : State) (p : Nat) (l : Nat) : State :=
  s.modPort p (fun k =>
    let still := fun (q : Queued) => decide (dmod 16 l q.frame.lseq.toNat ≥ 32768)
    let rest := k.replay.filter still
    if rest.length < k.replay.length
    then { k with replay := rest, again := k.again.filter still, progressAt := s.now, fruitless := 0, ackedSeq := l }
    else k)

/-- Credits returned by the neighbour (R198). -/
def addCredits (s : State) (p vc n : Nat) : State :=
  if vc ≤ 6 then s.modPort p (fun k => { k with
    credits := k.credits.modifyD vc 0 (fun c => min (fullCredits vc) (c + n)) }) else s

/-- Replay from frame `l` on, or from the oldest unacknowledged frame (R196): the frames start again one by one,
in order, each when the sheet of its time lets it (R25, R26, R32). -/
def replayFrom (s : State) (p : Nat) (l : Option Nat) : State :=
  s.modPort p (fun k => { k with
    again := match l with
      | some n => k.replay.filter (fun q => decide (dmod 16 q.frame.lseq.toNat n < 32768))
      | none => k.replay
    progressAt := s.now, fruitless := k.fruitless + 1, cnt := { k.cnt with replays := wrap 16 (k.cnt.replays + 1) } })

/-- The next frame of a replay that may start now. -/
def pickAgain (s : State) (p : Nat) : Option Queued :=
  match (s.port p).again with
  | q :: _ => if sheetLets s p q then some q else none
  | [] => none

/-- Start a frame of a replay: its link word says what has been received by now; the credits it returns are those
of its first copy, which the neighbour has not taken (R191, R196, R198). -/
def startAgain (s : State) (p : Nat) (q : Queued) : State :=
  let f := { q.frame with lack := (linkWord (s.port p) q.frame).lack }
  let s := s.modPort p (fun k => { k with
    again := k.again.tail, progressAt := s.now, busyUntil := s.now + pacedTime s p (frameLen f) fabRate
    cnt := { k.cnt with txBytes := wrap 64 (k.cnt.txBytes + frameLen f) } })
  (meterFrame s f).sent (.frame p f)

/-- The head frame of VC `v` at a port is stalled: admitted by its sheet but short of credit; on VC7, short of a
sheet (FAB_STALL of R222). -/
def stalled (s : State) (p v : Nat) : Bool :=
  match (s.port p).queues.findD v [] with
  | [] => false
  | q :: _ => if v = 7 then heldOver s p q
    else !heldOver s p q && decide (frameCredits q.frame > (s.port p).credits.findD v 0)

/-- Count the stalls of a port up to now, at 1.2 GHz (R222; log entry 108). -/
def noteStalls (s : State) (p : Nat) : State :=
  forEach (List.range 8) s (fun s v => s.modPort p (fun k => { k with
    stallAt := if k.cond == .up && stalled s p v then k.stallAt.put v s.now else k.stallAt.erase v
    cnt := match k.stallAt.find v with
      | some t => { k.cnt with stall := k.cnt.stall.modifyD v 0 (fun n => n + (s.now - t) * 12) }
      | none => k.cnt }))

/-- Enter RETRAIN (R195): credits and the replay buffer are held. -/
def fabRetrain (s : State) (p : Nat) : State :=
  s.modPort p (fun k => { k with
    cond := .retrain, since := s.now, aligned := false, again := [], fruitless := 0, helloCount := 0, helloFrom := none,
    cnt := { k.cnt with retrains := wrap 8 (k.cnt.retrains + 1) } })

/-- What a port that goes DOWN loses (R195, R197): the replay buffer, and its queues where buffers
are discarded. -/
def fabDown (s : State) (p : Nat) (discardQueues : Bool) : State :=
  let freed := if discardQueues then (s.port p).queues.vals.flatten else []
  let s := s.modPort p (fun k => { k with
    cond := .down, since := s.now, replay := [], again := [], fruitless := 0, nakSent := false, aligned := false,
    helloCount := 0, helloFrom := none, ver := 0, lostNbr := k.nbrNode, nbrPlan := none,
    owed := Tbl.empty, credits := Tbl.empty,
    queues := if discardQueues then Tbl.empty else k.queues })
  forEach freed s (fun s q => freeBuffer s q.arr q.arrVc (frameCredits q.frame))

/-- A fabric-mode link going DOWN is logged (R195, R323). -/
def fabLinkFault (s : State) (p : Nat) : State :=
  raiseFault s 0x04 0x00 p 0xFF p (BitVec.ofNat 32 ((s.port p).nbrNode % 2 ^ 18))

/-- Version a fabric port offers (R222): values but 1 and 2 are taken as 2. -/
def fabVerMax (s : State) (p : Nat) : Nat := let v := fld (s.port p).cfg 5 4; if v = 1 then 1 else 2

/-- This device's HELLO on a port (R194). -/
def helloOf (s : State) (p : Nat) : LinkCtl :=
  .hello (BitVec.ofNat 8 (fabVerMax s p)) (BitVec.ofNat 4 p) (activeId s)

/-- Start PCS and FEC and send HELLO (R195). -/
def startTraining (s : State) (p : Nat) : State :=
  let s := s.modPort p (fun k => { k with
    cond := .training, since := s.now, helloCount := 0, helloFrom := none, lastHello := s.now, aligned := true })
  sendCtl s p (helloOf s p)

/-- A fabric port may train (R193). -/
def fabMayTrain (s : State) (p : Nat) : Bool :=
  bit (s.port p).cfg 1 && !isEth s p && bit s.routing.node 18

/-- Injection moves to bank `b`: the bank that had it drains (R217). -/
def moveInjection (s : State) (b : Bool) : State :=
  let s := s.modBank b (fun k => { k with cond := .inject })
  s.modBank (!b) (fun k => if k.cond == .inject then { k with cond := .drain, drainFrom := s.now } else k)

/-- DRAIN_BOUND of the active plan, 100,000 ns with no plan (R217). -/
def bankDrain (s : State) : Nat := match s.plans.active with | some p => p.drainBound | none => 100000

end Sys2Proof.Machine
end

