-- ==== Sys2Proof/Machine/Operands.lean ====
section
/-! DEFINITION. Operand forms: the fields of a ZTI entry (R81 to R94), local ranges and translations
(R255, R257, R260), sync objects (R97 to R99), the parts and formats of a collective's ranges (R159,
R167, R176), and the issue checks of R76. -/

namespace Sys2Proof.Machine

/-! ### Words of an entry -/

def Entry.op (e : Entry) : Nat := fld e.w0 7 0
def Entry.sigLocal (e : Entry) : Bool := bit e.w0 36
def Entry.hasDeadline (e : Entry) : Bool := bit e.w0 37
def Entry.ordered (e : Entry) : Bool := bit e.w0 38
def Entry.batchEnd (e : Entry) : Bool := bit e.w0 39
def Entry.phase (e : Entry) : Nat := fld e.w0 47 47
def Entry.seqTag (e : Entry) : Nat := fld e.w0 63 48
def Entry.lcnt (e : Entry) : Nat := fld e.w6 52 32
def Entry.ladd (e : Entry) : Nat := fld e.w6 31 0
def Entry.len (e : Entry) : Nat := fld e.w3 31 0
def Entry.rkey (e : Entry) : Nat := fld e.w3 63 32
def Entry.qp (e : Entry) : Nat := fld e.w4 19 0
def Entry.id (e : Entry) : Nat := fld e.w3 20 0
def Entry.isRemote (e : Entry) : Bool := bit e.w4 20
def Entry.step (e : Entry) : Nat := fld e.w3 63 32
def Entry.half (e : Entry) : Nat := fld e.w4 9 8
def Entry.slot (e : Entry) : Nat := fld e.w4 5 0
def Entry.region (e : Entry) : Nat := fld e.w4 15 0
def Entry.port (e : Entry) : Nat := fld e.w4 3 0

/-- The entry held by 64 bytes (R81). -/
def entryOf (b : List Byte) : Entry :=
  let w := fun i => BitVec.ofNat 64 (leAt b (8 * i) 8)
  ⟨w 0, w 1, w 2, w 3, w 4, w 5, w 6, w 7⟩

/-- ZTI level at which an opcode appears (R83). -/
def opLevel (op : Nat) : Option Nat :=
  if op = 0x00 ∨ op = 0x01 ∨ op = 0x02 ∨ op = 0x03 ∨ op = 0x10 ∨ op = 0x11 ∨ op = 0x12 ∨ op = 0x13 ∨
     op = 0x18 ∨ op = 0x19 ∨ op = 0x1A then some 1
  else if op = 0x14 ∨ op = 0x20 ∨ op = 0x21 ∨ op = 0x22 then some 2 else none

/-- The entries that hold the head until they complete (R71). -/
def holdsHead (op : Nat) : Bool := op == 0x11 || op == 0x13 || op == 0x14 || op == 0x18 || op == 0x19

/-- A sync instruction: SIGNAL, WAIT_COUNTER, SEM_ADD, SEM_WAIT. -/
def isSyncOp (op : Nat) : Bool := op == 0x10 || op == 0x11 || op == 0x12 || op == 0x13

/-- The entry is one message on a QP (R119). -/
def usesQp (e : Entry) : Bool := e.op == 0x01 || e.op == 0x02 || (isSyncOp e.op && e.isRemote)

/-- Bits `hi:lo` of a word are zero. -/
def zeros (w : Word) (hi lo : Nat) : Bool := fld w hi lo == 0

/-- Issue step 4: reserved bits and words zero, flags allowed, values in range (R81 to R94). -/
def wellEncoded (e : Entry) : Bool :=
  let op := e.op
  let common := zeros e.w0 46 40 && zeros e.w0 35 8
    && (if e.sigLocal then zeros e.w6 63 53 else e.w6 == 0)
    && (if e.hasDeadline then op == 0x11 || op == 0x13 || op == 0x14 else e.w7 == 0)
  let own :=
    if op = 0x00 ∨ op = 0x18 then
      e.w1 == 0 && e.w2 == 0 && e.w3 == 0 && e.w4 == 0 && e.w5 == 0
    else if op = 0x01 then
      zeros e.w4 63 42 && zeros e.w5 63 32 && (bit e.w4 41 || (zeros e.w4 40 20 && e.w5 == 0))
    else if op = 0x02 then zeros e.w4 63 20 && e.w5 == 0
    else if op = 0x03 then zeros e.w3 63 32 && e.w4 == 0 && e.w5 == 0
    else if isSyncOp op then
      e.w1 == 0 && e.w2 == 0 && zeros e.w3 63 21 && zeros e.w4 63 21
        && (e.isRemote || zeros e.w4 19 0)
        && (if op = 0x10 then decide (e.w5.toNat ≤ 2 ^ 62) else op == 0x11 || zeros e.w5 63 32)
    else if op = 0x14 then
      e.w1 == 0 && e.w2 == 0 && e.w4 == 0 && zeros e.w3 63 19 && zeros e.w5 63 32
    else if op = 0x19 then e.w1 == 0 && e.w2 == 0 && e.w3 == 0 && zeros e.w4 63 1
    else if op = 0x1A then
      e.w2 == 0 && e.w3 == 0 && zeros e.w4 63 18 && zeros e.w4 15 11 && (bit e.w4 17 || bit e.w4 16)
        && (bit e.w4 16 || e.w1 == 0) && (bit e.w4 17 || zeros e.w4 10 0)
    else if op = 0x20 then
      zeros e.w4 63 10 && zeros e.w4 7 6 && e.half != 3 && e.len != 0 && e.w5 == 0
    else if op = 0x21 then
      e.w1 == 0 && e.w2 == 0 && e.w3 == 0 && e.w5 == 0 && zeros e.w4 63 16
    else
      let lso := bit e.w4 8
      let hdr := fld e.w4 23 16
      let mss := fld e.w5 15 0
      e.w2 == 0 && zeros e.w3 63 32 && zeros e.w4 63 24 && zeros e.w4 15 9 && zeros e.w4 7 4
        && zeros e.w5 63 16
        && (if lso then decide (14 ≤ hdr ∧ hdr ≤ 254 ∧ 1 ≤ mss ∧ hdr < e.len ∧ e.len ≤ 262144 ∧ hdr + mss ≤ 9212)
            else decide (60 ≤ e.len ∧ e.len ≤ 9212 ∧ hdr = 0 ∧ mss = 0))
  common && own

/-! ### Local ranges -/

/-- Permission a local range needs (R76 step 7). -/
inductive Perm where
  | rd | wr
  deriving DecidableEq, Repr, Inhabited

/-- A range `[o, o + len)` of a segment: the translation, or REASON and SEG of R260.  The check
against 2^60 comes before the one against the segment's end, which it would otherwise hide
(log entry 12). -/
def localRange (s : State) (inst : Nat) (addr : Word) (len : Nat) (p : Perm) : Except (Nat × Nat) Xlat :=
  let n := fld addr 63 60
  let o := fld addr 59 0
  let g := s.seg inst n
  if !g.valid || g.lost then .error (1, n)
  else if !(match p with | .rd => g.lr | .wr => g.lw) then .error (2, n)
  else if o + len > 2 ^ 60 then .error (4, n)
  else if o + len > g.len * gran then .error (3, n)
  else .ok ⟨inst, n, g.board, g.link, g.base + o, len, (s.link g.link).epoch⟩

/-! ### Sync objects -/

/-- The instance that owns a granule (R98, R99). -/
def granOwner (s : State) (g : Nat) : Option Nat :=
  match s.insts.cells.find? (fun c => covers c.2.res 0x04 g) with
  | some c => some c.1
  | none => match (activeClaims s ++ s.plans.oldClaims).find? (fun c => c.kind == 0x04 && within g 1 c.first c.count) with
    | some c => if c.owner = 0xFF then none else some c.owner
    | none => none

/-- The share of a granule in force now: one written in this tick counts from the next (R118). -/
def shareOf (s : State) (g : Nat) : BitVec 128 :=
  match (s.granule g).shareNext with
  | some (v, t) => if t < s.now then v else (s.granule g).share
  | none => (s.granule g).share

/-- The instance owns the granule, which is not orphaned and, if reclaimed, has an owner again (R115). -/
def ownsGran (s : State) (i g : Nat) : Bool :=
  granOwner s g == some i && !(s.granule g).orphan && !(s.granule g).unnamed

/-- The owner shares the granule with the instance (R99); the owner's own bit is ignored. -/
def sharedGran (s : State) (i g : Nat) : Bool :=
  !(s.granule g).orphan && !(s.granule g).unnamed && (granOwner s g).isSome && granOwner s g != some i && (shareOf s g).getLsbD i

/-- The instance may name the granule (R118). -/
def mayName (s : State) (i g : Nat) : Bool := ownsGran s i g || sharedGran s i g

/-- Granule and index of an object ID (R97). -/
def granOf (id : Nat) : Nat := id / 16384
def idxOf (id : Nat) : Nat := id % 16384

/-- An index is valid in a mode (R97). -/
def idxOk (sem : Bool) (id : Nat) : Bool := sem || decide (idxOf id < 8192)

/-- An instance names an object of the mode wanted validly (R99). -/
def namesObject (s : State) (i : Nat) (sem : Bool) (id : Nat) : Bool :=
  mayName s i (granOf id) && (s.granule (granOf id)).semMode == sem && idxOk sem id

/-- Step 7 for a sync object: an orphaned granule has only its index checked (R99). -/
def objectFails7 (s : State) (i : Nat) (sem : Bool) (id : Nat) : Bool :=
  if (s.granule (granOf id)).orphan then !idxOk (s.granule (granOf id)).semMode id
  else !namesObject s i sem id

/-- The value of an object. -/
def objVal (s : State) (id : Nat) : Nat := s.sync.values.findD id 0

/-- A counter of value `c` has reached `e` (R104). -/
def counterReached (c e : Nat) : Bool := decide (dmod 64 c e < 2 ^ 63)

/-- An expected value too far ahead (R104). -/
def counterRangeBad (c e : Nat) : Bool := let a := dmod 64 e c; decide (2 ^ 62 < a ∧ a ≤ 2 ^ 63)

/-! ### Collective ranges -/

/-- An MX format (R159). -/
def isMx (f : Nat) : Bool := decide (0x10 ≤ f ∧ f ≤ 0x15)

/-- Bytes per element, or per block of 32 for an MX format (R159). -/
def fmtSize (f : Nat) : Nat :=
  if f = 0x01 ∨ f = 0x22 then 4 else if f = 0x02 ∨ f = 0x03 ∨ f = 0x21 then 2
  else if f = 0x10 ∨ f = 0x11 ∨ f = 0x15 then 33 else if f = 0x12 ∨ f = 0x13 then 25
  else if f = 0x14 then 17 else 1

/-- Bytes of `n` elements in a format. -/
def fmtBytes (f n : Nat) : Nat := if isMx f then ceilDiv n 32 * fmtSize f else n * fmtSize f

/-- GRAN of a descriptor (R167). -/
def granD (d : Descriptor) : Nat :=
  if isMx d.inFmt || isMx d.outFmt || isMx d.wire1 || isMx d.wire2 then 32 else 1

/-- Part `k` of `n` of the range from `a` of `len` elements (R167): first element and length. -/
def partOf (gr a len k n : Nat) : Nat × Nat :=
  let b := len / gr
  (a + gr * (k * b / n), gr * ((k + 1) * b / n) - gr * (k * b / n))

/-- The owned chunk of a member under the ring algorithm (R171). -/
def ringChunk (d : Descriptor) (elems : Nat) : Nat × Nat :=
  let p := partOf (granD d) 0 elems (d.self % d.n1) d.n1
  partOf (granD d) p.1 p.2 (d.self / d.n1) d.n2

/-- The descriptor of a slot in the active plan. -/
def slotDesc (s : State) (n : Nat) : Option Descriptor :=
  match (s.slot n).desc with
  | some d => some d
  | none => none

/-- The couch entry of a SOURCE region in the active plan with an owner. -/
def couchSource (s : State) (inst r : Nat) : Option CouchEnt :=
  match s.plans.active with
  | none => none
  | some p => p.couch.find? (fun c => c.region == r && c.role == 0 && c.owner == inst)

/-- ZTI address of level-0 input `i` of a step: SRC for input 0, SRC's offset in segment L0_SEG[i]
otherwise (R176). -/
def inputAddr (d : Descriptor) (src : Word) (i : Nat) : Word :=
  if i = 0 then src else BitVec.ofNat 64 (d.l0Seg / 16 ^ (i - 1) % 16 * 2 ^ 60 + fld src 59 0)

/-- The local ranges of an entry in word order: word, address, length, permission (R260, R176). -/
def entryRanges (s : State) (e : Entry) : List (Nat × Word × Nat × Perm) :=
  let op := e.op
  if op = 0x01 then [(1, e.w1, e.len, .rd)]
  else if op = 0x02 then [(1, e.w1, e.len, .wr)]
  else if op = 0x03 then [(1, e.w1, e.len, .rd), (2, e.w2, e.len, .wr)]
  else if op = 0x1A then (if bit e.w4 16 then [(1, e.w1, 8, .wr)] else [])
  else if op = 0x22 then [(1, e.w1, e.len, .rd)]
  else if op = 0x20 then
    match slotDesc s e.slot with
    | none => []
    | some d =>
      let chunk := (ringChunk d e.len).2
      if e.half = 2 then [(1, e.w1, fmtBytes d.outFmt chunk, .rd), (2, e.w2, fmtBytes d.outFmt e.len, .wr)]
      else (rangeFrom 1 (d.inputs - 1)).map (fun i => (0, inputAddr d e.w1 i, fmtBytes d.inFmt e.len, Perm.rd))
        ++ [(1, e.w1, fmtBytes d.inFmt e.len, .rd),
            (2, e.w2, fmtBytes d.outFmt (if e.half = 1 then chunk else e.len), .wr)]
  else []

/-- The local sync objects of an entry: word, semaphore wanted, ID. -/
def entryObjects (e : Entry) : List (Nat × Bool × Nat) :=
  (if isSyncOp e.op && !e.isRemote then [(3, e.op == 0x12 || e.op == 0x13, e.id)] else [])
    ++ (if e.sigLocal then [(6, false, e.lcnt)] else [])

/-- A HOST_SIGNAL address must be 8-byte aligned in a board segment (R91, R260 reason 5). -/
def hostSignalFit (e : Entry) (x : Xlat) : Bool := x.board && decide (fld e.w1 59 0 % 8 = 0)

/-- The translations of an entry's ranges, or the DETAIL of the first that fails. -/
def takeRanges (s : State) (inst : Nat) (e : Entry) : List (Nat × Word × Nat × Perm) → Except (BitVec 32) (List Xlat)
  | [] => .ok []
  | (w, a, n, p) :: rest =>
    match localRange s inst a n p with
    | .error r => .error (boundsDetail w r.1 r.2)
    | .ok x =>
      if e.op = 0x1A && !hostSignalFit e x then .error (boundsDetail w 5 (fld a 63 60))
      else match takeRanges s inst e rest with
        | .error d => .error d
        | .ok xs => .ok (x :: xs)

/-- What the issue checks decide. -/
inductive IssueOut where
  | pass (xlats : List Xlat)
  | fail (status : Nat) (detail : BitVec 32)
  deriving DecidableEq, Repr, Inhabited

/-- CPL_SEQ: the least sequence number whose entry has not completed (R88). -/
def cplSeq (w : WorkQueue) : Nat := match w.started with | x :: _ => x.seq | [] => w.fetch

/-- CPL_SEQ of a queue; 0 for a queue not created (log entry 13). -/
def cplOf (s : State) (q : Nat) : Nat := match s.queues.find q with | some w => cplSeq w | none => 0

/-- DETAIL of a COLL_STEP that fails for a cause of this member's own (R68, R188): level 0, SELF. -/
def selfDetail (s : State) (n : Nat) : BitVec 32 := stepDetail 0 (match slotDesc s n with | some d => d.self | none => 0)

/-- DETAIL of an entry that fails: that of its status, or for a COLL_STEP the layout of R188 whatever the status (R68). -/
def entryDetail (s : State) (e : Entry) (d : BitVec 32) : BitVec 32 := if e.op = 0x20 then selfDetail s e.slot else d

/-- The issue checks of R76 from step 2, for the entry at FETCH of queue `q`. -/
def issueChecks (s : State) (w : WorkQueue) (e : Entry) : IssueOut :=
  let i := w.inst
  if e.seqTag ≠ w.fetch % 65536 then .fail St.malformed 0
  else if (match opLevel e.op with | none => true | some l => decide (w.level < l)) || (e.op == 0x22 && !w.raw)
    then .fail St.malformed 0
  else if !wellEncoded e || (e.op == 0x22 && !isEth s e.port) then .fail St.malformed 0
  else if (usesQp e && !holds s i 0x03 e.qp) || (e.op == 0x14 && !holds s i 0x01 (fld e.w3 18 0))
      || (e.op == 0x1A && bit e.w4 17 && !holds s i 0x0C (fld e.w4 10 0))
      || (e.op == 0x20 && !holds s i 0x08 e.slot) || (e.op == 0x22 && !holds s i 0x0E e.port)
    then .fail St.malformed 0
  else if (e.op == 0x20 && (match slotDesc s e.slot with | some d => d.owner != i | none => true))
      || (e.op == 0x21 && (couchSource s i e.region).isNone)
    then .fail St.planMismatch 0
  else match takeRanges s i e (entryRanges s e) with
    | .error d => .fail St.localBounds d
    | .ok xs =>
      match (entryObjects e).find? (fun o => objectFails7 s i o.2.1 o.2.2) with
      | some o => .fail St.localBounds (boundsDetail o.1 6 0)
      | none =>
        if (entryObjects e).any (fun o => (s.granule (granOf o.2.2)).orphan) then .fail St.ownerLost 0
        else if usesQp e && (s.qp e.qp).st != .opened then .fail St.flushed 0
        else if (e.op == 0x11 && !e.isRemote && counterRangeBad (objVal s e.id) e.w5.toNat)
            || (e.op == 0x14 && (let a := dmod 32 (fld e.w5 31 0) (cplOf s (fld e.w3 18 0))
                                 decide (2 ^ 30 < a ∧ a ≤ 2 ^ 31)))
          then .fail St.counterRange 0
        else if e.op == 0x20 then
          match slotDesc s e.slot with
          | some d => if e.len > d.maxElems ∨ e.len % granD d ≠ 0 then .fail St.formatFault (stepDetail 0 d.self)
                      else .pass xs
          | none => .pass xs
        else .pass xs

/-! ### Circuits of QPs -/

/-- The circuit a QP is bound to by the active plan: port and circuit (R153, R332). -/
def qpCircuit (s : State) (q : Nat) : Option (Nat × Nat) :=
  if (s.qp q).unbound then none
  else match s.plans.active with
    | none => none
    | some p => match p.circuits.find? (fun c => c.txKind == 1 && c.txArg % 2 ^ 20 == q) with
      | some c => some (c.port, c.circuit)
      | none => none

/-- The circuit entry of the active plan on a port. -/
def circuitEnt (s : State) (p c : Nat) : Option Circuit :=
  match s.plans.active with
  | none => none
  | some pl => pl.circuits.find? (fun x => x.port == p && x.circuit == c)

end Sys2Proof.Machine
end

