-- ==== Sys2Proof/Machine/QueueOps.lean ====
section
/-! DEFINITION. Shared operations of the queue engine: ending entries, halting a queue (R79, R80),
completion groups (R66 to R69, R416), the issue of the head (R64, R76, R77, R415), energy accounts
(R316) and queue waits (R88). -/

namespace Sys2Proof.Machine

/-! ### Rings -/

/-- Free slots of a ring (R66). -/
def ringFree (r : Ring) : Nat := 2 ^ r.depthLog - dmod 32 r.rp r.ci

/-- The segment of an instance that holds a queue's or ring's array, as a range of `len` bytes. -/
def arrayAt (s : State) (inst : Nat) (base : Word) (off len : Nat) : Xlat :=
  let n := fld base 63 60
  let g := s.seg inst n
  ⟨inst, n, g.board, g.link, g.base + fld base 59 0 + off, len, (s.link g.link).epoch⟩

/-- The memory of a ring can be written now: it survives, and its link is UP if it lies on the board. -/
def ringReady (s : State) (r : Ring) : Bool :=
  let x := arrayAt s r.inst r.base 0 32
  !r.lost && !xlatHeld s x

/-- The four words of a completion entry (R68). -/
def completionBytes (q : Nat) (r : Ring) (error : Bool) (status op count wqSeq : Nat) (result : Word)
    (failSeq : Nat) (detail : BitVec 32) : List Byte :=
  let phase := 1 - r.wp / 2 ^ r.depthLog % 2
  leBytes 8 (phase * 2 ^ 63 + error.toNat * 2 ^ 62 + status % 256 * 2 ^ 48 + op % 256 * 2 ^ 40 + q % 2 ^ 19)
    ++ leBytes 8 (sat 32 count * 2 ^ 32 + wqSeq % 2 ^ 32)
    ++ leBytes 8 result.toNat
    ++ leBytes 8 (failSeq % 2 ^ 32 * 2 ^ 32 + detail.toNat)

/-- Write one completion entry to the slot WP mod D of ring `n` and serve its arming (R68, R70, R282). -/
def writeCompletion (s : State) (n : Nat) (mk : Ring → List Byte) : State :=
  match s.rings.find n with
  | none => s
  | some r =>
    if r.lost then s else
    let x := arrayAt s r.inst r.base (r.wp % 2 ^ r.depthLog * 32) 32
    let s := (xlatWrite s x 0 (mk r)).1
    let s := s.modRing n (fun r => { r with wp := wrap 32 (r.wp + 1), armed := false })
    if r.armed && r.vecEn then fireVector s r.vector else s

/-! ### Groups -/

/-- Count a completed, flushed or halted entry in its group (R68, R69): the first in queue order
that did not end OK, and the last. -/
def countIn (g : Group) (c : Counted) (closes : Bool) : Group :=
  { g with
    count := g.count + 1
    firstBad := if c.ending.status = St.ok then g.firstBad else
      match g.firstBad with
      | some b => if before 32 c.seq b.seq then some c else some b
      | none => some c
    lastEnd := match g.lastEnd with
      | some l => if before 32 l.seq c.seq then some c else some l
      | none => some c
    closeEnd := if closes then some c else g.closeEnd }

/-- Change the group with number `gid`. -/
def modGroup (w : WorkQueue) (gid : Nat) (f : Group → Group) : WorkQueue :=
  { w with groups := w.groups.map (fun g => if g.gid = gid then f g else g) }

/-- The open group of a queue (R66). -/
def openGroup (w : WorkQueue) : Option Group := w.groups.find? (fun g => g.closedBy.isNone)

/-- The head still has to reserve the ring slot of the group it opens (R66). -/
def needsSlot (w : WorkQueue) (h : Issued) : Bool := (openGroup w).isNone && h.slotAt.isNone

/-- The highest-numbered queue above `q` whose head has reserved a slot of the ring in this tick and has not started. -/
def slotVictim (s : State) (q ring : Nat) : Option Nat :=
  (s.queues.keys.filter (fun n => decide (q < n) && (match s.queues.find n with
    | some w => w.ring == ring && (match w.head with
      | some h => (match h.slotAt with | some t => decide (tickStart s.now ≤ t) | none => false)
      | none => false)
    | none => false))).max?

/-- Queue `q` asks for a slot of its ring (R66): it gets a free one, or one that a higher-numbered queue has reserved in
this tick for an entry that has not started, and that queue waits again. -/
def reserveSlot (s : State) (q : Nat) : Option State :=
  match s.queues.find q with
  | none => none
  | some w =>
    let mark := fun (s : State) (n : Nat) (t : Option Nat) =>
      s.modQueue n (fun w => { w with head := w.head.map (fun h => { h with slotAt := t }) })
    match s.rings.find w.ring with
    | none => none
    | some r =>
      if 0 < ringFree r then some ((mark s q (some s.now)).modRing w.ring (fun r => { r with rp := wrap 32 (r.rp + 1) }))
      else (slotVictim s q w.ring).map (fun v => mark ((mark s v none).modQueue v (fun w => { w with
        st := .waiting, reason := .ringFull })) q (some s.now))

/-- Put the entry `seq` at the head into the open group, or into a new one that has the ring slot reserved for it (R66).
The answer is the group's number. -/
def joinGroup (s : State) (q seq : Nat) (closes : Bool) : State × Nat :=
  match s.queues.find q with
  | none => (s, 0)
  | some w =>
    match openGroup w with
    | some g => (s.modQueue q (fun w => modGroup w g.gid (fun g =>
        { g with closedBy := if closes then some seq else none })), g.gid)
    | none =>
      let g : Group := ⟨w.nextGid, true, 0, if closes then some seq else none, none, none, none, none⟩
      (s.modQueue q (fun w => { w with groups := w.groups ++ [g], nextGid := w.nextGid + 1 }), w.nextGid)

/-- The completion of a group that is finished, if it is: error flag, status, opcode, the entry
named, RESULT, FAIL_SEQ and DETAIL (R68, R69, R416). `calm` says that the queue starts nothing more
under calm, so that an open group with counted entries is finished too. -/
def groupDone (w : WorkQueue) (g : Group) (calm : Bool) : Option (Bool × Nat × Nat × Nat × Word × Nat × BitVec 32) :=
  if w.started.any (fun x => x.gid == g.gid) then none
  else match g.halt with
  | some h => some (true, h.ending.status, h.opcode, h.seq, 0, h.seq, h.ending.detail)
  | none =>
    let close := match g.closedBy, g.closeEnd with
      | some _, some c => some c
      | _, _ => if calm then g.lastEnd else none
    match close with
    | none => none
    | some c =>
      let res := if c.ending.status = St.ok then c.ending.result else 0
      match g.firstBad with
      | none => some (false, St.ok, c.opcode, c.seq, res, 0, 0)
      | some b => some (false, b.ending.status, c.opcode, c.seq, res, b.seq, b.ending.detail)

/-- An instance starts no further entry: it is CALMING or beyond (R301). -/
def instCalming (s : State) (i : Nat) : Bool := (s.inst i).st != .active

/-- Write the completions of finished groups in group order (R67), reserving a slot for a group that
holds none (R416).  A ring that did not survive receives none. -/
def flushGroups (q : Nat) : Nat → State → State
  | 0, s => s
  | n + 1, s =>
    match s.queues.find q with
    | none => s
    | some w => match w.groups with
      | [] => s
      | g :: _ => match groupDone w g (instCalming s w.inst) with
        | none => s
        | some (err, status, op, seq, res, fail, detail) =>
          match s.rings.find w.ring with
          | none => s
          | some r =>
            let drop := fun (s : State) => s.modQueue q (fun w => { w with groups := w.groups.tail })
            if r.lost then flushGroups q n (drop s)
            else if !ringReady s r then s
            else if !g.hasSlot && ringFree r = 0 then s
            else
              let s := if g.hasSlot then s else s.modRing w.ring (fun r => { r with rp := wrap 32 (r.rp + 1) })
              flushGroups q n (drop (writeCompletion s w.ring (fun r =>
                completionBytes q r err status op g.count seq res fail detail)))

/-- Write what completions of queue `q` are finished. -/
def flushQueue (s : State) (q : Nat) : State :=
  match s.queues.find q with | some w => flushGroups q (w.groups.length + 1) s | none => s

/-! ### Ends of entries -/

/-- A started entry of a queue. -/
def startedAt (s : State) (q seq : Nat) : Option Started :=
  match s.queues.find q with | some w => w.started.find? (fun x => x.seq == seq) | none => none

/-- Change a started entry. -/
def State.modStarted (s : State) (q seq : Nat) (f : Started → Started) : State :=
  s.modQueue q (fun w => { w with started := w.started.map (fun x => if x.seq = seq then f x else x) })

/-- The entry is the one that holds the head of its queue (R71). -/
def holding (w : WorkQueue) (seq : Nat) : Bool := w.fetch == seq

/-- An entry has ended; ENTRY_COMPLETE completes it. A wait leaves the lists it stood in, its lull
ends, and the queue is RUNNING again (R95, R106, R117). -/
def endEntry (s : State) (q seq status : Nat) (result : Word) (detail : BitVec 32) : State :=
  match startedAt s q seq with
  | none => s
  | some x =>
    if x.ending.isSome then s else
    let s := s.modStarted q seq (fun x => { x with
      ran := true
      ending := some ⟨status, if status = St.ok then result else 0, if status = St.ok then 0 else detail⟩ })
    let s := s.modSync (fun m => { m with waits := m.waits.filter (fun w => w.who != .queue q seq) })
    s.modQueue q (fun w => if holding w seq
      then { w with st := if w.st == .waiting then .running else w.st, reason := .none, waitSince := none, lull := false }
      else w)

/-- WAIT_QUEUE entries that name queue `q` and are running: queue and sequence number. -/
def queueWaiters (s : State) (q : Nat) : List (Nat × Started) :=
  s.queues.cells.flatMap (fun c => (c.2.started.filter (fun x =>
    x.entry.op == 0x14 && x.ran && x.ending.isNone && fld x.entry.w3 18 0 == q)).map (fun x => (c.1, x)))

/-- A queue wait on `q` is satisfied (R88). -/
def queueWaitMet (s : State) (x : Started) : Bool :=
  decide (dmod 32 (cplOf s (fld x.entry.w3 18 0)) (fld x.entry.w5 31 0) < 2 ^ 31)

/-- The named queue can no longer satisfy a wait (R88). -/
def queueStopped (s : State) (q : Nat) : Bool :=
  match s.queues.find q with | some w => w.st == .error || w.st == .calm | none => false

/-- Evaluate the queue waits that name `q` (R88). -/
def serveQueueWaits (s : State) (q : Nat) : State :=
  forEach (queueWaiters s q) s (fun s c =>
    if queueWaitMet s c.2 then endEntry s c.1 c.2.seq St.ok (BitVec.ofNat 64 (cplOf s q)) 0
    else if queueStopped s q then endEntry s c.1 c.2.seq St.flushed 0 0
    else s)

/-- Drop every translation an issued or started entry holds (R257). -/
def dropXlats (s : State) (xs : List Xlat) : State := forEach xs s dropXlat

/-- A queue enters ERROR at entry `seq` (R79, R80, R95, R416): HALT_IDX and HALT_STATUS, the fault
log, QE_ERR and its vector, and the group whose completion carries ERROR = 1.  `counted` says that
the halted entry had started and ends here, and so counts in its group; a wait at FETCH that has started when the queue's
memory is lost runs to its end (R79, R416). -/
def haltQueue (s : State) (q seq status op : Nat) (detail : BitVec 32) (counted : Bool) : State :=
  match s.queues.find q with
  | none => s
  | some w =>
    if w.st == .error || w.st == .calm then s else
    let s := match w.head with | some h => dropXlats s h.xlats | none => s
    let c : Counted := ⟨seq, op, ⟨status, 0, detail⟩⟩
    let mark := fun (g : Group) => { g with halt := some c, count := g.count + counted.toNat }
    let held := match w.head with | some h => h.slotAt.isSome | none => false
    let s := s.modQueue q (fun w =>
      let w := { w with st := .error, reason := .none, haltIdx := seq, haltStatus := status, head := none,
                        waitSince := none, lull := false }
      match (w.started.find? (fun x => x.seq == seq)).map (·.gid), openGroup w with
      | some gid, _ => { modGroup w gid mark with
          started := w.started.filter (fun x => !counted || x.seq != seq) }
      | none, some g => modGroup w g.gid mark
      | none, none => { w with groups := w.groups ++ [mark ⟨w.nextGid, held, 0, some seq, none, none, none, none⟩],
                               nextGid := w.nextGid + 1 })
    let s := s.modSync (fun m => { m with waits := m.waits.filter (fun x => !counted || x.who != .queue q seq) })
    let s := raiseFault s 0x01 status (engineOf q) w.inst q (BitVec.ofNat 32 seq)
    let rise := !(s.inst w.inst).win.errPending
    let s := s.modWin w.inst (fun v => { v with errors := wrap 32 (v.errors + 1), errPending := true })
    let s := flushQueue s q
    let vec := (s.inst w.inst).win.errVec
    let s := if rise && bit vec 11 then fireVector s (fld vec 10 0) else s
    serveQueueWaits s q

/-- A started entry ends with a terminal status (R78): its queue enters ERROR at it. -/
def haltStarted (s : State) (q seq status : Nat) (detail : BitVec 32) : State :=
  match startedAt s q seq with
  | none => s
  | some x => haltQueue (dropXlats s x.xlats) q seq status x.entry.op detail true

/-! ### Energy accounts (R316) -/

/-- The ENERGY entry of a kind and target in the active plan: its index (R314). -/
def bucketOf (s : State) (kind target : Nat) : Option Nat :=
  match s.plans.active with
  | none => none
  | some p => p.energy.findIdx? (fun e => e.kind == kind && e.target == target)

/-- The account of an entry of instance `i` (R316). -/
def accountOf (s : State) (i : Nat) (e : Entry) : Option Nat :=
  if e.op = 0x20 then bucketOf s 2 e.slot
  else if e.op = 0x21 then bucketOf s 3 e.region
  else match (if usesQp e then qpCircuit s e.qp else none) with
    | some c => bucketOf s 4 c.1
    | none => bucketOf s 1 i

/-- Domain of the memory a translation names: HBM or Pomel (R312). -/
def memDomain (x : Xlat) : Nat := if x.board then 2 else 0

/-- The energy estimate of an entry at its start, as bytes by domain (R312, R316; log entry 14). -/
def startParts (s : State) (i : Nat) (e : Entry) (xs : List Xlat) : List (Nat × Nat) :=
  let mem := xs.map (fun x => (memDomain x, x.len))
  (4, 1) :: (
    if e.op = 0x01 ∨ e.op = 0x22 then (1, e.len) :: mem
    else if e.op = 0x02 ∨ e.op = 0x03 ∨ e.op = 0x1A then mem
    else if e.op = 0x21 then
      match couchSource s i e.region with
      | some c => [(0, 2 * (c.length * gran)), (1, c.length * gran)]
      | none => []
    else [])

/-- An account has credit while its balance is 0 or more; an absent bucket has none of its own. -/
def hasCredit (s : State) (acct : Option Nat) : Bool :=
  match acct with | some b => decide (0 ≤ s.pwr.balance.findD b 0) | none => false

/-- A head can start against its own bucket or the shared pool (R316). -/
def mayCharge (s : State) (acct : Option Nat) : Bool := hasCredit s acct || decide (0 ≤ s.pwr.shared)

/-- Charge an entry at its start, and the instance's energy counts (R316, R321, R363). -/
def chargeStart (s : State) (i : Nat) (acct : Option Nat) (parts : List (Nat × Nat)) : State :=
  let nj := energyNj s parts
  let s := (noteEnergy s parts).modPwr (fun w =>
    match acct with
    | some b => if hasCredit s acct then { w with balance := w.balance.modifyD b 0 (· - (nj : Int)) }
                else { w with shared := w.shared - nj }
    | none => { w with shared := w.shared - nj })
  (s.modWin i (fun v => { v with energy := wrap 64 (v.energy + nj) })).modMeter i
    (fun m => { m with energy := wrap 64 (m.energy + nj) })

/-! ### The head -/

/-- Some started entry of any queue is a COLL_STEP of the slot that has not run yet. -/
def slotClaimed (s : State) (n : Nat) : Bool :=
  s.queues.vals.any (fun w => w.started.any (fun x => x.entry.op == 0x20 && !x.ran && x.entry.slot == n))

/-- Some started COUCH_COPY of the region has not ended. -/
def regionBusy (s : State) (r : Nat) : Bool :=
  s.queues.vals.any (fun w => w.started.any (fun x => x.entry.op == 0x21 && x.ending.isNone && x.entry.region == r))

/-- The array or the ring of a queue lies behind a link that is not UP (R287). -/
def queueHeld (s : State) (w : WorkQueue) : Bool :=
  xlatHeld s (arrayAt s w.inst w.base 0 64)
    || (match s.rings.find w.ring with | some r => xlatHeld s (arrayAt s r.inst r.base 0 32) | none => false)

/-- Landing space reserved for the READs in progress (R85). -/
def landingUsed (s : State) : Nat :=
  s.queues.vals.foldl (fun a w =>
    w.started.foldl (fun a x => if x.entry.op = 0x02 ∧ x.ending.isNone then a + x.entry.len else a) a) 0

/-- The transport cannot reserve landing space for a READ now (R77, R85); a READ alone always has it (log entry 15). -/
def landingShort (s : State) (e : Entry) : Bool :=
  e.op == 0x02 && landingUsed s != 0 && decide (Config.landingBytes < landingUsed s + e.len)

/-- Why the head of a queue cannot start now (R77, R287), if anything prevents it. -/
def blockedBy (s : State) (w : WorkQueue) (h : Issued) : Option Reason :=
  let e := h.entry
  if queueHeld s w then some .link
  else if needsSlot w h then some .ringFull
  else if (e.ordered || e.op == 0x18) && !w.started.isEmpty then some .ordered
  else if w.started.length ≥ 256 then some .inflight
  else if e.op == 0x20 && ((s.slot e.slot).cond == .running || slotClaimed s e.slot) then some .slotBusy
  else if e.op == 0x21 && regionBusy s e.region then some .slotBusy
  else if landingShort s e then some .landing
  else if !mayCharge s (accountOf s w.inst e) then some .energy
  else none

/-- A queue waits with a reason (R95, R96); a head that begins to wait for energy is counted (R321). -/
def waitFor (s : State) (q : Nat) (r : Reason) : State :=
  match s.queues.find q with
  | none => s
  | some w =>
    let s := if r == .energy && w.reason != .energy
      then s.modPwr (fun p => { p with energyWaits := wrap 32 (p.energyWaits + 1) }) else s
    s.modQueue q (fun w => { w with st := .waiting, reason := r })

/-- Watch the line of an entry not yet written (R64, R278): board memory needs a watch. -/
def watchLine (s : State) (q : Nat) (x : Xlat) : State :=
  if !x.board then s
  else if (s.link x.link).watches.length < 16384 && !(s.link x.link).watches.any (fun c => c.2 == q)
  then (s.modLink x.link (fun k => { k with watches := k.watches ++ [(x.addr / 64, q)] })).sent (.boardShr x.link (x.addr / 64))
  else s

/-- A queue's watches are released. -/
def unwatch (s : State) (q : Nat) : State :=
  forEach [0, 1, 2, 3] s (fun s l => if (s.link l).watches.any (fun c => c.2 == q)
    then s.modLink l (fun k => { k with watches := k.watches.filter (fun c => c.2 != q) }) else s)

/-- The array slot of the entry at FETCH. -/
def headSlot (s : State) (w : WorkQueue) : Xlat :=
  arrayAt s w.inst w.base (w.fetch % 2 ^ w.depthLog * 64) 64

/-- Read the entry at FETCH and run the checks of R76 on it, then go on to the next where it ends at
issue (R415).  `n` bounds how many entries may end so. -/
def issueHead (q : Nat) : Nat → State → State
  | 0, s => s
  | n + 1, s =>
    match s.queues.find q with
    | none => s
    | some w =>
      if w.st == .error || w.st == .calm || instCalming s w.inst then s
      else match w.head with
      | some h =>
        if needsSlot w h && (h.bad.isSome || !queueHeld s w) then
          match reserveSlot s q with
          | some s => issueHead q n s
          | none => waitFor s q .ringFull
        else match h.bad with
        | none => match blockedBy s w h with
          | some r => waitFor s q r
          | none => s.modQueue q (fun w => { w with st := .running, reason := .none })
        | some e =>
            let (s, gid) := joinGroup s q w.fetch h.entry.batchEnd
            let s := s.modQueue q (fun w =>
              let w := modGroup w gid (fun g => countIn g ⟨w.fetch, h.entry.op, e⟩ h.entry.batchEnd)
              { w with head := none, fetch := wrap 32 (w.fetch + 1), st := .running, reason := .none })
            issueHead q n (serveQueueWaits (flushQueue s q) q)
      | none =>
        if w.started.any (fun x => x.seq == w.fetch) then s
        else if w.fetch = w.pi then
          s.modQueue q (fun w => { w with st := if w.started.isEmpty then .idle else .running, reason := .none })
        else
          let x := headSlot s w
          if queueHeld s w then waitFor s q .link
          else match xlatRead s x 0 64 with
            | (s, .failed _ _, _) =>
              haltQueue s q w.fetch St.memoryUncorrectable 0
                (ueDetail (stackOf s.hbm x.addr) false 0) false
            | (s, .done, b) =>
              let e := entryOf b
              if e.phase ≠ 1 - w.fetch / 2 ^ w.depthLog % 2 then
                let s := if w.earlyCounted then s
                  else s.modWin w.inst (fun v => { v with early := wrap 32 (v.early + 1) })
                let s := s.modQueue q (fun w => { w with earlyCounted := true })
                watchLine (waitFor s q .early) q x
              else
                let s := (unwatch s q).modQueue q (fun w => { w with earlyCounted := false })
                match issueChecks s w e with
                | .pass xs =>
                  let s := forEach xs s holdXlat
                  issueHead q n (s.modQueue q (fun w => { w with
                    head := some ⟨e, s.now, xs, none, none⟩, st := .running, reason := .none }))
                | .fail st d =>
                  if terminalAtIssue st then
                    let s := if st = St.localBounds
                      then s.modWin w.inst (fun v => { v with localRefused := wrap 32 (v.localRefused + 1) }) else s
                    haltQueue s q w.fetch st e.op (entryDetail s e d) false
                  else issueHead q n (s.modQueue q (fun w => { w with
                    head := some ⟨e, s.now, [], some ⟨st, 0, entryDetail s e d⟩, none⟩, st := .running, reason := .none }))

/-- Issue the head of a queue, as far as its posted entries go. -/
def serveHead (s : State) (q : Nat) : State :=
  match s.queues.find q with
  | none => s
  | some w => issueHead q (3 * dmod 32 w.pi w.fetch + 3) s

/-- Heads that wait with a reason look again. -/
def retryHeads (s : State) (r : Reason) : State :=
  forEach (s.queues.keys.filter (fun q => match s.queues.find q with
    | some w => w.st == .waiting && w.reason == r | none => false)) s serveHead

/-- The entry that a queue waits for with reason EARLY stands in its line now: in HBM, or in board memory that it
watches (R64, R278). -/
def lineWritten (s : State) (q : Nat) (w : WorkQueue) : Bool :=
  let x := headSlot s w
  w.st == .waiting && w.reason == .early && !xlatHeld s x
    && (!x.board || (s.link x.link).watches.any (fun c => c.2 == q))
    && (entryOf (if x.board then readBytes (s.board x.link) x.addr 64 else readBytes s.mem x.addr 64)).phase
        == 1 - w.fetch / 2 ^ w.depthLog % 2

/-- Queues whose awaited line has been written, by whichever engine, read it again (R64). -/
def retryEarly (s : State) : State :=
  forEach (s.queues.keys.filter (fun q => match s.queues.find q with | some w => lineWritten s q w | none => false)) s serveHead

/-! ### The dispatcher (R74, R316) -/

/-- The head of a queue has passed every start condition (R77). -/
def headReady (s : State) (q : Nat) : Option (WorkQueue × Issued) :=
  match s.queues.find q with
  | none => none
  | some w => match w.head with
    | none => none
    | some h => if h.bad.isSome || instCalming s w.inst || (blockedBy s w h).isSome then none else some (w, h)

/-- The head of a queue could start on its own bucket. -/
def onOwnBucket (s : State) (q : Nat) : Bool :=
  match headReady s q with | some (w, h) => hasCredit s (accountOf s w.inst h.entry) | none => false

/-- Round robin by ascending number: the first at or after the turn, else the first of all. -/
def roundRobin (turn : Nat) (qs : List Nat) : Option Nat :=
  match (qs.filter (fun q => decide (turn ≤ q))).min? with | some q => some q | none => qs.min?

/-- The queue whose head the dispatcher starts next (R316): first those whose own bucket has credit, then those that can
start only on the shared pool. -/
def dispatched (s : State) : Option Nat :=
  let ready := s.queues.keys.filter (fun q => (headReady s q).isSome)
  match ready.filter (onOwnBucket s) with
  | [] => roundRobin s.pwr.turnPool ready
  | own => roundRobin s.pwr.turnOwn own

/-- The dispatcher's turn moves past a queue whose head starts. -/
def passTurn (s : State) (q : Nat) : State :=
  let own := onOwnBucket s q
  s.modPwr (fun w => if own then { w with turnOwn := q + 1 } else { w with turnPool := q + 1 })

/-! ### Calm (R301) -/

/-- A queue of a calming instance with nothing running becomes CALM, its open group reported (R95, R416); a halted group
whose completion still waits for its ring is kept (R79). -/
def calmQueue (s : State) (q : Nat) : State :=
  match s.queues.find q with
  | none => s
  | some w =>
    if instCalming s w.inst && w.started.isEmpty && w.st != .calm then
      let s := flushQueue s q
      let s := s.modQueue q (fun w => { w with
        st := .calm, reason := .none
        groups := w.groups.filter (fun g => g.count > 0 || g.halt.isSome) })
      serveQueueWaits s q
    else s

/-- ENTRY_COMPLETE without the sync addition: the entry counts in its group, its translations end,
the head moves past a wait, and finished groups are reported (R67, R71). -/
def completeEntry (s : State) (q : Nat) (x : Started) (e : Ending) : State :=
  let s := dropXlats s x.xlats
  let s := s.modQueue q (fun w =>
    let w := modGroup w x.gid (fun g => countIn g ⟨x.seq, x.entry.op, e⟩ (g.closedBy == some x.seq))
    { w with
      started := w.started.filter (fun y => y.seq != x.seq)
      fetch := if w.fetch = x.seq then wrap 32 (w.fetch + 1) else w.fetch })
  let s := serveQueueWaits (flushQueue s q) q
  calmQueue (serveHead s q) q

/-- The oldest started entry that has not run, if its opcode is `op`: the entry an instruction's
command runs (log entry 16). -/
def nextToRun (s : State) (q op : Nat) : Option (WorkQueue × Started) :=
  match s.queues.find q with
  | none => none
  | some w => match w.started.find? (fun x => !x.ran) with
    | some x => if x.entry.op = op then some (w, x) else none
    | none => none

/-- Lull threshold, ns (R117, R321). -/
def lullNs (s : State) : Nat := max 1 (fld s.pwr.cfg 31 16) * 1000

/-- The head wait of a queue is evaluated unsatisfied in the tick at `t` (R95, R117). -/
def waitFrom (s : State) (q : Nat) (r : Reason) (t : Nat) : State :=
  s.modQueue q (fun w => { w with
    st := if w.st == .error then w.st else .waiting, reason := if w.st == .error then w.reason else r,
    waitSince := match w.waitSince with | some t => some t | none => some t })

/-- The head wait of a queue is evaluated unsatisfied (R95, R117). -/
def waitAtHead (s : State) (q : Nat) (r : Reason) : State := waitFrom s q r s.now

/-- A head wait becomes a lull (R117). -/
def beginLull (s : State) (q : Nat) : State :=
  match s.queues.find q with
  | none => s
  | some w => (s.modQueue q (fun w => { w with lull := true })).modWin w.inst
      (fun v => { v with lulls := wrap 32 (v.lulls + 1) })

end Sys2Proof.Machine
end

