-- ==== Sys2Proof/Machine/EthOps.lean ====
section
/-! DEFINITION. Shared operations of the Ethernet-mode ports: sub-ports and addresses (R225, R226),
the transmit scheduler (R233 to R237), time gates (R238, R239), the receive buffer and pause (R231,
R232), and the frames the device builds. -/

namespace Sys2Proof.Machine

/-! ### Configuration of a port -/

/-- Sub-ports of a port (R225); BREAKOUT 3 is taken as 0. -/
def subCount (e : EthPort) : Nat := let b := fld e.cfg 29 28; if b = 1 then 2 else if b = 2 then 4 else 1

/-- Bytes per ns of a sub-port (R225). -/
def ethRate (e : EthPort) : Nat := 100 / subCount e

def maxFrame (e : EthPort) : Nat := let m := fld e.cfg 63 50; if 64 ≤ m ∧ m ≤ 9216 then m else 9216

/-- OVH, two's complement (R234). -/
def ovh (e : EthPort) : Int := signed 8 (fld e.cfg 49 42)

def pauseMode (e : EthPort) : Nat := let m := fld e.cfg 31 30; if m = 3 then 0 else m

def pfcOn (e : EthPort) (t : Nat) : Bool := pauseMode e == 2 && bit e.cfg (32 + t)

/-- What shapers and policers charge (R234): a large negative OVH makes the cost of a short frame negative. -/
def shapeCost (e : EthPort) (l : Nat) : Int := (l : Int) + ovh e

/-- Cost of a frame for fair queueing and round robin (R234). -/
def frameCost (e : EthPort) (l : Nat) : Int := if bit e.cfg 41 then 1024 else shapeCost e l

def subOf (e : EthPort) (sub : Nat) : SubPort := e.subs.findD sub default

/-- A VLAN entry is in use: VID 4,095 is not valid (R244). -/
def vlanOk (v : Vlan) : Bool := bit v.vlan 63 && fld v.vlan 59 48 != 4095

/-- The VLAN entries for a VID (R226, R229). -/
def vlansFor (e : EthPort) (vid : Nat) : List Vlan :=
  e.vlans.vals.filter (fun v => vlanOk v && fld v.vlan 59 48 == vid)

def vip4 (v : Vlan) : Option Nat := if bit v.ip4 32 then some (fld v.ip4 31 0) else none
def vip6 (v : Vlan) : Option Nat := if v.ip6Hi ≠ 0 ∨ v.ip6Lo ≠ 0 then some (v.ip6Hi.toNat * 2 ^ 64 + v.ip6Lo.toNat) else none

/-- IPv4 addresses stand in the high 32 bits of a 128-bit address field, as their first 4 bytes. -/
def asIp4 (a : Nat) : BitVec 128 := BitVec.ofNat 128 (a * 2 ^ 96)

/-- The VLAN entry's own address of a family. -/
def ownIp (v : Vlan) (v6 : Bool) : Option (BitVec 128) :=
  if v6 then (vip6 v).map (BitVec.ofNat 128) else (vip4 v).map asIp4

/-- The entry for a VID whose own address of a family is `src`, or any address of it (R226, R227, R242). -/
def vlanWith (e : EthPort) (vid : Nat) (v6 : Bool) (src : Option (BitVec 128)) : Option Vlan :=
  (vlansFor e vid).find? (fun v => match src with | some a => ownIp v v6 == some a | none => (ownIp v v6).isSome)

/-- An address is one of the port's own (R228, R229). -/
def portAddr (e : EthPort) (v6 : Bool) (a : BitVec 128) : Bool :=
  e.vlans.vals.any (fun v => vlanOk v && ownIp v v6 == some a)

/-- The port's own MAC address: filter entry 0 while it is a valid unicast address (R226). -/
def ownMac (e : EthPort) : Option (BitVec 48) :=
  let f := e.filter.findD 0 0
  if bit f 63 && !bit f 40 then some (BitVec.ofNat 48 (fld f 47 0)) else none

/-- The sub-port a frame goes to: the one wanted, or the next in ascending order that is up (R225). -/
def pickSub (e : EthPort) (want : Nat) : Option Nat :=
  ((List.range (subCount e)).map (fun i => (want + i) % subCount e)).find? (fun i => (subOf e i).up)

/-! ### Shapers and gates -/

/-- Balance of a bucket now: 2 × RATE units per tick up to the depth; a bucket not yet used is full
(R230, R237). -/
def bucketNow (rate burst now : Nat) (b : Option Bucket) : Int :=
  let depth : Int := burst * 256 * 1000
  match b with
  | none => depth
  | some b => min depth (b.bal + 2 * rate * ((now - b.tickAt) / 16))

def nodeRate (w : Word) : Nat := fld w 47 28
def nodeBurst (w : Word) : Nat := fld w 27 12
def nodeWeight (w : Word) : Nat := max 1 (fld w 55 48)
def svcNodeOf (e : EthPort) (t : Nat) : Word := e.svcNode.findD t schNodeReset
def subNodeOf (e : EthPort) (i : Nat) : Word := e.subNode.findD i schNodeReset

/-- A bucket as it stands now, before its rate or depth changes: a bucket not in use starts full (R230, R237). -/
def settleBucket (inUse : Bool) (rate burst now : Nat) (b : Option Bucket) : Option Bucket :=
  if inUse then some ⟨bucketNow rate burst now b, now⟩ else none

/-- A node conforms while its bucket is at least 0; RATE 0 is not shaped (R237). -/
def conforms (w : Word) (now : Nat) (b : Option Bucket) : Bool :=
  nodeRate w == 0 || decide (0 ≤ bucketNow (nodeRate w) (nodeBurst w) now b)

/-- Take a frame's cost from a shaper (R237). -/
def takeFrom (w : Word) (now : Nat) (cost : Int) (b : Option Bucket) : Bucket :=
  ⟨bucketNow (nodeRate w) (nodeBurst w) now b - 1000 * cost, now⟩

/-- The gate block of a port in the active plan (R238). -/
def gateBlock (s : State) (p : Nat) : Option GateBlock :=
  match s.plans.active with
  | none => none
  | some pl => pl.gates.find? (fun g => g.port == p)

def gateTicks (e : BitVec 32) : Nat := e.toNat % 2 ^ 24
def gateMask (e : BitVec 32) : Nat := e.toNat / 2 ^ 24

/-- The entry of a gate list in force at offset `o` ns of its cycle: index and start offset. -/
def findGate : List (BitVec 32) → Nat → Nat → Nat → Option (Nat × Nat)
  | [], _, _, _ => none
  | e :: es, i, t, o => if o < t + 16 * gateTicks e then some (i, t) else findGate es (i + 1) (t + 16 * gateTicks e) o

/-- The gate list of a port now: the block, the current entry, and the time that entry began (R238). -/
def gateNow (s : State) (p : Nat) : Option (GateBlock × Nat × Nat) :=
  match gateBlock s p with
  | none => none
  | some g =>
    let cyc := g.entries.foldl (fun a e => a + 16 * gateTicks e) 0
    if s.now < s.plans.activeF ∨ cyc = 0 then none
    else
      let c := s.plans.activeF + (s.now - s.plans.activeF) / cyc * cyc
      (findGate g.entries 0 0 (s.now - c)).map (fun x => (g, x.1, c + x.2))

/-- Start of the first entry after the current one in which gate `t` is closed; none if no entry
closes it. `n` bounds the walk over the list and once more round. -/
def gateClose (g : GateBlock) (t : Nat) : Nat → Nat → Nat → Option Nat
  | 0, _, _ => none
  | n + 1, i, start =>
    let e := g.entries.getD (i % g.entries.length) 0
    if !(gateMask e).testBit t then some start
    else gateClose g t n (i + 1) (start + 16 * gateTicks e)

/-- A frame of class `t` and `l` bytes passes its gate now (R239). -/
def passesGate (s : State) (p t l : Nat) : Bool :=
  let front := match s.plans.nextCond with | .armed => some s.plans.front | _ => none
  let fits := fun (close guard : Nat) =>
    decide (guard ≤ close) && decide (s.now * ethRate (s.ethPort p) + (l + 20) ≤ (close - guard) * ethRate (s.ethPort p))
  match gateNow s p with
  | none => match front with | some f => fits f 0 | none => true
  | some (g, i, start) =>
    let e := g.entries.getD i 0
    (gateMask e).testBit t
      && (match gateClose g t (g.entries.length + 1) (i + 1) (start + 16 * gateTicks e) with
          | some c => fits c g.guard | none => true)
      && (match front with | some f => fits f g.guard | none => true)

/-- Priority `t` of a sub-port is paused (R232). -/
def paused (s : State) (x : SubPort) (t : Nat) : Bool :=
  decide (s.now < x.portPause) || decide (s.now < x.pauseEnd.findD t 0)

/-! ### The scheduler -/

/-- Modular order of tags (R235): `a` is smaller than `b`. -/
def tagLess (a b : Word) : Bool := decide ((a - b).toNat ≥ 2 ^ 63)

def tagMax (a b : Word) : Word := if tagLess a b then b else a

/-- The frames a class has waiting from instances. -/
def classFrames (x : SubPort) (t : Nat) : List EthQueued := x.waiting.filter (fun f => f.rank == 0 && f.cls == t)

/-- Number of a subscriber of a service in the tables of tags. -/
def subKey (t i : Nat) : Nat := t * 256 + i

/-- The subscribers of a class that have a frame and whose shaper conforms, ascending (R233, R237). -/
def readySubs (s : State) (p : Nat) (x : SubPort) (t : Nat) : List Nat :=
  (List.range 256).filter (fun i => (classFrames x t).any (fun f => f.subscriber == i)
    && conforms (subNodeOf (s.ethPort p) i) s.now (x.subShape.find i))

/-- The candidate with the smallest start tag; between equal tags the lower index wins (R235). -/
def leastTag (tag : Nat → Word) : List Nat → Option Nat
  | [] => none
  | i :: is => match leastTag tag is with
    | none => some i
    | some j => if tagLess (tag j) (tag i) then some j else some i

/-- The frame a subscriber sends next in a class: its oldest response, else its flows in turn (R233). -/
def subHead (x : SubPort) (t i : Nat) : Option EthQueued :=
  let fs := (classFrames x t).filter (fun f => f.subscriber == i)
  match fs.find? (fun f => f.response) with
  | some f => some f
  | none =>
    let last := x.flowTurn.findD (subKey t i) 0
    match leastTag (fun k => BitVec.ofNat 64 k) ((fs.map (·.flow)).filter (fun k => decide (last ≤ k))) with
    | some k => fs.find? (fun f => f.flow == k)
    | none => match leastTag (fun k => BitVec.ofNat 64 k) (fs.map (·.flow)) with
      | some k => fs.find? (fun f => f.flow == k)
      | none => none

/-- The subscriber a class serves next (R235). -/
def svcSub (s : State) (p : Nat) (x : SubPort) (t : Nat) : Option Nat :=
  leastTag (fun i => (x.subTags.findD (subKey t i) ⟨0, 0, false⟩).s) (readySubs s p x t)

/-- The head frame a class would send now, before its gate (R233). -/
def svcHead (s : State) (p : Nat) (x : SubPort) (t : Nat) : Option EthQueued :=
  if paused s x t || !conforms (svcNodeOf (s.ethPort p) t) s.now (x.svcShape.find t)
      || !conforms (s.ethPort p).portNode s.now x.portShape then none
  else match svcSub s p x t with
    | none => none
    | some i => subHead x t i

/-- The head frame of an eligible service: its head passes its gate. -/
def svcReady (s : State) (p : Nat) (x : SubPort) (t : Nat) : Option EthQueued :=
  match svcHead s p x t with
  | some f => if passesGate s p t f.frame.length then some f else none
  | none => none

def privileged (e : EthPort) (t : Nat) : Bool := bit (svcNodeOf e t) 63

/-- The next privileged service after `t`, in ascending order and wrapping. -/
def nextPriv (e : EthPort) (t : Nat) : Nat :=
  ((rangeFrom (t + 1) 8).map (· % 8)).find? (privileged e) |>.getD t

/-- drr_next() of R236; `n` bounds the visits. -/
def drrNext (s : State) (p : Nat) : Nat → SubPort → Option (EthQueued × SubPort)
  | 0, _ => none
  | n + 1, x =>
    let e := s.ethPort p
    let t := if privileged e x.drrPtr then x.drrPtr else nextPriv e x.drrPtr
    let skip := fun (x : SubPort) => drrNext s p n { x with drrFresh := x.drrFresh.put t false, drrPtr := nextPriv e t }
    match svcReady s p x t with
    | none => skip x
    | some f =>
      let d : Int := x.drrD.findD t 0 + (if x.drrFresh.findD t false then 0 else (nodeWeight (svcNodeOf e t) * 1024 : Nat))
      let x := { x with drrD := x.drrD.put t d, drrFresh := x.drrFresh.put t true, drrPtr := t }
      if frameCost e f.frame.length ≤ d
      then some (f, { x with drrD := x.drrD.put t (d - frameCost e f.frame.length) })
      else skip x

/-- The ordinary services ready now, ascending. -/
def ordinaryReady (s : State) (p : Nat) (x : SubPort) : List Nat :=
  (List.range 8).filter (fun t => !privileged (s.ethPort p) t && (svcReady s p x t).isSome)

/-- The next frame of a sub-port, with its scheduler as the choice leaves it (R233). -/
def pickEth (s : State) (p sub : Nat) : Option (EthQueued × SubPort) :=
  let e := s.ethPort p
  let x := subOf e sub
  match x.waiting.find? (fun f => f.rank == 2) with
  | some f => some (f, x)
  | none =>
    if (ownMac e).isNone then none else
    match (if paused s x 7 then none else x.waiting.find? (fun f => f.rank == 1)) with
    | some f => some (f, x)
    | none =>
      match (if (List.range 8).any (fun t => privileged e t && (svcReady s p x t).isSome)
             then drrNext s p 8192 x else none) with
      | some r => some r
      | none => match leastTag (fun t => (x.svcTags.findD t ⟨0, 0, false⟩).s) (ordinaryReady s p x) with
        | none => none
        | some t => match svcReady s p x t with
          | some f => some (f, x)
          | none => none

/-- Remove the first waiting frame equal to `f`. -/
def dropWaiting (f : EthQueued) : List EthQueued → List EthQueued
  | [] => []
  | x :: xs => if x = f then xs else x :: dropWaiting f xs

/-- Wake a child that had no frame (R235). -/
def wakeTag (v : Word) (t : Tags) : Tags := if t.backlog then t else ⟨tagMax v t.fin, t.fin, true⟩

/-- What the start of a frame does to a child's tags (R235). -/
def spendTag (t : Tags) (cost : Int) (weight : Nat) (more : Bool) : Tags :=
  let f := t.s + BitVec.ofInt 64 (-(-(cost * 4096) / weight))
  ⟨if more then f else t.s, f, more⟩

/-- Put a frame on a sub-port, waking its service and subscriber (R235, R236). -/
def queueOn (x : SubPort) (f : EthQueued) : SubPort :=
  let x := if f.rank ≠ 0 then x else { x with
    svcTags := x.svcTags.put f.cls (wakeTag x.svcV (x.svcTags.findD f.cls ⟨0, 0, false⟩))
    subTags := x.subTags.put (subKey f.cls f.subscriber)
      (wakeTag (x.subV.findD f.cls 0) (x.subTags.findD (subKey f.cls f.subscriber) ⟨0, 0, false⟩)) }
  { x with waiting := x.waiting ++ [f] }

/-- Queue a frame for sending on the sub-port it goes to; with none up it is discarded (R225). -/
def ethQueue (s : State) (p want : Nat) (f : EthQueued) : State :=
  match pickSub (s.ethPort p) want with
  | none => s
  | some sub => s.modSub p sub (fun x => queueOn x f)

/-- Queue a frame the firmware or the MAC sends on a sub-port (R225, R240): a firmware frame goes on to the next
sub-port that is up; a MAC control frame concerns its own sub-port only. -/
def ethOwn (s : State) (p sub rank : Nat) (f : EthFrame) : State :=
  let q : EthQueued := ⟨f, 0, 0, 7, false, rank, false, none, s.now⟩
  if rank = 2 then s.modSub p sub (fun x => queueOn x q) else ethQueue s p sub q

/-- The sub-port's scheduler after frame `f` starts: tags, buckets, turns, the port is busy until
the frame has gone (R235 to R237), and its die takes its time over the next (R318). -/
def spendFrame (s : State) (p : Nat) (x : SubPort) (f : EthQueued) : SubPort :=
  let e := s.ethPort p
  let l := f.frame.length
  let x := { x with
    waiting := dropWaiting f x.waiting, flying := some f, busyUntil := s.now + ceilDiv (l + 20) (ethRate e)
    nextAt := s.now + pacedTime s p (l + 20) (ethRate e) }
  if f.rank ≠ 0 then x else
  let moreSvc := !(classFrames x f.cls).isEmpty
  let moreSub := (classFrames x f.cls).any (fun g => g.subscriber == f.subscriber)
  let key := subKey f.cls f.subscriber
  let st := x.svcTags.findD f.cls ⟨0, 0, false⟩
  let bt := x.subTags.findD key ⟨0, 0, false⟩
  let sc := shapeCost e l
  { x with
    svcV := if privileged e f.cls then x.svcV else st.s
    svcTags := x.svcTags.put f.cls (spendTag st (frameCost e l) (nodeWeight (svcNodeOf e f.cls)) moreSvc)
    subV := x.subV.put f.cls bt.s
    subTags := x.subTags.put key (spendTag bt (frameCost e l) (nodeWeight (subNodeOf e f.subscriber)) moreSub)
    drrD := if moreSvc then x.drrD else x.drrD.put f.cls 0
    flowTurn := if f.response then x.flowTurn else x.flowTurn.put key (f.flow + 1)
    svcShape := if nodeRate (svcNodeOf e f.cls) = 0 then x.svcShape
      else x.svcShape.put f.cls (takeFrom (svcNodeOf e f.cls) s.now sc (x.svcShape.find f.cls))
    subShape := if nodeRate (subNodeOf e f.subscriber) = 0 then x.subShape
      else x.subShape.put f.subscriber (takeFrom (subNodeOf e f.subscriber) s.now sc (x.subShape.find f.subscriber))
    portShape := if nodeRate e.portNode = 0 then x.portShape else some (takeFrom e.portNode s.now sc x.portShape) }

/-! ### Frames the device builds -/

/-- Bytes of a UDP frame around `n` bytes of payload: Ethernet, tag, IP, UDP, FCS (R227). -/
def udpFrameLen (tagged v6 : Bool) (n : Nat) : Nat :=
  max 64 (14 + (if tagged then 4 else 0) + (if v6 then 40 else 20) + 8 + n + 4)

/-- A UDP frame from a port's VLAN entry, of a source address if one is given, to an address, with the tag and class
of a DSCP (R120, R226). -/
def udpFrame (s : State) (p : Nat) (vid : Nat) (v6 : Bool) (from_ : Option (BitVec 128)) (dst : BitVec 128) (dscp srcPort dstPort n : Nat)
    (ect : Bool) (body : EthBody) : Option EthFrame :=
  let e := s.ethPort p
  match vlanWith e vid v6 from_, ownMac e with
  | some v, some mac => match ownIp v v6 with
    | none => none
    | some src => some {
        dst := BitVec.ofNat 48 (fld v.vlan 47 0), src := mac, doubleTag := false
        tag := if vid = 0 then none else some (BitVec.ofNat 3 (dscp / 8), BitVec.ofNat 12 vid)
        control := false, length := udpFrameLen (vid != 0) v6 n, fcsOk := true
        ip := some { v6 := v6, src := src, dst := dst, dscp := BitVec.ofNat 6 dscp
                     ecn := if ect then 2 else 0, fragment := false, df := !v6, extra := false, udp := true
                     udpSrc := BitVec.ofNat 16 srcPort, udpDst := BitVec.ofNat 16 dstPort
                     udpSumZero := false, udpSumOk := true }
        body := body }
  | _, _ => none

/-- Send a ZTP packet of a QP over UDP (R120, R225, R233). -/
def ethZtp (s : State) (q : Nat) (i : QpIdent) (response : Bool) (p : ZtpPacket) : State :=
  match udpFrame s i.port (i.vlan.getD 0) (i.path == 2) (some i.srcIp) i.dstIp i.dscp (49152 + q % 16384) (fld i.cfg 31 16)
      (ztpLen p) (bit i.cfg 0) (.ztp p) with
  | none => s
  | some f => ethQueue s i.port q ⟨f, q, i.owner, i.dscp / 8, response, 0, false, none, s.now⟩

/-- A frame as it leaves (R226, R244): one that the device builds has the port's own address and, from a VLAN entry,
the gateway's as they stand now, and a PTP message its timestamps; a raw frame goes as it was written. -/
def leaveFrame (s : State) (p : Nat) (q : EthQueued) : EthFrame :=
  let e := s.ethPort p
  let f := q.frame
  let own := { f with src := (ownMac e).getD f.src }
  let via := match f.ip with
    | some h => match vlanWith e (match f.tag with | some t => t.2.toNat | none => 0) h.v6 (some h.src) with
      | some v => { own with dst := BitVec.ofNat 48 (fld v.vlan 47 0) }
      | none => own
    | none => own
  match f.body with
  | .raw _ => f
  | .ztp _ => via
  | .csp _ => via
  | .ptp m => { own with body := .ptp (stampPtp s p q.since m) }
  | _ => own

/-- A pause or PFC frame (R231). -/
def pauseFrameOf (e : EthPort) (b : EthBody) : EthFrame :=
  { (default : EthFrame) with
    dst := 0x0180C2000001, src := (ownMac e).getD 0, control := true, length := 64, fcsOk := true, body := b }

/-- Send a PFC or pause frame for priority `t` on every sub-port that is up (R231). -/
def sendPause (s : State) (p t quanta : Nat) : State :=
  let e := s.ethPort p
  let body : EthBody := if pauseMode e = 1 then .pause (BitVec.ofNat 16 quanta)
    else .pfc (BitVec.ofNat 8 (2 ^ t)) ((List.range 8).map (fun i => if i = t then BitVec.ofNat 16 quanta else 0))
  forEach ((List.range (subCount e)).filter (fun i => (subOf e i).up)) s (fun s i =>
    (ethOwn s p i 2 (pauseFrameOf e body)).modSub p i
      (fun x => { x with xoffAt := if quanta = 0 then x.xoffAt.erase t else x.xoffAt.put t s.now }))

/-- Occupancy that governs XOFF for a priority: its own with PFC, the buffer's with 802.3x (R231). -/
def rxOccupancy (e : EthPort) (t : Nat) : Nat :=
  if pauseMode e = 1 then e.rxHeld.vals.foldl (· + ·) 0 else e.rxHeld.findD t 0

def xoffLevel (e : EthPort) : Nat := fld e.pfc 31 16 * 256
def xonLevel (e : EthPort) : Nat := min (fld e.pfc 15 0) (fld e.pfc 31 16 - 1) * 256

/-- The number under which XOFF of a priority is kept: 0 for 802.3x (R244). -/
def xoffKey (e : EthPort) (t : Nat) : Nat := if pauseMode e = 1 then 0 else t

/-- The port holds a priority in XOFF. -/
def inXoff (e : EthPort) (t : Nat) : Bool := e.subs.vals.any (fun x => (x.xoffAt.find t).isSome)

/-- Send XOFF or XON as the occupancy of a priority asks (R231). -/
def checkXoff (s : State) (p t : Nat) : State :=
  let e := s.ethPort p
  let k := xoffKey e t
  if !(pauseMode e == 1 || pfcOn e t) then s
  else if !inXoff e k && decide (rxOccupancy e t > xoffLevel e) then sendPause s p k (fld e.pfc 63 48)
  else if inXoff e k && decide (rxOccupancy e t ≤ xonLevel e) then sendPause s p k 0
  else s

/-- A packet leaves the list of those delivered, and its bytes leave the receive buffer. -/
def takeInbox (s : State) (arr : Arrival) (body : FrameBody) : State :=
  match s.inbox.find? (fun x => x.arr == arr && x.body == body) with
  | none => s
  | some x =>
    let s := { s with inbox := s.inbox.erase x }
    match x.arr.port with
    | none => s
    | some p => if x.bytes = 0 then s else
      checkXoff (s.modEth p.toNat (fun e => { e with rxHeld := e.rxHeld.modifyD x.prio 0 (· - x.bytes) }))
        p.toNat x.prio

end Sys2Proof.Machine
end

