-- ==== Sys2Proof/Machine/TransportOps.lean ====
section
/-! DEFINITION. Shared operations of the transport (chapter 5): building and sending packets (R120 to
R124, R141), messages and their PSNs (R119, R125), acknowledgement, retry and ends (R128, R132 to
R136), the responder's record (R129 to R131), and QP errors (R154). -/

namespace Sys2Proof.Machine

/-! ### Parameters -/

/-- PMTU in bytes of a code (R125). -/
def pmtuBytes (code : Nat) : Nat := 256 * 2 ^ code

/-- RTO(k), ns (R132). -/
def rto (i : QpIdent) (k : Nat) : Nat := min (i.baseUs * 2 ^ k) i.capUs * 1000

/-- Egress port of a QP, whose die carries its transport engine: its circuit's, its UDP path's, or the one its route
names now (R155; log entry 18). -/
def qpPort (s : State) (q : Nat) : Nat :=
  match qpCircuit s q with
  | some c => c.1
  | none =>
    let k := s.qp q
    if k.ident.path ≠ 0 then k.ident.port
    else match injectBank s with
      | none => 0
      | some b => ((choicesOf (routeEntry s b 16 k.ident.peerNode)).find? (fun c => fabUp s c.2.1)).elim 0 (·.2.1)

/-- ZTP_ACK fields, as they stood when the QP was opened (R155). -/
def ackEvery (i : QpIdent) : Nat := max 1 (fld i.ack 23 16)
def ackDelayNs (i : QpIdent) : Nat := max 1 (fld i.ack 15 8) * 100
def cnpIntervalNs (i : QpIdent) : Nat := max 1 (fld i.ack 7 0) * 1000
def connTries (i : QpIdent) : Nat := max 1 (fld i.ack 63 48)

/-- Line rate of a QP's egress port, in 1/16 Gb/s (R138, R140). -/
def lineRate (s : State) (i : QpIdent) : Nat := if i.path = 0 then 12800 else ethRate (s.ethPort i.port) * 128

/-- `a` numbers after `b`, both 32 bits. -/
def ahead (a b : Nat) : Nat := dmod 32 a b

/-! ### Ends of messages and QP errors -/

/-- Unfinished messages of a QP in MSN order. -/
def State.msgs (s : State) (q : Nat) : List Msg := (s.qp q).msgs

/-- Change an unfinished message. -/
def State.modMsg (s : State) (q msn : Nat) (f : Msg → Msg) : State :=
  s.modQp q (fun k => { k with msgs := k.msgs.map (fun m => if m.msn = msn then f m else m) })

/-- The first packet of a message has been sent on its QP. -/
def msgSent (k : Qp) (m : Msg) : Bool :=
  match m.psn with | some p => decide (dmod 32 k.sentTo p ≠ 0 ∧ dmod 32 k.sentTo p < 2 ^ 31) | none => false

/-- The commit of a couch copy (R264). -/
def isCommit (m : Msg) : Bool := m.kind == .write && fld m.raddr 63 60 == 2

/-- A message of a couch copy ended.  The one that reads the partner's record after a doubtful commit
settles which generation is valid (R267); a commit that ends badly and was not `sent` leaves no doubt. -/
def couchMsgEnded (c : Couch) (m : Msg) (status : Nat) (detail : BitVec 32) (sent : Bool) : Couch :=
  match c.run with
  | none => c
  | some u =>
    let v := { u with
      open_ := u.open_ - 1
      commitSent := u.commitSent && (status == St.ok || sent || !isCommit m)
      resolving := u.resolving && status != St.ok
      failed := if status = St.ok then u.failed else
        match u.failed with | some f => some f | none => some ⟨status, 0, detail⟩ }
    let hit := u.resolving && status == St.ok && leVal (m.inlineData.take 8) == c.doubtSeq
    { c with run := some v, validGen := if hit then some c.doubtGen else c.validGen
             validSeq := if hit then c.doubtSeq else c.validSeq }

/-- Tell the one for whom a message runs that it ended (R83, R264, R334). COUNTER_RANGE of a remote
wait halts its queue (R109). -/
def tellOwner (s : State) (m : Msg) (status : Nat) (result : Word) (detail : BitVec 32) : State :=
  match m.owner with
  | .entry q seq =>
    if status = St.counterRange then haltStarted s q seq status detail
    else endEntry s q seq status result detail
  | .couch r => s.modCouch r (fun c => couchMsgEnded c m status detail (msgSent (s.qp c.ent.qp) m))
  | .restore r => s.modFlt (fun f => { f with restoring := f.restoring.modify r (fun u => { u with
      open_ := u.open_ - 1
      record := if m.xlat.isNone then m.inlineData else u.record
      bad := if status = St.ok then u.bad else
        match u.bad with | some b => some b | none => some ⟨status, 0, detail⟩ }) })

/-- A message finishes: it leaves the QP and its owner learns how. -/
def endMsg (s : State) (q msn status : Nat) (result : Word) (detail : BitVec 32) : State :=
  match (s.msgs q).find? (fun m => m.msn == msn) with
  | none => s
  | some m => tellOwner (s.modQp q (fun k => { k with msgs := k.msgs.filter (fun x => x.msn != msn) }))
      m status result detail

/-- End every unfinished message: the oldest with one status, later ones FLUSHED (R134, R154). -/
def endAll (s : State) (q status : Nat) (detail : BitVec 32) : State :=
  match s.msgs q with
  | [] => s
  | m :: rest => forEach rest (endMsg s q m.msn status 0 detail) (fun s x => endMsg s q x.msn St.flushed 0 0)

/-- Held waits of a QP are discarded when it leaves OPEN (R111, R154). -/
def discardHeld (s : State) (q : Nat) : State :=
  s.modSync (fun m => { m with waits := m.waits.filter (fun w =>
    match w.who with | .held x _ => x != q | .queue _ _ => true) })

/-- The translation of the message a responder is part-way through ends (R257). -/
def endApplying (s : State) (a : Applying) : State :=
  match a.xlat with
  | some x => if x.inst < 128 then dropXlat s x else s
  | none => s

/-- A responder gives up the message it is part-way through. -/
def dropApplying (s : State) (q : Nat) : State :=
  match (s.qp q).cur with
  | some a => (endApplying s a).modQp q (fun k => { k with cur := none })
  | none => s

/-- A QP enters ERROR (R154, R323). -/
def qpError (s : State) (q lastStatus status : Nat) (detail : BitVec 32) (reason : Nat) : State :=
  let s := endAll (discardHeld (dropApplying s q) q) q status detail
  let s := s.modQp q (fun k => { k with
    st := .error, lastStatus := lastStatus, setupReason := reason, timerAt := none, backoff := none, cur := none })
  raiseFault s 0x02 lastStatus (if dieOf (qpPort s q) then 17 else 16) (s.qp q).ident.owner q (BitVec.ofNat 32 (reason % 256))

/-- A QP becomes CLOSED; its unfinished messages end FLUSHED (R149, R154). -/
def qpClosed (s : State) (q : Nat) : State :=
  let s := endAll (discardHeld (dropApplying s q) q) q St.flushed 0
  s.modQp q (fun k => { Qp.reset with resident := k.resident, setupReason := k.setupReason })

/-! ### Sending packets -/

/-- A packet of a QP with its headers filled from the context (R122). -/
def ztpBase (s : State) (q typ psn msn : Nat) : ZtpPacket :=
  let k := s.qp q
  { (default : ZtpPacket) with
    typ := BitVec.ofNat 8 typ, first := true, last := true, ver := BitVec.ofNat 8 (max 1 k.ident.ver)
    dstQp := BitVec.ofNat 32 k.ident.peerQp, srcQp := BitVec.ofNat 32 q
    psn := BitVec.ofNat 32 psn, msn := BitVec.ofNat 32 msn
    pkey := BitVec.ofNat 16 k.ident.pkey, conn := k.ident.conn, ts := BitVec.ofNat 32 s.now
    body := .none, ecrcOk := true, tagOk := true }

/-- Put a packet on its way: over UDP, on VC7 of a bound circuit, or into the fabric (R120, R123). -/
def sendOut (s : State) (q vc : Nat) (p : ZtpPacket) : State :=
  let i := (s.qp q).ident
  let s := chargeShared s (if vc = 1 then [] else [(1, ztpLen p)])
  if i.path ≠ 0 then ethZtp s q i (vc == 3) p
  else match (if vc = 1 then qpCircuit s q else none) with
    | some c => injectCircuit s c.1 c.2 i.peerNode 1 (ztpLen p) p.pkey (.ztp p)
    | none => inject s i.peerNode 1 vc (ztpLen p) p.pkey (.ztp p)

/-- The headers of a ZTP packet as they stand on the wire (R121, R122, R124): big-endian. -/
def ztpHeader (p : ZtpPacket) : List Byte :=
  let t := p.typ.toNat
  let flags := p.first.toNat * 128 + p.last.toNat * 64 + p.ar.toNat * 32 + p.sealedBit.toNat * 16 + p.flagsZero.toNat
  beBytes 1 t ++ beBytes 1 flags ++ beBytes 1 p.ver.toNat ++ beBytes 1 p.zero3.toNat
    ++ beBytes 4 p.dstQp.toNat ++ beBytes 4 p.srcQp.toNat ++ beBytes 4 p.psn.toNat ++ beBytes 4 p.msn.toNat
    ++ beBytes 2 p.pkey.toNat ++ beBytes 2 p.conn.toNat ++ beBytes 4 p.ts.toNat ++ beBytes 4 p.zero1C.toNat
    ++ (if p.sealedBit then beBytes 8 p.sealNo.toNat else [])
    ++ (if (t == 0x01 && p.first) || t == 0x02
        then beBytes 8 p.raddr.toNat ++ beBytes 4 p.rkey.toNat ++ beBytes 4 p.length.toNat else [])
    ++ (if t == 0x01 && p.last then beBytes 4 p.signal.toNat ++ beBytes 4 p.radd.toNat else [])
    ++ (if t == 0x11 || t == 0x12 || t == 0x14
        then beBytes 1 p.syndrome.toNat ++ beBytes 1 p.status.toNat ++ beBytes 2 p.aethZero.toNat
          ++ beBytes 4 p.epsn.toNat ++ beBytes 8 p.result.toNat else [])

/-- The payload that sealing encrypts: data, or the SYNC block (R124, R141). -/
def sealedText : ZtpBody → List Byte
  | .data b => b
  | .sync b => beBytes 1 b.op.toNat ++ beBytes 1 b.flags.toNat ++ beBytes 2 b.zero.toNat ++ beBytes 4 b.id.toNat
      ++ beBytes 8 b.value.toNat ++ beBytes 8 b.deadline.toNat
  | _ => []

/-- IV of a sealed packet (R142): SEAL, DIR and zeros; DIR is 0 for the active end. -/
def sealIv (no : Nat) (active : Bool) : BitVec 96 := BitVec.ofNat 96 (no * 2 ^ 32 + (!active).toNat * 2 ^ 31)

/-- A packet sealed under the key of its QP (R141, R143): encrypted payload, and a tag over headers and payload. -/
def sealPacket (s : State) (i : QpIdent) (p : ZtpPacket) (no : Nat) : ZtpPacket :=
  let p := { p with sealedBit := true, sealNo := BitVec.ofNat 64 no }
  let r := Config.gcm i.cipher (Config.unwrapKey s.boot.wrapKey i.key) (sealIv no i.active) (ztpHeader p) (sealedText p.body)
  { p with wire := some ⟨sealIv no i.active, r.1, r.2⟩ }

/-- The key check value of a key (R147): bytes 0 to 3 of the tag over the four bytes ZTPK. -/
def keyCheck (cipher : Nat) (key : List Byte) : BitVec 32 :=
  (Config.gcm cipher key (BitVec.allOnes 96) [0x5A, 0x54, 0x50, 0x4B] []).2.extractLsb' 96 32

/-- Seal a packet of a QP that has a cipher, counting SEAL, and send it; a SEAL that would wrap puts
the QP into ERROR (R141, R142). Requests go on `vc` 1, responses on `vc` 3. -/
def sendSealed (s : State) (q vc : Nat) (p : ZtpPacket) : State :=
  let k := s.qp q
  if k.ident.cipher = 0 then sendOut s q vc p
  else if k.sealTx ≥ 2 ^ 64 - 1 then qpError s q St.flushed St.flushed 0 0
  else sendOut (s.modQp q (fun k => { k with sealTx := k.sealTx + 1 })) q vc
    (sealPacket s k.ident p k.sealTx)

/-- A connection packet travels on VC0 and is never sealed; its VER is 1 (R122, R123, R141). -/
def sendConn (s : State) (q typ : Nat) (c : ConnBlock) : State :=
  sendOut s q 0 { ztpBase s q typ 0 0 with ver := 1, body := .conn c, conn := if typ = 0x21 then 0 else (s.qp q).ident.conn }

/-- The CONN block a QP sends (R148). -/
def connBlock (s : State) (q : Nat) : ConnBlock :=
  let k := s.qp q
  { node := BitVec.ofNat 18 (nodeId s), inst := BitVec.ofNat 7 k.ident.owner, peerInst := BitVec.ofNat 7 k.ident.peerInst
    qp := BitVec.ofNat 20 q, peerQp := BitVec.ofNat 20 k.ident.peerQp
    verMin := BitVec.ofNat 8 k.ident.verMin
    ver := BitVec.ofNat 8 k.ident.verMax
    cipher := BitVec.ofNat 8 k.ident.cipher, pmtu := BitVec.ofNat 8 k.ident.pmtu
    pkey := BitVec.ofNat 16 k.ident.pkey, tag := k.ident.conn, startPsn := BitVec.ofNat 32 k.startPsn
    kcv := if k.ident.cipher = 0 then 0 else k.ident.kcv, reason := 0, circuit := (qpCircuit s q).isSome
    zero06 := 0, flagsZero := 0, zero22 := 0 }

/-- A CONN block without START_PSN, for CONN_RTU, DISC_REQ and DISC_REP (R148). -/
def plainBlock (s : State) (q : Nat) : ConnBlock := { connBlock s q with startPsn := 0 }

/-- An answer of the responder: ACK 0x11, NAK 0x12, SYNC_DONE 0x14 (R124), carrying the TS of the
request that caused it. -/
def sendAnswer (s : State) (q typ psn msn syn status : Nat) (result : Word) (ts : BitVec 32) : State :=
  sendSealed s q 3 { ztpBase s q typ psn msn with
    ts := ts, syndrome := BitVec.ofNat 8 syn, status := BitVec.ofNat 8 status
    epsn := BitVec.ofNat 32 (s.qp q).epsn, result := result }

/-! ### Messages -/

/-- Number of PSNs a message spans (R125). -/
def spanOf (kind : MsgKind) (len pmtu : Nat) : Nat :=
  match kind with
  | .sync => 1
  | _ => max 1 (ceilDiv len (pmtuBytes pmtu))

/-- Give PSNs to the messages that may enter the window (R125): in MSN order, at most 256 unfinished,
and no span ending more than 2^30 PSNs after the first PSN of the oldest unfinished message. -/
def admitMsgs (n : Nat) (first : Option Nat) (next : Nat) : List Msg → List Msg × Nat
  | [] => ([], next)
  | m :: rest =>
    match m.psn with
    | some p =>
      let r := admitMsgs (n + 1) (some (first.getD p)) next rest
      (m :: r.1, r.2)
    | none =>
      if n ≥ 256 ∨ ahead (next + m.span) (first.getD next) > 2 ^ 30 then (m :: rest, next)
      else
        let r := admitMsgs (n + 1) (some (first.getD next)) (wrap 32 (next + m.span)) rest
        ({ m with psn := some next } :: r.1, r.2)

/-- Let waiting messages of a QP into the window. -/
def admitAll (s : State) (q : Nat) : State :=
  s.modQp q (fun k =>
    let r := admitMsgs 0 none k.nextPsn k.msgs
    { k with msgs := r.1, nextPsn := r.2 })

/-- A context is used now (R151). -/
def touchQp (s : State) (q : Nat) : State :=
  let n := s.tp.uses
  ({ s with tp := { s.tp with uses := n + 1 } }).modQp q (fun k => { k with lastUse := n })

/-- Start a message (R119, R211): a key that is no member of set 16 in the injection bank ends it at
once with PARTITION_REJECT. -/
def startMsg (s : State) (q : Nat) (m : Msg) : State :=
  let k := s.qp q
  match injectBank s with
  | some b =>
    if keyMember s b 16 k.ident.pkey then
      let m := { m with msn := k.nextMsn, span := spanOf m.kind m.len k.ident.pmtu, psn := none }
      admitAll ((touchQp s q).modQp q (fun k => { k with msgs := k.msgs ++ [m], nextMsn := wrap 32 (k.nextMsn + 1) })) q
    else tellOwner s m St.partitionReject 0 0
  | none => tellOwner s m St.partitionReject 0 0

/-- The message whose span holds a PSN. -/
def msgAt (k : Qp) (psn : Nat) : Option Msg :=
  k.msgs.find? (fun m => match m.psn with | some p => decide (ahead psn p < m.span) | none => false)

/-- First PSN of a READ whose response has not been placed (R137). -/
def readNext (k : Qp) (m : Msg) : Nat := wrap 32 (m.psn.getD 0 + m.placed / pmtuBytes k.ident.pmtu)

/-- The PSN up to which acknowledgement may advance: an unfinished READ holds it at its first missing
response (R133, R137). -/
def ackLimit (k : Qp) (psn : Nat) : Nat :=
  k.msgs.foldl (fun a m => if m.kind == .read && m.psn.isSome && decide (ahead a (readNext k m) < 2 ^ 31)
    then readNext k m else a) psn

/-- The first PSN, from `u` on, that is not settled: PSNs of finished messages and READ responses placed
are passed over. `n` bounds the walk. -/
def settled (k : Qp) : Nat → Nat → Nat
  | 0, u => u
  | n + 1, u =>
    match msgAt k u with
    | some m => if m.kind == .read && readNext k m != u && decide (ahead (readNext k m) u < 2 ^ 31)
        then settled k n (readNext k m) else u
    | none =>
      let firsts := k.msgs.filterMap (fun m => match m.psn with
        | some p => if ahead p u < 2 ^ 31 then some (ahead p u) else none | none => none)
      match firsts.min? with
      | some d => if d = 0 then u else settled k n (wrap 32 (u + d))
      | none => k.nextPsn

/-- The oldest unacknowledged PSN advances to `u` if that is later: k, j and the timer move past it, and the timer runs
on while a PSN once sent is unacknowledged (R128, R132); a sync message whose PSN is passed keeps a timer of its own; WRITEs acknowledged whole
finish with the bytes moved (R85). -/
def moveAck (s : State) (q u : Nat) : State :=
  let k := s.qp q
  let d := ahead u k.unacked
  if d = 0 ∨ d ≥ 2 ^ 31 then s else
  let sent := if ahead k.sendPsn u < 2 ^ 31 then k.sendPsn else u
  let s := s.modQp q (fun k => { k with
    unacked := u, sendPsn := sent, k := 0, j := 0, ignoreNak := none
    timerAt := if ahead k.sentTo u = 0 ∨ ahead k.sentTo u ≥ 2 ^ 31 then none else some (s.now + rto k.ident 0)
    msgs := k.msgs.map (fun m => match m.psn with
      | some p => if m.kind == .sync && !m.passed && decide (ahead u p < 2 ^ 31) && u != p
          then { m with passed := true, timerAt := some (s.now + rto k.ident 0), k := 0 } else m
      | none => m) })
  let done := (s.msgs q).filter (fun m => m.kind == .write && (match m.psn with
    | some p => decide (ahead u (p + m.span) < 2 ^ 31) | none => false))
  admitAll (forEach done s (fun s m => endMsg s q m.msn St.ok (BitVec.ofNat 64 m.len) 0)) q

/-- Every PSN before `psn` is acknowledged, but for those an unfinished READ holds (R128, R137). -/
def advanceAck (s : State) (q psn : Nat) : State :=
  let k := s.qp q
  if ahead psn k.unacked < 2 ^ 31 ∧ ahead k.nextPsn psn < 2 ^ 31
  then moveAck s q (settled k (k.msgs.length + 2) (ackLimit k psn)) else s

/-- The oldest unacknowledged PSN moves over what is settled. -/
def settleAck (s : State) (q : Nat) : State :=
  let k := s.qp q
  admitAll (moveAck s q (settled k (k.msgs.length + 2) k.unacked)) q

/-- Send again from a PSN (R133): the send pointer moves back to it. -/
def resendFrom (s : State) (q psn : Nat) : State :=
  let k := s.qp q
  if ahead k.sendPsn psn ≥ 2 ^ 31 ∨ ahead psn k.unacked ≥ 2 ^ 31 then s
  else s.modQp q (fun k => { k with sendPsn := psn })

/-- The DETAIL a requester gives a status answered by the responder (R254, R261, R290). -/
def remoteDetail (m : Msg) (status : Nat) (sig : Bool) : BitVec 32 :=
  if status = St.remoteAccess then
    match m.kind with
    | .sync => boundsDetail 3 0 0
    | .write => if sig then boundsDetail 4 0 0 else boundsDetail 2 0 (fld m.raddr 63 60)
    | .read => boundsDetail 2 0 (fld m.raddr 63 60)
  else if status = St.memoryUncorrectable then
    ueDetail 15 true (match m.kind with | .read => m.placed / 64 | _ => 0)
  else if status = St.targetUnavailable then lostDetail 0 0 true
  else 0

/-! ### The responder's record -/

/-- Record the outcome of a message (R129). -/
def recordMsg (s : State) (q msn status : Nat) (held : Bool) (result : Word) (psn : Nat)
    (ts : BitVec 32) (sig : Bool) : State :=
  s.modQp q (fun k => { k with
    record := k.record.put (msn % 256) ⟨msn, status, held, result, psn, ts, sig⟩
    applied := if ahead msn k.applied < 2 ^ 31 then msn else k.applied })

/-- The outcome recorded for a message, while it is among the last 256 (R129, R130). -/
def outcomeOf (k : Qp) (msn : Nat) : Option Outcome1 :=
  match k.record.find (msn % 256) with
  | some o => if o.msn = msn then some o else none
  | none => none

/-- The RESULT of a sync message is written to the result record of its QP (R129, R150), over whatever error its word
held (R253). -/
def writeResult (s : State) (q msn : Nat) : State :=
  healWords s (fun w => w == Config.recordAt q / 8 + msn % 256)

/-- A word of a QP's context or result record cannot be read: it is logged, and the QP enters ERROR (R154, R252). -/
def contextLost (s : State) (q w : Nat) : State :=
  qpError (logUe s w false) q St.memoryUncorrectable St.memoryUncorrectable (ueDetail (stackOf s.hbm (w * 8)) false 0) 0

/-- A held wait ends: the status goes over HELD in the record and a SYNC_DONE carries it (R131). -/
def heldEnded (s : State) (q msn status : Nat) (result : Word) : State :=
  let s := s.modSync (fun m => { m with waits := m.waits.filter (fun w => w.who != .held q msn) })
  let s := s.modQp q (fun k => { k with record := k.record.modify (msn % 256) (fun o =>
    if o.msn = msn then { o with status := status, held := false, result := result } else o) })
  let s := writeResult s q msn
  match outcomeOf (s.qp q) msn with
  | some o => sendAnswer s q 0x14 o.psn msn (if status = St.ok then 0 else 4) status result o.ts
  | none => s

end Sys2Proof.Machine
end

