-- ==== Sys2Proof/Machine/SyncOps.lean ====
section
/-! DEFINITION. Shared operations of the sync memory (chapter 4): additions, the evaluation of waits
(R104 to R107), endings in their order of precedence (R108), orphaning (R114) and the condition of a
granule (R98, R100, R115). -/

namespace Sys2Proof.Machine

/-- Set the value of an object; a zero is not listed. What the object held at the end of the tick before is kept
(R113). -/
def setObj (s : State) (id v : Nat) : State :=
  s.modSync (fun m => { m with
    values := if v = 0 then m.values.erase id else m.values.put id v
    before := if (m.before.find id).isSome then m.before else m.before.put id (m.values.findD id 0) })

/-- The pending waits on an object, in joining order (R106). -/
def waitsOn (s : State) (sem : Bool) (id : Nat) : List Wait :=
  s.sync.waits.filter (fun w => w.id == id && w.sem == sem)

/-- A wait ends: the head of a queue, or a held remote request, learns how. OWNER_LOST of a local
wait is terminal for its queue (R78, R111, R114). -/
def endWait (s : State) (w : Wait) (status : Nat) (result : Word) : State :=
  let s := s.modSync (fun m => { m with waits := m.waits.filter (fun x => x.who != w.who) })
  match w.who with
  | .queue q seq => if status = St.ownerLost then haltStarted s q seq status 0
                    else endEntry s q seq status result 0
  | .held q msn => heldEnded s q msn status result

/-- Evaluate the counter waits on a counter against its value (R104, R107 step 2). -/
def serveCounter (s : State) (id : Nat) : State :=
  let c := objVal s id
  forEach ((waitsOn s false id).filter (fun w => counterReached c w.value)) s (fun s w =>
    endWait s w St.ok (BitVec.ofNat 64 c))

/-- Serve a list of semaphore waiters from its head (R106): the value left and the waiters served,
each with the value before its change. -/
def serveList : Nat → List Wait → Nat × List (Wait × Nat)
  | v, [] => (v, [])
  | v, w :: rest =>
    if w.value ≤ v then let r := serveList (v - w.value) rest; (r.1, (w, v) :: r.2) else (v, [])

/-- Serve the waiters of a semaphore (R106, R107 step 2). -/
def serveSem (s : State) (id : Nat) : State :=
  let r := serveList (objVal s id) (waitsOn s true id)
  forEach r.2 (setObj s id r.1) (fun s x => endWait s x.1 St.ok (BitVec.ofNat 64 x.2))

/-! ### The order of a tick (R107)

Additions change an object when their commands come; its waits are evaluated once, when the tick ends. A command
that would add out of the order of R107 belongs to the next tick. -/

/-- Place of an addition in its tick (R107): queues by number, then doorbells, then remote requests by port. -/
def localRank (q : Nat) : Nat := q
def doorbellRank : Nat := 2 ^ 19
def remoteRank (port : Option (BitVec 4)) : Nat := 2 ^ 19 + 1 + (match port with | some p => p.toNat | none => 16)

/-- Later than every addition: a remote wait that is met at once has been evaluated (R107, R131). -/
def evalRank : Nat := 2 ^ 20

/-- Evaluate the waits of every object, and serve every semaphore list from its head (R106, R107 step 2). -/
def serveAll (s : State) : State :=
  forEach ((s.sync.waits.map (fun w => (w.sem, w.id))).eraseDups) s (fun s o =>
    if o.1 then serveSem s o.2 else serveCounter s o.2)

/-- Deadline of the wait at the head of a queue that the device itself expires: a local sync wait or a
queue wait (R82, R111). -/
def headDeadline (s : State) (q : Nat) : Option (Started × Nat) :=
  match s.queues.find q with
  | none => none
  | some w => match w.started.find? (fun x => x.entry.hasDeadline && x.ran && x.ending.isNone && holding w x.seq) with
    | some x => if isSyncOp x.entry.op && x.entry.isRemote then none else some (x, x.entry.w7.toNat)
    | none => none

/-- The TIME_WAIT that runs at the head of a queue. -/
def timeWaitOf (w : WorkQueue) : Option Started :=
  w.started.find? (fun x => x.entry.op == 0x19 && x.ran && x.ending.isNone)

/-- A TIME_WAIT whose target is passed by the tick at `t` completes (R34, R90). -/
def passTimeWait (t : Nat) (s : State) (q : Nat) : State :=
  match (s.queues.find q).bind timeWaitOf with
  | some x => if tickStart x.target ≤ t
      then endEntry s q x.seq St.ok (BitVec.ofNat 64 (max s.sync.tickAt (tickStart x.target))) 0 else s
  | none => s

/-- The unsatisfied wait at the head of a queue ends WAIT_TIMEOUT if its deadline is reached (R107 step 3). -/
def expireHead (t : Nat) (s : State) (q : Nat) : State :=
  match headDeadline s q with
  | some (x, d) => if tickStart d ≤ t then endEntry s q x.seq St.waitTimeout 0 0 else s
  | none => s

/-- A held wait whose deadline is reached is answered WAIT_TIMEOUT (R107 step 3, R111). -/
def expireHeld (t : Nat) (s : State) (w : Wait) : State :=
  match w.who, w.deadline with
  | .held _ _, some d => if tickStart d ≤ t then endWait s w St.waitTimeout 0 else s
  | _, _ => s

/-- A local wait still pending was evaluated unsatisfied (R95, R117). -/
def noteUnmet (t : Nat) (s : State) (w : Wait) : State :=
  match w.who with
  | .queue q _ => waitFrom s q .sync t
  | .held _ _ => s

/-- The end of the tick at `t` (R107 steps 2 and 3): waits are satisfied first, and only those left over
expire (R14). -/
def evaluateTick (s : State) (t : Nat) : State :=
  let s := forEach s.queues.keys (serveAll s) (passTimeWait t)
  let s := forEach s.sync.waits (forEach s.queues.keys s (expireHead t)) (expireHeld t)
  forEach s.sync.waits s (noteUnmet t)

/-- Nothing has happened yet in the tick at `t`. -/
def freshTick (s : State) (t : Nat) : State :=
  s.modSync (fun m => { m with tickAt := t, before := Tbl.empty, ranks := Tbl.empty })

/-- Evaluate the ticks before the present one that are not evaluated yet. -/
def catchUp (s : State) : State :=
  if s.sync.tickAt < s.now
  then freshTick (evaluateTick (evaluateTick s s.sync.tickAt) (s.now - 16)) s.now else s

/-- What the waits of the present tick have come to so far. -/
def meetTick (s : State) : State :=
  let s := catchUp s
  evaluateTick s s.now

/-- The present tick ends, and the next begins. -/
def endTick (s : State) : State :=
  let s := catchUp s
  let s := (evaluateTick s s.now).arriveAt (s.now + 16)
  freshTick s s.now

/-- An addition takes its turn on an object: one that comes after a later place of the order of R107 belongs to the
next tick. -/
def takeTurn (s : State) (id rank : Nat) : State :=
  let s := catchUp s
  let s := if rank < s.sync.ranks.findD id 0 then endTick s else s
  s.modSync (fun m => { m with ranks := m.ranks.put id rank })

/-- Add to a counter modulo 2^64 (R102). -/
def addCounter (s : State) (id n rank : Nat) : State :=
  let s := takeTurn s id rank
  setObj s id (wrap 64 (objVal s id + n))

/-- A semaphore addition fits (R105). -/
def semFits (s : State) (id n : Nat) : Bool := decide (objVal s id + n < 2 ^ 32)

/-- Add to a semaphore (R105): the value before, or none where the sum does not fit and nothing changes. -/
def addSem (s : State) (id n rank : Nat) : State × Option Nat :=
  let s := takeTurn s id rank
  if semFits s id n then (setObj s id (objVal s id + n), some (objVal s id)) else (s, none)

/-- Put a wait after those present and, among those of its own tick, in the order of R107. -/
def joinList (w : Wait) : List Wait → List Wait
  | [] => [w]
  | x :: rest => if x.joined = w.joined ∧ w.rank < x.rank then w :: x :: rest else x :: joinList w rest

/-- A wait joins, in the next tick where its object has been evaluated in this one; a SEM_WAIT with amount 0
completes at once (R104, R106, R107). -/
def joinWait (s : State) (w : Wait) : State :=
  let s := catchUp s
  let s := if s.sync.ranks.findD w.id 0 = evalRank then endTick s else s
  if w.sem && w.value == 0 then endWait s w St.ok (BitVec.ofNat 64 (objVal s w.id))
  else s.modSync (fun m => { m with waits := joinList { w with joined := s.now } m.waits })

/-- What SYNC_RD_VAL shows of an object: its value at the end of the last completed tick (R113). -/
def lastTickVal (s : State) (id : Nat) : Nat :=
  let s := catchUp s
  (s.sync.before.find id).getD (objVal s id)

/-- The wait is pending. -/
def pendingWait (s : State) (who : Waiter) : Option Wait := s.sync.waits.find? (fun w => w.who == who)

/-- Waits pending on a granule (R100, R118). -/
def granWaits (s : State) (g : Nat) : List Wait := s.sync.waits.filter (fun w => granOf w.id == g)

/-- Zero every object of a granule and give it a mode (R100, R101, R115). -/
def initGranule (s : State) (g : Nat) (sem : Bool) : State :=
  let s := catchUp s
  let old := s.sync.values.cells.filter (fun c => granOf c.1 == g && (s.sync.before.find c.1).isNone)
  (s.modSync (fun m => { m with
    values := m.values.keep (fun id _ => granOf id != g)
    before := old.foldl (fun t c => t.put c.1 c.2) m.before })).modGranule g (fun x => { x with semMode := sem })

/-- End every wait on a granule (R101, R114): the waits that its objects satisfy in this tick are satisfied
(R108). -/
def endGranWaits (s : State) (g status : Nat) : State :=
  let s := serveAll (catchUp s)
  forEach (granWaits s g) s (fun s w => endWait s w status 0)

/-- Orphan a granule (R114, R116): every wait on it ends OWNER_LOST, its shares are cleared, and its
values are kept and unreadable. -/
def orphanGranule (s : State) (g : Nat) : State :=
  (endGranWaits s g St.ownerLost).modGranule g (fun x => { x with orphan := true, share := 0, shareNext := none })

/-- Return a granule to the pool: zeroed, in counter mode, shared with nobody (R101, R115). -/
def poolGranule (s : State) (g : Nat) : State :=
  (initGranule s g false).modGranule g
    (fun x => { x with orphan := false, unnamed := false, share := 0, shareNext := none })

/-- Remote waits held now (R111, R118). -/
def heldCount (s : State) : Nat :=
  (s.sync.waits.filter (fun w => match w.who with | .held _ _ => true | .queue _ _ => false)).length

end Sys2Proof.Machine
end

