-- ==== Sys2Proof/Machine/AccessOps.lean ====
section
/-! DEFINITION. Shared operations of the control space (chapter 11): which accesses the device serves
(R293 to R296), violations (R297), the answers of a mailbox door (R303 to R305), and the encodings of
its requests. -/

namespace Sys2Proof.Machine

/-! ### The map -/

/-- End of the device-global registers (R293). -/
def globalEnd : Nat := 0x1000000

/-- Base of the instance windows, their size, and the end of the last one (R293). -/
def winBase : Nat := 0x10000000
def winSize : Nat := 0x4000000
def winTop : Nat := 0x210000000

/-- Offsets in a window: queue doorbells, ring doorbells, SYNC_DOORBELL (R294). -/
def wqDbOff : Nat := 0x100000
def cqDbOff : Nat := 0x2100000
def syncDbOff : Nat := 0x2900000

/-- Address of an offset in the window of an instance. -/
def winAddr (i off : Nat) : Nat := winBase + i * winSize + off

/-- The window an address lies in. -/
def windowOf (a : Nat) : Option Nat :=
  if winBase ≤ a ∧ a < winTop then some ((a - winBase) / winSize) else none

/-- The address lies in no range that R293 gives to anyone. -/
def reservedMap (a : Nat) : Bool := (decide (globalEnd ≤ a) && decide (a < winBase)) || decide (winTop ≤ a)

/-- A command of a companion arrives over its link, and the device takes accesses (R340). -/
def arrives (s : State) (l : Nat) : Bool := s.inService && linkCarries s l

/-- Until the mailbox doors open the control space reads as zero and ignores writes (R340). -/
def readsZero (s : State) (l : Nat) : Bool := s.boot.phase == .boot && linkCarries s l

/-- The device serves an access from link `l` at an address (R296). -/
def serves (s : State) (l a : Nat) : Bool :=
  if a < globalEnd then s.ctrl.mgrLinks.testBit l
  else match windowOf a with
    | none => false
    | some i =>
      if i = 0 then s.ctrl.mgrLinks.testBit l
      else ((s.inst i).st == .active || (s.inst i).st == .calming || (s.inst i).st == .calm)
        && covers (s.inst i).res 0x0D l

/-! Kinds of violation (R308, CS_VIOL_LAST.KIND). -/
namespace Viol
def notServed : Nat := 1
def reserved : Nat := 2
def narrow : Nat := 3
def reservedBits : Nat := 4
def doorbell : Nat := 5
end Viol

/-- Count and record a violation; nobody is told (R297). -/
def violate (s : State) (l kind addr : Nat) (write : Bool) : State :=
  { s with ctrl := { s.ctrl with
      rsvdWrites := if kind = Viol.reservedBits then s.ctrl.rsvdWrites.modifyD l 0 (fun n => wrap 32 (n + 1))
                    else s.ctrl.rsvdWrites
      refused := if kind = Viol.reservedBits then s.ctrl.refused
                 else s.ctrl.refused.modifyD l 0 (fun n => wrap 32 (n + 1))
      lastViol := reg [(63, 63, write.toNat), (62, 61, l), (60, 56, kind), (33, 0, addr)] } }

/-- The violation of an access that R296 does not serve; one to a reserved range is recorded as such
(log entry 20). -/
def refuseAccess (s : State) (l a : Nat) (write : Bool) : State :=
  violate s l (if reservedMap a then Viol.reserved else Viol.notServed) a write

/-- A 64-bit write of a register whose reserved fields are `rsv`: served under R296, counted when a
reserved bit is set, and then taking its defined fields (R297). -/
def ctlWrite (s : State) (l a : Nat) (rsv : List (Nat × Nat)) (v : Word) (f : State → State) : State :=
  if !arrives s l then s
  else if !serves s l a then refuseAccess s l a true
  else f (if (v &&& maskOf rsv) != 0 then violate s l Viol.reservedBits a true else s)

/-- A 64-bit write of a doorbell: one that names no object of the instance, or sets a reserved bit, is
ignored whole (R297). -/
def ctlDoorbell (s : State) (l a : Nat) (held : Bool) (rsv : List (Nat × Nat)) (v : Word) (f : State → State) : State :=
  if !arrives s l then s
  else if !serves s l a then refuseAccess s l a true
  else if !held then violate s l Viol.doorbell a true
  else if (v &&& maskOf rsv) != 0 then violate s l Viol.reservedBits a true
  else f s

/-! ### Mailbox doors -/

/-- Number of a door in the table of doors: its window, or 128 for the I3C door. -/
def doorKey : Door → Nat
  | .window i => i.toNat
  | .i3c => 128

/-- Instance of a door: the I3C door is a manager door (R303). -/
def doorInst : Door → Nat
  | .window i => i.toNat
  | .i3c => 0

/-- Word `w` of the request at a door. -/
def reqWord (s : State) (d : Door) (w : Nat) : Word := (s.door (doorKey d)).req.findD w 0

/-- The 512 bytes of the request at a door. -/
def reqBytes (s : State) (d : Door) : List Byte :=
  (List.range 64).flatMap (fun w => leBytes 8 (reqWord s d w).toNat)

/-- A little-endian field of the request. -/
def reqFld (s : State) (d : Door) (off n : Nat) : Nat := leAt (reqBytes s d) off n

/-- CMD of the request at a door (R303). -/
def reqCmd (s : State) (d : Door) : Nat := fld (reqWord s d 0) 15 0

/-- Write an answer (R303): MBX_RESP, BUSY and DONE, TAG, and the vector of a window's door. -/
def answer (s : State) (d : Door) (status : Nat) (ws : List Word) : State :=
  let k := doorKey d
  let tag := fld (reqWord s d 0) 63 32
  let x := s.door k
  let s := s.modDoor k (fun x => { x with
    resp := ⟨(List.range (ws.length + 1)).zip (reg [(63, 32, tag), (7, 0, status)] :: ws)⟩
    busy := false, done := true, tag := tag })
  if x.vecEn && d != .i3c then fireVector s x.vector else s

/-- A GO at a door (R303, R305): while BUSY it is ignored and counted; otherwise the door turns BUSY
and the request is refused, or run. -/
def mailGate (s : State) (d : Door) (mgrOnly : Bool) (versions : List Nat) (run : State → State) : State :=
  let k := doorKey d
  if (s.door k).busy then s.modDoor k (fun x => { x with ignored := wrap 16 (x.ignored + 1) }) else
  let s := s.modDoor k (fun x => { x with busy := true, done := false })
  let w := reqWord s d 0
  if reqCmd s d ≠ 0x0001 ∧ (s.inst (doorInst d)).st ≠ .active then answer s d St.flushed []
  else if fld w 31 24 ≠ 0 ∨ !versions.contains (fld w 23 16) ∨ (mgrOnly ∧ doorInst d ≠ 0)
    then answer s d St.malformed []
  else run s

/-- A command's GO arrives at a door: over a link that R296 serves, or through the I3C port once the
doors are open. The row of a command is the GO of a request that names it (log entry 21). -/
def mailRow (s : State) (d : Door) (l cmd : Nat) (run : State → State) : State :=
  let a := winAddr (doorInst d) 0x7240
  if (match d with | .window _ => !arrives s l | .i3c => !s.inService) then s
  else if (match d with | .window _ => !serves s l a | .i3c => false) then refuseAccess s l a true
  else if reqCmd s d ≠ cmd then s
  else run s

/-- Answer with a status, after a change of state. -/
def answerSt (d : Door) (r : State × Nat) : State := answer r.1 d r.2 []

end Sys2Proof.Machine
end

