-- ==== Sys2Proof/Machine/RecoveryOps.lean ====
section
/-! DEFINITION. Shared operations of recovery (chapter 13) and of the collective slots they act on:
descriptors taking effect and leaving (R187, R333), the end of a step (R185, R187, R188), alternates
recorded and triggered (R329, R330, R332, R333), and a fabric port going DOWN (R195, R332). -/

namespace Sys2Proof.Machine

/-- ENGINE of an entry that a task of the control cores raises (R324, R336). -/
def taskEngine (task : Nat) : Nat := 128 + (Config.taskCore task).toNat

/-- FLT_CFG.DECIDE_MS: 1 to 100, others taken as 5 (R338). -/
def decideMs (s : State) : Nat := let v := fld s.flt.cfg 31 24; if 1 ≤ v ∧ v ≤ 100 then v else 5

/-! ### Descriptors on slots -/

/-- Bytes of a descriptor's residual area (R158). -/
def residualBytes (d : Descriptor) : Nat := if d.efBase = 0 then 0 else 8 * d.maxElems

/-- Trees and rings use streams under the numbers `stream * 2 + tree` (log entry 22). -/
def streamKeys : List Nat := List.range 16

/-- The credit counter of a stream (R180). -/
def creditId (d : Descriptor) (n : Nat) : Nat := (d.creditBase + n) % 2 ^ 21

/-- A descriptor takes effect on a slot: the residual area is zeroed, the next STEP is 0, and each
stream counts from what its credit counters hold (R180, R187, R333). -/
def takeDescriptor (s : State) (n : Nat) (d : Descriptor) : State :=
  let s := hbmZero s d.efBase (residualBytes d)
  let outs : Tbl OutStream := ⟨streamKeys.map (fun k =>
    let c := objVal s (creditId d (k / 2))
    (k, { (default : OutStream) with sent := c, arrivedAck := c, consumedAck := c }))⟩
  let ins : Tbl InStream := ⟨streamKeys.map (fun k =>
    let c := objVal s (creditId d (8 + k / 2))
    (k, { (default : InStream) with arrived := c, consumed := c, base := c }))⟩
  s.modSlot n (fun x => { x with
    cond := .idle, desc := some d, cfg := s.coll.cfg, nextStep := 0, stepsOk := 0, run := none, waiting := none, oldStep := false, outs := outs, ins := ins })

/-- A slot loses its descriptor (R187). -/
def freeSlot (s : State) (n : Nat) : State :=
  s.modSlot n (fun x => { x with cond := .free, desc := none, run := none, waiting := none, oldStep := false,
                                 outs := Tbl.empty, ins := Tbl.empty })

/-- An item that waited for the slot's step to end takes effect (R333, R51). -/
def settleSlot (s : State) (n : Nat) : State :=
  match (s.slot n).run, (s.slot n).waiting with
  | none, some (.descriptor d) => takeDescriptor s n d
  | none, some (.endSlot _) => freeSlot s n
  | _, _ => s

/-! ### Alternates -/

/-- The entry of the active image for an alternate. -/
def altEnt (s : State) (alt : Nat) : Option AltEnt :=
  match s.plans.active with
  | none => none
  | some p => p.alts.find? (fun a => a.alt == alt)

/-- Number of a record: alternates of the next plan are kept apart until adoption (R330). -/
def altKey (alt : Nat) (next : Bool) : Nat := alt + (if next then 65536 else 0)

/-- A notice of an alternate on one port (R330): HOPS falls by one when a received notice is forwarded. -/
def noticeOn (alt : Nat) (r : Alt) (s : State) (p : Nat) : State :=
  sendCtl s p (.notice (BitVec.ofNat 16 alt) (BitVec.ofNat 64 r.e)
    (BitVec.ofNat 8 (if r.arrPort = 16 then r.hops else r.hops - 1)) (BitVec.ofNat 18 r.origin))

/-- Send a notice of an alternate on every fabric port that is UP but the one it came in on; one received
with HOPS 0 is not forwarded (R330). -/
def sendNotice (s : State) (alt : Nat) (r : Alt) : State :=
  if r.hops = 0 ∧ r.arrPort ≠ 16 then s else
  forEach ((List.range 16).filter (fun p => fabUp s p && p != r.arrPort)) s (noticeOn alt r)

/-- Ports and circuits that an alternate's items change or drop. -/
def altCircuits (a : AltEnt) : List (Nat × Nat) :=
  a.items.filterMap (fun i => match i with
    | .circuit c => some (c.port, c.circuit)
    | .dropCircuit p c => some (p, c)
    | _ => none)

/-- Unbind the QP or stream that sends on a circuit (R332). -/
def unbindCircuit (s : State) (c : Nat × Nat) : State :=
  match circuitEnt s c.1 c.2 with
  | none => s
  | some e =>
    if e.txKind = 1 then s.modQp (e.txArg % 2 ^ 20) (fun k => { k with unbound := true })
    else if e.txKind = 2 then s.modSlot (e.txArg % 64) (fun x => { x with
      outs := x.outs.modify (e.txArg / 256 % 8 * 2) (fun o => { o with unbound := true }) })
    else s

/-- Record an alternate at the earliest E triggered or received, sending its notice (R330); a record
applied or refused stays as it is.  At most 4,096 alternates are recorded per plan. -/
def recordAlt (s : State) (alt : Nat) (next : Bool) (planId : Word) (e origin hops arrPort : Nat) : State :=
  let k := altKey alt next
  let newer := match s.flt.alts.find k with
    | some r => r.cond == .pending && decide (e < r.e)
    | none => decide ((s.flt.alts.keys.filter (fun n => decide (n ≥ 65536) == next)).length < 4096)
  if !newer then s else
  let r : Alt := { cond := .pending, e := e, origin := origin, hops := hops, arrPort := arrPort, sends := 1,
                   lastSend := s.now, planId := planId }
  let first := (s.flt.alts.find k).isNone
  let s := s.modFlt (fun f => { f with alts := f.alts.put k r })
  let s := sendNotice s alt r
  if next then s
  else match altEnt s alt with
    | some a => if a.kind = 0 ∧ first then forEach (altCircuits a) s unbindCircuit else s
    | none => s

/-- The decision point of an alternate triggered at `t` (R329). -/
def decisionPointOf (s : State) (p : Plan) (t : Nat) : Nat :=
  s.plans.activeF + ceilDiv (t + decideMs s * 1000000 - s.plans.activeF) p.altPeriod * p.altPeriod

/-- Trigger an alternate of the active plan here, at time `t` (R329, R330). -/
def triggerAlt (s : State) (a : AltEnt) (t : Nat) : State :=
  match s.plans.active with
  | none => s
  | some p => recordAlt s a.alt false p.planId (decisionPointOf s p t) (nodeId s) (hopLimit s) 16

/-- A fabric port is DOWN while a plan is active: its LINK alternates are triggered (R332). -/
def linkTriggered (s : State) (port t : Nat) : State :=
  match s.plans.active with
  | none => s
  | some p => forEach (p.alts.filter (fun a => a.kind == 0 && a.trigger == port)) s (fun s a => triggerAlt s a t)

/-- A fabric-mode link goes DOWN (R195): what it holds is lost, the fault is logged, and LINK
alternates are triggered (R332). -/
def portDown (s : State) (p : Nat) (discardQueues : Bool) : State :=
  linkTriggered (fabLinkFault (fabDown s p discardQueues) p) p s.now

/-- Slots that an alternate's items name. -/
def altSlots (a : AltEnt) : List Nat :=
  a.items.filterMap (fun i => match i with
    | .descriptor d => some d.slot
    | .endSlot n => some n
    | _ => none)

/-- A failed step of a slot triggers the MEMBER alternates of the lost member (R333). -/
def memberTriggered (s : State) (n member : Nat) : State :=
  match s.plans.active, (s.slot n).desc with
  | some p, some d =>
    let node := d.members.getD member (2 ^ 18)
    forEach (p.alts.filter (fun a => a.kind == 1 && a.subject % 2 ^ 18 == node && (altSlots a).contains n)) s
      (fun s a => triggerAlt s a s.now)
  | _, _ => s

/-- Let go what a running step holds on its slot: pieces not acknowledged, data staged. -/
def dropRun (x : Slot) : Slot :=
  { x with
    run := none
    outs := x.outs.mapCells (fun _ o => { o with pieces := [], ready := [] })
    ins := x.ins.mapCells (fun _ i => { i with partialPiece := default, staged := [], carry := [] }) }

/-- What a step that faults leaves undefined: DST and the residual area (R187). -/
def undefineStep (s : State) (r : Run) (d : Option Descriptor) : State :=
  let s := match r.dst with | some x => undefineFrom s x 0 | none => s
  match d with | some d => undefineHbm s d.efBase (residualBytes d) | none => s

/-- The step of a slot ends with a status other than OK (R187, R188): the entry ends and the slot enters FAULT. Unless it
is flushed, DST and the residual area are undefined and the fault is logged; a lost member triggers its alternates
(R333). -/
def endStep (s : State) (n status level member : Nat) : State :=
  match (s.slot n).run with
  | none => s
  | some r =>
    let d := stepDetail level member
    let owner := match (s.slot n).desc with | some x => x.owner | none => 0xFF
    let s := s.modSlot n (fun x => { dropRun x with
      cond := .fault, lastStatus := status, detail := d, faults := wrap 32 (x.faults + 1) })
    let s := if status = St.flushed then s
      else raiseFault (undefineStep s r (s.slot n).desc) 0x08 status 97 owner n d
    let s := endEntry s r.q r.seq status 0 d
    let s := if status = St.retryExhausted ∨ status = St.waitTimeout then memberTriggered s n member else s
    settleSlot s n

end Sys2Proof.Machine
end

