-- ==== Sys2Proof/Machine/CouchOps.lean ====
section
/-! DEFINITION. Shared operations of couch regions (R262 to R267): the copy, its messages and its end,
and the restore of a region from its partner (R334). -/

namespace Sys2Proof.Machine

/-- A blank message of the device itself on a couch QP. -/
def couchMsg (kind : MsgKind) (owner : MsgOwner) (len raddr rkey : Nat) (xlat : Option Xlat) (bytes : List Byte) : Msg :=
  { msn := 0, kind := kind, owner := owner, psn := none, span := 1, len := len, raddr := BitVec.ofNat 64 raddr,
    rkey := rkey, signal := 0, radd := 0, sync := default, xlat := xlat, inlineData := bytes, placed := 0,
    passed := false, held := false, timerAt := none, k := 0 }

/-- Place of a message among those that start on a QP in one tick (R119): the queues by number, then the device's. -/
def startRank (m : Msg) : Nat := match m.owner with | .entry q _ => q | _ => 2 ^ 19

/-- A message takes its turn on a QP: one that comes after that of a later queue starts in the next tick (R119). -/
def startTurn (s : State) (q : Nat) (m : Msg) : State :=
  let l := (s.qp q).lastStart
  let s := if l.1 = s.now ∧ startRank m < l.2 then endTick s else s
  s.modQp q (fun k => { k with lastStart := (s.now, startRank m) })

/-- Start a message on a QP. An entry that started before its QP left OPEN goes on while the QP drains (R149); on a QP
in any other state it ends FLUSHED (R154). -/
def startOnQp (s : State) (q : Nat) (m : Msg) : State :=
  if (s.qp q).st == .opened || (s.qp q).st == .draining then startMsg (startTurn s q m) q m
  else tellOwner s m St.flushed 0 0

/-- A range of HBM as a held range that names no segment. -/
def devRange (a n : Nat) : Xlat := ⟨0x80, 0, false, 0, a, n, 0⟩

/-- Change the copy in progress on a region. -/
def modRun (s : State) (r : Nat) (f : CouchRun → CouchRun) : State :=
  s.modCouch r (fun c => { c with run := c.run.map f })

/-- Device address of a generation of an entry. -/
def genBase (e : CouchEnt) (g : Nat) : Nat := (if g = 0 then e.gen0 else e.gen1) * gran

/-- The commit of a copy has been sent: none of its messages still waits to go (R267). -/
def commitOut (s : State) (r : Nat) (c : Couch) (u : CouchRun) : Bool :=
  u.commitSent && !(s.msgs c.ent.qp).any (fun m => m.owner == .couch r && isCommit m && !msgSent (s.qp c.ent.qp) m)

/-- A copy ends with a status other than OK (R267): before its commit was sent the region is as before
the copy; afterwards it is in DOUBT, and that is logged (R323). -/
def couchFail (s : State) (r : Nat) (e : Ending) : State :=
  match s.couch.find r with
  | none => s
  | some c => match c.run with
    | none => s
    | some u =>
      let out := commitOut s r c u
      let s := s.modCouch r (fun c => { c with
        run := none
        cond := if out || u.resolving then .doubt else if c.validGen.isSome then .valid else .none
        doubtSeq := if out then u.copySeq else c.doubtSeq
        doubtGen := if out then u.gen else c.doubtGen })
      let s := endEntry s u.q u.seq e.status 0 e.detail
      if out then raiseFault s 0x0A e.status (engineOf u.q) c.ent.owner r (BitVec.ofNat 32 u.copySeq) else s

/-- Send one granule of the new generation to the partner, with the lines as they were read from the source (R264). -/
def couchSend (e : CouchEnt) (r g : Nat) (bytes : List Byte) (s : State) (i : Nat) : State :=
  startOnQp (modRun s r (fun u => { u with open_ := u.open_ + 1 })) e.qp
    (couchMsg .write (.couch r) gran (g * 2 ^ 60 + i * gran) e.key none (slice bytes (i * gran) gran))

/-- The generation a copy writes: the one that is not valid (R264). -/
def couchGen (c : Couch) : Nat := match c.validGen with | some 0 => 1 | _ => 0

/-- Read the source of a copy once, write local generation `g` and send it (R264). At a word that cannot be read the copy
ends, once what was sent before it has ended; the lines before that block are placed (R252). -/
def couchSpread (s : State) (r : Nat) (c : Couch) (g : Nat) : State :=
  let x := hbmRead s (gran * c.ent.source) (gran * c.ent.length)
  let s := forEach (List.range (x.2.2.length / gran)) (hbmStore x.1 (genBase c.ent g) x.2.2) (couchSend c.ent r g x.2.2)
  match x.2.1 with
  | .failed st d => modRun s r (fun u => { u with failed := match u.failed with | some e => some e | none => some ⟨st, 0, d⟩ })
  | .done => s

/-- Steps 1 and 2 of R264: a copy begins. -/
def couchBegin (s : State) (r : Nat) : State :=
  match s.couch.find r with
  | none => s
  | some c => couchSpread (s.modCouch r (fun c => { c with
      cond := .copying, lastSeq := c.lastSeq + 1
      run := c.run.map (fun u => { u with gen := couchGen c, copySeq := c.lastSeq + 1 }) })) r c (couchGen c)

/-- Step 3 of R264: the commit. While it has not left, a failure finds it not sent (`commitOut`). -/
def couchCommit (s : State) (r : Nat) (c : Couch) (u : CouchRun) : State :=
  startOnQp (modRun s r (fun u => { u with open_ := 1, commitSent := true })) c.ent.qp
    (couchMsg .write (.couch r) 16 (2 * 2 ^ 60) c.ent.key none
      (leBytes 8 u.copySeq ++ leBytes 1 u.gen ++ leBytes 7 0))

/-- Step 4 of R264: the commit is acknowledged. -/
def couchDone (s : State) (r : Nat) (u : CouchRun) : State :=
  let s := s.modCouch r (fun c => { c with run := none, cond := .valid, validGen := some u.gen, validSeq := u.copySeq })
  endEntry s u.q u.seq St.ok (BitVec.ofNat 64 u.gen) 0

/-- Move a copy on once its messages have ended: resolve, copy, commit, finish, or fail. -/
def couchStep (s : State) (r : Nat) : State :=
  match s.couch.find r with
  | none => s
  | some c => match c.run with
    | none => s
    | some u =>
      if u.open_ ≠ 0 then s
      else match u.failed with
        | some e => couchFail s r e
        | none =>
          if u.resolving then s
          else if u.copySeq = 0 then couchBegin s r
          else if !u.commitSent then couchCommit s r c u
          else couchDone s r u

/-- A copy goes through at most these many stages without waiting. -/
def driveCouch (s : State) (r : Nat) : State := couchStep (couchStep (couchStep (couchStep s r) r) r) r

/-- Move on every copy in progress. -/
def driveCouches (s : State) : State := forEach s.couch.keys s driveCouch

/-- COUCH_COPY starts on a region (R264, R267). A region that has left the couch table since issue is a PLAN_MISMATCH,
which is terminal for the queue (R78). -/
def couchOpen (s : State) (r q seq : Nat) : State :=
  match s.couch.find r with
  | none => haltStarted s q seq St.planMismatch 0
  | some c =>
    let doubt := c.cond == .doubt
    let s := s.modCouch r (fun c => { c with
      cond := .copying
      run := some ⟨q, seq, 0, 0, false, none, if doubt then 1 else 0, doubt⟩ })
    let s := if doubt then startOnQp s c.ent.qp (couchMsg .read (.couch r) 16 (2 * 2 ^ 60) c.ent.key none []) else s
    driveCouch s r

/-! ### Restore (R334) -/

/-- The entry of a SOURCE region of a plan. -/
def sourceEnt (p : Plan) (r : Nat) : Option CouchEnt := p.couch.find? (fun c => c.region == r && c.role == 0)

/-- The plan that a restore serves: the next plan. -/
def restoreEnt (s : State) (r : Nat) : Option CouchEnt :=
  match s.plans.next with
  | some p => sourceEnt p r
  | none => none

/-- Change the restore of a region. -/
def modRestore (s : State) (r : Nat) (f : Restore → Restore) : State :=
  s.modFlt (fun x => { x with restoring := x.restoring.modify r f })

/-- Read the partner's commit record (R334 step 2). -/
def restoreBegin (s : State) (r : Nat) (e : CouchEnt) : State :=
  startOnQp (modRestore s r (fun u => { u with phase := 1, open_ := 1 })) e.qp
    (couchMsg .read (.restore r) 16 (2 * 2 ^ 60) e.key none [])

/-- Largest message of a restore, 1 GiB (R334). -/
def restoreChunk : Nat := 2 ^ 30

/-- Read one message of the generation the record names, into the SOURCE range (R334 step 3). -/
def restorePiece (r g : Nat) (e : CouchEnt) (s : State) (i : Nat) : State :=
  let len := min restoreChunk (e.length * gran - i * restoreChunk)
  startOnQp s e.qp (couchMsg .read (.restore r) len (g * 2 ^ 60 + i * restoreChunk) e.key
    (some (devRange (e.source * gran + i * restoreChunk) len)) [])

/-- Read the whole generation (R334 step 3). -/
def restoreRead (s : State) (r : Nat) (e : CouchEnt) (g : Nat) : State :=
  let n := ceilDiv (e.length * gran) restoreChunk
  forEach (List.range n) (modRestore s r (fun u => { u with phase := 2, open_ := n })) (restorePiece r g e)

/-- Move a restore on: from its QP's opening to the record, and from a record that names a generation to
its data. -/
def driveRestore (s : State) (r : Nat) : State :=
  match s.flt.restoring.find r, restoreEnt s r with
  | some u, some e =>
    if u.phase = 0 then (if (s.qp e.qp).st == .opened then restoreBegin s r e else s)
    else if u.phase = 1 ∧ u.open_ = 0 ∧ u.bad.isNone ∧ leAt u.record 0 8 ≠ 0 then restoreRead s r e (leAt u.record 8 1)
    else s
  | _, _ => s

/-- Move on every restore in progress, in ascending region. -/
def driveRestores (s : State) : State := forEach s.flt.restoring.keys s driveRestore

end Sys2Proof.Machine
end

