-- ==== Sys2Proof/Machine/ConnOps.lean ====
section
/-! DEFINITION. Shared operations of opening, draining and closing a QP (R145 to R149, R154), and the
end of an entry under ENTRY_COMPLETE (R67, R75). -/

namespace Sys2Proof.Machine

/-! ### Draining and closing -/

/-- A millisecond in ns. -/
def msNs : Nat := 1000000

/-- Send DISC_REQ (R149). -/
def sendDiscReq (s : State) (q : Nat) : State :=
  (sendConn s q 0x24 (plainBlock s q)).modQp q (fun k => { k with lastTry := s.now })

/-- A started entry has still to start its message on a QP. -/
def startsOn (s : State) (q : Nat) : Bool :=
  s.queues.vals.any (fun w => w.started.any (fun x => !x.ran && usesQp x.entry && x.entry.qp == q))

/-- A DRAINING QP whose messages have all finished answers its peer's DISC_REQ and is CLOSED, or sends
its own DISC_REQ (R149). -/
def drainStep (s : State) (q : Nat) : State :=
  let k := s.qp q
  if k.st != .draining || !k.msgs.isEmpty || startsOn s q then s
  else if k.peerDisc then qpClosed (sendConn s q 0x25 (plainBlock s q)) q
  else if k.lastTry = 0 then sendDiscReq s q
  else s

/-- An OPEN QP enters DRAINING with a drain bound in µs (R149, R154): held waits of its responder side
are discarded, started messages continue. -/
def drainQp (s : State) (q us : Nat) (peerDisc : Bool) : State :=
  let s := (discardHeld s q).modQp q (fun k => { k with
    st := .draining, drainAt := s.now + us * 1000, drainUs := us, peerDisc := peerDisc, lastTry := 0 })
  drainStep s q

/-- QP_CLOSE, or the instance entering CALMING (R149, R154): an OPEN QP drains, an OPENING one or one
in ERROR sends DISC_REQ once and is CLOSED. -/
def closeQp (s : State) (q us : Nat) : State :=
  match (s.qp q).st with
  | .opened => drainQp s q us false
  | .opening => qpClosed (sendConn s q 0x24 (plainBlock s q)) q
  | .error => qpClosed (sendConn s q 0x24 (plainBlock s q)) q
  | .draining => s
  | .closed => s

/-- ZTP_ACK.DRAIN, µs (R155). -/
def drainBoundUs (i : QpIdent) : Nat := fld i.ack 47 32

/-! ### Opening -/

/-- Addresses of an end, compared in order: node, instance, QP (R146). -/
def endBefore (a b : Nat × Nat × Nat) : Bool :=
  decide (a.1 < b.1) || (a.1 == b.1 && (decide (a.2.1 < b.2.1) || (a.2.1 == b.2.1 && decide (a.2.2 < b.2.2))))

/-- A QP begins setup (R145, R146, R154): identity loaded, counts at their start, and the active end
sends CONN_REQ. -/
def openQp (s : State) (q : Nat) (i : QpIdent) : State :=
  let act := endBefore (nodeId s, i.owner, q) (i.peerNode, i.peerInst, i.peerQp)
  let n := s.tp.uses
  let tag := let t := Config.connTag n; if t = 0 then 1 else t
  let i := { i with active := act, conn := if act then tag else 0 }
  let start := (Config.startPsn n).toNat
  let s := { s with tp := { s.tp with uses := n + 1 } }
  let s := s.modQp q (fun k => { Qp.reset with
    st := .opening, ident := i, startPsn := start, nextPsn := start, unacked := start, sendPsn := start
    sentTo := start, cc0 := s.tp.cc0, cc1 := s.tp.cc1
    applied := 2 ^ 32 - 1, rate := lineRate s i, setupAt := s.now, lastTry := s.now
    resident := k.resident, lastUse := n })
  if act then sendConn s q 0x21 (connBlock s q) else s

/-- A QP is OPEN (R154): its rate starts at the line rate of its port (R138). -/
def qpOpened (s : State) (q : Nat) : State :=
  s.modQp q (fun k => { k with st := .opened, rate := lineRate s k.ident, periodAt := s.now, readyAt := s.now })

/-! ### Completing entries -/

/-- SIG_LOCAL at a completion with OK (R75): the counter takes LADD while its granule is a live
counter granule (R114). -/
def signalLocal (s : State) (q : Nat) (e : Entry) : State :=
  let g := s.granule (granOf e.lcnt)
  if g.orphan || g.semMode then s else addCounter s e.lcnt e.ladd (localRank q)

/-- An entry that has ended completes (R67): SIG_LOCAL, its count in the group, its translations, and
the head. -/
def finishEntry (s : State) (q seq : Nat) : State :=
  let s := catchUp s
  match startedAt s q seq with
  | none => s
  | some x => match x.ending with
    | none => s
    | some e =>
      let s := if e.status = St.ok ∧ x.entry.sigLocal then signalLocal s q x.entry else s
      completeEntry s q x e

end Sys2Proof.Machine
end

