-- ==== Sys2Proof/Machine/MeterOps.lean ====
section
/-! DEFINITION. Shared operations of the metering island (chapter 15): what an instance holds by the
millisecond, watermark records, and where they go (R363 to R367). -/

namespace Sys2Proof.Machine

/-- FAB_NODE.NODE, zero while SET = 0. -/
def reportedNode (s : State) : Nat := if bit s.routing.node 18 then nodeId s else 0

/-! ### What is held (R363) -/

/-- Granules of HBM among a list of claims or resources. -/
def granulesIn (cs : List Claim) : Nat := cs.foldl (fun a c => if c.kind = 0x06 then a + c.count else a) 0

/-- Granules of 2 MiB an instance holds, from the pool and by plan claims. -/
def granulesHeld (s : State) (i : Nat) : Nat :=
  granulesIn (s.inst i).res + granulesIn ((activeClaims s ++ s.plans.oldClaims).filter (fun c => c.owner == i))

/-- Granules a meter set reports: for the device, those of the reserved area (R246). -/
def granulesOf (s : State) (i : Nat) : Nat := if i = 0xFF then 1536 else granulesHeld s i

/-- Instances that hold or may hold something now. -/
def meteredInsts (s : State) : List Nat :=
  (List.range 128).filter (fun i => (s.inst i).st != .free || decide (granulesHeld s i ≠ 0))

/-- Count the granules held over each millisecond that has ended (R363): done before what is held
changes, and before a record. -/
def countGranules (s : State) : State :=
  if !s.mtr.running then s else
  let n := s.now / 1000000 - s.mtr.gmsAt
  let s := if n = 0 then s else forEach (meteredInsts s ++ [0xFF]) s (fun s i =>
    s.modMeter i (fun m => { m with hbmGms := wrap 64 (m.hbmGms + n * granulesOf s i) }))
  s.modMtr (fun m => { m with gmsAt := max m.gmsAt (s.now / 1000000) })

/-! ### Records (R365) -/

/-- ISLAND_BOOT (R362). -/
def islandBoot (s : State) : Nat := if s.mtr.fuses ≥ 1024 then 0xFFFFFFFF else s.mtr.fuses

/-- 64 bytes of a signature. -/
def signature (key : Nat) (bs : List Byte) : List Byte := (Config.sm2Sign key bs ++ List.replicate 64 0).take 64

/-- The signed bytes of a record. -/
def recordBody (w : Watermark) : List Byte :=
  [0x5A, 0x4E, 0x57, 0x4D] ++ leBytes 2 1 ++ leBytes 2 256 ++ leBytes 4 0x9768 ++ leBytes 4 w.node
    ++ beBytes 16 Config.serial.toNat ++ leBytes 4 w.islandBoot ++ leBytes 1 w.inst
    ++ leBytes 1 (w.timeDoubt.toNat + 2 * w.isFinal.toNat + 4 * w.spot.toNat) ++ leBytes 2 0
    ++ leBytes 4 w.gen ++ leBytes 4 w.periodS ++ leBytes 8 w.seq ++ leBytes 8 w.time
    ++ leBytes 8 w.m.netTx ++ leBytes 8 w.m.served ++ leBytes 8 w.m.board ++ leBytes 8 w.m.press
    ++ leBytes 8 w.m.hbmGms ++ leBytes 8 w.m.energy ++ leBytes 8 w.m.pkg ++ leBytes 4 w.granules ++ leBytes 4 0
    ++ beBytes 32 w.prevHash.toNat ++ beBytes 32 w.nonce.toNat

/-- The 256 bytes of a record. -/
def markBytes (w : Watermark) : List Byte := recordBody w ++ signature 2 (recordBody w)

/-- A record of a meter set now (R365). -/
def makeRecord (s : State) (i : Nat) (doubt isFinal spot : Bool) (nonce : BitVec 256) : Watermark :=
  { node := reportedNode s, islandBoot := islandBoot s, inst := i, timeDoubt := doubt, isFinal := isFinal
    spot := spot, gen := if i = 0xFF then 0 else s.mtr.gen.findD i 0, periodS := s.mtr.period
    seq := s.mtr.seq + 1, time := s.now, m := s.meter i, granules := granulesOf s i
    prevHash := if spot then 0 else match s.mtr.prev.find i with | some p => sm3 (markBytes p) | none => 0
    nonce := nonce }

/-- Records the island's SRAM and the ring of HBM hold (R367). -/
def sramSize : Nat := 256
def ringSize : Nat := 16384

/-- The ring can be written: HBM serves (R367). -/
def ringServes (s : State) : Bool := s.inService

/-- Keep a record in SRAM, and put it into the ring unless it is a SPOT record; while HBM does not serve it,
or while older records are still held back, it is held back, as long as SRAM keeps it (R367, R368). -/
def keepRecord (s : State) (w : Watermark) : State :=
  let direct := ringServes s && s.mtr.ringHeld.isEmpty
  s.modMtr (fun m =>
    let sram := (w :: m.sram).take sramSize
    { m with
      seq := w.seq
      prev := if w.spot then m.prev else m.prev.put w.inst w
      sram := sram
      ring := if !w.spot && direct then (w :: m.ring).take ringSize else m.ring
      ringHeld := (if !w.spot && !direct then m.ringHeld ++ [w] else m.ringHeld).filter
        (fun h => sram.any (fun k => k.seq == h.seq)) })

/-- Write a record of a meter set. -/
def writeRecord (s : State) (i : Nat) (doubt isFinal : Bool) : State :=
  keepRecord s (makeRecord s i doubt isFinal false 0)

/-- LOCK is not LOCKED (R366). -/
def timeDoubt (s : State) : Bool := s.time.lock != .locked

/-- An instance enters RESETTING, or a warm reset takes it: its FINAL record (R366). -/
def finalRecord (s : State) (i : Nat) : State :=
  if !s.mtr.running then s else writeRecord (countGranules s) i (timeDoubt s) true

/-- An instance number becomes ACTIVE, or instance 0 meets a boot: a new generation (R364). -/
def newGeneration (s : State) (i : Nat) : State :=
  if !s.mtr.running then s else s.modMtr (fun m => { m with
    gen := m.gen.modifyD i 0 (· + 1)
    notFree := if m.notFree.contains i then m.notFree else i :: m.notFree })

end Sys2Proof.Machine
end

