-- ==== Sys2Proof/Machine/InstOps.lean ====
section
/-! DEFINITION. Shared operations of the life of an instance: calm (R300, R301), reset (R302), and the
return of its resources. -/

namespace Sys2Proof.Machine

/-- The created queues and rings of an instance. -/
def instQueues (s : State) (i : Nat) : List Nat := s.queues.keys.filter (fun q => match s.queues.find q with
  | some w => w.inst == i | none => false)
def instRings (s : State) (i : Nat) : List Nat := s.rings.keys.filter (fun r => match s.rings.find r with
  | some x => x.inst == i | none => false)

/-- QPs of an instance that are not CLOSED. -/
def instQps (s : State) (i : Nat) : List Nat :=
  s.qps.keys.filter (fun q => (s.qp q).ident.owner == i && (s.qp q).st != .closed)

/-- Something of a calming instance still runs (R300): an entry of its queues, or a QP that is OPENING,
OPEN or DRAINING. Its collective steps and couch copies are entries of its queues. -/
def instBusy (s : State) (i : Nat) : Bool :=
  (instQueues s i).any (fun q => match s.queues.find q with | some w => !w.started.isEmpty | none => false)
    || (instQps s i).any (fun q => (s.qp q).st != .error)

/-- Clear a vector at the reset of its holder (R302 step 5). -/
def clearVector (s : State) (v : Nat) : State :=
  let x := s.vec v
  let s := if x.pending then s.modLink x.link (fun k => { k with intDropped := wrap 8 (k.intDropped + 1) }) else s
  s.modVec v (fun y => { y with en := false, pending := false })

/-- The first tick of RESETTING (R302), with the meter's FINAL record (R366). -/
def beginReset (s : State) (i : Nat) : State :=
  let s := finalRecord (s.arriveAt (s.now + 16)) i
  let s := forEach ((List.range 128).filter (fun g => granOwner s g == some i)) s orphanGranule
  let s := forEach (instQps s i) s qpClosed
  let s := s.modWin i (fun w => { w with segs := Tbl.empty })
  let s := forEach (instQueues s i) s (fun s q => { unwatch s q with queues := (unwatch s q).queues.erase q })
  let s := forEach (instRings s i) s (fun s r => { s with rings := s.rings.erase r })
  let s := forEach (s.vectors.keys.filter (fun v => covers (s.inst i).res 0x0C v)) s clearVector
  s.modInst i (fun x => { x with st := .resetting, res := x.res.filter (fun c => c.kind == 0x06) })

/-- An instance that is CALMING and has nothing left running becomes CALM, and is reset at once under
INST_REMOVE (R300). -/
def reachCalm (s : State) (i : Nat) : State :=
  if (s.inst i).st == .calming && !instBusy s i then
    let s := s.modInst i (fun x => { x with st := .calm })
    if (s.inst i).removing then beginReset s i else s
  else s

/-- Look at every instance that is CALMING: what it waited for may have ended. -/
def reachCalms (s : State) : State :=
  forEach (s.insts.keys.filter (fun i => (s.inst i).st == .calming)) s reachCalm

/-- An instance enters CALMING (R301). -/
def enterCalming (s : State) (i : Nat) (removing : Bool) : State :=
  let s := s.modInst i (fun x => { x with st := .calming, removing := removing, calmAt := s.now + x.drainUs * 1000 })
  let s := forEach (instQueues s i) s (fun s q => match s.queues.find q with
    | some w => match w.head with
      | some h => (dropXlats s h.xlats).modQueue q (fun w => { w with head := none })
      | none => s
    | none => s)
  let s := forEach (instQueues s i) s calmQueue
  let s := forEach ((instQps s i).filter (fun q => (s.qp q).st == .opened || (s.qp q).st == .opening)) s
    (fun s q => closeQp s q (s.inst i).drainUs)
  reachCalm s i

/-- End FLUSHED every entry of a queue that still runs, and complete all that have ended (R301). -/
def flushEntries (s : State) (q : Nat) : State :=
  match s.queues.find q with
  | none => s
  | some w =>
    let s := forEach w.started s (fun s x => endEntry s q x.seq St.flushed 0 (entryDetail s x.entry 0))
    forEach w.started s (fun s x => finishEntry s q x.seq)

/-- The drain bound of a calming instance is reached (R301): what its tick still completes ends as it does, and what then
still runs ends FLUSHED. -/
def instDrained (s : State) (i : Nat) : State :=
  if (s.inst i).st != .calming then s else
  let s := meetTick (s.arriveAt (s.inst i).calmAt)
  let s := forEach ((instQps s i).filter (fun q => (s.qp q).st != .error)) s qpClosed
  let mine := instQueues s i
  let s := forEach s.coll.slots.keys s (fun s n => match (s.slot n).run with
    | some r => if mine.contains r.q then endStep s n St.flushed 0 (match (s.slot n).desc with | some d => d.self | none => 0) else s
    | none => s)
  let s := forEach s.couch.keys s (fun s r => match s.couch.find r with
    | some c => match c.run with
      | some u => if mine.contains u.q then couchFail s r ⟨St.flushed, 0, 0⟩ else s
      | none => s
    | none => s)
  let s := forEach mine s flushEntries
  reachCalm (forEach mine s calmQueue) i

/-- The zeroing of a resetting instance ends (R302): its regions return to the pool and it is FREE. -/
def instZeroed (s : State) (i : Nat) : State :=
  if (s.inst i).st != .resetting then s else
  let s := forEach (s.inst i).res (countGranules s) (fun s c => if c.kind = 0x06 then hbmZero s (c.first * gran) (c.count * gran) else s)
  s.modInst i (fun x => { x with st := .free, res := [], removing := false, drainUs := 0, calmAt := 0 })

/-- After anything that may end messages, entries or QPs, or write memory: copies move on, draining QPs disconnect, heads
that wait for their line or for landing space look again, and calming instances may become CALM; the causes of R326 are
noted. -/
def settle (s : State) : State :=
  let s := driveRestores (driveCouches s)
  let s := forEach (s.qps.keys.filter (fun q => (s.qp q).st == .draining)) s drainStep
  noteCauses (reachCalms (retryHeads (retryEarly s) .landing))

end Sys2Proof.Machine
end

