-- ==== Sys2Proof/Machine/RequestOps.lean ====
section
/-! DEFINITION. Shared operations of the requester (chapter 5): the gates every received packet passes
(R121 to R123, R127 steps 1 to 4, R211), residency of contexts (R151, R152), the next packet to send
(R119, R133, R138), and rate control (R138 to R140). -/

namespace Sys2Proof.Machine

/-! ### Receiving -/

/-- The packet types of R123. -/
def ztpTypes : List Byte := [0x01, 0x02, 0x03, 0x11, 0x12, 0x13, 0x14, 0x15, 0x21, 0x22, 0x23, 0x24, 0x25]

/-- A field marked zero is nonzero (R122), in the headers, in a SYNC block (R124) or in a CONN block (R148). -/
def zeroBroken (p : ZtpPacket) : Bool :=
  p.flagsZero != 0 || p.zero3 != 0 || p.zero1C != 0 || p.aethZero != 0
    || decide (p.dstQp.toNat ≥ 2 ^ 20) || decide (p.srcQp.toNat ≥ 2 ^ 20)
    || p.signal.extractLsb' 21 10 != 0
    || (match p.body with
        | .sync b => decide (b.flags.toNat > 1) || b.zero != 0 || decide (b.id.toNat ≥ 2 ^ 21) || decide (b.op.toNat > 3)
        | .conn c => c.zero06 != 0 || c.flagsZero != 0 || c.zero22 != 0
        | _ => false)

/-- The port whose counters a packet for QP `q` counts in (log entry 18). -/
def arrPort (s : State) (arr : Arrival) (q : Nat) : Nat :=
  match arr.port with | some p => p.toNat | none => qpPort s q

/-- The set of partition keys a packet is checked against: of its port, or set 16 (R211). -/
def arrSet (arr : Arrival) : Nat := match arr.port with | some p => p.toNat | none => 16

/-- Count a packet dropped under R122, R123, R127 step 3 or R146. -/
def staleDrop (s : State) (port : Nat) : State :=
  s.modDie port (fun d => { d with staleDrop := wrap 16 (d.staleDrop + 1) })

/-- Count a packet dropped under R144. -/
def authFail (s : State) (port : Nat) : State :=
  s.modDie port (fun d => { d with authFail := wrap 32 (d.authFail + 1) })

/-- Count a packet dropped under R126, R130 or R137. -/
def outOfWindow (s : State) (port : Nat) : State :=
  s.modDie port (fun d => { d with outOfWindow := wrap 32 (d.outOfWindow + 1) })

/-- A ZTP packet arrives for the row of type `typ`: it leaves the list of those delivered; a wrong
ECRC, a broken zero field or an unlisted type drops it (R121 to R123). A listed type that is not the
row's is no packet of this row: nothing changes (log entry 3). -/
def pktGate (s : State) (arr : Arrival) (p : ZtpPacket) (typ : Byte) (run : State → State) : State :=
  let port := arrPort s arr p.dstQp.toNat
  if !s.inService || (ztpTypes.contains p.typ && p.typ != typ) then s else
  let s := takeInbox s arr (.ztp p)
  if !p.ecrcOk then s.modDie port (fun d => { d with ecrcFail := wrap 16 (d.ecrcFail + 1) })
  else if zeroBroken p || p.typ != typ then staleDrop s port
  else run s

/-- The packet comes from the far end of the QP (R127 step 3): node and QP on the fabric, address and
QP over UDP. -/
def fromPeer (s : State) (arr : Arrival) (k : Qp) (p : ZtpPacket) : Bool :=
  p.srcQp.toNat == k.ident.peerQp
    && (if k.ident.path = 0
        then arr.src.toNat == k.ident.peerNode && (match arr.port with | some x => !isEth s x.toNat | none => true)
        else arr.srcIp == k.ident.dstIp && (match arr.port with | some x => isEth s x.toNat | none => false))

/-- CONN and VER match the context (R122, R123). -/
def connMatch (k : Qp) (p : ZtpPacket) : Bool := p.conn == k.ident.conn && p.ver.toNat == max 1 k.ident.ver

/-- SEALED = 1 exactly when the QP has a cipher, and the tag verifies (R127 step 4). -/
def sealOk (k : Qp) (p : ZtpPacket) : Bool := p.sealedBit == (k.ident.cipher != 0) && (k.ident.cipher == 0 || p.tagOk)

/-- The partition key check at the destination (R211). -/
def pkeyOk (s : State) (arr : Arrival) (k : Qp) (p : ZtpPacket) : Bool :=
  p.pkey.toNat == k.ident.pkey && keyMember s arr.bank (arrSet arr) p.pkey.toNat

/-- A response arrives at the requester (R122, R144, R211). One that its QP does not expect is dropped: a READ_RESP
without a count, for it belongs to no unfinished READ (R137); any other counts in STALE_DROP (log entry 118). -/
def respGate (s : State) (arr : Arrival) (p : ZtpPacket) (typ : Byte) (run : State → Nat → State) : State :=
  pktGate s arr p typ (fun s =>
    let q := p.dstQp.toNat
    let k := s.qp q
    let port := arrPort s arr q
    if !(k.st == .opened || k.st == .draining) || !fromPeer s arr k p || !connMatch k p then (if typ == 0x13 then s else staleDrop s port)
    else if !sealOk k p then authFail s port
    else if !pkeyOk s arr k p then countDrop s (arrSet arr) .pkey
    else settle (run s q))

/-- Answer a packet from its headers alone, without a context (R152, R154): to the node it came from, or
to the address it came from. -/
def replyBack (s : State) (arr : Arrival) (vc : Nat) (a : ZtpPacket) : State :=
  match arr.port with
  | some x =>
    if isEth s x.toNat then
      let k := (s.qp a.srcQp.toNat).ident
      ethZtp s a.srcQp.toNat { k with
        path := if arr.srcIp.toNat % 2 ^ 96 ≠ 0 then 2 else 1, dstIp := arr.srcIp, port := x.toNat, cfg := s.tp.cfg }
        (vc == 3) a
    else inject s arr.src.toNat 1 vc (ztpLen a) a.pkey (.ztp a)
  | none => inject s arr.src.toNat 1 vc (ztpLen a) a.pkey (.ztp a)

/-! ### Residency (R150 to R153) -/

/-- A QP claimed by a plan is pinned from LOADED until its claim is released (R153). -/
def pinned (s : State) (q : Nat) : Bool := covers (activeClaims s ++ s.plans.oldClaims ++ nextClaims s) 0x03 q

/-- A context that may be evicted (R151). -/
def evictable (s : State) (q : Nat) : Bool :=
  let k := s.qp q
  !pinned s q && k.msgs.isEmpty && k.cur.isNone
    && !s.sync.waits.any (fun w => match w.who with | .held x _ => x == q | .queue _ _ => false)

/-- The context least recently used among some. -/
def leastUsed (s : State) : List Nat → Option Nat
  | [] => none
  | q :: qs => match leastUsed s qs with
    | some r => if (s.qp r).lastUse < (s.qp q).lastUse then some r else some q
    | none => some q

/-- A context becomes resident, evicting the least recently used evictable one when the cache of 65,536
is full; where none can be evicted nothing changes (R151). -/
def makeResident (s : State) (q : Nat) : State :=
  let touch := fun (s : State) => (touchQp s q).modQp q (fun k => { k with resident := true, fetching := false })
  let here := s.qps.keys.filter (fun r => (s.qp r).resident)
  if (s.qp q).resident || here.length < 65536 then touch s
  else match leastUsed s (here.filter (evictable s)) with
    | some r => touch (s.modQp r (fun k => { k with resident := false }))
    | none => s

/-! ### Sending -/

/-- The device's DETAIL of an uncorrectable word, its BLOCK counted from `off` bytes further up (R254). -/
def shiftBlock (status off : Nat) (d : BitVec 32) : BitVec 32 :=
  if status = St.memoryUncorrectable
  then BitVec.ofNat 32 (d.toNat / 2 ^ 26 * 2 ^ 26 + sat 26 (d.toNat % 2 ^ 26 + off / 64)) else d

/-- A requester may send (R136, R149, R154). -/
def maySend (k : Qp) : Bool := (k.st == .opened || k.st == .draining) && k.backoff.isNone

/-- The next packet a requester has to send from PSN `u` on: the message and the packet's PSN (R125,
R133). A READ is asked for again from its first missing response; a sync message whose PSN has been
passed is sent only by its own timer. -/
def nextToSend (k : Qp) : Nat → Nat → Option (Msg × Nat)
  | 0, _ => none
  | n + 1, u =>
    if u = k.nextPsn then none else
    match msgAt k u with
    | some m => match m.kind with
      | .write => some (m, u)
      | .read => some (m, readNext k m)
      | .sync => if m.passed then nextToSend k n (wrap 32 (u + 1)) else some (m, u)
    | none => let v := settled k (k.msgs.length + 2) u; if v = u then none else nextToSend k n v

/-- Line rate units: bytes per nanosecond are R over 128 (R140). -/
def sendTime (rate n : Nat) : Nat := ceilDiv (n * 128) (max 1 rate)

/-- The requester stops after this packet for lack of rate or sheet (R128). -/
def stopsAfter (s : State) (q : Nat) : Bool :=
  let k := s.qp q
  match (if k.ident.path = 0 then qpCircuit s q else none) with
  | some c => !fitsSheet s c.1 (2 * (pmtuBytes k.ident.pmtu + 128))
  | none => decide (k.rate < lineRate s k.ident)

/-- The sync message of a QP as a SYNC_REQ (R124). -/
def syncPacket (s : State) (q : Nat) (m : Msg) : ZtpPacket :=
  { ztpBase s q 0x03 (m.psn.getD 0) m.msn with ar := true, body := .sync m.sync }

/-- The READ_REQ of a READ, resumed from its first missing byte (R124, R133). -/
def readPacket (s : State) (q : Nat) (m : Msg) (psn : Nat) : ZtpPacket :=
  { ztpBase s q 0x02 psn m.msn with
    ar := true, raddr := m.raddr + BitVec.ofNat 64 m.placed, rkey := BitVec.ofNat 32 m.rkey
    length := BitVec.ofNat 32 (m.len - m.placed) }

/-- The WRITE packet that carries some bytes at an offset of its message (R122, R123, R128). -/
def writePacketOf (s : State) (q : Nat) (m : Msg) (psn off : Nat) (bs : List Byte) : ZtpPacket :=
  let last := wrap 32 (psn + 1) == wrap 32 (m.psn.getD 0 + m.span)
  { ztpBase s q 0x01 psn m.msn with
    first := off == 0, last := last, ar := last || stopsAfter s q
    raddr := if off = 0 then m.raddr else 0, rkey := if off = 0 then BitVec.ofNat 32 m.rkey else 0
    length := if off = 0 then BitVec.ofNat 32 m.len else 0
    signal := if last then m.signal else 0, radd := if last then BitVec.ofNat 32 m.radd else 0
    body := .data bs }

/-- A request packet goes: the send pointer, the rate budget, and the retry timer, which restarts at
every transmission of the oldest unacknowledged PSN (R132, R138). A packet sent again is counted (R155). -/
def sendRequest (s : State) (q : Nat) (p : ZtpPacket) (after cost : Nat) : State :=
  let k := s.qp q
  let bound := k.ident.path = 0 && (qpCircuit s q).isSome
  let s := s.modQp q (fun k => { k with
    sendPsn := after
    sentTo := if ahead after k.sentTo < 2 ^ 31 then after else k.sentTo
    readyAt := if bound then k.readyAt else max k.readyAt s.now + sendTime k.rate cost
    timerAt := if p.psn.toNat = k.unacked ∨ k.timerAt.isNone then some (s.now + rto k.ident k.k) else k.timerAt })
  let s := if ahead p.psn.toNat k.sentTo < 2 ^ 31 then s
    else s.modWin k.ident.owner (fun v => { v with retransmits := wrap 32 (v.retransmits + 1) })
  sendSealed s q 1 p

/-- Send the requester's next packet, in its rate budget or its circuit's sheets (R138). A context that
is not resident is fetched first (R151). -/
def sendNext (s : State) (q : Nat) : State :=
  let k := s.qp q
  if !maySend k then s else
  match nextToSend k (k.msgs.length + 2) k.sendPsn with
  | none => s
  | some (m, psn) =>
    if !k.resident then s.modQp q (fun k => { k with fetching := true }) else
    let bound := k.ident.path = 0 && (qpCircuit s q).isSome
    let s := if bound then s else s.arriveAt k.readyAt
    match m.kind with
    | .sync => let p := syncPacket s q m; sendRequest s q p (wrap 32 (psn + 1)) (ztpLen p)
    | .read => sendRequest s q (readPacket s q m psn) (wrap 32 (m.psn.getD 0 + m.span)) (m.len - m.placed)
    | .write =>
      let off := ahead psn (m.psn.getD 0) * pmtuBytes k.ident.pmtu
      let n := min (pmtuBytes k.ident.pmtu) (m.len - off)
      match m.xlat with
      | none =>
        let p := writePacketOf s q m psn off (slice m.inlineData off n)
        sendRequest s q p (wrap 32 (psn + 1)) (ztpLen p)
      | some x =>
        if xlatHeld s x && !xlatLost s x then s else
        match xlatRead s x off n with
        | (s, .failed st d, _) => settleAck (endMsg s q m.msn st 0 (shiftBlock st off d)) q
        | (s, .done, bs) =>
          let p := writePacketOf s q m psn off bs
          sendRequest s q p (wrap 32 (psn + 1)) (ztpLen p)

/-! ### Rate control (R138 to R140) -/

/-- What rate control keeps for a flow. -/
structure Rate where
  rate : Nat
  alpha : Nat
  rtt : Nat
  cnpSeen : Bool
  /-- ZTP_CC0 and ZTP_CC1 as they stood when the period began: a change applies from the next period. -/
  cc0 : Word
  cc1 : Word
  deriving DecidableEq, Repr, Inhabited

def ccPeriod (s : State) : Nat := max 16 (ceilDiv (fld s.tp.cc0 31 16) 16 * 16)
def ccAi (r : Rate) : Nat := fld r.cc0 63 48
def ccMin (r : Rate) : Nat := max 1 (fld r.cc0 47 32)
def ccShift (r : Rate) : Nat := let g := fld r.cc0 15 8; if 1 ≤ g ∧ g ≤ 10 then g else 4
def ccBeta (r : Rate) : Nat := fld r.cc0 7 0
def ccHigh (r : Rate) : Nat := fld r.cc1 31 16
def ccTarget (r : Rate) : Nat := fld r.cc1 15 0

/-- on_cnp() of R140, at most once per PERIOD: alpha in units of 2^-16, products rounded down. -/
def onCnp (r : Rate) : Rate :=
  if r.cnpSeen then r else
  let a := r.alpha + (65536 - r.alpha) / 2 ^ ccShift r
  { r with alpha := a, rate := max (ccMin r) (r.rate - r.rate * a / 131072), cnpSeen := true }

/-- What a PERIOD that saw no CNP changes at its end (R140). -/
def calmPeriod (line : Nat) (r : Rate) : Rate :=
  let r := { r with alpha := r.alpha - r.alpha / 2 ^ ccShift r }
  if r.rtt < ccTarget r then { r with rate := min line (r.rate + ccAi r) }
  else if r.rtt > ccHigh r
    then { r with rate := max (ccMin r) (r.rate - r.rate * ccBeta r * (r.rtt - ccHigh r) / (256 * r.rtt)) }
  else r

/-- The end of a PERIOD, from which the registers as they stand now apply (R140). -/
def onPeriod (s : State) (line : Nat) (r : Rate) : Rate :=
  { (if r.cnpSeen then { r with cnpSeen := false } else calmPeriod line r) with cc0 := s.tp.cc0, cc1 := s.tp.cc1 }

/-- The round-trip time after a sample from a TS (R140), in units of 16 ns, saturating. -/
def nextRtt (now rtt : Nat) (ts : BitVec 32) : Nat :=
  let x := dmod 32 now ts.toNat / 16
  sat 16 (if rtt ≤ x then rtt + (x - rtt) / 8 else rtt - (rtt - x) / 8)

/-- Rate control of a QP. -/
def Qp.rateOf (k : Qp) : Rate := ⟨k.rate, k.alpha, k.rtt, k.cnpSeen, k.cc0, k.cc1⟩
def Qp.setRate (k : Qp) (r : Rate) : Qp :=
  { k with rate := r.rate, alpha := r.alpha, rtt := r.rtt, cnpSeen := r.cnpSeen, cc0 := r.cc0, cc1 := r.cc1 }

/-- A CNP, or a READ_RESP marked CE, is received (R139, R140). -/
def takeCnp (s : State) (q : Nat) : State :=
  s.modQp q (fun k => { (if k.ident.path = 0 && (qpCircuit s q).isSome then k else k.setRate (onCnp k.rateOf)) with
    cnpRx := wrap 16 (k.cnpRx + 1) })

/-- Take a round-trip sample. -/
def sampleRtt (s : State) (q : Nat) (ts : BitVec 32) : State :=
  s.modQp q (fun k => { k with rtt := nextRtt s.now k.rtt ts })

end Sys2Proof.Machine
end

