-- ==== Sys2Proof/Machine/Connections.lean ====
section
/-! DEFINITION. Opening and closing connections (R145 to R149, R154): QP_OPEN, QP_CLOSE, the five
connection packets and their timers. -/

namespace Sys2Proof.Machine

/-! ### QP_OPEN and QP_CLOSE -/

/-- The highest version the device offers (R155). -/
def deviceVer (s : State) : Nat := let v := fld s.tp.cfg 9 8; if v = 1 then 1 else 2

/-- The Ethernet port of a UDP path (R227): the lowest that speaks for its source address. -/
def udpPort (s : State) (v6 : Bool) (vid : Nat) (src : BitVec 128) : Option Nat :=
  (List.range 16).find? (fun p => isEth s p && (vlanWith (s.ethPort p) vid v6 (some src)).isSome)

/-- The identity a QP_OPEN request gives (R307). -/
def identOf (s : State) (d : Door) : QpIdent :=
  let f := reqFld s d
  let v2 := fld (reqWord s d 0) 23 16 = 2
  let path := f 0x11 1
  let addr := fun off => if path = 1 then BitVec.ofNat 128 (beVal (slice (reqBytes s d) off 4) * 2 ^ 96)
                         else BitVec.ofNat 128 (beVal (slice (reqBytes s d) off 16))
  let vlan := if f 0x14 2 / 2 ^ 15 = 1 then some (f 0x14 2 % 4096) else none
  let cipher := f 0x1E 1
  let given := slice (reqBytes s d) 0x48 (if cipher = 2 then 16 else 32)
  let base := if f 0x40 2 = 0 then max 1 (fld s.tp.retry 9 0) else f 0x40 2
  { owner := doorInst d, peerNode := f 0x0C 4, peerInst := f 0x10 1, peerQp := f 0x18 4, path := path
    srcIp := addr 0x20, dstIp := addr 0x30, dscp := f 0x12 1, vlan := vlan
    port := if path = 0 then 0 else (udpPort s (path == 2) (vlan.getD 0) (addr 0x20)).getD 0
    pkey := f 0x16 2, pmtu := f 0x13 1, verMin := f 0x1C 1, verMax := min (f 0x1D 1) (deviceVer s), ver := 0
    cipher := cipher, key := if v2 ∧ cipher ≠ 0 then Config.wrapKey s.boot.wrapKey given else []
    kcv := if v2 ∧ cipher ≠ 0 then keyCheck cipher given else 0
    baseUs := base
    capUs := max base (if f 0x42 2 = 0 then fld s.tp.retry 39 24 else f 0x42 2)
    limit := if f 0x1F 1 = 0 then fld s.tp.retry 47 44 else f 0x1F 1
    busyLimit := if f 0x44 1 = 0 then max 1 (fld s.tp.retry 63 56) else f 0x44 1
    conn := 0, active := false, cfg := s.tp.cfg, ack := s.tp.ack, busyDelay := max 1 (fld s.tp.retry 55 48) }

/-- The refusals of QP_OPEN (R145, R227, R307). -/
def openRefused (s : State) (d : Door) : Bool :=
  let f := reqFld s d
  let i := identOf s d
  let q := f 8 4
  let verMax := f 0x1D 1
  let range := decide (q ≥ 2 ^ 20 ∨ i.peerNode ≥ 2 ^ 18 ∨ i.peerInst > 127 ∨ i.peerQp ≥ 2 ^ 20 ∨ i.path > 2 ∨ i.dscp > 63
      ∨ i.pmtu > 5 ∨ i.verMin < 1 ∨ i.verMin > 2 ∨ verMax < 1 ∨ verMax > 2 ∨ i.verMin > verMax ∨ i.cipher > 2
      ∨ f 0x1F 1 > 15 ∨ f 0x40 2 > 1023 ∨ f 0x14 2 / 2 ^ 12 % 8 ≠ 0)
    || !zeroAt (reqBytes s d) 0x45 3
    || (i.path == 0 && !zeroAt (reqBytes s d) 0x20 32)
    || (i.cipher == 2 && !zeroAt (reqBytes s d) 0x58 16)
  let udp := i.path != 0 && (match udpPort s (i.path == 2) (i.vlan.getD 0) i.srcIp with
    | none => true
    | some p => decide (pmtuBytes i.pmtu + 154 > maxFrame (s.ethPort p)))
  !holds s (doorInst d) 0x03 q || (s.qp q).st != .closed || range
    || (i.pmtu == 5 && i.path == 0)
    || (i.cipher != 0 && (verMax == 1 || deviceVer s == 1 || fld (reqWord s d 0) 23 16 != 2))
    || udp

/-- QP_OPEN (R145, R154): the QP begins setup with a resident context. -/
def openCommand (s : State) (d : Door) : State × Nat :=
  let q := reqFld s d 8 4
  if openRefused s d then (s, St.malformed)
  else (openQp (makeResident s q) q (identOf s d), St.ok)

/-- QP_OPEN (R145). -/
def execQpOpen (door : Door) (link : BitVec 2) (s : State) : Host.Outcome State Fault Refusal :=
  .next (mailRow s door link.toNat 0x0040 (fun s =>
    mailGate s door false [1, 2] (fun s => answerSt door (openCommand s door))))

/-- QP_CLOSE (R149, R306). -/
def closeCommand (s : State) (d : Door) : State × Nat :=
  let q := reqFld s d 8 4
  if q ≥ 2 ^ 20 ∨ !holds s (doorInst d) 0x03 q ∨ (s.qp q).st = .closed ∨ (s.qp q).ident.owner ≠ doorInst d
  then (s, St.malformed)
  else (closeQp s q (drainBoundUs (s.qp q).ident), St.ok)

/-- QP_CLOSE (R149). -/
def execQpClose (door : Door) (link : BitVec 2) (s : State) : Host.Outcome State Fault Refusal :=
  .next (settle (mailRow s door link.toNat 0x0041 (fun s =>
    mailGate s door false [1] (fun s => answerSt door (closeCommand s door)))))

/-! ### Connection packets -/

/-- The CONN block comes from the far end of QP `q` and names this end (R146, R148). -/
def blockMatches (k : Qp) (q : Nat) (c : ConnBlock) : Bool :=
  c.node.toNat == k.ident.peerNode && c.inst.toNat == k.ident.peerInst % 128 && c.qp.toNat == k.ident.peerQp
    && c.peerInst.toNat == k.ident.owner % 128 && c.peerQp.toNat == q

/-- A connection packet of a type arrives (R122, R123): its VER is 1, and a sealed one is dropped as any packet whose
seal its QP does not have (R144; log entry 119). -/
def connGate (s : State) (arr : Arrival) (p : ZtpPacket) (typ : Byte) (run : State → Nat → ConnBlock → State) : State :=
  pktGate s arr p typ (fun s =>
    let q := p.dstQp.toNat
    match p.body with
    | .conn c =>
      if p.ver != 1 then staleDrop s (arrPort s arr q)
      else if p.sealedBit then authFail s (arrPort s arr q) else settle (run s q c)
    | _ => staleDrop s (arrPort s arr q))

/-- The REASON the passive end gives a setup, 0 when it accepts, and the version (R147). -/
def decideSetup (k : Qp) (c : ConnBlock) : Nat × Nat :=
  let v := min c.ver.toNat k.ident.verMax
  if v < c.verMin.toNat ∨ v < k.ident.verMin then (1, v)
  else if c.cipher.toNat ≠ k.ident.cipher ∨ (k.ident.cipher ≠ 0 ∧ v ≠ 2) then (2, v)
  else if c.kcv ≠ (if k.ident.cipher = 0 then 0 else k.ident.kcv) then (3, v)
  else if c.pmtu.toNat ≠ k.ident.pmtu then (4, v)
  else if c.pkey.toNat ≠ k.ident.pkey then (5, v)
  else (0, v)

/-- The passive end decides a CONN_REQ of its peer, and answers it (R146, R147). -/
def decideConnReq (s : State) (q : Nat) (c : ConnBlock) : State :=
  let (reason, v) := decideSetup (s.qp q) c
  let s := s.modQp q (fun k => { k with
    ident := { k.ident with conn := c.tag, ver := if reason = 0 then v else 0 }
    epsn := c.startPsn.toNat })
  let r := { connBlock s q with ver := BitVec.ofNat 8 v, reason := BitVec.ofNat 8 reason }
  let s := sendConn (s.modQp q (fun k => { k with reply := some r })) q 0x22 r
  if reason = 0 then s else qpError s q 0 St.flushed 0 reason

/-- A CONN_REQ of the passive end's peer (R146): a repeat gets the same answer, and one with another tag is decided
anew. -/
def takeConnReq (s : State) (arr : Arrival) (q : Nat) (c : ConnBlock) : State :=
  let k := s.qp q
  if k.st != .opening || k.ident.active || !blockMatches k q c then staleDrop s (arrPort s arr q)
  else match k.reply with
  | some r => if r.tag = c.tag then sendConn s q 0x22 r else decideConnReq s q c
  | none => decideConnReq s q c

/-- CONN_REQ (R147). -/
def execConnReq (arr : Arrival) (pkt : ZtpPacket) (s : State) : Host.Outcome State Fault Refusal :=
  .next (connGate s arr pkt 0x21 (fun s q c => takeConnReq s arr q c))

/-- The active end takes the answer to its CONN_REQ (R146, R147). -/
def takeConnRep (s : State) (arr : Arrival) (q : Nat) (c : ConnBlock) : State :=
  let k := s.qp q
  if k.st != .opening || !k.ident.active || !blockMatches k q c || c.tag != k.ident.conn then staleDrop s (arrPort s arr q)
  else if c.reason ≠ 0 then qpError s q 0 St.flushed 0 c.reason.toNat
  else
    let s := s.modQp q (fun k => { k with ident := { k.ident with ver := c.ver.toNat }, epsn := c.startPsn.toNat })
    qpOpened (sendConn s q 0x23 (plainBlock s q)) q

/-- CONN_REP (R146). -/
def execConnRep (arr : Arrival) (pkt : ZtpPacket) (s : State) : Host.Outcome State Fault Refusal :=
  .next (connGate s arr pkt 0x22 (fun s q c => takeConnRep s arr q c))

/-- The passive end is OPEN at the first CONN_RTU (R146). -/
def takeConnRtu (s : State) (arr : Arrival) (q : Nat) (c : ConnBlock) : State :=
  let k := s.qp q
  let agreed := match k.reply with | some r => r.reason == 0 | none => false
  if k.st == .opening && !k.ident.active && blockMatches k q c && agreed && c.tag == k.ident.conn then qpOpened s q
  else staleDrop s (arrPort s arr q)

/-- CONN_RTU (R146). -/
def execConnRtu (arr : Arrival) (pkt : ZtpPacket) (s : State) : Host.Outcome State Fault Refusal :=
  .next (connGate s arr pkt 0x23 (fun s q c => takeConnRtu s arr q c))

/-- A CLOSED QP answers a DISC_REQ that names it from the request alone, the two ends exchanged (R154). -/
def closedDisc (s : State) (arr : Arrival) (q : Nat) (p : ZtpPacket) (c : ConnBlock) : State :=
  replyBack s arr 0 { (default : ZtpPacket) with
    typ := 0x25, first := true, last := true, ver := 1, dstQp := BitVec.ofNat 32 c.qp.toNat, srcQp := BitVec.ofNat 32 q
    pkey := p.pkey, conn := p.conn, ts := BitVec.ofNat 32 s.now, ecrcOk := true, tagOk := true
    body := .conn { c with
      node := BitVec.ofNat 18 (nodeId s), inst := c.peerInst, peerInst := c.inst, qp := c.peerQp, peerQp := c.qp } }

/-- A DISC_REQ arrives (R149, R154). A connection packet that no row of R154 takes is dropped and counted in STALE_DROP
(DESIGN CHOICE, log entry 115). -/
def takeDiscReq (s : State) (arr : Arrival) (q : Nat) (p : ZtpPacket) (c : ConnBlock) : State :=
  let k := s.qp q
  match k.st with
  | .closed => if c.peerQp.toNat = q then closedDisc s arr q p c else staleDrop s (arrPort s arr q)
  | .opened => if blockMatches k q c then drainQp s q (drainBoundUs k.ident) true else staleDrop s (arrPort s arr q)
  | .draining => if blockMatches k q c then drainStep (s.modQp q (fun k => { k with peerDisc := true })) q
                 else staleDrop s (arrPort s arr q)
  | .error => if blockMatches k q c then sendConn s q 0x25 (plainBlock s q) else staleDrop s (arrPort s arr q)
  | .opening => staleDrop s (arrPort s arr q)

/-- DISC_REQ (R149). -/
def execDiscReq (arr : Arrival) (pkt : ZtpPacket) (s : State) : Host.Outcome State Fault Refusal :=
  .next (connGate s arr pkt 0x24 (fun s q c => takeDiscReq s arr q pkt c))

/-- A DISC_REP arrives at a drained QP, which is CLOSED (R154). -/
def takeDiscRep (s : State) (arr : Arrival) (q : Nat) (c : ConnBlock) : State :=
  let k := s.qp q
  if k.st == .draining && blockMatches k q c && k.msgs.isEmpty && k.lastTry != 0 then qpClosed s q
  else staleDrop s (arrPort s arr q)

/-- DISC_REP (R154). -/
def execDiscRep (arr : Arrival) (pkt : ZtpPacket) (s : State) : Host.Outcome State Fault Refusal :=
  .next (connGate s arr pkt 0x25 (fun s q c => takeDiscRep s arr q c))

/-! ### Timers -/

/-- The next CONN_REQ of the active end, once per millisecond up to CONN_TRIES times (R146). -/
def connAgain (s : State) (q : Nat) : State :=
  let k := s.qp q
  if k.st != .opening || !k.ident.active then s
  else if k.lastTry + msNs ≥ k.setupAt + connTries k.ident * msNs then s
  else
    let s := s.arriveAt (k.lastTry + msNs)
    sendConn (s.modQp q (fun x => { x with lastTry := s.now })) q 0x21 (connBlock s q)

/-- CONN_REQ_TIMER (R146). -/
def execConnReqTimer (qp : BitVec 20) (s : State) : Host.Outcome State Fault Refusal := .next (connAgain s qp.toNat)

/-- CONN_TRIES milliseconds pass without OPEN (R146, R154). -/
def setupLate (s : State) (q : Nat) : State :=
  let k := s.qp q
  if k.st != .opening then s
  else settle (qpError (s.arriveAt (k.setupAt + connTries k.ident * msNs)) q 0 St.flushed 0 0xFF)

/-- SETUP_TIMEOUT (R146). -/
def execSetupTimeout (qp : BitVec 20) (s : State) : Host.Outcome State Fault Refusal := .next (setupLate s qp.toNat)

/-- A drained QP sends DISC_REQ again (R149). -/
def discAgain (s : State) (q : Nat) : State :=
  let k := s.qp q
  if k.st != .draining || !k.msgs.isEmpty || k.lastTry == 0 then s
  else sendDiscReq (s.arriveAt (k.lastTry + msNs)) q

/-- DISC_REQ_TIMER (R149). -/
def execDiscReqTimer (qp : BitVec 20) (s : State) : Host.Outcome State Fault Refusal := .next (discAgain s qp.toNat)

/-- The drain bound of a QP passes (R149, R154). -/
def qpDrained (s : State) (q : Nat) : State :=
  let k := s.qp q
  if k.st != .draining then s else settle (qpClosed (s.arriveAt k.drainAt) q)

/-- QP_DRAIN_BOUND (R149). -/
def execQpDrainBound (qp : BitVec 20) (s : State) : Host.Outcome State Fault Refusal := .next (qpDrained s qp.toNat)

end Sys2Proof.Machine
end

