-- ==== Sys2Proof/Machine/Press.lean ====
section
/-! DEFINITION. The presses (chapter 6): the formats of R159 and R160, decoding, rounding (R164, R174),
and the combinations of R161 to R165. -/

namespace Sys2Proof.Machine

/-! ### Exact values -/

def Num.zero : Num := .fin false 0 0

/-- The value of a finite number at a smaller exponent, as a signed integer. -/
def signedAt (neg : Bool) (m : Nat) (e low : Int) : Int :=
  let v : Int := (m * 2 ^ (e - low).toNat : Nat)
  if neg then -v else v

/-- A signed integer times 2^e; a zero is +0. -/
def ofSigned (v e : Int) : Num := .fin (decide (v < 0)) v.natAbs e

/-- The exact sum of two values (R162, R163). -/
def addNum : Num → Num → Num
  | .nan, _ => .nan
  | _, .nan => .nan
  | .inf a, .inf b => if a == b then .inf a else .nan
  | .inf a, _ => .inf a
  | _, .inf b => .inf b
  | .fin a m e, .fin b n f =>
    let low := min e f
    let v := signedAt a m e low + signedAt b n f low
    if v = 0 then .fin (a && b && m == 0 && n == 0) 0 0 else ofSigned v low

/-- The value with its sign changed. -/
def negNum : Num → Num
  | .nan => .nan
  | .inf a => .inf (!a)
  | .fin a m e => .fin (!a) m e

/-- `a` is below `b`; −0 is below +0 (R161). Neither is NaN. -/
def belowNum : Num → Num → Bool
  | .inf a, .inf b => a && !b
  | .inf a, _ => a
  | _, .inf b => !b
  | .fin a m e, .fin b n f =>
    let low := min e f
    let x := signedAt a m e low
    let y := signedAt b n f low
    decide (x < y) || (decide (x = y) && a && !b)
  | _, _ => false

def isNan : Num → Bool
  | .nan => true
  | _ => false

/-- An integer operand as 64 bits, and back. -/
def intBits : Num → Word
  | .fin a m e => BitVec.ofInt 64 (signedAt a m e 0)
  | _ => 0

def ofBits (w : Word) : Num := ofSigned w.toInt 0

/-! ### Formats -/

/-- A floating format: bytes or bits per element, fraction bits, bias, the largest finite magnitude as
bits, whether infinity is the next, and the canonical NaN (R159). -/
structure FloatFmt where
  bits : Nat
  man : Nat
  bias : Nat
  top : Nat
  hasInf : Bool
  nanBits : Nat
  deriving DecidableEq, Repr, Inhabited

/-- The floating format of a code, or of the elements of an MX code. No MX format has an infinity (R159): the codes of an
MXFP8 E5M2 element past its largest finite magnitude are NaN (DEDUCED, log entry 76). -/
def floatFmt (f : Nat) : FloatFmt :=
  if f = 0x01 then ⟨32, 23, 127, 0x7F7FFFFF, true, 0x7FC00000⟩
  else if f = 0x02 then ⟨16, 7, 127, 0x7F7F, true, 0x7FC0⟩
  else if f = 0x03 then ⟨16, 10, 15, 0x7BFF, true, 0x7E00⟩
  else if f = 0x05 then ⟨8, 2, 15, 0x7B, true, 0x7E⟩
  else if f = 0x11 then ⟨8, 2, 15, 0x7B, false, 0x7E⟩
  else if f = 0x12 then ⟨6, 2, 3, 0x1F, false, 0⟩
  else if f = 0x13 then ⟨6, 3, 1, 0x1F, false, 0⟩
  else if f = 0x14 then ⟨4, 1, 1, 0x7, false, 0⟩
  else ⟨8, 3, 7, 0x7E, false, 0x7F⟩

/-- An integer format (R159). -/
def isInt (f : Nat) : Bool := f == 0x20 || f == 0x21 || f == 0x22

/-- EMAX of an MX format (R160). -/
def emax (f : Nat) : Nat :=
  if f = 0x10 then 8 else if f = 0x11 then 15 else if f = 0x12 then 4 else if f = 0x13 ∨ f = 0x14 then 2 else 0

/-- The value of the bits of a floating element. -/
def decodeFloat (g : FloatFmt) (b : Nat) : Num :=
  let mag := b % 2 ^ (g.bits - 1)
  let neg := b.testBit (g.bits - 1)
  if mag > g.top then (if g.hasInf && mag == g.top + 1 then .inf neg else .nan)
  else
    let ex := mag / 2 ^ g.man
    let fr := mag % 2 ^ g.man
    if ex = 0 then .fin neg fr (1 - (g.bias : Int) - g.man)
    else .fin neg (2 ^ g.man + fr) ((ex : Int) - g.bias - g.man)

/-- Round a magnitude m × 2^e to a whole multiple of 2^low: to nearest even, or by 16 random bits (R164,
R174). -/
def roundAt (m : Nat) (e low : Int) (rnd : Option Nat) : Nat :=
  if low ≤ e then m * 2 ^ (e - low).toNat
  else
    let d := 2 ^ (low - e).toNat
    let q := m / d
    let r := m % d
    let up := match rnd with
      | none => decide (2 * r > d) || (decide (2 * r = d) && q % 2 == 1)
      | some k => decide (k < r * 65536 / d)
    if up then q + 1 else q

/-- Bits of a finite magnitude rounded to a format, without its sign; past `top` is an overflow. -/
def roundBits (g : FloatFmt) (m : Nat) (e : Int) (rnd : Option Nat) : Nat :=
  if m = 0 then 0 else
  let low := 1 - (g.bias : Int) - g.man
  let lsb := max low ((Nat.log2 m : Int) + e - g.man)
  (lsb - low).toNat * 2 ^ g.man + roundAt m e lsb rnd

/-- A value rounded to a floating format, and whether it saturated (R164); a format without infinity, or
an MX element, takes its largest finite magnitude instead. -/
def encodeFloat (g : FloatFmt) (clamp : Bool) (rnd : Option Nat) : Num → Nat × Nat
  | .nan => (g.nanBits, 0)
  | .inf neg => if g.hasInf && !clamp then (g.top + 1 + neg.toNat * 2 ^ (g.bits - 1), 0)
      else (g.top + neg.toNat * 2 ^ (g.bits - 1), 1)
  | .fin neg m e =>
    let b := roundBits g m e rnd
    let s := neg.toNat * 2 ^ (g.bits - 1)
    if b ≤ g.top then (b + s, 0)
    else if g.hasInf && !clamp then (g.top + 1 + s, 0) else (g.top + s, 1)

/-- A value in an integer format of `n` bytes, saturated (R164). -/
def encodeInt (n : Nat) : Num → Nat × Nat
  | .fin neg m e =>
    let v := signedAt neg m e 0
    let top : Int := (2 ^ (8 * n - 1) - 1 : Nat)
    let c := max (-top - 1) (min top v)
    ((c % (2 ^ (8 * n) : Nat)).toNat, (decide (c ≠ v)).toNat)
  | _ => (0, 0)

/-- Bits of one element of an MX format. -/
def mxWidth (f : Nat) : Nat := if f = 0x12 ∨ f = 0x13 then 6 else if f = 0x14 then 4 else 8

/-- The value of an MX element before its scale (R160). -/
def decodeMxElem (f b : Nat) : Num := if f = 0x15 then ofSigned (signed 8 b) (-6) else decodeFloat (floatFmt f) b

/-- A value scaled by 2^k. -/
def scaleNum (k : Int) : Num → Num
  | .fin neg m e => .fin neg m (e + k)
  | x => x

/-- The 32 values of an MX block (R160). -/
def decodeMx (f : Nat) (bs : List Byte) : List Num :=
  let sc := (bs.getD 0 0).toNat
  if sc = 255 then List.replicate 32 .nan
  else
    let n := leVal (bs.drop 1)
    (List.range 32).map (fun i => scaleNum ((sc : Int) - 127)
      (decodeMxElem f (n / 2 ^ (mxWidth f * i) % 2 ^ mxWidth f)))

/-- ⌊log2 |v|⌋ of a finite nonzero value. -/
def exponentOf : Num → Option Int
  | .fin _ m e => if m = 0 then none else some ((Nat.log2 m : Int) + e)
  | _ => none

/-- One element of an MX block, and whether it saturated. -/
def encodeMxElem (f : Nat) (rnd : Option Nat) (v : Num) : Nat × Nat :=
  if f = 0x15 then
    match v with
    | .fin neg m e =>
      let q := roundAt m e (-6) rnd
      let c := min q 127
      ((if neg then (256 - c) % 256 else c), (decide (q > 127)).toNat)
    | _ => (0, 0)
  else encodeFloat (floatFmt f) true rnd v

/-- 32 values as an MX block (R160): bytes, and how many elements saturated. -/
def encodeMx (f : Nat) (rnd : Nat → Option Nat) (vs : List Num) : List Byte × Nat :=
  let n := fmtSize f - 1
  if vs.any (fun v => match v with | .fin _ _ _ => false | _ => true) then (0xFF :: List.replicate n 0, 0)
  else match (vs.filterMap exponentOf).max? with
    | none => (0 :: List.replicate n 0, 0)
    | some top =>
      let x := max (-127) (min 127 (top - emax f))
      let es := (List.range 32).map (fun i => encodeMxElem f (rnd i) (scaleNum (-x) (vs.getD i Num.zero)))
      let word := (List.range 32).foldl (fun a i => a + (es.getD i (0, 0)).1 * 2 ^ (mxWidth f * i)) 0
      (byteOf (x + 127).toNat :: leBytes n word, es.foldl (fun a p => a + p.2) 0)

/-- Cut bytes into elements of `n` bytes. -/
def chunks (n : Nat) : Nat → List Byte → List (List Byte)
  | 0, _ => []
  | k + 1, bs => bs.take n :: chunks n k (bs.drop n)

/-- The `g` values of a unit of bytes in a format. -/
def decodeUnit (f g : Nat) (bs : List Byte) : List Num :=
  if isMx f then decodeMx f bs
  else (chunks (fmtSize f) g bs).map (fun b =>
    if isInt f then ofSigned (signed (8 * fmtSize f) (leVal b)) 0 else decodeFloat (floatFmt f) (leVal b))

/-- A unit of values rounded to a format: its bytes, and how many elements saturated. -/
def encodeUnit (f : Nat) (rnd : Nat → Option Nat) (vs : List Num) : List Byte × Nat :=
  if isMx f then encodeMx f rnd vs
  else
    let es := (List.range vs.length).map (fun i =>
      if isInt f then encodeInt (fmtSize f) (vs.getD i Num.zero)
      else encodeFloat (floatFmt f) false (rnd i) (vs.getD i Num.zero))
    (es.flatMap (fun p => leBytes (fmtSize f) p.1), es.foldl (fun a p => a + p.2) 0)

/-- Round to nearest even everywhere. -/
def nearest : Nat → Option Nat := fun _ => none

/-- A value rounded to FP32 (R165). -/
def toFp32 (v : Num) : Num := decodeFloat (floatFmt 1) (encodeFloat (floatFmt 1) false none v).1

/-! ### Combining -/

/-- Add in the mode of a descriptor: exactly, or with each sum rounded to FP32 (R162, R165). -/
def addIn (ordered : Bool) (a b : Num) : Num := if ordered then toFp32 (addNum a b) else addNum a b

/-- One operation on two values (R161). -/
def combine2 (op : Nat) (ordered : Bool) (a b : Num) : Num :=
  if op = 0x01 then addIn ordered a b
  else if op = 0x02 ∨ op = 0x03 then
    if isNan a || isNan b then .nan
    else if belowNum b a == (op == 0x02) then b else a
  else if op = 0x04 then ofBits (intBits a &&& intBits b)
  else if op = 0x05 then ofBits (intBits a ||| intBits b)
  else ofBits (intBits a ^^^ intBits b)

/-- Two units combined element by element. -/
def combineUnit (op : Nat) (ordered : Bool) (a b : List Num) : List Num :=
  (a.zip b).map (fun p => combine2 op ordered p.1 p.2)

/-- How much a press's energy counts for an input format: 4 at quarter rate, 2 at half, 1 at full (R162,
R312); ordered mode runs at full rate (R165). -/
def pressWeight (d : Descriptor) : Nat :=
  if d.mode.testBit 0 then 1 else if d.inFmt = 0x01 then 4 else if d.inFmt = 0x02 then 2 else 1

end Sys2Proof.Machine
end

