-- ==== Sys2Proof/Machine/CollOps.lean ====
section
/-! DEFINITION. Shared operations of the collective sequencer (chapter 6): which parts each stream carries
(R167 to R171), what a member sends and when (R166, R173, R174), pieces and acknowledgements (R179 to
R183), and what a step writes (R172, R178). -/

namespace Sys2Proof.Machine

/-! ### Where a member stands -/

def rankOf (d : Descriptor) : Nat := d.self % d.n1
def podOf (d : Descriptor) : Nat := d.self / d.n1

/-- Node index of a rank in tree `t` of `n`, and back (R170). -/
def treeNode (t n r : Nat) : Nat := if t = 0 then r else n - 1 - r

/-- Children of a node in a heap tree of `n` (R170). -/
def childCount (n i : Nat) : Nat := (if 2 * i + 1 < n then 1 else 0) + (if 2 * i + 2 < n then 1 else 0)

/-- Level of a stream (R179). -/
def streamLevel (st : Nat) : Nat := if st = 1 ∨ 5 ≤ st then 2 else 1

/-- The member is the level-1 root of tree `t` (R171). -/
def isRoot1 (d : Descriptor) (t : Nat) : Bool := treeNode t d.n1 (rankOf d) == 0

/-- Position and size of the tree of a stream at its level, if this member is in it. -/
def treePlace (d : Descriptor) (t level : Nat) : Option (Nat × Nat) :=
  if level = 1 then some (treeNode t d.n1 (rankOf d), d.n1)
  else if isRoot1 d t then some (treeNode t d.n2 (podOf d), d.n2) else none

/-- Node that a tree stream leads to: 0 parent, 1 and 2 children. -/
def treeLeads (i n way : Nat) : Option Nat :=
  if way = 0 then (if i = 0 then none else some ((i - 1) / 2))
  else if 2 * i + way < n then some (2 * i + way) else none

/-- What a tree stream does: 0 to or from the parent, 1 and 2 the children. -/
def streamWay (st : Nat) : Nat := (st - 2) % 3

/-- The member at the far end of an outgoing stream (R169 to R171, R179). -/
def outPeer (d : Descriptor) (key : Nat) : Option Nat :=
  let st := key / 2
  let t := key % 2
  if st = 0 then (if d.n1 ≤ 1 then none else some (podOf d * d.n1 + (rankOf d + 1) % d.n1))
  else if st = 1 then (if d.n2 ≤ 1 then none else some ((podOf d + 1) % d.n2 * d.n1 + rankOf d))
  else match treePlace d t (streamLevel st) with
    | none => none
    | some (i, n) => match treeLeads i n (streamWay st) with
      | none => none
      | some j => some (if streamLevel st = 1 then podOf d * d.n1 + treeNode t n j
                        else treeNode t n j * d.n1 + rankOf d)

/-- The member at the far end of an incoming stream. -/
def inPeer (d : Descriptor) (key : Nat) : Option Nat :=
  let st := key / 2
  if st = 0 then (if d.n1 ≤ 1 then none else some (podOf d * d.n1 + (rankOf d + d.n1 - 1) % d.n1))
  else if st = 1 then (if d.n2 ≤ 1 then none else some ((podOf d + d.n2 - 1) % d.n2 * d.n1 + rankOf d))
  else outPeer d key

/-- The number under which a member's sender numbers the stream that arrives here as `key` (R179): the
parent sends on 3 or 4, a child on 2, and likewise at level 2. -/
def senderStream (d : Descriptor) (key : Nat) : Nat :=
  let st := key / 2
  if st ≤ 1 then st
  else
    let base := if streamLevel st = 1 then 2 else 5
    match treePlace d (key % 2) (streamLevel st) with
    | none => st
    | some (i, _) => if streamWay st = 0 then base + (if i % 2 = 1 then 1 else 2) else base

/-- The incoming stream of a DATA by its SENDER, LEVEL and STREAM (R179, R181; log entry 22). -/
def inKey (d : Descriptor) (sender level st : Nat) : Option Nat :=
  streamKeys.find? (fun k => (k / 2 ≥ 2 || k % 2 == 0) && streamLevel (k / 2) == level
    && inPeer d k == some sender && senderStream d k == st)

/-- The outgoing stream an ACK is for, by its SENDER, LEVEL and STREAM. -/
def outKey (d : Descriptor) (sender level st : Nat) : Option Nat :=
  streamKeys.find? (fun k => (k / 2 ≥ 2 || k % 2 == 0) && k / 2 == st && streamLevel st == level
    && outPeer d k == some sender)

/-! ### What a stream carries -/

/-- The data of one part on a stream, in order (R169 to R171). -/
structure Transfer where
  gather : Bool
  part : Nat
  first : Nat
  len : Nat
  deriving DecidableEq, Repr, Inhabited

/-- A part of a range as a transfer. -/
def transferOf (g a len n : Nat) (gather : Bool) (k : Nat) : Transfer :=
  ⟨gather, k, (partOf g a len k n).1, (partOf g a len k n).2⟩

/-- What a rank of a ring sends, in the order of the rounds (R169). -/
def ringSends (g a len n r half : Nat) : List Transfer :=
  if n ≤ 1 then [] else
  (if half = 2 then [] else (List.range (n - 1)).map (fun i => transferOf g a len n false ((r + 2 * n - i - 1) % n)))
    ++ (if half = 1 then [] else (List.range (n - 1)).map (fun i => transferOf g a len n true ((r + n - i) % n)))

/-- The range of level 2: part `rank` of the whole (R171). -/
def ringPart (d : Descriptor) (elems : Nat) : Nat × Nat := partOf (granD d) 0 elems (rankOf d) d.n1

/-- The part of tree `t` (R170). -/
def treePart (d : Descriptor) (elems t : Nat) : Nat × Nat := partOf (granD d) 0 elems t 2

/-- What an outgoing stream carries in a step. -/
def outList (d : Descriptor) (r : Run) (key : Nat) : List Transfer :=
  let st := key / 2
  let t := key % 2
  let g := granD d
  if r.tree then
    if st < 2 ∨ (outPeer d key).isNone then []
    else [⟨streamWay st != 0, t, (treePart d r.elems t).1, (treePart d r.elems t).2⟩]
  else if t ≠ 0 ∨ st ≥ 2 then []
  else if st = 0 then ringSends g 0 r.elems d.n1 (rankOf d) r.half
  else ringSends g (ringPart d r.elems).1 (ringPart d r.elems).2 d.n2 (podOf d) r.half

/-- What an incoming stream carries in a step. -/
def inList (d : Descriptor) (r : Run) (key : Nat) : List Transfer :=
  let st := key / 2
  let t := key % 2
  let g := granD d
  if r.tree then
    if st < 2 ∨ (inPeer d key).isNone then []
    else [⟨streamWay st == 0, t, (treePart d r.elems t).1, (treePart d r.elems t).2⟩]
  else if t ≠ 0 ∨ st ≥ 2 then []
  else if st = 0 then ringSends g 0 r.elems d.n1 ((rankOf d + d.n1 - 1) % d.n1) r.half
  else ringSends g (ringPart d r.elems).1 (ringPart d r.elems).2 d.n2 ((podOf d + d.n2 - 1) % d.n2) r.half

/-- Wire format of a transfer at a level (R166, R172). -/
def wireFmt (d : Descriptor) (level : Nat) (gather : Bool) : Nat :=
  if gather then d.outFmt else if level = 1 then d.wire1 else d.wire2

/-- The transfer and the unit that the `i`-th unit of a list of transfers is, and whether it ends its part. -/
def unitAt (g : Nat) : List Transfer → Nat → Option (Transfer × Nat × Bool)
  | [], _ => none
  | x :: xs, i =>
    if i < x.len / g then some (x, x.first / g + i, i + 1 == x.len / g)
    else unitAt g xs (i - x.len / g)

/-- Units of a list of transfers. -/
def unitCount (g : Nat) (xs : List Transfer) : Nat := xs.foldl (fun a x => a + x.len / g) 0

/-- Units of the reducing transfers of a list. -/
def reduceUnits (g : Nat) (xs : List Transfer) : Nat := unitCount g (xs.filter (fun x => !x.gather))

/-- Size of a piece, bytes (R157). -/
def pieceBytes (d : Descriptor) : Nat := 2 ^ d.pieceLog

/-- GATHER and bytes of the `j`-th piece of a list of transfers (R179): cut at part ends. -/
def pieceAt (d : Descriptor) (level : Nat) : List Transfer → Nat → Option (Bool × Nat)
  | [], _ => none
  | x :: xs, j =>
    let n := fmtBytes (wireFmt d level x.gather) x.len
    let c := ceilDiv n (pieceBytes d)
    if j < c then some (x.gather, min (pieceBytes d) (n - j * pieceBytes d))
    else pieceAt d level xs (j - c)

/-! ### How far a unit has come -/

/-- The tree whose part holds a unit. -/
def treeOf (d : Descriptor) (r : Run) (u : Nat) : Nat := if u * granD d < (treePart d r.elems 1).1 then 0 else 1

/-- Partials a unit takes at level 1 and 2 at this member. -/
def needs1 (d : Descriptor) (r : Run) (u : Nat) : Nat :=
  if r.tree then childCount d.n1 (treeNode (treeOf d r u) d.n1 (rankOf d)) else if d.n1 ≤ 1 then 0 else 1
def needs2 (d : Descriptor) (r : Run) (u : Nat) : Nat :=
  if r.tree then childCount d.n2 (treeNode (treeOf d r u) d.n2 (podOf d)) else if d.n2 ≤ 1 then 0 else 1

/-- The unit has all its partials at level 1 here, at level 2 here. -/
def done1 (d : Descriptor) (r : Run) (u : Nat) : Bool := decide (needs1 d r u ≤ r.taken1.findD u 0)
def done2 (d : Descriptor) (r : Run) (u : Nat) : Bool := done1 d r u && decide (needs2 d r u ≤ r.taken2.findD u 0)

/-- This member makes the final bits of the unit (R171). -/
def ownsUnit (d : Descriptor) (r : Run) (u : Nat) : Bool :=
  if r.tree then
    let t := treeOf d r u
    isRoot1 d t && treeNode t d.n2 (podOf d) == 0
  else
    let c := ringChunk d r.elems
    within (u * granD d) 1 c.1 c.2

/-- A unit can be sent in a transfer at a level now (R169, R170): a ring's first round sends the own value. -/
def sendReady (d : Descriptor) (r : Run) (level : Nat) (x : Transfer) (u : Nat) : Bool :=
  if x.gather then (r.final.find u).isSome
  else if r.tree then (if level = 1 then done1 d r u else done2 d r u)
  else if level = 1 then
    x.part == (rankOf d + d.n1 - 1) % d.n1 || decide (1 ≤ r.taken1.findD u 0)
  else done1 d r u && (x.part == (podOf d + d.n2 - 1) % d.n2 || decide (1 ≤ r.taken2.findD u 0))

/-- A press may take a unit from a stream now: level 2 after level 1, and in ordered mode the first child
before the second (R165). -/
def takeReady (d : Descriptor) (r : Run) (key : Nat) (x : Transfer) (u : Nat) : Bool :=
  if x.gather then true
  else
    let st := key / 2
    (streamLevel st == 1 || done1 d r u)
      && (!(r.tree && d.mode.testBit 0 && streamWay st == 2)
          || decide (1 ≤ (if streamLevel st = 1 then r.taken1 else r.taken2).findD u 0))

/-! ### Sending a unit -/

/-- The random word for element `i` of a sent part (R174). -/
def randomBits (s : State) (d : Descriptor) (step level part i : Nat) : Nat :=
  let msg := leBytes 8 (activeId s).toNat ++ leBytes 4 d.collId ++ leBytes 4 step ++ leBytes 1 level
    ++ leBytes 3 0 ++ leBytes 4 part ++ leBytes 4 d.self ++ leBytes 8 (i / 16)
  leAt (beBytes 32 (sm3 msg).toNat) (2 * (i % 16)) 2

/-- EFL and SRL of a descriptor (R157). -/
def efBit (d : Descriptor) (level : Nat) : Bool := d.mode.testBit (if level = 1 then 3 else 4)
def srBit (d : Descriptor) (level : Nat) : Bool := d.mode.testBit (if level = 1 then 1 else 2)

/-- Address of the residual of an element (R173). -/
def residualAt (d : Descriptor) (level i : Nat) : Nat := d.efBase + (if level = 1 then 0 else 4 * d.maxElems) + 4 * i

/-- Add to COLL_CNT_B (R164). -/
def countPress (s : State) (saturated nans : Nat) : State :=
  s.modColl (fun c => { c with saturated := wrap 32 (c.saturated + saturated), nanOut := wrap 16 (c.nanOut + nans) })

/-- Operand elements consumed by a press: any press may serve, so which one counts is left open (R186). -/
def countOperands (s : State) (d : Descriptor) (n : Nat) : State :=
  if n = 0 then s else
  let f := drawFree s
  (f.2.modColl (fun c => { c with press := c.press.modifyD (fld f.1 1 0) 0 (fun k => wrap 64 (k + n)) })).modMeter d.owner
    (fun m => { m with press := wrap 64 (m.press + n) })

/-- Round a unit for sending at a level, keeping its residual (R166, R173, R174): the bytes, or a failure
of the residual area. -/
def wireUnit (s : State) (d : Descriptor) (r : Run) (level : Nat) (x : Transfer) (u : Nat) :
    State × Access × List Byte :=
  let g := granD d
  let f := wireFmt d level false
  let own := r.work.findD u []
  let at0 := residualAt d level (u * g)
  let rnd : Nat → Option Nat := fun i =>
    if srBit d level then some (randomBits s d r.step level x.part (u * g + i - x.first)) else none
  if !efBit d level then
    let e := encodeUnit f rnd own
    (countPress s e.2 0, .done, e.1)
  else match hbmRead s at0 (4 * g) with
    | (s, .failed st dt, _) => (s, .failed st dt, [])
    | (s, .done, bs) =>
      let v := (own.zip (decodeUnit 1 g bs)).map (fun p => addIn (d.mode.testBit 0) p.1 p.2)
      let e := encodeUnit f rnd v
      let res := (v.zip (decodeUnit f g e.1)).map (fun p => addNum p.1 (negNum p.2))
      let back := (encodeUnit 1 nearest res).1
      (hbmStore (countOperands (countPress s e.2 0) d g) at0 back, .done, e.1)

/-- Charge the sequencer's work to the slot's account (R316). -/
def chargePiece (s : State) (n : Nat) (d : Descriptor) (parts : List (Nat × Nat)) : State :=
  chargeStart s d.owner (bucketOf s 2 n) parts

/-- Change an outgoing or an incoming stream. -/
def State.modOut (s : State) (n key : Nat) (f : OutStream → OutStream) : State :=
  s.modSlot n (fun x => { x with outs := x.outs.modifyD key default f })
def State.modIn (s : State) (n key : Nat) (f : InStream → InStream) : State :=
  s.modSlot n (fun x => { x with ins := x.ins.modifyD key default f })
def State.modRunOf (s : State) (n : Nat) (f : Run → Run) : State :=
  s.modSlot n (fun x => { x with run := x.run.map f })

/-- Cut what is ready into pieces of a size, and the rest too at the end of a part (R179). -/
def cutPieces (size step : Nat) (gather ends : Bool) : Nat → OutStream → OutStream
  | 0, o => o
  | k + 1, o =>
    if o.ready.length ≥ size ∨ (ends ∧ !o.ready.isEmpty) then
      cutPieces size step gather ends k { o with
        sent := wrap 64 (o.sent + 1), ready := o.ready.drop size
        pieces := o.pieces ++ [⟨o.sent, step, gather, o.ready.take size, 0, 0⟩] }
    else o

/-- Emit the units of one stream that are ready, in order (R179). -/
def pumpStream (n key : Nat) (d : Descriptor) : Nat → State → State
  | 0, s => s
  | k + 1, s =>
    match (s.slot n).run with
    | none => s
    | some r =>
      let o := (s.slot n).outs.findD key default
      let level := streamLevel (key / 2)
      match unitAt (granD d) (outList d r key) o.units with
      | none => s
      | some (x, u, ends) =>
        if !sendReady d r level x u then s
        else
          let put := fun (s : State) (bs : List Byte) =>
            s.modOut n key (fun o => cutPieces (pieceBytes d) r.step x.gather ends (bs.length + 1)
              { o with units := o.units + 1, ready := o.ready ++ bs })
          if x.gather then pumpStream n key d k (put s (r.final.findD u []))
          else match wireUnit s d r level x u with
            | (s, .failed st _, _) => endStep s n st 0 d.self
            | (s, .done, bs) => pumpStream n key d k (put s bs)

/-- Emit whatever each stream of a slot can send now. A device that has missed a front makes no progress
(R52). -/
def pump (s : State) (n : Nat) : State :=
  if missedLike s then s else
  match (s.slot n).desc, (s.slot n).run with
  | some d, some r => forEach streamKeys s (fun s key => pumpStream n key d (unitCount (granD d) (outList d r key) + 1) s)
  | _, _ => s

/-! ### Final bits -/

/-- Offset in DST of a unit: HALF 1 writes the chunk alone (R171, R176). -/
def dstOffset (d : Descriptor) (r : Run) (u : Nat) : Nat :=
  let e := u * granD d - (if r.half = 1 then (ringChunk d r.elems).1 else 0)
  fmtBytes d.outFmt e

/-- Write a run of neighbouring units to DST (R172, R178); where DST overlaps what the step reads the bytes written are
undefined (R177). -/
def writeDst (s : State) (n : Nat) (d : Descriptor) (u : Nat) (bs : List Byte) : State :=
  match (s.slot n).run with
  | none => s
  | some r => match r.dst with
    | none => s
    | some x =>
      let f := if r.undefined then freeBytes bs.length s else (bs, s)
      match xlatWrite f.2 x (dstOffset d r u) f.1 with
      | (s, .failed st _) => endStep s n st 0 d.self
      | (s, .done) => s

/-- The neighbouring units of a list, joined: first unit and bytes. -/
def joinUnits : List (Nat × List Byte) → List (Nat × Nat × List Byte)
  | [] => []
  | (u, b) :: rest =>
    match joinUnits rest with
    | (v, k, c) :: more => if v = u + 1 then (u, k + 1, b ++ c) :: more else (u, 1, b) :: (v, k, c) :: more
    | [] => [(u, 1, b)]

/-- Record the final bits of some units, count the NaNs among them, and write them to DST. -/
def putFinals (s : State) (n : Nat) (d : Descriptor) (fs : List (Nat × List Byte)) : State :=
  let nans := fs.foldl (fun a f => a + ((decodeUnit d.outFmt (granD d) f.2).filter isNan).length) 0
  let s := countPress s 0 nans
  let s := s.modRunOf n (fun r => { r with final := fs.foldl (fun t f => t.put f.1 f.2) r.final })
  forEach (joinUnits fs) s (fun s j => writeDst s n d j.1 j.2.2)

/-- Round the units among `us` that this member owns and has whole to OUT_FMT (R166). -/
def finishUnits (s : State) (n : Nat) (d : Descriptor) (us : List Nat) : State :=
  match (s.slot n).run with
  | none => s
  | some r =>
    let mine := us.filter (fun u => ownsUnit d r u && done2 d r u && (r.final.find u).isNone)
    let es := mine.map (fun u => (u, encodeUnit d.outFmt nearest (r.work.findD u [])))
    putFinals (countPress s (es.foldl (fun a e => a + e.2.2) 0) 0) n d (es.map (fun e => (e.1, e.2.1)))

/-! ### Acknowledgement -/

/-- A path entry of the active plan for a stream of a slot (R242). -/
def pathFor (s : State) (slot st : Nat) : Option PathEnt :=
  match s.plans.active with
  | none => none
  | some p => p.paths.find? (fun x => x.slot == slot && x.stream == st)

/-- The circuit of an outgoing ring stream (R157, R182, R332). -/
def streamCircuit (s : State) (n st : Nat) : Option (Nat × Nat) :=
  if ((s.slot n).outs.findD (2 * st) default).unbound then none
  else match s.plans.active with
    | none => none
    | some p => match p.circuits.find? (fun c => c.txKind == 2 && c.txArg % 64 == n && c.txArg / 256 % 8 == st) with
      | some c => some (c.port, c.circuit)
      | none => none

/-- The flow number of a stream, beside those of QPs and raw sends (R233). -/
def streamFlow (n st : Nat) : Nat := 2 ^ 21 + n * 8 + st

/-- Send a CSP packet over UDP from a port to an address (R120, R181, R225, R242). -/
def ethCsp (s : State) (n st port vid : Nat) (v6 : Bool) (dscp : Nat) (dst : BitVec 128) (member owner : Nat)
    (response : Bool) (p : CspPacket) : State :=
  match udpFrame s port vid v6 none dst dscp (49152 + streamFlow n st % 16384) (fld (s.slot n).cfg 47 32) (cspLen p)
      (bit s.tp.cfg 0) (.csp p) with
  | none => s
  | some f => ethQueue s port member ⟨f, streamFlow n st, owner, dscp / 8, response, 0, false, none, s.now⟩

/-- A CSP packet of a descriptor (R181). -/
def cspBase (s : State) (d : Descriptor) (typ level st : Nat) : CspPacket :=
  { (default : CspPacket) with
    typ := BitVec.ofNat 8 typ, level := BitVec.ofNat 8 level, stream := BitVec.ofNat 8 st
    collId := BitVec.ofNat 32 d.collId, sender := BitVec.ofNat 32 d.self, pkey := BitVec.ofNat 16 d.pkey
    ts := BitVec.ofNat 32 s.now, crcOk := true }

/-- Send the ACK an incoming stream owes, if a microsecond has passed since its last (R180, R181, R184). -/
def flushAck (s : State) (n key : Nat) : State :=
  match (s.slot n).desc with
  | none => s
  | some d =>
    let i := (s.slot n).ins.findD key default
    let due := match i.lastAck with | none => true | some t => decide (t + 1000 ≤ s.now)
    if !i.owed || !due then s
    else
      let echo := i.ce && (match i.lastEcho with
        | none => true | some t => decide (t + max 1 (fld s.tp.ack 7 0) * 1000 ≤ s.now))
      let st := senderStream d key
      let p : CspPacket := { cspBase s d 0x42 (streamLevel (key / 2)) st with
        ceEcho := echo, seq := BitVec.ofNat 32 i.arrived, offset := BitVec.ofNat 32 i.consumed, ts := i.ackTs }
      let s := s.modIn n key (fun i => { i with
        owed := false, lastAck := some s.now, ce := i.ce && !echo
        lastEcho := if echo then some s.now else i.lastEcho })
      let s := chargeShared s [(1, cspLen p)]
      let far := (inPeer d key).getD d.self
      match i.ackArr.port with
      | some x =>
        if isEth s x.toNat then
          let e := pathFor s n (key / 2)
          ethCsp s n (key / 2) x.toNat (e.elim 0 (·.vid)) (i.ackArr.srcIp.toNat % 2 ^ 96 != 0)
            (e.elim 0 (·.dscp)) i.ackArr.srcIp far d.owner true p
        else inject s (d.members.getD far 0) 2 3 (cspLen p) p.pkey (.csp p)
      | none => inject s (d.members.getD far 0) 2 3 (cspLen p) p.pkey (.csp p)

/-- Send every ACK that is owed and due. -/
def flushAcks (s : State) : State :=
  forEach s.coll.slots.keys s (fun s n => forEach streamKeys s (fun s key => flushAck s n key))

/-- An incoming stream owes an ACK. -/
def oweAck (s : State) (n key : Nat) : State := flushAck (s.modIn n key (fun i => { i with owed := true })) n key

/-! ### Arrival of pieces -/

/-- GATHER and length that the running step gives for the next piece to arrive on a stream (R181). -/
def expected (s : State) (n key : Nat) : Option (Bool × Nat) :=
  match (s.slot n).desc, (s.slot n).run with
  | some d, some r =>
    let i := (s.slot n).ins.findD key default
    pieceAt d (streamLevel (key / 2)) (inList d r key) (dmod 64 i.arrived i.base)
  | _, _ => none

/-- Where piece `count` of an incoming stream lies in the staging area (R179): the two trees of a stream share its ring
(log entries 22, 75). -/
def stageAt (d : Descriptor) (key count : Nat) : Nat :=
  d.stageBase + ((key / 2) * d.stage + count % max 1 d.stage) * pieceBytes d

/-- The piece now arriving is whole: its arrival counter rises and it waits to be pressed (R180). -/
def pieceArrived (s : State) (n key : Nat) : State :=
  match (s.slot n).desc with
  | none => s
  | some d =>
    let i := (s.slot n).ins.findD key default
    let s := addCounter s (creditId d (8 + key / 2)) 1 doorbellRank
    oweAck (s.modIn n key (fun x => { x with
      arrived := wrap 64 (x.arrived + 1), staged := x.staged ++ [i.partialPiece], partialPiece := default })) n key

/-- What has arrived of a piece fits the running step; none ends it with FORMAT_FAULT (R181). A piece is cut into packets
of 4,096 bytes and a shorter last one, which the spec does not say; with no step running a shorter packet ends its piece
(DESIGN CHOICE, log entry 128). -/
def pieceFits (s : State) (n step len : Nat) (gather : Bool) (e : Bool × Nat) : Bool :=
  match (s.slot n).run with
  | none => true
  | some r => step == r.step && gather == e.1 && decide (len ≤ e.2) && (len == e.2 || len % 4096 == 0)

/-- FORMAT_FAULT against the peer of an incoming stream (R181, R188). -/
def formatFault (s : State) (n key : Nat) : State :=
  let d := (s.slot n).desc.getD default
  endStep s n St.formatFault (streamLevel (key / 2)) ((inPeer d key).getD d.self)

/-- When a step begins, a piece that had arrived before it whole, but was not known to be, is known now. -/
def rescan (s : State) (n key : Nat) : State :=
  let i := (s.slot n).ins.findD key default
  match expected s n key with
  | some e => if !i.partialPiece.bytes.isEmpty && i.partialPiece.bytes.length == e.2 then pieceArrived s n key else s
  | none => s

end Sys2Proof.Machine
end

