-- ==== Sys2Proof/Machine/PlanImage.lean ====
section
/-! DEFINITION. The bytes of a plan image (R38 to R41, R156, R213, R216, R238, R242, R262, R314, R327):
header, directory, the structure of each section, and the plan that the sections spell. -/

namespace Sys2Proof.Machine

/-- A failed check of R46: step, directory index of the section (0xFF for the header), item, code. -/
structure Fail where
  step : Nat
  sec : Nat
  item : Nat
  code : Nat
  deriving DecidableEq, Repr, Inhabited

/-- A failure refused with PLAN_MISMATCH. -/
def mismatch (step sec item : Nat) : Option Fail := some ⟨step, sec, item, St.planMismatch⟩

/-- A failure in the header. -/
def headerFail (step : Nat) : Option Fail := mismatch step 0xFF 0

/-- The first failure of a list of checks in order. -/
def firstFail : List (Option Fail) → Option Fail
  | [] => none
  | some f :: _ => some f
  | none :: rest => firstFail rest

/-- Longest image, 64 MiB (R37). -/
def maxImage : Nat := 67108864

/-- Least multiple of `k` not below `n`. -/
def roundUp (k n : Nat) : Nat := (n + k - 1) / k * k

/-- `n` little-endian 32-bit entries from offset `o`. -/
def words32 (b : List Byte) (o n : Nat) : List (BitVec 32) :=
  (List.range n).map (fun i => BitVec.ofNat 32 (leAt b (o + 4 * i) 4))

/-- Records of `k` bytes from offset `o`, `n` of them. -/
def records (b : List Byte) (o k n : Nat) : List (List Byte) := (List.range n).map (fun i => slice b (o + k * i) k)

/-! ### Header and directory -/

/-- An entry of the section directory (R39). -/
structure DirEnt where
  typ : Nat
  ver : Nat
  zero : Nat
  off : Nat
  len : Nat
  deriving DecidableEq, Repr, Inhabited

/-- A section: its directory index, entry and bytes. -/
structure Section where
  idx : Nat
  ent : DirEnt
  bytes : List Byte
  deriving DecidableEq, Repr, Inhabited

/-- Step 1 on the header of an image (R38, R46). -/
def headOk (img : List Byte) : Bool :=
  slice img 0 4 == [0x5A#8, 0x4E#8, 0x50#8, 0x4C#8]
    && leAt img 4 2 == 1 && decide (leAt img 6 2 ≤ 1) && leAt img 0x18 8 == img.length && decide (256 ≤ img.length)
    && decide (img.length ≤ maxImage) && zeroAt img 0x16 2 && zeroAt img 0x38 8 && zeroAt img 0x60 160

/-- The image with its DIGEST set to zero (R38). -/
def undigested (img : List Byte) : List Byte := img.take 64 ++ List.replicate 32 0 ++ img.drop 96

/-- Step 2: DIGEST is the SM3 hash of the image. -/
def digestOk (img : List Byte) : Bool := (sm3 (undigested img)).toNat == beVal (slice img 64 32)

/-- SECTION_COUNT. -/
def sectionCount (img : List Byte) : Nat := leAt img 0x14 2

/-- The directory (R39). -/
def directory (img : List Byte) : List DirEnt :=
  (List.range (min 64 (sectionCount img))).map (fun i =>
    let o := 256 + 16 * i
    ⟨leAt img o 2, leAt img (o + 2) 2, leAt img (o + 4) 4, leAt img (o + 8) 4, leAt img (o + 12) 4⟩)

/-- The sections of an image, in directory order. -/
def sections (img : List Byte) : List Section :=
  let d := directory img
  (List.range d.length).zip d |>.map (fun e => ⟨e.1, e.2, slice img e.2.off e.2.len⟩)

/-- A VERSION accepted by the image's format (R39). -/
def versionOk (minor : Nat) (e : DirEnt) : Bool :=
  decide (1 ≤ e.typ ∧ e.typ ≤ 9) && (e.ver == 1 || (minor == 1 && e.ver == 2 && (e.typ == 5 || e.typ == 8)))

/-! ### Records of varying length -/

/-- Bytes of a descriptor record (R156). -/
def descBytes (b : List Byte) : Nat := roundUp 64 (128 + 4 * (leAt b 0x10 4 * leAt b 0x14 4))

/-- Cut `n` descriptor records; none where they do not fill the bytes exactly. -/
def cutDescs : Nat → List Byte → Option (List (List Byte))
  | 0, b => if b.isEmpty then some [] else none
  | n + 1, b =>
    if b.length < 128 ∨ b.length < descBytes b then none
    else (cutDescs n (b.drop (descBytes b))).map (b.take (descBytes b) :: ·)

/-- Cut `n` items of an alternate, each padded to a multiple of 16 (R327). -/
def cutItems : Nat → List Byte → Option (List (List Byte) × List Byte)
  | 0, b => some ([], b)
  | n + 1, b =>
    let k := roundUp 16 (4 + leAt b 2 2)
    if b.length < 4 ∨ b.length < k then none
    else (cutItems n (b.drop k)).map (fun r => (b.take (4 + leAt b 2 2) :: r.1, r.2))

/-- Cut `n` entries of an ALTERNATES section: head and items. -/
def cutAlts : Nat → List Byte → Option (List (List Byte × List (List Byte)))
  | 0, b => if b.isEmpty then some [] else none
  | n + 1, b =>
    if b.length < 16 then none
    else match cutItems (leAt b 8 2) (b.drop 16) with
      | none => none
      | some (is, rest) => (cutAlts n rest).map ((b.take 16, is) :: ·)

/-- Cut `n` gate blocks, each padded to a multiple of 16 (R238). -/
def cutGates : Nat → List Byte → Option (List (List Byte) × List Byte)
  | 0, b => some ([], b)
  | n + 1, b =>
    let m := leAt b 2 2
    let k := roundUp 16 (16 + 4 * m)
    if b.length < 16 ∨ m = 0 ∨ m > 256 ∨ b.length < k then none
    else (cutGates n (b.drop k)).map (fun r => (b.take (16 + 4 * m) :: r.1, r.2))

/-- The sets of a SET_MASK, ascending (R216). -/
def maskSets (m : Nat) : List Nat := (List.range 17).filter (fun i => m.testBit i)

/-- The head of a section: counts in range, zero bytes zero, and the LENGTH that they imply (R39). -/
def structureOk (typ : Nat) (b : List Byte) : Bool :=
  let n := leAt b 0 4
  let plain := fun (size : Nat) => decide (64 ≤ b.length) && zeroAt b 4 60 && b.length == 64 + size * n
  match typ with
  | 1 => plain 16
  | 2 => let c := leAt b 2 2
    decide (16 ≤ b.length) && decide (leAt b 0 1 < 16) && zeroAt b 1 1 && zeroAt b 8 8 && decide (1 ≤ c ∧ c ≤ 4096)
      && b.length == 16 + 4 * c
  | 3 => decide (64 ≤ b.length) && zeroAt b 4 60 && decide (n < 2 ^ 17) && b.length == 64 + 12288 * (maskSets n).length
  | 4 => plain 32
  | 5 => decide (64 ≤ b.length) && zeroAt b 4 60 && decide (1 ≤ n ∧ n ≤ 64) && (cutDescs n (b.drop 64)).isSome
  | 6 => plain 64 && decide (n ≤ 256)
  | 7 => plain 16 && decide (1 ≤ n ∧ n ≤ 256)
  | 8 => decide (64 ≤ b.length) && zeroAt b 4 4 && zeroAt b 16 48 && decide (n ≤ 4096) && (cutAlts n (b.drop 64)).isSome
  | 9 => decide (64 ≤ b.length) && zeroAt b 4 60 && (match cutGates (leAt b 0 2) (b.drop 64) with
      | some (_, rest) => rest.length == 32 * leAt b 2 2
      | none => false)
  | _ => false

/-- A section stands alone: no earlier one overlaps it, has its type, or schedules its port (R39). -/
def aloneOk (x : Section) (before : List Section) : Bool :=
  !before.any (fun y => overlaps x.ent.off x.ent.len y.ent.off y.ent.len
    || (x.ent.typ == y.ent.typ && (x.ent.typ != 2 || leAt x.bytes 0 1 == leAt y.bytes 0 1)))

/-- Step 6 on one section (R39). -/
def sectionOk (img : List Byte) (before : List Section) (x : Section) : Bool :=
  x.ent.zero == 0 && versionOk (leAt img 6 2) x.ent && x.ent.off % 64 == 0
    && decide (256 + 16 * sectionCount img ≤ x.ent.off) && decide (x.ent.off + x.ent.len ≤ img.length)
    && structureOk x.ent.typ x.bytes && aloneOk x before

/-- Step 6 on a list of sections, with those already passed. -/
def sectionsFail (img : List Byte) (passed : List Section) : List Section → Option Fail
  | [] => none
  | x :: xs => if sectionOk img passed x then sectionsFail img (x :: passed) xs else mismatch 6 x.idx 0

/-- Step 6 (R39, R46). -/
def structureFail (img : List Byte) : Option Fail :=
  if sectionCount img = 0 ∨ sectionCount img > 64 ∨ 256 + 16 * sectionCount img > img.length then headerFail 6
  else sectionsFail img [] (sections img)

/-! ### Contents -/

/-- A claim entry (R41). -/
def claimOf (b : List Byte) : Claim :=
  ⟨leAt b 0 1, leAt b 1 1, leAt b 2 1, leAt b 3 1, leAt b 4 4, leAt b 8 4, leAt b 12 4⟩

/-- A port schedule (R40). -/
def schedOfBytes (b : List Byte) : Sched := ⟨leAt b 0 1 % 16, leAt b 4 4, words32 b 16 (leAt b 2 2)⟩

/-- The nonzero values of a list with their numbers. -/
def listed {n : Nat} (vs : List (BitVec n)) : Tbl (BitVec n) :=
  ⟨((List.range vs.length).zip vs).filter (fun x => x.2 != 0)⟩

/-- A table set (R216). -/
def routeSetOf (b : List Byte) : RouteSet :=
  { group := listed (words32 b 0 512), member := listed (words32 b 2048 512)
    keys := listed ((List.range 1024).map (fun i => BitVec.ofNat 64 (leAt b (4096 + 8 * i) 8))) }

/-- The sets of a ROUTING section (R216). -/
def routingOf (b : List Byte) : Tbl RouteSet :=
  ⟨(maskSets (leAt b 0 4)).zip ((records b 64 12288 (maskSets (leAt b 0 4)).length).map routeSetOf)⟩

/-- A circuit entry, none where a field is out of its layout (R213). -/
def circuitOf (b : List Byte) : Option Circuit :=
  let tk := leAt b 4 1
  let rk := leAt b 5 1
  let ta := leAt b 8 4
  let ra := leAt b 12 4
  if leAt b 0 2 < 16 ∧ tk ≤ 3 ∧ rk ≤ 2 ∧ zeroAt b 6 2 ∧ zeroAt b 16 16
      ∧ (if tk = 1 then ta < 2 ^ 20 else if tk = 2 then ta = ta % 64 + ta / 256 % 8 * 256 else ta = 0)
      ∧ (if rk = 2 then ra < 2 ^ 20 else ra = 0)
  then some ⟨leAt b 0 2, leAt b 2 2, tk, rk, ta, ra⟩ else none

/-- A descriptor record, none where a field is out of its layout (R156, R157). -/
def descOf (ver : Nat) (b : List Byte) : Option Descriptor :=
  let n1 := leAt b 0x10 4
  let n2 := leAt b 0x14 4
  let mode := leAt b 7 1
  let ms := (words32 b 128 (n1 * n2)).map (·.toNat)
  let rest := 128 + 4 * (n1 * n2)
  if 1 ≤ leAt b 0 4 ∧ leAt b 4 1 < 64 ∧ mode < 32 ∧ (ver = 2 ∨ mode / 2 % 4 = 0) ∧ 1 ≤ leAt b 0xC 1 ∧ leAt b 0xC 1 ≤ 4
      ∧ zeroAt b 0xD 1 ∧ leAt b 0xE 2 < 4096 ∧ 1 ≤ n1 ∧ 1 ≤ n2 ∧ 12 ≤ leAt b 0x24 1 ∧ leAt b 0x24 1 ≤ 20
      ∧ 2 ≤ leAt b 0x25 1 ∧ leAt b 0x25 1 ≤ 64 ∧ leAt b 0x30 8 % gran = 0 ∧ leAt b 0x38 8 % gran = 0
      ∧ leAt b 0x40 4 < 2 ^ 21 ∧ zeroAt b 0x44 60 ∧ ms.all (· < 2 ^ 18) ∧ zeroAt b rest (b.length - rest)
  then some
    { collId := leAt b 0 4, slot := leAt b 4 1, owner := leAt b 5 1, op := leAt b 6 1, mode := mode
      inFmt := leAt b 8 1, outFmt := leAt b 9 1, wire1 := leAt b 0xA 1, wire2 := leAt b 0xB 1, inputs := leAt b 0xC 1
      l0Seg := leAt b 0xE 2, n1 := n1, n2 := n2, self := leAt b 0x18 4, maxElems := leAt b 0x1C 4
      treeMax := leAt b 0x20 4, pieceLog := leAt b 0x24 1, stage := leAt b 0x25 1, pkey := leAt b 0x26 2
      circ1 := leAt b 0x28 2, circ2 := leAt b 0x2A 2, stepLimit := leAt b 0x2C 4, stageBase := leAt b 0x30 8
      efBase := leAt b 0x38 8, creditBase := leAt b 0x40 4, members := ms }
  else none

/-- A couch entry, none where a field is out of its layout (R262). -/
def couchOf (b : List Byte) : Option CouchEnt :=
  let role := leAt b 2 1
  let owner := leAt b 3 1
  if (role = 0 ∧ owner < 128 ∨ role = 1 ∧ owner = 0xFF ∧ leAt b 8 4 = 0) ∧ 1 ≤ leAt b 4 4 ∧ leAt b 0x14 4 < 2 ^ 18
      ∧ leAt b 0x18 4 < 2 ^ 20 ∧ zeroAt b 0x22 30
  then some ⟨leAt b 0 2, role, owner, leAt b 4 4, leAt b 8 4, leAt b 0xC 4, leAt b 0x10 4, leAt b 0x14 4,
    leAt b 0x18 4, leAt b 0x1C 4, leAt b 0x20 2⟩
  else none

/-- A reservation (R314); `zero` gathers its zero fields. -/
def energyOf (b : List Byte) : EnergyEnt := ⟨leAt b 0 1, leAt b 4 4, leAt b 8 4, leAt b 1 3 + leAt b 12 4⟩

/-- An item of an alternate (R327); one out of its layout is `unknown`. -/
def itemOf (ver : Nat) (b : List Byte) : AltItem :=
  let t := leAt b 0 1
  let x := b.drop 4
  if !zeroAt b 1 1 then .unknown t
  else if t = 1 ∧ x.length = 8 ∧ leAt x 0 1 < 16 ∧ zeroAt x 1 1
    then .sheet (leAt x 0 1) (leAt x 2 2) (BitVec.ofNat 32 (leAt x 4 4))
  else if t = 2 ∧ x.length = 32 then (match circuitOf x with | some c => .circuit c | none => .unknown t)
  else if t = 3 ∧ x.length = 8 ∧ leAt x 0 2 < 16 ∧ zeroAt x 4 4 then .dropCircuit (leAt x 0 2) (leAt x 2 2)
  else if t = 4 ∧ ver = 2 ∧ 128 ≤ x.length ∧ x.length = descBytes x
    then (match descOf 2 x with | some d => .descriptor d | none => .unknown t)
  else if t = 5 ∧ ver = 2 ∧ x.length = 8 ∧ leAt x 0 1 < 64 ∧ zeroAt x 1 7 then .endSlot (leAt x 0 1)
  else .unknown t

/-- An entry of the ALTERNATES section, none where its head is out of its layout (R327). -/
def altOf (ver : Nat) (x : List Byte × List (List Byte)) : Option AltEnt :=
  let b := x.1
  let kind := leAt b 2 1
  let trig := leAt b 3 1
  if (kind = 0 ∧ (trig < 16 ∨ trig = 0xFF) ∨ kind = 1 ∧ ver = 2 ∧ trig = 0xFF) ∧ leAt b 4 4 < 2 ^ 18 ∧ zeroAt b 0xA 6
  then some ⟨leAt b 0 2, kind, trig, leAt b 4 4, x.2.map (itemOf ver)⟩ else none

/-- A gate block, none where a field is out of its layout (R238). -/
def gateOf (b : List Byte) : Option GateBlock :=
  let es := words32 b 16 (leAt b 2 2)
  if leAt b 0 1 < 16 ∧ zeroAt b 1 1 ∧ leAt b 4 4 % 16 = 0 ∧ zeroAt b 8 8 ∧ es.all (fun e => decide (4 ≤ e.toNat % 2 ^ 24))
  then some ⟨leAt b 0 1, leAt b 4 4, 0, es⟩ else none

/-- A path entry, none where a field is out of its layout (R242). -/
def pathOf (b : List Byte) : Option PathEnt :=
  let v6 := leAt b 3 1 == 1
  if leAt b 0 1 < 64 ∧ leAt b 1 1 < 8 ∧ leAt b 2 1 < 16 ∧ leAt b 3 1 < 2 ∧ leAt b 4 2 < 4096 ∧ leAt b 6 1 < 64
      ∧ zeroAt b 7 1 ∧ zeroAt b 0x18 8 ∧ (v6 ∨ zeroAt b 0xC 12)
  then some ⟨leAt b 0 1, leAt b 1 1, leAt b 2 1, v6, leAt b 4 2, leAt b 6 1, BitVec.ofNat 128 (beVal (slice b 8 16))⟩
  else none

/-! ### The plan -/

/-- The first section of a type; empty where there is none. -/
def secBytes (ss : List Section) (typ : Nat) : List Byte :=
  match ss.find? (fun x => x.ent.typ == typ) with | some x => x.bytes | none => []

/-- VERSION of the section of a type. -/
def secVer (ss : List Section) (typ : Nat) : Nat :=
  match ss.find? (fun x => x.ent.typ == typ) with | some x => x.ent.ver | none => 0

/-- The records of a section with a 64-byte header that begins with COUNT. -/
def entriesOf (b : List Byte) (k : Nat) : List (List Byte) := records b 64 k (leAt b 0 4)

/-- The descriptor records, alternates, gate blocks and paths of their sections. -/
def descRecs (b : List Byte) : List (List Byte) := (cutDescs (leAt b 0 4) (b.drop 64)).getD []
def altRecs (b : List Byte) : List (List Byte × List (List Byte)) := (cutAlts (leAt b 0 4) (b.drop 64)).getD []
def gateRecs (b : List Byte) : List (List Byte) := match cutGates (leAt b 0 2) (b.drop 64) with | some r => r.1 | none => []
def pathRecs (b : List Byte) : List (List Byte) := match cutGates (leAt b 0 2) (b.drop 64) with
  | some r => records r.2 0 32 (leAt b 2 2) | none => []

/-- The plan an image spells (R38 to R41). -/
def planOf (img : List Byte) : Plan :=
  let ss := sections img
  let sec := secBytes ss
  { image := img
    planId := BitVec.ofNat 64 (leAt img 8 8)
    minor := leAt img 6 2
    node := leAt img 0x10 4
    epoch := leAt img 0x20 8
    timeBudget := leAt img 0x28 4
    drainBound := if leAt img 0x2C 4 = 0 then 100000 else leAt img 0x2C 4
    rejoin := leAt img 0x30 8
    digest := BitVec.ofNat 256 (beVal (slice img 64 32))
    claims := (entriesOf (sec 1) 16).map claimOf
    scheds := (ss.filter (fun x => x.ent.typ == 2)).map (fun x => schedOfBytes x.bytes)
    routing := routingOf (sec 3)
    circuits := (entriesOf (sec 4) 32).filterMap circuitOf
    collVersion := secVer ss 5
    descs := (descRecs (sec 5)).filterMap (descOf (secVer ss 5))
    couch := (entriesOf (sec 6) 64).filterMap couchOf
    hasEnergy := ss.any (fun x => x.ent.typ == 7)
    energy := (entriesOf (sec 7) 16).map energyOf
    hasAlts := ss.any (fun x => x.ent.typ == 8)
    altsVersion := secVer ss 8
    altPeriod := leAt (sec 8) 8 8
    altHash := sm3 (sec 8)
    alts := (altRecs (sec 8)).filterMap (altOf (secVer ss 8))
    gates := (gateRecs (sec 9)).filterMap gateOf
    paths := (pathRecs (sec 9)).filterMap pathOf }

/-- An alternate's item takes effect on a plan (R327). -/
def applyItem (p : Plan) : AltItem → Plan
  | .sheet port i e => { p with scheds := p.scheds.map (fun d => if d.port = port then { d with sheets := d.sheets.set i e } else d) }
  | .circuit c => { p with circuits := p.circuits.filter (fun x => !(x.port == c.port && x.circuit == c.circuit)) ++ [c] }
  | .dropCircuit port n => { p with circuits := p.circuits.filter (fun x => !(x.port == port && x.circuit == n)) }
  | .descriptor d => { p with descs := p.descs.filter (fun x => x.slot != d.slot) ++ [d] }
  | .endSlot n => { p with descs := p.descs.filter (fun x => x.slot != n) }
  | .unknown _ => p

/-- An alternate applied to a plan. -/
def applyAlt (p : Plan) (a : AltEnt) : Plan := a.items.foldl applyItem p

end Sys2Proof.Machine
end

