-- ==== Sys2Proof/Machine/PlanChecks.lean ====
section
/-! DEFINITION. The checks a plan meets at load and after a warm reset (R46, R54), in their order. -/

namespace Sys2Proof.Machine

/-- ERR_LIMIT of TIME_CTRL, ns (R35). -/
def errLimit (s : State) : Nat := fld s.time.ctrl 23 16

/-- A network port is in service in a mode (R47). -/
def portIn (s : State) (p : Nat) (eth : Bool) : Bool :=
  bit (s.port p).cfg 1 && isEth s p == eth && loopOf s p == 0

/-- The index of the first entry of a list that fails a test. -/
def firstBadIdx {α : Type} (ok : α → Bool) (xs : List α) : Option Nat :=
  match ((List.range xs.length).zip xs).find? (fun x => !ok x.2) with | some x => some x.1 | none => none

/-! ### Step 8 -/

/-- ROLE is FREE_RUN (R16). -/
def freeRun (s : State) : Bool := fld s.time.ctrl 3 2 == 2

/-- A sheet entry that a schedule may hold (R23, R24). -/
def sheetOk (s : State) (e : BitVec 32) : Bool :=
  decide (e.toNat / 2 ^ 24 ≤ 252) && decide (sheetKind e < 3) && decide (e.toNat / 2 ^ 16 % 64 = 0)
    && (sheetKind e == 1 || sheetCircuit e == 0) && !(sheetKind e == 1 && freeRun s)

/-- The guard of a schedule (R23). -/
def guardOk (s : State) (d : Sched) : Bool := decide (2 * errLimit s + 32 ≤ d.guard) && d.guard % 16 == 0

/-- A schedule passes R23 and R24. -/
def schedOk (s : State) (d : Sched) : Bool := guardOk s d && d.sheets.all (sheetOk s)

/-- Step 8: each schedule, then REJOIN_PERIOD (R46). -/
def schedFail (s : State) (p : Plan) (ss : List Section) : Option Fail :=
  firstFail ((ss.filter (fun x => x.ent.typ == 2)).map (fun x =>
      let d := schedOfBytes x.bytes
      if !guardOk s d then mismatch 8 x.idx 0
      else match firstBadIdx (sheetOk s) d.sheets with | some i => mismatch 8 x.idx i | none => none)
    ++ [if p.rejoin % 256 = 0 ∧ p.scheds.all (fun d => p.rejoin % reamLen d.sheets == 0) then none else headerFail 8])

/-! ### Steps 9 to 12: claims -/

/-- The largest FIRST + COUNT − 1 of a kind (R41). -/
def claimTop (s : State) (kind : Nat) : Option Nat :=
  match kind with
  | 0x01 => some 524287
  | 0x02 => some 131071
  | 0x03 => some 1048575
  | 0x04 => some 127
  | 0x05 => some 15
  | 0x06 => some (hbmAvail s.hbm - 1)
  | 0x07 => some 65535
  | 0x08 => some 63
  | 0x09 => some 15
  | 0x0A => some 63
  | 0x0B => some 7
  | _ => none

/-- Step 9 on a claim (R41). -/
def claimOk (s : State) (c : Claim) : Bool :=
  match claimTop s c.kind with
  | none => false
  | some top =>
    decide (1 ≤ c.count) && decide (c.first + c.count - 1 ≤ top) && decide (c.flags < 2) && c.zero == 0
      && (decide (c.owner < 128) || (c.owner == 0xFF && c.kind != 0x05))
      && (c.kind != 0x09 || decide (c.attr < 3) || (c.attr == 3 && c.first == 7 && c.count == 1))

/-- Two claims take the same thing (R42). -/
def claimsMeet (a b : Claim) : Bool :=
  a.kind == b.kind && (a.kind != 0x05 || a.owner == b.owner)
    && ((a.kind != 0x07 && a.kind != 0x0B) || a.attr % 16 == b.attr % 16)
    && overlaps a.first a.count b.first b.count

/-- Two claims agree in all that R43 names. -/
def sameClaim (a b : Claim) : Bool :=
  a.kind == b.kind && a.owner == b.owner && a.first == b.first && a.count == b.count && a.attr == b.attr

/-- A claim carries over from one plan to the next (R43). -/
def carried (next : List Claim) (c : Claim) : Bool := next.any (fun x => x.flags % 2 == 1 && sameClaim x c)

/-- A claim of GPIO_7 conflicts with TIME_PPS_OUT (R42). -/
def ppsConflict (s : State) (c : Claim) : Bool :=
  c.kind == 0x09 && within 7 1 c.first c.count && c.attr != 3 && bit s.time.ppsCfg 0

/-- Step 10: the first claim in conflict with an earlier one, or with TIME_PPS_OUT. -/
def conflictAt (s : State) (before : List Claim) (i : Nat) : List Claim → Option Nat
  | [] => none
  | c :: cs => if before.any (claimsMeet c) || ppsConflict s c then some i else conflictAt s (c :: before) (i + 1) cs

/-- An instance holds part of what a claim takes, or a granule of it is orphaned (R43, R101). -/
def claimTaken (s : State) (c : Claim) : Bool :=
  (decide (c.kind ≤ 4) || c.kind == 0x06)
      && s.insts.vals.any (fun x => x.res.any (fun r => r.kind == c.kind && overlaps r.first r.count c.first c.count))
    || (c.kind == 0x04 && (rangeFrom c.first c.count).any (fun g => (s.granule g).orphan))

/-- Step 11 on a claim: shared with the active plan, or free of it, of the plan before it that still
drains, and of every instance (R43, R45). -/
def claimFree (s : State) (c : Claim) : Bool :=
  if c.flags % 2 = 1 then (activeClaims s).any (sameClaim c)
  else !(activeClaims s ++ s.plans.oldClaims).any (claimsMeet c) && !claimTaken s c

/-- Numbers that a list of ranges covers, counted once, for ranges sorted by their start. -/
def unionSize : Nat → List (Nat × Nat) → Nat
  | _, [] => 0
  | n, (a, k) :: rest => (max n (a + k) - max n a) + unionSize (max n (a + k)) rest

/-- Put a range into a list sorted by start. -/
def insertRange (r : Nat × Nat) : List (Nat × Nat) → List (Nat × Nat)
  | [] => [r]
  | x :: xs => if r.1 ≤ x.1 then r :: x :: xs else x :: insertRange r xs

/-- The pinned QPs of two lists of claims (R44). -/
def pinnedCount (cs : List Claim) : Nat :=
  unionSize 0 (((cs.filter (fun c => c.kind == 0x03)).map (fun c => (c.first, c.count))).foldr insertRange [])

/-- Steps 9 to 12 (R46); step 11 is left out at a re-check (R54). -/
def claimsFail (s : State) (p : Plan) (ss : List Section) (other : List Claim) (recheck : Bool) : Option Fail :=
  let sec := match ss.find? (fun x => x.ent.typ == 1) with | some x => x.idx | none => 0xFF
  let at_ := fun (step : Nat) (i : Option Nat) => match i with | some i => mismatch step sec i | none => none
  firstFail
    [ at_ 9 (firstBadIdx (claimOk s) p.claims),
      at_ 10 (conflictAt s [] 0 p.claims),
      if recheck then none else at_ 11 (firstBadIdx (claimFree s) p.claims),
      at_ 12 (firstBadIdx (fun i => decide (pinnedCount (other ++ p.claims.take (i + 1)) ≤ 61440)) (List.range p.claims.length)) ]

/-! ### Step 13 -/

/-- A table entry breaks no layout and names only fabric ports in service (R216). -/
def routeOk (s : State) (e : BitVec 32) : Bool :=
  let w := e.setWidth 64
  fld w 30 28 == 0 && fld w 15 13 == 0 && fld w 7 0 == 0
    && (!bit w 31 || (portIn s (fld w 19 16) false && (!bit w 8 || portIn s (fld w 23 20) false)
        && (!bit w 9 || portIn s (fld w 27 24) false)))

/-- The first failing entry of a routing section: 1,024 times the set, plus the index, member entries
after the group's 512. -/
def routingBad (s : State) (t : Tbl RouteSet) : Option Nat :=
  (t.cells.flatMap (fun c => c.2.group.cells.map (fun e => (c.1 * 1024 + e.1, e.2))
      ++ c.2.member.cells.map (fun e => (c.1 * 1024 + 512 + e.1, e.2)))).find? (fun e => !routeOk s e.2) |>.map (·.1)

/-- A circuit entry breaks no rule of R213. -/
def circuitFits (s : State) (p : Plan) (c : Circuit) : Bool :=
  p.claims.any (fun k => k.kind == 0x07 && k.attr % 16 == c.port && within c.circuit 1 k.first k.count)
    && p.scheds.any (fun d => d.port == c.port && d.sheets.any (fun e => sheetKind e == 1 && sheetCircuit e == c.circuit))
    && portIn s c.port false
    && (p.circuits.filter (fun x => x.port == c.port && x.circuit == c.circuit)).length == 1
    && (if c.txKind = 1 then covers p.claims 0x03 c.txArg
        else if c.txKind = 2 then p.descs.any (fun d => d.slot == c.txArg % 64
          && ((c.txArg / 256 == 0 && d.circ1 == c.circuit) || (c.txArg / 256 == 1 && d.circ2 == c.circuit)))
        else if c.txKind = 3 then
          (p.circuits.filter (fun x => x.rxKind == 2 && x.rxArg == c.port * 65536 + c.circuit)).length == 1
        else true)
    && (c.rxKind != 2 || p.circuits.any (fun x => x.txKind == 3 && x.port != c.port
          && c.rxArg == x.port * 65536 + x.circuit))

/-- A range of HBM lies within claims that satisfy a test, granule by granule. -/
def inClaims (cs : List Claim) (ok : Claim → Bool) (a n : Nat) : Bool :=
  n == 0 || (rangeFrom (a / gran) ((a + n - 1) / gran - a / gran + 1)).all (fun g =>
    cs.any (fun c => c.kind == 0x06 && ok c && within g 1 c.first c.count))

/-- A format code of R159. -/
def fmtKnown (f : Nat) : Bool :=
  decide (1 ≤ f ∧ f ≤ 5) || decide (0x10 ≤ f ∧ f ≤ 0x15) || decide (0x20 ≤ f ∧ f ≤ 0x22)

/-- An integer format. -/
def fmtInt (f : Nat) : Bool := decide (0x20 ≤ f ∧ f ≤ 0x22)

/-- The four formats of a descriptor. -/
def fmtsOf (d : Descriptor) : List Nat := [d.inFmt, d.outFmt, d.wire1, d.wire2]

/-- The circuit a descriptor names for a ring stream exists and starts on a fabric-mode port (R158). -/
def ringCircuitOk (s : State) (p : Plan) (d : Descriptor) (st circ : Nat) : Bool :=
  circ == 0xFFFF || p.circuits.any (fun c => c.circuit == circ && c.txKind == 2 && c.txArg == d.slot + 256 * st
    && !isEth s c.port)

/-- L0_SEG names a segment of OWNER for each input above 0, and the plan claims it (R41, R158). -/
def l0SegsOk (p : Plan) (d : Descriptor) : Bool :=
  (List.range (d.inputs - 1)).all (fun i => (claimFor p.claims 0x05 d.owner (d.l0Seg / 16 ^ i % 16)).isSome)

/-- A key is a member of set 16, the local set, in the plan's own tables (R211). -/
def planMember (p : Plan) (k : Nat) : Bool := ((p.routing.findD 16 default).keys.findD (k / 64) 0).getLsbD (k % 64)

/-- A descriptor breaks no rule of R158 and R211. -/
def descFits (s : State) (p : Plan) (d : Descriptor) : Bool :=
  decide (d.n1 * d.n2 ≤ 262144) && decide (d.self < d.n1 * d.n2) && d.members[d.self]? == some (nodeId s)
    && decide (d.owner < 128) && (claimFor p.claims 0x08 d.owner d.slot).isSome
    && (p.descs.filter (fun x => x.slot == d.slot)).length == 1
    && (p.descs.filter (fun x => x.collId == d.collId)).length == 1
    && (fmtsOf d).all fmtKnown && decide (1 ≤ d.op ∧ d.op ≤ 6)
    && ((fmtsOf d).all fmtInt || (decide (d.op ≤ 3) && (fmtsOf d).all (fun f => !fmtInt f)))
    && (d.mode % 2 == 0 || (fmtsOf d).all (fun f => f == 1 || f == 2))
    && (!fmtInt d.inFmt || d.mode / 2 == 0)
    && (d.mode / 8 % 4 == 0 || d.efBase != 0)
    && inClaims p.claims (fun c => c.owner == 0xFF) d.stageBase (8 * d.stage * 2 ^ d.pieceLog)
    && inClaims p.claims (fun c => c.owner == 0xFF) d.efBase (residualSize d)
    && (match claimFor p.claims 0x04 0xFF (granOf d.creditBase) with | some c => c.attr % 2 == 0 | none => false)
    && d.creditBase % 16 == 0 && idxOk false d.creditBase
    && ringCircuitOk s p d 0 d.circ1 && ringCircuitOk s p d 1 d.circ2
    && l0SegsOk p d && planMember p d.pkey
where
  /-- Bytes of the residual area (R158); none while EF_BASE is 0. -/
  residualSize (d : Descriptor) : Nat := if d.efBase = 0 then 0 else 8 * d.maxElems

/-- The generations of a list of couch entries, as ranges. -/
def genRanges (cs : List CouchEnt) : List (Nat × Nat) := cs.flatMap (fun c => [(c.gen0, c.length), (c.gen1, c.length)])

/-- A couch entry breaks no rule of R262 and R263. -/
def couchFits (p : Plan) (c : CouchEnt) : Bool :=
  (p.couch.filter (fun x => x.region == c.region)).length == 1
    && (c.role == 1 || p.claims.any (fun k => k.kind == 0x06 && k.attr % 2 == 0 && k.owner == c.owner
          && within c.source c.length k.first k.count))
    && inClaims p.claims (fun k => k.attr % 2 == 1) (c.gen0 * gran) (c.length * gran)
    && inClaims p.claims (fun k => k.attr % 2 == 1) (c.gen1 * gran) (c.length * gran)
    && !overlaps c.gen0 c.length c.gen1 c.length
    && (genRanges p.couch).all (fun r => (genRanges [c]).contains r
          || !(overlaps r.1 r.2 c.gen0 c.length || overlaps r.1 r.2 c.gen1 c.length))
    && ((genRanges p.couch).filter (fun r => (genRanges [c]).contains r)).length == 2
    && (claimFor p.claims 0x03 0xFF c.qp).isSome
    && (c.role == 1 || (p.couch.filter (fun x => x.role == 0 && x.qp == c.qp)).length == 1)

/-- A reservation breaks no rule of R314. -/
def energyFits (p : Plan) (e : EnergyEnt) : Bool :=
  e.zero == 0 && decide (e.kind ≤ 4) && decide (1 ≤ e.mw ∧ e.mw ≤ 700000)
    && (p.energy.filter (fun x => x.kind == e.kind && x.target == e.target)).length == 1
    && (if e.kind = 0 then e.target == 0
        else if e.kind = 1 then decide (e.target < 128)
        else if e.kind = 2 then p.descs.any (fun d => d.slot == e.target)
        else if e.kind = 3 then p.couch.any (fun c => c.role == 0 && c.region == e.target)
        else p.scheds.any (fun d => d.port == e.target))

/-- An item may take effect on the plan as loaded (R328). -/
def itemFits (p : Plan) (a : AltEnt) : AltItem → Bool
  | .sheet port i e => match p.scheds.find? (fun d => d.port == port) with
      | some d => match d.sheets[i]? with
        | some old => sheetKind old == 2 && sheetLen old == sheetLen e
        | none => false
      | none => false
  | .circuit _ => true
  | .dropCircuit _ _ => true
  | .descriptor d => match p.descs.find? (fun x => x.slot == d.slot) with
      | some o => o.owner == d.owner && o.op == d.op && o.mode == d.mode && fmtsOf o == fmtsOf d && o.collId != d.collId
          && (a.kind == 0 || (d.stepLimit != 0 && o.stepLimit != 0))
      | none => false
  | .endSlot n => a.kind == 0 || (match p.descs.find? (fun x => x.slot == n) with | some o => o.stepLimit != 0 | none => false)
  | .unknown _ => false

/-- An alternate breaks no rule of R328. -/
def altFits (s : State) (p : Plan) (a : AltEnt) : Bool :=
  let q := applyAlt p a
  (p.alts.filter (fun x => x.alt == a.alt)).length == 1 && a.items.all (itemFits p a)
    && q.scheds.all (schedOk s) && q.circuits.all (circuitFits s q) && q.descs.all (descFits s q)

/-- A gate block breaks no rule of R238. -/
def gateFits (s : State) (p : Plan) (g : GateBlock) : Bool :=
  portIn s g.port true && (p.gates.filter (fun x => x.port == g.port)).length == 1
    && g.entries.all (fun e => (List.range 8).all (fun t => (e.toNat / 2 ^ 24).testBit t
        || p.claims.any (fun c => c.kind == 0x0B && c.attr % 16 == g.port && within t 1 c.first c.count)))

/-- A path entry breaks no rule of R242. A re-check finds the ports as the plan found them at load (R47), and does not
look for the VLAN entries, which a warm reset has emptied (log entry 120). -/
def pathFits (s : State) (p : Plan) (recheck : Bool) (x : PathEnt) : Bool :=
  p.descs.any (fun d => d.slot == x.slot && (x.stream < 2 || d.treeMax != 0)
      && ((outPeer d (2 * x.stream)).isSome || (outPeer d (2 * x.stream + 1)).isSome))
    && (p.paths.filter (fun y => y.slot == x.slot && y.stream == x.stream)).length == 1
    && portIn s x.port true
    && (recheck || (vlanWith (s.ethPort x.port) x.vid x.v6 none).isSome)

/-- An entry of a section whose bytes parse and which fits. -/
def fits {α : Type} (f : α → Bool) (o : Option α) : Bool := match o with | some x => f x | none => false

/-- Step 13 on one section: the first failing item (R46, R47, R212). -/
def sectionBad (s : State) (p : Plan) (recheck : Bool) (x : Section) : Option Nat :=
  let b := x.bytes
  match x.ent.typ with
  | 2 =>
    let d := schedOfBytes b
    let v1 := (s.port d.port).ver == 1 && ((s.port d.port).cond == .up || (s.port d.port).cond == .retrain)
    if portIn s d.port false && !(v1 && d.sheets.any (fun e => sheetKind e == 1)) then none else some 0
  | 3 => routingBad s p.routing
  | 4 => firstBadIdx (fits (circuitFits s p)) ((entriesOf b 32).map circuitOf)
  | 5 => firstBadIdx (fits (descFits s p)) ((descRecs b).map (descOf x.ent.ver))
  | 6 => firstBadIdx (fits (couchFits p)) ((entriesOf b 64).map couchOf)
  | 7 => if (p.energy.filter (fun e => e.kind == 0)).length = 0 then some 0 else firstBadIdx (energyFits p) p.energy
  | 8 =>
    if p.altPeriod = 0 ∨ p.altPeriod % 256 ≠ 0 ∨ p.scheds.any (fun d => p.altPeriod % reamLen d.sheets != 0) then some 0
    else firstBadIdx (fits (altFits s p)) ((altRecs b).map (altOf x.ent.ver))
  | 9 => match firstBadIdx (fits (gateFits s p)) ((gateRecs b).map gateOf) with
      | some i => some i
      | none => (firstBadIdx (fits (pathFits s p recheck)) ((pathRecs b).map pathOf)).map (· + (gateRecs b).length)
  | _ => none

/-- Step 13 (R46): the sections in directory order. -/
def useFail (s : State) (p : Plan) (ss : List Section) (recheck : Bool) : Option Fail :=
  firstFail (ss.map (fun x => match sectionBad s p recheck x with | some i => mismatch 13 x.idx i | none => none))

/-- Reservations of a plan, milliwatts. -/
def planMw (p : Plan) : Nat := p.energy.foldl (fun a e => a + e.mw) 0

/-- Step 14 (R46, R314): ENERGY_REFUSED. -/
def energyFail (s : State) (p : Plan) (ss : List Section) : Option Fail :=
  let sec := match ss.find? (fun x => x.ent.typ == 7) with | some x => x.idx | none => 0xFF
  if !p.hasEnergy then none
  else if planMw p > s.pwr.cap * 1000 then some ⟨14, sec, 0, St.energyRefused⟩
  else match firstBadIdx (fun e => e.kind != 0 || decide (Config.staticMw ≤ e.mw)) p.energy with
    | some i => some ⟨14, sec, i, St.energyRefused⟩
    | none => none

/-! ### All of them -/

/-- Step 7: the next slot is EMPTY, the inactive bank RETIRED, and no table front armed (R46, R218). -/
def slotFail (s : State) (empty : Bool) : Option Fail :=
  let banks := [s.routing.bank0, s.routing.bank1]
  if empty && s.routing.tableFront.isNone && banks.all (fun b => b.cond == .retired || b.cond == .inject)
  then none else headerFail 7

/-- The checks of R46 on an image, in their order; `other` holds the claims of the plan beside it, and a
re-check leaves out steps 7 and 11 (R54). -/
def imageFail (s : State) (img : List Byte) (other : List Claim) (empty recheck : Bool) : Option Fail :=
  if !headOk img then headerFail 1
  else if !digestOk img then headerFail 2
  else
    let p := planOf img
    let ss := sections img
    if p.node ≠ nodeId s then headerFail 3
    else if p.epoch ≠ s.time.epoch then headerFail 4
    else if p.timeBudget < errLimit s then headerFail 5
    else firstFail
      [ structureFail img, if recheck then none else slotFail s empty, schedFail s p ss,
        claimsFail s p ss other recheck, useFail s p ss recheck, energyFail s p ss ]

end Sys2Proof.Machine
end

