-- ==== Sys2Proof/Machine/PowerOps.lean ====
section
/-! DEFINITION. Shared operations of throttling (chapter 12): which units a collective step engages, and
levels that change at once or at a step boundary (R318, R319). -/

namespace Sys2Proof.Machine

/-- The slots with a step in progress. -/
def runningSlots (s : State) : List Nat := s.coll.slots.keys.filter (fun n => (s.slot n).cond == .running)

/-- The port a stream leaves through now: its circuit's, its path's, or the one its route names (R182,
R202, R242). -/
def streamPort (s : State) (n key : Nat) (d : Descriptor) : Option Nat :=
  match outPeer d key with
  | none => none
  | some m =>
    match (if key / 2 ≤ 1 then streamCircuit s n (key / 2) else none) with
    | some c => some c.1
    | none => match pathFor s n (key / 2) with
      | some e => some e.port
      | none => match injectBank s with
        | none => none
        | some b => ((choicesOf (routeEntry s b 16 (d.members.getD m 0))).find? (fun c => fabUp s c.2.1)).map (·.2.1)

/-- The dies that carry a stream of a slot, by the ports its pieces leave and arrive through. -/
def slotPorts (s : State) (n : Nat) : List Nat :=
  match (s.slot n).desc with
  | none => []
  | some d => streamKeys.filterMap (fun k => streamPort s n k d)
      ++ streamKeys.filterMap (fun k => ((s.slot n).ins.findD k default).ackArr.port.map (·.toNat))

/-- Throttle unit `u` is engaged in a collective step (R319). -/
def engaged (s : State) (u : Nat) : Bool :=
  let ns := runningSlots s
  if u = 2 ∨ u = 3 then !ns.isEmpty
  else if u = 4 then ns.any (fun n => match (s.slot n).run with
    | some r => r.half != 2 && r.src.any (·.board) | none => false)
  else ns.any (fun n => (slotPorts s n).any (fun p => dieOf p == (u == 1)))

/-- Put a unit at a level, counting the time it has spent above 0 (R318, R321). -/
def setLevel (s : State) (u l : Nat) : State :=
  s.modPwr (fun w => { w with units := w.units.modifyD u default (fun t => { t with
    ns := if t.level = 0 then t.ns else t.ns + (s.now - t.since)
    since := s.now, level := l }) })

/-- One level more on a unit (R318). -/
def raiseLevel (s : State) (u : Nat) : State := setLevel s u (min 12 (levelOf s u + 1))

/-- A deferred request takes effect (R319). -/
def applyDeferred (s : State) (u : Nat) : State :=
  (raiseLevel s u).modPwr (fun w => { w with units := w.units.modifyD u default (fun t => { t with deferredAt := none }) })

/-- A request to one unit: deferred while it is engaged, else taken at once; a request to a unit that is
deferred already merges (R318, R319). At 105 °C nothing is deferred (R56). -/
def requestUnit (s : State) (u : Nat) : State :=
  if (s.pwr.units.findD u default).deferredAt.isSome then if 105 ≤ s.pwr.tj then applyDeferred s u else s
  else if engaged s u && decide (s.pwr.tj < 105) then
    s.modPwr (fun w => { w with units := w.units.modifyD u default (fun t => { t with
      deferredAt := some s.now, deferrals := wrap 16 (t.deferrals + 1) }) })
  else raiseLevel s u

/-- At a step boundary the deferred requests of units no step engages any more take effect (R186, R319). -/
def stepBoundary (s : State) : State :=
  forEach [0, 1, 2, 3, 4] s (fun s u =>
    if (s.pwr.units.findD u default).deferredAt.isSome && !engaged s u then applyDeferred s u else s)

/-- After anything that may end a step. -/
def settleSteps (s : State) : State := stepBoundary (settle s)

/-! ### The cap (R310) -/

/-- The reservations of a plan slot, mW. -/
def reservedMw (p : Option Plan) : Nat := match p with | some q => q.energy.foldl (fun a e => a + e.mw) 0 | none => 0

/-- The decision on a cap write (R310, R56). -/
def decideCap (s : State) (v : Nat) : State :=
  let code := if v < 300 ∨ v > 700 ∨ v % 5 ≠ 0 then St.malformed
    else if v * 1000 < reservedMw s.plans.active ∨ v * 1000 < reservedMw s.plans.next then St.energyRefused else St.ok
  s.modPwr (fun w => { w with
    capDone := true, capCode := code, capHeld := none, capNext := if code = St.ok then some v else w.capNext })

/-- A cap write that waited for a load is decided after it (R56). -/
def decideHeldCap (s : State) : State := match s.pwr.capHeld with | some v => decideCap s v | none => s

/-! ### Credit (R315, R317) -/

/-- A bucket is lent while its target rests (R317). -/
def lentNow (s : State) (e : EnergyEnt) : Bool :=
  if e.kind = 1 then
    let ws := (instQueues s e.target).filterMap (fun q => s.queues.find q)
    let lulled := fun (w : WorkQueue) => w.lull && w.st == .waiting
    ws.any lulled && ws.all (fun w => lulled w || w.st == .idle || w.st == .error || w.st == .calm)
  else if e.kind = 2 then (s.slot e.target).cond != .running
  else if e.kind = 3 then (match s.couch.find e.target with | some c => c.run.isNone | none => true)
  else if e.kind = 4 then
    match s.plans.active with
    | none => true
    | some p => p.circuits.all (fun c => !(c.port == e.target && c.txKind == 1) || (s.qp (c.txArg % 2 ^ 20)).msgs.isEmpty)
  else false

/-- Refill of a reservation per credit period, nJ (R315). -/
def refillNj (mw : Nat) : Nat := mw * 1024 / 1000

/-- The buckets of the active plan: index and entry (R315). -/
def buckets (s : State) : List (Nat × EnergyEnt) :=
  match s.plans.active with
  | none => []
  | some p => ((List.range p.energy.length).zip p.energy).filter (fun x => x.2.kind != 0)

/-- Start of the credit period that time `t` lies in (R315). -/
def periodStart (t : Nat) : Nat := t / 1024 * 1024

/-- The shared pool's own refill, nJ (R315). -/
def sharedOwn (s : State) : Int :=
  let es := match s.plans.active with | some p => p.energy | none => []
  let stat := (es.find? (fun e => e.kind == 0)).elim 0 (·.mw)
  let mw : Int := if es.isEmpty then (s.pwr.cap * 1000 : Nat) - (s.pwr.staticW * 1000 : Nat)
    else ((s.pwr.cap * 1000 : Nat) : Int) - (reservedMw s.plans.active : Nat) - (s.pwr.staticW * 1000 - stat : Nat)
  mw * 1024 / 1000

/-- Refill one bucket, or lend its refill; what passes 64 refills goes to the shared pool (R315, R317). -/
def refillBucket (s : State) (x : Nat × EnergyEnt) : State :=
  let r := refillNj x.2.mw
  let lent := lentNow s x.2
  let b : Int := s.pwr.balance.findD x.1 0 + (if lent then 0 else (r : Int))
  let top : Int := ((64 * r : Nat) : Int)
  let kept := if lent then b else min b top
  s.modPwr (fun w => { w with
    balance := w.balance.put x.1 kept, refill := w.refill.put x.1 r
    shared := w.shared + (if lent then (r : Int) else b - kept)
    sharedRefill := w.sharedRefill + (if lent then r else (b - kept).toNat) })

/-- The buckets of a plan start at 0 at its front (R315). -/
def startBuckets (s : State) : State :=
  s.modPwr (fun w => { w with
    balance := Tbl.empty, refill := ⟨(buckets s).map (fun x => (x.1, refillNj x.2.mw))⟩ })

end Sys2Proof.Machine
end

