-- ==== Sys2Proof/Machine/AltOps.lean ====
section
/-! DEFINITION. Shared operations of alternates at their decision points (R331 to R333) and of the couch
QPs that the control cores open (R263, R334). -/

namespace Sys2Proof.Machine

/-! ### Couch QPs -/

/-- The identity of a couch QP: the entry gives the partner; the rest the spec leaves open is a constant
without a body (R263; log entry 6). -/
def couchIdent (s : State) (e : CouchEnt) : QpIdent :=
  let base := max 1 (fld s.tp.retry 9 0)
  { owner := 0xFF, peerNode := e.partner, peerInst := 0x7F, peerQp := (Config.couchPeerQp e.qp).toNat, path := 0
    srcIp := 0, dstIp := 0, dscp := 0, vlan := none, port := 0, pkey := (Config.couchPkey e.qp).toNat
    pmtu := (Config.couchPmtu e.qp).toNat % 5, verMin := 1, verMax := deviceVer s, ver := 0
    cipher := 0, key := [], kcv := 0, baseUs := base, capUs := max base (fld s.tp.retry 39 24)
    limit := fld s.tp.retry 47 44, busyLimit := max 1 (fld s.tp.retry 63 56), conn := 0, active := false
    cfg := s.tp.cfg, ack := s.tp.ack, busyDelay := max 1 (fld s.tp.retry 55 48) }

/-- The control cores open a couch QP that is CLOSED (R263, R334). -/
def openCouchQp (s : State) (e : CouchEnt) : State :=
  if (s.qp e.qp).st == .closed then openQp (makeResident s e.qp) e.qp (couchIdent s e) else s

/-- The couch entry of the active plan, or of one that is loaded, for a QP. -/
def couchOfQp (s : State) (q : Nat) : Option CouchEnt :=
  let of := fun (p : Option Plan) => match p with | some x => x.couch.find? (fun c => c.qp == q) | none => none
  match of s.plans.active with
  | some e => some e
  | none => of s.plans.next

/-! ### Decision points (R331) -/

/-- What an item touches: a sheet, a circuit or a slot. -/
def itemTouches : AltItem → Nat × Nat × Nat
  | .sheet p i _ => (0, p, i)
  | .circuit c => (1, c.port, c.circuit)
  | .dropCircuit p c => (1, p, c)
  | .descriptor d => (2, d.slot, 0)
  | .endSlot n => (2, n, 0)
  | .unknown t => (3, t, 0)

/-- Read an image from a range of HBM: the image, or the failure of step 2 at the first block that cannot be read
(R46). -/
def readImage (s : State) (r : Nat × Nat) : State × Except Fail (List Byte) :=
  match hbmRead s r.1 r.2 with
  | (t, .done, bs) => (t, .ok bs)
  | (t, .failed _ _, _) =>
    (t, .error ⟨2, 0xFF, blockOf r.1 ((firstBad s.hbm r.1 r.2).getD (r.1 / 8)), St.planMismatch⟩)

/-- The hash of the ALTERNATES section in the plan store is the one taken at load (R331). -/
def altsIntact (s : State) (p : Plan) : State × Bool :=
  match readImage s (Config.planStore s.plans.activeStore, p.image.length) with
  | (t, .ok bs) => (t, sm3 (secBytes (sections bs) 8) == p.altHash)
  | (t, .error _) => (t, false)

/-- A slot takes an item now, or once its running step has ended (R333). -/
def itemOnSlot (s : State) (n : Nat) (i : AltItem) : State :=
  settleSlot (s.modSlot n (fun x => { x with waiting := some i })) n

/-- A circuit entry binds its QP or stream anew (R332). -/
def bindCircuit (s : State) (c : Circuit) : State :=
  if c.txKind = 1 then s.modQp (c.txArg % 2 ^ 20) (fun k => { k with unbound := false })
  else if c.txKind = 2 then s.modSlot (c.txArg % 64) (fun x => { x with
    outs := x.outs.modify (c.txArg / 256 % 8 * 2) (fun o => { o with unbound := false }) })
  else s

/-- The effect of an item outside the plan itself (R327, R332, R333). -/
def itemEffect (s : State) (i : AltItem) : State :=
  match i with
  | .descriptor d => itemOnSlot s d.slot i
  | .endSlot n => itemOnSlot s n i
  | .circuit c => bindCircuit s c
  | _ => s

/-- A RECOVERY entry of an alternate (R323, R331). -/
def logAlt (s : State) (alt e status : Nat) : State :=
  raiseFault s 0x0B status (taskEngine 2) 0xFF alt (BitVec.ofNat 32 (e / 1024))

/-- Set the condition of a recorded alternate. -/
def setAltCond (s : State) (alt : Nat) (c : AltCond) : State :=
  s.modFlt (fun f => { f with alts := f.alts.modify alt (fun r => { r with cond := c }) })

/-- Apply one alternate whole, or refuse it whole (R331). -/
def applyOne (s : State) (alt e : Nat) : State :=
  match s.plans.active, altEnt s alt with
  | some p, some a =>
    let mine := a.items.map itemTouches
    let c := altsIntact s p
    let s := c.1
    if mine.any s.flt.touched.contains || !c.2
    then logAlt (setAltCond s alt .refused) alt e St.planMismatch
    else
      let s := s.modPlans (fun x => { x with active := some (applyAlt p a) })
      let s := forEach a.items s itemEffect
      let s := (setAltCond s alt .applied).modFlt (fun f => { f with touched := f.touched ++ mine })
      logAlt s alt e St.ok
  | _, _ => s

/-- Alternates of the active plan that its image carries and that are pending: number and E. -/
def pendingAlts (s : State) : List (Nat × Nat) :=
  s.flt.alts.cells.filterMap (fun c =>
    if c.1 < 65536 ∧ c.2.cond = .pending ∧ (altEnt s c.1).isSome then some (c.1, c.2.e) else none)

/-- The earliest E among them. -/
def nextDecision (s : State) : Option Nat :=
  match pendingAlts s with
  | [] => none
  | x :: xs => some (xs.foldl (fun m y => min m y.2) x.2)

/-- Apply every pending alternate whose E has been reached, in ascending E and ALT (R331). -/
def applyDue : Nat → State → State
  | 0, s => s
  | n + 1, s => match nextDecision s with
    | none => s
    | some e => if s.now < e then s
      else applyDue n (forEach ((pendingAlts s).filter (fun x => x.2 == e)) s (fun s x => applyOne s x.1 x.2))

/-- All that are due: each round applies or refuses at least one. -/
def applyAllDue (s : State) : State := retryHeads (applyDue ((pendingAlts s).length + 1) s) .slotBusy

end Sys2Proof.Machine
end

