-- ==== Sys2Proof/Machine/PlanOps.lean ====
section
/-! DEFINITION. Shared operations of the plan slots (chapter 2): what is taken at LOADED (R36, R101, R217,
R334), the switch at a front or rejoin point (R48, R53), the drain of the old plan (R43, R51), misses
(R52) and the re-check after a warm reset (R54). -/

namespace Sys2Proof.Machine

/-- The empty plan of PLAN_UNLOAD has no image (R55). -/
def isEmptyPlan (p : Plan) : Bool := p.image.isEmpty

/-- The empty plan, with the REJOIN_PERIOD of the active one (R55). -/
def emptyPlan (rejoin : Nat) : Plan := { (default : Plan) with drainBound := 100000, rejoin := rejoin, routing := Tbl.empty }

/-! ### Taken at LOADED, given back at a cancel -/

/-- A couch region of a plan gets its record (R262); one of the same region stays until the front. -/
def couchRecord (s : State) (e : CouchEnt) : State :=
  match s.couch.find e.region with
  | some _ => s
  | none => { s with couch := s.couch.put e.region { (default : Couch) with ent := e, cond := .none } }

/-- Put a number into a rising list. -/
def insertNat (n : Nat) : List Nat → List Nat
  | [] => [n]
  | x :: xs => if n ≤ x then n :: x :: xs else x :: insertNat n xs

/-- SOURCE entries of a plan whose record holds no valid generation, in ascending region (R334). -/
def toRestore (s : State) (p : Plan) : List CouchEnt :=
  let es := p.couch.filter (fun e => e.role == 0 && (match s.couch.find e.region with
    | some c => c.ent == e && c.validGen.isNone | none => false))
  (((es.map (·.region)).foldr insertNat []).filterMap (fun r => es.find? (fun e => e.region == r)))

/-- Begin the restores of a plan that is LOADED (R334): their couch QPs open without waiting for the
front. -/
def startRestores (s : State) (p : Plan) : State :=
  if !bit s.flt.cfg 0 then s else
  let es := toRestore s p
  if es.isEmpty then s else
  let s := s.modFlt (fun f => { f with restoreDone := 0, restoreFailed := false, restoreStatus := 0 })
  driveRestores (forEach es s (fun s e =>
    (openCouchQp s e).modFlt (fun f => { f with restoring := f.restoring.put e.region ⟨0, 0, none, []⟩ })))

/-- A plan reaches LOADED (R36): its QPs become resident, its tables go into the inactive bank, its couch
regions get records, and restores begin. With no bank in use, after a cold boot, the spec does not say which of the two
is the inactive one: bank 0 is taken (DESIGN CHOICE, log entry 121). -/
def planLoaded (s : State) (p : Plan) : State :=
  let s := s.modPlans (fun x => { x with nextCond := .loaded, next := some p })
  let s := forEach (s.qps.keys.filter (fun q => covers p.claims 0x03 q && (s.qp q).st != .closed)) s makeResident
  let b := match [false, true].find? (fun b => (bankOf s.routing b).cond == .retired) with | some b => b | none => true
  let s := s.modBank b (fun _ => { cond := .staged, sets := p.routing, mgr := false, drainFrom := 0 })
  startRestores (forEach p.couch s couchRecord) p

/-- The bank a plan wrote is cleared (R217). -/
def clearPlanBank (s : State) : State :=
  forEach [false, true] s (fun s b =>
    if (bankOf s.routing b).cond == .staged && !(bankOf s.routing b).mgr then s.modBank b (fun _ => Bank.reset) else s)

/-- A couch QP that no plan names any more is closed. -/
def dropCouchQp (s : State) (e : CouchEnt) : State :=
  if (couchOfQp s e.qp).isSome || (s.qp e.qp).ident.owner ≠ 0xFF then s
  else closeQp s e.qp (drainBoundUs (s.qp e.qp).ident)

/-- What a plan took at LOADED is given back (R36): pins, bank, records not in effect, alternates kept for
it, restores. -/
def dropNext (s : State) : State :=
  let es := match s.plans.next with | some p => p.couch | none => []
  let s := clearPlanBank s
  let s := s.modPlans (fun x => { x with nextCond := .empty, next := none, front := 0 })
  let s := s.modFlt (fun f => { f with restoring := Tbl.empty, alts := f.alts.keep (fun k _ => decide (k < 65536)) })
  let s := { s with couch := s.couch.keep (fun _ c => c.inEffect) }
  forEach es s dropCouchQp

/-! ### Results -/

/-- PLAN_LOAD_RESULT for a failed check, or for success (R57). -/
def loadResult : Option Fail → Word
  | none => 0
  | some f => reg [(63, 32, f.item), (31, 24, f.sec), (23, 16, f.step), (15, 8, f.code)]

/-- Record the outcome of a load or an arming (R46, R57). -/
def setResult (s : State) (f : Option Fail) : State :=
  s.modPlans (fun x => { x with result := loadResult f, refusedCount := if f.isSome then sat 16 (x.refusedCount + 1) else x.refusedCount })

/-- The status of an outcome. -/
def failCode : Option Fail → Nat
  | none => St.ok
  | some f => f.code

/-- Answer a load or an arming with its result in word 1 (R306). -/
def answerResult (s : State) (d : Door) (f : Option Fail) : State :=
  let s := setResult s f
  answer s d (failCode f) [s.plans.result]

/-! ### Release of the old plan -/

/-- A segment is cleared: at once, or DRAINING while translations are held (R256, R257). -/
def clearSeg (s : State) (i n : Nat) : State :=
  s.modSeg i n (fun g => if g.uses = 0 then default else { g with valid := false, draining := true })

/-- A granule of the old plan returns to the pool (R101): waits on it end FLUSHED; an orphaned one stays. -/
def releaseGranule (s : State) (g : Nat) : State :=
  if (s.granule g).orphan || covers (activeClaims s) 0x04 g then s
  else poolGranule (endGranWaits s g St.flushed) g

/-- The function of a claim of general pins (R41). -/
def gpioFn (attr : Nat) : GpioFn :=
  if attr = 1 then .output else if attr = 2 then .openDrain else if attr = 3 then .ppsOut else .input

/-- Balls that a claim of general pins covers. -/
def gpioBalls (c : Claim) : List Nat := if c.kind = 0x09 then rangeFrom c.first c.count else []

/-- The pin functions of the new plan take effect (R48). -/
def pinsAtFront (s : State) (claims : List Claim) : State :=
  { s with pins := { s.pins with
      gpio := claims.foldl (fun t c => (gpioBalls c).foldl (fun t n => t.put n (gpioFn c.attr)) t) s.pins.gpio } }

/-- A ball that no claim covers any more is an input again (R41, R386). -/
def releaseBall (s : State) (n : Nat) : State :=
  if covers (activeClaims s) 0x09 n then s else { s with pins := { s.pins with gpio := s.pins.gpio.erase n } }

/-- A claim is released (R43, R101, R259). -/
def releaseClaim (s : State) (c : Claim) : State :=
  if c.kind = 0x04 then forEach (rangeFrom c.first c.count) s releaseGranule
  else if c.kind = 0x05 then forEach (rangeFrom c.first c.count) s (fun s n =>
    if (s.seg c.owner n).valid then clearSeg s c.owner n else s)
  else forEach (gpioBalls c) s releaseBall

/-- A step still in progress on a descriptor that the new plan does not share ends FLUSHED (R51). -/
def flushOldStep (s : State) (n : Nat) : State :=
  match (s.slot n).oldStep, (s.slot n).desc with
  | true, some d => endStep s n St.flushed 0 d.self
  | _, _ => s

/-- A step in progress on a slot that changes at the front runs on, under the old plan (R51). -/
def markOldStep (s : State) (n : Nat) : State := s.modSlot n (fun x => { x with oldStep := x.run.isSome })

/-- The entry of a region in the active plan. -/
def regionEnt (s : State) (r : Nat) : Option CouchEnt :=
  match s.plans.active with | some p => p.couch.find? (fun c => c.region == r) | none => none

/-- A region whose record is not the active plan's: a copy still in progress is abandoned, the record is
removed, and the active plan's region of that number takes effect in NONE (R51, R267). -/
def flushOldRegion (s : State) (r : Nat) : State :=
  match s.couch.find r with
  | none => s
  | some c =>
    if regionEnt s r == some c.ent || !c.inEffect then s
    else
      let s := couchFail s r ⟨St.flushed, 0, 0⟩
      let s := { s with couch := s.couch.erase r }
      match regionEnt s r with
      | some e => { s with couch := s.couch.put r { (default : Couch) with ent := e, cond := .none, inEffect := true } }
      | none => s

/-- The old plan is gone (R43, R51). -/
def releaseOld (s : State) : State :=
  let s := forEach s.coll.slots.keys (countGranules s) flushOldStep
  let s := forEach s.couch.keys s flushOldRegion
  let claims := s.plans.oldClaims
  let couch := s.plans.oldCouch
  let s := s.modPlans (fun x => { x with
    oldClaims := [], oldDescs := [], oldCouch := [], oldScheds := [], oldCircuits := [], drainAt := none })
  forEach couch (forEach claims s releaseClaim) dropCouchQp

/-! ### The switch -/

/-- A slot at a front (R187, R333): a shared descriptor carries on; another takes effect at once, or once
the running step has ended. -/
def slotAtFront (claims : List Claim) (p : Plan) (s : State) (n : Nat) : State :=
  let new := p.descs.find? (fun d => d.slot == n)
  let shared := new.isSome && new == (s.slot n).desc && claims.any (fun c => c.kind == 0x08 && c.flags % 2 == 1 && within n 1 c.first c.count)
  if shared then s.modSlot n (fun x => { x with outs := x.outs.mapCells (fun _ o => { o with unbound := false }) })
  else match new with
    | some d => itemOnSlot (markOldStep s n) n (.descriptor d)
    | none => if (s.slot n).desc.isSome then itemOnSlot (markOldStep s n) n (.endSlot n) else s

/-- A couch region at a front (R51, R262, R334): one the plans share carries on, one loaded takes effect as
it is, and another that is not being copied is replaced. -/
def regionAtFront (s : State) (r : Nat) : State :=
  match s.couch.find r with
  | none => s
  | some c =>
    if regionEnt s r == some c.ent then s.modCouch r (fun c => { c with
      inEffect := true
      cond := if c.inEffect then c.cond else if c.validGen.isSome then .valid else .none })
    else if c.run.isSome then s
    else flushOldRegion s r

/-- The granules of an unshared claim start at zero in the mode of its ATTR (R101). -/
def claimAtFront (s : State) (c : Claim) : State :=
  if c.kind = 0x04 ∧ c.flags % 2 = 0 then forEach (rangeFrom c.first c.count) s (fun s g => initGranule s g (c.attr % 2 == 1))
  else s

/-- Injection moves to the bank the plan wrote; at an unload, to one the manager staged, or the bank in
use stays and counts as the manager's (R48, R55, R217). -/
def bankAtFront (s : State) (empty : Bool) : State :=
  match [false, true].find? (fun b => (bankOf s.routing b).cond == .staged && (bankOf s.routing b).mgr == empty) with
  | some b => moveInjection s b
  | none => forEach [false, true] s (fun s b =>
      s.modBank b (fun k => if k.cond == .inject then { k with mgr := true } else k))

/-- Alternates recorded for the plan become its own; those of the old plan are dropped (R330, R331). -/
def altsAtFront (s : State) (p : Plan) : State :=
  s.modFlt (fun f => { f with
    touched := []
    alts := ⟨(f.alts.cells.filter (fun c => decide (c.1 ≥ 65536) && c.2.planId == p.planId)).map (fun c => (c.1 - 65536, c.2))⟩ })

/-- LINK alternates recorded before the front unbind their circuits (R332). -/
def unbindRecorded (s : State) : State :=
  forEach (pendingAlts s) s (fun s x => match altEnt s x.1 with
    | some a => if a.kind = 0 then forEach (altCircuits a) s unbindCircuit else s
    | none => s)

/-- The plan slots at a switch (R48, R53): plan `p` is active from its front, and what it does not carry over
of the old plan is held until the drain bound. -/
def switchSlots (s : State) (p : Plan) : State :=
  let old := s.plans.active
  s.modPlans (fun x => { x with
    active := if isEmptyPlan p then none else some p
    activeStore := x.activeStore != !isEmptyPlan p, activeF := x.front, next := none, nextCond := .empty, front := 0
    oldClaims := (activeClaims s).filter (fun c => !carried p.claims c)
    oldDescs := old.elim [] (·.descs), oldCouch := old.elim [] (·.couch)
    oldScheds := old.elim [] (·.scheds), oldCircuits := old.elim [] (·.circuits), oldF := x.activeF
    oldId := old.elim 0 (·.planId), drainAt := some (s.now + p.drainBound), resuming := false, lateCause := false
    lastSwitch := s.now, switches := sat 32 (x.switches + 1) })

/-- What takes effect with plan `p` in the tick of its switch: its routing bank, sync objects, pin functions,
slots, couch regions, buckets and alternates (R48, R53, R101, R187, R217, R262, R315, R330). -/
def switchRest (s : State) (p : Plan) : State :=
  let s := bankAtFront s (isEmptyPlan p)
  let s := pinsAtFront (forEach p.claims s claimAtFront) p.claims
  let s := { s with qps := s.qps.mapCells (fun _ k => { k with unbound := false }) }
  let s := forEach (s.coll.slots.keys ++ (p.descs.map (·.slot)).filter (fun n => !s.coll.slots.keys.contains n)) s (slotAtFront p.claims p)
  let s := forEach s.couch.keys (forEach p.couch s couchRecord) regionAtFront
  let s := forEach p.couch s openCouchQp
  let s := unbindRecorded (altsAtFront (startBuckets s) p)
  let s := forEach ((List.range 16).filter (fun x => !isEth s x && (s.port x).cond == .down)) s (fun s x => linkTriggered s x s.now)
  retryHeads (retryHeads (settleSteps (applyAllDue s)) .slotBusy) .energy

/-- The switch to the next plan, in one tick (R48, R53); a plan still draining is released first. -/
def switchPlan (s : State) : State :=
  match s.plans.next with
  | none => s
  | some p => switchRest (switchSlots (countGranules (if s.plans.drainAt.isSome then releaseOld s else s)) p) p

/-! ### Missed fronts -/

/-- The device misses the front of its next plan (R36, R52). -/
def missFront (s : State) : State :=
  let id := match s.plans.next with | some p => p.planId | none => 0
  noteCauses (raiseFault (s.modPlans (fun x => { x with nextCond := .missed, missed := sat 16 (x.missed + 1) }))
    0x09 St.planMismatch 114 0xFF 0 (id.setWidth 32))

/-- A device without LOCKED still takes its fronts in FREE_RUN (R36). -/
def knowsTime (s : State) : Bool := s.time.lock == .locked || freeRun s

/-- The tick from which R53 counts: LOCKED again, or the end of the boot in FREE_RUN. -/
def rejoinSince (s : State) : Option Nat :=
  if freeRun s then some s.plans.bootAt else if s.time.lock == .locked then some s.plans.lockedAt else none

/-- The first rejoin point of a front at least 1 ms after some time (R53). -/
def rejoinAfter (f period since : Nat) : Nat := f + max 1 (ceilDiv (since + 1000000 - f) period) * period

/-- The rejoin point of a MISSED plan, once it is known (R53). -/
def missedPoint (s : State) : Option Nat :=
  match s.plans.nextCond, s.plans.next, rejoinSince s with
  | .missed, some p, some t =>
    if p.rejoin = 0 then none else some (rejoinAfter s.plans.front p.rejoin (max t s.plans.armedAt))
  | _, _, _ => none

/-- The rejoin point at which an active plan is resumed after a warm reset (R54). -/
def resumePoint (s : State) : Option Nat :=
  match s.plans.resuming, s.plans.active, rejoinSince s with
  | true, some p, some t => if p.rejoin = 0 then none else some (rejoinAfter s.plans.activeF p.rejoin t)
  | _, _, _ => none

/-- The active plan is resumed (R54, R335): its couch QPs are opened again, and alternates that have come
due are applied. -/
def resumePlan (s : State) : State :=
  let s := s.modPlans (fun x => { x with resuming := false })
  let es := match s.plans.active with | some p => p.couch | none => []
  settleSteps (applyAllDue (forEach es s openCouchQp))

/-! ### The re-check after a warm reset (R54) -/

/-- A plan that fails its re-check or cannot be rejoined is dropped and logged (R54, R323). -/
def droppedFault (s : State) (p : Plan) : State :=
  raiseFault s 0x09 St.planMismatch 114 0xFF 0 (p.planId.setWidth 32)

/-- The re-check of a plan held in half `b` of the plan store (R46, R54): the failure, if it fails a check. The empty plan
of an unload has no image to check. -/
def recheckFail (s : State) (p : Plan) (b : Bool) (other : List Claim) : State × Option Fail :=
  if isEmptyPlan p then (s, none)
  else match readImage s (Config.planStore b, p.image.length) with
    | (t, .error f) => (t, some f)
    | (t, .ok _) => (t, imageFail t p.image other true true)

/-- A plan is re-checked: whether it is kept. A failed check is recorded in PLAN_LOAD_RESULT (R46, R54), and is no load or
arming refused (R57; log entry 122). -/
def stillGood (s : State) (p : Plan) (b : Bool) (other : List Claim) : State × Bool :=
  match recheckFail s p b other with
  | (t, none) => (t, p.rejoin != 0)
  | (t, some f) => (t.modPlans (fun x => { x with result := loadResult (some f) }), false)

/-- A load the warm reset cut off is abandoned (R54). -/
def abandonLoad (s : State) : State :=
  if s.plans.nextCond == .loading then (dropNext s).modPlans (fun x => { x with result := 0 }) else s

/-- The next slot after a warm reset; `keep` is the outcome of its re-check. -/
def recheckNext (s : State) (keep : Bool) : State :=
  match s.plans.next with
  | none => s
  | some p =>
    if keep then s.modPlans (fun x => { x with next := some (if isEmptyPlan p then p else planOf p.image) })
    else droppedFault (dropNext s) p

/-- The active slot after a warm reset: resumed at a rejoin point, or dropped. -/
def recheckActive (s : State) (keep : Bool) : State :=
  match s.plans.active with
  | none => s
  | some p =>
    if keep then s.modPlans (fun x => { x with active := some (planOf p.image), resuming := true })
    else
      let s := droppedFault (s.modPlans (fun x => { x with active := none, resuming := false })) p
      let s := forEach p.claims s releaseClaim
      { s with couch := s.couch.keep (fun r c => match s.plans.next with
          | some n => n.couch.any (fun e => e.region == r && e == c.ent) | none => false) }

/-- Both slots after a warm reset; an armed front that passed meanwhile is missed (R54). -/
def recheckPlans (s : State) : State :=
  let s := abandonLoad s
  let a := match s.plans.active with
    | some p => stillGood s p s.plans.activeStore (nextClaims s) | none => (s, true)
  let n := match s.plans.next with
    | some p => stillGood a.1 p (!s.plans.activeStore) (activeClaims s) | none => (a.1, true)
  let s := recheckActive (recheckNext n.1 n.2) a.2
  let s := if s.plans.nextCond == .armed && decide (s.plans.front ≤ s.now) then missFront s else s
  match s.plans.nextCond, s.plans.next with
  | .loaded, some p => startRestores s p
  | _, _ => s

end Sys2Proof.Machine
end

