-- ==== Sys2Proof/Machine/Plans.lean ====
section
/-! DEFINITION. The commands of the plan slots (chapter 2). -/

namespace Sys2Proof.Machine

/-! ### Loading (R36, R46) -/

/-- ADDR and LENGTH of a PLAN_LOAD (R306). -/
def loadRange (s : State) (d : Door) : Nat × Nat := (reqFld s d 8 8, reqFld s d 16 8)

/-- The range of a PLAN_LOAD lies in the pool, on a multiple of 64, and is no longer than a plan store
(R37, R46). -/
def rangeOk (s : State) (r : Nat × Nat) : Bool :=
  r.1 % 64 == 0 && decide (r.1 + r.2 ≤ hbmAvail s.hbm * gran) && decide (r.2 ≤ maxImage)

/-- The copy of an image of `n` bytes is written to the half of the plan store that the active plan does not hold
(R36, R37). -/
def storeImage (s : State) (n : Nat) : State :=
  let a := Config.planStore (!s.plans.activeStore)
  healWords s (fun w => (wordsOf a n).contains w)

/-- PLAN_LOAD (R36, R46): the range first, then the copy into the plan store. With the next slot occupied
the checks end at step 7 at the latest. -/
def loadPlan (s : State) (d : Door) : State :=
  let r := loadRange s d
  if !rangeOk s r then answerResult s d (headerFail 1)
  else match readImage s r with
    | (s, .error f) => answerResult s d (some f)
    | (s, .ok img) =>
      if s.plans.nextCond ≠ .empty then answerResult s d (imageFail s img (activeClaims s) false false)
      else (storeImage s img.length).modPlans (fun x => { x with
        nextCond := .loading, next := some { (default : Plan) with image := img }
        loadAddr := r.1, loadLen := r.2, loadDoor := d, loadTag := BitVec.ofNat 64 (fld (reqWord s d 0) 63 32) })

/-- PLAN_LOAD (R46). -/
def execPlanLoad (door : Door) (link : BitVec 2) (s : State) : Host.Outcome State Fault Refusal :=
  .next (mailRow s door link.toNat 0x0020 (fun s => mailGate s door true [1] (fun s => loadPlan s door)))

/-- The checks of a load end (R36, R46): LOADED, or EMPTY with the failure recorded. -/
def endLoad (s : State) : State :=
  match s.plans.nextCond, s.plans.next with
  | .loading, some p =>
    let d := s.plans.loadDoor
    match imageFail s p.image (activeClaims s) true false with
    | some f => decideHeldCap (answerResult (s.modPlans (fun x => { x with nextCond := .empty, next := none })) d (some f))
    | none => decideHeldCap (settle (answerResult (planLoaded s (planOf p.image)) d none))
  | _, _ => s

/-- PLAN_LOAD_COMPLETE (R36). -/
def execPlanLoadComplete (s : State) : Host.Outcome State Fault Refusal := .next (if s.inService then endLoad s else s)

/-! ### Arming, cancelling, unloading -/

/-- A front that lies far enough ahead (R48). -/
def frontAhead (s : State) (f : Nat) : Bool := f % 256 == 0 && decide (s.now + 10000000 ≤ f)

/-- PLAN_ARM (R48): a front ahead arms the plan, one past within the limits leaves it MISSED. -/
def armPlan (s : State) (d : Door) : State :=
  let f := reqFld s d 8 8
  match s.plans.nextCond, s.plans.next with
  | .loaded, some p =>
    if !s.flt.restoring.cells.isEmpty then answerResult s d (headerFail 15)
    else if frontAhead s f then
      answerResult (s.modPlans (fun x => { x with nextCond := .armed, front := f, armedAt := s.now })) d none
    else if f % 256 = 0 ∧ f < s.now ∧ p.rejoin ≠ 0 ∧ s.now - f ≤ 2 ^ 40 then
      answerResult (missFront (s.modPlans (fun x => { x with front := f, armedAt := s.now }))) d none
    else answerResult s d (headerFail 15)
  | _, _ => answerResult s d (headerFail 15)

/-- PLAN_ARM (R48). -/
def execPlanArm (door : Door) (link : BitVec 2) (s : State) : Host.Outcome State Fault Refusal :=
  .next (mailRow s door link.toNat 0x0021 (fun s => mailGate s door true [1] (fun s => armPlan s door)))

/-- PLAN_CANCEL (R36, R306). From MISSED the device stays DEGRADED. -/
def cancelPlan (s : State) : State × Nat :=
  match s.plans.nextCond with
  | .loaded => (settle (dropNext s), St.ok)
  | .armed => if s.now + 1000000 < s.plans.front then (settle (dropNext s), St.ok) else (s, St.planMismatch)
  | .missed => (settle ((dropNext s).modPlans (fun x => { x with lateCause := true })), St.ok)
  | .empty => (s, St.planMismatch)
  | .loading => (s, St.planMismatch)

/-- PLAN_CANCEL (R36). -/
def execPlanCancel (door : Door) (link : BitVec 2) (s : State) : Host.Outcome State Fault Refusal :=
  .next (mailRow s door link.toNat 0x0022 (fun s => mailGate s door true [1] (fun s => answerSt door (cancelPlan s))))

/-- Why the arming of an unload is refused: at step 7 with the next slot not EMPTY or a table front armed (R46, R218), at
step 15 with no plan active or a front that R48 does not accept (log entry 123). -/
def unloadFail (s : State) (f : Nat) : Option Fail :=
  if s.plans.nextCond ≠ .empty ∨ s.routing.tableFront.isSome then headerFail 7
  else if s.plans.active.isNone ∨ !frontAhead s f then headerFail 15 else none

/-- PLAN_UNLOAD (R55): an empty plan with the REJOIN_PERIOD of the active one is armed. The outcome is that of an arming,
recorded in PLAN_LOAD_RESULT (R57, R218). -/
def unloadPlan (s : State) (d : Door) : State × Nat :=
  let f := reqFld s d 8 8
  let r := unloadFail s f
  let s := setResult s r
  (match r, s.plans.active with
    | none, some p => s.modPlans (fun x => { x with
        nextCond := .armed, next := some (emptyPlan p.rejoin), front := f, armedAt := s.now })
    | _, _ => s, failCode r)

/-- PLAN_UNLOAD (R55). -/
def execPlanUnload (door : Door) (link : BitVec 2) (s : State) : Host.Outcome State Fault Refusal :=
  .next (mailRow s door link.toNat 0x0023 (fun s => mailGate s door true [1] (fun s => answerSt door (unloadPlan s door))))

/-! ### The old plan -/

/-- F + DRAIN_BOUND (R43, R51, R101). -/
def drainPlan (s : State) : State :=
  match s.plans.drainAt with
  | none => s
  | some t => if !s.inService then s else settleSteps (releaseOld (s.arriveAt t))

/-- PLAN_DRAIN_BOUND (R51). -/
def execPlanDrainBound (s : State) : Host.Outcome State Fault Refusal := .next (drainPlan s)

end Sys2Proof.Machine
end

