-- ==== Sys2Proof/Machine/Ethernet.lean ====
section
/-! DEFINITION. The commands of the Ethernet-mode ports (chapter 8): reception (R229 to R232), the
start of a frame (R233 to R239), gate list entries, and sub-ports coming up and going down. -/

namespace Sys2Proof.Machine

/-! ### Receiving -/

/-- Priority of a frame (R229). -/
def framePrio (f : EthFrame) : Nat :=
  match f.tag, f.ip with
  | some t, _ => t.1.toNat
  | none, some h => h.dscp.toNat / 8
  | none, none => 0

/-- VID of a frame, 0 when it is untagged. -/
def frameVid (f : EthFrame) : Nat := match f.tag with | some t => t.2.toNat | none => 0

/-- PTP multicast addresses of R229. -/
def ptpMacs : List (BitVec 48) := [0x011B19000000, 0x0180C200000E, 0x01005E000181, 0x333300000181]

/-- Solicited-node multicast address of an IPv6 address. -/
def solicited (a : Nat) : BitVec 48 := BitVec.ofNat 48 (0x3333FF000000 + a % 2 ^ 24)

/-- A destination address passes the filter of a port (R229). -/
def passesFilter (s : State) (p : Nat) (d : BitVec 48) : Bool :=
  let e := s.ethPort p
  e.filter.vals.any (fun f => bit f 63 && fld f 47 0 == d.toNat)
    || (d == 0xFFFFFFFFFFFF && bit e.cfg 40)
    || e.vlans.vals.any (fun v => vlanOk v && (match vip6 v with | some a => d == solicited a | none => false))
    || (ptpMacs.contains d && bit (s.ptp p).cfg 0)

/-- A body that the policers pass over (R230). -/
def unpoliced : EthBody → Bool
  | .ptp _ => true
  | .arp _ _ => true
  | .ns _ _ => true
  | _ => false

/-- The verdict of a policer on a frame: pass it, mark it, or drop it (R230). -/
inductive Verdict where
  | pass | mark | drop
  deriving DecidableEq, Repr, Inhabited

/-- Run the policer of a priority on a frame (R230). -/
def police (s : State) (p t : Nat) (f : EthFrame) : State × Verdict :=
  let e := s.ethPort p
  let w := e.police.findD t 0
  if !bit w 63 || unpoliced f.body then (s, .pass) else
  let c := shapeCost e f.length
  let b := bucketNow (fld w 55 36) (fld w 35 20) s.now (e.polBucket.find t)
  if 1000 * c ≤ b then
    (s.modEth p (fun e => { e with polBucket := e.polBucket.put t ⟨b - 1000 * c, s.now⟩ }), .pass)
  else
    (s.modEth p (fun e => { e with polBucket := e.polBucket.put t ⟨b, s.now⟩, policed := wrap 16 (e.policed + 1) }),
      if bit w 62 || pfcOn e t then .mark else .drop)

/-- The IP ECN field says CE, or says ECT and is marked now (R230). -/
def ceOf (f : EthFrame) (v : Verdict) : Bool :=
  match f.ip with
  | none => false
  | some h => h.ecn == 3 || (v == .mark && (h.ecn == 1 || h.ecn == 2))

/-- Firmware answers of a port in the second now running (R228): at most 1,000. -/
def mayAnswer (s : State) (p : Nat) : Bool :=
  let e := s.ethPort p
  decide (e.arpWindow ≠ s.now / 1000000000) || decide (e.arpSent < 1000)

/-- Send an ARP or neighbour answer on the sub-port and VLAN of its request (R225, R228). -/
def answerFirmware (s : State) (p sub : Nat) (f : EthFrame) (body : EthBody) : State :=
  if !mayAnswer s p then s else
  let s := s.modEth p (fun e =>
    if e.arpWindow = s.now / 1000000000 then { e with arpSent := e.arpSent + 1 }
    else { e with arpSent := 1, arpWindow := s.now / 1000000000 })
  ethOwn s p sub 1 { (default : EthFrame) with
    dst := f.src, src := (ownMac (s.ethPort p)).getD 0, tag := f.tag, length := 64, fcsOk := true, body := body }

/-- The frame carries UDP for ZTP or CSP to the VLAN entry's own address, unfragmented, without options or extension
headers, with a checksum the device accepts (R120, R223, R229 step 7). -/
def forDevice (s : State) (v : Vlan) (f : EthFrame) : Bool :=
  match f.ip with
  | none => false
  | some h =>
    ownIp v h.v6 == some h.dst && h.udp && !h.fragment && !h.extra
      && (if h.udpSumZero then !h.v6 else h.udpSumOk)
      && (match f.body with
          | .ztp _ => h.udpDst.toNat == fld s.tp.cfg 31 16
          | .csp _ => h.udpDst.toNat == fld s.coll.cfg 47 32
          | _ => false)

/-- The payload of a frame as the transport or the sequencer takes it. -/
def payloadOf (f : EthFrame) : FrameBody :=
  match f.body with
  | .ztp p => .ztp p
  | .csp p => .csp p
  | .raw b => .other b
  | _ => .other []

/-- Apply a received MAC control frame to a sub-port (R232): a pause or PFC frame counts, and the port obeys the kind
its PAUSE_MODE names (log entry 17); other MAC control frames do nothing. -/
def applyPause (s : State) (p sub : Nat) (b : EthBody) : State :=
  let e := s.ethPort p
  let ends := fun (q : BitVec 16) => s.now + ceilDiv (q.toNat * 64) (ethRate e)
  let counted := s.modEth p (fun e => { e with pauseRx := wrap 16 (e.pauseRx + 1) })
  match b with
  | .pause q => if pauseMode e = 1 then counted.modSub p sub (fun x => { x with portPause := ends q }) else counted
  | .pfc cls qs => if pauseMode e ≠ 2 then counted else
      forEach ((List.range 8).filter (fun t => cls.getLsbD t && pfcOn e t)) counted (fun s t =>
        s.modSub p sub (fun x => { x with pauseEnd := x.pauseEnd.put t (ends (qs.getD t 0)) }))
  | _ => s

/-- A PTP frame goes to the time unit (R229 step 6), which answers in the transport of its far end (R18). -/
def ptpReceived (s : State) (p sub : Nat) (f : EthFrame) (m : PtpMsg) : State :=
  let s := s.modPtp p (fun x => { x with transport := match f.ip with | none => 0 | some h => if h.v6 then 2 else 1 })
  { s with inbox := s.inbox ++ [({
      arr := ⟨some (BitVec.ofNat 4 p), 0, (f.ip.map (·.src)).getD 0, (injectBank s).getD false, false⟩
      body := .ptp m, prio := 0, bytes := 0, sub := sub } : Inboxed)] }

/-- A frame received on an Ethernet-mode port (R229). -/
def receiveEth (s : State) (p sub : Nat) (f : EthFrame) : State :=
  let e := s.ethPort p
  if !isEth s p then s
  else if !f.fcsOk || decide (f.length < 64) || decide (f.length > maxFrame e) || f.doubleTag then
    s.modEth p (fun e => { e with dropFormat := wrap 16 (e.dropFormat + 1) })
  else
    let s := s.modEth p (fun e => { e with rxFrames := wrap 64 (e.rxFrames + 1) })
    if f.control then applyPause s p sub f.body
    else if !passesFilter s p f.dst then s.modEth p (fun e => { e with dropFilter := wrap 16 (e.dropFilter + 1) })
    else match vlansFor e (frameVid f) with
      | [] => s.modEth p (fun e => { e with dropFilter := wrap 16 (e.dropFilter + 1) })
      | vs =>
        let t := framePrio f
        match police s p t f with
        | (s, .drop) => s
        | (s, verdict) =>
          match f.body with
          | .ptp m => ptpReceived s p sub f m
          | .arp target true =>
            if portAddr e false target then answerFirmware s p sub f (.arp target false)
            else s.modEth p (fun e => { e with dropProtocol := wrap 16 (e.dropProtocol + 1) })
          | .ns target true =>
            if portAddr e true target then answerFirmware s p sub f (.ns target false)
            else s.modEth p (fun e => { e with dropProtocol := wrap 16 (e.dropProtocol + 1) })
          | _ =>
            if !vs.any (fun v => forDevice s v f) then s.modEth p (fun e => { e with dropProtocol := wrap 16 (e.dropProtocol + 1) })
            else if (s.ethPort p).rxHeld.vals.foldl (· + ·) 0 + f.length > 1572864 then
              s.modEth p (fun e => { e with dropBuffer := wrap 16 (e.dropBuffer + 1) })
            else
              let arr : Arrival := ⟨some (BitVec.ofNat 4 p), 0, (f.ip.map (·.src)).getD 0,
                (injectBank s).getD false, ceOf f verdict⟩
              let s := { s with inbox := s.inbox ++ [({ arr := arr, body := payloadOf f, prio := t, bytes := f.length, sub := sub } : Inboxed)] }
              checkXoff (s.modEth p (fun e => { e with rxHeld := e.rxHeld.modifyD t 0 (· + f.length) })) p t

/-- ETH_FRAME_RECEIVED (R229). -/
def execEthFrameReceived (port : BitVec 4) (sub : BitVec 2) (frame : EthFrame) (s : State) :
    Host.Outcome State Fault Refusal := .next (receiveEth s port.toNat sub.toNat frame)

/-- The PFC frame of a priority in XOFF is sent again half its pause time after the last, while the
occupancy stays above XON (R231). -/
def refreshPfc (s : State) (p sub t : Nat) : State :=
  let e := s.ethPort p
  match (subOf e sub).xoffAt.find t with
  | none => s
  | some at_ =>
    if rxOccupancy e t ≤ xonLevel e then s
    else sendPause (s.arriveAt (at_ + fld e.pfc 63 48 * 32 / ethRate e)) p t (fld e.pfc 63 48)

/-- PFC_REFRESH (R231). -/
def execPfcRefresh (port : BitVec 4) (sub : BitVec 2) (prio : BitVec 3) (s : State) :
    Host.Outcome State Fault Refusal := .next (refreshPfc s port.toNat sub.toNat prio.toNat)

/-- PAUSE_FRAME (R232): it passes the checks of R229 steps 1 and 2 first. -/
def execPauseFrame (port : BitVec 4) (sub : BitVec 2) (frame : EthFrame) (s : State) :
    Host.Outcome State Fault Refusal :=
  .next (receiveEth s port.toNat sub.toNat { frame with control := true })

/-- The pause of a priority runs out (R232). -/
def expirePause (s : State) (p sub t : Nat) : State :=
  let x := subOf (s.ethPort p) sub
  let end_ := if pauseMode (s.ethPort p) = 1 then x.portPause else x.pauseEnd.findD t 0
  if end_ = 0 then s else
  (s.arriveAt end_).modSub p sub (fun x =>
    if pauseMode (s.ethPort p) = 1 then { x with portPause := 0 } else { x with pauseEnd := x.pauseEnd.erase t })

/-- PAUSE_EXPIRY (R232). -/
def execPauseExpiry (port : BitVec 4) (sub : BitVec 2) (prio : BitVec 3) (s : State) :
    Host.Outcome State Fault Refusal := .next (expirePause s port.toNat sub.toNat prio.toNat)

/-! ### Sending -/

/-- A raw frame has left, or was discarded for want of a sub-port: the send counts it, and ends with
its last frame (R94). -/
def rawFrameDone (s : State) (r : Option (Nat × Nat × Bool)) : State :=
  match r with
  | none => s
  | some (q, seq, last) =>
    let s := s.modStarted q seq (fun x => { x with target := x.target + 1 })
    if last then match startedAt s q seq with
      | some x => endEntry s q seq St.ok (BitVec.ofNat 64 x.target) 0
      | none => s
    else s

/-- Mark the first waiting frame equal to `f` as held. -/
def markHeld (f : EthQueued) : List EthQueued → List EthQueued
  | [] => []
  | x :: xs => if x = f then { x with held := true } :: xs else x :: markHeld f xs

/-- Count once each head frame that its gate holds (R239). -/
def countHeld (s : State) (p sub : Nat) : State :=
  let x := subOf (s.ethPort p) sub
  let held := (List.range 8).filterMap (fun t => match svcHead s p x t with
    | some f => if !f.held && !passesGate s p t f.frame.length then some f else none
    | none => none)
  forEach held s (fun s f =>
    (s.modSub p sub (fun x => { x with waiting := markHeld f x.waiting })).modEth p
      (fun e => { e with gateHeld := wrap 16 (e.gateHeld + 1) }))

/-- A sub-port starts the next frame the scheduler chooses (R233). -/
def startEth (s : State) (p sub : Nat) : State :=
  let x := subOf (s.ethPort p) sub
  if !isEth s p || !x.up || x.waiting.isEmpty then s else
  let s := s.arriveAt x.nextAt
  let s := countHeld s p sub
  match pickEth s p sub with
  | none => s
  | some (f, x) =>
    let g := leaveFrame s p f
    let s := s.modSub p sub (fun _ => { spendFrame s p x f with flying := some { f with frame := g } })
    let s := s.modEth p (fun e => { e with
      txFrames := wrap 64 (e.txFrames + 1), pauseTx := if f.rank = 2 then wrap 16 (e.pauseTx + 1) else e.pauseTx })
    let s := s.modMeter f.subscriber (fun m => if f.rank = 0 then { m with netTx := wrap 64 (m.netTx + f.frame.length) } else m)
    let s := match g.body with | .ptp m => ptpLeft s p m | _ => s
    rawFrameDone (s.sent (.eth p sub g)) f.rawOf

/-- ETH_FRAME_START (R233). -/
def execEthFrameStart (port : BitVec 4) (sub : BitVec 2) (s : State) :
    Host.Outcome State Fault Refusal := .next (startEth s port.toNat sub.toNat)

/-- The next entry of a port's gate list begins (R238): fabric time reaches its start. -/
def nextGate (s : State) (p : Nat) : State :=
  let s := forEach (List.range (subCount (s.ethPort p))) s (fun s i => countHeld s p i)
  match gateNow s p with
  | some (g, i, start) => s.arriveAt (start + 16 * gateTicks (g.entries.getD i 0))
  | none => match gateBlock s p with
    | some _ => s.arriveAt s.plans.activeF
    | none => s

/-- GATE_ENTRY (R238). -/
def execGateEntry (port : BitVec 4) (s : State) : Host.Outcome State Fault Refusal :=
  .next (nextGate s port.toNat)

/-! ### Sub-ports -/

/-- An address of a VLAN entry in use, with its VLAN. -/
def liveIp (v : Vlan) (v6 : Bool) : Option (Nat × BitVec 128) :=
  if vlanOk v then (ownIp v v6).map (fun a => (fld v.vlan 59 48, a)) else none

/-- One gratuitous ARP or unsolicited neighbour advertisement for each address in use on a VLAN entry `v` that was not
in use there as `old` stood (R228). -/
def announceVlan (s : State) (p sub : Nat) (old v : Vlan) : State :=
  let frame := fun (b : EthBody) => { (default : EthFrame) with
    dst := 0xFFFFFFFFFFFF, src := (ownMac (s.ethPort p)).getD 0
    tag := if fld v.vlan 59 48 = 0 then none else some (7, BitVec.ofNat 12 (fld v.vlan 59 48))
    length := 64, fcsOk := true, body := b }
  let one := fun (s : State) (v6 : Bool) (b : BitVec 128 → EthBody) => match liveIp v v6 with
    | some a => if liveIp old v6 = some a then s else ethOwn s p sub 1 (frame (b a.2))
    | none => s
  one (one s false (.arp · false)) true (.ns · false)

/-- A sub-port comes up (R225, R228). -/
def subUp (s : State) (p sub : Nat) : State :=
  if !isEth s p || decide (sub ≥ subCount (s.ethPort p)) || !bit (s.port p).cfg 1 then s else
  let s := s.modSub p sub (fun x => { x with up := true, portPause := 0, pauseEnd := Tbl.empty })
  forEach (s.ethPort p).vlans.vals s (fun s v => announceVlan s p sub default v)

/-- SUBPORT_LINK_UP (R228). -/
def execSubportLinkUp (port : BitVec 4) (sub : BitVec 2) (s : State) : Host.Outcome State Fault Refusal :=
  .next (subUp s port.toNat sub.toNat)

/-- The frame in progress on a sub-port is lost: it is not sent after all (R241). -/
def loseFlying (s : State) (p sub : Nat) : State :=
  let x := subOf (s.ethPort p) sub
  match (if s.now < x.busyUntil then x.flying else none) with
  | none => s
  | some f =>
    let s := s.modEth p (fun e => { e with
      txFrames := wrap 64 (e.txFrames + 2 ^ 64 - 1), pauseTx := if f.rank = 2 then wrap 16 (e.pauseTx + 65535) else e.pauseTx })
    let s := { s with out := s.out.erase (.eth p sub f.frame) }
    match f.rawOf with
    | none => s
    | some (q, seq, _) => s.modStarted q seq (fun x => { x with
        target := x.target - 1, ending := x.ending.map (fun e => { e with result := BitVec.ofNat 64 (x.target - 1) }) })

/-- A sub-port with nothing waiting and nothing in progress, as its link goes down: its services and subscribers
have no frame (R235, R236). -/
def emptySub (x : SubPort) : SubPort :=
  { x with
    up := false, waiting := [], flying := none, xoffAt := Tbl.empty, portPause := 0, pauseEnd := Tbl.empty
    busyUntil := 0, nextAt := 0, drrD := Tbl.empty
    svcTags := x.svcTags.mapCells (fun _ g => { g with backlog := false })
    subTags := x.subTags.mapCells (fun _ g => { g with backlog := false }) }

/-- A sub-port goes down: the frame in progress and its own MAC control frames are lost, the frames queued for it
move to the next sub-port that is up, or are discarded (R225, R241). -/
def subDown (s : State) (p sub : Nat) : State :=
  let x := subOf (s.ethPort p) sub
  let s := (loseFlying s p sub).modSub p sub emptySub
  forEach (x.waiting.filter (fun f => f.rank != 2)) s (fun s f =>
    match pickSub (s.ethPort p) (sub + 1) with
    | some j => s.modSub p j (fun y => queueOn y f)
    | none => match f.rawOf with
      | some (q, seq, true) => match startedAt s q seq with
        | some y => endEntry s q seq St.ok (BitVec.ofNat 64 y.target) 0
        | none => s
      | _ => s)

/-- SUBPORT_LINK_DOWN (R241). -/
def execSubportLinkDown (port : BitVec 4) (sub : BitVec 2) (s : State) : Host.Outcome State Fault Refusal :=
  .next (subDown s port.toNat sub.toNat)

end Sys2Proof.Machine
end

