-- ==== Sys2Proof/Machine/RawOps.lean ====
section
/-! DEFINITION. Shared operations of data movement inside the device: COPY (R86, R252), HOST_SIGNAL
(R91), and the frames of a raw send (R94, R243). -/

namespace Sys2Proof.Machine

/-! ### COPY (R86) -/

/-- Move the bytes of a COPY: the status and DETAIL it ends with (R252, R253, R289).  Where the two
ranges overlap the destination is undefined. -/
def copyData (s : State) (src dst : Xlat) : State × Nat × BitVec 32 :=
  match xlatRead s src 0 src.len with
  | (s, .failed st d, bytes) =>
    if xlatLost s dst then (s, st, d)
    else (undefineFrom (xlatWrite s dst 0 bytes).1 dst bytes.length, st, d)
  | (s, .done, bytes) =>
    let r := if sameMemory src dst then freeBytes dst.len s else (bytes, s)
    match xlatWrite r.2 dst 0 r.1 with
    | (s, .failed st d) => (s, st, d)
    | (s, .done) => (s, St.ok, 0)

/-! ### Raw frames -/

/-- Replace bytes of a list from an offset. -/
def patch (h : List Byte) (o : Nat) (b : List Byte) : List Byte := h.take o ++ b ++ h.drop (o + b.length)

/-- A big-endian field of a list of bytes. -/
def beAt (b : List Byte) (o n : Nat) : Nat := beVal (slice b o n)

/-- The 16-bit ones' complement sum of a list of bytes. -/
def onesSum : List Byte → Nat
  | [] => 0
  | [a] => a.toNat * 256
  | a :: b :: rest => a.toNat * 256 + b.toNat + onesSum rest

/-- Fold a sum to 16 bits, with the carries added back in. -/
def foldSum (n : Nat) : Nat :=
  let a := n % 65536 + n / 65536
  let b := a % 65536 + a / 65536
  let c := b % 65536 + b / 65536
  c % 65536 + c / 65536

/-- The Internet checksum of a list of bytes. -/
def inetSum (b : List Byte) : Nat := 65535 - foldSum (onesSum b)

/-- What the device finds in the header of a large send (R243). -/
structure LsoHeader where
  ipOff : Nat
  v6 : Bool
  l4Off : Nat
  tcp : Bool
  len : Nat
  deriving DecidableEq, Repr, Inhabited

/-- Parse a header as Ethernet, an optional tag, IPv4 or IPv6, and TCP or UDP (R243). -/
def parseLso (h : List Byte) : Option LsoHeader :=
  let tagged := beAt h 12 2 == 0x8100
  let et := if tagged then beAt h 16 2 else beAt h 12 2
  let ip := if tagged then 18 else 14
  let l4 := fun (v6 : Bool) (off proto : Nat) =>
    if proto = 6 then if beAt h (off + 12) 1 / 16 < 5 then none else some (⟨ip, v6, off, true, off + beAt h (off + 12) 1 / 16 * 4⟩ : LsoHeader)
    else if proto = 17 then some ⟨ip, v6, off, false, off + 8⟩
    else none
  if et = 0x0800 then
    if beAt h ip 1 / 16 ≠ 4 ∨ beAt h ip 1 % 16 < 5 ∨ beAt h (ip + 6) 2 % 16384 ≠ 0 then none
    else l4 false (ip + beAt h ip 1 % 16 * 4) (beAt h (ip + 9) 1)
  else if et = 0x86DD then
    if beAt h ip 1 / 16 ≠ 6 then none else l4 true (ip + 40) (beAt h (ip + 6) 1)
  else none

/-- The pseudo-header of a TCP or UDP checksum for `n` bytes of segment. -/
def pseudoHeader (h : List Byte) (p : LsoHeader) (n : Nat) : List Byte :=
  let proto := if p.tcp then 6 else 17
  if p.v6 then slice h (p.ipOff + 8) 32 ++ beBytes 4 n ++ beBytes 4 proto
  else slice h (p.ipOff + 12) 8 ++ beBytes 2 proto ++ beBytes 2 n

/-- Header of frame `k` of `n`, for a payload (R243). -/
def lsoHeader (h : List Byte) (p : LsoHeader) (k n mss : Nat) (data : List Byte) : List Byte :=
  let seg := h.length - p.l4Off + data.length
  let h := if p.v6 then patch h (p.ipOff + 4) (beBytes 2 seg)
    else
      let h := patch h (p.ipOff + 2) (beBytes 2 (p.l4Off - p.ipOff + seg))
      let h := patch h (p.ipOff + 4) (beBytes 2 (wrap 16 (beAt h (p.ipOff + 4) 2 + k)))
      let h := patch h (p.ipOff + 10) [0, 0]
      patch h (p.ipOff + 10) (beBytes 2 (inetSum (slice h p.ipOff (p.l4Off - p.ipOff))))
  if p.tcp then
    let h := patch h (p.l4Off + 4) (beBytes 4 (wrap 32 (beAt h (p.l4Off + 4) 4 + k * mss)))
    let f : Byte := BitVec.ofNat 8 (beAt h (p.l4Off + 13) 1)
    let f := if k + 1 = n then f else f &&& ~~~0x09
    let f := if k = 0 then f else f &&& ~~~0x80
    let h := patch (patch h (p.l4Off + 13) [f]) (p.l4Off + 16) [0, 0]
    patch h (p.l4Off + 16) (beBytes 2 (inetSum (pseudoHeader h p seg ++ h.drop p.l4Off ++ data)))
  else
    let none_ := beAt h (p.l4Off + 6) 2 == 0 && !p.v6
    let h := patch (patch h (p.l4Off + 4) (beBytes 2 seg)) (p.l4Off + 6) [0, 0]
    if none_ then h
    else
      let c := inetSum (pseudoHeader h p seg ++ h.drop p.l4Off ++ data)
      patch h (p.l4Off + 6) (beBytes 2 (if c = 0 then 65535 else c))

/-- Zero bytes up to a length. -/
def padTo (n : Nat) (b : List Byte) : List Byte := b ++ List.replicate (n - b.length) 0

/-- The frames of a RAW_SEND, without FCS (R94, R243). -/
def rawFrames (e : Entry) (b : List Byte) : List (List Byte) :=
  if !bit e.w4 8 then [b] else
  let hl := fld e.w4 23 16
  let mss := fld e.w5 15 0
  let h := b.take hl
  let n := ceilDiv (b.length - hl) mss
  (List.range n).map (fun k =>
    let data := slice b (hl + k * mss) mss
    let head := match parseLso h with
      | some p => if p.len = hl then lsoHeader h p k n mss data else h
      | none => h
    padTo 60 (head ++ data))

/-- A raw frame as the scheduler sees it (R229, R233). -/
def rawEth (b : List Byte) : EthFrame :=
  let tagged := beAt b 12 2 == 0x8100
  let et := if tagged then beAt b 16 2 else beAt b 12 2
  let ip := if tagged then 18 else 14
  let tos := if et = 0x0800 then some (false, beAt b (ip + 1) 1)
    else if et = 0x86DD then some (true, beAt b ip 2 / 16 % 256) else none
  { dst := BitVec.ofNat 48 (beAt b 0 6), src := BitVec.ofNat 48 (beAt b 6 6), doubleTag := false
    tag := if tagged then some (BitVec.ofNat 3 (beAt b 14 2 / 8192), BitVec.ofNat 12 (beAt b 14 2)) else none
    control := false, length := b.length + 4, fcsOk := true
    ip := tos.map (fun t => { (default : IpHeader) with v6 := t.1, dscp := BitVec.ofNat 6 (t.2 / 4) })
    body := .raw b }

/-- Flow number of a raw-frame work queue, and of a large send of it in progress (R233). -/
def rawFlow (q : Nat) : Nat := 2 ^ 20 + q
def lsoFlow (q seq : Nat) : Nat := 2 ^ 22 + q * 2 ^ 32 + seq

/-- Queue the frames of a raw send; with no sub-port up they are discarded and the send ends with the
frames that left (R94, R225). -/
def queueRaw (s : State) (q seq p inst : Nat) (lso : Bool) (fs : List (List Byte)) : State :=
  match pickSub (s.ethPort p) q with
  | none => endEntry s q seq St.ok 0 0
  | some sub =>
    let n := fs.length
    forEach (fs.zip (List.range n)) s (fun s f =>
      let e := rawEth f.1
      s.modSub p sub (fun x => queueOn x ⟨e, if lso then lsoFlow q seq else rawFlow q, inst, framePrio e, false, 0,
        false, some (q, seq, f.2 + 1 == n), s.now⟩))

end Sys2Proof.Machine
end

