-- ==== Sys2Proof/Machine/Queues.lean ====
section
/-! DEFINITION. The commands of the queue engine (chapter 3): doorbells, the start and completion of
entries, and the creation of queues and rings. -/

namespace Sys2Proof.Machine

/-! ### Doorbells -/

/-- Count a doorbell of an instance that is ignored (R63, R70, R95). -/
def staleDoorbell (s : State) (i : Nat) : State :=
  s.modWin i (fun w => { w with stale := wrap 32 (w.stale + 1) })

/-- Take a work queue doorbell (R63): a PI in range moves the queue on. -/
def takeWqDoorbell (s : State) (i q : Nat) (v : Word) : State :=
  match s.queues.find q with
  | none => s
  | some w =>
    let pi := fld v 31 0
    let d := dmod 32 pi w.pi
    if w.st == .error || w.st == .calm || instCalming s i || d = 0 || decide (d ≥ 2 ^ 31)
        || decide (dmod 32 pi w.fetch > 2 ^ w.depthLog)
    then staleDoorbell s i
    else serveHead (s.modQueue q (fun w => { w with pi := pi, st := if w.st == .idle then .running else w.st })) q

/-- The queue is created and is one of instance `i`. -/
def queueOf (s : State) (i q : Nat) : Bool := match s.queues.find q with | some w => w.inst == i | none => false

/-- The ring is created and is one of instance `i`. -/
def ringOf (s : State) (i r : Nat) : Bool := match s.rings.find r with | some x => x.inst == i | none => false

/-- A doorbell with reserved bits is counted as stale beside the violation (R63, R70). -/
def doorbellAt (s : State) (l i a : Nat) (held : Bool) (rsv : List (Nat × Nat)) (v : Word) (f : State → State) : State :=
  let s' := ctlDoorbell s l a held rsv v f
  if arrives s l && serves s l a && held && (v &&& maskOf rsv) != 0 then staleDoorbell s' i else s'

/-- WQ_DOORBELL (R63). -/
def execWqDoorbell (link : BitVec 2) (inst : BitVec 7) (q : BitVec 19) (value : Word) (s : State) :
    Host.Outcome State Fault Refusal :=
  .next (doorbellAt s link.toNat inst.toNat (winAddr inst.toNat (wqDbOff + 64 * q.toNat))
    (queueOf s inst.toNat q.toNat) [(63, 32)] value (fun s => takeWqDoorbell s inst.toNat q.toNat value))

/-- Take a ring doorbell (R70): CI frees slots, ARM asks for one interrupt. Queues that waited for a
slot look again, the lower number first (R66). With ARM = 0 an interrupt armed before stays armed: the spec does not say
(DESIGN CHOICE, log entry 126). -/
def takeCqDoorbell (s : State) (i n : Nat) (v : Word) : State :=
  match s.rings.find n with
  | none => s
  | some r =>
    let ci := fld v 31 0
    if dmod 32 ci r.ci > dmod 32 r.wp r.ci then staleDoorbell s i
    else
      let arm := bit v 32 && r.vecEn
      let now := arm && r.wp != ci
      let s := s.modRing n (fun r => { r with ci := ci, armed := if arm then !now else r.armed })
      let s := if now then fireVector s r.vector else s
      let qs := s.queues.keys.filter (fun q => match s.queues.find q with | some w => w.ring == n | none => false)
      forEach qs s (fun s q => match s.queues.find q with
        | some w =>
          let s := flushQueue s q
          if w.st == .waiting && w.reason == .ringFull then serveHead s q else s
        | none => s)

/-- CQ_DOORBELL (R70). -/
def execCqDoorbell (link : BitVec 2) (inst : BitVec 7) (ring : BitVec 17) (value : Word) (s : State) :
    Host.Outcome State Fault Refusal :=
  .next (doorbellAt s link.toNat inst.toNat (winAddr inst.toNat (cqDbOff + 64 * ring.toNat))
    (ringOf s inst.toNat ring.toNat) [(63, 33)] value (fun s => takeCqDoorbell s inst.toNat ring.toNat value))

/-! ### Starting and completing -/

/-- Start the issued head of a queue (R66, R71, R77, R316): its group takes a slot, its account is
charged, and the head moves on unless the entry holds it. -/
def startHead (s : State) (q : Nat) (w : WorkQueue) (h : Issued) : State :=
  let e := h.entry
  let acct := accountOf s w.inst e
  let r := joinGroup s q w.fetch e.batchEnd
  let s := chargeStart r.1 w.inst acct (startParts s w.inst e h.xlats)
  let x : Started := ⟨w.fetch, r.2, e, h.issuedAt, h.xlats, false, none, 0⟩
  let s := s.modQueue q (fun w => { w with
    head := none, started := w.started ++ [x], st := .running, reason := .none
    fetch := if holdsHead e.op then w.fetch else wrap 32 (w.fetch + 1) })
  serveHead s q

/-- A COLL_STEP whose STEP is not the slot's next (R92): it never starts, and its queue halts. -/
def badStep (s : State) (e : Entry) : Bool :=
  e.op == 0x20 && (s.slot e.slot).cond != .fault && e.step != (s.slot e.slot).nextStep

/-- The head of a queue starts if all its start conditions hold (R77) and it is the one the dispatcher takes next among the
heads that are ready (R74, R316). -/
def startEntry (s : State) (q : Nat) : State :=
  let s := serveHead s q
  match headReady s q with
  | none => s
  | some (w, h) =>
    if dispatched s ≠ some q then s
    else if badStep s h.entry then haltQueue s q w.fetch St.malformed h.entry.op (selfDetail s h.entry.slot) false
    else startHead (passTurn s q) q w h

/-- ENTRY_START (R77). -/
def execEntryStart (q : BitVec 19) (s : State) : Host.Outcome State Fault Refusal := .next (startEntry s q.toNat)

/-- An entry that has ended completes, and what waited for it moves on (R67). -/
def completeOne (s : State) (q seq : Nat) : State := settle (finishEntry s q seq)

/-- ENTRY_COMPLETE (R67). -/
def execEntryComplete (q : BitVec 19) (seq : BitVec 32) (s : State) : Host.Outcome State Fault Refusal :=
  .next (completeOne s q.toNat seq.toNat)

/-! ### Creation -/

/-- Where an array of `len` bytes may lie (R58): 4 KiB aligned, within one segment with a permission. -/
def arrayFits (s : State) (i : Nat) (base : Word) (len : Nat) (p : Perm) : Bool :=
  decide (fld base 59 0 % 4096 = 0) && (match localRange s i base len p with | .ok _ => true | .error _ => false)

/-- The level that a plan's claim gives a queue (R59). -/
def claimLevel (s : State) (i q : Nat) : Option Nat :=
  (claimFor (activeClaims s ++ s.plans.oldClaims) 0x01 i q).map (fun c => c.attr % 4)

/-- The code of WQ_CMD CREATE (R96). -/
def wqCreateCode (s : State) (i : Nat) : Nat :=
  let w := (s.inst i).win
  let cfg := w.wqCfg.findD w.wqSel 0
  let lvl := fld cfg 25 24
  let dl := fld cfg 21 17
  if !(lvl == 1 || lvl == 2) || (bit cfg 23 && lvl != 2) || dl < 4 || dl > 16
      || !holds s i 0x01 w.wqSel || (s.queues.find w.wqSel).isSome
      || !(holds s i 0x02 (fld cfg 16 0) && ringOf s i (fld cfg 16 0))
    then St.malformed
  else if (match claimLevel s i w.wqSel with | some l => l != lvl | none => false) then St.planMismatch
  else if !arrayFits s i (w.wqBase.findD w.wqSel 0) (2 ^ dl * 64) .rd then St.localBounds
  else St.ok

/-- A queue just created (R95). -/
def newQueue (i : Nat) (base cfg : Word) : WorkQueue :=
  { inst := i, base := base, depthLog := fld cfg 21 17, level := fld cfg 25 24, raw := bit cfg 23
    ring := fld cfg 16 0, st := .idle, reason := .none, haltIdx := 0, haltStatus := 0, pi := 0, fetch := 0
    earlyCounted := false, head := none, started := [], groups := [], nextGid := 0, waitSince := none, lull := false }

/-- WQ_CMD (R96): CREATE makes the queue named in WQ_SEL, or leaves a code; other values are ignored. -/
def wqCommand (s : State) (i : Nat) (v : Word) : State :=
  let s := s.modWin i (fun w => { w with wqDone := false })
  if fld v 7 0 ≠ 1 then s
  else
    let code := wqCreateCode s i
    let w := (s.inst i).win
    let s := s.modWin i (fun w => { w with wqDone := true, wqCode := code })
    if code = St.ok then calmQueue { s with queues := s.queues.put w.wqSel (newQueue i (w.wqBase.findD w.wqSel 0) (w.wqCfg.findD w.wqSel 0)) } w.wqSel
    else s

/-- WQ_CREATE (R96). -/
def execWqCreate (link : BitVec 2) (inst : BitVec 7) (value : Word) (s : State) : Host.Outcome State Fault Refusal :=
  .next (ctlWrite s link.toNat (winAddr inst.toNat 0x1018) [(63, 8)] value (fun s => wqCommand s inst.toNat value))

/-- The code of CQ_CMD CREATE (R96). -/
def cqCreateCode (s : State) (i : Nat) : Nat :=
  let w := (s.inst i).win
  let cfg := w.cqCfg.findD w.cqSel 0
  let dl := fld cfg 21 17
  if dl < 4 || dl > 16 || !holds s i 0x02 w.cqSel || (s.rings.find w.cqSel).isSome
      || (bit cfg 11 && !holds s i 0x0C (fld cfg 10 0))
    then St.malformed
  else if !arrayFits s i (w.cqBase.findD w.cqSel 0) (2 ^ dl * 32) .wr then St.localBounds
  else St.ok

/-- CQ_CMD (R96): CREATE makes the ring named in CQ_SEL, or leaves a code. -/
def cqCommand (s : State) (i : Nat) (v : Word) : State :=
  let s := s.modWin i (fun w => { w with cqDone := false })
  if fld v 7 0 ≠ 1 then s
  else
    let code := cqCreateCode s i
    let w := (s.inst i).win
    let s := s.modWin i (fun w => { w with cqDone := true, cqCode := code })
    let cfg := w.cqCfg.findD w.cqSel 0
    let r : Ring := ⟨i, w.cqBase.findD w.cqSel 0, fld cfg 21 17, bit cfg 11, fld cfg 10 0, 0, 0, 0, false, false⟩
    if code = St.ok then { s with rings := s.rings.put w.cqSel r } else s

/-- CQ_CREATE (R96). -/
def execCqCreate (link : BitVec 2) (inst : BitVec 7) (value : Word) (s : State) : Host.Outcome State Fault Refusal :=
  .next (ctlWrite s link.toNat (winAddr inst.toNat 0x1118) [(63, 8)] value (fun s => cqCommand s inst.toNat value))

end Sys2Proof.Machine
end

