-- ==== Sys2Proof/Machine/Instructions.lean ====
section
/-! DEFINITION. The instructions of the queue engine (chapter 3): each command runs the oldest started
entry of a queue that has not run, if it has the instruction's opcode (log entry 16). -/

namespace Sys2Proof.Machine

/-- Run the next entry of a queue with an opcode. -/
def runEntry (s : State) (q op : Nat) (f : State → WorkQueue → Started → State) : State :=
  match nextToRun s q op with
  | none => s
  | some (w, x) => settle (f s w x)

/-- The entry of a queue has begun its effect and ends later. -/
def markRan (s : State) (q seq : Nat) : State := s.modStarted q seq (fun x => { x with ran := true })

/-! ### NOP and FENCE (R84) -/

/-- NOP completes at its start, with no result. -/
def runNop (s : State) (q : Nat) (_ : WorkQueue) (x : Started) : State := endEntry s q x.seq St.ok 0 0

/-- NOP (R84). -/
def execNop (q : BitVec 19) (s : State) : Host.Outcome State Fault Refusal :=
  .next (runEntry s q.toNat 0x00 (fun s => runNop s q.toNat))

/-- FENCE has started only after every earlier entry completed, so it ends (R72, R84). -/
def runFence (s : State) (q : Nat) (_ : WorkQueue) (x : Started) : State := endEntry s q x.seq St.ok 0 0

/-- FENCE (R84). -/
def execFence (q : BitVec 19) (s : State) : Host.Outcome State Fault Refusal :=
  .next (runEntry s q.toNat 0x18 (fun s => runFence s q.toNat))

/-! ### Messages (R85, R87, R119) -/

/-- The message of an entry on its QP. -/
def entryMsg (q : Nat) (x : Started) (kind : MsgKind) : Msg :=
  let e := x.entry
  { msn := 0, kind := kind, owner := .entry q x.seq, psn := none, span := 1
    len := if kind = .sync then 0 else e.len
    raddr := e.w2, rkey := e.rkey
    signal := if kind = .write then BitVec.ofNat 32 ((bit e.w4 41).toNat * 2 ^ 31 + fld e.w4 40 20) else 0
    radd := if kind = .write then fld e.w5 31 0 else 0
    sync := if kind = .sync then
        ⟨if e.op = 0x10 then 0 else if e.op = 0x12 then 1 else if e.op = 0x11 then 2 else 3,
          if e.hasDeadline then 1 else 0, 0, BitVec.ofNat 32 e.id, e.w5, if e.hasDeadline then e.w7 else 0⟩
      else default
    xlat := x.xlats.head?, inlineData := [], placed := 0, passed := false, held := false, timerAt := none, k := 0 }

/-- Start the message of an entry; the entry ends with it. -/
def runMsg (s : State) (q : Nat) (x : Started) (kind : MsgKind) : State :=
  startOnQp (markRan s q x.seq) x.entry.qp (entryMsg q x kind)

/-- WRITE starts its message (R85). -/
def runWrite (s : State) (q : Nat) (_ : WorkQueue) (x : Started) : State := runMsg s q x .write

/-- WRITE (R85). -/
def execWrite (q : BitVec 19) (s : State) : Host.Outcome State Fault Refusal :=
  .next (runEntry s q.toNat 0x01 (fun s => runWrite s q.toNat))

/-- READ starts its message, its landing space reserved (R85). -/
def runRead (s : State) (q : Nat) (_ : WorkQueue) (x : Started) : State := runMsg s q x .read

/-- READ (R85). -/
def execRead (q : BitVec 19) (s : State) : Host.Outcome State Fault Refusal :=
  .next (runEntry s q.toNat 0x02 (fun s => runRead s q.toNat))

/-! ### COPY (R86) -/

/-- COPY begins; its data move by COPY_COMPLETE. -/
def runCopy (s : State) (q : Nat) (_ : WorkQueue) (x : Started) : State := markRan s q x.seq

/-- COPY (R86). -/
def execCopy (q : BitVec 19) (s : State) : Host.Outcome State Fault Refusal :=
  .next (runEntry s q.toNat 0x03 (fun s => runCopy s q.toNat))

/-- The destination of a COPY is written and the entry completes with the bytes copied (R86). While a
link it needs is not UP the COPY waits where it stands (R287). -/
def finishCopy (s : State) (q seq : Nat) : State :=
  match startedAt s q seq with
  | none => s
  | some x =>
    if x.entry.op ≠ 0x03 ∨ !x.ran ∨ x.ending.isSome then s
    else match x.xlats with
      | [src, dst] =>
        if (xlatHeld s src && !xlatLost s src) || (xlatHeld s dst && !xlatLost s dst) then s
        else
          let r := copyData s src dst
          completeOne (endEntry r.1 q seq r.2.1 (BitVec.ofNat 64 x.entry.len) r.2.2) q seq
      | _ => s

/-- COPY_COMPLETE (R86). -/
def execCopyComplete (q : BitVec 19) (seq : BitVec 32) (s : State) : Host.Outcome State Fault Refusal :=
  .next (finishCopy s q.toNat seq.toNat)

/-! ### Counters and semaphores (R87) -/

/-- An object of a local entry whose granule has been orphaned since issue ends the entry OWNER_LOST,
which is terminal for its queue (R78). -/
def objectGone (s : State) (e : Entry) : Bool := !e.isRemote && (s.granule (granOf e.id)).orphan

/-- A wait that is not satisfied at once holds the head (R95, R117); a deadline already passed expires at the end
of this tick (R15). -/
def holdWait (s : State) (q : Nat) (x : Started) : State :=
  match startedAt s q x.seq with
  | none => s
  | some y => if y.ending.isSome then s else waitAtHead s q .sync

/-- The wait of a local entry on a sync object. -/
def entryWait (s : State) (q : Nat) (x : Started) (sem : Bool) (value : Nat) : Wait :=
  ⟨.queue q x.seq, sem, x.entry.id, value, if x.entry.hasDeadline then some x.entry.w7.toNat else none, s.now, localRank q⟩

/-- SIGNAL adds to a counter, here or at the far end of its QP (R102, R87). -/
def runSignal (s : State) (q : Nat) (_ : WorkQueue) (x : Started) : State :=
  let e := x.entry
  if e.isRemote then runMsg s q x .sync
  else if objectGone s e then haltStarted s q x.seq St.ownerLost 0
  else
    let s := addCounter s e.id e.w5.toNat (localRank q)
    endEntry s q x.seq St.ok (BitVec.ofNat 64 (objVal s e.id)) 0

/-- SIGNAL (R102). -/
def execSignal (q : BitVec 19) (s : State) : Host.Outcome State Fault Refusal :=
  .next (runEntry s q.toNat 0x10 (fun s => runSignal s q.toNat))

/-- WAIT_COUNTER waits until a counter is reached (R104). -/
def runWaitCounter (s : State) (q : Nat) (_ : WorkQueue) (x : Started) : State :=
  let e := x.entry
  if e.isRemote then holdWait (runMsg s q x .sync) q x
  else if objectGone s e then haltStarted s q x.seq St.ownerLost 0
  else joinWait (markRan s q x.seq) (entryWait s q x false e.w5.toNat)

/-- WAIT_COUNTER (R104). -/
def execWaitCounter (q : BitVec 19) (s : State) : Host.Outcome State Fault Refusal :=
  .next (runEntry s q.toNat 0x11 (fun s => runWaitCounter s q.toNat))

/-- SEM_ADD adds to a semaphore, or ends SEMAPHORE_OVERFLOW without change (R105). -/
def runSemAdd (s : State) (q : Nat) (_ : WorkQueue) (x : Started) : State :=
  let e := x.entry
  let n := fld e.w5 31 0
  if e.isRemote then runMsg s q x .sync
  else if objectGone s e then haltStarted s q x.seq St.ownerLost 0
  else match addSem s e.id n (localRank q) with
  | (s, some v) => endEntry s q x.seq St.ok (BitVec.ofNat 64 v) 0
  | (s, none) => endEntry s q x.seq St.semOverflow 0 0

/-- SEM_ADD (R105). -/
def execSemAdd (q : BitVec 19) (s : State) : Host.Outcome State Fault Refusal :=
  .next (runEntry s q.toNat 0x12 (fun s => runSemAdd s q.toNat))

/-- SEM_WAIT joins the semaphore's waiters and is served in turn (R106). -/
def runSemWait (s : State) (q : Nat) (_ : WorkQueue) (x : Started) : State :=
  let e := x.entry
  if e.isRemote then holdWait (runMsg s q x .sync) q x
  else if objectGone s e then haltStarted s q x.seq St.ownerLost 0
  else joinWait (markRan s q x.seq) (entryWait s q x true (fld e.w5 31 0))

/-- SEM_WAIT (R106). -/
def execSemWait (q : BitVec 19) (s : State) : Host.Outcome State Fault Refusal :=
  .next (runEntry s q.toNat 0x13 (fun s => runSemWait s q.toNat))

/-! ### Waits on a queue and on time -/

/-- WAIT_QUEUE waits for the completed prefix of a queue (R88). -/
def runWaitQueue (s : State) (q : Nat) (_ : WorkQueue) (x : Started) : State :=
  let named := fld x.entry.w3 18 0
  let s := markRan s q x.seq
  if queueWaitMet s x then endEntry s q x.seq St.ok (BitVec.ofNat 64 (cplOf s named)) 0
  else if queueStopped s named then endEntry s q x.seq St.flushed 0 0
  else holdWait s q x

/-- WAIT_QUEUE (R88). -/
def execWaitQueue (q : BitVec 19) (s : State) : Host.Outcome State Fault Refusal :=
  .next (runEntry s q.toNat 0x14 (fun s => runWaitQueue s q.toNat))

/-- Target of a TIME_WAIT (R90): absolute, or counted from the tick in which it passed its issue
checks. Fabric time does not wrap in service. -/
def timeTarget (x : Started) : Nat := x.entry.w5.toNat + (if bit x.entry.w4 0 then x.issuedAt else 0)

/-- TIME_WAIT holds the head until its target is reached (R90, R15); one whose target lies at least the
lull threshold beyond its issue tick is a lull at once (R117). -/
def runTimeWait (s : State) (q : Nat) (_ : WorkQueue) (x : Started) : State :=
  let t := timeTarget x
  let s := s.modStarted q x.seq (fun x => { x with ran := true, target := t })
  if reached s t then endEntry s q x.seq St.ok (BitVec.ofNat 64 s.now) 0
  else
    let s := waitAtHead s q .time
    if t ≥ x.issuedAt + lullNs s then beginLull s q else s

/-- TIME_WAIT (R90). -/
def execTimeWait (q : BitVec 19) (s : State) : Host.Outcome State Fault Refusal :=
  .next (runEntry s q.toNat 0x19 (fun s => runTimeWait s q.toNat))

/-- The tick of a TIME_WAIT's target is reached (R90). -/
def reachTimeWait (s : State) (q : Nat) : State :=
  match s.queues.find q with
  | none => s
  | some w => match timeWaitOf w with
    | none => s
    | some x =>
      let s := s.arriveAt x.target
      endEntry s q x.seq St.ok (BitVec.ofNat 64 s.now) 0

/-- TIME_WAIT_REACHED (R90). -/
def execTimeWaitReached (q : BitVec 19) (s : State) : Host.Outcome State Fault Refusal :=
  .next (reachTimeWait s q.toNat)

/-! ### HOST_SIGNAL (R91) -/

/-- HOST_SIGNAL writes VALUE to companion memory, then sends the vector. While the link is not UP the
write waits (R287). -/
def runHostSignal (s : State) (q : Nat) (_ : WorkQueue) (x : Started) : State :=
  let e := x.entry
  let fire := fun (s : State) => if bit e.w4 17 then fireVector s (fld e.w4 10 0) else s
  match x.xlats with
  | [] => endEntry (fire s) q x.seq St.ok 0 0
  | d :: _ =>
    if xlatHeld s d && !xlatLost s d then s
    else match xlatWrite s d 0 (leBytes 8 e.w5.toNat) with
      | (s, .failed st dt) => endEntry s q x.seq st 0 dt
      | (s, .done) => endEntry (fire s) q x.seq St.ok 0 0

/-- HOST_SIGNAL (R91). -/
def execHostSignal (q : BitVec 19) (s : State) : Host.Outcome State Fault Refusal :=
  .next (runEntry s q.toNat 0x1A (fun s => runHostSignal s q.toNat))

/-! ### COUCH_COPY and RAW_SEND -/

/-- COUCH_COPY begins a copy of its region (R93, R264). -/
def runCouchCopy (s : State) (q : Nat) (_ : WorkQueue) (x : Started) : State :=
  couchOpen (markRan s q x.seq) x.entry.region q x.seq

/-- COUCH_COPY (R264). -/
def execCouchCopy (q : BitVec 19) (s : State) : Host.Outcome State Fault Refusal :=
  .next (runEntry s q.toNat 0x21 (fun s => runCouchCopy s q.toNat))

/-- RAW_SEND reads its bytes and queues its frames (R94, R243); it ends when the last has left. -/
def runRawSend (s : State) (q : Nat) (w : WorkQueue) (x : Started) : State :=
  match x.xlats with
  | [] => s
  | src :: _ =>
    if xlatHeld s src && !xlatLost s src then s
    else match xlatRead s src 0 x.entry.len with
      | (s, .failed st d, _) => endEntry s q x.seq st 0 d
      | (s, .done, b) => queueRaw (markRan s q x.seq) q x.seq x.entry.port w.inst (bit x.entry.w4 8) (rawFrames x.entry b)

/-- RAW_SEND (R94). -/
def execRawSend (q : BitVec 19) (s : State) : Host.Outcome State Fault Refusal :=
  .next (runEntry s q.toNat 0x22 (fun s => runRawSend s q.toNat))

end Sys2Proof.Machine
end

