-- ==== Sys2Proof/Machine/Sync.lean ====
section
/-! DEFINITION. The commands of the sync memory (chapter 4): deadlines, INIT, shares, doorbells,
reclaim, a failed word, and lulls. -/

namespace Sys2Proof.Machine

/-! ### Deadlines -/

/-- The deadline of a pending wait (R82, R111). -/
def deadlineOf (s : State) (r : WaitRef) : Option Nat :=
  match r with
  | .queue q => (headDeadline s q.toNat).map (·.2)
  | .held qp msn => (pendingWait s (.held qp.toNat msn.toNat)).bind (·.deadline)

/-- The tick of a wait's deadline comes and ends: the wait ends WAIT_TIMEOUT unless it is satisfied in that tick
(R14, R82, R107 step 3). -/
def expireWait (s : State) (r : WaitRef) : State :=
  match deadlineOf s r with
  | some t => settle (endTick (s.arriveAt t))
  | none => s

/-- WAIT_DEADLINE (R82). -/
def execWaitDeadline (wait : WaitRef) (s : State) : Host.Outcome State Fault Refusal := .next (expireWait s wait)

/-! ### Granules -/

/-- A plan in force claims the granule (R100). -/
def planClaimsGran (s : State) (g : Nat) : Bool := covers (activeClaims s ++ s.plans.oldClaims) 0x04 g

/-- SYNC_GCMD (R100, R118): INIT of the granule in SYNC_GSEL. -/
def granCommand (s : State) (i : Nat) (v : Word) : State :=
  let g := (s.inst i).win.gSel
  if !mayName s i g then s
  else
    let s := s.modWin i (fun w => { w with gDone := false })
    if fld v 7 0 ≠ 1 then s
    else if !ownsGran s i g || planClaimsGran s g || !(granWaits s g).isEmpty
      then s.modWin i (fun w => { w with gDone := true, gCode := St.malformed })
      else (initGranule s g (bit v 8)).modWin i (fun w => { w with gDone := true, gCode := St.ok })

/-- SYNC_INIT (R100). -/
def execSyncInit (link : BitVec 2) (inst : BitVec 7) (value : Word) (s : State) : Host.Outcome State Fault Refusal :=
  .next (ctlWrite s link.toNat (winAddr inst.toNat 0x2010) [(63, 9)] value (fun s => granCommand s inst.toNat value))

/-- Write one half of a granule's share (R99): the owner's write, in force from the next tick. -/
def shareWrite (s : State) (i : Nat) (upper : Bool) (v : Word) : State :=
  let g := (s.inst i).win.gSel
  if !ownsGran s i g then s
  else
    let now := shareOf s g
    let last := match (s.granule g).shareNext with | some x => x.1 | none => now
    let new : BitVec 128 := if upper then v ++ last.extractLsb' 0 64 else last.extractLsb' 64 64 ++ v
    s.modGranule g (fun x => { x with share := now, shareNext := some (new, s.now) })

/-- SYNC_GSHARE_WRITE (R99). -/
def execSyncGshareWrite (link : BitVec 2) (inst : BitVec 7) (upper : Bool) (value : Word) (s : State) :
    Host.Outcome State Fault Refusal :=
  .next (ctlWrite s link.toNat (winAddr inst.toNat (if upper then 0x2028 else 0x2020)) [] value
    (fun s => shareWrite s inst.toNat upper value))

/-! ### Companion doorbells -/

/-- Count an ignored sync doorbell (R112). -/
def dbIgnored (s : State) (i : Nat) : State :=
  s.modWin i (fun w => { w with dbIgnored := wrap 16 (w.dbIgnored + 1) })

/-- Apply a sync doorbell (R112). -/
def syncDoorbell (s : State) (i : Nat) (v : Word) : State :=
  let sem := bit v 63
  let id := fld v 52 32
  let n := fld v 31 0
  if (s.granule (granOf id)).orphan || !namesObject s i sem id then dbIgnored s i
  else if !sem then addCounter s id n doorbellRank
  else match addSem s id n doorbellRank with
  | (s, some _) => s
  | (s, none) => s.modWin i (fun w => { w with dbOverflow := wrap 16 (w.dbOverflow + 1) })

/-- A sync doorbell arrives: with reserved bits it is ignored whole and counted twice (R112, R297). -/
def syncDoorbellAt (s : State) (l i : Nat) (v : Word) : State :=
  let a := winAddr i syncDbOff
  let s' := ctlDoorbell s l a true [(62, 53)] v (fun s => settle (syncDoorbell s i v))
  if arrives s l && serves s l a && (v &&& maskOf [(62, 53)]) != 0 then dbIgnored s' i else s'

/-- SYNC_DOORBELL (R112). -/
def execSyncDoorbell (link : BitVec 2) (inst : BitVec 7) (value : Word) (s : State) : Host.Outcome State Fault Refusal :=
  .next (syncDoorbellAt s link.toNat inst.toNat value)

/-! ### Reclaim and failure -/

/-- Claims without granule `g`: a claim of several keeps the others one by one. -/
def withoutGran (g : Nat) (cs : List Claim) : List Claim :=
  cs.flatMap (fun c => if c.kind == 0x04 && within g 1 c.first c.count
    then (rangeFrom c.first c.count).filterMap (fun n => if n = g then none else some { c with first := n, count := 1 })
    else [c])

/-- SYNC_RECLAIM (R115): an orphaned granule returns to the pool, or to the active plan's claim in the
mode of its ATTR, nameable while an instance of the claim's OWNER number is ACTIVE. -/
def reclaim (s : State) (g : Nat) : State × Nat :=
  if g ≥ 128 ∨ !(s.granule g).orphan then (s, St.malformed)
  else
    let s := (s.modInsts (fun t => t.mapCells (fun _ x => { x with res := withoutGran g x.res }))).modPlans
      (fun x => { x with oldClaims := withoutGran g x.oldClaims })
    match (activeClaims s).find? (fun c => c.kind == 0x04 && within g 1 c.first c.count) with
    | some c => ((initGranule s g (c.attr % 2 == 1)).modGranule g (fun x => { x with
        orphan := false, unnamed := c.owner != 0xFF && (s.inst c.owner).st != .active }), St.ok)
    | none => (poolGranule s g, St.ok)

/-- An uncorrectable sync-memory word orphans its granule and is logged (R116, R323). The DETAIL of an
entry for a word outside HBM is not stated. -/
def granuleFailed (s : State) (g : Nat) : State :=
  let d := drawFree s
  let who := match granOwner s g with | some i => i | none => 0xFF
  settle (orphanGranule (raiseFault d.2 0x03 0x09 96 who (0x100 + g) (BitVec.ofNat 32 d.1.toNat)) g)

/-- SYNC_MEMORY_UE (R116). -/
def execSyncMemoryUe (granule : BitVec 7) (s : State) : Host.Outcome State Fault Refusal :=
  .next (granuleFailed s granule.toNat)

/-! ### Lulls -/

/-- A head wait that has been unsatisfied for the lull threshold becomes a lull (R117). -/
def lullDue (s : State) (q : Nat) : State :=
  match s.queues.find q with
  | none => s
  | some w => match w.waitSince with
    | some t => if w.st == .waiting && (w.reason == .sync || w.reason == .time) && !w.lull
        then beginLull (s.arriveAt (t + lullNs s)) q else s
    | none => s

/-- LULL_BEGIN (R117). -/
def execLullBegin (q : BitVec 19) (s : State) : Host.Outcome State Fault Refusal := .next (lullDue s q.toNat)

end Sys2Proof.Machine
end

