-- ==== Sys2Proof/Machine/Instances.lean ====
section
/-! DEFINITION. The commands of instances (chapter 11): creation, calm, reset and removal, the drain
bound and the zeroing, MBX_INFO, and the pool commands that follow the order of R304. -/

namespace Sys2Proof.Machine

/-! ### The mailbox's own command -/

/-- The commands of R305: code, manager doors only, versions. -/
def mailTable : List (Nat × Bool × List Nat) :=
  [(0x0001, false, [1]), (0x0010, true, [1]), (0x0011, true, [1]), (0x0012, true, [1]), (0x0013, true, [1]),
   (0x0020, true, [1]), (0x0021, true, [1]), (0x0022, true, [1]), (0x0023, true, [1]), (0x0030, true, [1]),
   (0x0040, false, [1, 2]), (0x0041, false, [1]), (0x0050, true, [1]), (0x0060, true, [1]), (0x0061, true, [1]),
   (0x0062, false, [1]), (0x0063, false, [1])]

/-- Word 1 of MBX_INFO's answer (R306): interface 1.0, and the highest and lowest version of a command
accepted at the door. -/
def mailInfo (d : Door) (cmd : Nat) : Word :=
  match mailTable.find? (fun e => e.1 == cmd && (!e.2.1 || doorInst d == 0)) with
  | some e => reg [(47, 32, 0x0100), (15, 8, e.2.2.foldl max 0), (7, 0, e.2.2.headD 0)]
  | none => reg [(47, 32, 0x0100)]

/-- MBX_INFO (R306). -/
def execMbxInfo (door : Door) (link : BitVec 2) (s : State) : Host.Outcome State Fault Refusal :=
  .next (mailRow s door link.toNat 0x0001 (fun s =>
    mailGate s door false [1] (fun s => answer s door St.ok [mailInfo door (reqFld s door 8 2)])))

/-! ### Pool commands -/

/-- Commands that take or release pool resources run one at a time in the order of their GO (R304): a load
that was asked for first ends first. -/
def poolTurn (s : State) : State := endLoad s

/-- SYNC_RECLAIM (R115). -/
def execSyncReclaim (door : Door) (link : BitVec 2) (s : State) : Host.Outcome State Fault Refusal :=
  .next (mailRow s door link.toNat 0x0030 (fun s =>
    mailGate s door true [1] (fun s => answerSt door (reclaim (poolTurn s) (reqFld s door 8 1)))))

/-! ### Creation (R298, R299) -/

/-- Largest FIRST + COUNT − 1 of a kind that INST_CREATE may name (R298). -/
def resourceTop (s : State) (kind : Nat) : Option Nat :=
  match kind with
  | 0x01 => some 524287
  | 0x02 => some 131071
  | 0x03 => some 1048575
  | 0x04 => some 127
  | 0x06 => some (hbmAvail s.hbm - 1)
  | 0x0C => some 2047
  | 0x0D => some 3
  | 0x0E => some 15
  | _ => none

/-- Step 2 on an entry by itself (R299). -/
def resourceOk (s : State) (i : Nat) (c : Claim) : Bool :=
  match resourceTop s c.kind with
  | none => false
  | some top => decide (1 ≤ c.count) && decide (c.first + c.count - 1 ≤ top) && c.owner == i && c.flags == 0
      && c.attr == 0 && c.zero == 0

/-- Index of the first entry that breaks step 2: by itself, or by overlapping one before it. -/
def badEntry (s : State) (i : Nat) (before : List Claim) (n : Nat) : List Claim → Option Nat
  | [] => none
  | c :: cs => if !resourceOk s i c || before.any (claimsMeet c) then some n else badEntry s i (c :: before) (n + 1) cs

/-- Another instance holds part of an entry that is held alone, or a granule of it is orphaned (R299
step 4). -/
def entryTaken (s : State) (i : Nat) (c : Claim) : Bool :=
  (c.kind != 0x0D && s.insts.cells.any (fun x => x.1 != i && x.2.res.any (claimsMeet c)))
    || (c.kind == 0x04 && (rangeFrom c.first c.count).any (fun g => (s.granule g).orphan))

/-- Claims of the plans that an entry may not overlap: of the active and the next plan, and of a plan just
replaced until its drain bound (R43, R45). -/
def planClaims (s : State) : List Claim := activeClaims s ++ nextClaims s ++ s.plans.oldClaims

/-- The instance number, entries and drain bound of an INST_CREATE (R306). -/
def createEntries (s : State) (d : Door) : List Claim :=
  (List.range (reqFld s d 9 1)).map (fun k => claimOf (slice (reqBytes s d) (16 + 16 * k) 16))

/-- The first check of R299 that fails: step, entry, status. -/
def createFail (s : State) (d : Door) : Option (Nat × Nat × Nat) :=
  let i := reqFld s d 8 1
  let n := reqFld s d 9 1
  let us := reqFld s d 12 4
  let es := createEntries s d
  if !(i == 0 || (decide (i < 128) && (s.inst i).st == .free)) || n = 0 || n > 30
      || !(us == 0 || (decide (1000 ≤ us) && decide (us ≤ 1000000))) || reqFld s d 10 2 ≠ 0
    then some (1, 0, St.malformed)
  else match badEntry s i [] 0 es with
  | some k => some (2, k, St.malformed)
  | none =>
    if i ≠ 0 ∧ !es.any (fun c => c.kind == 0x0D) then some (2, 0, St.malformed)
    else match es.findIdx? (fun c => (planClaims s).any (claimsMeet c)) with
      | some k => some (3, k, St.planMismatch)
      | none => (es.findIdx? (entryTaken s i)).map (fun k => (4, k, St.localBounds))

/-- The resources are taken: granules in counter mode and zero (R100), and for an instance other than 0 the
state ACTIVE with no segment VALID (R299, R300). -/
def createInst (s : State) (d : Door) : State :=
  let i := reqFld s d 8 1
  let us := reqFld s d 12 4
  let es := createEntries s d
  let s := countGranules s
  let s := forEach ((es.filter (fun c => c.kind == 0x04)).flatMap (fun c => rangeFrom c.first c.count)) s poolGranule
  let s := forEach ((List.range 128).filter (fun g => granOwner s g == some i)) s (fun s g =>
    s.modGranule g (fun x => { x with unnamed := false }))
  if i = 0 then s.modInst 0 (fun x => { x with res := x.res ++ es })
  else (newGeneration s i).modInst i (fun x => { x with
    st := .active, res := es, drainUs := if us = 0 then 10000 else us, calmAt := 0, removing := false
    win := { x.win with segs := Tbl.empty } })

/-- INST_CREATE (R299). -/
def runCreate (s : State) (d : Door) : State :=
  let s := poolTurn s
  match createFail s d with
  | some (step, k, st) => answer s d st [reg [(15, 8, step), (7, 0, k)]]
  | none => answer (createInst s d) d St.ok [0]

/-- INST_CREATE (R299). -/
def execInstCreate (door : Door) (link : BitVec 2) (s : State) : Host.Outcome State Fault Refusal :=
  .next (mailRow s door link.toNat 0x0010 (fun s => mailGate s door true [1] (fun s => runCreate s door)))

/-! ### Calm, reset, removal (R300 to R302) -/

/-- A command that names an instance other than 0. -/
def onInst (s : State) (i : Nat) (f : InstState → State × Nat) : State × Nat :=
  if i = 0 ∨ i ≥ 128 then (s, St.malformed) else f (s.inst i).st

/-- INST_CALM: an instance that is CALMING or CALM already is answered OK (R300). -/
def calmInst (s : State) (i : Nat) : State × Nat :=
  onInst s i (fun st => match st with
    | .active => (settleSteps (enterCalming s i false), St.ok)
    | .calming | .calm => (s, St.ok)
    | .free | .resetting => (s, St.malformed))

/-- INST_CALM (R301). -/
def execInstCalm (door : Door) (link : BitVec 2) (s : State) : Host.Outcome State Fault Refusal :=
  .next (mailRow s door link.toNat 0x0011 (fun s =>
    mailGate s door true [1] (fun s => answerSt door (calmInst s (reqFld s door 8 1)))))

/-- INST_RESET: a CALM instance is reset in the next tick (R300, R302). -/
def resetInst (s : State) (i : Nat) : State × Nat :=
  onInst s i (fun st => match st with
    | .calm => (if (s.inst i).removing then s else settleSteps (beginReset s i), St.ok)
    | .free | .active | .calming | .resetting => (s, St.malformed))

/-- INST_RESET (R302). -/
def execInstReset (door : Door) (link : BitVec 2) (s : State) : Host.Outcome State Fault Refusal :=
  .next (mailRow s door link.toNat 0x0012 (fun s =>
    mailGate s door true [1] (fun s => answerSt door (resetInst (poolTurn s) (reqFld s door 8 1)))))

/-- INST_REMOVE: as INST_CALM of an ACTIVE instance, and reset once CALM (R300). -/
def removeInst (s : State) (i : Nat) : State × Nat :=
  onInst s i (fun st => match st with
    | .active => (settleSteps (enterCalming s i true), St.ok)
    | .free | .calming | .calm | .resetting => (s, St.malformed))

/-- INST_REMOVE (R300). -/
def execInstRemove (door : Door) (link : BitVec 2) (s : State) : Host.Outcome State Fault Refusal :=
  .next (mailRow s door link.toNat 0x0013 (fun s =>
    mailGate s door true [1] (fun s => answerSt door (removeInst (poolTurn s) (reqFld s door 8 1)))))

/-- INST_DRAIN_BOUND (R301). -/
def execInstDrainBound (inst : BitVec 7) (s : State) : Host.Outcome State Fault Refusal :=
  .next (settleSteps (instDrained s inst.toNat))

/-- INST_ZEROING_COMPLETE (R302). -/
def execInstZeroingComplete (inst : BitVec 7) (s : State) : Host.Outcome State Fault Refusal :=
  .next (instZeroed s inst.toNat)

end Sys2Proof.Machine
end

