-- ==== Sys2Proof/Machine/Collectives.lean ====
section
/-! DEFINITION. The commands of collectives (chapter 6): a step's start and end, its pieces sent, arriving
and pressed, their acknowledgement and repeats, and the rate of flows (R140, R184). -/

namespace Sys2Proof.Machine

/-! ### A step begins -/

/-- Read the inputs of a step one after another; the first that fails ends it. -/
def readInputs (n : Nat) (d : Descriptor) (len : Nat) : List Xlat → State → State × Option (List (List Byte))
  | [], s => (s, some [])
  | x :: xs, s => match xlatRead s x 0 len with
    | (s, .failed st _, _) => (endStep s n st 0 d.self, none)
    | (s, .done, bs) => match readInputs n d len xs s with
      | (s, some more) => (s, some (bs :: more))
      | (s, none) => (s, none)

/-- The level-0 result of a unit: every input decoded and combined in order (R162, R165, R166). -/
def levelZero (d : Descriptor) (u : Nat) : List (List Byte) → List Num
  | [] => []
  | b :: bs =>
    let g := granD d
    let size := fmtBytes d.inFmt g
    let dec := fun (x : List Byte) => decodeUnit d.inFmt g (slice x (u * size) size)
    bs.foldl (fun a x => combineUnit d.op (d.mode.testBit 0) a (dec x)) (dec b)

/-- DST overlaps a range the step reads, and not as input 0 in place with elements of one size and HALF 0 (R177). -/
def dstUndefined (d : Descriptor) (half : Nat) (src : List Xlat) (dst : Option Xlat) : Bool :=
  match dst with
  | none => false
  | some y =>
    let inPlace := fun (x : Xlat) => half == 0 && fmtSize d.inFmt == fmtSize d.outFmt && x.seg == y.seg && x.addr == y.addr
    src.head?.any (fun x => sameMemory x y && !inPlace x) || (src.drop 1).any (fun x => sameMemory x y)

/-- The step's slot takes a run (R187): the algorithm is chosen (R168). -/
def openRun (s : State) (n q : Nat) (x : Started) (d : Descriptor) (src : List Xlat) (dst : Option Xlat) : State :=
  let e := x.entry
  let tree := e.half == 0 && decide (fmtBytes d.inFmt e.len ≤ d.treeMax)
  let r : Run := { q := q, seq := x.seq, step := e.step, elems := e.len, half := e.half, tree := tree
                   startAt := s.now, src := src, dst := dst, undefined := dstUndefined d e.half src dst, work := Tbl.empty, taken1 := Tbl.empty
                   taken2 := Tbl.empty, final := Tbl.empty }
  s.modSlot n (fun k => { k with
    cond := .running, cfg := s.coll.cfg, alg := tree, run := some r
    outs := k.outs.mapCells (fun _ o => { o with units := 0, ready := [] })
    ins := k.ins.mapCells (fun _ i => { i with units := 0, carry := [], base := i.consumed }) })

/-- Steps of R187 for HALF 0 and 1: read the inputs and combine them. -/
def beginReduce (s : State) (n : Nat) (d : Descriptor) (r : Run) : State :=
  let len := fmtBytes d.inFmt r.elems
  match readInputs n d len r.src s with
  | (s, none) => s
  | (s, some ins) =>
    let us := List.range (r.elems / granD d)
    let s := s.modRunOf n (fun r => { r with work := ⟨us.map (fun u => (u, levelZero d u ins))⟩ })
    let s := chargePiece (countOperands s d (d.inputs * r.elems)) n d
      ((3, len * d.inputs * pressWeight d) :: r.src.map (fun x => (memDomain x, len)))
    finishUnits s n d us

/-- For HALF 2: read this member's chunk, whose bits are final (R171). -/
def beginGather (s : State) (n : Nat) (d : Descriptor) (r : Run) : State :=
  let c := ringChunk d r.elems
  let len := fmtBytes d.outFmt c.2
  let g := granD d
  let size := fmtBytes d.outFmt g
  match readInputs n d len r.src s with
  | (s, some (bs :: _)) =>
    let fs := (List.range (c.2 / g)).map (fun i => (c.1 / g + i, slice bs (i * size) size))
    putFinals (chargePiece s n d (r.src.map (fun x => (memDomain x, len)))) n d fs
  | (s, _) => s

/-- COLL_STEP begins (R92, R168, R176, R187). On a slot in FAULT it ends FLUSHED and leaves the slot's counts and registers
as they are: the spec does not say whether it counts there (DESIGN CHOICE, log entry 127); while the device has
missed a front, or a link it needs is not UP, it waits (R52, R287). -/
def runCollStep (s : State) (q : Nat) (_ : WorkQueue) (x : Started) : State :=
  let n := x.entry.slot
  match (s.slot n).desc with
  | none => endEntry s q x.seq St.flushed 0 (selfDetail s n)
  | some d =>
    if (s.slot n).cond == .fault then endEntry s q x.seq St.flushed 0 (selfDetail s n)
    else if missedLike s || (s.slot n).run.isSome || x.xlats.any (fun y => xlatHeld s y && !xlatLost s y) then s
    else
      let ins := x.xlats.take (x.xlats.length - 1)
      let src := if x.entry.half = 2 then ins else ins.drop (ins.length - 1) ++ ins.take (ins.length - 1)
      let s := openRun (markRan s q x.seq) n q x d src x.xlats.getLast?
      let s := forEach streamKeys s (fun s k => rescan s n k)
      match (s.slot n).run with
      | none => s
      | some r => pump (if r.half = 2 then beginGather s n d r else beginReduce s n d r) n

/-- COLL_STEP (R92). -/
def execCollStep (q : BitVec 19) (s : State) : Host.Outcome State Fault Refusal :=
  .next (stepBoundary (runEntry s q.toNat 0x20 (fun s => runCollStep s q.toNat)))

/-! ### Receiving -/

/-- The slot whose descriptor in effect has a COLL_ID. -/
def slotOfColl (s : State) (id : Nat) : Option (Nat × Descriptor) :=
  s.coll.slots.keys.findSome? (fun n => match (s.slot n).desc with
    | some d => if d.collId = id then some (n, d) else none
    | none => none)

/-- Count a CSP packet dropped under R181. -/
def cspStale (s : State) : State := s.modColl (fun c => { c with staleDrop := wrap 16 (c.staleDrop + 1) })

/-- A CSP packet of a row's type arrives: a wrong CRC drops it; then it is matched with a descriptor and
its partition key checked (R181, R211). -/
def cspGate (s : State) (arr : Arrival) (p : CspPacket) (typ : Byte) (run : State → Nat → Descriptor → State) : State :=
  if !s.inService || p.typ != typ then s else
  let s := takeInbox s arr (.csp p)
  if !p.crcOk then s
  else match slotOfColl s p.collId.toNat with
    | none => cspStale s
    | some (n, d) =>
      if p.pkey.toNat == d.pkey && keyMember s arr.bank (arrSet arr) p.pkey.toNat then settleSteps (flushAcks (run s n d))
      else countDrop s (arrSet arr) .pkey

/-- The payload of a DATA lands in the staging area and in the piece now arriving (R179). -/
def landData (s : State) (n key : Nat) (d : Descriptor) (p : CspPacket) (have_ : StagedPiece) : State :=
  let at_ := stageAt d key ((s.slot n).ins.findD key default).arrived + p.offset.toNat
  (hbmStore s at_ p.payload).modIn n key (fun i => { i with partialPiece := { have_ with bytes := have_.bytes ++ p.payload } })

/-- The DATA continues the piece now arriving: stage its bytes, and the piece once it is whole. -/
def stageData (s : State) (n key : Nat) (d : Descriptor) (p : CspPacket) : State :=
  let i := (s.slot n).ins.findD key default
  let off := p.offset.toNat
  let have_ := if off = 0 then (⟨p.step.toNat, p.gather, []⟩ : StagedPiece) else i.partialPiece
  let len := off + p.payload.length
  match expected s n key with
  | some e =>
    if !pieceFits s n p.step.toNat len p.gather e || have_.step != p.step.toNat || have_.gather != p.gather
    then formatFault s n key
    else
      let s := landData s n key d p have_
      if len = e.2 then pieceArrived s n key else s
  | none =>
    if have_.step != p.step.toNat || have_.gather != p.gather || len > pieceBytes d then s
    else
      let s := landData s n key d p have_
      if len = pieceBytes d ∨ p.payload.length < 4096 then pieceArrived s n key else s

/-- A CSP DATA on a stream (R180, R181): a piece below the arrival count is answered with a fresh ACK, one
out of order is dropped, the next one is staged while landing space is free. -/
def takeCspData (s : State) (arr : Arrival) (p : CspPacket) (n : Nat) (d : Descriptor) : State :=
  match inKey d p.sender.toNat p.level.toNat (p.stream.toNat % 8) with
  | none => cspStale s
  | some key =>
    let i := (s.slot n).ins.findD key default
    let ahead_ := dmod 32 p.seq.toNat i.arrived
    let note := fun (s : State) => s.modIn n key (fun i => { i with ackTs := p.ts, ackArr := arr, ce := i.ce || arr.ce })
    if ahead_ ≥ 2 ^ 31 then oweAck (note s) n key
    else if ahead_ ≠ 0 ∨ p.payload.length ≠ p.len.toNat ∨ p.offset.toNat > i.partialPiece.bytes.length
      ∨ (p.offset.toNat ≠ 0 ∧ p.offset.toNat < i.partialPiece.bytes.length) ∨ d.stage ≤ i.staged.length then s
    else stageData (note s) n key d p

/-- CSP_DATA (R181). -/
def execCspData (arr : Arrival) (pkt : CspPacket) (s : State) : Host.Outcome State Fault Refusal :=
  .next (cspGate s arr pkt 0x41 (fun s n d => takeCspData s arr pkt n d))

/-- Rate control of a stream (R184). -/
def OutStream.rateOf (o : OutStream) : Rate := ⟨o.rate, o.alpha, o.rtt, o.cnpSeen, o.cc0, o.cc1⟩
def OutStream.setRate (o : OutStream) (r : Rate) : OutStream :=
  { o with rate := r.rate, alpha := r.alpha, rtt := r.rtt, cnpSeen := r.cnpSeen, cc0 := r.cc0, cc1 := r.cc1 }

/-- The port of an Ethernet path of a stream (R184, R242). -/
def ratedPort (s : State) (n st : Nat) : Option Nat := (pathFor s n st).map (·.port)

/-- Line rate of a stream's port, 1/16 Gb/s (R138). -/
def streamLine (s : State) (p : Nat) : Nat := ethRate (s.ethPort p) * 128

/-- How many more pieces a CSP ACK says have arrived and been consumed (R180, R183). -/
def ackMoves (o : OutStream) (p : CspPacket) : Nat × Nat :=
  let a := dmod 32 p.seq.toNat o.arrivedAck
  let c := dmod 32 p.offset.toNat o.consumedAck
  (if a < 2 ^ 31 ∧ a ≤ dmod 64 o.sent o.arrivedAck then a else 0,
    if c < 2 ^ 31 ∧ c ≤ dmod 64 o.sent o.consumedAck then c else 0)

/-- An ACK moves a stream: what has arrived is not repeated, and what was consumed gives credit back (R180, R183). -/
def moveStream (s : State) (n key : Nat) (d : Descriptor) (m : Nat × Nat) : State :=
  let s := if m.2 = 0 then s else addCounter s (creditId d (key / 2)) m.2 doorbellRank
  s.modOut n key (fun o =>
    let arrived := wrap 64 (o.arrivedAck + m.1)
    { o with
      arrivedAck := arrived, consumedAck := wrap 64 (o.consumedAck + m.2)
      pieces := o.pieces.filter (fun x => !before 64 x.count arrived) })

/-- What an ACK says to the rate of a stream on an Ethernet path: a round-trip time, and a CNP where it echoes CE (R184). -/
def rateAck (s : State) (n key : Nat) (p : CspPacket) : State :=
  match ratedPort s n (key / 2) with
  | none => s
  | some _ => s.modOut n key (fun o =>
      let o := { o with rtt := nextRtt s.now o.rtt p.ts }
      if p.ceEcho then o.setRate (onCnp o.rateOf) else o)

/-- A CSP ACK (R180, R183, R184): arrivals end repeats, consumption gives credit, CE_ECHO is a CNP. -/
def takeCspAck (s : State) (p : CspPacket) (n : Nat) (d : Descriptor) : State :=
  match outKey d p.sender.toNat p.level.toNat (p.stream.toNat % 8) with
  | none => cspStale s
  | some key => rateAck (moveStream s n key d (ackMoves ((s.slot n).outs.findD key default) p)) n key p

/-- CSP_ACK (R181). -/
def execCspAck (arr : Arrival) (pkt : CspPacket) (s : State) : Host.Outcome State Fault Refusal :=
  .next (cspGate s arr pkt 0x42 (fun s n d => takeCspAck s pkt n d))

/-! ### Sending -/

/-- Put one DATA on its way (R181, R182, R242). -/
def sendData (s : State) (n key : Nat) (d : Descriptor) (p : CspPacket) : State :=
  let st := key / 2
  let m := (outPeer d key).getD d.self
  let dst := d.members.getD m 0
  match pathFor s n st with
  | some e => ethCsp s n st e.port e.vid e.v6 e.dscp e.dst m d.owner false p
  | none => match (if st ≤ 1 then streamCircuit s n st else none) with
    | some c => injectCircuit s c.1 c.2 dst 2 (cspLen p) p.pkey (.csp p)
    | none => inject s dst 2 5 (cspLen p) p.pkey (.csp p)

/-- The DATA packets of a piece: at most 4,096 bytes each (R181), cut at 4,096 (log entry 128). -/
def dataPackets (s : State) (d : Descriptor) (key : Nat) (x : SentPiece) : List CspPacket :=
  (List.range (ceilDiv x.bytes.length 4096)).map (fun i =>
    let b := slice x.bytes (4096 * i) 4096
    { cspBase s d 0x41 (streamLevel (key / 2)) (key / 2) with
      gather := x.gather, step := BitVec.ofNat 32 x.step, seq := BitVec.ofNat 32 x.count
      offset := BitVec.ofNat 32 (4096 * i), len := BitVec.ofNat 16 b.length, payload := b })

/-- Send a piece, for the first time or again (R183). -/
def sendPiece (s : State) (n key : Nat) (d : Descriptor) (x : SentPiece) : State :=
  let first := x.sends == 0
  let ps := dataPackets s d key x
  let bytes := ps.foldl (fun a p => a + cspLen p) 0
  let s := if first then chargePiece s n d [(1, bytes)] else chargeShared s [(1, bytes)]
  let s := s.modColl (fun c => if first then { c with piecesSent := wrap 32 (c.piecesSent + 1) }
                               else { c with resends := wrap 32 (c.resends + 1) })
  let s := s.modOut n key (fun o => { o with
    readyAt := if (ratedPort s n (key / 2)).isSome then max o.readyAt s.now + sendTime o.rate bytes else o.readyAt
    pieces := o.pieces.map (fun y => if y.count = x.count then { y with sends := y.sends + 1, lastAt := s.now } else y) })
  forEach ps s (fun s p => sendData s n key d p)

/-- A stream starts at the line rate of its port (R138, R184). -/
def startRate (s : State) (n key : Nat) : State :=
  match ratedPort s n (key / 2) with
  | none => s
  | some p => s.modOut n key (fun o => if o.rate = 0 then { o with
      rate := streamLine s p, periodAt := s.now + ccPeriod s, cc0 := s.tp.cc0, cc1 := s.tp.cc1 } else o)

/-- The first of some keys whose next unsent piece has credit (R180), with that piece. -/
def sendable (s : State) (n : Nat) (d : Descriptor) (keys : List Nat) : Option (Nat × SentPiece) :=
  keys.findSome? (fun key =>
    let o := (s.slot n).outs.findD key default
    match o.pieces.find? (fun x => x.sends == 0) with
    | some x => if dmod 64 x.count o.consumedAck < d.stage then some (key, x) else none
    | none => none)

/-- PIECE_SEND: the next piece of a stream that has landing space goes (R180), unless the slot lacks energy
credit (R316) or the device has missed a front (R52). -/
def pieceSend (s : State) (n st : Nat) : State :=
  match (s.slot n).desc with
  | none => s
  | some d =>
    if !s.inService || missedLike s || !mayCharge s (bucketOf s 2 n) then s
    else match sendable s n d [2 * st, 2 * st + 1] with
      | none => s
      | some (key, x) =>
        let s := startRate s n key
        let s := if (ratedPort s n st).isSome then s.arriveAt ((s.slot n).outs.findD key default).readyAt else s
        flushAcks (sendPiece s n key d x)

/-- PIECE_SEND (R180). -/
def execPieceSend (slot : BitVec 6) (st : BitVec 3) (s : State) : Host.Outcome State Fault Refusal :=
  .next (pieceSend s slot.toNat st.toNat)

/-! ### Repeats -/

/-- Start of the first sheet of a circuit on a port after time `t`, looking at `k` sheets (R183). -/
def nextSheet (s : State) (p c : Nat) : Nat → Nat → Option Nat
  | 0, _ => none
  | k + 1, t =>
    match portSheet s p t with
    | none => none
    | some x => match portSheet s p x.stop with
      | none => none
      | some y => if sheetKind y.entry = 1 ∧ sheetCircuit y.entry = c then some y.start else nextSheet s p c k x.stop

/-- COLL_CFG.RTO and RETRIES as they stood when the slot's step started (R189). -/
def collRto (s : State) (n : Nat) : Nat := max 1 (fld (s.slot n).cfg 15 0) * 1000
def collRetries (s : State) (n : Nat) : Nat := max 1 (fld (s.slot n).cfg 31 24)

/-- When a piece is sent again (R183). -/
def pieceDue (s : State) (n key : Nat) (x : SentPiece) : Nat :=
  match (if key / 2 ≤ 1 then streamCircuit s n (key / 2) else none) with
  | some c => (nextSheet s c.1 c.2 (2 * ((schedOf s c.1).elim 0 (·.sheets.length)) + 1) x.lastAt).getD (x.lastAt + collRto s n)
  | none => x.lastAt + collRto s n

/-- Pieces of a stream sent and not acknowledged as arrived: key, piece, and when it is due again. -/
def outstanding (s : State) (n st : Nat) : List (Nat × SentPiece × Nat) :=
  [2 * st, 2 * st + 1].flatMap (fun key =>
    (((s.slot n).outs.findD key default).pieces.filter (fun x => x.sends != 0)).map (fun x => (key, x, pieceDue s n key x)))

/-- A piece sent RETRIES + 1 times without an arrival ends the step (R183); with no step running its stream
gives it up. -/
def exhaustPiece (s : State) (n key : Nat) (d : Descriptor) : State :=
  if (s.slot n).run.isSome
  then endStep s n St.retryExhausted (streamLevel (key / 2)) ((outPeer d key).getD d.self)
  else s.modOut n key (fun o => { o with pieces := [] })

/-- PIECE_RESEND_TIMER: the pieces of a stream whose time has come are sent again (R183). -/
def pieceResend (s : State) (n st : Nat) : State :=
  match (s.slot n).desc, ((outstanding s n st).map (·.2.2)).min? with
  | some d, some t =>
    if !s.inService || missedLike s then s else
    let s := s.arriveAt t
    forEach ((outstanding s n st).filter (fun x => decide (x.2.2 ≤ s.now))) s (fun s x =>
      if ((s.slot n).outs.findD x.1 default).pieces.contains x.2.1
      then (if x.2.1.sends ≥ collRetries s n + 1 then exhaustPiece s n x.1 d else sendPiece s n x.1 d x.2.1)
      else s)
  | _, _ => s

/-- PIECE_RESEND_TIMER (R183). -/
def execPieceResendTimer (slot : BitVec 6) (st : BitVec 3) (s : State) : Host.Outcome State Fault Refusal :=
  .next (settleSteps (pieceResend s slot.toNat st.toNat))

/-! ### Pressing -/

/-- The whole units in some bytes of a stream from its `i`-th unit on: transfer, unit, bytes; and the bytes
left over. -/
def unitsIn (d : Descriptor) (level : Nat) (xs : List Transfer) : Nat → Nat → List Byte →
    List (Transfer × Nat × List Byte) × List Byte
  | 0, _, bs => ([], bs)
  | k + 1, i, bs =>
    match unitAt (granD d) xs i with
    | none => ([], bs)
    | some (x, u, _) =>
      let size := fmtBytes (wireFmt d level x.gather) (granD d)
      if bs.length < size then ([], bs)
      else
        let r := unitsIn d level xs k (i + 1) (bs.drop size)
        ((x, u, bs.take size) :: r.1, r.2)

/-- Combine an arrived partial with what the member has of a unit (R162, R165). -/
def pressUnit (d : Descriptor) (level : Nat) (r : Run) (u : Nat) (bs : List Byte) : Run :=
  let got := decodeUnit (wireFmt d level false) (granD d) bs
  let r := { r with work := r.work.put u (combineUnit d.op (d.mode.testBit 0) (r.work.findD u []) got) }
  if level = 1 then { r with taken1 := r.taken1.modifyD u 0 (· + 1) } else { r with taken2 := r.taken2.modifyD u 0 (· + 1) }

/-- Consume the staged piece of a stream: its units combined, or final bits written (R172, R180). -/
def consumePiece (s : State) (n key : Nat) (d : Descriptor) (x : StagedPiece)
    (us : List (Transfer × Nat × List Byte)) (left : List Byte) : State :=
  let level := streamLevel (key / 2)
  let red := us.filter (fun u => !u.1.gather)
  let fin := us.filter (fun u => u.1.gather)
  let fresh := match (s.slot n).run with
    | none => 0
    | some r => (red.filter (fun u => (if level = 1 then r.taken1 else r.taken2).findD u.2.1 0 == 0)).length
  let s := countOperands s d ((red.length + fresh) * granD d)
  let s := chargePiece s n d [(0, x.bytes.length), (3, if red.isEmpty then 0 else x.bytes.length * pressWeight d)]
  let s := s.modIn n key (fun i => { i with
    consumed := wrap 64 (i.consumed + 1), staged := i.staged.drop 1, carry := left, units := i.units + us.length })
  let s := s.modRunOf n (fun r => red.foldl (fun r u => pressUnit d level r u.2.1 u.2.2) r)
  let s := putFinals s n d (fin.map (fun u => (u.2.1, u.2.2)))
  let s := finishUnits s n d (red.map (fun u => u.2.1))
  pump (oweAck s n key) n

/-- A piece at the head of a stream can be pressed now, or ends the step because it is not the piece the
step expects (R181), or because a word of it in the staging area is uncorrectable (R187, R252). -/
def tryConsume (s : State) (n key : Nat) (d : Descriptor) (r : Run) : Option State :=
  let i := (s.slot n).ins.findD key default
  let level := streamLevel (key / 2)
  match i.staged with
  | [] => none
  | x :: _ =>
    match pieceAt d level (inList d r key) (dmod 64 i.consumed i.base) with
    | none => none
    | some e =>
      if x.step ≠ r.step ∨ x.gather ≠ e.1 ∨ x.bytes.length ≠ e.2 then some (formatFault s n key)
      else
        let us := unitsIn d level (inList d r key) (x.bytes.length + 1) i.units (i.carry ++ x.bytes)
        if us.1.all (fun u => takeReady d r key u.1 u.2.1)
        then some (match hbmRead s (stageAt d key i.consumed) x.bytes.length with
          | (s, .failed st _, _) => endStep s n st 0 d.self
          | (s, .done, _) => consumePiece s n key d x us.1 us.2)
        else none

/-- PIECE_CONSUME: a press takes the next piece of a stream (R180), while the slot has energy credit (R316)
and the destination can be written (R287). -/
def pieceConsume (s : State) (n st : Nat) : State :=
  match (s.slot n).desc, (s.slot n).run with
  | some d, some r =>
    if !s.inService || missedLike s || !mayCharge s (bucketOf s 2 n)
        || (match r.dst with | some x => xlatHeld s x && !xlatLost s x | none => false) then s
    else match [2 * st, 2 * st + 1].findSome? (fun key => tryConsume s n key d r) with
      | some s => flushAcks s
      | none => s
  | _, _ => s

/-- PIECE_CONSUME (R180). -/
def execPieceConsume (slot : BitVec 6) (st : BitVec 3) (s : State) : Host.Outcome State Fault Refusal :=
  .next (settleSteps (pieceConsume s slot.toNat st.toNat))

/-! ### A step ends -/

/-- Level and member a step waits for: the first incoming stream that owes it pieces, or the first outgoing
one with a piece not acknowledged (R188). -/
def missingPeer (s : State) (n : Nat) (d : Descriptor) (r : Run) : Nat × Nat :=
  let g := granD d
  match streamKeys.find? (fun k => ((s.slot n).ins.findD k default).units < unitCount g (inList d r k)) with
  | some k => (streamLevel (k / 2), (inPeer d k).getD d.self)
  | none => match streamKeys.find? (fun k => !((s.slot n).outs.findD k default).pieces.isEmpty) with
    | some k => (streamLevel (k / 2), (outPeer d k).getD d.self)
    | none => (0, d.self)

/-- A step that has run for STEP_LIMIT ends with WAIT_TIMEOUT (R185). -/
def stepLimit (s : State) (n : Nat) : State :=
  match (s.slot n).desc, (s.slot n).run with
  | some d, some r =>
    if d.stepLimit = 0 then s
    else
      let w := missingPeer s n d r
      endStep (s.arriveAt (r.startAt + d.stepLimit * 1000)) n St.waitTimeout w.1 w.2
  | _, _ => s

/-- STEP_LIMIT_EXPIRY (R185). -/
def execStepLimitExpiry (slot : BitVec 6) (s : State) : Host.Outcome State Fault Refusal :=
  .next (settleSteps (stepLimit s slot.toNat))

/-- Every element of DST is written, and every residual the step changes (R178). -/
def stepWhole (s : State) (n : Nat) (d : Descriptor) (r : Run) : Bool :=
  let g := granD d
  let c := ringChunk d r.elems
  let us := if r.half = 1 then rangeFrom (c.1 / g) (c.2 / g) else List.range (r.elems / g)
  us.all (fun u => (r.final.find u).isSome)
    && streamKeys.all (fun k => decide (reduceUnits g (outList d r k) ≤ ((s.slot n).outs.findD k default).units))

/-- A step completes at this member (R178, R187); RESULT is STEP (R92). -/
def completeStep (s : State) (n : Nat) : State :=
  match (s.slot n).desc, (s.slot n).run with
  | some d, some r =>
    if missedLike s || !stepWhole s n d r then s
    else
      let s := s.modSlot n (fun x => { x with
        cond := .idle, run := none, nextStep := wrap 32 (x.nextStep + 1), stepsOk := wrap 32 (x.stepsOk + 1) })
      settleSlot (endEntry s r.q r.seq St.ok (BitVec.ofNat 64 r.step) 0) n
  | _, _ => s

/-- COLL_STEP_COMPLETE (R178). -/
def execCollStepComplete (slot : BitVec 6) (s : State) : Host.Outcome State Fault Refusal :=
  .next (settleSteps (flushAcks (completeStep s slot.toNat)))

/-! ### Rate periods -/

/-- The end of a rate period of a flow (R140, R184): nothing for a flow that a circuit carries. -/
def rateFlow (s : State) : FlowRef → State
  | .qp n =>
    let q := n.toNat
    let k := s.qp q
    if !(k.st == .opened || k.st == .draining) || (k.ident.path = 0 && (qpCircuit s q).isSome) then s
    else
      let s := s.arriveAt k.periodAt
      s.modQp q (fun k => { k.setRate (onPeriod s (lineRate s k.ident) k.rateOf) with periodAt := s.now + ccPeriod s })
  | .stream slot st =>
    let n := slot.toNat
    match ratedPort s n st.toNat with
    | none => s
    | some p => forEach ([2 * st.toNat, 2 * st.toNat + 1].filter (fun k => ((s.slot n).outs.findD k default).rate != 0)) s
        (fun s key =>
          let s := s.arriveAt ((s.slot n).outs.findD key default).periodAt
          s.modOut n key (fun o => { o.setRate (onPeriod s (streamLine s p) o.rateOf) with periodAt := s.now + ccPeriod s }))

/-- RATE_PERIOD (R140). -/
def execRatePeriod (flow : FlowRef) (s : State) : Host.Outcome State Fault Refusal := .next (rateFlow s flow)

end Sys2Proof.Machine
end

