-- ==== Sys2Proof/Machine/Responder.lean ====
section
/-! DEFINITION. The responder (chapter 5): the checks of R127, at-most-once application (R129, R130),
remote synchronization (R109 to R111, R131), acknowledgement (R128), and the fetch of a context (R152). -/

namespace Sys2Proof.Machine

/-! ### Targets (R127 steps 8 to 10, R261, R266) -/

/-- What a request acts on. -/
inductive Target where
  /-- A range of a segment, or of a generation a HOLDER keeps. -/
  | range (x : Xlat)
  /-- A WRITE into generation `sel` of a HOLDER's region, or its record (`sel = 2`). -/
  | holder (region sel : Nat) (x : Option Xlat)
  | object
  | refused (status : Nat)
  deriving DecidableEq, Repr, Inhabited

/-- REASON of a refused remote range, or the range (R261). -/
def remoteRange (s : State) (inst : Nat) (wr : Bool) (raddr : Word) (rkey len : Nat) : Except Nat Xlat :=
  let n := fld raddr 63 60
  let o := fld raddr 59 0
  let g := s.seg inst n
  if !((s.inst inst).st == .active || (s.inst inst).st == .calming) then .error 7
  else if !g.valid then .error 1
  else if rkey ≠ g.key then .error 8
  else if !(if wr then g.rw else g.rr) then .error 2
  else if o + len > 2 ^ 60 then .error 4
  else if o + len > g.len * gran then .error 3
  else .ok ⟨inst, n, g.board, g.link, g.base + o, len, (s.link g.link).epoch⟩

/-- The HOLDER region whose couch QP this is (R266). -/
def holderOf (s : State) (q : Nat) : Option (Nat × Couch) :=
  s.couch.cells.find? (fun c => c.2.ent.role == 1 && c.2.ent.qp == q && c.2.inEffect)

/-- The range of a HOLDER that a request names (R266). -/
def holderRange (r : Nat) (c : Couch) (wr : Bool) (raddr : Word) (rkey len : Nat) : Target :=
  let sel := fld raddr 63 60
  let o := fld raddr 59 0
  if rkey ≠ c.ent.key then .refused St.remoteAccess
  else if sel ≤ 1 then
    if o + len > c.ent.length * gran || (wr && c.validGen == some sel) then .refused St.remoteAccess
    else .holder r sel (some (devRange (genBase c.ent sel + o) len))
  else if sel = 2 ∧ o = 0 ∧ len = 16 then .holder r 2 none
  else .refused St.remoteAccess

/-- The check of a remote object (R99, R109): 0 when it may be used. -/
def objectStatus (s : State) (i : Nat) (sem : Bool) (id : Nat) : Nat :=
  if objectFails7 s i sem id then St.remoteAccess
  else if (s.granule (granOf id)).orphan then St.ownerLost else St.ok

/-- Steps 8 to 10 of R127 for the first packet of a message; a refusal of a range is counted (R261). -/
def checkTarget (s : State) (arr : Arrival) (q : Nat) (p : ZtpPacket) : State × Target :=
  let k := s.qp q
  let i := k.ident.owner
  let wr := p.typ == 0x01
  if !pkeyOk s arr k p then (s, .refused St.partitionReject)
  else match p.body with
  | .sync b =>
    let st := objectStatus s i (b.op == 1 || b.op == 3) b.id.toNat
    if st ≠ St.ok then (s, .refused st)
    else if b.op == 2 && counterRangeBad (objVal s b.id.toNat) b.value.toNat then (s, .refused St.counterRange)
    else (s, .object)
  | _ => match holderOf s q with
    | some (r, c) => (s, holderRange r c wr p.raddr p.rkey.toNat p.length.toNat)
    | none => match remoteRange s i wr p.raddr p.rkey.toNat p.length.toNat with
      | .error reason =>
        (s.modWin i (fun w => { w with
          remoteRefused := wrap 24 (w.remoteRefused + 1), lastReason := reason, lastSeg := fld p.raddr 63 60 }),
         .refused St.remoteAccess)
      | .ok x => if (s.seg i x.seg).lost then (s, .refused St.targetUnavailable) else (s, .range x)

/-! ### Answers -/

/-- Nothing is owed an acknowledgement any more (R128). -/
def ackGiven (s : State) (q : Nat) : State := s.modQp q (fun k => { k with sinceAck := 0, firstUnacked := none })

/-- An ACK OK of a packet (R128). -/
def giveAck (s : State) (q psn msn : Nat) (result : Word) (ts : BitVec 32) : State :=
  sendAnswer (ackGiven s q) q 0x11 psn msn 0 0 result ts

/-- A NAK FAILED (R124). -/
def giveFailed (s : State) (q psn msn status : Nat) (ts : BitVec 32) (sig : Bool) : State :=
  sendSealed s q 3 { ztpBase s q 0x12 psn msn with
    ts := ts, syndrome := 4, status := BitVec.ofNat 8 status, epsn := BitVec.ofNat 32 (s.qp q).epsn, sigRefused := sig }

/-- A NAK FAILED consumes a whole message (R127): recorded, and EPSN past its span. -/
def consumeMsg (s : State) (q msn status endPsn psn : Nat) (ts : BitVec 32) (sig : Bool) : State :=
  let s := recordMsg s q msn status false 0 psn ts sig
  giveFailed ((ackGiven s q).modQp q (fun k => { k with epsn := wrap 32 endPsn, cur := none })) q psn msn status ts sig

/-- Bytes a remote requester placed into, or read from, an instance's segments (R363). -/
def served (s : State) (x : Xlat) (n : Nat) : State :=
  let s := chargeShared s [(memDomain x, n)]
  if x.inst < 128 then s.modMeter x.inst (fun m => { m with served := wrap 64 (m.served + n) }) else s

/-- Send a CNP for a request marked CE, at most one per CNP_INTERVAL (R139). -/
def maybeCnp (s : State) (arr : Arrival) (q : Nat) (p : ZtpPacket) : State :=
  let k := s.qp q
  let due := match k.lastCnp with | none => true | some t => decide (t + cnpIntervalNs k.ident ≤ s.now)
  if arr.ce && bit s.tp.cfg 0 && due then
    sendSealed (s.modQp q (fun k => { k with lastCnp := some s.now })) q 3
      { ztpBase s q 0x15 p.psn.toNat p.msn.toNat with ts := p.ts }
  else s

/-! ### WRITE -/

/-- A HOLDER's commit record is written: the generation it names becomes valid (R266). -/
def commitHolder (s : State) (r : Nat) (bytes : List Byte) : State :=
  let g := leAt bytes 8 1
  s.modCouch r (fun c => { c with
    validSeq := leAt bytes 0 8, validGen := if g ≤ 1 then some g else c.validGen, cond := .valid })

/-- The last packet of a WRITE is placed (R127, R129): its counter is checked and takes RADD, and the
message is recorded. -/
def finishWrite (s : State) (arr : Arrival) (q : Nat) (a : Applying) (p : ZtpPacket) : State :=
  let s := (endApplying s a).modQp q (fun k => { k with cur := none })
  let s := match a.couch with | some (r, 2) => commitHolder s r a.recordBytes | _ => s
  let id := p.signal.toNat % 2 ^ 21
  let st := if p.signal.getLsbD 31 then objectStatus s (s.qp q).ident.owner false id else St.ok
  if st ≠ St.ok then consumeMsg s q a.msn st (s.qp q).epsn p.psn.toNat p.ts true
  else
    let s := recordMsg s q a.msn St.ok false 0 p.psn.toNat p.ts false
    if p.signal.getLsbD 31 then addCounter s id p.radd.toNat (remoteRank arr.port) else s

/-- A packet that has been taken is acknowledged at once if it asks for it or ACK_EVERY have come (R128). -/
def ackPlaced (s : State) (q : Nat) (p : ZtpPacket) : State :=
  let n := (s.qp q).sinceAck + 1
  if p.ar || decide (n ≥ ackEvery (s.qp q).ident) then giveAck s q p.psn.toNat p.msn.toNat 0 p.ts
  else s.modQp q (fun k => { k with
    sinceAck := n, lastTs := p.ts
    firstUnacked := match k.firstUnacked with | some t => some t | none => some s.now })

/-- Place the bytes of a WRITE packet (R127 step 11, R253). -/
def placeWrite (s : State) (arr : Arrival) (q : Nat) (a : Applying) (p : ZtpPacket) : State :=
  let bs := (match p.body with | .data b => b | _ => []).take (a.len - a.done)
  let next := wrap 32 (p.psn.toNat + 1)
  let placed := match a.xlat with
    | none => (s, Access.done)
    | some x => let r := xlatWrite s x a.done bs; (served r.1 x bs.length, r.2)
  match placed with
  | (s, .failed st _) => consumeMsg (endApplying s a) q a.msn st a.endPsn p.psn.toNat p.ts false
  | (s, .done) =>
    let a := { a with done := a.done + bs.length, recordBytes := if a.xlat.isNone then a.recordBytes ++ bs else a.recordBytes }
    let s := s.modQp q (fun k => { k with cur := some a, epsn := next })
    if p.last then
      let s := finishWrite s arr q a p
      match outcomeOf (s.qp q) a.msn with
      | some o => if o.status = St.ok then ackPlaced s q p else s
      | none => s
    else ackPlaced s q p

/-- The WRITE that begins with a packet. -/
def applyingOf (p : ZtpPacket) (pmtu : Nat) (x : Option Xlat) (couch : Option (Nat × Nat)) : Applying :=
  ⟨p.msn.toNat, wrap 32 (p.psn.toNat + spanOf .write p.length.toNat pmtu), p.raddr, p.length.toNat, 0, x, couch, []⟩

/-! ### READ -/

/-- The bytes of a HOLDER's commit record: all zero before any commit (R266, R334). -/
def recordOf (c : Couch) : List Byte := leBytes 8 c.validSeq ++ leBytes 1 (c.validGen.getD 0) ++ leBytes 7 0

/-- Send the responses of a READ that carry `bs`, from a PSN (R123, R127). -/
def sendResponses (s : State) (q pmtu : Nat) (p : ZtpPacket) (span n : Nat) (bs : List Byte) : State :=
  forEach (List.range n) s (fun s i =>
    sendSealed s q 3 { ztpBase s q 0x13 (wrap 32 (p.psn.toNat + i)) p.msn.toNat with
      ts := p.ts, first := i == 0, last := i + 1 == span, body := .data (slice bs (i * pmtu) pmtu) })

/-- Run a READ (R127, R130, R252): its responses, which end at the first packet that holds an
uncorrectable word. `fresh` says it is applied for the first time: it is recorded, and acknowledged as any packet is
(R128). -/
def runReadReq (s : State) (q : Nat) (p : ZtpPacket) (t : Target) (fresh : Bool) : State :=
  let k := s.qp q
  let len := p.length.toNat
  let pmtu := pmtuBytes k.ident.pmtu
  let span := spanOf .read len k.ident.pmtu
  let got := match t with
    | .range x => let r := xlatRead s x 0 len; (served r.1 x r.2.2.length, r.2.1, r.2.2)
    | .holder _ _ (some x) => xlatRead s x 0 len
    | .holder r _ none => match s.couch.find r with
      | some c => (s, Access.done, (recordOf c).take len)
      | none => (s, Access.done, [])
    | _ => (s, Access.done, [])
  let status := match got.2.1 with | .done => St.ok | .failed st _ => st
  let n := if status = St.ok then span else got.2.2.length / pmtu
  let s := if fresh then (recordMsg got.1 q p.msn.toNat status false 0 p.psn.toNat p.ts false).modQp q
      (fun k => { k with epsn := wrap 32 (p.psn.toNat + span) }) else got.1
  let s := sendResponses s q pmtu p span n got.2.2
  if status = St.ok then (if fresh then ackPlaced s q p else s) else giveFailed s q (wrap 32 (p.psn.toNat + n)) p.msn.toNat status p.ts false

/-! ### Synchronization -/

/-- A sync message is applied and answered (R129): OK with its RESULT, or consumed by its status. -/
def answerSync (s : State) (q : Nat) (p : ZtpPacket) (status : Nat) (result : Word) : State :=
  if status = St.ok then
    let s := (recordMsg s q p.msn.toNat St.ok false result p.psn.toNat p.ts false).modQp q
      (fun k => { k with epsn := wrap 32 (p.psn.toNat + 1) })
    giveAck (writeResult s q p.msn.toNat) q p.psn.toNat p.msn.toNat result p.ts
  else consumeMsg s q p.msn.toNat status (p.psn.toNat + 1) p.psn.toNat p.ts false

/-- Hold a remote wait (R111, R131): a full table answers NAK BUSY. -/
def holdRemote (s : State) (q port : Nat) (p : ZtpPacket) (w : Wait) : State :=
  if heldCount s ≥ 65536 then
    let s := (s.modSync (fun m => { m with busy := wrap 32 (m.busy + 1) })).modDie port
      (fun d => { d with busySent := wrap 32 (d.busySent + 1) })
    sendAnswer s q 0x12 p.psn.toNat p.msn.toNat 3 0 0 p.ts
  else
    let s := (recordMsg s q p.msn.toNat St.ok true 0 p.psn.toNat p.ts false).modQp q
      (fun k => { k with epsn := wrap 32 (p.psn.toNat + 1) })
    sendAnswer (ackGiven (joinWait s w) q) q 0x11 p.psn.toNat p.msn.toNat 1 0 0 p.ts

/-- A remote wait is satisfied at once (R131): nobody waits before it on its object, which has what it asks. -/
def metAtOnce (s : State) (sem : Bool) (id n : Nat) : Bool :=
  if sem then n == 0 || ((waitsOn s true id).isEmpty && decide (n ≤ objVal s id)) else counterReached (objVal s id) n

/-- Apply a SYNC_REQ that came through a port (R102 to R107, R109). -/
def applySync (s : State) (arr : Arrival) (q port : Nat) (p : ZtpPacket) (b : SyncBlock) : State :=
  let id := b.id.toNat
  let n := b.value.toNat
  let rank := remoteRank arr.port
  if b.op = 0 then
    let s := addCounter s id n rank
    answerSync s q p St.ok (BitVec.ofNat 64 (objVal s id))
  else if b.op = 1 then
    match addSem s id n rank with
    | (s, some v) => answerSync s q p St.ok (BitVec.ofNat 64 v)
    | (s, none) => answerSync s q p St.semOverflow 0
  else
    let sem := b.op == 3
    if metAtOnce s sem id n then
      let s := takeTurn s id evalRank
      let v := objVal s id
      answerSync (if sem then setObj s id (v - n) else s) q p St.ok (BitVec.ofNat 64 v)
    else holdRemote s q port p ⟨.held q p.msn.toNat, sem, id, n,
      if b.flags.getLsbD 0 then some b.deadline.toNat else none, s.now, rank⟩

/-! ### The checks of R127 -/

/-- A packet that waits for memory behind a link in RETRAIN stays where it was (R287). -/
def stallPacket (s : State) (arr : Arrival) (p : ZtpPacket) : State :=
  if s.inbox.any (fun x => x.arr == arr && x.body == .ztp p) then s
  else { s with inbox := s.inbox ++ [({ arr := arr, body := .ztp p, prio := 0, bytes := 0, sub := 0 } : Inboxed)] }

/-- A target behind a link that is not UP, and not lost. -/
def targetHeld (s : State) (t : Option Xlat) : Bool :=
  match t with | some x => xlatHeld s x && !xlatLost s x | none => false

/-- A duplicate (R130): answered from the record, nothing placed, added or subtracted again. -/
def answerDuplicate (s : State) (arr : Arrival) (q port : Nat) (p : ZtpPacket) : State :=
  let k := s.qp q
  let msn := p.msn.toNat
  let count := fun (s : State) =>
    (s.modDie port (fun d => { d with duplicate := wrap 32 (d.duplicate + 1) })).modWin k.ident.owner
      (fun w => { w with dupRx := wrap 32 (w.dupRx + 1) })
  if (match k.cur with | some a => a.msn == msn | none => false) then count s
  else if dmod 32 k.applied msn ≥ 256 then outOfWindow s port
  else match outcomeOf k msn with
  | none => outOfWindow s port
  | some o =>
    let s := count s
    let ok := o.status = St.ok
    if p.typ = 0x01 then
      if !p.ar then s
      else if ok then sendAnswer s q 0x11 p.psn.toNat msn 0 0 0 p.ts
      else giveFailed s q p.psn.toNat msn o.status p.ts o.sig
    else if p.typ = 0x02 then
      if ok then match checkTarget s arr q p with
        | (s, .refused st) => giveFailed s q p.psn.toNat msn st p.ts false
        | (s, t) => runReadReq s q p t false
      else giveFailed s q p.psn.toNat msn o.status p.ts false
    else if o.held then sendAnswer s q 0x11 p.psn.toNat msn 1 0 0 p.ts
    else if ok then
      if wordBad s.hbm (Config.recordAt q / 8 + msn % 256) then contextLost s q (Config.recordAt q / 8 + msn % 256)
      else sendAnswer s q 0x11 p.psn.toNat msn 0 0 o.result p.ts
    else giveFailed s q p.psn.toNat msn o.status p.ts false

/-- The expected packet (R127 steps 8 to 11). A packet that continues no message, or begins one that is
not above APPLIED_MSN, is none the responder may apply (R129). -/
def takeExpected (s : State) (arr : Arrival) (q port : Nat) (p : ZtpPacket) : State :=
  let k := s.qp q
  if p.typ = 0x01 ∧ !p.first then
    match k.cur with
    | some a =>
      if a.msn ≠ p.msn.toNat then staleDrop s port
      else if targetHeld s a.xlat then stallPacket s arr p
      else placeWrite s arr q a p
    | none => staleDrop s port
  else if k.cur.isSome || decide (dmod 32 p.msn.toNat k.applied = 0 ∨ dmod 32 p.msn.toNat k.applied ≥ 2 ^ 31)
    then staleDrop s port
  else
    let kind : MsgKind := if p.typ = 0x01 then .write else if p.typ = 0x02 then .read else .sync
    let endPsn := p.psn.toNat + spanOf kind p.length.toNat k.ident.pmtu
    match checkTarget s arr q p with
    | (s, .refused st) => consumeMsg s q p.msn.toNat st endPsn p.psn.toNat p.ts false
    | (s, .object) => match p.body with
      | .sync b => applySync s arr q port p b
      | _ => s
    | (s, .range x) =>
      if targetHeld s (some x) then stallPacket s arr p
      else if p.typ = 0x01 then placeWrite (holdXlat s x) arr q (applyingOf p k.ident.pmtu (some x) none) p
      else runReadReq s q p (.range x) true
    | (s, .holder r sel x) =>
      if p.typ = 0x01 then placeWrite s arr q (applyingOf p k.ident.pmtu x (some (r, sel))) p
      else runReadReq s q p (.holder r sel x) true

/-- R127 from step 4 on. -/
def takeOpened (s : State) (arr : Arrival) (q port : Nat) (p : ZtpPacket) : State :=
  let k := s.qp q
  if !sealOk k p then authFail s port else
  let s := maybeCnp (s.modQp q (fun k => { k with sealRx := if p.sealedBit then p.sealNo.toNat else k.sealRx })) arr q p
  let d := dmod 32 p.psn.toNat k.epsn
  if d = 0 then takeExpected s arr q port p
  else if d ≥ 2 ^ 32 - 2 ^ 30 then answerDuplicate s arr q port p
  else if d ≤ 2 ^ 30 then
    if k.gapNak = some k.epsn then s
    else
      let s := (s.modQp q (fun k => { k with gapNak := some k.epsn })).modDie port
        (fun d => { d with seqNaks := wrap 32 (d.seqNaks + 1) })
      sendAnswer s q 0x12 p.psn.toNat p.msn.toNat 2 0 0 p.ts
  else outOfWindow s port

/-- R127 from step 3 on: the context is resident. The first request with the agreed CONN tag opens the
passive end (R146, R154). -/
def takeRequest (s : State) (arr : Arrival) (p : ZtpPacket) : State :=
  let q := p.dstQp.toNat
  let k := s.qp q
  let port := arrPort s arr q
  if k.st == .closed || !fromPeer s arr k p || !connMatch k p then staleDrop s port
  else match k.st with
  | .error => giveFailed s q p.psn.toNat p.msn.toNat St.flushed p.ts false
  | .opening =>
    if !k.ident.active && (match k.reply with | some c => c.reason == 0 | none => false)
    then takeOpened (qpOpened s q) arr q port p else staleDrop s port
  | _ => takeOpened s arr q port p

/-! ### The miss buffer (R152) -/

/-- Bytes in a die's miss buffer. -/
def missBytes (d : DieCounts) : Nat := d.miss.foldl (fun a x => a + ztpLen x.2.2) 0

/-- A NAK BUSY built from a packet's headers alone; its EPSN is the packet's own PSN (DESIGN CHOICE, log entry 116). -/
def busyBack (s : State) (arr : Arrival) (p : ZtpPacket) : State :=
  replyBack s arr 3 { (default : ZtpPacket) with
    typ := 0x12, first := true, last := true, ver := p.ver, dstQp := p.srcQp, srcQp := p.dstQp, psn := p.psn
    msn := p.msn, pkey := p.pkey, conn := p.conn, ts := p.ts, syndrome := 3, epsn := p.psn, body := .none
    ecrcOk := true, tagOk := true }

/-- A request whose context is not resident waits in the miss buffer while the context is fetched; one
that does not fit is answered NAK BUSY, and later ones of its QP are dropped (R152). -/
def missRequest (s : State) (arr : Arrival) (p : ZtpPacket) : State :=
  let q := p.dstQp.toNat
  let port := arrPort s arr q
  let d := s.die port
  let n := s.tp.uses
  let s := s.modQp q (fun k => { k with fetching := true })
  if s.tp.pa.missDrop.contains q || s.tp.pb.missDrop.contains q then s
  else if missBytes d + ztpLen p ≤ 262144 then
    ({ s with tp := { s.tp with uses := n + 1 } }).modDie port (fun d => { d with miss := d.miss ++ [(n, arr, p)] })
  else busyBack (s.modDie port (fun d => { d with
    busySent := wrap 32 (d.busySent + 1), missDrop := d.missDrop ++ [q] })) arr p

/-- A request packet arrives (R127). -/
def requestGate (s : State) (arr : Arrival) (p : ZtpPacket) (typ : Byte) : State :=
  pktGate s arr p typ (fun s =>
    if (s.qp p.dstQp.toNat).resident then
      settle (takeRequest (touchQp s p.dstQp.toNat) arr p)
    else missRequest s arr p)

/-- WRITE_PACKET (R127). -/
def execWritePacket (arr : Arrival) (pkt : ZtpPacket) (s : State) : Host.Outcome State Fault Refusal :=
  .next (requestGate s arr pkt 0x01)

/-- READ_REQ (R127). -/
def execReadReq (arr : Arrival) (pkt : ZtpPacket) (s : State) : Host.Outcome State Fault Refusal :=
  .next (requestGate s arr pkt 0x02)

/-- SYNC_REQ (R127). -/
def execSyncReq (arr : Arrival) (pkt : ZtpPacket) (s : State) : Host.Outcome State Fault Refusal :=
  .next (requestGate s arr pkt 0x03)

/-- ACK_DELAY passes since the first packet not acknowledged (R128). -/
def ackDelayed (s : State) (q : Nat) : State :=
  let k := s.qp q
  match k.firstUnacked with
  | none => s
  | some t =>
    if !(k.st == .opened || k.st == .draining) then s else
    giveAck (s.arriveAt (t + ackDelayNs k.ident)) q (dmod 32 k.epsn 1)
      (match k.cur with | some a => a.msn | none => k.applied) 0 k.lastTs

/-- ACK_DELAY_EXPIRY (R128). -/
def execAckDelayExpiry (qp : BitVec 20) (s : State) : Host.Outcome State Fault Refusal :=
  .next (ackDelayed s qp.toNat)

/-- Merge two lists of held packets in arrival order. -/
def mergeMiss : List (Nat × Arrival × ZtpPacket) → List (Nat × Arrival × ZtpPacket) → List (Nat × Arrival × ZtpPacket)
  | [], b => b
  | x :: xs, b => b.takeWhile (fun y => decide (y.1 < x.1)) ++ x :: mergeMiss xs (b.dropWhile (fun y => decide (y.1 < x.1)))

/-- The context of a QP has been read from the store: with an uncorrectable word in it the QP enters ERROR (R154, R252). -/
def contextRead (s : State) (q : Nat) : State :=
  let k := s.qp q
  match firstBad s.hbm (Config.contextAt q) 512 with
  | some w => if k.st == .closed || k.st == .error then logUe s w false else contextLost s q w
  | none => s

/-- The context of a QP has been fetched (R151, R152): held packets pass the checks from step 3, in
arrival order. -/
def contextFetched (s : State) (q : Nat) : State :=
  if !(s.qp q).fetching || (s.qp q).resident then s else
  let s' := makeResident s q
  if !(s'.qp q).resident then s else
  let mine := fun (d : DieCounts) => d.miss.filter (fun x => x.2.2.dstQp.toNat == q)
  let held := mergeMiss (mine s.tp.pa) (mine s.tp.pb)
  let clear := fun (d : DieCounts) => { d with
    miss := d.miss.filter (fun x => x.2.2.dstQp.toNat != q), missDrop := d.missDrop.filter (· != q) }
  let onB := !(mine s.tp.pb).isEmpty || ((mine s.tp.pa).isEmpty && dieOf (qpPort s q))
  let s := { s' with tp := { s'.tp with pa := clear s'.tp.pa, pb := clear s'.tp.pb } }
  let s := s.modDie (if onB then 8 else 0) (fun d => { d with fetches := wrap 32 (d.fetches + 1) })
  settle (forEach held (contextRead s q) (fun s x => takeRequest s x.2.1 x.2.2))

/-- CONTEXT_FETCH_COMPLETE (R152). -/
def execContextFetchComplete (qp : BitVec 20) (s : State) : Host.Outcome State Fault Refusal :=
  .next (contextFetched s qp.toNat)

end Sys2Proof.Machine
end

