-- ==== Sys2Proof/Machine/BoardOps.lean ====
section
/-! DEFINITION. Shared operations of the Pomel links (chapter 10): an epoch bump (R288), the ways a link
goes UP, RETRAIN and DOWN (R272), and the aperture with its snoop filter (R273, R274, R277). -/

namespace Sys2Proof.Machine

/-! ### An epoch bump (R288) -/

/-- A translation names memory behind link `l`. -/
def onLink (l : Nat) (x : Xlat) : Bool := x.board && x.link == l

/-- The array of `len` bytes at a ZTI address lies behind link `l`. -/
def arrayOnLink (s : State) (l inst : Nat) (base : Word) : Bool := onLink l (arrayAt s inst base 0 1)

/-- LOST on every board segment of the link, and on every ring behind it (R258, R288 step 5). -/
def loseMemory (s : State) (l : Nat) : State :=
  let s := { s with rings := s.rings.mapCells (fun _ r => if arrayOnLink s l r.inst r.base then { r with lost := true } else r) }
  s.modInsts (fun t => t.mapCells (fun _ x => { x with win := { x.win with
    segs := x.win.segs.mapCells (fun _ g => if g.valid && g.board && g.link == l then { g with lost := true } else g) } }))

/-- The queue's entries or ring lie behind the link. -/
def queueOnLink (s : State) (l : Nat) (w : WorkQueue) : Bool :=
  arrayOnLink s l w.inst w.base
    || (match s.rings.find w.ring with | some r => arrayOnLink s l r.inst r.base | none => false)

/-- Opcode of the entry at FETCH, where the device has read it whole (R416). -/
def opAtFetch (w : WorkQueue) : Nat :=
  match w.head with
  | some h => h.entry.op
  | none => match w.started.find? (fun x => x.seq == w.fetch) with | some x => x.entry.op | none => 0

/-- A queue whose memory is lost enters ERROR at FETCH (R95, R416). -/
def loseQueue (detail : BitVec 32) (s : State) (q : Nat) : State :=
  match s.queues.find q with
  | none => s
  | some w => haltQueue (unwatch s q) q w.fetch St.targetUnavailable (opAtFetch w) detail false

/-- Messages whose local range lies behind the link: QP and MSN. -/
def msgsOnLink (s : State) (l : Nat) : List (Nat × Nat) :=
  s.qps.keys.flatMap (fun q => ((s.msgs q).filter (fun m => match m.xlat with | some x => onLink l x | none => false)).map
    (fun m => (q, m.msn)))

/-- Started entries that still need memory behind the link and are no message: queue and entry. -/
def entriesOnLink (s : State) (l : Nat) : List (Nat × Started) :=
  s.queues.cells.flatMap (fun c => (c.2.started.filter (fun x => x.ending.isNone && x.xlats.any (onLink l)
    && (!x.ran || x.entry.op == 0x03))).map (fun x => (c.1, x)))

/-- Such an entry ends; a COLL_STEP ends as a step of its slot does (R187, R188). -/
def loseEntry (detail : BitVec 32) (s : State) (c : Nat × Started) : State :=
  let x := c.2
  let n := x.entry.slot
  if x.entry.op = 0x20 then
    match (s.slot n).desc with
    | some d =>
      if (s.slot n).cond == .fault then endEntry s c.1 x.seq St.flushed 0 (selfDetail s n)
      else endStep (openRun (markRan s c.1 x.seq) n c.1 x d [] none) n St.targetUnavailable 0 d.self
    | none => endEntry s c.1 x.seq St.flushed 0 (selfDetail s n)
  else endEntry s c.1 x.seq St.targetUnavailable 0 detail

/-- Slots whose running step has its output behind the link. -/
def stepsOnLink (s : State) (l : Nat) : List Nat :=
  s.coll.slots.keys.filter (fun n => match (s.slot n).run with
    | some r => (match r.dst with | some x => onLink l x | none => false) | none => false)

/-- QPs whose responder is part-way through a message placed behind the link. -/
def applyingOnLink (s : State) (l : Nat) : List Nat :=
  s.qps.keys.filter (fun q => match (s.qp q).cur with
    | some a => (match a.xlat with | some x => onLink l x | none => false) | none => false)

/-- The responder ends the message it is applying, and says so (R127, R288 step 6). -/
def failApplying (s : State) (q : Nat) : State :=
  let k := s.qp q
  match k.cur with
  | none => s
  | some a => consumeMsg (endApplying s a) q a.msn St.targetUnavailable a.endPsn
      (wrap 32 (k.epsn + 2 ^ 32 - 1)) k.lastTs false

/-- Step 6 of R288: everything started that still needs memory behind the link ends. -/
def endLost (s : State) (l : Nat) (detail : BitVec 32) : State :=
  let s := forEach (msgsOnLink s l) s (fun s m => endMsg s m.1 m.2 St.targetUnavailable 0 detail)
  let s := forEach (entriesOnLink s l) s (loseEntry detail)
  let s := forEach (stepsOnLink s l) s (fun s n =>
    endStep s n St.targetUnavailable 0 (match (s.slot n).desc with | some d => d.self | none => 0))
  forEach (applyingOnLink s l) s failApplying

/-- Pending vectors of the link are cleared and counted (R286). -/
def dropVectors (s : State) (l : Nat) : State :=
  let vs := s.vectors.keys.filter (fun v => (s.vec v).link == l && (s.vec v).pending)
  forEach vs (s.modLink l (fun k => { k with intDropped := wrap 8 (k.intDropped + vs.length) }))
    (fun s v => s.modVec v (fun y => { y with pending := false }))

/-- An epoch bump of a link (R288). -/
def epochBump (s : State) (l : Nat) : State :=
  let detail := lostDetail l (s.link l).epoch false
  let s := s.modLink l (fun k => { k with
    epoch := (k.epoch + 1) % 256, discarded := wrap 32 (k.discarded + k.reqs.length), reqs := []
    snoop := [], watches := [] })
  let lostQs := s.queues.keys.filter (fun q => match s.queues.find q with | some w => queueOnLink s l w | none => false)
  let s := loseMemory s l
  let s := forEach lostQs s (loseQueue detail)
  let s := dropVectors (endLost s l detail) l
  settleSteps (raiseFault s 0x05 0x08 (32 + l) 0xFF l (BitVec.ofNat 32 (s.link l).epoch))

/-! ### Conditions of a link (R272) -/

/-- A link starts training: WIDTH_MAX, VER_MAX and CACHE_EN take effect (R292). -/
def boardTrain (s : State) (l : Nat) : State :=
  s.modLink l (fun k => { k with cond := .training, used := k.cfg, since := s.now, trainSince := s.now })

/-- A link goes DOWN, with an epoch bump if it was UP or RETRAIN. Its lanes are no longer trained; cause
BOARD needs a link in TRAINING. -/
def boardDown (s : State) (l : Nat) : State :=
  let was := (s.link l).cond
  let s := s.modLink l (fun k => { k with cond := .down, since := s.now, lanes := 0, boardCause := false })
  if was == .up || was == .retrain then epochBump s l else noteCauses s

/-- A link may train: it is DOWN with EN = 1. -/
def boardMayTrain (s : State) (l : Nat) : Bool := (s.link l).cond == .down && bit (s.link l).cfg 0

/-- Highest version a link may agree (R292): 0 for 2.0, 1 for 2.1, 2 for 3.0. -/
def boardVerMax (k : PLink) : Nat := let v := fld k.used 5 4; if v = 3 then 2 else v

/-- Widest width a link may agree: 0 for ×16, 1 for ×8, 2 for ×4. -/
def boardWidthMax (k : PLink) : Nat := let v := fld k.used 9 8; if v = 3 then 0 else v

/-- The lanes `[lo, lo + n)` all work. -/
def lanesWork (lanes lo n : Nat) : Bool := (rangeFrom lo n).all (fun i => lanes.testBit i)

/-- Width code and lanes of the widest group that works, no wider than `cap` (R271). -/
def laneGroup (lanes cap : Nat) : Option (Nat × Nat) :=
  let mask := fun (lo n : Nat) => (2 ^ n - 1) * 2 ^ lo
  if cap = 0 ∧ lanesWork lanes 0 16 then some (0, mask 0 16)
  else if cap ≤ 1 ∧ lanesWork lanes 0 8 then some (1, mask 0 8)
  else if cap ≤ 1 ∧ lanesWork lanes 8 8 then some (1, mask 8 8)
  else ([0, 1, 2, 3].find? (fun k => lanesWork lanes (4 * k) 4)).map (fun k => (2, mask (4 * k) 4))

/-- What waited for a link goes on once it is UP: pending vectors, queues that wait with reason LINK, and
completions owed to rings behind it (R285, R287). -/
def boardServe (s : State) (l : Nat) : State :=
  let s := servePendingOn s l
  let s := forEach s.queues.keys s flushQueue
  noteCauses (retryHeads s .link)

/-- A RETRAIN ends: its length counts toward STALL_MAX (R292). -/
def noteStall (s : State) (l : Nat) : State :=
  s.modLink l (fun k => { k with stallMax := sat 16 (max k.stallMax ((s.now - k.since) / 16)) })

/-! ### The aperture (R273, R274) -/

/-- One aperture entry permits an access to the bytes `[a, a + n)`. -/
def aptGrants (e : Word) (wr : Bool) (a n : Nat) : Bool :=
  bit e 63 && bit e (if wr then 62 else 61) && within a n (fld e 19 0 * gran) (fld e 51 32 * gran)

/-- The aperture of link `l` permits an access (R274); a device behind the companion has none (R273). -/
def aptPermits (s : State) (l : Nat) (cls : ReqClass) (wr : Bool) (a n : Nat) : Bool :=
  cls == .agent && (s.link l).apt.vals.any (fun e => aptGrants e wr a n)

/-- A refused request is counted (R273). -/
def aptViolate (s : State) (l : Nat) : State := s.modLink l (fun k => { k with aptViol := wrap 16 (k.aptViol + 1) })

/-- Size of a snoop filter (R277). -/
def filterLines : Nat := 4194304

/-- The companion of link `l` may cache lines (R270, R292). -/
def maycache (s : State) (l : Nat) : Bool := decide (1 ≤ (s.link l).ver) && bit (s.link l).used 12

/-- Track a line that a companion reads to keep; a full filter first takes back the line tracked longest
(R277). -/
def trackLine (s : State) (l line : Nat) (own : Bool) : State :=
  if !maycache s l then s else
  let k := s.link l
  let held := k.snoop.find? (fun e => e.1 == line)
  match held with
  | some e => s.modLink l (fun k => { k with snoop := k.snoop.map (fun x => if x.1 = line then (line, e.2 || own) else x) })
  | none =>
    let s := match k.snoop with
      | old :: rest => if k.snoop.length ≥ filterLines
          then (s.sent (.backInv l old.1)).modLink l (fun k => { k with snoop := rest, backInval := wrap 24 (k.backInval + 1) })
          else s
      | [] => s
    s.modLink l (fun k => { k with snoop := k.snoop ++ [(line, own)] })

/-- Another link's companion that holds a line gives it back before it is read for writing or written;
the requester's own copy stays (R276). -/
def backInvOthers (s : State) (l line : Nat) : State :=
  takeBack s ([0, 1, 2, 3].filter (fun j => j != l)) (fun e => e.1 == line)

end Sys2Proof.Machine
end

