-- ==== Sys2Proof/Machine/Board.lean ====
section
/-! DEFINITION. The commands of the Pomel links (chapter 10) but for accesses to memory and registers:
the conditions of a link, snoops of watched lines, fences and completions. -/

namespace Sys2Proof.Machine

/-! ### The manager's registers -/

/-- Writable fields of PL_CFG (R292). -/
def plCfgFields : List (Nat × Nat) := [(12, 12), (9, 8), (5, 4), (0, 0)]

/-- Address of a register of a Pomel link's block (R292). -/
def plAddr (l off : Nat) : Nat := 0x90000 + 0x100 * l + off

/-- What PL_CFG takes for a value (R292): WIDTH_MAX 3 is 0, VER_MAX 3 is 2 (log entry 51). -/
def plCfgValue (v : Word) : Word :=
  setFld (setFld v 9 8 (fld v 9 8 % 3)) 5 4 (min 2 (fld v 5 4))

/-- PL_CFG takes a value: EN = 1 starts training of a link that is DOWN, EN = 0 takes it DOWN (R272). -/
def setPlCfg (s : State) (l : Nat) (v : Word) : State :=
  let s := s.modLink l (fun k => { k with cfg := merge plCfgFields k.cfg v })
  if bit v 0 then (if (s.link l).cond == .down then boardTrain s l else s)
  else if (s.link l).cond == .down then s else boardDown s l

/-- PL_CFG_WRITE (R272). -/
def execPlCfgWrite (link pl : BitVec 2) (value : Word) (s : State) : Host.Outcome State Fault Refusal :=
  .next (ctlWrite s link.toNat (plAddr pl.toNat 0) [(63, 13), (11, 10), (7, 6), (3, 1)] value
    (fun s => setPlCfg s pl.toNat (plCfgValue value)))

/-- PL_CMD (R292): FORCE_DOWN takes a link that is not DOWN there; other values are ignored. -/
def plCommand (s : State) (l : Nat) (v : Word) : State :=
  if fld v 7 0 ≠ 1 ∨ (s.link l).cond == .down then s else boardDown s l

/-- FORCE_DOWN (R272). -/
def execForceDown (link pl : BitVec 2) (value : Word) (s : State) : Host.Outcome State Fault Refusal :=
  .next (ctlWrite s link.toNat (plAddr pl.toNat 0x10) [(63, 8)] value (fun s => plCommand s pl.toNat value))

/-! ### Training -/

/-- Version, width and agent kind are agreed, and the link is UP (R271, R272). The companion names its
highest version, 0 for 2.0 to 2 for 3.0, and the lanes that both ends offer and that work; with no group
of four the link stays in TRAINING. -/
def trained (s : State) (l ver : Nat) (agent : Bool) (lanes : Nat) : State :=
  let k := s.link l
  if !s.running || k.cond != .training then s
  else match laneGroup lanes (boardWidthMax k) with
    | none => s
    | some g => boardServe (s.modLink l (fun k => { k with
        cond := .up, since := s.now, boardCause := false, agent := agent, width := g.1, lanes := g.2
        ver := min (min ver 2) (boardVerMax k) })) l

/-- PL_TRAINING_COMPLETE (R271). -/
def execPlTrainingComplete (pl ver : BitVec 2) (agent : Bool) (lanes : BitVec 16) (s : State) :
    Host.Outcome State Fault Refusal :=
  .next (trained s pl.toNat ver.toNat agent lanes.toNat)

/-- 500 ms in TRAINING without reaching UP: a link fault, and cause BOARD (R271, R326). -/
def trainTimeout (s : State) (l : Nat) : State :=
  let k := s.link l
  if !s.running || k.cond != .training || k.boardCause then s
  else
    let s := s.arriveAt (k.trainSince + 500000000)
    noteCauses (raiseFault (s.modLink l (fun k => { k with boardCause := true })) 0x05 0 (32 + l) 0xFF l
      (BitVec.ofNat 32 k.epoch))

/-- PL_TRAINING_TIMEOUT (R271). -/
def execPlTrainingTimeout (pl : BitVec 2) (s : State) : Host.Outcome State Fault Refusal := .next (trainTimeout s pl.toNat)

/-- 1 ms after it went DOWN a link with EN = 1 trains again (R272). -/
def boardRetry (s : State) (l : Nat) : State :=
  if !s.running || !boardMayTrain s l then s else boardTrain (s.arriveAt ((s.link l).since + 1000000)) l

/-- PL_RETRAIN_TIMER (R272). -/
def execPlRetrainTimer (pl : BitVec 2) (s : State) : Host.Outcome State Fault Refusal := .next (boardRetry s pl.toNat)

/-! ### RETRAIN -/

/-- Lane alignment is lost, or eight replays in a row made no progress (R272). -/
def misaligned (s : State) (l : Nat) : State :=
  if (s.link l).cond != .up then s
  else s.modLink l (fun k => { k with cond := .retrain, since := s.now, retrains := wrap 16 (k.retrains + 1) })

/-- PL_ALIGNMENT_LOSS (R272). -/
def execPlAlignmentLoss (pl : BitVec 2) (s : State) : Host.Outcome State Fault Refusal := .next (misaligned s pl.toNat)

/-- Time at which a RETRAIN must have ended (R272). -/
def retrainEnd (k : PLink) : Nat := k.since + 20000

/-- The lanes align again, no wider than before, within 20 µs of entry; the tick in which the limit is
reached still counts (R272). What was not acknowledged is replayed. -/
def realigned (s : State) (l lanes : Nat) : State :=
  let k := s.link l
  if k.cond != .retrain || decide (tickStart (retrainEnd k) < s.now) then s
  else match laneGroup lanes k.width with
    | none => s
    | some g => boardServe ((noteStall s l).modLink l (fun k => { k with
        cond := .up, since := s.now, width := g.1, lanes := g.2
        replays := if k.reqs.isEmpty then k.replays else wrap 8 (k.replays + 1) })) l

/-- PL_REALIGNED (R272). -/
def execPlRealigned (pl : BitVec 2) (lanes : BitVec 16) (s : State) : Host.Outcome State Fault Refusal :=
  .next (realigned s pl.toNat lanes.toNat)

/-- 20 µs in RETRAIN without alignment: the link goes DOWN with an epoch bump (R272). -/
def retrainTimeout (s : State) (l : Nat) : State :=
  if (s.link l).cond != .retrain then s
  else boardDown (noteStall (s.arriveAt (retrainEnd (s.link l))) l) l

/-- PL_RETRAIN_TIMEOUT (R272). -/
def execPlRetrainTimeout (pl : BitVec 2) (s : State) : Host.Outcome State Fault Refusal := .next (retrainTimeout s pl.toNat)

/-- A companion is about to reset (R272); version 2.0 has no such message (R270). -/
def resetNoticed (s : State) (l : Nat) : State :=
  if (s.link l).cond != .up || (s.link l).ver == 0 then s else boardDown s l

/-- RESET_NOTICE (R272). -/
def execResetNotice (pl : BitVec 2) (s : State) : Host.Outcome State Fault Refusal := .next (resetNoticed s pl.toNat)

/-! ### Watches, fences and completions -/

/-- Bytes of a line arrive in companion memory as the device sees it (log entry 10). -/
def boardLine (s : State) (l a : Nat) (bs : List Byte) : State := s.setBoard l (writeBytes (s.board l) a bs)

/-- The companion takes back a watched line because it writes it; the device reads the entry again (R278). -/
def snooped (s : State) (l addr : Nat) (bs : List Byte) : State :=
  if (s.link l).cond != .up then s
  else
    let line := addr / 64
    let qs := ((s.link l).watches.filter (fun w => w.1 == line)).map (·.2)
    let s := (boardLine s l (line * 64) bs).modLink l (fun k => { k with watches := k.watches.filter (fun w => w.1 != line) })
    settle (forEach qs s serveHead)

/-- SNP_INV (R278). -/
def execSnpInv (pl : BitVec 2) (addr : BitVec 52) (data : BitVec 512) (s : State) : Host.Outcome State Fault Refusal :=
  .next (snooped s pl.toNat addr.toNat (lineBytes data))

/-- A queue that waits on an entry in board memory without a watch reads it again every 1 µs (R278). -/
def pollHead (s : State) (q : Nat) : State :=
  match s.queues.find q with
  | none => s
  | some w =>
    let x := headSlot s w
    if w.st != .waiting || w.reason != .early || !x.board || (s.link x.link).watches.any (fun c => c.2 == q) then s
    else
      let s := s.arriveAt (s.now + 1000)
      let s := s.modLink x.link (fun k => { k with watchFull := wrap 17 (k.watchFull + 1) })
      settle (serveHead s q)

/-- WATCH_POLL (R278). -/
def execWatchPoll (q : BitVec 19) (s : State) : Host.Outcome State Fault Refusal := .next (pollHead s q.toNat)

/-- FENCE is answered once the agent's earlier writes are visible, which they are (R280). -/
def fenced (s : State) (l : Nat) : State := if !arrives s l then s else s.sent (.cmp l)

/-- FENCE of a companion (R280). -/
def execPomelFence (pl : BitVec 2) (s : State) : Host.Outcome State Fault Refusal := .next (fenced s pl.toNat)

/-- A completion arrives for the oldest request toward the companion (R275, R287): the line a read
brought is taken; CMP_ERR carries no data. -/
def completed (s : State) (l : Nat) (err : Bool) (bs : List Byte) : State :=
  match (s.link l).cond, (s.link l).reqs with
  | .up, r :: rest =>
    let s := s.modLink l (fun k => { k with reqs := rest })
    if r.write || err then s else boardLine s l (r.addr / 64 * 64) bs
  | _, _ => s

/-- CMP (R275). -/
def execCmp (pl : BitVec 2) (err : Bool) (data : BitVec 512) (s : State) : Host.Outcome State Fault Refusal :=
  .next (completed s pl.toNat err (lineBytes data))

end Sys2Proof.Machine
end

