-- ==== Sys2Proof/Machine/LinkOps.lean ====
section
/-! DEFINITION. Shared operations of the fabric links (chapter 7): HELLO (R194), notices received (R330),
VC7 frames (R28, R212, R214), and the reception of a frame (R192, R196, R198). -/

namespace Sys2Proof.Machine

/-! ### Control frames -/

/-- The link enters UP (R194, R195): full credits, LSEQ 0, and a notice for every alternate recorded under
the active plan (R330). -/
def linkUp (s : State) (p src ver nbrPort : Nat) (planId : Word) : State :=
  let s := s.modPort p (fun k => { k with
    cond := .up, since := s.now, nbrNode := src, nbrPort := nbrPort, ver := min (fabVerMax s p) ver
    nbrPlan := some planId, credits := ⟨(List.range 7).map (fun v => (v, fullCredits v))⟩, owed := Tbl.empty
    txSeq := 0, rxSeq := 0, ackedSeq := 65535, nakSent := false, fruitless := 0, replay := [], again := []
    creditAt := Tbl.empty
    progressAt := s.now, lastHello := s.now, helloCount := 0, helloFrom := none, lostNbr := src })
  if loopOf s p = 0 then
    forEach (s.flt.alts.cells.filter (fun c => c.1 < 65536)) s (fun s c => noticeOn c.1 c.2 s p)
  else s

/-- A HELLO arrives (R194, R195). -/
def helloIn (s : State) (p src ver nbrPort : Nat) (planId : Word) : State :=
  let k := s.port p
  let same := k.nbrNode == src && k.nbrPort == nbrPort
  match k.cond with
  | .down => s
  | .training =>
    let n := if k.helloFrom = some (src, nbrPort, ver) then k.helloCount + 1 else 1
    if n ≥ 3 ∧ k.aligned then linkUp s p src ver nbrPort planId
    else s.modPort p (fun k => { k with helloFrom := some (src, nbrPort, ver), helloCount := n })
  | .up => if same then s.modPort p (fun k => { k with nbrPlan := some planId }) else portDown s p false
  | .retrain =>
    if !same then s
    else replayFrom (s.modPort p (fun k => { k with
      cond := .up, since := s.now, aligned := true, nbrPlan := some planId, lastHello := s.now, nakSent := false })) p none

/-- A notice of an alternate arrives (R330): taken from a neighbour that runs the active plan, or the next
one once it is LOADED. -/
def noticeIn (s : State) (p alt e hops origin : Nat) : State :=
  if !fabUp s p then s else
  match (s.port p).nbrPlan with
  | none => s
  | some id =>
    if s.plans.active.isSome ∧ id = activeId s then recordAlt s alt false id e origin hops p
    else match s.plans.nextCond, s.plans.next with
      | .empty, _ => s
      | .loading, _ => s
      | _, none => s
      | _, some n => if n.planId = id then recordAlt s alt true id e origin hops p else s

/-- Replay, or RETRAIN after eight replays without progress (R195, R196). -/
def replayOr (s : State) (p : Nat) (l : Option Nat) : State :=
  if (s.port p).fruitless ≥ 8 then fabRetrain s p else replayFrom s p l

/-- The neighbour asks for frame `l` again: what came before it has arrived (R194, R196). -/
def nakIn (s : State) (p l : Nat) : State :=
  if (s.port p).cond != .up then s else replayOr (ackFrames s p (dmod 16 l 1)) p (some l)

/-- One NAK for a bad LCRC or a gap (R196). -/
def sendNak (s : State) (p : Nat) : State :=
  if (s.port p).nakSent then s
  else sendCtl (s.modPort p (fun k => { k with nakSent := true })) p (.nak (BitVec.ofNat 16 (s.port p).rxSeq))

/-! ### Circuits -/

/-- The CIRCUIT sheet in which a first bit at time `t` falls, with the guard on either side (R28). -/
def circuitSheet (d : Sched) (o t : Nat) : Option Nat :=
  let hit := fun (x : Option SheetNow) => match x with
    | some y => if sheetKind y.entry = 1 ∧ y.start ≤ t + d.guard ∧ t ≤ y.stop + d.guard then some (sheetCircuit y.entry) else none
    | none => none
  [t, t + d.guard, t - d.guard].findSome? (fun u => hit (sheetAt d o u))

/-- The circuit of a VC7 frame that arrives now on a port, and the entry that says what to do with it: under
the active plan's schedule, or the old one's for its guard after the front (R28, R50). -/
def arrivingCircuit (s : State) (p : Nat) : Option (Option Circuit) :=
  let t := s.now - (s.port p).delay
  let new := match schedOf s p with
    | some d => (circuitSheet d s.plans.activeF t).map (fun c => circuitEnt s p c)
    | none => none
  match new with
  | some c => some c
  | none =>
    if s.plans.drainAt.isNone then none
    else match s.plans.oldScheds.find? (fun d => d.port == p) with
      | none => none
      | some d =>
        if t > s.plans.activeF + d.guard then none
        else (circuitSheet d s.plans.oldF (min t (s.plans.activeF - 1))).map
          (fun c => s.plans.oldCircuits.find? (fun x => x.port == p && x.circuit == c))

/-- Bytes of forwarded VC7 frames that arrived on a port and wait (R198, R214): each counts with its link word,
header and LCRC (DESIGN CHOICE, log entry 109). -/
def vc7Held (s : State) (p : Nat) : Nat :=
  s.ports.vals.foldl (fun a k => ((k.queues.findD 7 []).filter (fun q => q.arr == p)).foldl (fun a q => a + frameLen q.frame) a) 0

/-- A VC7 frame arrives on a port (R28, R212, R214). -/
def circuitFrame (s : State) (p : Nat) (f : FabFrame) : State :=
  let drop := fun (s : State) => s.modCnt p (fun c => { c with circuitDrop := wrap 16 (c.circuitDrop + 1) })
  if !circuitsOn s p then drop s
  else match arrivingCircuit s p with
    | none => s.modCnt p (fun c => { c with sheetLate := wrap 16 (c.sheetLate + 1) })
    | some none => drop s
    | some (some c) =>
      if c.rxKind = 1 then
        if (bankOf s.routing f.bank).cond == .retired then countDrop s p .bank else deliver s (some p) f
      else if c.rxKind = 2 ∧ vc7Held s p + frameLen f ≤ 81920 then
        enqueue s (c.rxArg / 2 ^ 16 % 16) ⟨f, p, 7, s.now, c.rxArg % 2 ^ 16, false⟩
      else drop s

/-! ### Receiving a frame -/

/-- The VCs a KIND may use (R192). -/
def kindVcs (k : Nat) : List Nat :=
  if k = 1 then [0, 1, 2, 3, 4, 7] else if k = 2 then [3, 4, 5, 6, 7] else [0]

/-- A frame breaks the layouts of R191 and R192. -/
def badFormat (s : State) (p : Nat) (f : FabFrame) : Bool :=
  let k := f.kind.toNat
  !(k == 1 || k == 2 || k == 3 || k == 15) || f.linkZero != 0 || f.flagsZero != 0 || f.zero3 != 0
    || decide (f.dst.toNat ≥ 2 ^ 18) || decide (f.src.toNat ≥ 2 ^ 18)
    || f.len == 0 || decide (f.len.toNat > 4224) || !(kindVcs k).contains f.vc.toNat
    || ((k == 3 || k == 15) && f.lseq != 0)
    || ((s.port p).ver == 1 && (f.lack != 0 || f.crValid || f.crVc != 0 || f.crAmt != 0))

/-- What the link word of an arriving frame says at version 2 (R191). -/
def takeLinkWord (s : State) (p : Nat) (f : FabFrame) : State :=
  if (s.port p).ver ≠ 2 then s else
  let s := ackFrames s p f.lack.toNat
  if f.crValid then addCredits s p f.crVc.toNat f.crAmt.toNat else s

/-- A frame that is not replayed: a time message, or link control (R192, R194). -/
def localFrame (s : State) (p : Nat) (f : FabFrame) : State :=
  match f.body with
  | .ctl (.hello v n id) => helloIn s p f.src.toNat v.toNat n.toNat id
  | .ctl (.ack l) => ackFrames s p l.toNat
  | .ctl (.nak l) => nakIn s p l.toNat
  | .ctl (.credit vc n) => addCredits s p vc.toNat n.toNat
  | .ctl (.notice a e h o) => noticeIn s p a.toNat e.toNat h.toNat o.toNat
  | _ => if loopOf s p = 0 then deliver s (some p) f else s

/-- Count a frame dropped under R192. -/
def formatDrop (s : State) (p : Nat) : State := s.modCnt p (fun c => { c with format := wrap 8 (c.format + 1) })

/-- A control frame that came as a command of its own: its bytes are counted, and its buffer is free again (R198,
R222). -/
def ctlIn (s : State) (p : Nat) (f : State → State) : State :=
  if (s.port p).cond == .down || isEth s p then s else
  let s := f (s.modCnt p (fun c => { c with rxBytes := wrap 64 (c.rxBytes + 44) }))
  if (s.port p).cond == .up then freeBuffer s p 0 1 else s

/-- A frame arrives on a fabric-mode port (R192, R196, R198): what its link word says counts once the frame is
accepted. -/
def receiveFrame (s : State) (p : Nat) (f : FabFrame) : State :=
  let k := s.port p
  if isEth s p || k.cond == .down then s else
  let s := s.modCnt p (fun c => { c with rxBytes := wrap 64 (c.rxBytes + frameLen f) })
  if !f.lcrcOk then
    let s := s.modCnt p (fun c => { c with lcrcErr := wrap 32 (c.lcrcErr + 1) })
    if k.cond == .up then sendNak s p else s
  else if k.cond != .up then
    if badFormat s p f then formatDrop s p
    else match f.body with | .ctl (.hello _ _ _) => localFrame s p f | _ => s
  else if !replayed f then
    freeBuffer (if badFormat s p f then formatDrop s p else localFrame (takeLinkWord s p f) p f) p 0 (frameCredits f)
  else
    let d := dmod 16 f.lseq.toNat k.rxSeq
    if d ≥ 32768 then s
    else if d ≠ 0 then sendNak s p
    else
      let s := (takeLinkWord s p f).modPort p (fun k => { k with rxSeq := wrap 16 (k.rxSeq + 1), nakSent := false })
      let s := if k.ver = 1 then sendCtl s p (.ack f.lseq) else s
      if badFormat s p f then freeBuffer (formatDrop s p) p f.vc.toNat (frameCredits f)
      else if f.vc = 7 then circuitFrame s p f
      else handleFrame s f p

/-- What a port at a near loopback sends comes back in through it (R370, R373). -/
def loopBack (s : State) (p : Nat) (f : FabFrame) : State := if nearLoop s p then receiveFrame s p f else s

end Sys2Proof.Machine
end

