-- ==== Sys2Proof/Machine/Fabric.lean ====
section
/-! DEFINITION. The commands of the fabric ports and of routing (chapter 7). -/

namespace Sys2Proof.Machine

/-! ### Frames -/

/-- A port takes what comes from outside: it is in service and not in loopback (R371). -/
def fromLine (s : State) (p : Nat) : Bool := s.inService && loopOf s p == 0

/-- FABRIC_FRAME_RECEIVED (R196). -/
def execFabricFrameReceived (port : BitVec 4) (frame : FabFrame) (s : State) : Host.Outcome State Fault Refusal :=
  .next (if fromLine s port.toNat then receiveFrame s port.toNat frame else s)

/-- The next frame a port starts goes, of a replay or of its queues (R196, R208): when the port is free again. -/
def startEgress (s : State) (p : Nat) : State :=
  if !s.inService || isEth s p || (s.port p).cond != .up || portMute s p then s else
  let t := forEach (List.range 7) (noteStalls (noteWaits (s.arriveAt (s.port p).busyUntil) p) p) (sendCredit p)
  let r := match pickAgain t p with
    | some q => some (startAgain t p q)
    | none => match pickFrame t p with
      | some (q, turn, d) => some (startFrame t p q turn d)
      | none => none
  match r with
  | none => noteStalls (noteWaits s p) p
  | some r => match r.out with
    | .frame _ f :: _ => noteStalls (loopBack r p f) p
    | _ => r

/-- EGRESS_FRAME_START (R208). -/
def execEgressFrameStart (port : BitVec 4) (s : State) : Host.Outcome State Fault Refusal :=
  .next (startEgress s port.toNat)

/-- End of the sheet of a port now, or the origin of its schedule while that lies ahead (R24). -/
def nextBoundary (s : State) (p : Nat) : Option Nat :=
  match portSheet s p s.now with
  | some x => some x.stop
  | none => (schedOf s p).map (fun _ => s.plans.activeF)

/-- A sheet boundary of a port is reached (R24): what its queues may start changes with the time. -/
def reachSheet (s : State) (p : Nat) : State :=
  match nextBoundary s p with
  | some t => noteWaits (s.arriveAt t) p
  | none => s

/-- SHEET_START (R24). -/
def execSheetStart (port : BitVec 4) (s : State) : Host.Outcome State Fault Refusal := .next (reachSheet s port.toNat)

/-! ### Link control -/

/-- HELLO (R194). -/
def execHello (port : BitVec 4) (src : BitVec 18) (verMax : Byte) (nbrPort : BitVec 4) (planId : Word) (s : State) :
    Host.Outcome State Fault Refusal :=
  .next (if fromLine s port.toNat
    then ctlIn s port.toNat (fun s => helloIn s port.toNat src.toNat verMax.toNat nbrPort.toNat planId) else s)

/-- The next HELLO of a port is due (R194): every 10 µs until UP, every millisecond while UP. -/
def helloDue (s : State) (p : Nat) : State :=
  let k := s.port p
  if !s.inService || isEth s p || k.cond == .down || portMute s p then s
  else
    let s := s.arriveAt (k.lastHello + (if k.cond == .up then 1000000 else 10000))
    let s := s.modPort p (fun k => { k with lastHello := s.now })
    if k.cond == .up then sendCtl s p (helloOf s p)
    else loopBack (sendCtl s p (helloOf s p)) p (ctlFrame s p (helloOf s p))

/-- HELLO_TIMER (R194). -/
def execHelloTimer (port : BitVec 4) (s : State) : Host.Outcome State Fault Refusal := .next (helloDue s port.toNat)

/-- LINK_ACK (R194, R196). -/
def execLinkAck (port : BitVec 4) (lseq : BitVec 16) (s : State) : Host.Outcome State Fault Refusal :=
  .next (if fromLine s port.toNat && (s.port port.toNat).cond == .up
    then ctlIn s port.toNat (fun s => ackFrames s port.toNat lseq.toNat) else s)

/-- LINK_NAK (R196). -/
def execLinkNak (port : BitVec 4) (lseq : BitVec 16) (s : State) : Host.Outcome State Fault Refusal :=
  .next (if fromLine s port.toNat && (s.port port.toNat).cond == .up
    then ctlIn s port.toNat (fun s => nakIn s port.toNat lseq.toNat) else s)

/-- CREDIT (R198). -/
def execCredit (port : BitVec 4) (vc : BitVec 3) (amount : BitVec 16) (s : State) : Host.Outcome State Fault Refusal :=
  .next (if fromLine s port.toNat && (s.port port.toNat).cond == .up
    then ctlIn s port.toNat (fun s => noteStalls (addCredits s port.toNat vc.toNat amount.toNat) port.toNat) else s)

/-! ### Replay, retraining and bring-up -/

/-- No acknowledgement has advanced for REPLAY_TO (R196). -/
def replayLate (s : State) (p : Nat) : State :=
  let k := s.port p
  if k.cond != .up || k.replay.isEmpty || !k.again.isEmpty then s
  else replayOr (s.arriveAt (k.progressAt + max 1000 (fld k.cfg 47 32))) p none

/-- REPLAY_TIMEOUT (R196). -/
def execReplayTimeout (port : BitVec 4) (s : State) : Host.Outcome State Fault Refusal := .next (replayLate s port.toNat)

/-- PCS alignment has been lost for 10 µs (R195). -/
def pcsLost (s : State) (p : Nat) : State :=
  match (s.port p).cond with
  | .up => fabRetrain s p
  | .retrain => s.modPort p (fun k => { k with aligned := false })
  | _ => s

/-- PCS_ALIGNMENT_LOSS (R195). -/
def execPcsAlignmentLoss (port : BitVec 4) (s : State) : Host.Outcome State Fault Refusal := .next (pcsLost s port.toNat)

/-- RETRAIN_MAX has elapsed in RETRAIN (R195). -/
def retrainOver (s : State) (p : Nat) : State :=
  let k := s.port p
  if k.cond != .retrain then s
  else portDown (s.arriveAt (k.since + max 1 (fld k.cfg 63 48) * 1000)) p false

/-- RETRAIN_MAX_EXPIRY (R195). -/
def execRetrainMaxExpiry (port : BitVec 4) (s : State) : Host.Outcome State Fault Refusal := .next (retrainOver s port.toNat)

/-- A port that went DOWN a millisecond ago trains again (R193). -/
def trainAgain (s : State) (p : Nat) : State :=
  if !s.inService || (s.port p).cond != .down || !fabMayTrain s p then s
  else startTraining (s.arriveAt ((s.port p).since + 1000000)) p

/-- FABRIC_RETRAIN_TIMER (R193). -/
def execFabricRetrainTimer (port : BitVec 4) (s : State) : Host.Outcome State Fault Refusal := .next (trainAgain s port.toNat)

/-! ### Configuration -/

/-- The port's link is not DOWN: a fabric link in training or beyond, or a sub-port that is up. -/
def portAlive (s : State) (p : Nat) : Bool :=
  if isEth s p then (s.ethPort p).subs.vals.any (·.up) else (s.port p).cond != .down

/-- A write of EN = 0 takes the port's link DOWN (R193, R195): buffers are discarded, LINK alternates are
triggered (R332), and no fault is logged. -/
def disablePort (s : State) (p : Nat) : State :=
  if isEth s p then forEach ((List.range 4).filter (fun i => (subOf (s.ethPort p) i).up)) s (fun s i => subDown s p i)
  else if (s.port p).cond == .down then s
  else linkTriggered (fabDown s p true) p s.now

/-- What FLL_CFG takes for a value (R222): RETRAIN_MAX 0 is 1, REPLAY_TO below 1,000 is 1,000, and a VER_MAX
other than 1 and 2 is 2 (log entry 51). -/
def fllValue (v : Word) : Word :=
  let ver := fld v 5 4
  setFld (setFld (setFld v 63 48 (max 1 (fld v 63 48))) 47 32 (max 1000 (fld v 47 32))) 5 4 (if ver = 1 then 1 else 2)

/-- FLL_CFG is written (R193, R222): MODE and VER_MAX change only with the port down and EN 0, or with the
write that clears EN. -/
def writeFllCfg (s : State) (p : Nat) (v : Word) : State :=
  let old := (s.port p).cfg
  let free := !bit v 1 || (!bit old 1 && !portAlive s p)
  let s := if bit v 1 then s else disablePort s p
  let fields := [(63, 48), (47, 32), (1, 1)] ++ (if free then [(5, 4), (0, 0)] else [])
  let s := s.modPort p (fun k => { k with cfg := merge fields k.cfg v })
  if s.inService && fabMayTrain s p && (s.port p).cond == .down then startTraining s p else s

/-- FLL_CFG_WRITE (R193). -/
def execFllCfgWrite (link : BitVec 2) (port : BitVec 4) (value : Word) (s : State) : Host.Outcome State Fault Refusal :=
  .next (ctlWrite s link.toNat (0x60000 + 0x100 * port.toNat) [(31, 6), (3, 2)] value
    (fun s => settle (writeFllCfg s port.toNat (fllValue value))))

/-- A plan slot holds a plan. -/
def holdsPlan (s : State) : Bool := s.plans.active.isSome || s.plans.nextCond != .empty

/-- FAB_NODE is written (R222): NODE stands while a plan is held, SET once set stays until a cold boot. -/
def writeFabNode (s : State) (v : Word) : State :=
  let was := bit s.routing.node 18
  let s := s.modRouting (fun r => { r with
    node := reg [(18, 18, (bit r.node 18 || bit v 18).toNat), (17, 0, if holdsPlan s then fld r.node 17 0 else fld v 17 0)] })
  if was then s
  else forEach ((List.range 16).filter (fun p => fabMayTrain s p && (s.port p).cond == .down)) s startTraining

/-- FAB_NODE_WRITE (R222). -/
def execFabNodeWrite (link : BitVec 2) (value : Word) (s : State) : Host.Outcome State Fault Refusal :=
  .next (ctlWrite s link.toNat 0x61000 [(63, 19)] value (fun s => writeFabNode s value))

/-- A VC0 frame that has waited VC0_HOLD for credit is dropped (R199). -/
def holdOver (s : State) (p : Nat) : State :=
  let k := s.port p
  match k.queues.findD 0 [] with
  | [] => s
  | q :: _ =>
    if isEth s p || decide (frameCredits q.frame ≤ k.credits.findD 0 0) then s
    else
      let s := s.arriveAt (q.since + max 1 (fld s.routing.cfg 31 16) * 1000)
      let s := s.modPort p (fun k => { k with queues := k.queues.modifyD 0 [] (dropQueued q) })
      freeBuffer (s.modCnt p (fun c => { c with vc0Drop := wrap 16 (c.vc0Drop + 1) })) q.arr q.arrVc (frameCredits q.frame)

/-- VC0_HOLD_EXPIRY (R199). -/
def execVc0HoldExpiry (port : BitVec 4) (s : State) : Host.Outcome State Fault Refusal := .next (holdOver s port.toNat)

/-! ### Banks -/

/-- ROUTE_BANKS.CODE. -/
def routeCode (s : State) (c : Nat) : State := s.modRouting (fun r => { r with code := c })

/-- A bank is STAGED or ARMED. -/
def stagedOrArmed (b : Bank) : Bool := b.cond == .staged || b.cond == .armed

/-- ROUTE_CMD COPY (R217). -/
def copyBank (s : State) : State :=
  match injectBank s with
  | none => routeCode s St.planMismatch
  | some b =>
    if (bankOf s.routing (!b)).cond == .retired && s.plans.nextCond == .empty then
      routeCode (s.modBank (!b) (fun _ => { cond := .staged, sets := (bankOf s.routing b).sets, mgr := true, drainFrom := 0 })) St.ok
    else routeCode s St.planMismatch

/-- A write of ROUTE_CMD that names a command runs `f`; one that names another is not this row's (log entry
21). -/
def routeRow (s : State) (l : Nat) (v : Word) (cmd : Nat) (f : State → State) : State :=
  if fld v 7 0 ≠ cmd then s else ctlWrite s l 0x61018 [(63, 8)] v f

/-- ROUTE_COPY (R217). -/
def execRouteCopy (link : BitVec 2) (value : Word) (s : State) : Host.Outcome State Fault Refusal :=
  .next (routeRow s link.toNat value 1 copyBank)

/-- ROUTE_CMD DISCARD (R217): of the manager's bank, while STAGED or before F − 1 ms. -/
def discardBank (s : State) : State :=
  match [false, true].find? (fun b => stagedOrArmed (bankOf s.routing b)) with
  | none => routeCode s St.planMismatch
  | some b =>
    let k := bankOf s.routing b
    let late := match s.routing.tableFront with | some f => decide (f ≤ s.now + 1000000) | none => false
    if !k.mgr || (k.cond == .armed && late) then routeCode s St.planMismatch
    else routeCode ((s.modBank b (fun _ => Bank.reset)).modRouting (fun r => { r with tableFront := none })) St.ok

/-- ROUTE_DISCARD (R217). -/
def execRouteDiscard (link : BitVec 2) (value : Word) (s : State) : Host.Outcome State Fault Refusal :=
  .next (routeRow s link.toNat value 2 discardBank)

/-- Fields of ROUTE_TBL_SEL (R222). -/
def selBank (s : State) : Bool := bit s.routing.sel 40
def selSet (s : State) : Nat := fld s.routing.sel 36 32
def selTable (s : State) : Nat := fld s.routing.sel 29 28
def selIndex (s : State) : Nat := fld s.routing.sel 9 0

/-- INDEX advances after an access of ROUTE_TBL_DATA when AUTO_INC is set (R222). -/
def advanceSel (s : State) : State :=
  if bit s.routing.sel 31 then s.modRouting (fun r => { r with sel := setFld r.sel 9 0 (selIndex s + 1) }) else s

/-- The selection names an entry that exists. -/
def selValid (s : State) : Bool :=
  decide (selSet s ≤ 16) && (selTable s == 2 || (decide (selTable s ≤ 1) && decide (selIndex s ≤ 511)))

/-- Store one entry or bitmap word in a set. -/
def storeEntry (r : RouteSet) (table i : Nat) (v : Word) : RouteSet :=
  if table = 0 then { r with group := r.group.put i (v.setWidth 32) }
  else if table = 1 then { r with member := r.member.put i (v.setWidth 32) }
  else { r with keys := r.keys.put i v }

/-- ROUTE_TBL_DATA is written (R217, R222): into the manager's STAGED bank, or into a RETIRED bank that it
stages. -/
def writeTable (s : State) (v : Word) : State :=
  let b := selBank s
  let k := bankOf s.routing b
  let may := s.plans.nextCond == .empty && selValid s
    && ((k.cond == .staged && k.mgr) || (k.cond == .retired && !stagedOrArmed (bankOf s.routing (!b))))
  let put := fun (k : Bank) => { k with
    cond := .staged, mgr := true
    sets := k.sets.modifyD (selSet s) ⟨Tbl.empty, Tbl.empty, Tbl.empty⟩ (fun r => storeEntry r (selTable s) (selIndex s) v) }
  advanceSel (if may then s.modBank b put else s)

/-- ROUTE_TBL_DATA_WRITE (R217). -/
def execRouteTblDataWrite (link : BitVec 2) (value : Word) (s : State) : Host.Outcome State Fault Refusal :=
  .next (ctlWrite s link.toNat 0x61030 [] value (fun s => writeTable s value))

/-- The value ROUTE_TBL_DATA reads (R222). -/
def tableData (s : State) : Word :=
  let r := routeSet s (selBank s) (selSet s)
  if !selValid s then 0
  else if selTable s = 0 then (r.group.findD (selIndex s) 0).setWidth 64
  else if selTable s = 1 then (r.member.findD (selIndex s) 0).setWidth 64
  else r.keys.findD (selIndex s) 0

/-- A register read over a link under R296. -/
def ctlRead (s : State) (l a : Nat) (f : State → Word × State) : State :=
  if !arrives s l then (if readsZero s l then s.sent (.regRead l 0) else s)
  else if !serves s l a then (refuseAccess s l a false).sent (.regRead l 0)
  else let r := f s; r.2.sent (.regRead l r.1)

/-- ROUTE_TBL_DATA_READ (R222). -/
def execRouteTblDataRead (link : BitVec 2) (s : State) : Host.Outcome State Fault Refusal :=
  .next (ctlRead s link.toNat 0x61030 (fun s => (tableData s, advanceSel s)))

/-- TABLE_FRONT is written (R218). -/
def armTable (s : State) (v : Word) : State :=
  let f := v.toNat
  match [false, true].find? (fun b => (bankOf s.routing b).cond == .staged && (bankOf s.routing b).mgr) with
  | none => routeCode s St.planMismatch
  | some b =>
    if s.plans.nextCond == .empty && f % 256 == 0 && decide (s.now + 10000000 ≤ f) then
      routeCode ((s.modBank b (fun k => { k with cond := .armed })).modRouting (fun r => { r with tableFront := some f })) St.ok
    else routeCode s St.planMismatch

/-- TABLE_FRONT_WRITE (R218). -/
def execTableFrontWrite (link : BitVec 2) (value : Word) (s : State) : Host.Outcome State Fault Refusal :=
  .next (ctlWrite s link.toNat 0x61020 [] value (fun s => armTable s value))

/-- A draining bank is cleared DRAIN_BOUND after the switch (R217). -/
def drainBank (s : State) : State :=
  match [false, true].find? (fun b => (bankOf s.routing b).cond == .drain) with
  | none => s
  | some b => (s.arriveAt ((bankOf s.routing b).drainFrom + bankDrain s)).modBank b (fun _ => Bank.reset)

/-- BANK_DRAIN_BOUND (R217). -/
def execBankDrainBound (s : State) : Host.Outcome State Fault Refusal := .next (drainBank s)

end Sys2Proof.Machine
end

