-- ==== Sys2Proof/Machine/BootOps.lean ====
section
/-! DEFINITION. Shared operations of boots (chapter 14): the checks of an image (R344), what a cold and a
warm reset leave (R335, R339, R340), and the phases of a boot. -/

namespace Sys2Proof.Machine

/-! ### The image (R342, R344) -/

/-- A header field of an image that names a version. -/
def imageVersion (b : List Byte) : Word := BitVec.ofNat 64 (leAt b 0x10 8)
def imageSvn (b : List Byte) : Nat := leAt b 0x0C 4
def bodyLength (b : List Byte) : Nat := leAt b 0x18 8

/-- Largest image, 32 MiB (R341). -/
def imageMax : Nat := 32 * 2 ^ 20

/-- The first check of R344 that an image fails: the layout, ROOT_HASH, the signer's revocation, the two
signatures, the security version, the body's hash. -/
def verifyFail (s : State) (b : List Byte) : Option Nat :=
  if slice b 0 4 ≠ [0x5A, 0x4E, 0x46, 0x57] ∨ leAt b 4 2 ≠ 1 ∨ leAt b 6 2 ≠ 512 ∨ leAt b 8 4 ≠ 0x9768
      ∨ !zeroAt b 0x81 7 ∨ !zeroAt b 0x108 184 ∨ 512 + bodyLength b > imageMax then some 1
  else if sm3 (slice b 0x40 64) ≠ Config.rootHash then some 2
  else if leAt b 0x80 1 > 15 ∨ s.boot.keyRevoke.getLsbD (leAt b 0x80 1) then some 3
  else if !Config.sm2Verify (slice b 0x40 64) (slice b 0x80 0x48) (slice b 0xC8 64) then some 4
  else if !Config.sm2Verify (slice b 0x88 64) (slice b 0 0x1C0) (slice b 0x1C0 64) then some 5
  else if imageSvn b < s.boot.fuseSvn ∨ imageSvn b > 128 then some 6
  else if sm3 (slice b 512 (bodyLength b)) ≠ BitVec.ofNat 256 (beVal (slice b 0x20 32)) then some 7
  else none

/-! ### A cold reset -/

/-- At a cold boot a row that holds an uncorrectable word is repaired, and its contents are lost (R250); an injected error
wears out no row (R376). -/
def repairBad (s : State) : State :=
  let rows := ((s.hbm.bad.filter (fun w => !s.hbm.injected.contains w)).map (fun w => (stackOf s.hbm (w * 8), rowOf s.hbm (w * 8)))).eraseDups
  forEach rows s (fun s r => repairRow s r.1 r.2 false)

/-- What is left when power is removed or a cold reset is taken (R339, R394): the fuses, the repairs, the
metering island, companion memory, and the pins. HBM contents are lost (R392). -/
def coldState (s : State) : State :=
  let s := repairBad (countGranules s)
  { State.reset with
    pending := s.pending, draw := s.draw, out := s.out
    board0 := s.board0, board1 := s.board1, board2 := s.board2, board3 := s.board3
    hbm := { Hbm.reset with
      live := ~~~s.hbm.retired, retired := s.hbm.retired, dead := s.hbm.dead, repaired := s.hbm.repaired
      perStack := s.hbm.perStack.mapCells (fun n k => { Stack.reset n with spare := k.spare }) }
    mtr := { s.mtr with ring := [], lastClose := 0, gmsAt := 0 }
    pins := { s.pins with i3cDyn := none, gpio := Tbl.empty }
    boot := { Boot.reset with
      haltFuse := s.boot.haltFuse, haltStep := s.boot.haltStep, fuseSvn := s.boot.fuseSvn
      keyRevoke := s.boot.keyRevoke, flash := s.boot.flash } }

/-! ### A warm reset (R335) -/

/-- A Pomel link goes DOWN at a warm reset, with an epoch bump if it was UP or RETRAIN (R272); what lay
behind it is lost with every queue and segment. -/
def warmLink (s : State) (l : Nat) : State :=
  let k := s.link l
  let bump := k.cond == .up || k.cond == .retrain
  let e := if bump then (k.epoch + 1) % 256 else k.epoch
  let s := s.modLink l (fun k => { PLink.reset with cfg := k.cfg, used := k.cfg, since := s.now, epoch := e })
  if bump then raiseFault s 0x05 0x08 (32 + l) 0xFF l (BitVec.ofNat 32 e) else s

/-- FINAL records of instances 1 to 127, and zero over the pool regions they held (R302, R366). -/
def warmInst (s : State) (i : Nat) : State :=
  if i = 0 then s else
  let s := if (s.inst i).st == .free then s else finalRecord s i
  forEach (s.inst i).res s (fun s c => if c.kind = 0x06 then hbmZero s (c.first * gran) (c.count * gran) else s)

/-- A copy in progress is abandoned at a warm reset (R267). -/
def warmCouch (s : State) (r : Nat) : State := couchFail s r ⟨St.flushed, 0, 0⟩

/-- The time unit across a warm reset: its count and the registers R35 keeps. -/
def warmTime (t : TimeUnit) : TimeUnit :=
  { TimeUnit.reset with
    now := t.now, ctrl := t.ctrl, ppsCfg := t.ppsCfg, epoch := t.epoch, everLocked := t.everLocked
    ports := t.ports.mapCells (fun _ p => { PtpPort.reset with cfg := p.cfg }) }

/-- The log and the recorded alternates are kept; those applied wait to be applied again (R335). -/
def warmFaults (f : Faults) : Faults :=
  { Faults.reset with
    log := f.log, raised := f.raised, nextSeq := f.nextSeq, oldest := f.oldest, overwritten := f.overwritten
    pending := f.pending, classCount := f.classCount, expiries := f.expiries, coreCause := f.coreCause
    causesBefore := f.causesBefore, rises := f.rises
    alts := f.alts.mapCells (fun _ r => if r.cond = .applied then { r with cond := .pending } else r) }

/-- HBM across a warm reset: the map, the marks, the words and their errors are kept. -/
def warmHbm (h : Hbm) : Hbm :=
  { h with
    cfg := Hbm.reset.cfg, passes := 0, position := 0, ueScrub := false, ueStack := 0, ueAddr := 0, scrubRows := []
    perStack := h.perStack.mapCells (fun _ k => { k with corrected := 0, uncorrected := 0, retrains := 0 }) }

/-- The device at the assertion of a warm reset: everything R335 does not keep takes its reset value. -/
def warmState (s : State) : State :=
  let s := forEach s.insts.keys (countGranules s) warmInst
  let s := forEach s.couch.keys s warmCouch
  let s := forEach [0, 1, 2, 3] s warmLink
  { State.reset with
    pending := s.pending, draw := s.draw, out := s.out
    time := warmTime s.time
    plans := { s.plans with oldClaims := [], oldDescs := [], oldCouch := [], oldScheds := [], oldCircuits := []
                            drainAt := none, lateCause := false }
    ports := s.ports.mapCells (fun _ k => { Port.reset with cfg := k.cfg, since := s.now })
    routing := { Routing.reset with bank0 := s.routing.bank0, bank1 := s.routing.bank1, node := s.routing.node
                                    tableFront := s.routing.tableFront }
    eth := { Eth.mk Tbl.empty 0 0 with ports := s.eth.ports.mapCells (fun _ e => { EthPort.reset with cfg := e.cfg }) }
    hbm := warmHbm s.hbm
    mem := s.mem, board0 := s.board0, board1 := s.board1, board2 := s.board2, board3 := s.board3
    couch := s.couch, links := s.links
    insts := ⟨[(0, { Inst.manager with res := (s.inst 0).res })]⟩
    pwr := { Power.reset with tj := s.pwr.tj }
    flt := warmFaults s.flt
    boot := s.boot, mtr := s.mtr
    tst := { Test.reset with jtag := s.tst.jtag }
    pins := s.pins }

/-! ### The phases of a boot (R340) -/

/-- A reset input holds the boot. -/
def bootHeld (s : State) : Bool := s.pins.porstLow || s.pins.wrstLow || s.pins.refclkLost

/-- A check of the image fails: the halt fuse is blown (R345). -/
def haltBoot (s : State) (step : Nat) : State :=
  s.modBoot (fun b => { b with phase := .bootHalt, haltFuse := true, haltStep := step })

/-- 1 ms in nanoseconds. -/
def ms : Nat := 1000000

/-- The link phase: Pomel links with EN = 1 enter TRAINING, and network ports with EN = 1 begin theirs. -/
def linkPhase (s : State) : State :=
  let s := forEach ((List.range 4).filter (boardMayTrain s)) s boardTrain
  forEach ((List.range 16).filter (fun p => fabMayTrain s p && (s.port p).cond == .down)) s startTraining

/-- The image has passed: its identity is taken, the body goes into the code region, which is locked until the next boot
(R346), and the boot reaches the link phase. -/
def imageGood (s : State) (b : List Byte) : State :=
  let s := s.modBoot (fun k => { k with
    verified := true, waitFlash := 0, running := imageVersion b, runningSvn := imageSvn b
    flashVersion := imageVersion b, flashSvn := imageSvn b, headerHash := sm3 (b.take 512), bootSvn := k.fuseSvn
    code := slice b 512 (bodyLength b), codeLocked := true })
  linkPhase (s.arriveAt (s.boot.startedAt + 300 * ms))

/-- The boot ROM reads the flash and checks what it finds (R341, R344). -/
def readFlash (s : State) : State :=
  match s.boot.flash with
  | .absent => s.modBoot (fun b => { b with waitFlash := 1 })
  | .blank => s.modBoot (fun b => { b with waitFlash := 2 })
  | .image b => match verifyFail s b with
    | some k => haltBoot s k
    | none => imageGood s b

/-- A warm boot that finds a write of the flash unfinished writes it from the staged copy, if that still
passes (R351). -/
def repairFlash (s : State) : State :=
  if (s.boot.stage == .writing || s.boot.stage == .failed) && (verifyFail s s.boot.staged).isNone
  then s.modBoot (fun b => { b with flash := .image b.staged, repaired := true, bytesWritten := b.staged.length, attempts := 1 })
  else s

/-- A boot begins at the release of the last reset input: warm while HBM is valid, else cold (R340). -/
def beginBoot (s : State) : State :=
  let warm := s.boot.hbmValid
  let n := s.draw
  let s := ({ s with draw := n + 1 }).modBoot (fun b => { b with
    wrapKey := Config.bootKey n, phase := .boot, startedAt := s.now, verified := false, warm := warm, kindWarm := warm, waitFlash := 0
    codeLocked := false, repaired := false, haltStep := 0, warmBoots := if warm then wrap 32 (b.warmBoots + 1) else 0 })
  readFlash (if warm then repairFlash s else s)

/-- A reset input is released: the boot begins once none holds it. -/
def released (s : State) : State := if s.boot.phase == .boot && !bootHeld s then beginBoot s else s

/-- WRST_N is asserted, by its pin or by the loss of REFCLK_SYS (R339, R395, R399). -/
def warmAsserted (s : State) : State :=
  match s.boot.phase with
  | .service => (warmState s).modBoot (fun b => { b with phase := .boot, verified := false })
  | .boot =>
    if s.boot.hbmValid then (warmState s).modBoot (fun b => { b with verified := false, waitFlash := 0 })
    else { coldState s with time := s.time, boot := { (coldState s).boot with phase := .boot } }
  | .off => s
  | .bootHalt => s

/-! ### The end of a boot -/

/-- A table front that passed during a warm reset takes effect, and a bank that was draining is retired
(R220). -/
def warmRouting (s : State) : State :=
  let s := match s.routing.tableFront, [false, true].find? (fun b => (bankOf s.routing b).cond == .armed) with
    | some f, some b => if f ≤ s.now then (moveInjection s b).modRouting (fun r => { r with tableFront := none }) else s
    | _, _ => s
  forEach [false, true] s (fun s b => s.modBank b (fun k => if k.cond == .drain then Bank.reset else k))

/-- The granules of a claim of a plan kept, active or next, come back zeroed in the mode of its ATTR (R54). -/
def warmClaim (s : State) (c : Claim) : State :=
  if c.kind = 0x04 then forEach (rangeFrom c.first c.count) s (fun s g => initGranule s g (c.attr % 2 == 1)) else s

/-- A warm boot re-checks the plan store; what a plan kept holds comes back (R54, R335). -/
def warmPlans (s : State) : State :=
  let s := recheckPlans s
  let s := forEach (activeClaims s ++ nextClaims s) s warmClaim
  let descs := match s.plans.active with | some p => p.descs | none => []
  startBuckets (forEach descs s (fun s d => takeDescriptor s d.slot d))

/-- The device is in service from now on. -/
def enterService (s : State) : State :=
  newGeneration (((s.modBoot (fun b => { b with phase := .service, hbmValid := true, stage := .none, staged := [] })).modPwr
    (fun p => { p with lastPeriod := periodStart s.now })).modPlans (fun x => { x with bootAt := s.now })) 0

/-- A cold boot has initialised every word of HBM, and each stack shows its spare rows (R250). -/
def initHbm (s : State) : State :=
  { s with mem := [], hbm := { s.hbm with
      bad := [], soft := [], injected := []
      perStack := ⟨(List.range 12).map (fun n => (n, { s.stack n with sparesLeft := (s.stack n).spare }))⟩ } }

/-- Bring-up ends and the mailbox doors open (R339, R340). -/
def endBoot (s : State) : State :=
  if s.boot.phase != .boot || !s.boot.verified || bootHeld s then s
  else if s.boot.warm then settleSteps (warmPlans (warmRouting (enterService (s.arriveAt (s.boot.startedAt + 1480 * ms)))))
  else settleSteps (initHbm (enterService (s.arriveAt (s.boot.startedAt + 5900 * ms))))

end Sys2Proof.Machine
end

