-- ==== Sys2Proof/Machine/Boot.lean ====
section
/-! DEFINITION. The commands of resets and boots (chapters 14 and 17) and of firmware and attestation
(chapter 14). -/

namespace Sys2Proof.Machine

/-! ### Reset inputs, rails, clock and temperature -/

/-- A cold reset with its change of the pins: the ball functions and the dynamic I3C address are gone (R386, R401). -/
def coldPins (s : State) (f : Pins → Pins) : State := { coldState s with pins := f (coldState s).pins }

/-- PORST_N is released (R339, R394, R397): the strap is sampled, fabric time restarts at 0 (R33), and a cold
boot begins, or BOOT_HALT where the halt fuse is blown. -/
def porstReleased (s : State) (flash : Flash) (strap : Nat) : State :=
  if !s.pins.porstLow then s
  else
    let s := coldPins s (fun p => { p with porstLow := false, offByFault := false, strap := strap })
    let s := s.modBoot (fun b => { b with flash := flash })
    if s.boot.haltFuse then s.modBoot (fun b => { b with phase := .bootHalt })
    else released (s.modBoot (fun b => { b with phase := .boot }))

/-- PORST_N_RELEASE (R339). -/
def execPorstNRelease (flash : Flash) (strap : BitVec 2) (s : State) : Host.Outcome State Fault Refusal :=
  .next (porstReleased s flash strap.toNat)

/-- PORST_N goes low: for 10 µs or more it is a cold reset, and ends a thermal trip; a shorter low has no
effect (R394, R411). -/
def porstAsserted (s : State) (lowNs : Nat) : State :=
  if lowNs < 10000 then s
  else coldPins s (fun p => { p with porstLow := true, thermTrip := false })

/-- PORST_N_ASSERT (R394). -/
def execPorstNAssert (lowNs : Nat) (s : State) : Host.Outcome State Fault Refusal := .next (porstAsserted s lowNs)

/-- Every 1 s while the flash is absent or blank the boot tries again (R341). -/
def retryFlash (s : State) (flash : Flash) : State :=
  if s.boot.phase != .boot || s.boot.waitFlash == 0 || bootHeld s then s
  else
    let s := s.arriveAt (s.now + 1000 * ms)
    readFlash (s.modBoot (fun b => { b with flash := flash, startedAt := s.now, waitFlash := 0 }))

/-- FLASH_RETRY (R341). -/
def execFlashRetry (flash : Flash) (s : State) : Host.Outcome State Fault Refusal := .next (retryFlash s flash)

/-- BOOT_COMPLETE (R339). -/
def execBootComplete (s : State) : Host.Outcome State Fault Refusal := .next (endBoot s)

/-- WRST_N is low: a warm reset begins, unless PORST_N governs or the device is OFF or in BOOT_HALT (R339,
R395, R396). One that is asserted already changes nothing. -/
def wrstAsserted (s : State) : State :=
  if s.pins.porstLow || s.pins.wrstLow then { s with pins := { s.pins with wrstLow := true } }
  else
    let s := if s.pins.refclkLost then s else warmAsserted s
    { s with pins := { s.pins with wrstLow := true } }

/-- WRST_N_ASSERT (R395). -/
def execWrstNAssert (s : State) : Host.Outcome State Fault Refusal := .next (wrstAsserted s)

/-- WRST_N is released: the warm boot begins, or waits for the clock (R395, R396). -/
def wrstReleased (s : State) : State :=
  if !s.pins.wrstLow then s else released { s with pins := { s.pins with wrstLow := false } }

/-- WRST_N_RELEASE (R340). -/
def execWrstNRelease (s : State) : Host.Outcome State Fault Refusal := .next (wrstReleased s)

/-- A main rail is below its band for 10 µs: OFF until PORST_N is asserted and released (R392). -/
def railLost (s : State) : State := coldPins s (fun p => { p with offByFault := true })

/-- RAIL_LOSS (R392). -/
def execRailLoss (s : State) : Host.Outcome State Fault Refusal := .next (railLost s)

/-- REFCLK_SYS stops or leaves its range for 1 µs: as WRST_N asserted (R399). -/
def refclkStops (s : State) : State :=
  if s.pins.refclkLost then s
  else
    let s := if s.pins.wrstLow || s.pins.porstLow then s else warmAsserted s
    { s with pins := { s.pins with refclkLost := true } }

/-- REFCLK_SYS_LOSS (R399). -/
def execRefclkSysLoss (s : State) : Host.Outcome State Fault Refusal := .next (refclkStops s)

/-- REFCLK_SYS has been in range for 1 ms: the internal assertion ends (R399). -/
def refclkReturns (s : State) : State :=
  if !s.pins.refclkLost then s else released { s with pins := { s.pins with refclkLost := false } }

/-- REFCLK_SYS_RECOVERY (R399). -/
def execRefclkSysRecovery (s : State) : Host.Outcome State Fault Refusal := .next (refclkReturns s)

/-- The package trips: OFF, with THERMTRIP_N low until PORST_N is asserted (R411). -/
def tripped (s : State) : State :=
  if s.boot.phase == .off then s
  else coldPins s (fun p => { p with offByFault := true, thermTrip := true })

/-- THERMAL_TRIP (R411). -/
def execThermalTrip (s : State) : Host.Outcome State Fault Refusal := .next (tripped s)

/-! ### Staging an update (R347 to R352) -/

/-- OP of an FW_STAGE request. -/
def stageOp (s : State) (d : Door) : Nat := reqFld s d 8 1

/-- A refused operation answers MALFORMED; a refused LOAD names its step in word 1 (R347). -/
def stageRefused (s : State) (d : Door) (step : Nat) : State := answer s d St.malformed [reg [(7, 0, step)]]

/-- The step of R348 that a LOAD fails: 8 for its address or length, else that of R344. -/
def loadFail (s : State) (addr len : Nat) (b : List Byte) : Option Nat :=
  if addr % 64 ≠ 0 ∨ addr + len > hbmAvail s.hbm * gran ∨ len ≠ 512 + bodyLength b then some 8 else verifyFail s b

/-- FW_STAGE LOAD: copy the image from the pool and check it (R348). An uncorrectable word in the range is
refused as an address that cannot be read. -/
def stageLoad (s : State) (d : Door) : State :=
  let addr := reqFld s d 0x10 8
  let len := reqFld s d 0x18 8
  if s.boot.stage ≠ .none ∧ s.boot.stage ≠ .staged then answer s d St.malformed []
  else if addr % 64 ≠ 0 ∨ addr + len > hbmAvail s.hbm * gran ∨ len > imageMax then
    stageRefused s d (if len > imageMax ∧ addr % 64 = 0 ∧ addr + len ≤ hbmAvail s.hbm * gran
      then (loadFail s addr len (readBytes s.mem addr 512)).getD 8 else 8)
  else match hbmRead s addr len with
    | (s, .failed _ _, _) => stageRefused s d 8
    | (s, .done, b) => match loadFail s addr len b with
      | some k => stageRefused s d k
      | none => answer (s.modBoot (fun x => { x with stage := .staged, staged := b })) d St.ok []

/-- The row of an operation of FW_STAGE is the GO of a request that names it (log entry 21). -/
def stageRow (s : State) (d : Door) (l op : Nat) (run : State → State) : State :=
  mailRow s d l 0x0060 (fun s => if stageOp s d ≠ op then s else mailGate s d true [1] run)

/-- FW_STAGE_LOAD (R348). -/
def execFwStageLoad (door : Door) (link : BitVec 2) (s : State) : Host.Outcome State Fault Refusal :=
  .next (stageRow s door link.toNat 1 (fun s => stageLoad s door))

/-- FW_STAGE COMMIT: the write of the flash begins (R347, R349). Until it is verified the flash holds a part of an image
that the spec does not give (R351; log entry 6). -/
def stageCommit (s : State) : State × Nat :=
  if s.boot.stage ≠ .staged then (s, St.malformed)
  else (({ s with draw := s.draw + 1 }).modBoot (fun b => { b with
    stage := .writing, bytesWritten := 0, attempts := 0, flash := .image (Config.flashPart s.draw) }), St.ok)

/-- FW_STAGE_COMMIT (R349). -/
def execFwStageCommit (door : Door) (link : BitVec 2) (s : State) : Host.Outcome State Fault Refusal :=
  .next (stageRow s door link.toNat 2 (fun s => answerSt door (stageCommit s)))

/-- FW_STAGE ABORT: the staged copy is discarded (R347). -/
def stageAbort (s : State) : State × Nat :=
  if s.boot.stage ≠ .staged then (s, St.malformed)
  else (s.modBoot (fun b => { b with stage := .none, staged := [] }), St.ok)

/-- FW_STAGE_ABORT (R347). -/
def execFwStageAbort (door : Door) (link : BitVec 2) (s : State) : Host.Outcome State Fault Refusal :=
  .next (stageRow s door link.toNat 3 (fun s => answerSt door (stageAbort s)))

/-- FW_STAGE ADVANCE: fuses are blown up to SVN (R352). -/
def stageAdvance (s : State) (svn : Nat) : State × Nat :=
  let c := s.boot.stage
  if c = .staged ∨ c = .writing ∨ svn ≤ s.boot.fuseSvn ∨ svn > 128 ∨ s.boot.runningSvn < svn ∨ s.boot.flashSvn < svn
  then (s, St.malformed)
  else (s.modBoot (fun b => { b with fuseSvn := svn }), St.ok)

/-- FW_STAGE_ADVANCE (R352). -/
def execFwStageAdvance (door : Door) (link : BitVec 2) (s : State) : Host.Outcome State Fault Refusal :=
  .next (stageRow s door link.toNat 4 (fun s => answerSt door (stageAdvance s (reqFld s door 0x10 4))))

/-- A write of the flash and its read-back end: COMMITTED, another attempt, or FAILED after three (R349). -/
def flashWritten (s : State) (ok : Bool) : State :=
  if s.boot.stage ≠ .writing ∨ !s.inService then s
  else s.modBoot (fun b =>
    let b := { b with attempts := b.attempts + 1, bytesWritten := b.staged.length }
    if ok then { b with stage := .committed, flash := .image b.staged
                        flashVersion := imageVersion b.staged, flashSvn := imageSvn b.staged }
    else if b.attempts ≥ 3 then { b with stage := .failed } else b)

/-- FLASH_WRITE_COMPLETE (R349). -/
def execFlashWriteComplete (readBack : Bool) (s : State) : Host.Outcome State Fault Refusal :=
  .next (flashWritten s readBack)

/-- COND of FW_PROGRESS (R359). -/
def condCode : StageCond → Nat
  | .none => 0
  | .staged => 1
  | .writing => 2
  | .committed => 3
  | .failed => 4

/-- Words 1 to 3 of FW_QUERY's answer (R353). -/
def fwWords (s : State) : List Word :=
  [s.boot.running, s.boot.flashVersion,
   reg [(63, 56, condCode s.boot.stage), (55, 48, s.boot.runningSvn), (47, 40, s.boot.flashSvn),
        (39, 32, s.boot.fuseSvn), (31, 0, s.boot.bytesWritten)]]

/-- FW_QUERY (R353). -/
def execFwQuery (door : Door) (link : BitVec 2) (s : State) : Host.Outcome State Fault Refusal :=
  .next (mailRow s door link.toNat 0x0061 (fun s =>
    mailGate s door true [1] (fun s => answer s door St.ok (fwWords s))))

/-! ### Identity and attestation (R355 to R357) -/

/-- The AK certificate (R355). -/
def akCert (s : State) : List Byte :=
  let b := [0x5A, 0x4E, 0x41, 0x4B] ++ leBytes 4 1 ++ (Config.akPublic s.boot.headerHash s.boot.bootSvn ++ List.replicate 64 0).take 64
    ++ beBytes 32 s.boot.headerHash.toNat ++ leBytes 4 s.boot.runningSvn ++ leBytes 4 s.boot.bootSvn ++ leBytes 16 0
  b ++ signature 0 b

/-- ADDR of an identity command: 64-byte aligned in a segment of the door's instance with local write
permission (R356). -/
def reportRange (s : State) (d : Door) (addr : Word) (len : Nat) : Option Xlat :=
  if fld addr 59 0 % 64 ≠ 0 then none
  else match localRange s (doorInst d) addr len .wr with
    | .ok x => some x
    | .error _ => none

/-- Write a report to ADDR and answer (R356). -/
def report (s : State) (d : Door) (addr : Word) (len : Nat) (bytes : List Byte) (ws : List Word) : State :=
  match reportRange s d addr len with
  | none => answer s d St.localBounds []
  | some x => match xlatWrite s x 0 bytes with
    | (s, .failed st _) => answer s d st []
    | (s, .done) => retryEarly (answer s d St.ok ws)

/-- IDENTITY (R356). -/
def runIdentity (s : State) (d : Door) : State :=
  report s d (reqWord s d 1) 8192 ((Config.idCert ++ Config.caCert ++ akCert s).take 8192)
    [reg [(47, 32, (akCert s).length), (31, 16, Config.caCert.length), (15, 0, Config.idCert.length)]]

/-- IDENTITY (R356). -/
def execIdentity (door : Door) (link : BitVec 2) (s : State) : Host.Outcome State Fault Refusal :=
  .next (mailRow s door link.toNat 0x0062 (fun s => mailGate s door false [1] (fun s => runIdentity s door)))

/-- STATE of the identity record and the report (R357, R358). -/
def stateCode (s : State) : Nat :=
  match devState s with
  | .off => 0
  | .boot => 1
  | .bootHalt => 2
  | .ready => 3
  | .degraded => 4

/-- TIME_STATUS.LOCK. -/
def lockCode : Lock → Nat
  | .acquiring => 0
  | .locked => 1
  | .holdover => 2
  | .lost => 3

/-- The attestation report (R357). -/
def attestation (s : State) (nonce : List Byte) : List Byte :=
  let b := ([0x5A, 0x4E, 0x41, 0x54] : List Byte) ++ leBytes 2 1 ++ leBytes 2 256 ++ leBytes 4 0x9768 ++ leBytes 4 (reportedNode s)
    ++ nonce ++ leBytes 8 s.now ++ leBytes 1 (stateCode s) ++ leBytes 1 (lockCode s.time.lock)
    ++ leBytes 1 s.boot.kindWarm.toNat ++ leBytes 1 (causes s).toNat ++ leBytes 4 s.boot.warmBoots
    ++ leBytes 8 s.boot.running.toNat ++ beBytes 32 s.boot.headerHash.toNat ++ leBytes 8 (activeId s).toNat
    ++ beBytes 32 (match s.plans.active with | some p => p.digest.toNat | none => 0)
    ++ beBytes 32 Config.meterKeyHash.toNat ++ leBytes 1 (condCode s.boot.stage) ++ leBytes 3 0
    ++ leBytes 4 s.boot.flashSvn ++ leBytes 8 s.boot.flashVersion.toNat
  b ++ signature 1 b

/-- ATTEST (R356). -/
def runAttest (s : State) (d : Door) : State :=
  report s d (reqWord s d 5) 256 (attestation s (slice (reqBytes s d) 8 32)) []

/-- ATTEST (R357). -/
def execAttest (door : Door) (link : BitVec 2) (s : State) : Host.Outcome State Fault Refusal :=
  .next (mailRow s door link.toNat 0x0063 (fun s => mailGate s door false [1] (fun s => runAttest s door)))

end Sys2Proof.Machine
end

