-- ==== Sys2Proof/Machine/MemorySegs.lean ====
section
/-! DEFINITION. The commands of HBM and of the segments (chapter 9). -/

namespace Sys2Proof.Machine

/-! ### Segments (R255 to R257) -/

/-- The segment that SEG_BASE, SEG_CFG and SEG_KEY describe (R255). -/
def segOf (w : Window) : Seg :=
  { valid := true, draining := false, lost := false, board := bit w.segCfg 36, link := fld w.segCfg 39 38
    base := w.segBase.toNat, len := fld w.segCfg 31 0, lr := bit w.segCfg 32, lw := bit w.segCfg 33
    rr := bit w.segCfg 34, rw := bit w.segCfg 35, key := w.segKey, uses := 0 }

/-- An HBM range of granules lies in one region that a claim gives without the couch bit. -/
def inRegion (cs : List Claim) (g : Seg) : Bool :=
  cs.any (fun c => c.kind == 0x06 && c.attr % 2 == 0 && within (g.base / gran) g.len c.first c.count)

/-- Claims of the active plan for an instance. -/
def claimsFor (s : State) (i : Nat) : List Claim := (activeClaims s).filter (fun c => c.owner == i)

/-- The active plan claims a segment number for an instance (KIND 0x05). -/
def segClaimed (s : State) (i n : Nat) : Bool := covers (claimsFor s i) 0x05 n

/-- The code of SEG_CMD SET (R256). -/
def segSetCode (s : State) (i : Nat) : Nat :=
  let w := (s.inst i).win
  let g := segOf w
  let old := s.seg i w.segSel
  if old.valid || old.draining || g.base % gran != 0 || g.len == 0 then St.malformed
  else if g.board then
    (if mayUse s i g.link && ((s.link g.link).cond == .up || (s.link g.link).cond == .retrain) then St.ok else St.localBounds)
  else if !inRegion ((s.inst i).res ++ claimsFor s i) g then St.localBounds
  else if segClaimed s i w.segSel && !inRegion (claimsFor s i) g then St.planMismatch
  else St.ok

/-- A created queue or ring of the instance lies in a segment (R60). -/
def segQueued (s : State) (i n : Nat) : Bool :=
  s.queues.vals.any (fun q => q.inst == i && fld q.base 63 60 == n) || s.rings.vals.any (fun r => r.inst == i && fld r.base 63 60 == n)

/-- The code of SEG_CMD CLEAR (R256). -/
def segClearCode (s : State) (i : Nat) : Nat :=
  let n := (s.inst i).win.segSel
  if segQueued s i n then St.malformed
  else if segClaimed s i n || covers ((nextClaims s).filter (fun c => c.owner == i)) 0x05 n then St.planMismatch
  else St.ok

/-- A SEG_CMD takes effect at the end of its tick (R256): what follows it comes in the next one. -/
def segDone (s : State) (i code : Nat) (f : State → State) : State :=
  let s := s.modWin i (fun w => { w with segDone := true, segCode := code })
  (if code = St.ok then f s else s).arriveAt (s.now + 16)

/-- SEG_CMD SET on the segment in SEG_SEL. -/
def setSeg (s : State) (i : Nat) : State :=
  let w := (s.inst i).win
  segDone s i (segSetCode s i) (fun s => s.modSeg i w.segSel (fun _ => segOf w))

/-- SEG_CMD CLEAR on the segment in SEG_SEL. -/
def dropSeg (s : State) (i : Nat) : State :=
  let w := (s.inst i).win
  segDone s i (segClearCode s i) (fun s => if (s.seg i w.segSel).valid then clearSeg s i w.segSel else s)

/-- A write of SEG_CMD that names a command runs it (R256; log entry 21). -/
def segRow (s : State) (l i : Nat) (v : Word) (cmd : Nat) (f : State → Nat → State) : State :=
  if fld v 7 0 ≠ cmd then s else ctlWrite s l (winAddr i 0x5020) [(63, 8)] v (fun s => f s i)

/-- SEG_SET (R256). -/
def execSegSet (link : BitVec 2) (inst : BitVec 7) (value : Word) (s : State) : Host.Outcome State Fault Refusal :=
  .next (segRow s link.toNat inst.toNat value 1 setSeg)

/-- SEG_CLEAR (R256). -/
def execSegClear (link : BitVec 2) (inst : BitVec 7) (value : Word) (s : State) : Host.Outcome State Fault Refusal :=
  .next (segRow s link.toNat inst.toNat value 2 dropSeg)

/-! ### The stacks (R245 to R251) -/

/-- Top of the device address space (R245). -/
def hbmTop (h : Hbm) : Nat := (liveList h).length * 64000000000

/-- Scrub corrects a word (R248); a row it corrects in two passes running is repaired, but not one that also holds an
uncorrectable word (R250). An injected error never leads to a repair (R376). -/
def scrubCorrect (s : State) (w : Nat) : State :=
  let st := stackOf s.hbm (w * 8)
  let row := rowOf s.hbm (w * 8)
  let p := s.hbm.passes
  let again := s.hbm.scrubRows.contains (row, wrap 32 (p + 2 ^ 32 - 1))
  let s := (s.modStack st (fun k => { k with corrected := wrap 32 (k.corrected + 1) })).modHbm (fun h => { h with
    soft := h.soft.filter (· != w) })
  if s.hbm.injected.contains w then s else
  let s := s.modHbm (fun h => { h with
    scrubRows := (row, p) :: h.scrubRows.filter (fun r => r.1 != row && (r.2 == p || r.2 == wrap 32 (p + 2 ^ 32 - 1))) })
  if again && !s.hbm.bad.any (fun b => rowOf s.hbm (b * 8) == row) then repairRow s st row true else s

/-- Scrub reads one word (R248): what it finds is the word's own condition, or an error just arisen. -/
def scrubWord (s : State) (addr : Nat) (found : ScrubFind) : State :=
  let w := addr / 8
  if !s.inService || decide (hbmTop s.hbm ≤ w * 8) then s
  else
    let last := decide (hbmTop s.hbm = w * 8 + 8)
    let bad := wordBad s.hbm w || found == .uncorrectable
    let s := chargeShared s [(0, 8)]
    let s := if bad then
        logUe (s.modHbm (fun h => { h with bad := w :: h.bad.filter (· != w) })) w true
      else if s.hbm.soft.contains w || found == .corrected then scrubCorrect s w else s
    settle (s.modHbm (fun h => { h with
      position := if last then 0 else w * 8 / gran, passes := if last then wrap 32 (h.passes + 1) else h.passes }))

/-- PATROL_SCRUB (R248). -/
def execPatrolScrub (addr : BitVec 40) (found : ScrubFind) (s : State) : Host.Outcome State Fault Refusal :=
  .next (scrubWord s addr.toNat found)

/-- A channel of a stack is trained again (R249); one that fails marks its stack (R251). -/
def retrainChannel (s : State) (st : Nat) (res : TrainResult) : State :=
  if !s.inService || !s.hbm.live.getLsbD st then s
  else
    let s := s.modStack st (fun k => { k with retrains := wrap 32 (k.retrains + 1) })
    if res == .failed then settle (markRetired s st) else s

/-- CHANNEL_RETRAIN (R249). -/
def execChannelRetrain (stack : BitVec 4) (res : TrainResult) (s : State) : Host.Outcome State Fault Refusal :=
  .next (retrainChannel s stack.toNat res)

/-- A stack stops answering (R251): it is marked, and every read of it fails from now on (R252). -/
def stackStops (s : State) (st : Nat) : State :=
  if !s.inService || !s.hbm.live.getLsbD st then s
  else settle (markRetired (s.modHbm (fun h => { h with dead := h.dead ||| (1#12 <<< st) })) st)

/-- STACK_STOPS_ANSWERING (R251). -/
def execStackStopsAnswering (stack : BitVec 4) (s : State) : Host.Outcome State Fault Refusal :=
  .next (stackStops s stack.toNat)

/-! ### Couch QPs (R263) -/

/-- The control cores close and reopen a couch QP that is in ERROR (R263). -/
def reopenCouch (s : State) (q : Nat) : State :=
  match couchOfQp s q with
  | none => s
  | some e =>
    if !s.inService || (s.qp q).st != .error then s
    else settle (openCouchQp (closeQp s q (drainBoundUs (s.qp q).ident)) e)

/-- COUCH_REOPEN (R263). -/
def execCouchReopen (qp : BitVec 20) (s : State) : Host.Outcome State Fault Refusal := .next (reopenCouch s qp.toNat)

end Sys2Proof.Machine
end

