-- ==== Sys2Proof/Machine/Metering.lean ====
section
/-! DEFINITION. The commands of the metering island (chapter 15): its supply, its closes, its ring and its
auditor port. -/

namespace Sys2Proof.Machine

/-- Instances that are not FREE now (R366). -/
def notFreeNow (s : State) : List Nat := (List.range 128).filter (fun i => (s.inst i).st != .free)

/-! ### MTR_VDD (R362, R393) -/

/-- The island starts: one more fuse, and every count from zero (R362). -/
def islandRise (s : State) : State :=
  if s.mtr.running then s else
  s.modMtr (fun m => { m with
    running := true, fuses := if m.fuses < 1024 then m.fuses + 1 else m.fuses
    meters := Tbl.empty, gen := Tbl.empty, seq := 0, prev := Tbl.empty, sram := [], ringHeld := []
    notFree := notFreeNow s, period := 60, periodNext := 60, lastClose := s.now, gmsAt := s.now / 1000000
    rdSel := 0, spots := [] })

/-- MTR_VDD_RISE (R362). -/
def execMtrVddRise (s : State) : Host.Outcome State Fault Refusal := .next (islandRise s)

/-- The island stops and loses what its SRAM and its counters hold (R393). -/
def islandFall (s : State) : State :=
  s.modMtr (fun m => { m with
    running := false, meters := Tbl.empty, gen := Tbl.empty, seq := 0, prev := Tbl.empty
    sram := [], ringHeld := [], notFree := [], spots := [] })

/-- MTR_VDD_FALL (R393). -/
def execMtrVddFall (s : State) : Host.Outcome State Fault Refusal := .next (islandFall s)

/-! ### A period closes (R366) -/

/-- The fabric time of the next close: the next whole multiple of PERIOD_S. -/
def closeTime (s : State) : Nat := (s.mtr.lastClose / (s.mtr.period * 1000000000) + 1) * (s.mtr.period * 1000000000)

/-- A FINAL record of this tick stands in for the instance's close record (R366). -/
def finalNow (s : State) (i : Nat) : Bool :=
  match s.mtr.prev.find i with | some w => w.isFinal && w.time == s.now | none => false

/-- The records of a close, in ascending order, the device set's last. -/
def closeInsts (s : State) : List Nat :=
  (List.range 128).filter (fun i => (s.mtr.notFree.contains i || (notFreeNow s).contains i) && !finalNow s i)

/-- The close; one that fabric time has already passed is made now, with TIME_DOUBT (R34, R366). -/
def closePeriod (s : State) : State :=
  let t := closeTime s
  let doubt := timeDoubt s || decide (tickStart t < s.now)
  let s := countGranules (s.arriveAt t)
  let s := forEach (closeInsts s ++ [0xFF]) s (fun s i => writeRecord s i doubt false)
  s.modMtr (fun m => { m with lastClose := max s.now t, notFree := notFreeNow s, period := m.periodNext })

/-- METER_PERIOD_CLOSE (R366). -/
def execMeterPeriodClose (s : State) : Host.Outcome State Fault Refusal :=
  .next (if s.mtr.running then closePeriod s else s)

/-- The records held back go into the ring, in order (R367). -/
def flushRing (s : State) : State :=
  s.modMtr (fun m => { m with ring := (m.ringHeld.reverse ++ m.ring).take ringSize, ringHeld := [] })

/-- METER_RING_FLUSH (R367). -/
def execMeterRingFlush (s : State) : Host.Outcome State Fault Refusal :=
  .next (if s.mtr.running && ringServes s then flushRing s else s)

/-! ### The auditor port (R368) -/

/-- The island answers a read of the auditor; without MTR_VDD there is no answer. -/
def auditorRead (s : State) (bs : List Byte) : State := if s.mtr.running then s.sent (.auditor bs) else s

/-- The island's identity. -/
def islandIdentity (s : State) : List Byte :=
  ([0x5A, 0x4E, 0x4D, 0x49] : List Byte) ++ leBytes 4 0x9768 ++ leBytes 4 (islandBoot s) ++ leBytes 4 0
    ++ beBytes 16 Config.serial.toNat ++ beBytes 32 Config.meterKeyHash.toNat

/-- MTR_IDENTITY (R368). -/
def execMtrIdentity (s : State) : Host.Outcome State Fault Refusal := .next (auditorRead s (islandIdentity s))

/-- The certificate as CERT reads it: its length in two bytes, then its bytes. -/
def certBytes : List Byte := leBytes 2 Config.meterCert.length ++ Config.meterCert

/-- CERT (R368). -/
def execCert (offset : BitVec 16) (s : State) : Host.Outcome State Fault Refusal :=
  .next (auditorRead s (slice certBytes offset.toNat 256))

/-- LAST_SEQ (R368). -/
def execLastSeq (s : State) : Host.Outcome State Fault Refusal := .next (auditorRead s (leBytes 8 s.mtr.seq))

/-- The record of a RECORD_SEQ in SRAM, or 256 zero bytes. -/
def sramRecord (s : State) (seq : Nat) : List Byte :=
  match s.mtr.sram.find? (fun w => w.seq == seq) with
  | some w => markBytes w
  | none => List.replicate 256 0

/-- RECORD (R368). -/
def execRecord (seq : Word) (s : State) : Host.Outcome State Fault Refusal :=
  .next (auditorRead s (sramRecord s seq.toNat))

/-- The seven counters of an instance number that has none: free values (log entry 44). -/
def freeMeter (s : State) : Meter × State :=
  let a := drawFree s
  let b := drawFree a.2
  let c := drawFree b.2
  let d := drawFree c.2
  let e := drawFree d.2
  let f := drawFree e.2
  let g := drawFree f.2
  (⟨a.1.toNat, b.1.toNat, c.1.toNat, d.1.toNat, e.1.toNat, f.1.toNat, g.1.toNat⟩, g.2)

/-- The counters a SPOT record of an INSTANCE shows. -/
def spotRecord (s : State) (i : Nat) (nonce : BitVec 256) : Watermark × State :=
  if i < 128 ∨ i = 0xFF then (makeRecord s i (timeDoubt s) false true nonce, s)
  else
    let r := freeMeter s
    let g := drawFree r.2
    let h := drawFree g.2
    ({ makeRecord s i (timeDoubt s) false true nonce with
       m := r.1, gen := g.1.toNat % 2 ^ 32, granules := h.1.toNat % 2 ^ 32 }, h.2)

/-- A SPOT record, at most ten in a second. -/
def spotMark (s : State) (i : Nat) (nonce : BitVec 256) : State :=
  let recent := s.mtr.spots.filter (fun t => decide (s.now < t + 1000000000))
  if recent.length ≥ 10 then auditorRead s (List.replicate 256 0xFF)
  else
    let s := countGranules (s.modMtr (fun m => { m with spots := s.now :: recent }))
    let r := spotRecord s i nonce
    auditorRead (keepRecord r.2 r.1) (markBytes r.1)

/-- SPOT (R368). -/
def execSpot (inst : Byte) (nonce : BitVec 256) (s : State) : Host.Outcome State Fault Refusal :=
  .next (if s.mtr.running then spotMark s inst.toNat nonce else s)

end Sys2Proof.Machine
end

