-- ==== Sys2Proof/Machine/Power.lean ====
section
/-! DEFINITION. The commands of the power manager (chapter 12): the cap, credit periods, coefficients,
throttling and the thermal override. -/

namespace Sys2Proof.Machine

/-! ### The cap (R310) -/

/-- A write of PWR_CAP is decided at once, or after the load that is running (R56, R310). -/
def writeCap (s : State) (v : Word) : State :=
  let w := fld v 9 0
  let s := s.modPwr (fun p => { p with capDone := false })
  if s.plans.nextCond == .loading then s.modPwr (fun p => { p with capHeld := some w }) else decideCap s w

/-- PWR_CAP_WRITE (R310). -/
def execPwrCapWrite (link : BitVec 2) (value : Word) (s : State) : Host.Outcome State Fault Refusal :=
  .next (ctlWrite s link.toNat 0xA0000 [(63, 10)] value (fun s => writeCap s value))

/-! ### Credit (R315, R317) -/

/-- A credit period starts: an accepted cap governs, the shared pool and every bucket are refilled, and
heads that waited for credit look again. -/
def creditPeriod (s : State) : State :=
  let t := s.pwr.lastPeriod + 1024
  let s := (s.arriveAt t).modPwr (fun p => { p with
    lastPeriod := t, cap := p.capNext.getD p.cap, capNext := none })
  let own := sharedOwn s
  let s := s.modPwr (fun p => { p with shared := p.shared + own, sharedRefill := own.toNat })
  retryHeads (forEach (buckets s) s refillBucket) .energy

/-- CREDIT_PERIOD (R315). -/
def execCreditPeriod (s : State) : Host.Outcome State Fault Refusal := .next (if s.inService then creditPeriod s else s)

/-! ### Coefficients (R313) -/

/-- The next multiple of `p` after now. -/
def nextMultiple (s : State) (p : Nat) : Nat := (s.now / p + 1) * p

/-- K of a domain after an update with the energy measured, in pJ (R313). With nothing estimated the spec
gives no quotient: a free value stands for it. -/
def newK (s : State) (measured : Nat) (d : Nat) : State :=
  let k := kOf s d
  let e := s.pwr.estimated.findD d 0
  let r := drawFree s
  let v := if e = 0 then r.1.toNat else (3 * k * e + k * measured) / (4 * e)
  (if e = 0 then r.2 else s).modPwr (fun p => { p with kFactor := p.kFactor.put d (max 2048 (min 8192 v)) })

/-- Every 10 ms the coefficients and the static estimate follow the monitors (R313); the island's taps count
the same energy, the static power over the 10 ms with it (R363; DEDUCED, log entry 43). -/
def updateCoefs (s : State) (measured : List Nat) (staticW : Nat) : State :=
  let s := s.arriveAt (nextMultiple s 10000000)
  let s := forEach (List.range 5) s (fun s d => newK s (measured.getD d 0) d)
  let s := s.modPwr (fun p => { p with staticW := staticW, estimated := Tbl.empty })
  s.modMeter 0xFF (fun m => { m with pkg := wrap 64 (m.pkg + measured.foldl (· + ·) 0 / 1000000 + staticW * 10000) })

/-- COEFFICIENT_UPDATE (R313). -/
def execCoefficientUpdate (measured : List Nat) (staticW : BitVec 10) (s : State) : Host.Outcome State Fault Refusal :=
  .next (if s.running then updateCoefs s measured staticW.toNat else s)

/-! ### Throttling (R318, R319) -/

/-- Modelled package power averaged over the last millisecond, µW (R311, R318): the static estimate and
the energy charged. -/
def averageUw (s : State) : Nat :=
  s.pwr.staticW * 1000000 + ((s.pwr.recent.filter (fun r => decide (s.now < r.1 + 1000000))).foldl (fun a r => a + r.2) 0)

/-- Modelled package power averaged over the last 10 ms, µW (R311). -/
def windowUw (s : State) : Nat :=
  s.pwr.staticW * 1000000 + ((s.pwr.recent.filter (fun r => decide (s.now < r.1 + 10000000))).foldl (fun a r => a + r.2) 0) / 10

/-- PWR_CFG.THROTTLE_TJ (R321). -/
def throttleTj (s : State) : Nat := let v := fld s.pwr.cfg 47 40; if 85 ≤ v ∧ v ≤ 104 then v else 100

/-- PWR_CFG.DEFER_US, ns (R321). -/
def deferNs (s : State) : Nat := min 200 (fld s.pwr.cfg 39 32) * 1000

/-- The hottest junction has a temperature. -/
def noteTj (s : State) (tj : Nat) : State := s.modPwr (fun p => { p with tj := tj })

/-- The throttle units: PA, PB, HUB, HBM, PL. -/
def throttleUnits : List Nat := [0, 1, 2, 3, 4]

/-- At a 100 µs boundary with power over the cap or the junction hot, every unit is asked one level more
(R318). In the thermal override the levels stay as R320 sets them. -/
def throttleRequest (s : State) (tj : Nat) : State :=
  let s := noteTj (s.arriveAt (nextMultiple s 100000)) tj
  if !s.pwr.emerg && (decide (averageUw s > s.pwr.cap * 1000000) || decide (throttleTj s ≤ tj))
  then forEach throttleUnits s requestUnit else s

/-- THROTTLE_REQUEST (R318). -/
def execThrottleRequest (tj : Byte) (s : State) : Host.Outcome State Fault Refusal :=
  .next (if s.running then throttleRequest s tj.toNat else s)

/-- At a 1 ms boundary with power and temperature low, every unit is lowered one level (R318). -/
def throttleRelease (s : State) (tj : Nat) : State :=
  let s := noteTj (s.arriveAt (nextMultiple s 1000000)) tj
  if !s.pwr.emerg && decide (averageUw s * 100 ≤ s.pwr.cap * 1000000 * 95) && decide (tj + 3 < throttleTj s)
  then forEach throttleUnits s (fun s u => setLevel s u (levelOf s u - 1)) else s

/-- THROTTLE_RELEASE (R318). -/
def execThrottleRelease (tj : Byte) (s : State) : Host.Outcome State Fault Refusal :=
  .next (if s.running then throttleRelease s tj.toNat else s)

/-- When a unit's deferral ends at the latest (R319). -/
def deferralEnd (s : State) (u : Nat) : Option Nat := ((s.pwr.units.findD u default).deferredAt).map (· + deferNs s)

/-- DEFER_US after a deferred request it takes effect in any case (R319). -/
def deferExpiry (s : State) : State :=
  match (throttleUnits.filterMap (deferralEnd s)).min? with
  | none => s
  | some t =>
    let s := s.arriveAt t
    forEach (throttleUnits.filter (fun u => match deferralEnd s u with | some e => decide (e ≤ s.now) | none => false)) s
      (fun s u => (applyDeferred s u).modPwr (fun p => { p with deferExpired := wrap 16 (p.deferExpired + 1) }))

/-- DEFER_EXPIRY (R319). -/
def execDeferExpiry (s : State) : Host.Outcome State Fault Refusal := .next (deferExpiry s)

/-! ### The thermal override (R320) -/

/-- The hottest junction reaches 105 °C: every unit at L = 8, deferrals overridden, EMERG, a fault. -/
def thermalOverride (s : State) (tj : Nat) : State :=
  let s := noteTj s tj
  if tj < 105 ∨ s.pwr.emerg then s
  else
    let n := (throttleUnits.filter (fun u => (s.pwr.units.findD u default).deferredAt.isSome)).length
    let s := forEach throttleUnits s (fun s u => (setLevel s u 8).modPwr (fun p => { p with
      units := p.units.modify u (fun t => { t with deferredAt := none }) }))
    let s := s.modPwr (fun p => { p with
      emerg := true, emergencies := wrap 16 (p.emergencies + 1), deferExpired := wrap 16 (p.deferExpired + n) })
    noteCauses (raiseFault s 0x07 0 113 0xFF 0 (BitVec.ofNat 32 (tj % 256)))

/-- THERMAL_OVERRIDE (R320). -/
def execThermalOverride (tj : Byte) (s : State) : Host.Outcome State Fault Refusal :=
  .next (if s.running then thermalOverride s tj.toNat else s)

/-- EMERG clears once the temperature is below THROTTLE_TJ (R320). -/
def emergClear (s : State) (tj : Nat) : State :=
  let s := noteTj s tj
  if tj < throttleTj s then noteCauses (s.modPwr (fun p => { p with emerg := false })) else s

/-- EMERG_CLEAR (R320). -/
def execEmergClear (tj : Byte) (s : State) : Host.Outcome State Fault Refusal :=
  .next (if s.running then emergClear s tj.toNat else s)

end Sys2Proof.Machine
end

