-- ==== Sys2Proof/Machine/Recovery.lean ====
section
/-! DEFINITION. The commands of faults and recovery (chapter 13). -/

namespace Sys2Proof.Machine

/-! ### The fault log (R322 to R325) -/

/-- Entries are ordered by TIME, then ENGINE, then OBJECT (R324). -/
def faultBefore (a b : FaultEntry) : Bool :=
  decide (a.time < b.time) || (a.time == b.time && (decide (a.engine < b.engine)
    || (a.engine == b.engine && decide (a.object < b.object))))

/-- Put an entry behind those that do not come after it. -/
def insertFault (e : FaultEntry) : List FaultEntry → List FaultEntry
  | [] => [e]
  | x :: xs => if faultBefore e x then e :: x :: xs else x :: insertFault e xs

/-- Entries in log order. -/
def sortFaults (es : List FaultEntry) : List FaultEntry := es.foldl (fun a e => insertFault e a) []

/-- Capacity of the log (R322). -/
def logSize : Nat := 65536

/-- Append one entry: the oldest goes when the ring is full (R322). -/
def appendFault (f : Faults) (e : FaultEntry) : Faults :=
  let full := decide (dmod 32 f.nextSeq f.oldest = logSize)
  { f with
    log := f.log.put (f.nextSeq % logSize) e
    nextSeq := wrap 32 (f.nextSeq + 1)
    oldest := if full then wrap 32 (f.oldest + 1) else f.oldest
    overwritten := if full then wrap 32 (f.overwritten + 1) else f.overwritten
    classCount := f.classCount.modifyD e.cls 0 (fun n => wrap 64 (n + 1)) }

/-- Append entries in order, marking DEGRADES on the first entry of each cause that has set in the entry's tick (R322). -/
def appendFaults : List FaultEntry → Faults → Faults
  | [], f => f
  | e :: es, f =>
    let rise := (causeOfClass e.cls e.detail e.status).map (fun b => (b, e.time))
    let d := match rise with | some r => f.rises.contains r | none => false
    let f := appendFault f { e with degrades := d }
    appendFaults es (match rise with | some r => { f with rises := f.rises.erase r } | none => f)

/-- The faults reported go into the log, one interrupt tells the manager, and the console prints a line for
each (R324, R325, R403). -/
def logFaults (s : State) : State :=
  if s.flt.raised.isEmpty then s
  else
    let rise := !s.flt.pending
    let lines := (rangeFrom s.flt.nextSeq s.flt.raised.length).map (wrap 32)
    let s := (noteCauses s).modFlt (fun f => { appendFaults (sortFaults f.raised) f with raised := [], pending := true })
    let s := forEach lines s (fun s n => s.sent (.uart n))
    noteCauses (if rise && s.flt.vecEn then fireVector s s.flt.vector else s)

/-- FAULT_LOG_APPEND (R324). -/
def execFaultLogAppend (s : State) : Host.Outcome State Fault Refusal := .next (logFaults s)

/-- A write of FLT_STATUS clears what is written 1: PENDING, and cause CORE through CORE_ACK (R326, R338). -/
def clearFltStatus (s : State) (v : Word) : State :=
  noteCauses (s.modFlt (fun f => { f with
    coreCause := f.coreCause && !bit v 9, pending := f.pending && !bit v 8 }))

/-- CORE_ACK_WRITE (R326). -/
def execCoreAckWrite (link : BitVec 2) (value : Word) (s : State) : Host.Outcome State Fault Refusal :=
  .next (ctlWrite s link.toNat 0xB0008 [(31, 10)] value (fun s => clearFltStatus s value))

/-! ### Alternates (R330, R331) -/

/-- A notice arrives; an E already passed takes effect in this tick (R330). -/
def takeNotice (s : State) (p alt e hops origin : Nat) : State :=
  if !s.inService then s else settleSteps (applyAllDue (noticeIn s p alt e hops origin))

/-- ALT_NOTICE (R330). -/
def execAltNotice (port : BitVec 4) (alt : BitVec 16) (e : Word) (hops : Byte) (origin : BitVec 18) (s : State) :
    Host.Outcome State Fault Refusal :=
  .next (takeNotice s port.toNat alt.toNat e.toNat hops.toNat origin.toNat)

/-- The record of an alternate whose notice is still to be repeated: of the active plan, else one kept for
the next plan. -/
def repeatKey (s : State) (alt : Nat) : Option (Nat × Alt) :=
  ([alt, altKey alt true].filterMap (fun k => (s.flt.alts.find k).map (fun r => (k, r)))).find?
    (fun x => decide (x.2.sends < 3))

/-- A notice is sent three times, 50 µs apart (R330). -/
def repeatNotice (s : State) (alt : Nat) : State :=
  match repeatKey s alt with
  | none => s
  | some (k, r) =>
    let s := sendNotice (s.arriveAt (r.lastSend + 50000)) alt r
    s.modFlt (fun f => { f with alts := f.alts.modify k (fun r => { r with sends := r.sends + 1, lastSend := s.now }) })

/-- NOTICE_REPEAT (R330). -/
def execNoticeRepeat (alt : BitVec 16) (s : State) : Host.Outcome State Fault Refusal :=
  .next (if s.inService then repeatNotice s alt.toNat else s)

/-- The tick of a decision point (R331): one that falls on a plan front, or would come after it, is dropped,
and the new plan governs. -/
def decisionPoint (s : State) : State :=
  match nextDecision s with
  | none => s
  | some e =>
    if s.plans.nextCond == .armed && decide (tickStart s.plans.front ≤ max s.now (tickStart e)) then s
    else settleSteps (applyAllDue (s.arriveAt e))

/-- DECISION_POINT (R331). -/
def execDecisionPoint (s : State) : Host.Outcome State Fault Refusal := .next (if s.inService then decisionPoint s else s)

/-! ### Restores (R334) -/

/-- How a restore has ended, if it has: `none` for a region whose partner holds no generation, a generation
and its COPY_SEQ, or the ending that failed it. -/
def restoreEnd (s : State) (e : CouchEnt) (u : Restore) : Option (Except Ending (Option (Nat × Nat))) :=
  let q := s.qp e.qp
  let sq := leAt u.record 0 8
  if u.phase = 0 then
    if q.st == .error then some (.error ⟨q.lastStatus, 0, 0⟩)
    else if q.st == .closed || q.st == .draining then some (.error ⟨St.flushed, 0, 0⟩) else none
  else if u.open_ ≠ 0 then none
  else match u.bad with
    | some b => some (.error b)
    | none => if sq = 0 then some (.ok none) else if u.phase = 2 then some (.ok (some (leAt u.record 8 1, sq))) else none

/-- The restored data also stand in the local generation (R334 step 3), and the record names it (step 4). -/
def restoreDone (s : State) (r : Nat) (e : CouchEnt) (g sq : Nat) : State :=
  let s := hbmStore s (genBase e g) (readBytes s.mem (e.source * gran) (e.length * gran))
  s.modCouch r (fun c => { c with validGen := some g, validSeq := sq, lastSeq := sq, cond := .valid })

/-- A restore ends (R334): it is logged, and the region is left as its outcome says, undefined where the restore failed.
The DETAIL of a completed restore is not stated. -/
def restoreComplete (s : State) (r : Nat) : State :=
  match s.flt.restoring.find r, restoreEnt s r with
  | some u, some e => match restoreEnd s e u with
    | none => s
    | some out =>
      let s := s.modFlt (fun f => { f with restoring := f.restoring.erase r })
      match out with
      | .error b =>
        let s := s.modFlt (fun f => { f with restoreFailed := true, restoreStatus := b.status })
        let s := undefineHbm s (e.source * gran) (e.length * gran)
        settle (raiseFault (s.modCouch r (fun c => { c with cond := .none, validGen := none })) 0x0A b.status
          (taskEngine 4) e.owner r (BitVec.ofNat 32 (leAt u.record 0 8)))
      | .ok got =>
        let s := match got with | some (g, sq) => restoreDone s r e g sq | none => s
        let d := drawFree s
        settle (raiseFault d.2 0x0B St.ok (taskEngine 4) e.owner r (BitVec.ofNat 32 d.1.toNat))
  | _, _ => s

/-- RESTORE_COMPLETE (R334). -/
def execRestoreComplete (region : BitVec 16) (s : State) : Host.Outcome State Fault Refusal :=
  .next (restoreComplete s region.toNat)

/-! ### Control cores (R337) -/

/-- A control core misses its watchdog: it is logged, and three within 10 s set cause CORE. -/
def coreExpired (s : State) (core task : Nat) : State :=
  let times := s.now :: s.flt.wdTimes.filter (fun t => decide (s.now < t + 10000000000))
  let s := s.modFlt (fun f => { f with
    expiries := wrap 32 (f.expiries + 1), wdLast := f.wdLast.put core s.now, wdTimes := times
    coreCause := f.coreCause || decide (times.length ≥ 3) })
  noteCauses (raiseFault s 0x0C 0 (128 + core) 0xFF core (BitVec.ofNat 32 task))

/-- CORE_WATCHDOG_EXPIRY (R337). -/
def execCoreWatchdogExpiry (core : BitVec 4) (task : Byte) (s : State) : Host.Outcome State Fault Refusal :=
  .next (if s.running then coreExpired s core.toNat task.toNat else s)

end Sys2Proof.Machine
end

