-- ==== Sys2Proof/Machine/Registers.lean ====
section
/-! DEFINITION. What every register of the control space reads as (R309): each is given by its defined
fields, so that the bits no field covers are its reserved bits. A register at an offset the map does not
list is `none`. -/

namespace Sys2Proof.Machine

/-- The defined fields of a register, with what they read as: high bit, low bit, value. A write-only field
reads zero. -/
abbrev Fields := List (Nat × Nat × Nat)

/-- A register that is one field of 64 bits. -/
def whole (n : Nat) : Option Fields := some [(63, 0, n)]

/-- The fields of a register that is held as a word. -/
def keep (v : Word) (fs : List (Nat × Nat)) : Option Fields := some (fs.map (fun f => (f.1, f.2, fld v f.1 f.2)))

/-- Index of an offset in an array of registers. -/
def index (base stride n off : Nat) : Option Nat :=
  if base ≤ off ∧ (off - base) % stride = 0 ∧ (off - base) / stride < n then some ((off - base) / stride) else none

/-- The number whose bit `i` is `f i`, for `i` below `n`. -/
def bitsOf (n : Nat) (f : Nat → Bool) : Nat := (List.range n).foldl (fun a i => if f i then a + 2 ^ i else a) 0

/-! ### Codes of conditions -/

def queueCode : QueueState → Nat
  | .idle => 0
  | .running => 1
  | .waiting => 2
  | .error => 3
  | .calm => 4

def reasonCode : Reason → Nat
  | .none => 0
  | .early => 1
  | .ringFull => 2
  | .ordered => 3
  | .inflight => 4
  | .sync => 5
  | .time => 6
  | .slotBusy => 7
  | .energy => 8
  | .link => 9
  | .landing => 10

def qpCode : QpState → Nat
  | .closed => 0
  | .opening => 1
  | .opened => 2
  | .draining => 3
  | .error => 4

def instCode : InstState → Nat
  | .free => 0
  | .active => 1
  | .calming => 2
  | .calm => 3
  | .resetting => 4

def linkCode : LinkCond → Nat
  | .down => 0
  | .training => 1
  | .up => 2
  | .retrain => 3

def slotCode : SlotCond → Nat
  | .free => 0
  | .idle => 1
  | .running => 2
  | .fault => 3

def bankCode : BankCond → Nat
  | .retired => 0
  | .staged => 1
  | .armed => 2
  | .inject => 3
  | .drain => 4

def nextCode : NextCond → Nat
  | .empty => 0
  | .loading => 1
  | .loaded => 2
  | .armed => 3
  | .missed => 4

def couchCode : CouchCond → Nat
  | .none => 0
  | .valid => 1
  | .copying => 2
  | .doubt => 3

def altCode : AltCond → Nat
  | .none => 0
  | .pending => 1
  | .applied => 2
  | .refused => 3

/-! ### Fabric time (R35) -/

/-- TIME_CTRL.HOLD_RATE, ppb (R35). -/
def holdRate (s : State) : Nat := fld s.time.ctrl 31 24


/-- TIME_ERR.ESTIMATE (R22): not formed while ACQUIRING; in HOLDOVER it grows from the last valid sync; in
LOST it keeps the value it had on entering (DEDUCED, log entry 45). -/
def estimateOf (s : State) : Nat :=
  match s.time.lock with
  | .acquiring => 0xFFFF
  | .holdover =>
    min 0xFFFE (s.time.estAtSync + holdRate s * (s.now - s.time.lastValid.getD s.now) / 1000000000)
  | _ => min 0xFFFE s.time.estAtSync

/-- TIME_STATUS.PPS_OK: an edge in the last 1.1 s (R35). -/
def ppsOk (s : State) : Bool := match s.time.ppsLast with | some t => decide (s.now ≤ t + 1100000000) | none => false

/-- SHEET_POS of a port. -/
def sheetPos (s : State) (p : Nat) : Fields :=
  match portSheet s p s.now with
  | some x => [(63, 32, x.ream), (19, 8, x.index), (1, 0, sheetKind x.entry)]
  | none => [(63, 32, 0), (19, 8, 0), (1, 0, 3)]

/-- SHEET_CFG of a port. -/
def sheetCfg (s : State) (p : Nat) : Fields :=
  match schedOf s p with
  | some d => [(47, 32, d.guard), (12, 0, d.sheets.length)]
  | none => [(47, 32, 0), (12, 0, 0)]

/-- The time registers (R35). -/
def timeRegs (s : State) (off : Nat) : Option Fields :=
  if off = 0x10000 then keep s.time.ctrl [(31, 24), (23, 16), (3, 2), (1, 1), (0, 0)]
  else if off = 0x10008 then some [(31, 16, s.time.stepCount), (7, 4, s.time.source), (3, 3, s.time.refOk.toNat),
    (2, 2, (ppsOk s).toNat), (1, 0, lockCode s.time.lock)]
  else if off = 0x10010 then whole s.now
  else if off = 0x10018 then some [(31, 16, satSigned 16 s.time.offset), (15, 0, estimateOf s)]
  else if off = 0x10020 then keep s.time.ppsCfg [(31, 12), (0, 0)]
  else if off = 0x10028 then some [(47, 0, s.time.epoch)]
  else if off = 0x10200 then whole s.time.isoTime.toNat
  else if off = 0x10208 then some [(15, 0, 0)]
  else if off = 0x10210 then some [(47, 32, s.time.isoSnap), (31, 16, s.time.isoArmedSnap), (3, 3, s.time.isoStepped.toNat),
    (2, 2, s.time.isoLost.toNat), (1, 1, s.time.isoLate.toNat), (0, 0, s.time.isoArmed.toNat)]
  else match index 0x10100 8 16 off, index 0x10300 8 16 off, index 0x10400 8 16 off with
    | some p, _, _ => keep (s.ptp p).cfg [(47, 32), (15, 12), (11, 8), (1, 1), (0, 0)]
    | _, some p, _ => some (sheetPos s p)
    | _, _, some p => some (sheetCfg s p)
    | _, _, _ => none

/-! ### Plans and sync memory (R57, R118) -/

/-- PLAN_FRONT: the armed front; in MISSED the next rejoin point once it is known (R36, R57). -/
def planFront (s : State) : Nat :=
  match s.plans.nextCond with
  | .armed => s.plans.front
  | .missed => (missedPoint s).getD 0
  | _ => 0

/-- The plan registers (R57). -/
def planRegs (s : State) (off : Nat) : Option Fields :=
  if off = 0x20000 then keep s.plans.result [(63, 32), (31, 24), (23, 16), (15, 8)]
  else if off = 0x20008 then some [(16, 16, (injectBank s == some true).toNat), (9, 9, s.plans.drainAt.isSome.toNat),
    (8, 8, s.plans.active.isSome.toNat), (2, 0, nextCode s.plans.nextCond)]
  else if off = 0x20010 then whole (activeId s).toNat
  else if off = 0x20018 then whole (s.plans.next.elim 0 (·.planId.toNat))
  else if off = 0x20020 then whole (planFront s)
  else if off = 0x20028 then whole s.plans.lastSwitch
  else if off = 0x20030 then some [(63, 32, s.plans.switches), (31, 16, s.plans.missed), (15, 0, s.plans.refusedCount)]
  else none

/-- The device-global sync registers (R118). -/
def syncRegs (s : State) (off : Nat) : Option Fields :=
  if off = 0x30000 then whole (bitsOf 64 (fun i => (s.granule i).orphan))
  else if off = 0x30008 then whole (bitsOf 64 (fun i => (s.granule (64 + i)).orphan))
  else if off = 0x30010 then some [(63, 32, s.sync.busy), (16, 0, heldCount s)]
  else none

/-! ### Transport and collectives (R155, R189) -/

/-- The counters of one die (R155). -/
def dieRegs (d : DieCounts) (r : Nat) : Option Fields :=
  if r = 0x00 then some [(63, 32, d.outOfWindow), (31, 0, d.duplicate)]
  else if r = 0x08 then some [(63, 32, d.retries), (31, 0, d.seqNaks)]
  else if r = 0x10 then some [(63, 32, d.busySent), (31, 0, d.busyRx)]
  else if r = 0x18 then some [(63, 32, d.authFail), (31, 16, d.ecrcFail), (15, 0, d.staleDrop)]
  else if r = 0x20 then some [(63, 32, d.fetches), (18, 0, missBytes d)]
  else none

/-- The transport registers (R155). -/
def transportRegs (s : State) (off : Nat) : Option Fields :=
  if off = 0x40000 then keep s.tp.cfg [(31, 16), (9, 8), (0, 0)]
  else if off = 0x40008 then keep s.tp.retry [(63, 56), (55, 48), (47, 44), (39, 24), (9, 0)]
  else if off = 0x40010 then keep s.tp.cc0 [(63, 48), (47, 32), (31, 16), (15, 8), (7, 0)]
  else if off = 0x40018 then keep s.tp.cc1 [(31, 16), (15, 0)]
  else if off = 0x40020 then keep s.tp.ack [(63, 48), (47, 32), (23, 16), (15, 8), (7, 0)]
  else if 0x40100 ≤ off ∧ off < 0x40140 then dieRegs s.tp.pa (off - 0x40100)
  else if 0x40140 ≤ off ∧ off < 0x40180 then dieRegs s.tp.pb (off - 0x40140)
  else none

/-- The collective registers (R189). -/
def collRegs (s : State) (off : Nat) : Option Fields :=
  if off = 0x50000 then keep s.coll.cfg [(47, 32), (31, 24), (15, 0)]
  else if off = 0x50008 then some [(63, 32, s.coll.piecesSent), (31, 0, s.coll.resends)]
  else if off = 0x50010 then some [(63, 32, s.coll.saturated), (31, 16, s.coll.nanOut), (15, 0, s.coll.staleDrop)]
  else (index 0x50100 8 4 off).bind (fun p => whole (s.coll.press.findD p 0))

/-! ### Fabric ports (R222) -/

/-- The block of a fabric port (R222). -/
def portRegs (s : State) (p r : Nat) : Option Fields :=
  let k := s.port p
  if r = 0x00 then keep k.cfg [(63, 48), (47, 32), (5, 4), (1, 1), (0, 0)]
  else if r = 0x08 then some [(63, 46, k.nbrNode), (45, 42, k.nbrPort),
    (41, 40, if k.cond == .up || k.cond == .retrain then k.ver else 0), (39, 24, sat 16 k.delay),
    (3, 3, (planMatch s p).toNat), (2, 0, linkCode k.cond)]
  else if r = 0x10 then whole k.cnt.txBytes
  else if r = 0x18 then whole k.cnt.rxBytes
  else if r = 0x20 then some [(63, 32, k.cnt.lcrcErr), (31, 16, k.cnt.replays), (15, 8, k.cnt.retrains), (7, 0, k.cnt.format)]
  else if r = 0x28 then some [(63, 48, k.cnt.bankDrop), (47, 32, k.cnt.datelineDrop), (31, 16, k.cnt.noRoute), (15, 0, k.cnt.hopDrop)]
  else if r = 0x30 then some [(63, 48, k.cnt.pkeyDrop), (47, 32, k.cnt.sheetLate), (31, 16, k.cnt.circuitDrop), (15, 0, k.cnt.vc0Drop)]
  else if r = 0x38 then whole k.cnt.sheetWaits
  else if r = 0xC0 then some [(63, 32, k.cnt.fecCorrected), (31, 0, k.cnt.fecUncorrected)]
  else if r = 0xC8 then some [(63, 32, k.cnt.altTaken), (31, 0, k.cnt.ceMarked)]
  else match index 0x40 8 8 r, index 0x80 8 8 r with
    | some v, _ => whole (k.cnt.stall.findD v 0 / 10)
    | _, some v => some [(63, 32, max (k.cnt.peak.findD v 0) (queueBytes k v)), (31, 0, queueBytes k v)]
    | _, _ => none

/-- The fabric registers (R222). -/
def fabricRegs (s : State) (off : Nat) : Option Fields :=
  let r := s.routing
  if off < 0x61000 then portRegs s ((off - 0x60000) / 0x100) (off % 0x100)
  else if off = 0x61000 then keep r.node [(18, 18), (17, 0)]
  else if off = 0x61008 then keep r.cfg [(63, 48), (47, 40), (39, 32), (31, 16), (7, 0)]
  else if off = 0x61010 then some [(23, 16, r.code),
    (8, 8, ([false, true].any (fun b => stagedOrArmed (bankOf r b) && (bankOf r b).mgr)).toNat),
    (6, 4, bankCode r.bank1.cond), (2, 0, bankCode r.bank0.cond)]
  else if off = 0x61018 then some [(7, 0, 0)]
  else if off = 0x61020 then whole (r.tableFront.getD 0)
  else if off = 0x61028 then keep r.sel [(40, 40), (36, 32), (31, 31), (29, 28), (9, 0)]
  else if off = 0x61030 then whole (tableData s).toNat
  else none

/-! ### Ethernet ports (R244) -/

/-- ETH_STATUS (R244). -/
def ethStatus (s : State) (p : Nat) : Fields :=
  let e := s.ethPort p
  let g := gateNow s p
  [(63, 56, match g with | some x => gateMask (x.1.entries.getD x.2.1 0) | none => 0xFF),
   (55, 48, match g with | some x => x.2.1 | none => 0),
   (47, 40, bitsOf 8 (fun t => e.subs.vals.any (fun x => decide (s.now < x.pauseEnd.findD t 0)))),
   (39, 36, bitsOf 4 (fun i => (subOf e i).up)),
   (35, 32, bitsOf 4 (fun i => decide (s.now < (subOf e i).portPause))),
   (31, 24, bitsOf 8 (fun t => inXoff e t)),
   (23, 23, g.isSome.toNat)]

/-- The block of an Ethernet-mode port (R244). -/
def ethRegs (s : State) (p r : Nat) : Option Fields :=
  let e := s.ethPort p
  if r = 0x00 then keep e.cfg [(63, 50), (49, 42), (41, 41), (40, 40), (39, 32), (31, 30), (29, 28), (27, 27)]
  else if r = 0x08 then some (ethStatus s p)
  else if r = 0x10 then keep e.pfc [(63, 48), (31, 16), (15, 0)]
  else if r = 0x20 then whole e.txFrames
  else if r = 0x28 then whole e.rxFrames
  else if r = 0x30 then some [(63, 48, e.dropFormat), (47, 32, e.dropFilter), (31, 16, e.dropProtocol), (15, 0, e.dropBuffer)]
  else if r = 0x38 then some [(63, 48, e.pauseRx), (47, 32, e.pauseTx), (31, 16, e.policed), (15, 0, e.gateHeld)]
  else match index 0x40 8 8 r, index 0x80 8 16 r with
    | some t, _ => keep (e.police.findD t 0) [(63, 63), (62, 62), (55, 36), (35, 20)]
    | _, some i => keep (e.filter.findD i 0) [(63, 63), (47, 0)]
    | _, _ => none

/-- The VLAN entry that ETH_VSEL selects. -/
def selVlan (s : State) : Vlan := (s.ethPort (fld s.eth.vsel 7 4)).vlans.findD (fld s.eth.vsel 2 0) default

/-- The scheduler node that SCH_SEL selects; a selection that names none reads zero (R244). -/
def selNode (s : State) : Word :=
  let e := s.ethPort (fld s.eth.schSel 15 12)
  let i := fld s.eth.schSel 6 0
  match fld s.eth.schSel 9 8 with
  | 0 => if i < 8 then svcNodeOf e i else 0
  | 1 => subNodeOf e i
  | 2 => e.portNode
  | _ => 0

/-- The Ethernet registers (R244). -/
def ethernetRegs (s : State) (off : Nat) : Option Fields :=
  if off < 0x71000 then ethRegs s ((off - 0x70000) / 0x100) (off % 0x100)
  else if off = 0x71000 then keep s.eth.vsel [(7, 4), (2, 0)]
  else if off = 0x71008 then keep (selVlan s).vlan [(63, 63), (59, 48), (47, 0)]
  else if off = 0x71010 then keep (selVlan s).ip4 [(32, 32), (31, 0)]
  else if off = 0x71018 then whole (selVlan s).ip6Hi.toNat
  else if off = 0x71020 then whole (selVlan s).ip6Lo.toNat
  else if off = 0x71100 then keep s.eth.schSel [(15, 12), (9, 8), (6, 0)]
  else if off = 0x71108 then keep (selNode s) [(63, 63), (55, 48), (47, 28), (27, 12)]
  else none

/-! ### HBM and Pomel links (R268, R292) -/

/-- The HBM registers (R268). -/
def hbmRegs (s : State) (off : Nat) : Option Fields :=
  let h := s.hbm
  if off = 0x80000 then keep h.cfg [(47, 40), (31, 16), (7, 0)]
  else if off = 0x80008 then some [(63, 32, hbmAvail h), (27, 16, h.retirePending.toNat), (11, 0, h.live.toNat)]
  else if off = 0x80010 then some [(63, 32, h.passes), (31, 0, h.position)]
  else if off = 0x80018 then some [(48, 48, h.ueScrub.toNat), (47, 44, h.ueStack), (39, 0, h.ueAddr)]
  else match index 0x80100 0x10 12 off, index 0x80108 0x10 12 off with
    | some n, _ => some [(63, 32, (s.stack n).corrected), (31, 0, (s.stack n).uncorrected)]
    | _, some n => some [(63, 48, (s.stack n).spared), (47, 32, (s.stack n).sparesLeft), (31, 0, (s.stack n).retrains)]
    | _, _ => none

/-- The block of a Pomel link (R292). -/
def plRegs (s : State) (l r : Nat) : Option Fields :=
  let k := s.link l
  if r = 0x00 then keep k.cfg plCfgFields
  else if r = 0x08 then some [(47, 32, k.lanes), (23, 16, k.epoch), (12, 12, k.agent.toNat), (9, 8, k.width),
    (5, 4, k.ver), (2, 0, linkCode k.cond)]
  else if r = 0x10 then some [(7, 0, 0)]
  else if r = 0x18 then some [(63, 32, k.discarded), (31, 16, k.retrains), (15, 0, k.stallMax)]
  else if r = 0x20 then some [(63, 40, k.backInval), (39, 23, k.watchFull), (22, 0, k.snoop.length)]
  else if r = 0x28 then some [(63, 32, k.lcrcErr), (31, 16, k.aptViol), (15, 8, k.replays), (7, 0, k.intDropped)]
  else if r = 0x30 then whole k.txBytes
  else if r = 0x38 then whole k.rxBytes
  else none

/-- The Pomel registers (R292). -/
def pomelRegs (s : State) (off : Nat) : Option Fields :=
  if off < 0x90400 then plRegs s ((off - 0x90000) / 0x100) (off % 0x100)
  else if off = 0x91000 then keep s.ctrl.aptSel [(9, 8), (5, 0)]
  else if off = 0x91008 then
    keep ((s.link (fld s.ctrl.aptSel 9 8)).apt.findD (fld s.ctrl.aptSel 5 0) 0) [(63, 63), (62, 62), (61, 61), (51, 32), (19, 0)]
  else none

/-! ### Instances (R308) -/

/-- INST_SELF, and INST_STATUS of the instance selected (R308). -/
def instSelf (s : State) (i : Nat) : Fields :=
  [(35, 16, (s.inst i).drainUs), (15, 12, bitsOf 4 (fun l => mayUse s i l)), (10, 8, instCode (s.inst i).st), (6, 0, i)]

/-- The control-space registers (R308). -/
def ctrlRegs (s : State) (off : Nat) : Option Fields :=
  if off = 0x100 then some [(3, 0, s.ctrl.mgrLinks)]
  else if off = 0x108 then some [(6, 0, s.ctrl.instSel)]
  else if off = 0x110 then some (instSelf s s.ctrl.instSel)
  else if off = 0x220 then keep s.ctrl.lastViol [(63, 63), (62, 61), (60, 56), (33, 0)]
  else (index 0x200 8 4 off).bind (fun l => some [(63, 32, s.ctrl.rsvdWrites.findD l 0), (31, 0, s.ctrl.refused.findD l 0)])

/-! ### Power (R321) -/

/-- PWR_UNIT (R321). -/
def unitReg (s : State) (u : Nat) : Fields :=
  let t := s.pwr.units.findD u default
  let ns := if t.level = 0 then t.ns else t.ns + (s.now - t.since)
  [(63, 32, ns / 1000), (31, 16, t.deferrals), (7, 7, t.deferredAt.isSome.toNat), (3, 0, t.level)]

/-- PWR_BKT of an ENERGY entry (R321). -/
def bucketReg (s : State) (i : Nat) : Fields :=
  match s.plans.active with
  | none => [(63, 63, 0), (55, 32, 0), (31, 0, 0)]
  | some p => match p.energy[i]? with
    | none => [(63, 63, 0), (55, 32, 0), (31, 0, 0)]
    | some e => if e.kind = 0 then [(63, 63, 0), (55, 32, 0), (31, 0, 0)]
      else [(63, 63, (lentNow s e).toNat), (55, 32, s.pwr.refill.findD i 0), (31, 0, satSigned 32 (s.pwr.balance.findD i 0))]

/-- The device-global power registers (R321). -/
def powerRegs (s : State) (off : Nat) : Option Fields :=
  let w := s.pwr
  if off = 0xA0000 then some [(9, 0, w.cap)]
  else if off = 0xA0008 then some [(8, 8, w.capDone.toNat), (7, 0, w.capCode)]
  else if off = 0xA0010 then keep w.cfg [(47, 40), (39, 32), (31, 16)]
  else if off = 0xA0018 then some [(63, 48, averageUw s / 1000000), (47, 40, w.tj), (31, 31, w.emerg.toNat),
    (25, 16, ceilDiv (reservedMw s.plans.active) 1000), (9, 0, w.staticW)]
  else if off = 0xA0020 then some [(63, 32, w.sharedRefill), (31, 0, satSigned 32 w.shared)]
  else if off = 0xA0028 then some [(7, 0, w.bktSel)]
  else if off = 0xA0030 then some (bucketReg s w.bktSel)
  else if off = 0xA0038 then some [(19, 0, Config.staticMw)]
  else if off = 0xA0300 then some [(63, 32, w.energyWaits), (31, 16, w.emergencies), (15, 0, w.deferExpired)]
  else match index 0xA0100 8 5 off, index 0xA0200 8 5 off with
    | some u, _ => some (unitReg s u)
    | _, some d => some [(63, 32, Config.factoryPj d), (15, 0, kOf s d)]
    | _, _ => none

/-! ### Faults (R338) -/

/-- The 32 bytes of a fault log entry (R322). -/
def faultBytes (seq : Nat) (e : FaultEntry) : List Byte :=
  let b := leBytes 8 e.time ++ leBytes 4 seq ++ leBytes 1 e.cls ++ leBytes 1 e.status ++ leBytes 2 e.engine
    ++ leBytes 1 e.inst ++ leBytes 1 (e.timeDoubt.toNat + 2 * e.degrades.toNat) ++ leBytes 2 0
    ++ leBytes 4 e.object ++ leBytes 4 e.detail.toNat
  b ++ leBytes 4 (crc32c b).toNat

/-- The entry that FLT_LOG_SEL selects, if it is held. -/
def selFault (s : State) : List Byte :=
  let f := s.flt
  if dmod 32 f.logSel f.oldest < dmod 32 f.nextSeq f.oldest then
    match f.log.find (f.logSel % logSize) with
    | some e => faultBytes f.logSel e
    | none => []
  else []

/-- Bit `i`: core i met its last watchdog (R337, R338). -/
def coreAlive (s : State) (i : Nat) : Bool :=
  match s.flt.wdLast.find i with
  | none => true
  | some t => decide (t + max 10 (fld s.flt.cfg 23 16) * 1000000 ≤ s.now)

/-- The record that ALT_SEL selects. -/
def selAlt (s : State) : Option Alt := s.flt.alts.find s.flt.altSel

/-- The fault registers (R338). -/
def faultRegs (s : State) (off : Nat) : Option Fields :=
  let f := s.flt
  if off = 0xB0000 then keep f.cfg [(31, 24), (23, 16), (0, 0)]
  else if off = 0xB0008 then some [(63, 32, f.overwritten), (9, 9, 0), (8, 8, f.pending.toNat), (7, 0, (causes s).toNat)]
  else if off = 0xB0010 then some [(63, 32, f.nextSeq), (31, 0, f.oldest)]
  else if off = 0xB0018 then some [(31, 0, f.logSel)]
  else if off = 0xB0040 then some [(11, 11, f.vecEn.toNat), (10, 0, f.vector)]
  else if off = 0xB0200 then some [(15, 0, f.altSel)]
  else if off = 0xB0208 then some [(63, 46, (selAlt s).elim 0 (·.origin)), (3, 3, (altEnt s f.altSel).isSome.toNat),
    (2, 0, (selAlt s).elim 0 (fun a => altCode a.cond))]
  else if off = 0xB0210 then whole ((selAlt s).elim 0 (fun a => if a.cond = .none then 0 else a.e))
  else if off = 0xB0300 then some [(63, 32, sat 32 (f.restoreDone / 1048576)), (31, 16, f.restoring.cells.length),
    (15, 8, f.restoreStatus), (1, 1, f.restoreFailed.toNat), (0, 0, (!f.restoring.cells.isEmpty).toNat)]
  else if off = 0xB0308 then some [(63, 32, f.expiries), (15, 0, bitsOf 16 (coreAlive s))]
  else match index 0xB0020 8 4 off, index 0xB0108 8 12 off with
    | some w, _ => whole (leAt (selFault s) (8 * w) 8)
    | _, some c => whole (f.classCount.findD (c + 1) 0)
    | _, _ => none

/-! ### Boot, metering, test (R359, R369, R380) -/

/-- The boot registers (R359). -/
def bootRegs (s : State) (off : Nat) : Option Fields :=
  let b := s.boot
  if off = 0xC0000 then some [(63, 32, b.warmBoots), (9, 9, b.repaired.toNat), (8, 8, b.kindWarm.toNat), (2, 0, stateCode s)]
  else if off = 0xC0008 then whole b.running.toNat
  else if off = 0xC0010 then whole b.flashVersion.toNat
  else if off = 0xC0018 then some [(47, 32, b.keyRevoke.toNat), (31, 24, b.flashSvn), (23, 16, b.runningSvn), (15, 8, b.fuseSvn)]
  else if off = 0xC0020 then some [(63, 32, b.bytesWritten), (5, 4, b.attempts), (2, 0, condCode b.stage)]
  else none

/-- The record of the ring that MTR_RD_SEL selects. -/
def ringRecord (s : State) : List Byte :=
  match s.mtr.ring.find? (fun w => w.seq == s.mtr.rdSel.toNat) with
  | some w => markBytes w
  | none => []

/-- The metering registers (R369). -/
def meterRegs (s : State) (off : Nat) : Option Fields :=
  let m := s.mtr
  if off = 0xD0000 then some [(11, 0, m.periodNext)]
  else if off = 0xD0008 then some [(63, 32, islandBoot s), (16, 8, m.ringHeld.length), (0, 0, m.running.toNat)]
  else if off = 0xD0010 then some [(63, 32, m.ring.head?.elim 0 (·.seq)), (31, 0, m.ring.getLast?.elim 0 (·.seq))]
  else if off = 0xD0018 then whole m.rdSel.toNat
  else (index 0xD0100 8 32 off).bind (fun w => whole (leAt (ringRecord s) (8 * w) 8))

/-- Number of a shadow of a window register, and of a register of an object. -/
def winKey (i off : Nat) : Nat := i * 16777216 + off
def objKey (n off : Nat) : Nat := n * 16777216 + off

/-- TEL_DATA: the shadow that a selection names; each reads zero where nothing was latched (R378, R380). -/
def telData (s : State) : Word :=
  let v := s.tst.telSel
  let off := fld v 23 0
  let obj := fld v 55 36
  if !bit v 32 then (if off = 0xA0030 then s.tst.shadowObj.findD (objKey obj off) 0 else s.tst.shadowDev.findD off 0)
  else if off = 0x3020 ∨ off = 0x3028 then s.tst.shadowObj.findD (objKey obj off) 0
  else s.tst.shadowWin.findD (winKey (fld v 62 56) off) 0

/-- TEL_I_DATA: the same for an instance, of its own window and of the QPs it holds (R378). -/
def telDataI (s : State) (i : Nat) : Word :=
  let v := (s.inst i).win.telSel
  let off := fld v 23 0
  let obj := fld v 55 36
  if !bit v 32 then 0
  else if off = 0x3020 ∨ off = 0x3028 then (if holds s i 0x03 obj then s.tst.shadowObj.findD (objKey obj off) 0 else 0)
  else s.tst.shadowWin.findD (winKey i off) 0

/-- The fields of TEL_SEL. -/
def telFields : List (Nat × Nat) := [(62, 56), (55, 36), (32, 32), (23, 0)]

/-- The test registers (R380). -/
def testRegs (s : State) (off : Nat) : Option Fields :=
  let t := s.tst
  if off = 0xE0000 then some [(0, 0, t.scanEn.toNat)]
  else if off = 0xE0300 then keep t.xport [(4, 4), (3, 0)]
  else if off = 0xE0400 then some [(27, 16, 0), (7, 0, 0)]
  else if off = 0xE0408 then some [(63, 32, t.memFails), (31, 20, t.memFailed.toNat), (9, 9, t.memRunning.isSome.toNat),
    (8, 8, t.memDone.toNat), (7, 0, t.memCode)]
  else if off = 0xE0410 then keep t.inject [(63, 62), (39, 0)]
  else if off = 0xE0418 then some [(63, 32, t.injApplied), (0, 0, t.injArmed.toNat)]
  else if off = 0xE1000 then keep t.telSel telFields
  else if off = 0xE1008 then whole (telData s).toNat
  else match index 0xE0100 8 16 off, index 0xE0180 8 16 off, index 0xE0200 8 4 off with
    | some p, _, _ => keep (t.loop.findD p 0) [(11, 8), (5, 4), (2, 0)]
    | _, some p, _ => keep (t.prbs.findD p 0) [(63, 16), (3, 0)]
    | _, _, some l => keep (t.plLoop.findD l 0) [(11, 8), (5, 4), (2, 0)]
    | _, _, _ => none

/-- A device-global register (R293, R309). -/
def devRegs (s : State) (off : Nat) : Option Fields :=
  if off < 0x10000 then ctrlRegs s off
  else if off < 0x20000 then timeRegs s off
  else if off < 0x30000 then planRegs s off
  else if off < 0x40000 then syncRegs s off
  else if off < 0x50000 then transportRegs s off
  else if off < 0x60000 then collRegs s off
  else if off < 0x70000 then fabricRegs s off
  else if off < 0x80000 then ethernetRegs s off
  else if off < 0x90000 then hbmRegs s off
  else if off < 0xA0000 then pomelRegs s off
  else if off < 0xB0000 then powerRegs s off
  else if off < 0xC0000 then faultRegs s off
  else if off < 0xD0000 then bootRegs s off
  else if off < 0xE0000 then meterRegs s off
  else if off < 0xF0000 then testRegs s off
  else none

/-! ### Instance windows (R294) -/

/-- A register of an object the instance may not see reads zero, with the same fields (R297). -/
def seen (ok : Bool) (r : Option Fields) : Option Fields :=
  if ok then r else r.map (fun fs => fs.map (fun f => (f.1, f.2.1, 0)))

/-- The queue registers (R96). -/
def queueRegs (s : State) (i off : Nat) : Option Fields :=
  let w := (s.inst i).win
  let held := holds s i 0x01 w.wqSel
  let q : Option WorkQueue := match s.queues.find w.wqSel with | some x => if x.inst = i then some x else none | none => none
  if off = 0x1000 then some [(18, 0, w.wqSel)]
  else if off = 0x1008 then seen held (whole (match q with | some x => x.base.toNat | none => (w.wqBase.findD w.wqSel 0).toNat))
  else if off = 0x1010 then seen held (match q with
    | some x => some [(25, 24, x.level), (23, 23, x.raw.toNat), (21, 17, x.depthLog), (16, 0, x.ring)]
    | none => keep (w.wqCfg.findD w.wqSel 0) [(25, 24), (23, 23), (21, 17), (16, 0)])
  else if off = 0x1018 then some [(7, 0, 0)]
  else if off = 0x1020 then some [(8, 8, w.wqDone.toNat), (7, 0, w.wqCode)]
  else if off = 0x1028 then seen (held && q.isSome) (some (match q with
    | some x => [(63, 32, x.haltIdx), (31, 24, x.haltStatus), (19, 16, reasonCode x.reason), (7, 7, 1), (2, 0, queueCode x.st)]
    | none => [(63, 32, 0), (31, 24, 0), (19, 16, 0), (7, 7, 0), (2, 0, 0)]))
  else if off = 0x1030 then seen (held && q.isSome) (some [(63, 32, q.elim 0 (·.fetch)), (31, 0, q.elim 0 (·.pi))])
  else if off = 0x1038 then seen (held && q.isSome) (some [(63, 32, q.elim 0 cplSeq), (8, 0, q.elim 0 (·.started.length))])
  else none

/-- The ring registers, and the queue engine's own (R96). -/
def ringRegs (s : State) (i off : Nat) : Option Fields :=
  let w := (s.inst i).win
  let held := holds s i 0x02 w.cqSel
  let r : Option Ring := match s.rings.find w.cqSel with | some x => if x.inst = i then some x else none | none => none
  if off = 0x1100 then some [(16, 0, w.cqSel)]
  else if off = 0x1108 then seen held (whole (match r with | some x => x.base.toNat | none => (w.cqBase.findD w.cqSel 0).toNat))
  else if off = 0x1110 then seen held (match r with
    | some x => some [(21, 17, x.depthLog), (11, 11, x.vecEn.toNat), (10, 0, x.vector)]
    | none => keep (w.cqCfg.findD w.cqSel 0) [(21, 17), (11, 11), (10, 0)])
  else if off = 0x1118 then some [(7, 0, 0)]
  else if off = 0x1120 then some [(8, 8, w.cqDone.toNat), (7, 0, w.cqCode)]
  else if off = 0x1128 then seen (held && r.isSome) (some [(63, 32, r.elim 0 (fun x => dmod 32 x.rp x.wp)),
    (2, 2, r.elim 0 (fun x => x.lost.toNat)), (1, 1, r.elim 0 (fun x => x.armed.toNat)), (0, 0, 1)])
  else if off = 0x1130 then seen (held && r.isSome) (some [(63, 32, r.elim 0 (·.wp)), (31, 0, r.elim 0 (·.ci))])
  else if off = 0x1200 then some [(63, 32, w.early), (31, 0, w.stale)]
  else if off = 0x1208 then some [(63, 32, w.errors), (0, 0, w.errPending.toNat)]
  else if off = 0x1210 then keep w.errVec [(11, 11), (10, 0)]
  else none

/-- The sync registers of a window (R118). -/
def granRegs (s : State) (i off : Nat) : Option Fields :=
  let w := (s.inst i).win
  let g := w.gSel
  let may := mayName s i g
  let own := ownsGran s i g
  let id := w.rdSel
  let idSem := (s.granule (granOf id)).semMode
  if off = 0x2000 then some [(6, 0, g)]
  else if off = 0x2008 then seen may (some [(63, 32, if own then sat 32 (granWaits s g).length else 0),
    (6, 6, (covers (activeClaims s) 0x04 g).toNat), (5, 5, (sharedGran s i g).toNat), (4, 4, own.toNat),
    (0, 0, (s.granule g).semMode.toNat)])
  else if off = 0x2010 then some [(8, 8, 0), (7, 0, 0)]
  else if off = 0x2018 then some [(8, 8, w.gDone.toNat), (7, 0, w.gCode)]
  else if off = 0x2020 then seen own (whole ((shareOf s g).toNat % 2 ^ 64))
  else if off = 0x2028 then seen own (whole ((shareOf s g).toNat / 2 ^ 64))
  else if off = 0x2030 then whole (bitsOf 64 (fun k => ownsGran s i k))
  else if off = 0x2038 then whole (bitsOf 64 (fun k => ownsGran s i (64 + k)))
  else if off = 0x2040 then some [(20, 0, id)]
  else if off = 0x2048 then seen (namesObject s i idSem id) (whole (if idSem then lastTickVal s id % 2 ^ 32 else lastTickVal s id))
  else if off = 0x2050 then some [(63, 32, w.lulls), (31, 16, w.dbIgnored), (15, 0, w.dbOverflow)]
  else none

/-- QP_RETRY and QP_RATE of a QP (R155). -/
def qpRetry (k : Qp) : Fields := [(63, 32, k.retries), (31, 16, k.busyRx), (11, 8, k.k), (7, 0, k.j)]
def qpRate (s : State) (q : Nat) : Fields :=
  let k := s.qp q
  [(63, 48, if (qpCircuit s q).isSome then 0 else k.rate), (47, 32, k.rtt), (31, 16, k.alpha), (15, 0, k.cnpRx)]

/-- The QP registers (R155). -/
def qpRegs (s : State) (i off : Nat) : Option Fields :=
  let w := (s.inst i).win
  let q := w.qpSel
  let k := s.qp q
  let held := holds s i 0x03 q
  let c := qpCircuit s q
  if off = 0x3000 then some [(19, 0, q)]
  else if off = 0x3008 then seen held (some [(63, 56, k.lastStatus), (55, 48, k.setupReason), (47, 32, c.elim 0 (·.2)),
    (19, 16, qpPort s q), (15, 15, c.isSome.toNat), (14, 14, (pinned s q).toNat), (13, 13, k.resident.toNat),
    (12, 12, (k.ident.path != 0).toNat), (11, 10, k.ident.cipher),
    (9, 8, if k.st == .closed || k.st == .opening then 0 else k.ident.ver), (7, 7, 1), (2, 0, qpCode k.st)])
  else if off = 0x3010 then seen held (some [(63, 32, k.nextPsn), (31, 0, k.unacked)])
  else if off = 0x3018 then seen held (some [(63, 32, k.applied), (31, 0, k.nextMsn)])
  else if off = 0x3020 then seen held (some (qpRetry k))
  else if off = 0x3028 then seen held (some (qpRate s q))
  else if off = 0x3030 then some [(63, 32, w.dupRx), (31, 0, w.retransmits)]
  else none

/-- The collective registers of a window (R189). -/
def slotRegs (s : State) (i off : Nat) : Option Fields :=
  let n := (s.inst i).win.collSel
  let x := s.slot n
  let own := match x.desc with | some d => d.owner == i | none => false
  if off = 0x4000 then some [(5, 0, n)]
  else if off = 0x4008 then seen own (some [(63, 32, x.desc.elim 0 (·.collId)), (31, 24, x.lastStatus), (17, 17, x.alg.toNat),
    (7, 7, 1), (1, 0, slotCode x.cond)])
  else if off = 0x4010 then seen own (some [(63, 32, x.nextStep), (31, 0, x.stepsOk)])
  else if off = 0x4018 then seen own (some [(63, 32, x.detail.toNat), (31, 0, x.faults)])
  else none

/-- The segment and couch registers of a window (R268). -/
def segRegs (s : State) (i off : Nat) : Option Fields :=
  let w := (s.inst i).win
  let g := s.seg i w.segSel
  let c := if (couchSource s i w.couchSel).isSome then s.couch.find w.couchSel else none
  if off = 0x5000 then some [(3, 0, w.segSel)]
  else if off = 0x5008 then whole w.segBase.toNat
  else if off = 0x5010 then keep w.segCfg [(39, 38), (36, 36), (35, 35), (34, 34), (33, 33), (32, 32), (31, 0)]
  else if off = 0x5018 then some [(31, 0, 0)]
  else if off = 0x5020 then some [(7, 0, 0)]
  else if off = 0x5028 then some [(8, 8, w.segDone.toNat), (7, 0, w.segCode)]
  else if off = 0x5030 then some [(63, 32, sat 32 g.uses), (5, 5, (segClaimed s i w.segSel).toNat),
    (4, 4, (segQueued s i w.segSel).toNat), (3, 3, (g.valid && g.base % 2 ^ 30 == 0 && g.len % 512 == 0).toNat),
    (2, 2, g.lost.toNat), (1, 1, g.draining.toNat), (0, 0, g.valid.toNat)]
  else if off = 0x5038 then some [(63, 40, w.remoteRefused), (39, 36, w.lastReason), (35, 32, w.lastSeg), (31, 0, w.localRefused)]
  else if off = 0x5100 then some [(15, 0, w.couchSel)]
  else if off = 0x5108 then some [(63, 8, c.elim 0 (fun x => x.validSeq)), (4, 4, c.elim 0 (fun x => x.validGen.getD 0)),
    (3, 3, c.elim 0 (fun x => x.validGen.isSome.toNat)), (2, 0, c.elim 0 (fun x => couchCode x.cond))]
  else none

/-- The interrupt registers and PL_VIEW_I of a window (R292). -/
def vecRegs (s : State) (i off : Nat) : Option Fields :=
  let v := (s.inst i).win.intSel
  let x := s.vec v
  if off = 0x6000 then some [(10, 0, v)]
  else if off = 0x6008 then seen (holds s i 0x0C v) (some [(63, 63, x.en.toNat), (62, 62, x.pending.toNat), (61, 60, x.link),
    (47, 32, x.target), (31, 0, x.data)])
  else if off = 0x6100 then some ([0, 1, 2, 3].flatMap (fun l =>
    [(16 * l + 15, 16 * l + 8, if mayUse s i l then (s.link l).epoch else 0),
     (16 * l + 2, 16 * l, if mayUse s i l then linkCode (s.link l).cond else 0)]))
  else none

/-- MBX_STATUS of a door (R308). -/
def mbxStatus (d : DoorState) : Fields := [(63, 32, d.tag), (31, 16, d.ignored), (1, 1, d.done.toNat), (0, 0, d.busy.toNat)]

/-- The mailbox registers of a window (R308). -/
def mailRegs (s : State) (i off : Nat) : Option Fields :=
  let d := s.door i
  if off = 0x7240 then some [(0, 0, 0)]
  else if off = 0x7248 then some (mbxStatus d)
  else if off = 0x7250 then some [(11, 11, d.vecEn.toNat), (10, 0, d.vector)]
  else match index 0x7000 8 64 off, index 0x7200 8 8 off with
    | some w, _ => whole (d.req.findD w 0).toNat
    | _, some w => whole (d.resp.findD w 0).toNat
    | _, _ => none

/-- PWR_INST (R321). -/
def instBucket (s : State) (i : Nat) : Fields :=
  match bucketOf s 1 i with
  | some b => [(63, 63, 1), (62, 62, (lentNow s { (default : EnergyEnt) with kind := 1, target := i }).toNat), (31, 0, satSigned 32 (s.pwr.balance.findD b 0))]
  | none => [(63, 63, 0), (62, 62, 0), (31, 0, 0)]

/-- A register of an instance window (R294, R309). -/
def winRegs (s : State) (i off : Nat) : Option Fields :=
  if off = 0 then some (instSelf s i)
  else if off = 0x40 then whole s.now
  else if off < 0x1000 then none
  else if off < 0x1100 then queueRegs s i off
  else if off < 0x2000 then ringRegs s i off
  else if off < 0x3000 then granRegs s i off
  else if off < 0x4000 then qpRegs s i off
  else if off < 0x5000 then slotRegs s i off
  else if off < 0x6000 then segRegs s i off
  else if off < 0x7000 then vecRegs s i off
  else if off < 0x8000 then mailRegs s i off
  else if off = 0x8000 then some (instBucket s i)
  else if off = 0x8008 then whole (s.inst i).win.energy
  else if off = 0x9000 then keep (s.inst i).win.telSel telFields
  else if off = 0x9008 then whole (telDataI s i).toNat
  else none

/-! ### The whole map -/

/-- Doorbell slots of queues and rings, which read zero (R294, R295). -/
def doorbellSlot (off : Nat) : Bool :=
  (index wqDbOff 64 524288 off).isSome || (index cqDbOff 64 131072 off).isSome || off == syncDbOff

/-- The register at an address of the control space. -/
def regAt (s : State) (a : Nat) : Option Fields :=
  match windowOf a with
  | some i => winRegs s i ((a - winBase) % winSize)
  | none => if a < globalEnd then devRegs s a else none

/-- What a 64-bit read of an address gives; `none` is a reserved range. -/
def readAt (s : State) (a : Nat) : Option Word :=
  match windowOf a with
  | some i =>
    let off := (a - winBase) % winSize
    if doorbellSlot off then some 0 else (winRegs s i off).map reg
  | none => (regAt s a).map reg

end Sys2Proof.Machine
end

