-- ==== Sys2Proof/Machine/TimeOps.lean ====
section
/-! DEFINITION. Shared operations of the time unit (chapter 1): ticks, isobar latches (R30, R378), forward
steps (R34), corrections (R33), the LOCK table (R31), and which port is the parent (R17, R18). -/

namespace Sys2Proof.Machine

/-! ### Ticks -/

/-- One tick of fabric time (R13): its waits are evaluated (R107), stalled egress heads counted (R222), and the
collective ACKs that are due are sent. A device without its rails counts nothing. -/
def clockTick (s : State) : State :=
  if s.boot.phase == .off then s else flushAcks (forEach s.ports.keys (settle (endTick s)) noteStalls)

/-! ### Isobar snapshots (R30, R378) -/

/-- The device-global registers of R378, rising by offset. -/
def latchedDev : List Nat :=
  [0x200, 0x208, 0x210, 0x218, 0x10008, 0x10018, 0x20030, 0x30010]
    ++ [0x40100, 0x40108, 0x40110, 0x40118, 0x40120, 0x40140, 0x40148, 0x40150, 0x40158, 0x40160]
    ++ [0x50008, 0x50010, 0x50100, 0x50108, 0x50110, 0x50118]
    ++ (List.range 16).flatMap (fun p => (rangeFrom 2 24).map (fun r => 0x60000 + 0x100 * p + 8 * r))
    ++ (List.range 16).flatMap (fun p => [0x20, 0x28, 0x30, 0x38].map (fun r => 0x70000 + 0x100 * p + r))
    ++ [0x80010] ++ (List.range 24).map (fun r => 0x80100 + 8 * r)
    ++ (List.range 4).flatMap (fun l => [0x18, 0x20, 0x28, 0x30, 0x38].map (fun r => 0x90000 + 0x100 * l + r))
    ++ [0xA0020, 0xA0100, 0xA0108, 0xA0110, 0xA0118, 0xA0120, 0xA0300]
    ++ (List.range 12).map (fun c => 0xB0108 + 8 * c) ++ [0xB0308]
    ++ (List.range 16).map (fun p => 0xE0180 + 8 * p) ++ [0xE0408]

/-- The window registers of R378 that name no object. -/
def latchedWin : List Nat := [0x1200, 0x1208, 0x2050, 0x3030, 0x5038, 0x8008]

/-- The value a register has for a latch. -/
def latchValue (r : Option Fields) : Word := (r.map reg).getD 0

/-- Shadows of the device-global registers. -/
def shadowsDev (s : State) : Tbl Word :=
  latchedDev.foldl (fun t off => t.put off (latchValue (devRegs s off))) Tbl.empty

/-- Shadows of the window registers of every instance. -/
def shadowsWin (s : State) : Tbl Word :=
  s.insts.keys.foldl (fun t i => latchedWin.foldl (fun t off => t.put (winKey i off) (latchValue (winRegs s i off))) t) Tbl.empty

/-- Shadows of QP_RETRY and QP_RATE of each QP, and of PWR_BKT of each ENERGY entry. -/
def shadowsObj (s : State) : Tbl Word :=
  let t := s.qps.keys.foldl (fun t q =>
    (t.put (objKey q 0x3020) (reg (qpRetry (s.qp q)))).put (objKey q 0x3028) (reg (qpRate s q))) Tbl.empty
  (buckets s).foldl (fun t x => t.put (objKey x.1 0xA0030) (reg (bucketReg s x.1))) t

/-- The PEAK fields and STALL_MAX start again after a latch (R222, R292). -/
def restartPeaks (s : State) : State :=
  { s with
    ports := s.ports.mapCells (fun _ k => { k with cnt := { k.cnt with peak := Tbl.empty } })
    links := s.links.mapCells (fun _ k => { k with stallMax := 0 }) }

/-- The latch of the armed snapshot (R30). ARMED_SNAP goes on naming the snapshot armed last: the spec does not say what it
reads with none armed (DESIGN CHOICE, log entry 50). -/
def latchIsobar (s : State) (stepped : Bool) : State :=
  let s := forEach s.ports.keys s noteStalls
  let s := s.modTst (fun t => { t with shadowDev := shadowsDev s, shadowWin := shadowsWin s, shadowObj := shadowsObj s })
  restartPeaks (s.modTime (fun t => { t with
    isoSnap := t.isoArmedSnap, isoArmed := false, isoStepped := stepped, isoLost := t.lock == .lost }))

/-- An armed snapshot whose tick has come is latched: before a front of the same tick (R56), and after a step that passed
it (R34). -/
def latchDue (s : State) (stepped : Bool) : State :=
  if s.time.isoArmed && decide (tickStart s.time.isoAt ≤ s.now) then latchIsobar s stepped else s

/-! ### Corrections (R33, R34) -/

/-- Fabric time becomes `t`, and the first tick that starts at or after it begins (R13, R34). A path delay being
measured sees the clock move under it. -/
def stepTo (s : State) (t : Nat) : State :=
  let s := catchUp s
  let d : Int := (t : Int) - s.now
  freshTick ((s.modPwr (fun p => { p with lastPeriod := periodStart (tickStart t) })).modTime (fun x => { x with
    now := tickStart t, slew := 0, ref := x.ref + (tickStart t - t) * 1000000
    ports := x.ports.mapCells (fun _ p => { p with
      msLeg := p.msLeg + d, lastReq := p.lastReq.map (fun r => ((r : Int) + d).toNat) }) })) (tickStart t)

/-- An armed table front that a step has passed switches the banks in the tick of the step (R219). -/
def passTableFront (s : State) : State :=
  match s.routing.tableFront, [false, true].find? (fun b => (bankOf s.routing b).cond == .armed) with
  | some f, some b => if tickStart f ≤ s.now
      then (moveInjection s b).modRouting (fun r => { r with tableFront := none }) else s
  | _, _ => s

/-- Fabric time steps forward to `t` (R34): a passed isobar latches, a passed table front switches (R219), and a
passed plan front is missed (R36). The tick of the step ends as every tick does (`evaluateTick`): the time waits
passed complete, and the deadlines passed expire unless their waits are satisfied. -/
def stepForward (s : State) (t : Nat) : State :=
  let s := (stepTo s t).modTime (fun x => { x with stepCount := sat 16 (x.stepCount + 1) })
  let s := passTableFront (latchDue s true)
  if s.plans.nextCond == .armed && decide (tickStart s.plans.front < s.now) then missFront s else s

/-- Before the first LOCKED, fabric time steps in either direction (R33). -/
def stepFree (s : State) (o : Int) : State :=
  if o < 0 then stepForward s (s.now + (-o).toNat) else stepTo s (s.now - o.toNat)

/-- An offset in ns is slewed away as fabric time passes (R33; `passTo`). -/
def slewOff (s : State) (o : Int) : State := s.modTime (fun x => { x with slew := o * 1000000 })

/-- Under the rules of LOST, fabric time steps forward when it is behind by more than 1,000 ns, and slews
otherwise (R33). -/
def correctLost (s : State) (o : Int) : State :=
  if o < -1000 then stepForward s (s.now + (-o).toNat) else slewOff s o

/-- A correction in LOCKED and HOLDOVER is a slew (R33). -/
def correctSlow (s : State) (o : Int) : State := slewOff s o

/-- A correction in ACQUIRING (R33). -/
def correctAcquiring (s : State) (o : Int) : State :=
  if o = 0 then s else if s.time.everLocked then correctLost s o else stepFree s o

/-! ### LOCK (R31) -/

/-- The filtered offset after one more sync (R22), in whole ns, rounded down (log entry 47). -/
def filtered (f a : Nat) : Nat := ((f : Int) + ((a : Int) - f) / 8).toNat

/-- LOCK becomes LOCKED (R22, R31, R53). -/
def becomeLocked (s : State) (f p : Nat) : State :=
  noteCauses ((s.modTime (fun t => { t with
    lock := .locked, filt := f, parentErr := p, estAtSync := min 0xFFFE (f + p), lastValid := some t.now
    streak := 0, everLocked := true })).modPlans (fun x => { x with lockedAt := s.now }))

/-- A time fault: LOCK becomes LOST, and ESTIMATE keeps the value it has (R22, R31, R323). The fault arises
under the LOCK that is left. -/
def loseTime (s : State) : State :=
  let est := estimateOf s
  let s := raiseFault s 0x06 0 112 0xFF 0 (BitVec.ofNat 32 (satSigned 16 s.time.offset))
  noteCauses (s.modTime (fun t => { t with lock := .lost, estAtSync := est, streak := 0 }))

/-- This sync interval follows one that had a valid sync (R31). -/
def consecutive (s : State) (interval : Nat) : Bool :=
  match s.time.lastValid with | some t => decide (s.now < t + 2 * interval) | none => false

/-- A valid sync in ACQUIRING: the sixteenth in a row locks. -/
def syncAcquiring (s : State) (o : Int) (p n : Nat) : State :=
  if n ≥ 16 then becomeLocked (correctAcquiring s o) o.natAbs p
  else s.modTime (fun t => { t with streak := n, lastValid := some t.now })

/-- A valid sync in LOCKED or HOLDOVER. -/
def syncLocked (s : State) (o : Int) (p : Nat) : State :=
  if o.natAbs ≤ errLimit s then
    let f := filtered s.time.filt o.natAbs
    let s := correctSlow s o
    if s.time.lock = .holdover then becomeLocked s o.natAbs p
    else s.modTime (fun t => { t with filt := f, parentErr := p, estAtSync := min 0xFFFE (f + p), lastValid := some t.now })
  else
    let s := correctLost (loseTime s) o
    s.modTime (fun t => { t with lastValid := some t.now })

/-- A valid sync in LOST: sixteen in a row within the limit lock again. -/
def syncLost (s : State) (o : Int) (p n : Nat) : State :=
  let s := correctLost s o
  if o.natAbs > errLimit s then s.modTime (fun t => { t with streak := 0, lastValid := some t.now })
  else if n ≥ 16 then becomeLocked s o.natAbs p
  else s.modTime (fun t => { t with streak := n, lastValid := some t.now })

/-- A valid sync with measured offset `o` (own time minus the parent's) and parent error `p` (R22, R31). -/
def takeSync (s : State) (o : Int) (p interval : Nat) : State :=
  let n := if consecutive s interval then s.time.streak + 1 else 1
  let s := s.modTime (fun t => { t with offset := o })
  match s.time.lock with
  | .acquiring => syncAcquiring s o p n
  | .lost => syncLost s o p n
  | _ => syncLocked s o p

/-- Sync intervals without a valid sync take a locked device to HOLDOVER (R20, R31). -/
def enterHoldover (s : State) : State :=
  if s.time.lock = .locked then s.modTime (fun t => { t with lock := .holdover, streak := 0 }) else s

/-! ### Roles and ports (R16 to R18) -/

/-- TIME_CTRL.ROLE (R16). -/
def timeRole (s : State) : Nat := fld s.time.ctrl 3 2

/-- The epoch in ns on the PTP timescale (R11). -/
def epochNs (s : State) : Nat := s.time.epoch * 1000000000

/-- PTP_PORT_CFG.STATE: AUTO, MASTER, SLAVE, PASSIVE, DISABLED (R35). -/
def ptpState (s : State) (p : Nat) : Nat := fld (s.ptp p).cfg 15 12

/-- The sync interval of a port, ns (R35); an exponent outside the range is taken as −6 (log entry 48). -/
def syncInterval (s : State) (p : Nat) : Nat :=
  let k := (16 - fld (s.ptp p).cfg 11 8) % 16
  1000000000 / 2 ^ (if k ≤ 7 then k else 6)

/-- The port carries PTP: enabled, up, and not in loopback (R35, R371). -/
def ptpOn (s : State) (p : Nat) : Bool :=
  bit (s.ptp p).cfg 0 && ptpState s p != 4 && loopOf s p == 0
    && (if isEth s p then (s.ethPort p).subs.vals.any (·.up) else (s.port p).cond == .up)

/-- How long a master stands after its last Announce, ns: three intervals of 2 s, the defaults of IEEE 1588-2019
(PRESUMED, log entry 110). -/
def announceTimeout : Nat := 6000000000

/-- Rank of the master that an Ethernet-mode port in AUTO hears, where it is better than the device's own clock
(R18). -/
def autoRank (s : State) (p : Nat) : Option Nat :=
  if isEth s p && ptpOn s p && ptpState s p == 0 && decide (s.now < (s.ptp p).heardAt + announceTimeout)
  then (s.ptp p).rank.filter (fun r => decide (r < Config.ownRank.toNat)) else none

/-- The best rank heard in AUTO. -/
def bestRank (s : State) : Option Nat := ((List.range 16).filterMap (autoRank s)).min?

/-- The port with the best master heard in AUTO, the lower port on a tie. -/
def bestAuto (s : State) : Option Nat :=
  (bestRank s).bind (fun r => (List.range 16).find? (fun p => autoRank s p == some r))

/-- A port in AUTO announces the device: it hears no better master, or only one whose grandmaster is worse than
that of the best port (R18); on the same grandmaster it is PASSIVE. The low 16 bits of a rank tell paths to one
grandmaster apart (log entry 110). -/
def autoMaster (s : State) (p : Nat) : Bool :=
  match autoRank s p, bestRank s with
  | some r, some b => decide (b / 65536 < r / 65536)
  | _, _ => true

/-- The parent's port (R16 to R18): the lowest SLAVE port, else the best in AUTO. -/
def parentPort (s : State) : Option Nat :=
  match (List.range 16).find? (fun p => ptpOn s p && ptpState s p == 2) with
  | some p => some p
  | none => bestAuto s

/-- The port acts as master: STATE is MASTER, or an Ethernet-mode port in AUTO is one by the best master clock
algorithm (R17, R18). -/
def isMaster (s : State) (p : Nat) : Bool :=
  ptpOn s p && (ptpState s p == 1 || (isEth s p && ptpState s p == 0 && autoMaster s p))

/-- Bytes of a PTP message (IEEE 1588-2019; PRESUMED, log entry 49), the error TLV of R414 with an Announce. -/
def ptpLen : PtpMsg → Nat
  | .sync _ _ => 44
  | .followUp _ => 44
  | .announce _ _ => 78
  | .pdelayReq => 54
  | .pdelayResp _ => 54
  | .delayReq _ _ => 44
  | .delayResp _ _ _ => 54

/-- The frame of a PTP message in the transport that the far end of an Ethernet-mode port uses (R18): directly over
802.3, or over UDP from an address of the port, to the addresses of IEEE 1588-2019 (PRESUMED, log entry 49). -/
def ptpEthFrame (s : State) (p : Nat) (m : PtpMsg) : EthFrame :=
  let e := s.ethPort p
  let v6 := (s.ptp p).transport == 2
  let event := match m with | .sync _ _ => true | .delayReq _ _ => true | _ => false
  let port : BitVec 16 := if event then 319 else 320
  let raw := { (default : EthFrame) with
    dst := 0x011B19000000, src := (ownMac e).getD 0, length := max 64 (18 + ptpLen m), fcsOk := true, body := .ptp m }
  match (if (s.ptp p).transport = 0 then none
      else e.vlans.vals.findSome? (fun v => if vlanOk v then (ownIp v v6).map (fun a => (fld v.vlan 59 48, a)) else none)) with
  | none => raw
  | some (vid, src) => { raw with
      dst := if v6 then 0x333300000181 else 0x01005E000181
      tag := if vid = 0 then none else some (7, BitVec.ofNat 12 vid)
      length := udpFrameLen (vid != 0) v6 (ptpLen m)
      ip := some { (default : IpHeader) with
        v6 := v6, src := src, dst := if v6 then 0xFF0E0000000000000000000000000181 else asIp4 0xE0000181
        df := !v6, udp := true, udpSrc := port, udpDst := port, udpSumOk := true } }

/-- Send a PTP message on a port: a KIND 3 frame on VC0 (R17, R192), or a firmware frame of an Ethernet-mode port on
a sub-port (R225). -/
def sendPtpOn (s : State) (p sub : Nat) (m : PtpMsg) : State :=
  if isEth s p then ethOwn s p sub 1 (ptpEthFrame s p m) else sendVc0 s p (ptpFrame s p (ptpLen m) m)

/-- Send a PTP message on a port, on sub-port 0 of an Ethernet-mode port. -/
def sendPtp (s : State) (p : Nat) (m : PtpMsg) : State := sendPtpOn s p 0 m

/-- A PTP message that a frame delivered leaves the list of packets delivered. -/
def takePtp (s : State) (p : Nat) (is : PtpMsg → Bool) : State :=
  match s.inbox.find? (fun x => x.arr.port == some (BitVec.ofNat 4 p) && (match x.body with | .ptp m => is m | _ => false)) with
  | some x => { s with inbox := s.inbox.erase x }
  | none => s

/-- ASYMMETRY of a port, whole ns (R19, R35). -/
def asymmetryNs (s : State) (p : Nat) : Int := signed 16 (fld (s.ptp p).cfg 47 32) / 1000

/-- Delay of the path to the master of a port, ns (R17, R18). -/
def pathNs (s : State) (p : Nat) : Nat := if isEth s p then (s.ptp p).pathDelay else (s.port p).delay

/-- The timestamp of a message received `sub` ns into this tick, corrected for the link (R19). -/
def recvStamp (s : State) (p sub : Nat) : Int := ((s.now + sub : Nat) : Int) - asymmetryNs s p

/-- The offset that a sync sent at PTP time `origin` and received `sub` ns into this tick shows. -/
def syncOffset (s : State) (p origin sub : Nat) : Int :=
  recvStamp s p sub - (((origin : Int) - epochNs s) + pathNs s p)

/-- P of R22 for the parent on a port. -/
def parentError (s : State) (p : Nat) : Nat := ((s.ptp p).tlv).getD (s.ptp p).accBound

/-- A port asks for its path delay (R17, R18). -/
def askDelay (s : State) (p : Nat) : State :=
  sendPtp (s.modPtp p (fun x => { x with lastReq := none })) p (if isEth s p then .delayReq 0 0 else .pdelayReq)

end Sys2Proof.Machine
end

