-- ==== Sys2Proof/Machine/Time.lean ====
section
/-! DEFINITION. The commands of the time unit (chapter 1). -/

namespace Sys2Proof.Machine

/-! ### Registers with a row of their own -/

/-- A plan is loaded: either slot holds one, or an image is under check (R12, R16). -/
def anyPlan (s : State) : Bool := s.plans.active.isSome || s.plans.nextCond != .empty

/-- A write of TIME_EPOCH (R12). -/
def writeEpoch (s : State) (v : Word) : State :=
  if anyPlan s || s.queues.vals.any (fun w => w.st != .idle) then s
  else s.modTime (fun t => { t with epoch := fld v 47 0 })

/-- TIME_EPOCH_WRITE (R12). -/
def execTimeEpochWrite (link : BitVec 2) (value : Word) (s : State) : Host.Outcome State Fault Refusal :=
  .next (ctlWrite s link.toNat 0x10028 [(63, 48)] value (fun s => writeEpoch s value))

/-- A write of TIME_CTRL (R16, R35). -/
def writeTimeCtrl (s : State) (v : Word) : State :=
  let old := s.time.ctrl
  let role := if fld v 3 2 = 3 ∨ anyPlan s then fld old 3 2 else fld v 3 2
  s.modTime (fun t => { t with ctrl := reg [(31, 24, max 1 (fld v 31 24)),
    (23, 16, if fld v 23 16 < 16 then fld old 23 16 else fld v 23 16), (3, 2, role), (1, 0, fld v 1 0)] })

/-- TIME_CTRL_WRITE (R16). -/
def execTimeCtrlWrite (link : BitVec 2) (value : Word) (s : State) : Host.Outcome State Fault Refusal :=
  .next (ctlWrite s link.toNat 0x10000 [(63, 32), (15, 4)] value (fun s => writeTimeCtrl s value))

/-! ### PTP received -/

/-- A sync arrives on the parent's port (R17, R22, R31, R414); on any other port, and outside the FOLLOWER
role, it moves nothing. After it the port measures its path delay. -/
def syncArrives (s : State) (p origin sub : Nat) : State :=
  let s := takePtp s p (fun m => match m with | .sync o _ => o == origin | .followUp o => o == origin | _ => false)
  if !s.running || timeRole s != 0 || parentPort s != some p then s
  else
    let s := (s.modTime (fun t => { t with source := p })).modPtp p
      (fun x => { x with msLeg := recvStamp s p sub - ((origin : Int) - epochNs s) })
    let s := if (s.ptp p).tlv = some 0xFFFF then s
      else takeSync s (syncOffset s p origin sub) (parentError s p) (syncInterval s p)
    askDelay s p

/-- PTP_SYNC_RECEIVED (R31). -/
def execPtpSyncReceived (port : BitVec 4) (origin : Word) (sub : BitVec 4) (s : State) : Host.Outcome State Fault Refusal :=
  .next (syncArrives s port.toNat origin.toNat sub.toNat)

/-- Upper bound, ns, of the range that a clockAccuracy names (IEEE 1588-2019; PRESUMED, log entry 49); one
that names none stands as unknown (R22). -/
def accuracyBound (a : Nat) : Nat :=
  if 0x17 ≤ a ∧ a ≤ 0x30 then
    [1, 1, 1, 1, 1, 1, 1, 3, 10, 25, 100, 250, 1000, 2500, 10000, 25000, 100000, 250000, 1000000, 2500000, 10000000,
     25000000, 100000000, 250000000, 1000000000, 10000000000].getD (a - 0x17) 1000
  else if a = 0x31 then 2 ^ 64
  else 1000

/-- An Announce arrives (R18, R22, R414). -/
def announceArrives (s : State) (p : Nat) (tlv : Option (BitVec 16)) (acc rank : Nat) : State :=
  let s := takePtp s p (fun m => m == .announce tlv (BitVec.ofNat 8 acc))
  if !s.running || !ptpOn s p then s
  else s.modPtp p (fun x => { x with 
    tlv := tlv.map (·.toNat), accBound := accuracyBound acc, rank := some rank, heardAt := s.now })

/-- ANNOUNCE_RECEIVED (R414). -/
def execAnnounceReceived (port : BitVec 4) (tlv : Option (BitVec 16)) (accuracy : Byte) (rank : Word) (s : State) :
    Host.Outcome State Fault Refusal :=
  .next (announceArrives s port.toNat tlv accuracy.toNat rank.toNat)

/-- The interval in which the next sync of the source is due (R31). -/
def lockInterval (s : State) : Nat := if timeRole s = 1 then 1000000000 else syncInterval s s.time.source

/-- Four sync intervals pass without a valid sync (R31). -/
def syncExpired (s : State) : State :=
  match s.time.lastValid with
  | some t => if s.running && s.time.lock == .locked then enterHoldover (s.arriveAt (t + 4 * lockInterval s)) else s
  | none => s

/-- SYNC_INTERVAL_EXPIRY (R31). -/
def execSyncIntervalExpiry (s : State) : Host.Outcome State Fault Refusal := .next (syncExpired s)

/-- The first moment at which the holdover value passes ERR_LIMIT (R22). -/
def lostAt (s : State) (t : Nat) : Nat :=
  t + (errLimit s - s.time.estAtSync) * 1000000000 / max 1 (holdRate s) + 1

/-- The holdover value exceeds ERR_LIMIT (R31). -/
def holdoverLost (s : State) : State :=
  match s.time.lastValid with
  | some t => if s.running && s.time.lock == .holdover then loseTime (s.arriveAt (lostAt s t)) else s
  | none => s

/-- HOLDOVER_LIMIT_EXCEEDED (R31). -/
def execHoldoverLimitExceeded (s : State) : Host.Outcome State Fault Refusal := .next (holdoverLost s)

/-! ### TIME_PPS_IN and the time of day (R20) -/

/-- The TAI second that this edge marks, given at least 100 ms before it. -/
def todInForce (s : State) : Option Nat :=
  match s.time.tod with
  | some (sec, at_) => if at_ + 100000000 ≤ s.now then some sec else none
  | none => none

/-- An edge of TIME_PPS_IN: a sync of the GRANDMASTER_BOARD role when its time of day was given (R20, R22). -/
def ppsEdge (s : State) (sub : Nat) (refOk : Bool) : State :=
  let s := s.modTime (fun t => { t with refOk := refOk, ppsLast := some t.now })
  if timeRole s ≠ 1 ∨ !bit s.time.ctrl 1 then s
  else
    let tod := todInForce s
    let s := s.modTime (fun t => { t with tod := none })
    match tod with
    | some sec => takeSync s (((s.now + sub : Nat) : Int) - ((sec * 1000000000 : Nat) - (epochNs s : Int))) 0 1000000000
    | none => enterHoldover (s.modTime (fun t => { t with streak := 0 }))

/-- TIME_PPS_IN_EDGE (R20). -/
def execTimePpsInEdge (sub : BitVec 4) (refOk : Bool) (s : State) : Host.Outcome State Fault Refusal :=
  .next (if s.running then ppsEdge s sub.toNat refOk else s)

/-- TIME_TOD (R20, R306). -/
def giveTod (s : State) (d : Door) : State × Nat :=
  if timeRole s = 1 then (s.modTime (fun t => { t with tod := some ((reqWord s d 1).toNat, t.now) }), St.ok)
  else (s, St.malformed)

/-- TIME_TOD (R20). -/
def execTimeTod (door : Door) (link : BitVec 2) (s : State) : Host.Outcome State Fault Refusal :=
  .next (mailRow s door link.toNat 0x0050 (fun s => mailGate s door true [1] (fun s => answerSt door (giveTod s door))))

/-! ### TIME_PPS_OUT (R21) -/

/-- The active plan claims GPIO_7 as TIME_PPS_OUT (R21, R41). -/
def ppsClaimed (s : State) : Bool := (activeClaims s).any (fun c => c.kind == 0x09 && c.attr == 3 && within 7 1 c.first c.count)

/-- TIME_PPS_OUT may drive (R21). -/
def ppsMayDrive (s : State) : Bool :=
  ppsClaimed s && bit s.time.ppsCfg 0 && (s.time.lock == .locked || s.time.lock == .holdover)

/-- TIME_PPS_OUT is high: a pulse runs, and all three conditions of R21 hold. -/
def timePpsOut (s : State) : Bool := s.time.ppsOut.isSome && ppsMayDrive s

/-- The second boundary that the next pulse starts at: this tick's, if no pulse has started at it. -/
def nextSecond (s : State) : Nat :=
  if s.now % 1000000000 = 0 ∧ s.time.ppsOut ≠ some s.now then s.now else (s.now / 1000000000 + 1) * 1000000000

/-- A second boundary of fabric time: a pulse starts where TIME_PPS_OUT may drive. -/
def ppsStart (s : State) : State :=
  let s := s.arriveAt (nextSecond s)
  s.modTime (fun t => { t with ppsOut := if ppsMayDrive s then some t.now else none })

/-- PPS_OUT_PULSE (R21). -/
def execPpsOutPulse (s : State) : Host.Outcome State Fault Refusal := .next (if s.inService then ppsStart s else s)

/-- TIME_PPS_OUT_CFG.WIDTH_US (R35). -/
def ppsWidth (s : State) : Nat := let w := fld s.time.ppsCfg 31 12; if 1 ≤ w ∧ w ≤ 500000 then w else 500000

/-- The pulse ends (R21). -/
def ppsEnd (s : State) : State :=
  match s.time.ppsOut with
  | some t => (s.arriveAt (t + ppsWidth s * 1000)).modTime (fun x => { x with ppsOut := none })
  | none => s

/-- PPS_OUT_PULSE_END (R21). -/
def execPpsOutPulseEnd (s : State) : Host.Outcome State Fault Refusal := .next (ppsEnd s)

/-! ### Isobars (R29, R30) -/

/-- SNAP is written (R29): a refused arming leaves an earlier one as it is (log entry 50). -/
def armIsobar (s : State) (v : Word) : State :=
  let t := s.time.isoTime.toNat
  if t < s.now + 4096 then s.modTime (fun x => { x with isoLate := true })
  else s.modTime (fun x => { x with isoArmed := true, isoArmedSnap := fld v 15 0, isoAt := t, isoLate := false })

/-- ISOBAR_ARM (R29). -/
def execIsobarArm (link : BitVec 2) (value : Word) (s : State) : Host.Outcome State Fault Refusal :=
  .next (ctlWrite s link.toNat 0x10208 [(63, 16)] value (fun s => armIsobar s value))

/-- The latch tick of the armed snapshot (R30). -/
def isobarDue (s : State) : State :=
  if s.running && s.time.isoArmed then latchIsobar (s.arriveAt s.time.isoAt) false else s

/-- ISOBAR_LATCH (R30). -/
def execIsobarLatch (s : State) : Host.Outcome State Fault Refusal := .next (isobarDue s)

/-! ### PTP sent (R17, R18, R414) -/

/-- A master port sends a Sync at its interval, and a Follow_Up in two-step mode (R17); then it measures its
link. -/
def sendSync (s : State) (p : Nat) : State :=
  let s := s.arriveAt ((s.ptp p).lastSync + syncInterval s p)
  let two := bit (s.ptp p).cfg 1
  let t := s.now + epochNs s
  let s := sendPtp (s.modPtp p (fun x => { x with lastSync := s.now })) p (.sync t two)
  let s := if two then sendPtp s p (.followUp t) else s
  if isEth s p then s else askDelay s p

/-- PTP_SYNC_SEND (R17). -/
def execPtpSyncSend (port : BitVec 4) (s : State) : Host.Outcome State Fault Refusal :=
  .next (if s.running && isMaster s port.toNat then sendSync s port.toNat else s)

/-- An Announce with the error TLV of R414; the device's own clockAccuracy is not stated. -/
def sendAnnounce (s : State) (p : Nat) : State :=
  let d := drawFree s
  sendPtp d.2 p (.announce (some (BitVec.ofNat 16 (estimateOf s))) (d.1.setWidth 8))

/-- ANNOUNCE_SEND (R414). -/
def execAnnounceSend (port : BitVec 4) (s : State) : Host.Outcome State Fault Refusal :=
  .next (if s.running && isMaster s port.toNat then sendAnnounce s port.toNat else s)

/-- A peer-delay message on a fabric-mode port (R17): a request is answered in its tick, an answer gives the
link delay. -/
def peerDelay (s : State) (p : Nat) (m : PtpMsg) (sub : Nat) : State :=
  let s := takePtp s p (fun x => x == m)
  if !s.running || isEth s p || !ptpOn s p then s
  else match m, (s.ptp p).lastReq with
    | .pdelayReq, _ => sendPtp s p (.pdelayResp 0)
    | .pdelayResp turn, some t =>
      (s.modPtp p (fun x => { x with lastReq := none })).modPort p (fun k => { k with delay := (s.now + sub - t - turn) / 2 })
    | _, _ => s

/-- PDELAY_REQ (R17). -/
def execPdelayReq (port : BitVec 4) (msg : PtpMsg) (sub : BitVec 4) (s : State) : Host.Outcome State Fault Refusal :=
  .next (peerDelay s port.toNat msg sub.toNat)

/-- Mean path delay from the last sync and the answer to a Delay_Req sent at `t` (R18): half of what the two legs
took, each with its timestamp here corrected for the link (R19). -/
def meanDelay (s : State) (p recv t : Nat) : Nat :=
  (((s.ptp p).msLeg + (((recv : Int) - epochNs s) - ((t : Int) - asymmetryNs s p))) / 2).toNat

/-- The sub-port that a PTP message came in on (R225). -/
def subOfPtp (s : State) (p : Nat) (m : PtpMsg) : Nat :=
  match s.inbox.find? (fun x => x.arr.port == some (BitVec.ofNat 4 p) && x.body == .ptp m) with
  | some x => x.sub
  | none => 0

/-- A delay message on an Ethernet-mode port (R18): a master answers a Delay_Req, a slave takes the answer to
its own. -/
def endToEnd (s : State) (p : Nat) (m : PtpMsg) (sub : Nat) : State :=
  let at_ := subOfPtp s p m
  let s := takePtp s p (fun x => x == m)
  if !s.running || !isEth s p || !ptpOn s p then s
  else match m, (s.ptp p).lastReq with
    | .delayReq clock seq, _ => if isMaster s p
        then sendPtpOn s p at_ (.delayResp clock seq (recvStamp s p sub + epochNs s).toNat) else s
    | .delayResp _ _ recv, some t => s.modPtp p (fun x => { x with lastReq := none, pathDelay := meanDelay s p recv t })
    | _, _ => s

/-- DELAY_REQ (R18). -/
def execDelayReq (port : BitVec 4) (msg : PtpMsg) (sub : BitVec 4) (s : State) : Host.Outcome State Fault Refusal :=
  .next (endToEnd s port.toNat msg sub.toNat)

end Sys2Proof.Machine
end

