-- ==== Sys2Proof/Machine/Management.lean ====
section
/-! DEFINITION. The commands of the manager I3C port (chapter 17), and the GO of a mailbox door, which runs
the command its request names (chapter 11). -/

namespace Sys2Proof.Machine

/-! ### The GO of a door -/

/-- What a command does, taken as an operation inside another. -/
def after (r : Host.Outcome State Fault Refusal) (s : State) : State :=
  match r with
  | .next t => t
  | .fault _ => s
  | .refused _ => s

/-- FW_STAGE by its OP; an unknown OP is answered MALFORMED (R347). -/
def goStage (s : State) (d : Door) (l : BitVec 2) : State :=
  match stageOp s d with
  | 1 => after (execFwStageLoad d l s) s
  | 2 => after (execFwStageCommit d l s) s
  | 3 => after (execFwStageAbort d l s) s
  | 4 => after (execFwStageAdvance d l s) s
  | _ => mailGate s d true [1] (fun s => answer s d St.malformed [])

/-- GO is written at a door: the request's CMD says which command runs; one that is unknown is answered
MALFORMED (R303, R305). -/
def mailGo (s : State) (d : Door) (l : BitVec 2) : State :=
  match reqCmd s d with
  | 0x0001 => after (execMbxInfo d l s) s
  | 0x0010 => after (execInstCreate d l s) s
  | 0x0011 => after (execInstCalm d l s) s
  | 0x0012 => after (execInstReset d l s) s
  | 0x0013 => after (execInstRemove d l s) s
  | 0x0020 => after (execPlanLoad d l s) s
  | 0x0021 => after (execPlanArm d l s) s
  | 0x0022 => after (execPlanCancel d l s) s
  | 0x0023 => after (execPlanUnload d l s) s
  | 0x0030 => after (execSyncReclaim d l s) s
  | 0x0040 => after (execQpOpen d l s) s
  | 0x0041 => after (execQpClose d l s) s
  | 0x0050 => after (execTimeTod d l s) s
  | 0x0060 => goStage s d l
  | 0x0061 => after (execFwQuery d l s) s
  | 0x0062 => after (execIdentity d l s) s
  | 0x0063 => after (execAttest d l s) s
  | _ => mailGate s d false [] id

/-! ### The manager I3C port (R401, R402) -/

/-- The I3C port answers in every state but OFF (R358), and not while PORST_N is low (R386). -/
def i3cAnswers (s : State) : Bool := s.boot.phase != .off && !s.pins.porstLow

/-- The identity record (R358). -/
def identityRecord (s : State) : List Byte :=
  ([0x5A, 0x4E, 0x49, 0x44] : List Byte) ++ leBytes 4 0x9768 ++ leBytes 1 (stateCode s)
    ++ leBytes 1 (if s.boot.phase == .bootHalt then s.boot.haltStep else 0) ++ leBytes 1 s.boot.waitFlash
    ++ leBytes 1 s.boot.fuseSvn ++ leBytes 4 0 ++ beBytes 32 Config.idKeyHash.toNat ++ beBytes 16 Config.serial.toNat

/-- I3C_IDENTITY (R358). -/
def execI3cIdentity (s : State) : Host.Outcome State Fault Refusal :=
  .next (if i3cAnswers s then s.sent (.i3c (identityRecord s)) else s)

/-- A read of the I3C door: 0xFF bytes before the doors open and in BOOT_HALT (R402). -/
def i3cRead (s : State) (bytes : List Byte) : State :=
  if !i3cAnswers s then s
  else if !s.inService then s.sent (.i3c (List.replicate 8 0xFF))
  else s.sent (.i3c bytes)

/-- A word of the I3C door's request is written: none above 63, and none while BUSY (R303, R402). -/
def i3cStore (s : State) (w : Nat) (v : Word) : State :=
  if !s.inService || decide (63 < w) || (s.door 128).busy then s
  else s.modDoor 128 (fun d => { d with req := d.req.put w v })

/-- I3C_MBX_WR (R402). -/
def execI3cMbxWr (w : Byte) (data : Word) (s : State) : Host.Outcome State Fault Refusal :=
  .next (i3cStore s w.toNat data)

/-- I3C_MBX_GO (R402). -/
def execI3cMbxGo (s : State) : Host.Outcome State Fault Refusal :=
  .next (if s.inService then mailGo s .i3c 0 else s)

/-- I3C_MBX_RD (R402): a word above 7 reads as 0xFF bytes. -/
def execI3cMbxRd (w : Byte) (s : State) : Host.Outcome State Fault Refusal :=
  .next (i3cRead s (if 7 < w.toNat then List.replicate 8 0xFF else leBytes 8 ((s.door 128).resp.findD w.toNat 0).toNat))

/-- I3C_MBX_STAT (R402): in the layout of MBX_STATUS. -/
def execI3cMbxStat (s : State) : Host.Outcome State Fault Refusal :=
  .next (i3cRead s (leBytes 8 (reg (mbxStatus (s.door 128))).toNat))

/-- The dynamic address of the port changes. -/
def setDyn (s : State) (a : Option Nat) : State :=
  if i3cAnswers s then { s with pins := { s.pins with i3cDyn := a } } else s

/-- SETDASA (R401): a dynamic address for the target at the static address. -/
def execSetdasa (dyn : BitVec 7) (s : State) : Host.Outcome State Fault Refusal := .next (setDyn s (some dyn.toNat))

/-- ENTDAA (R401): only a target that has no dynamic address takes part. -/
def execEntdaa (dyn : BitVec 7) (s : State) : Host.Outcome State Fault Refusal :=
  .next (if s.pins.i3cDyn.isSome then s else setDyn s (some dyn.toNat))

/-- RSTDAA (R401). -/
def execRstdaa (s : State) : Host.Outcome State Fault Refusal := .next (setDyn s none)

/-- The 48-bit provisional ID (R401). -/
def provisionalId (s : State) : Nat := 0x1A5 * 2 ^ 33 + 0x9768 * 2 ^ 16 + s.pins.strap % 4

/-- GETPID (R401), most significant byte first. -/
def execGetpid (s : State) : Host.Outcome State Fault Refusal :=
  .next (if i3cAnswers s then s.sent (.i3c (beBytes 6 (provisionalId s))) else s)

/-- One byte of a characteristics register, whose value the spec does not give (log entry 6). -/
def sendFreeByte (s : State) : State :=
  if i3cAnswers s then
    let r := drawFree s
    r.2.sent (.i3c [r.1.setWidth 8])
  else s

/-- GETBCR (R401). -/
def execGetbcr (s : State) : Host.Outcome State Fault Refusal := .next (sendFreeByte s)

/-- GETDCR (R401). -/
def execGetdcr (s : State) : Host.Outcome State Fault Refusal := .next (sendFreeByte s)

end Sys2Proof.Machine
end

