-- ==== Sys2Proof/Machine/TestJtag.lean ====
section
/-! DEFINITION. The commands of test and boundary scan (chapter 16). -/

namespace Sys2Proof.Machine

/-! ### Loopbacks -/

/-- An entry of a group or member table names port `n`. -/
def entryNames (n : Nat) (e : BitVec 32) : Bool := e.getLsbD 31 && (choicesOf e).any (fun c => c.2.1 == n)

/-- A plan uses port `n` (R371): a schedule, a gate block, a route, a circuit, or a collective path. -/
def usesPort (p : Plan) (n : Nat) : Bool :=
  p.scheds.any (fun d => d.port == n) || p.gates.any (fun g => g.port == n)
    || p.routing.vals.any (fun r => r.group.vals.any (entryNames n) || r.member.vals.any (entryNames n))
    || p.circuits.any (fun c => c.port == n) || p.paths.any (fun x => x.port == n)

/-- A plan in either slot uses port `n`. -/
def planUses (s : State) (n : Nat) : Bool :=
  (match s.plans.active with | some p => usesPort p n | none => false)
    || (match s.plans.next with | some p => usesPort p n | none => false)

/-- The fields of TST_LOOP and TST_PL_LOOP, and their reserved bits (R380). -/
def loopFields : List (Nat × Nat) := [(11, 8), (5, 4), (2, 0)]
def loopRsvd : List (Nat × Nat) := [(63, 12), (7, 6), (3, 3)]

/-- The value a loop register takes: a code above `top` is taken as 0. -/
def loopValue (v : Word) (top : Nat) : Word :=
  let v := merge loopFields 0 v
  if fld v 2 0 > top then setFld v 2 0 0 else v

/-- TST_LOOP takes a value while the port is off and no plan uses it (R371). -/
def setLoop (s : State) (p : Nat) (v : Word) : State :=
  if bit (s.port p).cfg 1 || planUses s p then s
  else s.modTst (fun t => { t with loop := t.loop.put p (loopValue v 4) })

/-- TST_LOOP_WRITE (R371). -/
def execTstLoopWrite (link : BitVec 2) (port : BitVec 4) (value : Word) (s : State) : Host.Outcome State Fault Refusal :=
  .next (ctlWrite s link.toNat (0xE0100 + 8 * port.toNat) loopRsvd value (fun s => setLoop s port.toNat value))

/-- TST_PL_LOOP takes a value while the link is off (R374). -/
def setPlLoop (s : State) (l : Nat) (v : Word) : State :=
  if bit (s.link l).cfg 0 then s
  else s.modTst (fun t => { t with plLoop := t.plLoop.put l (loopValue v 3) })

/-- TST_PL_LOOP_WRITE (R374). -/
def execTstPlLoopWrite (link : BitVec 2) (pl : BitVec 2) (value : Word) (s : State) : Host.Outcome State Fault Refusal :=
  .next (ctlWrite s link.toNat (0xE0200 + 8 * pl.toNat) loopRsvd value (fun s => setPlLoop s pl.toNat value))

/-! ### Memory tests (R375) -/

/-- A memory test may start: both plan slots EMPTY, instances 1 to 127 FREE, no test running. -/
def memTestMay (s : State) : Bool :=
  s.plans.active.isNone && s.plans.nextCond == .empty && s.tst.memRunning.isNone
    && s.insts.cells.all (fun c => c.1 == 0 || c.2.st == .free)

/-- A write of TST_MEM that names a test starts it, or refuses it with CODE MALFORMED; either clears DONE (R380). -/
def startMemTest (s : State) (v : Word) : State :=
  if memTestMay s then s.modTst (fun t => { t with
    memDone := false, memCode := St.ok, memFails := 0, memFailed := 0
    memRunning := some (fld v 7 0, BitVec.ofNat 12 (fld v 27 16)) })
  else s.modTst (fun t => { t with memDone := false, memCode := St.malformed })

/-- The row of a test is a write of TST_MEM that names it (log entry 21). -/
def memRow (s : State) (l : Nat) (v : Word) (cmd : Nat) : State :=
  if fld v 7 0 ≠ cmd then s
  else ctlWrite s l 0xE0400 [(63, 28), (15, 8)] v (fun s => startMemTest s v)

/-- PHY_LOOP (R375). -/
def execPhyLoop (link : BitVec 2) (value : Word) (s : State) : Host.Outcome State Fault Refusal :=
  .next (memRow s link.toNat value 1)

/-- SELF_TEST (R375). -/
def execSelfTest (link : BitVec 2) (value : Word) (s : State) : Host.Outcome State Fault Refusal :=
  .next (memRow s link.toNat value 2)

/-- End of the pool of device addresses (R246). -/
def poolEnd (s : State) : Nat := hbmAvail s.hbm * gran

/-- A device address lies in the pool, in one of the stacks `st`. -/
def testedAddr (s : State) (st : BitVec 12) (a : Nat) : Bool :=
  decide (a < poolEnd s) && st.getLsbD (stackOf s.hbm a)

/-- A failing word is logged as a MEMORY fault (R323, R375). -/
def logFailing (s : State) (a : Nat) : State :=
  let st := stackOf s.hbm a
  raiseFault s 0x03 0x09 (48 + st) 0xFF st (BitVec.ofNat 32 (a / 256))

/-- SELF_TEST leaves zero in every pool word of the tested stacks, with check bits; the write of a word
with an armed injection applies it (R375, R376). -/
def clearPool (s : State) (st : BitVec 12) : State :=
  let out := fun w => !testedAddr s st (w * 8)
  let inj := fld s.tst.inject 39 0
  let s := takeBack s [0, 1, 2, 3] (fun e => testedAddr s st (e.1 * 64))
  let s1 := { s with
    mem := s.mem.filter (fun c => !testedAddr s st c.1)
    hbm := { s.hbm with bad := s.hbm.bad.filter out, soft := s.hbm.soft.filter out, injected := s.hbm.injected.filter out } }
  if testedAddr s st inj then applyInjection s1 [inj / 8] else s1

/-- A memory test ends (R375): `failing` are the addresses that failed. PHY_LOOP touches no array word: it names
stacks that failed, and no words. -/
def endMemTest (s : State) (failing : List (BitVec 40)) : State :=
  match s.tst.memRunning with
  | none => s
  | some (cmd, st) =>
    let found := ((failing.map (fun a => a.toNat / 8 * 8)).filter (testedAddr s st)).eraseDups
    let hit := if cmd = 2 then found else []
    let s := forEach hit s logFailing
    let s := if cmd = 2 then clearPool s st else s
    s.modTst (fun t => { t with
      memRunning := none, memDone := true, memCode := St.ok, memFails := sat 32 hit.length
      memFailed := BitVec.ofNat 12 (bitsOf 12 (fun k => found.any (fun a => stackOf s.hbm a == k))) })

/-- MEM_TEST_COMPLETE (R375). -/
def execMemTestComplete (failing : List (BitVec 40)) (s : State) : Host.Outcome State Fault Refusal :=
  .next (endMemTest s failing)

/-- TST_INJECT takes a value that names an aligned pool word; TYPE 0 arms nothing (R376, R380). -/
def setInject (s : State) (v : Word) : State :=
  if fld v 2 0 ≠ 0 ∨ poolEnd s ≤ fld v 39 0 then s
  else s.modTst (fun t => { t with inject := merge [(63, 62), (39, 0)] 0 v, injArmed := fld v 63 62 != 0 })

/-- TST_INJECT_WRITE (R376). -/
def execTstInjectWrite (link : BitVec 2) (value : Word) (s : State) : Host.Outcome State Fault Refusal :=
  .next (ctlWrite s link.toNat 0xE0410 [(61, 40)] value (fun s => setInject s value))

/-! ### Boundary scan (R377) -/

/-- The TAP is held in reset while PORST_N is low, and has no power once the device is OFF (R386, R411). -/
def tapWorks (s : State) : Bool := s.boot.phase != .off && !s.pins.porstLow

/-- An instruction is loaded. -/
def loadTap (s : State) (i : JtagInstr) : State :=
  if tapWorks s then s.modTst (fun t => { t with jtag := i }) else s

/-- An instruction that drives balls loads as BYPASS in service unless SCAN_EN is set. -/
def loadDriving (s : State) (i : JtagInstr) : State :=
  loadTap s (if s.inService && !s.tst.scanEn then .bypass else i)

/-- IDCODE selects the identification register, which reads 0x1976_834B. -/
def readIdcode (s : State) : State :=
  if tapWorks s then (loadTap s .idcode).sent (.jtag 0x1976834B) else s

/-- BYPASS (R377). -/
def execBypass (s : State) : Host.Outcome State Fault Refusal := .next (loadTap s .bypass)

/-- IDCODE (R377). -/
def execIdcode (s : State) : Host.Outcome State Fault Refusal := .next (readIdcode s)

/-- SAMPLE/PRELOAD (R377). -/
def execSamplePreload (s : State) : Host.Outcome State Fault Refusal := .next (loadTap s .samplePreload)

/-- EXTEST (R377). -/
def execExtest (s : State) : Host.Outcome State Fault Refusal := .next (loadDriving s .extest)

/-- EXTEST_PULSE (R377). -/
def execExtestPulse (s : State) : Host.Outcome State Fault Refusal := .next (loadDriving s .extestPulse)

/-- EXTEST_TRAIN (R377). -/
def execExtestTrain (s : State) : Host.Outcome State Fault Refusal := .next (loadDriving s .extestTrain)

/-- CLAMP (R377). -/
def execClamp (s : State) : Host.Outcome State Fault Refusal := .next (loadDriving s .clamp)

/-- HIGHZ (R377). -/
def execHighz (s : State) : Host.Outcome State Fault Refusal := .next (loadDriving s .highz)

end Sys2Proof.Machine
end

