-- ==== Sys2Proof/Machine/Control.lean ====
section
/-! DEFINITION. Writes and reads of the control space (chapter 11): a write goes to the command that has a row
of its own for its register, or takes the register's fields by the rule of its chapter; what a read
returns. -/

namespace Sys2Proof.Machine

/-! ### What registers take (log entry 51) -/

/-- A field taken as `y` where `ok` does not hold of it. -/
def fixFld (v : Word) (hi lo : Nat) (ok : Nat → Bool) (y : Nat) : Word :=
  if ok (fld v hi lo) then v else setFld v hi lo y

/-- A field whose 0 is taken as 1. -/
def oneFld (v : Word) (hi lo : Nat) : Word := fixFld v hi lo (fun n => n != 0) 1

/-- ZTP_CFG: VER_MAX is 1 or 2 (R155). -/
def ztpCfgValue (v : Word) : Word := fixFld v 9 8 (fun n => n == 1 || n == 2) 2

/-- ZTP_RETRY: the limits are not 0, and CAP is not below BASE (R155). -/
def ztpRetryValue (v : Word) : Word :=
  let v := oneFld (oneFld (oneFld v 63 56) 55 48) 9 0
  fixFld v 39 24 (fun n => decide (fld v 9 0 ≤ n)) (fld v 9 0)

/-- ZTP_CC0: RATE_MIN is not 0, G_SHIFT is 1 to 10, and PERIOD is a multiple of 16 (R155). -/
def ztpCc0Value (v : Word) : Word :=
  let v := fixFld (oneFld v 47 32) 15 8 (fun n => decide (1 ≤ n ∧ n ≤ 10)) 4
  fixFld v 31 16 (fun n => n % 16 == 0 || decide (65520 < n)) ((fld v 31 16 + 15) / 16 * 16)

/-- ZTP_ACK: CONN_TRIES, ACK_EVERY, ACK_DELAY and CNP_INTERVAL are not 0 (R155). -/
def ztpAckValue (v : Word) : Word := oneFld (oneFld (oneFld (oneFld v 63 48) 23 16) 15 8) 7 0

/-- ETH_CFG: MAX_FRAME is 64 to 9,216, PAUSE_MODE and BREAKOUT 3 are 0 (R244). -/
def ethCfgValue (v : Word) : Word :=
  fixFld (fixFld (fixFld v 63 50 (fun n => decide (64 ≤ n ∧ n ≤ 9216)) 9216) 31 30 (· != 3) 0) 29 28 (· != 3) 0

/-- ETH_PFC: an XON at or above XOFF is XOFF − 1 (R244). -/
def ethPfcValue (v : Word) : Word := fixFld v 15 0 (fun n => decide (n < fld v 31 16)) (fld v 31 16 - 1)

/-- FAB_CFG: no field is 0 (R222). -/
def fabCfgValue (v : Word) : Word := oneFld (oneFld (oneFld (oneFld (oneFld v 63 48) 47 40) 39 32) 31 16) 7 0

/-- HBM_CFG (R268). -/
def hbmCfgValue (v : Word) : Word :=
  fixFld (oneFld (oneFld v 47 40) 31 16) 7 0 (fun n => decide (1 ≤ n ∧ n ≤ 168)) 24

/-- PWR_CFG (R321). -/
def pwrCfgValue (v : Word) : Word :=
  oneFld (fixFld (fixFld v 47 40 (fun n => decide (85 ≤ n ∧ n ≤ 104)) 100) 39 32 (fun n => decide (n ≤ 200)) 200) 31 16

/-- FLT_CFG (R338). -/
def fltCfgValue (v : Word) : Word :=
  fixFld (fixFld v 31 24 (fun n => decide (1 ≤ n ∧ n ≤ 100)) 5) 23 16 (fun n => decide (10 ≤ n)) 10

/-! ### Registers without a row of their own -/

/-- PTP_PORT_CFG: a STATE of 5 to 15 is ignored (R35). -/
def writePtpCfg (s : State) (p : Nat) (v : Word) : State :=
  let fs := [(47, 32), (11, 8), (1, 1), (0, 0)] ++ (if fld v 15 12 ≤ 4 then [(15, 12)] else [])
  s.modTime (fun t => { t with ports := t.ports.modifyD p PtpPort.reset (fun x => { x with cfg := merge fs x.cfg v }) })

/-- ISOBAR_STATUS: bits written 1 are cleared (R35). -/
def clearIsobar (s : State) (v : Word) : State :=
  s.modTime (fun t => { t with
    isoStepped := t.isoStepped && !bit v 3, isoLost := t.isoLost && !bit v 2, isoLate := t.isoLate && !bit v 1 })

/-- A register that names a vector: EN = 0 is always taken; EN = 1 only with a vector its instance holds
(log entry 19). -/
def vectorWrite (s : State) (i : Nat) (v : Word) (f : Bool → Nat → State) : State :=
  if !bit v 11 || holds s i 0x0C (fld v 10 0) then f (bit v 11) (fld v 10 0) else s

/-- ETH_CFG: BREAKOUT, PAUSE_MODE and AN_EN change only with FLL_CFG.EN = 0 (R244). -/
def writeEthCfg (s : State) (p : Nat) (v : Word) : State :=
  let fs := [(63, 50), (49, 42), (41, 41), (40, 40), (39, 32)]
    ++ (if bit (s.port p).cfg 1 then [] else [(31, 30), (29, 28), (27, 27)])
  s.modEth p (fun e => { e with cfg := merge fs e.cfg (ethCfgValue v) })

/-- A field of the VLAN entry that ETH_VSEL selects: an address that becomes valid is announced, on the first
sub-port that is up (R228). -/
def writeVlan (s : State) (f : Vlan → Vlan) : State :=
  let p := fld s.eth.vsel 7 4
  let old := (s.ethPort p).vlans.findD (fld s.eth.vsel 2 0) default
  let s := s.modEth p (fun e => { e with vlans := e.vlans.put (fld s.eth.vsel 2 0) (f old) })
  if isEth s p then announceVlan s p 0 old (f old) else s

/-- ETH_POLICE: the bucket gains at its old rate up to now, and a policer being enabled starts full (R230). -/
def writePolice (s : State) (p t : Nat) (v : Word) : State :=
  s.modEth p (fun e =>
    let w := e.police.findD t 0
    { e with
      police := e.police.put t (merge [(63, 62), (55, 20)] 0 v)
      polBucket := match settleBucket (bit w 63 && bit v 63) (fld w 55 36) (fld w 35 20) s.now (e.polBucket.find t) with
        | some b => e.polBucket.put t b
        | none => e.polBucket.erase t })

/-- The bucket of a shaper as it stands when its node is written (R237). -/
def settleNode (w : Word) (now : Nat) (b : Option Bucket) : Option Bucket :=
  settleBucket (nodeRate w != 0) (nodeRate w) (nodeBurst w) now b

/-- A table of buckets in which one is replaced. -/
def putBucket (t : Tbl Bucket) (i : Nat) (b : Option Bucket) : Tbl Bucket :=
  match b with | some b => t.put i b | none => t.erase i

/-- SCH_NODE writes the node that SCH_SEL selects; a selection that names none ignores it (R244). PRIV counts
at LEVEL 0 only; a WEIGHT of 0 is 1. The node's shapers gain at their old rate up to now. -/
def writeNode (s : State) (v : Word) : State :=
  let p := fld s.eth.schSel 15 12
  let i := fld s.eth.schSel 6 0
  let fs := [(55, 48), (47, 28), (27, 12)]
  let n := merge fs 0 (oneFld v 55 48)
  match fld s.eth.schSel 9 8 with
  | 0 => if i < 8 then s.modEth p (fun e => { e with
      svcNode := e.svcNode.put i (setFld n 63 63 (fld v 63 63))
      subs := e.subs.mapCells (fun _ x => { x with
        svcShape := putBucket x.svcShape i (settleNode (svcNodeOf e i) s.now (x.svcShape.find i)) }) }) else s
  | 1 => s.modEth p (fun e => { e with
      subNode := e.subNode.put i n
      subs := e.subs.mapCells (fun _ x => { x with
        subShape := putBucket x.subShape i (settleNode (subNodeOf e i) s.now (x.subShape.find i)) }) })
  | 2 => s.modEth p (fun e => { e with
      portNode := n
      subs := e.subs.mapCells (fun _ x => { x with portShape := settleNode e.portNode s.now x.portShape }) })
  | _ => s

/-- PL_APT: an entry that reaches beyond HBM_AVAIL is ignored whole (R274). -/
def writeApt (s : State) (v : Word) : State :=
  if hbmAvail s.hbm < fld v 19 0 + fld v 51 32 then s
  else s.modLink (fld s.ctrl.aptSel 9 8) (fun k => { k with
    apt := k.apt.put (fld s.ctrl.aptSel 5 0) (merge [(63, 63), (62, 62), (61, 61), (51, 32), (19, 0)] 0 v) })

/-- INT_VEC: the holder sets the vector, unless it names a link the instance may not use (R284); a pending
vector that may now send does (R285). -/
def writeVec (s : State) (i : Nat) (v : Word) : State :=
  let n := (s.inst i).win.intSel
  if !holds s i 0x0C n || !mayUse s i (fld v 61 60) then s
  else servePending (s.modVec n (fun x => { x with
    en := bit v 63, link := fld v 61 60, target := fld v 47 32, data := fld v 31 0 })) n

/-- MBX_REQ: ignored while BUSY (R303). -/
def writeReq (s : State) (i w : Nat) (v : Word) : State :=
  if (s.door i).busy then s else s.modDoor i (fun d => { d with req := d.req.put w v })

/-- Reserved bits of a register: the bits no field of it covers. -/
def rsvdOf (fs : Fields) : List (Nat × Nat) :=
  ((List.range 64).filter (fun b => !fs.any (fun f => decide (f.2.1 ≤ b ∧ b ≤ f.1)))).map (fun b => (b, b))

/-- A 64-bit write of a register that is not a row of its own (R297). -/
def plainWrite (s : State) (l a : Nat) (v : Word) (f : State → State) : State :=
  if !arrives s l then s
  else if !serves s l a then refuseAccess s l a true
  else match regAt s a with
    | none => violate s l Viol.reserved a true
    | some fs => ctlWrite s l a (rsvdOf fs) v f

/-! ### The device-global space -/

/-- What a write of a device-global register does; a read-only register takes nothing. -/
def devTakes (off : Nat) (v : Word) (s : State) : State :=
  let ctrl := fun (f : Ctrl → Ctrl) => { s with ctrl := f s.ctrl }
  if off = 0x100 then (if fld v 3 0 = 0 then s else ctrl (fun c => { c with mgrLinks := fld v 3 0 }))
  else if off = 0x108 then ctrl (fun c => { c with instSel := fld v 6 0 })
  else if off = 0x10020 then s.modTime (fun t => { t with
    ppsCfg := merge [(31, 12), (0, 0)] 0 (fixFld v 31 12 (fun n => decide (1 ≤ n ∧ n ≤ 500000)) 500000) })
  else if off = 0x10200 then s.modTime (fun t => { t with isoTime := v })
  else if off = 0x10210 then clearIsobar s v
  else if off = 0x40000 then { s with tp := { s.tp with cfg := merge [(31, 16), (9, 8), (0, 0)] 0 (ztpCfgValue v) } }
  else if off = 0x40008 then
    { s with tp := { s.tp with retry := merge [(63, 56), (55, 48), (47, 44), (39, 24), (9, 0)] 0 (ztpRetryValue v) } }
  else if off = 0x40010 then { s with tp := { s.tp with cc0 := ztpCc0Value v } }
  else if off = 0x40018 then { s with tp := { s.tp with cc1 := merge [(31, 0)] 0 v } }
  else if off = 0x40020 then
    { s with tp := { s.tp with ack := merge [(63, 48), (47, 32), (23, 16), (15, 8), (7, 0)] 0 (ztpAckValue v) } }
  else if off = 0x50000 then s.modColl (fun c => { c with
    cfg := merge [(47, 32), (31, 24), (15, 0)] 0 (oneFld (oneFld v 31 24) 15 0) })
  else if off = 0x61008 then s.modRouting (fun r => { r with
    cfg := merge [(63, 48), (47, 40), (39, 32), (31, 16), (7, 0)] 0 (fabCfgValue v) })
  else if off = 0x61028 then s.modRouting (fun r => { r with
    sel := merge [(40, 40), (36, 32), (31, 31), (29, 28), (9, 0)] 0 v })
  else if off = 0x71000 then { s with eth := { s.eth with vsel := merge [(7, 4), (2, 0)] 0 v } }
  else if off = 0x71008 then writeVlan s (fun x => { x with vlan := merge [(63, 63), (59, 48), (47, 0)] 0 v })
  else if off = 0x71010 then writeVlan s (fun x => { x with ip4 := merge [(32, 32), (31, 0)] 0 v })
  else if off = 0x71018 then writeVlan s (fun x => { x with ip6Hi := v })
  else if off = 0x71020 then writeVlan s (fun x => { x with ip6Lo := v })
  else if off = 0x71100 then { s with eth := { s.eth with schSel := merge [(15, 12), (9, 8), (6, 0)] 0 v } }
  else if off = 0x71108 then writeNode s v
  else if off = 0x80000 then s.modHbm (fun h => { h with cfg := merge [(47, 40), (31, 16), (7, 0)] 0 (hbmCfgValue v) })
  else if off = 0x91000 then ctrl (fun c => { c with aptSel := merge [(9, 8), (5, 0)] 0 v })
  else if off = 0x91008 then writeApt s v
  else if off = 0xA0010 then s.modPwr (fun w => { w with cfg := merge [(47, 40), (39, 32), (31, 16)] 0 (pwrCfgValue v) })
  else if off = 0xA0028 then s.modPwr (fun w => { w with bktSel := fld v 7 0 })
  else if off = 0xB0000 then s.modFlt (fun x => { x with cfg := merge [(31, 24), (23, 16), (0, 0)] 0 (fltCfgValue v) })
  else if off = 0xB0018 then s.modFlt (fun x => { x with logSel := fld v 31 0 })
  else if off = 0xB0040 then vectorWrite s 0 v (fun en n => s.modFlt (fun x => { x with vecEn := en, vector := n }))
  else if off = 0xB0200 then s.modFlt (fun x => { x with altSel := fld v 15 0 })
  else if off = 0xD0000 then
    (if 10 ≤ fld v 11 0 ∧ fld v 11 0 ≤ 3600 then s.modMtr (fun m => { m with periodNext := fld v 11 0 }) else s)
  else if off = 0xD0018 then s.modMtr (fun m => { m with rdSel := v })
  else if off = 0xE0000 then s.modTst (fun t => { t with scanEn := bit v 0 })
  else if off = 0xE0300 then s.modTst (fun t => { t with xport := merge [(4, 0)] 0 v })
  else if off = 0xE0400 then s.modTst (fun t => { t with memDone := false })
  else if off = 0xE1000 then s.modTst (fun t => { t with telSel := merge telFields 0 v })
  else match index 0x10100 8 16 off, index 0x70000 0x100 16 (off / 0x100 * 0x100) with
    | some p, _ => writePtpCfg s p v
    | _, some p =>
      let r := off % 0x100
      if r = 0x00 then writeEthCfg s p v
      else if r = 0x10 then s.modEth p (fun e => { e with pfc := merge [(63, 48), (31, 0)] 0 (ethPfcValue v) })
      else match index 0x40 8 8 r, index 0x80 8 16 r with
        | some t, _ => writePolice s p t v
        | _, some i => s.modEth p (fun e => { e with filter := e.filter.put i (merge [(63, 63), (47, 0)] 0 v) })
        | _, _ => s
    | _, _ => s

/-- A 64-bit write into the device-global space: a register with a row of its own takes it as that row does. -/
def devWrite (s : State) (l : BitVec 2) (off : Nat) (v : Word) : State :=
  let plain := plainWrite s l.toNat off v (devTakes off v)
  if off = 0x10000 then after (execTimeCtrlWrite l v s) s
  else if off = 0x10028 then after (execTimeEpochWrite l v s) s
  else if off = 0x10208 then after (execIsobarArm l v s) s
  else if off = 0x61000 then after (execFabNodeWrite l v s) s
  else if off = 0x61018 ∧ fld v 7 0 = 1 then after (execRouteCopy l v s) s
  else if off = 0x61018 ∧ fld v 7 0 = 2 then after (execRouteDiscard l v s) s
  else if off = 0x61020 then after (execTableFrontWrite l v s) s
  else if off = 0x61030 then after (execRouteTblDataWrite l v s) s
  else if off = 0xA0000 then after (execPwrCapWrite l v s) s
  else if off = 0xB0008 then after (execCoreAckWrite l v s) s
  else if off = 0xE0400 ∧ fld v 7 0 = 1 then after (execPhyLoop l v s) s
  else if off = 0xE0400 ∧ fld v 7 0 = 2 then after (execSelfTest l v s) s
  else if off = 0xE0410 then after (execTstInjectWrite l v s) s
  else match index 0x60000 0x100 16 off, index 0x90000 0x100 4 off, index 0x90010 0x100 4 off with
    | some p, _, _ => after (execFllCfgWrite l (BitVec.ofNat 4 p) v s) s
    | _, some k, _ => after (execPlCfgWrite l (BitVec.ofNat 2 k) v s) s
    | _, _, some k => after (execForceDown l (BitVec.ofNat 2 k) v s) s
    | _, _, _ => match index 0xE0100 8 16 off, index 0xE0200 8 4 off with
      | some p, _ => after (execTstLoopWrite l (BitVec.ofNat 4 p) v s) s
      | _, some k => after (execTstPlLoopWrite l (BitVec.ofNat 2 k) v s) s
      | _, _ => plain

/-! ### Instance windows -/

/-- A created queue or ring is read through its own base and configuration, so a write reaches the staging
registers only for one the instance holds and has not created (R96). -/
def wqOpen (s : State) (i : Nat) : Bool :=
  holds s i 0x01 (s.inst i).win.wqSel && (s.queues.find (s.inst i).win.wqSel).isNone
def cqOpen (s : State) (i : Nat) : Bool :=
  holds s i 0x02 (s.inst i).win.cqSel && (s.rings.find (s.inst i).win.cqSel).isNone

/-- What a write of a register of window `i` does; a read-only register takes nothing. -/
def winTakes (i : BitVec 7) (off : Nat) (l : BitVec 2) (v : Word) (s : State) : State :=
  let n := i.toNat
  if off = 0x1000 then s.modWin n (fun w => { w with wqSel := fld v 18 0 })
  else if off = 0x1008 then (if wqOpen s n then s.modWin n (fun w => { w with wqBase := w.wqBase.put w.wqSel v }) else s)
  else if off = 0x1010 then
    (if wqOpen s n then s.modWin n (fun w => { w with wqCfg := w.wqCfg.put w.wqSel (merge [(25, 23), (21, 0)] 0 v) }) else s)
  else if off = 0x1100 then s.modWin n (fun w => { w with cqSel := fld v 16 0 })
  else if off = 0x1108 then (if cqOpen s n then s.modWin n (fun w => { w with cqBase := w.cqBase.put w.cqSel v }) else s)
  else if off = 0x1110 then
    (if cqOpen s n then s.modWin n (fun w => { w with cqCfg := w.cqCfg.put w.cqSel (merge [(21, 17), (11, 0)] 0 v) }) else s)
  else if off = 0x1208 then s.modWin n (fun w => { w with errPending := w.errPending && !bit v 0 })
  else if off = 0x1210 then vectorWrite s n v (fun _ _ => s.modWin n (fun w => { w with errVec := merge [(11, 0)] 0 v }))
  else if off = 0x2000 then s.modWin n (fun w => { w with gSel := fld v 6 0 })
  else if off = 0x2040 then s.modWin n (fun w => { w with rdSel := fld v 20 0 })
  else if off = 0x3000 then s.modWin n (fun w => { w with qpSel := fld v 19 0 })
  else if off = 0x4000 then s.modWin n (fun w => { w with collSel := fld v 5 0 })
  else if off = 0x5000 then s.modWin n (fun w => { w with segSel := fld v 3 0 })
  else if off = 0x5008 then s.modWin n (fun w => { w with segBase := v })
  else if off = 0x5010 then s.modWin n (fun w => { w with segCfg := merge [(39, 38), (36, 0)] 0 v })
  else if off = 0x5018 then s.modWin n (fun w => { w with segKey := fld v 31 0 })
  else if off = 0x5020 then s.modWin n (fun w => { w with segDone := false })
  else if off = 0x5100 then s.modWin n (fun w => { w with couchSel := fld v 15 0 })
  else if off = 0x6000 then s.modWin n (fun w => { w with intSel := fld v 10 0 })
  else if off = 0x6008 then writeVec s n v
  else if off = 0x7240 then (if bit v 0 then mailGo s (.window i) l else s)
  else if off = 0x7250 then vectorWrite s n v (fun en x => s.modDoor n (fun d => { d with vecEn := en, vector := x }))
  else if off = 0x9000 then s.modWin n (fun w => { w with telSel := merge telFields 0 v })
  else match index 0x7000 8 64 off with
    | some w => writeReq s n w v
    | none => s

/-- A 64-bit write into the window of instance `i`. -/
def winWrite (s : State) (l : BitVec 2) (i : BitVec 7) (off : Nat) (v : Word) : State :=
  if off = 0x1018 then after (execWqCreate l i v s) s
  else if off = 0x1118 then after (execCqCreate l i v s) s
  else if off = 0x2010 then after (execSyncInit l i v s) s
  else if off = 0x2020 then after (execSyncGshareWrite l i false v s) s
  else if off = 0x2028 then after (execSyncGshareWrite l i true v s) s
  else if off = 0x5020 ∧ fld v 7 0 = 1 then after (execSegSet l i v s) s
  else if off = 0x5020 ∧ fld v 7 0 = 2 then after (execSegClear l i v s) s
  else if off = syncDbOff then after (execSyncDoorbell l i v s) s
  else match index wqDbOff 64 524288 off, index cqDbOff 64 131072 off with
    | some q, _ => after (execWqDoorbell l i (BitVec.ofNat 19 q) v s) s
    | _, some r => after (execCqDoorbell l i (BitVec.ofNat 17 r) v s) s
    | _, _ => plainWrite s l.toNat (winAddr i.toNat off) v (winTakes i off l v)

/-- A 64-bit write at an 8-byte aligned address of the control space. -/
def ctrlWrite (s : State) (l : BitVec 2) (a : Nat) (v : Word) : State :=
  match windowOf a with
  | some i => winWrite s l (BitVec.ofNat 7 i) ((a - winBase) % winSize) v
  | none => if a < globalEnd then devWrite s l a v else plainWrite s l.toNat a v id

/-- A write that is not a whole aligned word is a violation (R295, R297). -/
def narrowWrite (s : State) (l a : Nat) : State :=
  if !arrives s l then s
  else if !serves s l a then refuseAccess s l a true
  else violate s l Viol.narrow a true

/-- REGISTER_WRITE (R297): one at an address that is not a multiple of 8 covers no whole word. -/
def execRegisterWrite (link : BitVec 2) (addr : BitVec 34) (value : Word) (s : State) : Host.Outcome State Fault Refusal :=
  .next (if addr.toNat % 8 = 0 then ctrlWrite s link addr.toNat value else narrowWrite s link.toNat addr.toNat)

/-! ### Reads -/

/-- A companion reads `n` bytes of the control space within a line (R295, R297): an access that the device does
not serve, and every reserved word, gives zero, and is one violation. Reading ROUTE_TBL_DATA moves its selection
on (R222). -/
def readCtrl (s : State) (l a n : Nat) : State :=
  let zeros : List Byte := List.replicate n 0
  if !arrives s l then (if readsZero s l then s.sent (.readData l zeros) else s)
  else if !serves s l a then (refuseAccess s l a false).sent (.readData l zeros)
  else
    let ws := wordsOf a n
    let vals := ws.map (fun w => readAt s (w * 8))
    let bytes := slice (vals.flatMap (fun v => leBytes 8 (v.getD 0).toNat)) (a % 8) n
    let s := if vals.any (·.isNone) then violate s l Viol.reserved a false else s
    (if ws.contains (0x61030 / 8) then advanceSel s else s).sent (.readData l bytes)

/-- Bytes of a line under a mask, as writes of its words in ascending order: a word covered whole is a write of
that word, one covered in part is narrow (R295; log entry 52). -/
def maskedCtrl (s : State) (l : BitVec 2) (line : Nat) (mask : BitVec 64) (data : BitVec 512) : State :=
  forEach (List.range 8) s (fun s k =>
    let m := fld mask (8 * k + 7) (8 * k)
    if m = 0 then s
    else if m = 255 then ctrlWrite s l (line + 8 * k) (data.extractLsb' (64 * k) 64)
    else narrowWrite s l.toNat (line + 8 * k))

end Sys2Proof.Machine
end

