-- ==== Sys2Proof/Machine/Aperture.lean ====
section
/-! DEFINITION. A companion's accesses to HBM through the aperture and to the control space (chapters 10
and 11). -/

namespace Sys2Proof.Machine

/-- While SELF_TEST runs, aperture accesses wait: the access comes again when it has ended (R375; log entry
53). -/
def apertureWaits (s : State) : Bool := match s.tst.memRunning with | some (cmd, _) => cmd == 2 | none => false

/-- A companion's access to HBM is due now. -/
def apertureOpen (s : State) (l : Nat) : Bool := arrives s l && !apertureWaits s

/-- Answer a read of HBM: the bytes, or CMP_ERR for an uncorrectable word (R252, R279). -/
def readHbm (s : State) (l a n : Nat) : State :=
  match hbmReadBy (some l) s a n with
  | (s, .done, bs) => (boardBytes s l 0xFF true n).sent (.readData l bs)
  | (s, .failed _ _, _) => settle (s.sent (.cmpErr l))

/-- A read of `[a, a + n)` that keeps no copy (R273, R274). -/
def readAperture (s : State) (l : Nat) (cls : ReqClass) (a n : Nat) : State :=
  if !apertureOpen s l then s
  else if !aptPermits s l cls false a n then (aptViolate s l).sent (.readData l (List.replicate n 0))
  else readHbm s l a n

/-- A read of a line that keeps a copy, shared or for writing; what another companion holds of the line is
taken back as R276 and R277 need. -/
def readLine (s : State) (l : Nat) (cls : ReqClass) (own : Bool) (line : Nat) : State :=
  if !apertureOpen s l then s
  else if !aptPermits s l cls false (line * 64) 64 then (aptViolate s l).sent (.readData l (List.replicate 64 0))
  else
    let s := if own then backInvOthers s l line else s
    match firstBad s.hbm (line * 64) 64 with
    | some _ => readHbm s l (line * 64) 64
    | none => trackLine (readHbm s l (line * 64) 64) l line own

/-- Bytes that a read of `size` bytes takes: those up to the end of its line (log entry 52). -/
def lineSpan (a size : Nat) : Nat := min size (64 - a % 64)

/-- A request of a device behind the companion is answered as a violation (R273). -/
def readForwarded (s : State) (l n : Nat) : State :=
  if arrives s l then (aptViolate s l).sent (.readData l (List.replicate n 0)) else s

/-- A read that arrives on a link: of the aperture as `hbm` does it; of the control space uncached, whatever the request
(R275); of a device behind the companion, which is ignored (R273). -/
def lineRead (s : State) (l : Nat) (cls : ReqClass) (ctrl : Bool) (a n : Nat) (hbm : State) : State :=
  if !ctrl then hbm
  else if cls == .agent then readCtrl s l a n
  else readForwarded s l n

/-- RD_SHR (R275, R276). -/
def execRdShr (pl : BitVec 2) (cls : ReqClass) (addr : LineAddr) (s : State) : Host.Outcome State Fault Refusal :=
  .next (lineRead s pl.toNat cls addr.ctrl (addr.line * 64) 64 (readLine s pl.toNat cls false addr.line))

/-- RD_OWN (R275, R277). -/
def execRdOwn (pl : BitVec 2) (cls : ReqClass) (addr : LineAddr) (s : State) : Host.Outcome State Fault Refusal :=
  .next (lineRead s pl.toNat cls addr.ctrl (addr.line * 64) 64 (readLine s pl.toNat cls true addr.line))

/-- RD_NC (R274, R295). -/
def execRdNc (pl : BitVec 2) (cls : ReqClass) (ctrl : Bool) (addr : BitVec 40) (size : BitVec 7) (s : State) :
    Host.Outcome State Fault Refusal :=
  let n := lineSpan addr.toNat size.toNat
  .next (lineRead s pl.toNat cls ctrl addr.toNat n (readAperture s pl.toNat cls addr.toNat n))

/-- The bytes of `new` where the mask has a bit, of `old` elsewhere. -/
def mergeBytes (mask : Nat) (old new : List Byte) : List Byte :=
  (List.range old.length).map (fun i => if mask.testBit i then new.getD i 0 else old.getD i 0)

/-- One word of a masked write (R253): a word covered in part is read first, and stays as it is where it is
uncorrectable. -/
def maskedWord (s : State) (a mask : Nat) (bs : List Byte) : State × Access :=
  if mask = 0 then (s, .done)
  else if mask = 255 then hbmWrite s a bs
  else match hbmRead s a 8 with
    | (s, .failed st d, _) => (s, .failed st d)
    | (s, .done, old) => hbmWrite s a (mergeBytes mask old bs)

/-- The words of a line are written under a mask; one that fails makes the access fail. -/
def maskedLine (s : State) (a : Nat) (mask : BitVec 64) (bs : List Byte) : State × Bool :=
  (List.range 8).foldl (fun r k =>
    let x := maskedWord r.1 (a + 8 * k) (fld mask (8 * k + 7) (8 * k)) (slice bs (8 * k) 8)
    (x.1, r.2 && x.2 == .done)) (s, true)

/-- The requester's own copy of the line stays while its write goes through (R276). -/
def ownWrite (s : State) (l a : Nat) (mask : BitVec 64) (bs : List Byte) : State × Bool :=
  let kept := (s.link l).snoop
  let r := maskedLine (s.modLink l (fun k => { k with snoop := [] })) a mask bs
  (r.1.modLink l (fun k => { k with snoop := kept }), r.2)

/-- Number of bytes a mask names. -/
def maskCount (mask : BitVec 64) : Nat := ((List.range 64).filter (fun i => mask.getLsbD i)).length

/-- A write of bytes of a line through the aperture (R253, R274): heads that waited for an entry look again
(R64). -/
def writeAperture (s : State) (l : Nat) (cls : ReqClass) (line : Nat) (mask : BitVec 64) (data : BitVec 512) : State :=
  if !apertureOpen s l then s
  else if !aptPermits s l cls true (line * 64) 64 then aptViolate s l
  else
    let r := ownWrite (boardBytes s l 0xFF false (maskCount mask)) l (line * 64) mask (lineBytes data)
    settle (r.1.sent (if r.2 then .cmp l else .cmpErr l))

/-- A write that arrives on a link: of the control space, of the aperture, or of a device behind the
companion, which is ignored (R273, R275). -/
def lineWrite (s : State) (l : BitVec 2) (cls : ReqClass) (ctrl : Bool) (a : Nat) (mask : BitVec 64) (data : BitVec 512) : State :=
  if !ctrl then writeAperture s l.toNat cls (a / 64) mask data
  else if cls == .agent then maskedCtrl s l (a / 64 * 64) mask data
  else if arrives s l.toNat then aptViolate s l.toNat
  else s

/-- WR_LINE (R274). -/
def execWrLine (pl : BitVec 2) (cls : ReqClass) (ctrl : Bool) (addr : BitVec 40) (data : BitVec 512) (s : State) :
    Host.Outcome State Fault Refusal :=
  .next (lineWrite s pl cls ctrl addr.toNat (BitVec.allOnes 64) data)

/-- WR_PART (R253). -/
def execWrPart (pl : BitVec 2) (cls : ReqClass) (ctrl : Bool) (addr : BitVec 40) (mask : BitVec 64) (data : BitVec 512)
    (s : State) : Host.Outcome State Fault Refusal :=
  .next (lineWrite s pl cls ctrl addr.toNat mask data)

end Sys2Proof.Machine
end

