-- ==== Sys2Proof/Machine/Fronts.lean ====
section
/-! DEFINITION. The fronts and rejoin points: the commands that switch plans (R48, R53, R54) and routing banks (R219). -/

namespace Sys2Proof.Machine

/-- The tick of F (R48): the armed plan becomes active, or its front is missed (R36). An isobar of the same tick latches
before it (R56). -/
def reachFront (s : State) : State :=
  if !s.inService || s.plans.nextCond != .armed then s
  else
    let s := latchDue (s.arriveAt s.plans.front) false
    if knowsTime s then switchPlan s else missFront s

/-- PLAN_FRONT (R48). -/
def execPlanFront (s : State) : Host.Outcome State Fault Refusal := .next (reachFront s)

/-- A rejoin point (R53, R54): the missed plan is adopted, or the active plan is resumed, whichever comes
first. -/
def rejoin (s : State) : State :=
  if !s.inService then s else
  match missedPoint s, resumePoint s with
  | some m, some r => if m ≤ r then switchPlan (latchDue (s.arriveAt m) false) else resumePlan (latchDue (s.arriveAt r) false)
  | some m, none => switchPlan (latchDue (s.arriveAt m) false)
  | none, some r => resumePlan (latchDue (s.arriveAt r) false)
  | none, none => s

/-- REJOIN_POINT (R53). -/
def execRejoinPoint (s : State) : Host.Outcome State Fault Refusal := .next (rejoin s)

/-- The tick of an armed table front (R217, R219). -/
def reachTableFront (s : State) : State :=
  match s.routing.tableFront, [false, true].find? (fun b => (bankOf s.routing b).cond == .armed) with
  | some f, some b =>
    if !s.inService then s
    else (moveInjection (latchDue (s.arriveAt f) false) b).modRouting (fun r => { r with tableFront := none })
  | _, _ => s

/-- TABLE_FRONT (R219). -/
def execTableFront (s : State) : Host.Outcome State Fault Refusal := .next (reachTableFront s)

end Sys2Proof.Machine
end

