-- ==== Sys2Proof/Machine/Transport.lean ====
section
/-! DEFINITION. The commands of the requester (chapter 5): sending, answers received, retry, probes,
back-off (R128 to R140). -/

namespace Sys2Proof.Machine

/-- ZTP_PACKET_SEND (R138). -/
def execZtpPacketSend (qp : BitVec 20) (s : State) : Host.Outcome State Fault Refusal :=
  .next (settle (sendNext s qp.toNat))

/-! ### Answers -/

/-- An unfinished message of an MSN. -/
def msgOf (s : State) (q msn : Nat) : Option Msg := (s.msgs q).find? (fun m => m.msn == msn)

/-- An ACK (R128, R131): it acknowledges every PSN up to its own, and answers the sync message it
names. -/
def takeAck (s : State) (q : Nat) (p : ZtpPacket) : State :=
  let s := sampleRtt s q p.ts
  let next := wrap 32 (p.psn.toNat + 1)
  match msgOf s q p.msn.toNat with
  | none => advanceAck s q next
  | some m =>
    if m.kind != .sync || m.psn != some p.psn.toNat then advanceAck s q next
    else if p.syndrome = 1 then
      advanceAck (s.modMsg q m.msn (fun m => { m with
        held := true, passed := true, k := 0, timerAt := some (s.now + (s.qp q).ident.capUs * 1000) })) q next
    else settleAck (advanceAck (endMsg s q m.msn St.ok p.result 0) q next) q

/-- ACK (R128). -/
def execAck (arr : Arrival) (pkt : ZtpPacket) (s : State) : Host.Outcome State Fault Refusal :=
  .next (respGate s arr pkt 0x11 (fun s q => takeAck s q pkt))

/-- A status code with which an answer may end a message: a code of R7 other than OK, and not CONTEXT_BUSY (R8, R9). -/
def endsWith (status : Nat) : Bool := decide (0 < status ∧ status ≤ 0x10) && status != 0x0B

/-- A NAK SEQUENCE (R133): send again from its EPSN, once for each gap. -/
def takeNakSequence (s : State) (q e : Nat) : State :=
  let k := s.qp q
  if k.ignoreNak = some e ∨ ahead e k.unacked ≥ 2 ^ 31 ∨ ahead k.sendPsn e ≥ 2 ^ 31 then s
  else resendFrom (s.modQp q (fun k => { k with ignoreNak := some e })) q e

/-- A NAK BUSY (R136): back off, or give up at BUSY_LIMIT. -/
def takeNakBusy (s : State) (q port psn : Nat) : State :=
  let j := (s.qp q).j + 1
  let s := (s.modDie port (fun d => { d with busyRx := wrap 32 (d.busyRx + 1) })).modQp q
    (fun k => { k with j := j, busyRx := wrap 16 (k.busyRx + 1) })
  if j = (s.qp q).ident.busyLimit
  then qpError s q St.retryExhausted St.retryExhausted (retryDetail (s.qp q).k true) 0
  else s.modQp q (fun k => { k with
    backoff := some (s.now + k.ident.busyDelay * 1000 * min (2 ^ (j - 1)) 64, psn), timerAt := none })

/-- A NAK FAILED (R127, R133, R154): with FLUSHED the far end is in ERROR and all messages end;
otherwise its message ends, the PSNs before its EPSN are acknowledged (DESIGN CHOICE, log entry 114), and what was sent
after the NAK's EPSN is sent again. One whose STATUS can end no message is dropped (DESIGN CHOICE, log entry 111). -/
def takeNakFailed (s : State) (port q : Nat) (p : ZtpPacket) : State :=
  let status := p.status.toNat
  if !endsWith status then staleDrop s port
  else if status = St.flushed then qpError s q St.flushed St.flushed 0 0
  else match msgOf s q p.msn.toNat with
    | none => s
    | some m =>
      let s := endMsg s q m.msn status 0 (remoteDetail m status p.sigRefused)
      resendFrom (settleAck (advanceAck s q p.epsn.toNat) q) q p.epsn.toNat

/-- A NAK (R133, R136). -/
def takeNak (s : State) (arr : Arrival) (q : Nat) (p : ZtpPacket) : State :=
  if p.syndrome = 2 then takeNakSequence s q p.epsn.toNat
  else if p.syndrome = 3 then takeNakBusy s q (arrPort s arr q) p.psn.toNat
  else if p.syndrome = 4 then takeNakFailed s (arrPort s arr q) q p
  else s

/-- NAK (R133). -/
def execNak (arr : Arrival) (pkt : ZtpPacket) (s : State) : Host.Outcome State Fault Refusal :=
  .next (respGate s arr pkt 0x12 (fun s q => takeNak s arr q pkt))

/-- A READ's bytes also go to the local generation while a region is restored (R334). -/
def restoreCopy (s : State) (m : Msg) (bs : List Byte) : State :=
  match m.owner, m.xlat with
  | .restore r, some x => match restoreEnt s r with
    | some e => (hbmStore s (genBase e (leAt (s.flt.restoring.findD r default).record 8 1) + (x.addr - e.source * gran) + m.placed) bs).modFlt
        (fun f => { f with restoreDone := f.restoreDone + bs.length })
    | none => s
  | _, _ => s

/-- Place a response of a READ (R137). -/
def placeResponse (s : State) (q : Nat) (m : Msg) (bs : List Byte) : State :=
  let grow := fun (s : State) => s.modMsg q m.msn (fun m => { m with
    placed := m.placed + bs.length, inlineData := if m.xlat.isNone then m.inlineData ++ bs else m.inlineData })
  let finish := fun (s : State) =>
    let s := grow s
    settleAck (if m.placed + bs.length = m.len then endMsg s q m.msn St.ok (BitVec.ofNat 64 m.len) 0 else s) q
  match m.xlat with
  | none => finish s
  | some x => match xlatWrite s x m.placed bs with
    | (s, .done) => finish (restoreCopy s m bs)
    | (s, .failed st d) => settleAck (endMsg s q m.msn st 0 (shiftBlock st m.placed d)) q

/-- A READ_RESP (R137): while the link of its landing space is in RETRAIN it waits (R287). -/
def landReadResp (s0 s : State) (arr : Arrival) (q : Nat) (p : ZtpPacket) : State :=
  let k := s.qp q
  match msgAt k p.psn.toNat with
  | none => s
  | some m =>
    let bs := match p.body with | .data b => b | _ => []
    if m.kind != .read then s
    else if p.psn.toNat != readNext k m then
      if ahead p.psn.toNat (readNext k m) < 2 ^ 31 then outOfWindow s (arrPort s arr q) else s
    else if bs.length ≠ min (pmtuBytes k.ident.pmtu) (m.len - m.placed) then s
    else if (match m.xlat with | some x => xlatHeld s x && !xlatLost s x | none => false) then s0
    else placeResponse s q m bs

/-- A READ_RESP is received: it gives a round-trip sample, and marked CE it is a CNP, whether or not it is accepted
(R139, R140). -/
def takeReadResp (s0 s : State) (arr : Arrival) (q : Nat) (p : ZtpPacket) : State :=
  let s := sampleRtt s q p.ts
  landReadResp s0 (if arr.ce then takeCnp s q else s) arr q p

/-- READ_RESP (R137). -/
def execReadResp (arr : Arrival) (pkt : ZtpPacket) (s : State) : Host.Outcome State Fault Refusal :=
  .next (respGate s arr pkt 0x13 (fun s' q => takeReadResp s s' arr q pkt))

/-- A SYNC_DONE (R131): the final status and RESULT of a held wait. One whose STATUS can end no message is dropped
(DESIGN CHOICE, log entry 111). -/
def takeSyncDone (s : State) (port q : Nat) (p : ZtpPacket) : State :=
  if p.syndrome ≠ 0 && !endsWith p.status.toNat then staleDrop s port else
  match msgOf s q p.msn.toNat with
  | none => s
  | some m =>
    if m.kind != .sync then s else
    let status := if p.syndrome = 0 then St.ok else p.status.toNat
    settleAck (endMsg s q m.msn status p.result (remoteDetail m status false)) q

/-- SYNC_DONE (R131). -/
def execSyncDone (arr : Arrival) (pkt : ZtpPacket) (s : State) : Host.Outcome State Fault Refusal :=
  .next (respGate s arr pkt 0x14 (fun s q => takeSyncDone s (arrPort s arr q) q pkt))

/-- CNP (R140). -/
def execCnp (arr : Arrival) (pkt : ZtpPacket) (s : State) : Host.Outcome State Fault Refusal :=
  .next (respGate s arr pkt 0x15 takeCnp)

/-! ### Timers -/

/-- An answer for a QP stands delivered and not yet taken: it is taken before a timer of its tick (R135). -/
def answerWaits (s : State) (q : Nat) : Bool :=
  s.inbox.any (fun x => match x.body with
    | .ztp p => p.dstQp.toNat == q && (p.typ == 0x11 || p.typ == 0x12 || p.typ == 0x13 || p.typ == 0x14)
    | _ => false)

/-- The retry timer expires (R133, R134), unless an answer is to be taken first (R135). -/
def retryExpired (s : State) (q : Nat) : State :=
  let k := s.qp q
  match k.timerAt with
  | none => s
  | some t =>
    if !maySend k || answerWaits s q then s else
    let s := s.arriveAt t
    if k.k ≥ k.ident.limit then qpError s q St.retryExhausted St.retryExhausted (retryDetail k.k false) 0
    else
      let s := s.modDie (qpPort s q) (fun d => { d with retries := wrap 32 (d.retries + 1) })
      resendFrom (s.modQp q (fun k => { k with
        k := k.k + 1, retries := wrap 32 (k.retries + 1), ignoreNak := none
        timerAt := some (s.now + rto k.ident (k.k + 1)) })) q k.unacked

/-- RETRY_TIMER_EXPIRY (R133). -/
def execRetryTimerExpiry (qp : BitVec 20) (s : State) : Host.Outcome State Fault Refusal :=
  .next (settle (retryExpired s qp.toNat))

/-- Send the SYNC_REQ of a message again (R131), counting it as a packet sent again. -/
def sendProbe (s : State) (q : Nat) (m : Msg) : State :=
  sendSealed (s.modWin (s.qp q).ident.owner (fun v => { v with retransmits := wrap 32 (v.retransmits + 1) })) q 1
    (syncPacket s q m)

/-- The own timer of a sync message expires (R128, R131): CAP after an ACK HELD a probe goes; an
unanswered one is sent again under R132 to R135, and its message is the one exhausted. -/
def probeExpired (s : State) (q msn : Nat) : State :=
  let k := s.qp q
  match msgOf s q msn with
  | none => s
  | some m => match m.timerAt with
    | none => s
    | some t =>
      if m.kind != .sync || !m.passed || !maySend k || answerWaits s q then s else
      let s := s.arriveAt t
      if m.held then
        sendProbe (s.modMsg q msn (fun m => { m with held := false, k := 0, timerAt := some (s.now + rto k.ident 0) })) q m
      else if m.k ≥ k.ident.limit then
        qpError (endMsg s q msn St.retryExhausted 0 (retryDetail m.k false)) q St.retryExhausted St.flushed 0 0
      else
        let s := s.modDie (qpPort s q) (fun d => { d with retries := wrap 32 (d.retries + 1) })
        let s := s.modQp q (fun k => { k with retries := wrap 32 (k.retries + 1) })
        sendProbe (s.modMsg q msn (fun m => { m with k := m.k + 1, timerAt := some (s.now + rto k.ident (m.k + 1)) })) q m

/-- PROBE_TIMER_EXPIRY (R131). -/
def execProbeTimerExpiry (qp : BitVec 20) (msn : BitVec 32) (s : State) : Host.Outcome State Fault Refusal :=
  .next (settle (probeExpired s qp.toNat msn.toNat))

/-- The back-off of a NAK BUSY ends (R136): send again from the NAK's PSN, the timer restarting. -/
def backoffEnds (s : State) (q : Nat) : State :=
  match (s.qp q).backoff with
  | none => s
  | some (t, psn) =>
    let s := (s.arriveAt t).modQp q (fun k => { k with
      backoff := none, timerAt := if k.unacked = k.sentTo then none else some (max s.now (tickStart t) + rto k.ident k.k) })
    match msgAt (s.qp q) psn with
    | some m => if m.kind == .sync && m.passed then sendProbe s q m else resendFrom s q psn
    | none => resendFrom s q psn

/-- BUSY_BACKOFF_END (R136). -/
def execBusyBackoffEnd (qp : BitVec 20) (s : State) : Host.Outcome State Fault Refusal :=
  .next (settle (backoffEnds s qp.toNat))

end Sys2Proof.Machine
end

