-- ==== Sys2Proof/Machine/Dispatch.lean ====
section
/-! DEFINITION. The dispatcher: one arm per command of the table of operations. -/

namespace Sys2Proof.Machine

/-- What command `i` does to everything but the queue of waiting commands. -/
def exec (i : Instr) (s : State) : Host.Outcome State Fault Refusal :=
  match i with
  | .timeEpochWrite link value => Sys2Proof.Machine.execTimeEpochWrite link value s
  | .timeCtrlWrite link value => Sys2Proof.Machine.execTimeCtrlWrite link value s
  | .ptpSyncReceived port origin sub => Sys2Proof.Machine.execPtpSyncReceived port origin sub s
  | .announceReceived port tlv accuracy rank => Sys2Proof.Machine.execAnnounceReceived port tlv accuracy rank s
  | .syncIntervalExpiry => Sys2Proof.Machine.execSyncIntervalExpiry s
  | .holdoverLimitExceeded => Sys2Proof.Machine.execHoldoverLimitExceeded s
  | .timePpsInEdge sub refOk => Sys2Proof.Machine.execTimePpsInEdge sub refOk s
  | .timeTod door link => Sys2Proof.Machine.execTimeTod door link s
  | .ppsOutPulse => Sys2Proof.Machine.execPpsOutPulse s
  | .ppsOutPulseEnd => Sys2Proof.Machine.execPpsOutPulseEnd s
  | .isobarArm link value => Sys2Proof.Machine.execIsobarArm link value s
  | .isobarLatch => Sys2Proof.Machine.execIsobarLatch s
  | .sheetStart port => Sys2Proof.Machine.execSheetStart port s
  | .egressFrameStart port => Sys2Proof.Machine.execEgressFrameStart port s
  | .planLoad door link => Sys2Proof.Machine.execPlanLoad door link s
  | .planLoadComplete => Sys2Proof.Machine.execPlanLoadComplete s
  | .planArm door link => Sys2Proof.Machine.execPlanArm door link s
  | .planCancel door link => Sys2Proof.Machine.execPlanCancel door link s
  | .planUnload door link => Sys2Proof.Machine.execPlanUnload door link s
  | .planFront => Sys2Proof.Machine.execPlanFront s
  | .rejoinPoint => Sys2Proof.Machine.execRejoinPoint s
  | .planDrainBound => Sys2Proof.Machine.execPlanDrainBound s
  | .wqDoorbell link inst q value => Sys2Proof.Machine.execWqDoorbell link inst q value s
  | .entryStart q => Sys2Proof.Machine.execEntryStart q s
  | .entryComplete q seq => Sys2Proof.Machine.execEntryComplete q seq s
  | .cqDoorbell link inst ring value => Sys2Proof.Machine.execCqDoorbell link inst ring value s
  | .wqCreate link inst value => Sys2Proof.Machine.execWqCreate link inst value s
  | .cqCreate link inst value => Sys2Proof.Machine.execCqCreate link inst value s
  | .nop q => Sys2Proof.Machine.execNop q s
  | .fence q => Sys2Proof.Machine.execFence q s
  | .write q => Sys2Proof.Machine.execWrite q s
  | .read q => Sys2Proof.Machine.execRead q s
  | .copy q => Sys2Proof.Machine.execCopy q s
  | .copyComplete q seq => Sys2Proof.Machine.execCopyComplete q seq s
  | .signal q => Sys2Proof.Machine.execSignal q s
  | .waitCounter q => Sys2Proof.Machine.execWaitCounter q s
  | .semAdd q => Sys2Proof.Machine.execSemAdd q s
  | .semWait q => Sys2Proof.Machine.execSemWait q s
  | .waitQueue q => Sys2Proof.Machine.execWaitQueue q s
  | .timeWait q => Sys2Proof.Machine.execTimeWait q s
  | .timeWaitReached q => Sys2Proof.Machine.execTimeWaitReached q s
  | .waitDeadline wait => Sys2Proof.Machine.execWaitDeadline wait s
  | .hostSignal q => Sys2Proof.Machine.execHostSignal q s
  | .collStep q => Sys2Proof.Machine.execCollStep q s
  | .couchCopy q => Sys2Proof.Machine.execCouchCopy q s
  | .rawSend q => Sys2Proof.Machine.execRawSend q s
  | .syncInit link inst value => Sys2Proof.Machine.execSyncInit link inst value s
  | .syncGshareWrite link inst upper value => Sys2Proof.Machine.execSyncGshareWrite link inst upper value s
  | .syncDoorbell link inst value => Sys2Proof.Machine.execSyncDoorbell link inst value s
  | .syncReclaim door link => Sys2Proof.Machine.execSyncReclaim door link s
  | .syncMemoryUe granule => Sys2Proof.Machine.execSyncMemoryUe granule s
  | .lullBegin q => Sys2Proof.Machine.execLullBegin q s
  | .ztpPacketSend qp => Sys2Proof.Machine.execZtpPacketSend qp s
  | .writePacket arr pkt => Sys2Proof.Machine.execWritePacket arr pkt s
  | .readReq arr pkt => Sys2Proof.Machine.execReadReq arr pkt s
  | .syncReq arr pkt => Sys2Proof.Machine.execSyncReq arr pkt s
  | .ack arr pkt => Sys2Proof.Machine.execAck arr pkt s
  | .nak arr pkt => Sys2Proof.Machine.execNak arr pkt s
  | .readResp arr pkt => Sys2Proof.Machine.execReadResp arr pkt s
  | .syncDone arr pkt => Sys2Proof.Machine.execSyncDone arr pkt s
  | .cnp arr pkt => Sys2Proof.Machine.execCnp arr pkt s
  | .ackDelayExpiry qp => Sys2Proof.Machine.execAckDelayExpiry qp s
  | .retryTimerExpiry qp => Sys2Proof.Machine.execRetryTimerExpiry qp s
  | .probeTimerExpiry qp msn => Sys2Proof.Machine.execProbeTimerExpiry qp msn s
  | .busyBackoffEnd qp => Sys2Proof.Machine.execBusyBackoffEnd qp s
  | .ratePeriod flow => Sys2Proof.Machine.execRatePeriod flow s
  | .contextFetchComplete qp => Sys2Proof.Machine.execContextFetchComplete qp s
  | .qpOpen door link => Sys2Proof.Machine.execQpOpen door link s
  | .qpClose door link => Sys2Proof.Machine.execQpClose door link s
  | .connReq arr pkt => Sys2Proof.Machine.execConnReq arr pkt s
  | .connRep arr pkt => Sys2Proof.Machine.execConnRep arr pkt s
  | .connRtu arr pkt => Sys2Proof.Machine.execConnRtu arr pkt s
  | .discReq arr pkt => Sys2Proof.Machine.execDiscReq arr pkt s
  | .discRep arr pkt => Sys2Proof.Machine.execDiscRep arr pkt s
  | .connReqTimer qp => Sys2Proof.Machine.execConnReqTimer qp s
  | .setupTimeout qp => Sys2Proof.Machine.execSetupTimeout qp s
  | .discReqTimer qp => Sys2Proof.Machine.execDiscReqTimer qp s
  | .qpDrainBound qp => Sys2Proof.Machine.execQpDrainBound qp s
  | .cspData arr pkt => Sys2Proof.Machine.execCspData arr pkt s
  | .cspAck arr pkt => Sys2Proof.Machine.execCspAck arr pkt s
  | .pieceSend slot st => Sys2Proof.Machine.execPieceSend slot st s
  | .pieceConsume slot st => Sys2Proof.Machine.execPieceConsume slot st s
  | .pieceResendTimer slot st => Sys2Proof.Machine.execPieceResendTimer slot st s
  | .stepLimitExpiry slot => Sys2Proof.Machine.execStepLimitExpiry slot s
  | .collStepComplete slot => Sys2Proof.Machine.execCollStepComplete slot s
  | .fabricFrameReceived port frame => Sys2Proof.Machine.execFabricFrameReceived port frame s
  | .hello port src verMax nbrPort planId => Sys2Proof.Machine.execHello port src verMax nbrPort planId s
  | .helloTimer port => Sys2Proof.Machine.execHelloTimer port s
  | .linkAck port lseq => Sys2Proof.Machine.execLinkAck port lseq s
  | .linkNak port lseq => Sys2Proof.Machine.execLinkNak port lseq s
  | .credit port vc amount => Sys2Proof.Machine.execCredit port vc amount s
  | .replayTimeout port => Sys2Proof.Machine.execReplayTimeout port s
  | .pcsAlignmentLoss port => Sys2Proof.Machine.execPcsAlignmentLoss port s
  | .retrainMaxExpiry port => Sys2Proof.Machine.execRetrainMaxExpiry port s
  | .fabricRetrainTimer port => Sys2Proof.Machine.execFabricRetrainTimer port s
  | .fllCfgWrite link port value => Sys2Proof.Machine.execFllCfgWrite link port value s
  | .fabNodeWrite link value => Sys2Proof.Machine.execFabNodeWrite link value s
  | .vc0HoldExpiry port => Sys2Proof.Machine.execVc0HoldExpiry port s
  | .routeCopy link value => Sys2Proof.Machine.execRouteCopy link value s
  | .routeDiscard link value => Sys2Proof.Machine.execRouteDiscard link value s
  | .routeTblDataWrite link value => Sys2Proof.Machine.execRouteTblDataWrite link value s
  | .routeTblDataRead link => Sys2Proof.Machine.execRouteTblDataRead link s
  | .tableFrontWrite link value => Sys2Proof.Machine.execTableFrontWrite link value s
  | .tableFront => Sys2Proof.Machine.execTableFront s
  | .bankDrainBound => Sys2Proof.Machine.execBankDrainBound s
  | .ethFrameReceived port sub frame => Sys2Proof.Machine.execEthFrameReceived port sub frame s
  | .pfcRefresh port sub prio => Sys2Proof.Machine.execPfcRefresh port sub prio s
  | .pauseFrame port sub frame => Sys2Proof.Machine.execPauseFrame port sub frame s
  | .pauseExpiry port sub prio => Sys2Proof.Machine.execPauseExpiry port sub prio s
  | .ethFrameStart port sub => Sys2Proof.Machine.execEthFrameStart port sub s
  | .gateEntry port => Sys2Proof.Machine.execGateEntry port s
  | .subportLinkUp port sub => Sys2Proof.Machine.execSubportLinkUp port sub s
  | .subportLinkDown port sub => Sys2Proof.Machine.execSubportLinkDown port sub s
  | .segSet link inst value => Sys2Proof.Machine.execSegSet link inst value s
  | .segClear link inst value => Sys2Proof.Machine.execSegClear link inst value s
  | .patrolScrub addr found => Sys2Proof.Machine.execPatrolScrub addr found s
  | .channelRetrain stack res => Sys2Proof.Machine.execChannelRetrain stack res s
  | .couchReopen qp => Sys2Proof.Machine.execCouchReopen qp s
  | .plCfgWrite link pl value => Sys2Proof.Machine.execPlCfgWrite link pl value s
  | .forceDown link pl value => Sys2Proof.Machine.execForceDown link pl value s
  | .plTrainingComplete pl ver agent lanes => Sys2Proof.Machine.execPlTrainingComplete pl ver agent lanes s
  | .plTrainingTimeout pl => Sys2Proof.Machine.execPlTrainingTimeout pl s
  | .plRetrainTimer pl => Sys2Proof.Machine.execPlRetrainTimer pl s
  | .plAlignmentLoss pl => Sys2Proof.Machine.execPlAlignmentLoss pl s
  | .plRealigned pl lanes => Sys2Proof.Machine.execPlRealigned pl lanes s
  | .plRetrainTimeout pl => Sys2Proof.Machine.execPlRetrainTimeout pl s
  | .resetNotice pl => Sys2Proof.Machine.execResetNotice pl s
  | .rdShr pl cls addr => Sys2Proof.Machine.execRdShr pl cls addr s
  | .rdOwn pl cls addr => Sys2Proof.Machine.execRdOwn pl cls addr s
  | .rdNc pl cls ctrl addr size => Sys2Proof.Machine.execRdNc pl cls ctrl addr size s
  | .wrLine pl cls ctrl addr data => Sys2Proof.Machine.execWrLine pl cls ctrl addr data s
  | .wrPart pl cls ctrl addr mask data => Sys2Proof.Machine.execWrPart pl cls ctrl addr mask data s
  | .snpInv pl addr data => Sys2Proof.Machine.execSnpInv pl addr data s
  | .watchPoll q => Sys2Proof.Machine.execWatchPoll q s
  | .pomelFence pl => Sys2Proof.Machine.execPomelFence pl s
  | .cmp pl err data => Sys2Proof.Machine.execCmp pl err data s
  | .registerWrite link addr value => Sys2Proof.Machine.execRegisterWrite link addr value s
  | .mbxInfo door link => Sys2Proof.Machine.execMbxInfo door link s
  | .instCreate door link => Sys2Proof.Machine.execInstCreate door link s
  | .instCalm door link => Sys2Proof.Machine.execInstCalm door link s
  | .instReset door link => Sys2Proof.Machine.execInstReset door link s
  | .instRemove door link => Sys2Proof.Machine.execInstRemove door link s
  | .instDrainBound inst => Sys2Proof.Machine.execInstDrainBound inst s
  | .instZeroingComplete inst => Sys2Proof.Machine.execInstZeroingComplete inst s
  | .pwrCapWrite link value => Sys2Proof.Machine.execPwrCapWrite link value s
  | .creditPeriod => Sys2Proof.Machine.execCreditPeriod s
  | .coefficientUpdate measured staticW => Sys2Proof.Machine.execCoefficientUpdate measured staticW s
  | .throttleRequest tj => Sys2Proof.Machine.execThrottleRequest tj s
  | .throttleRelease tj => Sys2Proof.Machine.execThrottleRelease tj s
  | .deferExpiry => Sys2Proof.Machine.execDeferExpiry s
  | .thermalOverride tj => Sys2Proof.Machine.execThermalOverride tj s
  | .emergClear tj => Sys2Proof.Machine.execEmergClear tj s
  | .faultLogAppend => Sys2Proof.Machine.execFaultLogAppend s
  | .coreAckWrite link value => Sys2Proof.Machine.execCoreAckWrite link value s
  | .altNotice port alt e hops origin => Sys2Proof.Machine.execAltNotice port alt e hops origin s
  | .noticeRepeat alt => Sys2Proof.Machine.execNoticeRepeat alt s
  | .decisionPoint => Sys2Proof.Machine.execDecisionPoint s
  | .restoreComplete region => Sys2Proof.Machine.execRestoreComplete region s
  | .coreWatchdogExpiry core task => Sys2Proof.Machine.execCoreWatchdogExpiry core task s
  | .porstNRelease flash strap => Sys2Proof.Machine.execPorstNRelease flash strap s
  | .porstNAssert lowNs => Sys2Proof.Machine.execPorstNAssert lowNs s
  | .flashRetry flash => Sys2Proof.Machine.execFlashRetry flash s
  | .bootComplete => Sys2Proof.Machine.execBootComplete s
  | .wrstNAssert => Sys2Proof.Machine.execWrstNAssert s
  | .wrstNRelease => Sys2Proof.Machine.execWrstNRelease s
  | .railLoss => Sys2Proof.Machine.execRailLoss s
  | .refclkSysLoss => Sys2Proof.Machine.execRefclkSysLoss s
  | .refclkSysRecovery => Sys2Proof.Machine.execRefclkSysRecovery s
  | .thermalTrip => Sys2Proof.Machine.execThermalTrip s
  | .fwStageLoad door link => Sys2Proof.Machine.execFwStageLoad door link s
  | .fwStageCommit door link => Sys2Proof.Machine.execFwStageCommit door link s
  | .fwStageAbort door link => Sys2Proof.Machine.execFwStageAbort door link s
  | .fwStageAdvance door link => Sys2Proof.Machine.execFwStageAdvance door link s
  | .flashWriteComplete readBack => Sys2Proof.Machine.execFlashWriteComplete readBack s
  | .fwQuery door link => Sys2Proof.Machine.execFwQuery door link s
  | .identity door link => Sys2Proof.Machine.execIdentity door link s
  | .attest door link => Sys2Proof.Machine.execAttest door link s
  | .i3cIdentity => Sys2Proof.Machine.execI3cIdentity s
  | .i3cMbxWr w data => Sys2Proof.Machine.execI3cMbxWr w data s
  | .i3cMbxGo => Sys2Proof.Machine.execI3cMbxGo s
  | .i3cMbxRd w => Sys2Proof.Machine.execI3cMbxRd w s
  | .i3cMbxStat => Sys2Proof.Machine.execI3cMbxStat s
  | .setdasa dyn => Sys2Proof.Machine.execSetdasa dyn s
  | .entdaa dyn => Sys2Proof.Machine.execEntdaa dyn s
  | .rstdaa => Sys2Proof.Machine.execRstdaa s
  | .getpid => Sys2Proof.Machine.execGetpid s
  | .getbcr => Sys2Proof.Machine.execGetbcr s
  | .getdcr => Sys2Proof.Machine.execGetdcr s
  | .mtrVddRise => Sys2Proof.Machine.execMtrVddRise s
  | .meterPeriodClose => Sys2Proof.Machine.execMeterPeriodClose s
  | .meterRingFlush => Sys2Proof.Machine.execMeterRingFlush s
  | .mtrIdentity => Sys2Proof.Machine.execMtrIdentity s
  | .cert offset => Sys2Proof.Machine.execCert offset s
  | .lastSeq => Sys2Proof.Machine.execLastSeq s
  | .record seq => Sys2Proof.Machine.execRecord seq s
  | .spot inst nonce => Sys2Proof.Machine.execSpot inst nonce s
  | .tstLoopWrite link port value => Sys2Proof.Machine.execTstLoopWrite link port value s
  | .tstPlLoopWrite link pl value => Sys2Proof.Machine.execTstPlLoopWrite link pl value s
  | .phyLoop link value => Sys2Proof.Machine.execPhyLoop link value s
  | .selfTest link value => Sys2Proof.Machine.execSelfTest link value s
  | .memTestComplete failing => Sys2Proof.Machine.execMemTestComplete failing s
  | .tstInjectWrite link value => Sys2Proof.Machine.execTstInjectWrite link value s
  | .bypass => Sys2Proof.Machine.execBypass s
  | .idcode => Sys2Proof.Machine.execIdcode s
  | .samplePreload => Sys2Proof.Machine.execSamplePreload s
  | .extest => Sys2Proof.Machine.execExtest s
  | .extestPulse => Sys2Proof.Machine.execExtestPulse s
  | .extestTrain => Sys2Proof.Machine.execExtestTrain s
  | .clamp => Sys2Proof.Machine.execClamp s
  | .highz => Sys2Proof.Machine.execHighz s
  | .stackStopsAnswering stack => Sys2Proof.Machine.execStackStopsAnswering stack s
  | .mtrVddFall => Sys2Proof.Machine.execMtrVddFall s
  | .ptpSyncSend port => Sys2Proof.Machine.execPtpSyncSend port s
  | .announceSend port => Sys2Proof.Machine.execAnnounceSend port s
  | .pdelayReq port msg sub => Sys2Proof.Machine.execPdelayReq port msg sub s
  | .delayReq port msg sub => Sys2Proof.Machine.execDelayReq port msg sub s

end Sys2Proof.Machine
end

