-- ==== Sys2Proof/Machine/Package.lean ====
section
/-! DEFINITION. The levels at the balls that the device drives (R386, R387, R411), with what the boundary scan drives in
their place (R377). -/

namespace Sys2Proof.Machine

/-- Signals of R386 that the device may drive. -/
inductive Signal where
  | networkTx | pomelTx | gpio (n : Nat) | mgmt | uartTxd | flash | flashCsN | flashResetN | tdo | faultN | thermTripN
  deriving DecidableEq, Repr, Inhabited

/-- What stands at a ball: electrical idle, a level, high impedance, a weak pull, the signal's own function, or what
boundary scan drives. -/
inductive Drive where
  | idle | low | high | highZ | weakUp | weakDown | function | scan
  deriving DecidableEq, Repr, Inhabited

/-- The balls while PORST_N is low (R386). -/
def heldDrive : Signal → Drive
  | .networkTx => .idle
  | .pomelTx => .idle
  | .gpio _ => .weakDown
  | .mgmt => .highZ
  | .uartTxd => .high
  | .flash => .highZ
  | .flashCsN => .weakUp
  | .flashResetN => .low
  | .tdo => .highZ
  | .faultN => .highZ
  | .thermTripN => .highZ

/-- FAULT_N and THERMTRIP_N are open drain (R386). -/
def openDrain (low : Bool) : Drive := if low then .low else .highZ

/-- The balls in BOOT_HALT (R345, R386). -/
def haltDrive (s : State) : Signal → Drive
  | .networkTx => .idle
  | .pomelTx => .idle
  | .gpio _ => .weakDown
  | .mgmt => .function
  | .uartTxd => .high
  | .flash => .highZ
  | .flashCsN => .highZ
  | .flashResetN => .highZ
  | .tdo => .function
  | .faultN => openDrain (faultNLow s)
  | .thermTripN => openDrain (!thermTripN s)

/-- The flash pins are high impedance while the boot waits for an absent or blank flash (R341). -/
def flashDrive (s : State) : Drive := if s.boot.waitFlash = 0 then .function else .highZ

/-- A ball without a plan's claim, or claimed as an input, is an input (R41, R386). -/
def gpioDrive (s : State) (n : Nat) : Drive :=
  match s.pins.gpio.find n with
  | none => .weakDown
  | some .input => .weakDown
  | some _ => .function

/-- The balls of a device that boots or is in service. -/
def runDrive (s : State) : Signal → Drive
  | .gpio n => gpioDrive s n
  | .flash => flashDrive s
  | .flashCsN => flashDrive s
  | .flashResetN => .highZ
  | .faultN => openDrain (faultNLow s)
  | .thermTripN => openDrain (!thermTripN s)
  | .networkTx => .function
  | .pomelTx => .function
  | .mgmt => .function
  | .uartTxd => .function
  | .tdo => .function

/-- The balls in OFF: only the two that name its cause are driven (R387, R392, R411). -/
def offDrive (s : State) : Signal → Drive
  | .faultN => openDrain (faultNLow s)
  | .thermTripN => openDrain (!thermTripN s)
  | _ => .highZ

/-- What the loaded JTAG instruction makes of a ball in the chain: HIGHZ turns it off, the others that drive balls
drive it (R377). TDO belongs to the TAP itself. -/
def scanDrive (s : State) (g : Signal) : Option Drive :=
  if g = .tdo then none
  else match s.tst.jtag with
    | .highz => some .highZ
    | .extest => some .scan
    | .extestPulse => some .scan
    | .extestTrain => some .scan
    | .clamp => some .scan
    | .bypass => none
    | .idcode => none
    | .samplePreload => none

/-- What stands at a ball (R386). -/
def drive (s : State) (g : Signal) : Drive :=
  if s.pins.porstLow then heldDrive g
  else match s.boot.phase with
    | .off => offDrive s g
    | .bootHalt => (scanDrive s g).getD (haltDrive s g)
    | .boot => (scanDrive s g).getD (runDrive s g)
    | .service => (scanDrive s g).getD (runDrive s g)

end Sys2Proof.Machine
end

