-- ==== Sys2Proof/Safety.lean ====
section
/-! DEFINITION. What a safe run is, in the terms claims use: no step stops, memory stays in canonical form, no
command touches the queue of commands, and what is blown into one-time memory stays blown. -/

namespace Sys2Proof.Machine

/-- HBM and the four companion memories are in canonical form. -/
def MemInv (s : State) : Prop :=
  Memory.wf s.mem = true ∧ Memory.wf s.board0 = true ∧ Memory.wf s.board1 = true ∧ Memory.wf s.board2 = true
    ∧ Memory.wf s.board3 = true

/-- The fuses of `t` hold at least what those of `s` hold (R343, R345, R352, R362): security version fuses and
the island's boot fuses only rise, the halt fuse stays blown, and no revocation changes in the field. -/
def FusesKept (s t : State) : Prop :=
  s.boot.fuseSvn ≤ t.boot.fuseSvn ∧ (s.boot.haltFuse = true → t.boot.haltFuse = true)
    ∧ t.boot.keyRevoke = s.boot.keyRevoke ∧ s.mtr.fuses ≤ t.mtr.fuses

/-- What every operation of the block keeps between a state and a later one: the waiting commands, the canonical
form of the memories, and the fuses. -/
structure Stays (s t : State) : Prop where
  queue : t.pending = s.pending
  mem : MemInv s → MemInv t
  fuses : FusesKept s t

/-! ### Words of the claims: when a command that comes through a register or a door is taken -/

/-- A 64-bit write of the register at `a` from link `l` is taken whole: it comes over a link that carries it
(R272, R340), R296 serves it, and it sets no reserved field `rsv` (R297). -/
def taken (s : State) (l a : Nat) (rsv : List (Nat × Nat)) (v : Word) : Bool :=
  arrives s l && serves s l a && (v &&& maskOf rsv == 0)

/-- The GO of a request naming command `cmd` in version `ver` comes to a door that is served, is not BUSY
and whose instance is ACTIVE, with reserved bits zero (R303, R305); `mgr` asks for a manager door. -/
def posted (s : State) (d : Door) (l cmd ver : Nat) (mgr : Bool) : Bool :=
  (match d with
    | .window i => arrives s l && serves s l (winAddr i.toNat 0x7240)
    | .i3c => s.inService)
  && !(s.door (doorKey d)).busy && reqCmd s d == cmd && (s.inst (doorInst d)).st == .active
  && fld (reqWord s d 0) 31 24 == 0 && fld (reqWord s d 0) 23 16 == ver && (!mgr || doorInst d == 0)

/-- A door that has taken a request: BUSY, and not DONE (R303). -/
def took (s : State) (d : Door) : State :=
  s.modDoor (doorKey d) (fun x => { x with busy := true, done := false })

/-- A ZTP packet of a type comes in whole: right ECRC, zero fields zero (R121 to R123). -/
def comesIn (s : State) (p : ZtpPacket) (typ : Byte) : Bool :=
  s.inService && p.typ == typ && p.ecrcOk && !zeroBroken p

/-- A packet from the far end of an OPEN or DRAINING QP, with its CONN and VER, its seal as agreed (R122,
R127 steps 3 and 4). -/
def fromFarEnd (u : State) (arr : Arrival) (p : ZtpPacket) : Bool :=
  let k := u.qp p.dstQp.toNat
  (k.st == .opened || k.st == .draining) && fromPeer u arr k p && connMatch k p && sealOk k p

/-- A response that the requester takes (R122, R144, R211). -/
def forRequester (u : State) (arr : Arrival) (p : ZtpPacket) : Bool :=
  fromFarEnd u arr p && pkeyOk u arr (u.qp p.dstQp.toNat) p

/-- The request that the responder expects next, its context resident, not marked CE (R127, R139). -/
def forResponder (u : State) (arr : Arrival) (p : ZtpPacket) : Bool :=
  fromFarEnd u arr p && (u.qp p.dstQp.toNat).resident && !arr.ce
    && p.psn.toNat == (u.qp p.dstQp.toNat).epsn && decide ((u.qp p.dstQp.toNat).epsn < 2 ^ 32)

/-- The QP of an expected request, noted as used last, with its SEAL number (R127, R151). -/
def requestTaken (u : State) (p : ZtpPacket) : State :=
  (touchQp u p.dstQp.toNat).modQp p.dstQp.toNat
    (fun k => { k with sealRx := if p.sealedBit then p.sealNo.toNat else k.sealRx })

/-- A connection packet: VER 1, not sealed, a CONN block from the far end of the QP it names (R122, R146,
R148). -/
def connFrom (u : State) (p : ZtpPacket) (c : ConnBlock) : Bool :=
  p.body == .conn c && p.ver == 1 && !p.sealedBit && blockMatches (u.qp p.dstQp.toNat) p.dstQp.toNat c

/-- A queue waits for its line to be written, or for landing space. -/
def awaitsWrite (w : WorkQueue) : Bool := w.st == .waiting && (w.reason == .early || w.reason == .landing)

/-- Nothing waits for what a command may end: no couch copy, no restore, no draining QP, no calming
instance, no head that waits for its line or for landing space. -/
def quiet (s : State) : Bool :=
  s.couch.vals.all (fun c => c.run.isNone) && s.flt.restoring.cells.isEmpty
    && s.qps.keys.all (fun q => (s.qp q).st != .draining) && s.insts.keys.all (fun i => (s.inst i).st != .calming)
    && s.queues.keys.all (fun q => match s.queues.find q with | some w => !awaitsWrite w | none => true)

/-- A step that does not stop. -/
def Goes (s : State) : Prop := ∃ t, step s = .next t

end Sys2Proof.Machine
end

