-- ==== Sys2Proof/Certificates/Slice0/Obligations.lean ====
section
/-! DEFINITION. The statements for the provers. Where a statement says a command "is taken" or "is posted",
Safety.lean says when. Every equation `exec … = .next t` is also a frame: what `t` does not name is as before. -/

open Sys2Proof Sys2Proof.Machine

/-- (R12; R16; R20; R21; R29; R30; R35; R303) TIME_EPOCH_WRITE, taken while no plan is loaded and every queue is
idle, sets the epoch to bits 47:0. TIME_CTRL_WRITE with legal fields and no plan loaded sets its four fields.
TIME_TOD in role GRANDMASTER_BOARD keeps the second given and the time of giving it, and answers OK.
PPS_OUT_PULSE on a claimed, enabled pin in LOCKED or HOLDOVER starts a pulse at the next second boundary (this
tick's, if none has started at it); PPS_OUT_PULSE_END ends it WIDTH_US later. ISOBAR_ARM at least 4,096 ns ahead
arms the snapshot for ISOBAR_TIME. ISOBAR_LATCH of an armed snapshot, at its tick, notes the stalls of the
ports, takes the shadows of every latched register and disarms. Each equation is a whole next state; the latch
changes nothing outside the time unit, the shadows, the ports and the links. -/
def Obligations.TimeRegistersPulsesAndSnapshots : Prop :=
  ∀ s : State,
    (∀ (link : BitVec 2) (v : Word), taken s link.toNat 0x10028 [(63, 48)] v = true → anyPlan s = false →
      (∀ w ∈ s.queues.vals, w.st = .idle) →
      exec (.timeEpochWrite link v) s = .next { s with time := { s.time with epoch := fld v 47 0 } })
    ∧ (∀ (link : BitVec 2) (v : Word), taken s link.toNat 0x10000 [(63, 32), (15, 4)] v = true → anyPlan s = false →
      fld v 3 2 ≠ 3 → 16 ≤ fld v 23 16 → 1 ≤ fld v 31 24 →
      exec (.timeCtrlWrite link v) s = .next { s with time := { s.time with
        ctrl := reg [(31, 24, fld v 31 24), (23, 16, fld v 23 16), (3, 2, fld v 3 2), (1, 0, fld v 1 0)] } })
    ∧ (∀ (d : Door) (link : BitVec 2), posted s d link.toNat 0x0050 1 true = true → timeRole s = 1 →
      exec (.timeTod d link) s = .next (answer { took s d with time := { s.time with
        tod := some ((reqWord s d 1).toNat, s.now) } } d St.ok []))
    ∧ (∀ b, b = nextSecond s → s.inService = true → ppsMayDrive s = true →
      b % 1000000000 = 0 ∧ s.now ≤ b ∧ b ≤ s.now + 1000000000
        ∧ exec .ppsOutPulse s = .next ((s.arriveAt b).modTime (fun t => { t with ppsOut := some t.now })))
    ∧ (∀ t, s.time.ppsOut = some t →
      exec .ppsOutPulseEnd s
        = .next ((s.arriveAt (t + ppsWidth s * 1000)).modTime (fun t => { t with ppsOut := none })))
    ∧ (∀ (link : BitVec 2) (v : Word), taken s link.toNat 0x10208 [(63, 16)] v = true →
      s.now + 4096 ≤ s.time.isoTime.toNat →
      exec (.isobarArm link v) s = .next { s with time := { s.time with
        isoArmed := true, isoArmedSnap := fld v 15 0, isoAt := s.time.isoTime.toNat, isoLate := false } })
    ∧ (s.running = true → s.time.isoArmed = true →
      ∃ t u, u = forEach s.ports.keys (s.arriveAt s.time.isoAt) noteStalls ∧ exec .isobarLatch s = .next t
        ∧ t = { s with time := t.time, tst := t.tst, ports := t.ports, links := t.links }
        ∧ t.time = { (s.arriveAt s.time.isoAt).time with
            isoSnap := s.time.isoArmedSnap, isoArmed := false, isoStepped := false, isoLost := s.time.lock == .lost }
        ∧ t.tst = { s.tst with shadowDev := shadowsDev u, shadowWin := shadowsWin u, shadowObj := shadowsObj u })

/-- (R17; R18; R20; R22; R31; R414; R323) In LOCKED, PTP_SYNC_RECEIVED on the parent's port and TIME_PPS_IN_EDGE
with its time of day, showing an offset within ERR_LIMIT, set the offset, the slew that is to remove it, the
filtered offset and the estimate, and note the sync; the PTP sync also keeps the time its leg took and then asks
for the path delay. ANNOUNCE_RECEIVED on a port that runs PTP keeps the TLV, the bound of its clock accuracy,
the rank of the master and when it was heard. SYNC_INTERVAL_EXPIRY in LOCKED comes four intervals after the last
valid sync and leaves HOLDOVER. HOLDOVER_LIMIT_EXCEEDED in HOLDOVER leaves LOST, reports a fault of class 6 with
the offset, and changes nothing but time and faults. The bound taken from a clock accuracy is log entry 49, the
removal of an offset by slewing is log entry 46. -/
def Obligations.ClockSourcesMoveTheLock : Prop :=
  ∀ s : State,
    (∀ (port : BitVec 4) (origin : Word) (sub : BitVec 4) (o : Int) (f : Nat), s.running = true → timeRole s = 0 →
      parentPort s = some port.toNat → (s.ptp port.toNat).tlv ≠ some 0xFFFF → s.time.lock = .locked →
      o = syncOffset s port.toNat origin.toNat sub.toNat → o.natAbs ≤ errLimit s → f = filtered s.time.filt o.natAbs →
      exec (.ptpSyncReceived port origin sub) s = .next (askDelay
        (((takePtp s port.toNat (fun m => match m with
          | .sync a _ => a == origin.toNat | .followUp a => a == origin.toNat | _ => false)).modPtp port.toNat (fun x => { x with
            msLeg := recvStamp s port.toNat sub.toNat - ((origin.toNat : Int) - epochNs s) })).modTime (fun t => { t with
              source := port.toNat, offset := o, slew := o * 1000000, filt := f, parentErr := parentError s port.toNat
              estAtSync := min 0xFFFE (f + parentError s port.toNat), lastValid := some s.now })) port.toNat))
    ∧ (∀ (port : BitVec 4) (tlv : Option (BitVec 16)) (acc : Byte) (rank : Word), s.running = true →
      ptpOn s port.toNat = true →
      exec (.announceReceived port tlv acc rank) s = .next ((takePtp s port.toNat (· == .announce tlv acc)).modPtp
        port.toNat (fun x => { x with
          tlv := tlv.map (·.toNat), accBound := accuracyBound acc.toNat, rank := some rank.toNat, heardAt := s.now })))
    ∧ (∀ t, s.running = true → s.time.lock = .locked → s.time.lastValid = some t →
      exec .syncIntervalExpiry s = .next ((s.arriveAt (t + 4 * lockInterval s)).modTime (fun x => { x with
        lock := .holdover, streak := 0 })))
    ∧ (∀ t, s.running = true → s.time.lock = .holdover → s.time.lastValid = some t →
      ∃ u, exec .holdoverLimitExceeded s = .next u ∧ u = { s with time := u.time, flt := u.flt }
        ∧ u.time = { (s.arriveAt (lostAt s t)).time with
            lock := .lost, streak := 0, estAtSync := estimateOf (s.arriveAt (lostAt s t)) }
        ∧ u.flt.raised = s.flt.raised ++ [⟨u.time.now, 6, 0, 112, 0xFF, true, false, 0,
            BitVec.ofNat 32 (satSigned 16 s.time.offset)⟩])
    ∧ (∀ (sub : BitVec 4) (refOk : Bool) (sec : Nat) (o : Int) (f : Nat), s.running = true → timeRole s = 1 →
      bit s.time.ctrl 1 = true → todInForce s = some sec → s.time.lock = .locked →
      o = ((s.now + sub.toNat : Nat) : Int) - ((sec * 1000000000 : Nat) - (epochNs s : Int)) → o.natAbs ≤ errLimit s →
      f = filtered s.time.filt o.natAbs →
      exec (.timePpsInEdge sub refOk) s = .next { s with time := { s.time with
        refOk := refOk, ppsLast := some s.now, tod := none, offset := o, slew := o * 1000000, filt := f, parentErr := 0
        estAtSync := min 0xFFFE f, lastValid := some s.now } })

/-- (R17; R18; R414) On a port that acts as master, PTP_SYNC_SEND comes one interval after the last Sync and sends a
Sync with the PTP time of its tick, a Follow_Up after it in two-step mode, and on a fabric-mode port a peer-
delay request; ANNOUNCE_SEND sends an Announce whose TLV is the device's estimate, its clockAccuracy a free
value. PDELAY_REQ on a fabric-mode port that runs PTP answers a request in its tick, and takes half of the round
trip less the turn-around as the link delay. DELAY_REQ on an Ethernet-mode port that runs PTP makes a master
answer on the sub-port it came in on with the time of receipt, corrected for the link, and makes a slave that
has asked keep the mean path delay. -/
def Obligations.PtpMessagesSentAndAnswered : Prop :=
  ∀ (s : State) (port : BitVec 4),
    (∀ u, s.running = true → isMaster s port.toNat = true →
      u = s.arriveAt ((s.ptp port.toNat).lastSync + syncInterval s port.toNat) →
      ∃ v, v = sendPtp (u.modPtp port.toNat (fun x => { x with lastSync := u.now })) port.toNat
          (.sync (u.now + epochNs s) (bit (s.ptp port.toNat).cfg 1))
        ∧ ∃ w, w = (if bit (s.ptp port.toNat).cfg 1 then sendPtp v port.toNat (.followUp (u.now + epochNs s)) else v)
        ∧ exec (.ptpSyncSend port) s = .next (if isEth w port.toNat then w else askDelay w port.toNat))
    ∧ (s.running = true → isMaster s port.toNat = true →
      exec (.announceSend port) s = .next (sendPtp { s with draw := s.draw + 1 } port.toNat
        (.announce (some (BitVec.ofNat 16 (estimateOf s))) ((Config.freeValue s.draw).setWidth 8))))
    ∧ (∀ sub : BitVec 4, s.running = true → isEth s port.toNat = false → ptpOn s port.toNat = true →
      exec (.pdelayReq port .pdelayReq sub) s
        = .next (sendPtp (takePtp s port.toNat (· == .pdelayReq)) port.toNat (.pdelayResp 0)))
    ∧ (∀ (sub : BitVec 4) (turn t : Nat), s.running = true → isEth s port.toNat = false → ptpOn s port.toNat = true →
      (s.ptp port.toNat).lastReq = some t →
      exec (.pdelayReq port (.pdelayResp turn) sub) s
        = .next (((takePtp s port.toNat (· == .pdelayResp turn)).modPtp port.toNat
            (fun x => { x with lastReq := none })).modPort port.toNat
              (fun k => { k with delay := (s.now + sub.toNat - t - turn) / 2 })))
    ∧ (∀ (sub : BitVec 4) (clock : BitVec 64) (seq : BitVec 16), s.running = true → isEth s port.toNat = true →
      ptpOn s port.toNat = true → isMaster s port.toNat = true →
      exec (.delayReq port (.delayReq clock seq) sub) s
        = .next (sendPtpOn (takePtp s port.toNat (· == .delayReq clock seq)) port.toNat
            (subOfPtp s port.toNat (.delayReq clock seq))
            (.delayResp clock seq (recvStamp s port.toNat sub.toNat + epochNs s).toNat)))
    ∧ (∀ (sub : BitVec 4) (clock : BitVec 64) (seq : BitVec 16) (recv t : Nat), s.running = true →
      isEth s port.toNat = true → ptpOn s port.toNat = true → (s.ptp port.toNat).lastReq = some t →
      exec (.delayReq port (.delayResp clock seq recv) sub) s
        = .next ((takePtp s port.toNat (· == .delayResp clock seq recv)).modPtp port.toNat
            (fun x => { x with lastReq := none, pathDelay := meanDelay s port.toNat recv t })))

/-- (R36; R46; R48; R55; R303; R306) A posted PLAN_LOAD of a legal range whose image reads well, with the next slot
EMPTY, writes the copy to the half of the plan store that the active plan does not hold and leaves it LOADING
with the copy, the range and the door to answer. PLAN_LOAD_COMPLETE of an image that passes every check leaves
it LOADED with the plan read from the image, answers OK, and decides a cap write that waited. PLAN_ARM of a
LOADED plan, no restore in progress and the front far enough ahead, leaves it ARMED with that front and answers
OK. PLAN_CANCEL of a LOADED plan gives back what it took and answers OK. PLAN_UNLOAD with a plan active, the
next slot EMPTY, such a front and no table front armed, records the good outcome in PLAN_LOAD_RESULT, arms an
empty plan with the active plan's rejoin period and answers OK. -/
def Obligations.PlanSlotCommandsMoveTheNextSlot : Prop :=
  ∀ (s : State) (d : Door) (link : BitVec 2),
    (∀ (u : State) (img : List Byte), posted s d link.toNat 0x0020 1 true = true →
      rangeOk (took s d) (loadRange s d) = true → readImage (took s d) (loadRange s d) = (u, .ok img) →
      u.plans.nextCond = .empty →
      exec (.planLoad d link) s = .next ((storeImage u img.length).modPlans (fun x => { x with
        nextCond := .loading, next := some { (default : Plan) with image := img }, loadAddr := reqFld s d 8 8
        loadLen := reqFld s d 16 8, loadDoor := d, loadTag := BitVec.ofNat 64 (fld (reqWord u d 0) 63 32) })))
    ∧ (∀ p : Plan, s.inService = true → s.plans.nextCond = .loading → s.plans.next = some p →
      imageFail s p.image (activeClaims s) true false = none →
      exec .planLoadComplete s
        = .next (decideHeldCap (settle (answerResult (planLoaded s (planOf p.image)) s.plans.loadDoor none))))
    ∧ (∀ p : Plan, posted s d link.toNat 0x0021 1 true = true → s.plans.nextCond = .loaded → s.plans.next = some p →
      s.flt.restoring.cells.isEmpty = true → frontAhead s (reqFld s d 8 8) = true →
      exec (.planArm d link) s = .next (answerResult { took s d with plans := { s.plans with
        nextCond := .armed, front := reqFld s d 8 8, armedAt := s.now } } d none))
    ∧ (posted s d link.toNat 0x0022 1 true = true → s.plans.nextCond = .loaded →
      exec (.planCancel d link) s = .next (answer (settle (dropNext (took s d))) d St.ok []))
    ∧ (∀ p : Plan, posted s d link.toNat 0x0023 1 true = true → s.plans.active = some p → s.plans.nextCond = .empty →
      frontAhead s (reqFld s d 8 8) = true → s.routing.tableFront = none →
      exec (.planUnload d link) s = .next (answer ((setResult (took s d) none).modPlans (fun x => { x with
        nextCond := .armed, next := some (emptyPlan p.rejoin), front := reqFld s d 8 8, armedAt := s.now })) d St.ok []))

/-- (R24; R36; R43; R48; R50; R51; R53; R54; R208) PLAN_FRONT of an ARMED plan on a device that knows the time comes
in the tick of the front, latches a snapshot due by then, and switches the slots: the plan is active with that
front as its origin, the next slot is EMPTY, what the old plan does not share is held until the drain bound, the
switch is counted; then the plan's parts take effect. REJOIN_POINT does the same for a MISSED plan at its rejoin
point, and resumes an active plan after a warm reset at its own. PLAN_DRAIN_BOUND comes at F + DRAIN_BOUND and
releases the old plan. SHEET_START moves time to the end of the sheet in force and counts the frames then held.
EGRESS_FRAME_START on a port that is UP, in service and not in loopback, once the port is free again, counts
waits and stalls, returns the credits due, and starts the next frame of a replay, or the frame that arbitration
picks. -/
def Obligations.FrontsRejoinPointsAndDrainBoundSwitchPlans : Prop :=
  ∀ s : State,
    (∀ p u, s.inService = true → s.plans.nextCond = .armed → s.plans.next = some p → knowsTime s = true →
      u = latchDue (s.arriveAt s.plans.front) false → s.plans.drainAt = none →
      exec .planFront s = .next (switchRest { countGranules u with plans := { s.plans with
        active := if isEmptyPlan p then none else some p, activeStore := s.plans.activeStore != !isEmptyPlan p
        activeF := s.plans.front, next := none, nextCond := .empty
        front := 0, oldClaims := (activeClaims s).filter (fun c => !carried p.claims c)
        oldDescs := s.plans.active.elim [] (·.descs), oldCouch := s.plans.active.elim [] (·.couch)
        oldScheds := s.plans.active.elim [] (·.scheds), oldCircuits := s.plans.active.elim [] (·.circuits)
        oldF := s.plans.activeF, oldId := s.plans.active.elim 0 (·.planId), drainAt := some (u.now + p.drainBound)
        resuming := false, lateCause := false, lastSwitch := u.now, switches := sat 32 (s.plans.switches + 1) } } p))
    ∧ (∀ m, s.inService = true → missedPoint s = some m → resumePoint s = none →
      exec .rejoinPoint s = .next (switchPlan (latchDue (s.arriveAt m) false)))
    ∧ (∀ r p u, s.inService = true → missedPoint s = none → resumePoint s = some r → s.plans.active = some p →
      u = (latchDue (s.arriveAt r) false).modPlans (fun x => { x with resuming := false }) →
      exec .rejoinPoint s = .next (settleSteps (applyAllDue (forEach p.couch u openCouchQp))))
    ∧ (∀ t, s.inService = true → s.plans.drainAt = some t →
      exec .planDrainBound s = .next (settleSteps (releaseOld (s.arriveAt t))))
    ∧ (∀ (port : BitVec 4) (x : SheetNow), portSheet s port.toNat s.now = some x →
      exec (.sheetStart port) s = .next (noteWaits (s.arriveAt x.stop) port.toNat))
    ∧ (∀ (port : BitVec 4) (t : State) (q : Queued) (turn : Nat) (d : Tbl Int), s.inService = true →
      isEth s port.toNat = false → (s.port port.toNat).cond = .up → portMute s port.toNat = false →
      loopOf s port.toNat = 0 → t = forEach (List.range 7) (noteStalls (noteWaits
        (s.arriveAt (s.port port.toNat).busyUntil) port.toNat) port.toNat) (sendCredit port.toNat) →
      (pickAgain t port.toNat = none → pickFrame t port.toNat = some (q, turn, d) →
        exec (.egressFrameStart port) s = .next (noteStalls (startFrame t port.toNat q turn d) port.toNat))
      ∧ (pickAgain t port.toNat = some q →
        exec (.egressFrameStart port) s = .next (noteStalls (startAgain t port.toNat q) port.toNat)))

/-- (R63; R70; R95; R96; R58; R59) WQ_DOORBELL from a link that may reach the window, on a created queue of the
instance that is neither in ERROR nor CALM, of an ACTIVE instance, with bits 63:32 zero and a PI ahead by 1 to
2^31 - 1 and at most D beyond FETCH, takes PI, leaves IDLE, and looks at the head; outside that range it only
counts a stale doorbell. CQ_DOORBELL with a CI not beyond WP takes CI, keeps ARM or serves it at once, and has
the queues of the ring that waited for a slot look again. WQ_CREATE and CQ_CREATE whose checks give OK make the
queue or ring with the base and fields written for it and show DONE with OK; whose checks give another code,
they show it and make nothing. -/
def Obligations.DoorbellsMoveQueuesAndRings : Prop :=
  ∀ (s : State) (link : BitVec 2) (inst : BitVec 7) (v : Word),
    (∀ (q : BitVec 19) (w : WorkQueue), taken s link.toNat (winAddr inst.toNat (wqDbOff + 64 * q.toNat)) [(63, 32)] v = true →
      s.queues.find q.toNat = some w → w.inst = inst.toNat → w.st ≠ .error → w.st ≠ .calm →
      (s.inst inst.toNat).st = .active →
      (1 ≤ dmod 32 (fld v 31 0) w.pi → dmod 32 (fld v 31 0) w.pi < 2 ^ 31 →
        dmod 32 (fld v 31 0) w.fetch ≤ 2 ^ w.depthLog →
        exec (.wqDoorbell link inst q v) s = .next (serveHead (s.modQueue q.toNat (fun w => { w with
          pi := fld v 31 0, st := if w.st = .idle then .running else w.st })) q.toNat))
      ∧ (dmod 32 (fld v 31 0) w.pi = 0 ∨ 2 ^ 31 ≤ dmod 32 (fld v 31 0) w.pi ∨ 2 ^ w.depthLog < dmod 32 (fld v 31 0) w.fetch →
        exec (.wqDoorbell link inst q v) s
          = .next (s.modWin inst.toNat (fun x => { x with stale := wrap 32 (x.stale + 1) }))))
    ∧ (∀ (n : BitVec 17) (r : Ring) (t u : State),
      taken s link.toNat (winAddr inst.toNat (cqDbOff + 64 * n.toNat)) [(63, 33)] v = true →
      s.rings.find n.toNat = some r → r.inst = inst.toNat →
      dmod 32 (fld v 31 0) r.ci ≤ dmod 32 r.wp r.ci →
      t = s.modRing n.toNat (fun r => { r with
        ci := fld v 31 0, armed := if bit v 32 && r.vecEn then r.wp == fld v 31 0 else r.armed }) →
      u = (if bit v 32 && r.vecEn && r.wp != fld v 31 0 then fireVector t r.vector else t) →
      exec (.cqDoorbell link inst n v) s = .next (forEach
        (u.queues.keys.filter (fun q => match u.queues.find q with | some w => w.ring == n.toNat | none => false)) u
        (fun s q => match s.queues.find q with
          | some w => if w.st == .waiting && w.reason == .ringFull then serveHead (flushQueue s q) q else flushQueue s q
          | none => s)))
    ∧ (∀ u w n c t, taken s link.toNat (winAddr inst.toNat 0x1018) [(63, 8)] v = true → fld v 7 0 = 1 →
      u = s.modWin inst.toNat (fun x => { x with wqDone := false }) → w = (u.inst inst.toNat).win →
      c = wqCreateCode u inst.toNat → n = newQueue inst.toNat (w.wqBase.findD w.wqSel 0) (w.wqCfg.findD w.wqSel 0) →
      t = u.modWin inst.toNat (fun x => { x with wqDone := true, wqCode := c }) →
      exec (.wqCreate link inst v) s = .next (if c = St.ok
        then calmQueue { t with queues := s.queues.put w.wqSel n } w.wqSel
        else t))
    ∧ (∀ u w cfg c t, taken s link.toNat (winAddr inst.toNat 0x1118) [(63, 8)] v = true → fld v 7 0 = 1 →
      u = s.modWin inst.toNat (fun x => { x with cqDone := false }) → w = (u.inst inst.toNat).win →
      c = cqCreateCode u inst.toNat → cfg = w.cqCfg.findD w.cqSel 0 →
      t = u.modWin inst.toNat (fun x => { x with cqDone := true, cqCode := c }) →
      exec (.cqCreate link inst v) s = .next (if c = St.ok
        then { t with rings := s.rings.put w.cqSel ({ inst := inst.toNat, base := w.cqBase.findD w.cqSel 0
                                                      depthLog := fld cfg 21 17, vecEn := bit cfg 11, vector := fld cfg 10 0
                                                      rp := 0, wp := 0, ci := 0, armed := false, lost := false } : Ring) }
        else t))

/-- (R66; R67; R71; R77; R316; R83; R86; R252; R253) ENTRY_START of a queue whose head, looked at again, has passed
its issue checks with nothing blocking it, and which is the dispatcher's next, moves the dispatcher's turn past
the queue, puts the entry into its completion group, charges its account, moves it to the started entries with
its translations, advances FETCH unless it holds the head, and looks at the next entry. ENTRY_COMPLETE of an
entry that has ended by the last tick evaluated adds its SIG_LOCAL if it ended OK, counts it, drops its
translations and reports finished groups. COPY begins; COPY_COMPLETE moves its bytes and ends it with the status
of the move and the number of bytes, and completes it. -/
def Obligations.EntriesStartAndComplete : Prop :=
  ∀ (s : State) (q : BitVec 19),
    (∀ w h x t u, t = serveHead s q.toNat → headReady t q.toNat = some (w, h) → dispatched t = some q.toNat →
      badStep t h.entry = false → u = passTurn t q.toNat →
      x = (⟨w.fetch, (joinGroup u q.toNat w.fetch h.entry.batchEnd).2, h.entry, h.issuedAt, h.xlats, false, none, 0⟩ : Started) →
      exec (.entryStart q) s = .next (serveHead
        ((chargeStart (joinGroup u q.toNat w.fetch h.entry.batchEnd).1 w.inst (accountOf u w.inst h.entry)
            (startParts u w.inst h.entry h.xlats)).modQueue q.toNat
          (fun w => { w with
            head := none, started := w.started ++ [x], st := .running, reason := .none
            fetch := if holdsHead h.entry.op then w.fetch else wrap 32 (w.fetch + 1) })) q.toNat))
    ∧ (∀ (seq : BitVec 32) t x e, t = catchUp s → startedAt t q.toNat seq.toNat = some x → x.ending = some e →
      exec (.entryComplete q seq) s = .next (settle (completeEntry
        (if e.status = St.ok ∧ x.entry.sigLocal = true then signalLocal t q.toNat x.entry else t) q.toNat x e)))
    ∧ (∀ w x, nextToRun s q.toNat 0x03 = some (w, x) →
      exec (.copy q) s = .next (settle (s.modStarted q.toNat x.seq (fun x => { x with ran := true }))))
    ∧ (∀ (seq : BitVec 32) x src dst t st d, startedAt s q.toNat seq.toNat = some x → x.entry.op = 0x03 → x.ran = true →
      x.ending = none → x.xlats = [src, dst] → xlatHeld s src = false → xlatHeld s dst = false →
      copyData s src dst = (t, st, d) →
      exec (.copyComplete q seq) s
        = .next (completeOne (endEntry t q.toNat seq.toNat st (BitVec.ofNat 64 x.entry.len) d) q.toNat seq.toNat))

/-- (R72; R84; R85; R91; R93; R94; R119; R285) For the oldest started entry that has not run: NOP and FENCE end it
OK with no result. WRITE and READ on an OPEN or DRAINING QP start one message, in its turn on the QP, of the
entry's length, remote address and key, owned by the entry, a WRITE's counter addition from SIGNAL and RADD, a
READ's or WRITE's local range the entry's translation. HOST_SIGNAL whose write succeeds, or that writes nothing,
fires its vector if IRQ is set and ends OK. COUCH_COPY begins a copy of its region. RAW_SEND whose bytes read
well queues the frames made of them on its port. -/
def Obligations.EntryEffectsOfPlainInstructions : Prop :=
  ∀ (s : State) (q : BitVec 19) (w : WorkQueue) (x : Started),
    (nextToRun s q.toNat 0x00 = some (w, x) → exec (.nop q) s = .next (settle (endEntry s q.toNat x.seq St.ok 0 0)))
    ∧ (nextToRun s q.toNat 0x18 = some (w, x) → exec (.fence q) s = .next (settle (endEntry s q.toNat x.seq St.ok 0 0)))
    ∧ (nextToRun s q.toNat 0x01 = some (w, x) → ((s.qp x.entry.qp).st = .opened ∨ (s.qp x.entry.qp).st = .draining) →
      ∃ m, exec (.write q) s
          = .next (settle (startMsg (startTurn (markRan s q.toNat x.seq) x.entry.qp m) x.entry.qp m))
        ∧ m.kind = .write ∧ m.owner = .entry q.toNat x.seq ∧ m.len = x.entry.len ∧ m.raddr = x.entry.w2
        ∧ m.rkey = x.entry.rkey ∧ m.radd = fld x.entry.w5 31 0 ∧ m.xlat = x.xlats.head?
        ∧ m.signal = BitVec.ofNat 32 ((bit x.entry.w4 41).toNat * 2 ^ 31 + fld x.entry.w4 40 20))
    ∧ (nextToRun s q.toNat 0x02 = some (w, x) → ((s.qp x.entry.qp).st = .opened ∨ (s.qp x.entry.qp).st = .draining) →
      ∃ m, exec (.read q) s
          = .next (settle (startMsg (startTurn (markRan s q.toNat x.seq) x.entry.qp m) x.entry.qp m))
        ∧ m.kind = .read ∧ m.owner = .entry q.toNat x.seq ∧ m.len = x.entry.len ∧ m.raddr = x.entry.w2
        ∧ m.rkey = x.entry.rkey ∧ m.xlat = x.xlats.head? ∧ m.signal = 0)
    ∧ (nextToRun s q.toNat 0x1A = some (w, x) → x.xlats = [] →
      exec (.hostSignal q) s = .next (settle (endEntry
        (if bit x.entry.w4 17 then fireVector s (fld x.entry.w4 10 0) else s) q.toNat x.seq St.ok 0 0)))
    ∧ (∀ y t, nextToRun s q.toNat 0x1A = some (w, x) → x.xlats = [y] → xlatHeld s y = false →
      xlatWrite s y 0 (leBytes 8 x.entry.w5.toNat) = (t, .done) →
      exec (.hostSignal q) s = .next (settle (endEntry
        (if bit x.entry.w4 17 then fireVector t (fld x.entry.w4 10 0) else t) q.toNat x.seq St.ok 0 0)))
    ∧ (nextToRun s q.toNat 0x21 = some (w, x) →
      exec (.couchCopy q) s = .next (settle (couchOpen (markRan s q.toNat x.seq) x.entry.region q.toNat x.seq)))
    ∧ (∀ y t b, nextToRun s q.toNat 0x22 = some (w, x) → x.xlats = [y] → xlatHeld s y = false →
      xlatRead s y 0 x.entry.len = (t, .done, b) →
      exec (.rawSend q) s = .next (settle (queueRaw (markRan t q.toNat x.seq) q.toNat x.seq x.entry.port w.inst
        (bit x.entry.w4 8) (rawFrames x.entry b))))

/-- (R87; R102; R104; R106; R82; R15; R95) For the oldest started entry that has not run, on a local object whose
granule is not orphaned: SIGNAL adds its amount modulo 2^64 when its turn in the tick comes, and ends OK with
the new value; WAIT_COUNTER and SEM_WAIT join the waits on their object with their value, deadline and place in
the tick, which the end of the tick evaluates. A remote SIGNAL on an OPEN or DRAINING QP starts one sync message
that carries the object and amount. -/
def Obligations.CounterAndSemaphoreInstructions : Prop :=
  ∀ (s : State) (q : BitVec 19) (w : WorkQueue) (x : Started),
    (∀ u n, nextToRun s q.toNat 0x10 = some (w, x) → x.entry.isRemote = false →
      (s.granule (granOf x.entry.id)).orphan = false → u = takeTurn s x.entry.id (localRank q.toNat) →
      n = (objVal u x.entry.id + x.entry.w5.toNat) % 2 ^ 64 →
      exec (.signal q) s = .next (settle (endEntry (setObj u x.entry.id n) q.toNat x.seq St.ok (BitVec.ofNat 64 n) 0))
        ∧ objVal (setObj u x.entry.id n) x.entry.id = n)
    ∧ (nextToRun s q.toNat 0x10 = some (w, x) → x.entry.isRemote = true →
      ((s.qp x.entry.qp).st = .opened ∨ (s.qp x.entry.qp).st = .draining) →
      ∃ m, exec (.signal q) s
          = .next (settle (startMsg (startTurn (markRan s q.toNat x.seq) x.entry.qp m) x.entry.qp m))
        ∧ m.kind = .sync ∧ m.owner = .entry q.toNat x.seq ∧ m.len = 0 ∧ m.sync.op = 0
        ∧ m.sync.id = BitVec.ofNat 32 x.entry.id ∧ m.sync.value = x.entry.w5)
    ∧ (nextToRun s q.toNat 0x11 = some (w, x) → x.entry.isRemote = false → (s.granule (granOf x.entry.id)).orphan = false →
      exec (.waitCounter q) s = .next (settle (joinWait (markRan s q.toNat x.seq)
        ⟨.queue q.toNat x.seq, false, x.entry.id, x.entry.w5.toNat,
          if x.entry.hasDeadline then some x.entry.w7.toNat else none, s.now, localRank q.toNat⟩)))
    ∧ (nextToRun s q.toNat 0x13 = some (w, x) → x.entry.isRemote = false → (s.granule (granOf x.entry.id)).orphan = false →
      exec (.semWait q) s = .next (settle (joinWait (markRan s q.toNat x.seq)
        ⟨.queue q.toNat x.seq, true, x.entry.id, fld x.entry.w5 31 0,
          if x.entry.hasDeadline then some x.entry.w7.toNat else none, s.now, localRank q.toNat⟩)))

/-- (R105) A local SEM_ADD of amount n on a semaphore, its granule not orphaned, V being the semaphore's value when
the entry's turn in the tick comes (its value now, where nothing of the tick has still to be ended first): if V
+ n is at most 2^32 - 1, the value becomes V + n and the entry ends OK with result V; otherwise the entry ends
with SEMAPHORE_OVERFLOW and no object of the sync memory changes. The waits on the semaphore are served when the
tick ends. -/
def Obligations.SemAddAddsOrEndsInOverflow : Prop :=
  ∀ (s u : State) (q : BitVec 19) (w : WorkQueue) (x : Started) (n : Nat),
    nextToRun s q.toNat 0x12 = some (w, x) → x.entry.isRemote = false → (s.granule (granOf x.entry.id)).orphan = false →
    n = fld x.entry.w5 31 0 → u = takeTurn s x.entry.id (localRank q.toNat) →
    (s.now ≤ s.sync.tickAt → s.sync.ranks.findD x.entry.id 0 ≤ q.toNat → objVal u x.entry.id = objVal s x.entry.id)
    ∧ (objVal u x.entry.id + n ≤ 2 ^ 32 - 1 →
      ∃ t, exec (.semAdd q) s = .next (settle (endEntry t q.toNat x.seq St.ok (BitVec.ofNat 64 (objVal u x.entry.id)) 0))
        ∧ t = setObj u x.entry.id (objVal u x.entry.id + n) ∧ objVal t x.entry.id = objVal u x.entry.id + n)
    ∧ (2 ^ 32 - 1 < objVal u x.entry.id + n →
      exec (.semAdd q) s = .next (settle (endEntry u q.toNat x.seq St.semOverflow 0 0))
        ∧ (endEntry u q.toNat x.seq St.semOverflow 0 0).sync.values = u.sync.values)

/-- (R82; R88; R90; R95; R107; R117; R13) WAIT_QUEUE whose named queue has completed up to S ends OK with that
queue's CPL_SEQ. TIME_WAIT whose target is reached ends OK with fabric time; one whose target lies ahead holds
the head with reason TIME, and is a lull at once if it lies at least the lull threshold beyond the issue;
TIME_WAIT_REACHED ends it in the first tick at or after its target, with that time as result. WAIT_DEADLINE of a
queue's head, or of a held remote wait, brings the tick of the deadline and ends it: the waits it satisfies and
the time waits it passes end first, and of those left each whose deadline is reached ends WAIT_TIMEOUT.
LULL_BEGIN on a queue whose head has waited for SYNC or TIME makes it a lull at the threshold and counts it. -/
def Obligations.QueueWaitsTimeWaitsDeadlinesAndLulls : Prop :=
  ∀ (s : State) (q : BitVec 19),
    (∀ w x, nextToRun s q.toNat 0x14 = some (w, x) → queueWaitMet (markRan s q.toNat x.seq) x = true →
      exec (.waitQueue q) s = .next (settle (endEntry (markRan s q.toNat x.seq) q.toNat x.seq St.ok
        (BitVec.ofNat 64 (cplOf (markRan s q.toNat x.seq) (fld x.entry.w3 18 0))) 0)))
    ∧ (∀ w x, nextToRun s q.toNat 0x19 = some (w, x) → timeTarget x ≤ s.now →
      exec (.timeWait q) s = .next (settle (endEntry (s.modStarted q.toNat x.seq
        (fun y => { y with ran := true, target := timeTarget x })) q.toNat x.seq St.ok (BitVec.ofNat 64 s.now) 0)))
    ∧ (∀ w x, nextToRun s q.toNat 0x19 = some (w, x) → s.now < timeTarget x → timeTarget x < x.issuedAt + lullNs s →
      exec (.timeWait q) s = .next (settle (waitAtHead (s.modStarted q.toNat x.seq
        (fun y => { y with ran := true, target := timeTarget x })) q.toNat .time)))
    ∧ (∀ w x, nextToRun s q.toNat 0x19 = some (w, x) → s.now < timeTarget x → x.issuedAt + lullNs s ≤ timeTarget x →
      exec (.timeWait q) s = .next (settle (beginLull (waitAtHead (s.modStarted q.toNat x.seq
        (fun y => { y with ran := true, target := timeTarget x })) q.toNat .time) q.toNat)))
    ∧ (∀ w x t, s.queues.find q.toNat = some w → timeWaitOf w = some x → t = max s.now (tickStart x.target) →
      exec (.timeWaitReached q) s = .next (endEntry (s.arriveAt x.target) q.toNat x.seq St.ok (BitVec.ofNat 64 t) 0))
    ∧ (∀ x t, headDeadline s q.toNat = some (x, t) →
      exec (.waitDeadline (.queue q)) s = .next (settle (endTick (s.arriveAt t))))
    ∧ (∀ (qp : BitVec 20) (msn : BitVec 32) w t, pendingWait s (.held qp.toNat msn.toNat) = some w → w.deadline = some t →
      exec (.waitDeadline (.held qp msn)) s = .next (settle (endTick (s.arriveAt t))))
    ∧ (∀ t, s.now ≤ s.sync.tickAt → t = max s.now (tickStart (s.now + 16)) →
      ∃ u v, endTick s = freshTick u t ∧ u = v.arriveAt (s.now + 16)
        ∧ v = evaluateTick s s.now)
    ∧ (∀ t u, u = forEach s.queues.keys (serveAll s) (passTimeWait t) →
      ∃ v, evaluateTick s t = forEach v.sync.waits v (noteUnmet t)
        ∧ v = forEach u.sync.waits (forEach u.queues.keys u (expireHead t)) (expireHeld t))
    ∧ (∀ x t d, headDeadline s q.toNat = some (x, d) → tickStart d ≤ t →
      expireHead t s q.toNat = endEntry s q.toNat x.seq St.waitTimeout 0 0)
    ∧ (∀ w t d (qp : BitVec 20) (msn : BitVec 32), w.who = .held qp.toNat msn.toNat → w.deadline = some d → tickStart d ≤ t →
      expireHeld t s w = endWait s w St.waitTimeout 0)
    ∧ (∀ w t, s.queues.find q.toNat = some w → w.waitSince = some t → w.st = .waiting →
      (w.reason = .sync ∨ w.reason = .time) → w.lull = false →
      exec (.lullBegin q) s = .next (((s.arriveAt (t + lullNs s)).modQueue q.toNat (fun w => { w with lull := true })).modWin
        w.inst (fun v => { v with lulls := wrap 32 (v.lulls + 1) })))

/-- (R98; R99; R100; R112; R114; R115; R116; R118) SYNC_INIT by the owner of the selected granule, unclaimed by a
plan and with no wait pending, zeroes it, gives it the mode asked and shows DONE with OK. A write of
SYNC_GSHARE0 or 1 by the owner keeps the share in force and sets the half written for the next tick.
SYNC_DOORBELL that names an object validly adds, in its turn in the tick, to the counter modulo 2^64, or to the
semaphore if the sum fits. A posted SYNC_RECLAIM of an orphaned granule that no resource entry holds and no plan
claims, the ticks before this one being evaluated, returns it to the pool zeroed, in counter mode, unshared, and
answers OK. SYNC_MEMORY_UE logs a memory fault, its DETAIL a free value, and orphans the granule. -/
def Obligations.SyncMemoryCommands : Prop :=
  ∀ (s : State) (link : BitVec 2) (inst : BitVec 7) (v : Word),
    (∀ g, taken s link.toNat (winAddr inst.toNat 0x2010) [(63, 9)] v = true → g = (s.inst inst.toNat).win.gSel →
      fld v 7 0 = 1 → ownsGran s inst.toNat g = true → planClaimsGran s g = false → granWaits s g = [] →
      exec (.syncInit link inst v) s = .next ((initGranule (s.modWin inst.toNat (fun w => { w with gDone := false })) g
        (bit v 8)).modWin inst.toNat (fun w => { w with gDone := true, gCode := St.ok })))
    ∧ (∀ g (last : BitVec 128), taken s link.toNat (winAddr inst.toNat 0x2020) [] v = true →
      g = (s.inst inst.toNat).win.gSel → ownsGran s inst.toNat g = true →
      last = (match (s.granule g).shareNext with | some x => x.1 | none => shareOf s g) →
      exec (.syncGshareWrite link inst false v) s = .next (s.modGranule g (fun x => { x with
        share := shareOf s g, shareNext := some (last.extractLsb' 64 64 ++ v, s.now) })))
    ∧ (∀ g (last : BitVec 128), taken s link.toNat (winAddr inst.toNat 0x2028) [] v = true →
      g = (s.inst inst.toNat).win.gSel → ownsGran s inst.toNat g = true →
      last = (match (s.granule g).shareNext with | some x => x.1 | none => shareOf s g) →
      exec (.syncGshareWrite link inst true v) s = .next (s.modGranule g (fun x => { x with
        share := shareOf s g, shareNext := some (v ++ last.extractLsb' 0 64, s.now) })))
    ∧ (∀ id n u, taken s link.toNat (winAddr inst.toNat syncDbOff) [(62, 53)] v = true → id = fld v 52 32 →
      n = fld v 31 0 → (s.granule (granOf id)).orphan = false → namesObject s inst.toNat (bit v 63) id = true →
      u = takeTurn s id doorbellRank → (bit v 63 = true → objVal u id + n < 2 ^ 32) →
      exec (.syncDoorbell link inst v) s = .next (settle (setObj u id
        (if bit v 63 then objVal u id + n else (objVal u id + n) % 2 ^ 64))))
    ∧ (∀ (d : Door) (g : Nat), posted s d link.toNat 0x0030 1 true = true → g = reqFld s d 8 1 → g < 128 →
      s.plans.nextCond ≠ .loading → (s.granule g).orphan = true → (∀ x ∈ s.insts.vals, covers x.res 0x04 g = false) →
      covers (activeClaims s ++ s.plans.oldClaims) 0x04 g = false → s.now ≤ s.sync.tickAt →
      ∃ t, exec (.syncReclaim d link) s = .next (answer t d St.ok []) ∧ t = { took s d with sync := t.sync }
        ∧ (t.granule g).orphan = false ∧ (t.granule g).semMode = false ∧ (t.granule g).share = 0
        ∧ (t.granule g).shareNext = none ∧ (∀ id, granOf id = g → objVal t id = 0)
        ∧ (∀ id, granOf id ≠ g → objVal t id = objVal s id) ∧ (∀ h, h ≠ g → t.granule h = s.granule h))
    ∧ (∀ g : BitVec 7, exec (.syncMemoryUe g) s = .next (settle (orphanGranule (raiseFault { s with draw := s.draw + 1 } 0x03 0x09 96
        (match granOwner s g.toNat with | some i => i | none => 0xFF) (0x100 + g.toNat)
        (BitVec.ofNat 32 (Config.freeValue s.draw).toNat)) g.toNat)))

/-- (R119; R124; R128; R131; R133; R136; R137; R138; R139; R140) ZTP_PACKET_SEND on a QP that may send and whose
context is resident sends a sync message as SYNC_REQ, the packet of a WRITE whose bytes read well, and a READ as
READ_REQ from its first missing byte, within the rate budget. A response from the far end that passes every
check: an ACK samples the round trip and acknowledges every PSN up to its own, and ends the sync message it
names with the result; a NAK SEQUENCE for a PSN in the window not yet asked for sends again from it; a READ_RESP
gives a round-trip sample and, marked CE, lowers the rate, and as the next one of a READ whose landing space can
be reached is placed after the bytes before it; SYNC_DONE with status OK ends its sync message with the result;
a CNP is counted and lowers the rate. -/
def Obligations.RequesterSendsAndTakesAnswers : Prop :=
  ∀ (s : State),
    (∀ (qp : BitVec 20) k m psn t, k = s.qp qp.toNat → maySend k = true → k.resident = true →
      nextToSend k (k.msgs.length + 2) k.sendPsn = some (m, psn) →
      t = (if (k.ident.path = 0 && (qpCircuit s qp.toNat).isSome) = true then s else s.arriveAt k.readyAt) →
      (m.kind = .sync → exec (.ztpPacketSend qp) s = .next (settle (sendRequest t qp.toNat (syncPacket t qp.toNat m)
          (wrap 32 (psn + 1)) (ztpLen (syncPacket t qp.toNat m)))))
      ∧ (∀ x off v bs, m.kind = .write → m.xlat = some x → xlatHeld t x = false →
        off = ahead psn (m.psn.getD 0) * pmtuBytes k.ident.pmtu →
        xlatRead t x off (min (pmtuBytes k.ident.pmtu) (m.len - off)) = (v, .done, bs) →
        exec (.ztpPacketSend qp) s = .next (settle (sendRequest v qp.toNat (writePacketOf v qp.toNat m psn off bs)
          (wrap 32 (psn + 1)) (ztpLen (writePacketOf v qp.toNat m psn off bs)))))
      ∧ (m.kind = .read → exec (.ztpPacketSend qp) s = .next (settle (sendRequest t qp.toNat
          (readPacket t qp.toNat m psn) (wrap 32 (m.psn.getD 0 + m.span)) (m.len - m.placed)))))
    ∧ (∀ (arr : Arrival) (p : ZtpPacket) (u : State) (q : Nat), u = takeInbox s arr (.ztp p) → q = p.dstQp.toNat →
      forRequester u arr p = true →
      (comesIn s p 0x11 = true → (∀ m, msgOf (sampleRtt u q p.ts) q p.msn.toNat = some m → m.kind ≠ .sync) →
        exec (.ack arr p) s = .next (settle (advanceAck (sampleRtt u q p.ts) q (wrap 32 (p.psn.toNat + 1)))))
      ∧ (∀ m, comesIn s p 0x11 = true → msgOf (sampleRtt u q p.ts) q p.msn.toNat = some m → m.kind = .sync →
        m.psn = some p.psn.toNat → p.syndrome = 0 →
        exec (.ack arr p) s = .next (settle (settleAck (advanceAck (endMsg (sampleRtt u q p.ts) q m.msn St.ok p.result 0) q
          (wrap 32 (p.psn.toNat + 1))) q)))
      ∧ (comesIn s p 0x12 = true → p.syndrome = 2 → (u.qp q).ignoreNak ≠ some p.epsn.toNat →
        ahead p.epsn.toNat (u.qp q).unacked < 2 ^ 31 → ahead (u.qp q).sendPsn p.epsn.toNat < 2 ^ 31 →
        exec (.nak arr p) s = .next (settle (resendFrom (u.modQp q (fun k => { k with
          ignoreNak := some p.epsn.toNat })) q p.epsn.toNat)))
      ∧ (∀ m bs v, comesIn s p 0x13 = true →
        v = (if arr.ce = true then takeCnp (sampleRtt u q p.ts) q else sampleRtt u q p.ts) →
        msgAt (v.qp q) p.psn.toNat = some m → m.kind = .read → (∀ x, m.xlat = some x → xlatHeld v x = false) →
        p.psn.toNat = readNext (v.qp q) m → p.body = .data bs →
        bs.length = min (pmtuBytes (v.qp q).ident.pmtu) (m.len - m.placed) →
        exec (.readResp arr p) s = .next (settle (placeResponse v q m bs)))
      ∧ (∀ m, comesIn s p 0x14 = true → msgOf u q p.msn.toNat = some m → m.kind = .sync → p.syndrome = 0 →
        exec (.syncDone arr p) s = .next (settle (settleAck (endMsg u q m.msn St.ok p.result 0) q)))
      ∧ (comesIn s p 0x15 = true →
        exec (.cnp arr p) s = .next (settle (u.modQp q (fun k =>
          { (if (k.ident.path = 0 && (qpCircuit u q).isSome) = true then k else k.setRate (onCnp k.rateOf)) with
            cnpRx := wrap 16 (k.cnpRx + 1) })))))

/-- (R102; R105; R110; R127; R128; R129; R151; R152; R253; R252) The packet a responder expects next, from the far
end of an OPEN QP with a resident context, its seal right and not marked CE, is applied. A WRITE's first packet
whose range passes its checks and can be reached takes the translation and is placed. A READ_REQ whose range
passes is run and recorded. A SYNC_REQ with operation SIGNAL on an object it may use adds its amount modulo
2^64, in its turn in the tick, and is answered OK with the new value. CONTEXT_FETCH_COMPLETE of a context that
reads well makes it resident, counts the fetch in the transport of the die the packets came to, and passes the
held packets on in arrival order; ACK_DELAY_EXPIRY acknowledges what is owed in the tick it is due. -/
def Obligations.ResponderAppliesExpectedRequests : Prop :=
  ∀ (s : State),
    (∀ (arr : Arrival) (p : ZtpPacket) (u v : State) (q : Nat), u = takeInbox s arr (.ztp p) → q = p.dstQp.toNat →
      forResponder u arr p = true → v = requestTaken u p → (v.qp q).cur = none →
      1 ≤ dmod 32 p.msn.toNat (v.qp q).applied → dmod 32 p.msn.toNat (v.qp q).applied < 2 ^ 31 →
      (∀ w x, comesIn s p 0x01 = true → p.first = true → checkTarget v arr q p = (w, .range x) →
        targetHeld w (some x) = false →
        exec (.writePacket arr p) s
          = .next (settle (placeWrite (holdXlat w x) arr q (applyingOf p (v.qp q).ident.pmtu (some x) none) p)))
      ∧ (∀ w x, comesIn s p 0x02 = true → checkTarget v arr q p = (w, .range x) → targetHeld w (some x) = false →
        exec (.readReq arr p) s = .next (settle (runReadReq w q p (.range x) true)))
      ∧ (∀ w b t n, comesIn s p 0x03 = true → checkTarget v arr q p = (w, .object) → p.body = .sync b → b.op = 0 →
        t = takeTurn w b.id.toNat (remoteRank arr.port) → n = (objVal t b.id.toNat + b.value.toNat) % 2 ^ 64 →
        exec (.syncReq arr p) s
            = .next (settle (answerSync (setObj t b.id.toNat n) q p St.ok (BitVec.ofNat 64 n)))
          ∧ objVal (setObj t b.id.toNat n) b.id.toNat = n))
    ∧ (∀ (qp : BitVec 20) t, (s.qp qp.toNat).firstUnacked = some t →
      ((s.qp qp.toNat).st = .opened ∨ (s.qp qp.toNat).st = .draining) →
      exec (.ackDelayExpiry qp) s = .next (giveAck (s.arriveAt (t + ackDelayNs (s.qp qp.toNat).ident)) qp.toNat
        (dmod 32 (s.qp qp.toNat).epsn 1)
        (match (s.qp qp.toNat).cur with | some a => a.msn | none => (s.qp qp.toNat).applied) 0 (s.qp qp.toNat).lastTs))
    ∧ (∀ (qp : BitVec 20) u held onB, (s.qp qp.toNat).fetching = true → (s.qp qp.toNat).resident = false →
      u = makeResident s qp.toNat → (u.qp qp.toNat).resident = true → firstBad u.hbm (Config.contextAt qp.toNat) 512 = none →
      held = mergeMiss (s.tp.pa.miss.filter (fun x => x.2.2.dstQp.toNat == qp.toNat))
        (s.tp.pb.miss.filter (fun x => x.2.2.dstQp.toNat == qp.toNat)) →
      onB = (!(s.tp.pb.miss.filter (fun x => x.2.2.dstQp.toNat == qp.toNat)).isEmpty
        || ((s.tp.pa.miss.filter (fun x => x.2.2.dstQp.toNat == qp.toNat)).isEmpty && dieOf (qpPort s qp.toNat))) →
      ∃ t, exec (.contextFetchComplete qp) s
          = .next (settle (forEach held t (fun s x => takeRequest s x.2.1 x.2.2))) ∧ t = { u with tp := t.tp }
        ∧ t.tp.pa.miss = u.tp.pa.miss.filter (fun x => x.2.2.dstQp.toNat != qp.toNat)
        ∧ t.tp.pb.miss = u.tp.pb.miss.filter (fun x => x.2.2.dstQp.toNat != qp.toNat)
        ∧ t.tp.pa.fetches = (if onB = true then u.tp.pa.fetches else wrap 32 (u.tp.pa.fetches + 1))
        ∧ t.tp.pb.fetches = (if onB = true then wrap 32 (u.tp.pb.fetches + 1) else u.tp.pb.fetches))

/-- (R128; R131; R132; R133; R134; R135; R136; R140) RETRY_TIMER_EXPIRY, no answer of the tick waiting, comes at the
timer's tick: below the limit it counts, raises the timeout and sends again from the oldest unacknowledged PSN;
at the limit the QP enters ERROR with RETRY_EXHAUSTED. PROBE_TIMER_EXPIRY of a held sync message probes with a
fresh timer. BUSY_BACKOFF_END comes at the end of the back-off, the timer restarting, and sends again from the
NAK's PSN, or that sync message alone if its PSN is passed. RATE_PERIOD comes at the end of the period of an
open QP without a circuit and applies its rate rule once; so for a stream on an Ethernet path. -/
def Obligations.RetriesProbesAndBackoffs : Prop :=
  ∀ (s : State) (qp : BitVec 20) (k : Qp), k = s.qp qp.toNat →
    (∀ t u, k.timerAt = some t → maySend k = true → answerWaits s qp.toNat = false → k.k < k.ident.limit →
      u = s.arriveAt t →
      exec (.retryTimerExpiry qp) s = .next (settle (resendFrom ((u.modDie (qpPort u qp.toNat)
          (fun d => { d with retries := wrap 32 (d.retries + 1) })).modQp qp.toNat (fun x => { x with
            k := x.k + 1, retries := wrap 32 (x.retries + 1), ignoreNak := none
            timerAt := some (u.now + rto x.ident (x.k + 1)) })) qp.toNat k.unacked)))
    ∧ (∀ t, k.timerAt = some t → maySend k = true → answerWaits s qp.toNat = false → k.ident.limit ≤ k.k →
      exec (.retryTimerExpiry qp) s = .next (settle (qpError (s.arriveAt t) qp.toNat St.retryExhausted St.retryExhausted
        (retryDetail k.k false) 0)))
    ∧ (∀ (msn : BitVec 32) m t u, msgOf s qp.toNat msn.toNat = some m → m.timerAt = some t → m.kind = .sync →
      m.passed = true → m.held = true → maySend k = true → answerWaits s qp.toNat = false → u = s.arriveAt t →
      exec (.probeTimerExpiry qp msn) s = .next (settle (sendProbe (u.modMsg qp.toNat msn.toNat (fun m => { m with
        held := false, k := 0, timerAt := some (u.now + rto k.ident 0) })) qp.toNat m)))
    ∧ (∀ t psn u, k.backoff = some (t, psn) → u = (s.arriveAt t).modQp qp.toNat (fun k => { k with
        backoff := none, timerAt := if k.unacked = k.sentTo then none else some (max s.now (tickStart t) + rto k.ident k.k) }) →
      ((∀ m, msgAt (u.qp qp.toNat) psn = some m → m.kind = .sync → m.passed = false) →
        exec (.busyBackoffEnd qp) s = .next (settle (resendFrom u qp.toNat psn)))
      ∧ (∀ m, msgAt (u.qp qp.toNat) psn = some m → m.kind = .sync → m.passed = true →
        exec (.busyBackoffEnd qp) s = .next (settle (sendProbe u qp.toNat m))))
    ∧ (∀ u, (k.st = .opened ∨ k.st = .draining) → (k.ident.path ≠ 0 ∨ qpCircuit s qp.toNat = none) →
      u = s.arriveAt k.periodAt →
      exec (.ratePeriod (.qp qp)) s = .next (u.modQp qp.toNat (fun k => { k.setRate
        (onPeriod u (lineRate u k.ident) k.rateOf) with periodAt := u.now + ccPeriod u })))
    ∧ (∀ (slot : BitVec 6) (st : BitVec 3) p key u, ratedPort s slot.toNat st.toNat = some p →
      [2 * st.toNat, 2 * st.toNat + 1].filter (fun k => ((s.slot slot.toNat).outs.findD k default).rate != 0) = [key] →
      u = s.arriveAt ((s.slot slot.toNat).outs.findD key default).periodAt →
      exec (.ratePeriod (.stream slot st)) s = .next (u.modOut slot.toNat key (fun o => { o.setRate
        (onPeriod u (streamLine u p) o.rateOf) with periodAt := u.now + ccPeriod u })))

/-- (R145; R146; R147; R148; R149; R154; R303; R306; R307) A posted QP_OPEN that no check refuses begins setup with
a resident context and answers OK; a posted QP_CLOSE of a QP of the instance closes it by its state and answers
OK. A connection packet from the far end: CONN_REQ at a passive QP in OPENING that accepts is answered by
CONN_REP with the version agreed, and nothing else; CONN_REP with REASON 0 and the right tag at the active end
is answered by CONN_RTU and opens it; CONN_RTU with the agreed tag opens the passive end; DISC_REQ drains an
OPEN QP; DISC_REP closes a QP that has drained and asked. -/
def Obligations.ConnectionsOpenAndClose : Prop :=
  ∀ (s : State),
    (∀ (d : Door) (link : BitVec 2) q ver, (ver = 1 ∨ ver = 2) → posted s d link.toNat 0x0040 ver false = true → openRefused (took s d) d = false →
      q = reqFld s d 8 4 →
      exec (.qpOpen d link) s = .next (answer (openQp (makeResident (took s d) q) q (identOf (took s d) d)) d St.ok []))
    ∧ (∀ (d : Door) (link : BitVec 2) q, posted s d link.toNat 0x0041 1 false = true → q = reqFld s d 8 4 → q < 2 ^ 20 →
      holds s (doorInst d) 0x03 q = true → (s.qp q).st ≠ .closed → (s.qp q).ident.owner = doorInst d →
      exec (.qpClose d link) s
        = .next (settle (answer (closeQp (took s d) q (fld (s.qp q).ident.ack 47 32)) d St.ok [])))
    ∧ (∀ (arr : Arrival) (p : ZtpPacket) (c : ConnBlock) (u : State) (q : Nat) (k : Qp),
      u = takeInbox s arr (.ztp p) → q = p.dstQp.toNat → k = u.qp q → connFrom u p c = true →
      (∀ v w, comesIn s p 0x21 = true → k.st = .opening → k.ident.active = false → k.reply = none →
        decideSetup k c = (0, v) →
        w = u.modQp q (fun k => { k with ident := { k.ident with conn := c.tag, ver := v }, epsn := c.startPsn.toNat }) →
        exec (.connReq arr p) s = .next (settle (sendConn (w.modQp q (fun k => { k with
            reply := some { connBlock w q with ver := BitVec.ofNat 8 v, reason := 0 } })) q 0x22
          { connBlock w q with ver := BitVec.ofNat 8 v, reason := 0 })))
      ∧ (∀ w, comesIn s p 0x22 = true → k.st = .opening → k.ident.active = true → c.tag = k.ident.conn → c.reason = 0 →
        w = u.modQp q (fun k => { k with ident := { k.ident with ver := c.ver.toNat }, epsn := c.startPsn.toNat }) →
        exec (.connRep arr p) s = .next (settle (qpOpened (sendConn w q 0x23 (plainBlock w q)) q)))
      ∧ (∀ r, comesIn s p 0x23 = true → k.st = .opening → k.ident.active = false → k.reply = some r → r.reason = 0 →
        c.tag = k.ident.conn →
        exec (.connRtu arr p) s = .next (settle (u.modQp q (fun k => { k with
          st := .opened, rate := lineRate u k.ident, periodAt := u.now, readyAt := u.now }))))
      ∧ (comesIn s p 0x24 = true → k.st = .opened →
        exec (.discReq arr p) s = .next (settle (drainQp u q (fld k.ident.ack 47 32) true)))
      ∧ (comesIn s p 0x25 = true → k.st = .draining → k.msgs = [] → k.lastTry ≠ 0 →
        exec (.discRep arr p) s = .next (settle (qpClosed u q))))

/-- (R146; R149; R154) CONN_REQ_TIMER at the active end in OPENING sends CONN_REQ again a millisecond after the
last, while that lies within CONN_TRIES milliseconds of the start. SETUP_TIMEOUT puts a QP in OPENING into ERROR
with reason 0xFF, CONN_TRIES milliseconds after the start. DISC_REQ_TIMER of a drained QP that has asked sends
DISC_REQ again a millisecond later. QP_DRAIN_BOUND closes a DRAINING QP at its bound. -/
def Obligations.ConnectionTimers : Prop :=
  ∀ (s : State) (qp : BitVec 20) (k : Qp), k = s.qp qp.toNat →
    (∀ u, k.st = .opening → k.ident.active = true →
      k.lastTry + 1000000 < k.setupAt + max 1 (fld k.ident.ack 63 48) * 1000000 → u = s.arriveAt (k.lastTry + 1000000) →
      exec (.connReqTimer qp) s = .next (sendConn (u.modQp qp.toNat (fun x => { x with lastTry := u.now })) qp.toNat 0x21
        (connBlock u qp.toNat)))
    ∧ (k.st = .opening →
      exec (.setupTimeout qp) s = .next (settle (qpError
        (s.arriveAt (k.setupAt + max 1 (fld k.ident.ack 63 48) * 1000000)) qp.toNat 0 St.flushed 0 0xFF)))
    ∧ (∀ u v, k.st = .draining → k.msgs = [] → k.lastTry ≠ 0 → u = s.arriveAt (k.lastTry + 1000000) →
      v = sendConn u qp.toNat 0x24 (plainBlock u qp.toNat) →
      exec (.discReqTimer qp) s = .next (v.modQp qp.toNat (fun x => { x with lastTry := u.now })))
    ∧ (k.st = .draining →
      exec (.qpDrainBound qp) s = .next (settle (qpClosed (s.arriveAt k.drainAt) qp.toNat)))

/-- (R92; R168; R171; R178; R183; R185; R187; R188) COLL_STEP next to run on a slot that holds a descriptor, is not
in FAULT and runs no step, the device not having missed a front and every range reachable, opens the run of the
step, starts its streams, reads the inputs (or, for HALF 2, this member's chunk) and feeds the streams.
COLL_STEP_COMPLETE of a step that is whole leaves the slot IDLE with NEXT_STEP and the count of good steps one
higher and ends the entry OK with RESULT the step number. STEP_LIMIT_EXPIRY comes STEP_LIMIT microseconds after
the start and ends the step with WAIT_TIMEOUT, naming the level and member it waits for. -/
def Obligations.CollectiveStepsStartAndEnd : Prop :=
  ∀ (s : State),
    (∀ (q : BitVec 19) w x n d ins u r, nextToRun s q.toNat 0x20 = some (w, x) → n = x.entry.slot →
      (s.slot n).desc = some d → (s.slot n).cond ≠ .fault → missedLike s = false → (s.slot n).run = none →
      (∀ y ∈ x.xlats, xlatHeld s y = false) → ins = x.xlats.take (x.xlats.length - 1) →
      u = forEach streamKeys (openRun (markRan s q.toNat x.seq) n q.toNat x d
        (if x.entry.half = 2 then ins else ins.drop (ins.length - 1) ++ ins.take (ins.length - 1)) x.xlats.getLast?)
        (fun s k => rescan s n k) →
      (u.slot n).run = some r →
      exec (.collStep q) s = .next (stepBoundary (settle (pump
        (if r.half = 2 then beginGather u n d r else beginReduce u n d r) n))))
    ∧ (∀ (slot : BitVec 6) d r, (s.slot slot.toNat).desc = some d → (s.slot slot.toNat).run = some r →
      missedLike s = false → stepWhole s slot.toNat d r = true →
      exec (.collStepComplete slot) s = .next (settleSteps (flushAcks (settleSlot (endEntry
        (s.modSlot slot.toNat (fun x => { x with
          cond := .idle, run := none, nextStep := wrap 32 (x.nextStep + 1), stepsOk := wrap 32 (x.stepsOk + 1) }))
        r.q r.seq St.ok (BitVec.ofNat 64 r.step) 0) slot.toNat))))
    ∧ (∀ (slot : BitVec 6) d r, (s.slot slot.toNat).desc = some d → (s.slot slot.toNat).run = some r → 0 < d.stepLimit →
      exec (.stepLimitExpiry slot) s = .next (settleSteps (endStep (s.arriveAt (r.startAt + d.stepLimit * 1000)) slot.toNat
        St.waitTimeout (missingPeer s slot.toNat d r).1 (missingPeer s slot.toNat d r).2)))

/-- (R180; R181; R182; R183; R184; R316; R172) PIECE_SEND on a slot with energy credit sends the first unsent piece
of the stream that has landing space, at the stream's rate on an Ethernet path. CSP_DATA that begins or
continues the piece now arriving, with landing space free, is staged; one below the arrival count only makes an
ACK owed. PIECE_CONSUME takes the piece at the head of a stream when it is the piece the step expects, its units
can be taken and its bytes in the staging area read well. CSP_ACK moves the arrival and consumption counts by
what it newly acknowledges, adds the consumption to the stream's credit counter and drops the arrived pieces.
PIECE_RESEND_TIMER sends an overdue piece again, and ends the step with RETRY_EXHAUSTED after RETRIES repeats. -/
def Obligations.PiecesAreSentStagedPressedAndRepeated : Prop :=
  ∀ (s : State),
    (∀ (slot : BitVec 6) (st : BitVec 3) d key x u, (s.slot slot.toNat).desc = some d → s.inService = true →
      missedLike s = false → mayCharge s (bucketOf s 2 slot.toNat) = true →
      sendable s slot.toNat d [2 * st.toNat, 2 * st.toNat + 1] = some (key, x) → u = startRate s slot.toNat key →
      exec (.pieceSend slot st) s = .next (flushAcks (sendPiece
        (if (ratedPort u slot.toNat st.toNat).isSome then u.arriveAt ((u.slot slot.toNat).outs.findD key default).readyAt
          else u) slot.toNat key d x)))
    ∧ (∀ (arr : Arrival) (p : CspPacket) u n d, u = takeInbox s arr (.csp p) → s.inService = true → p.crcOk = true →
      slotOfColl u p.collId.toNat = some (n, d) → p.pkey.toNat = d.pkey →
      keyMember u arr.bank (arrSet arr) p.pkey.toNat = true →
      (∀ key i, p.typ = 0x41 → inKey d p.sender.toNat p.level.toNat (p.stream.toNat % 8) = some key →
        i = (u.slot n).ins.findD key default → dmod 32 p.seq.toNat i.arrived = 0 → p.payload.length = p.len.toNat →
        (p.offset.toNat = 0 ∨ p.offset.toNat = i.partialPiece.bytes.length) → i.staged.length < d.stage →
        exec (.cspData arr p) s = .next (settleSteps (flushAcks (stageData (u.modIn n key (fun i => { i with
          ackTs := p.ts, ackArr := arr, ce := i.ce || arr.ce })) n key d p))))
      ∧ (∀ key i, p.typ = 0x41 → inKey d p.sender.toNat p.level.toNat (p.stream.toNat % 8) = some key →
        i = (u.slot n).ins.findD key default → 2 ^ 31 ≤ dmod 32 p.seq.toNat i.arrived →
        exec (.cspData arr p) s = .next (settleSteps (flushAcks (oweAck (u.modIn n key (fun i => { i with
          ackTs := p.ts, ackArr := arr, ce := i.ce || arr.ce })) n key))))
      ∧ (∀ key o a c v, p.typ = 0x42 → outKey d p.sender.toNat p.level.toNat (p.stream.toNat % 8) = some key →
        o = (u.slot n).outs.findD key default → a = dmod 32 p.seq.toNat o.arrivedAck →
        c = dmod 32 p.offset.toNat o.consumedAck → a < 2 ^ 31 → a ≤ dmod 64 o.sent o.arrivedAck → c < 2 ^ 31 →
        c ≤ dmod 64 o.sent o.consumedAck →
        v = (if c = 0 then u else addCounter u (creditId d (key / 2)) c doorbellRank).modOut n key (fun o => { o with
          arrivedAck := wrap 64 (o.arrivedAck + a), consumedAck := wrap 64 (o.consumedAck + c)
          pieces := o.pieces.filter (fun x => !before 64 x.count (wrap 64 (o.arrivedAck + a))) }) →
        exec (.cspAck arr p) s = .next (settleSteps (flushAcks (if (ratedPort v n (key / 2)).isNone then v
          else v.modOut n key (fun o => if p.ceEcho
            then { o with rtt := nextRtt v.now o.rtt p.ts }.setRate
              (onCnp { o with rtt := nextRtt v.now o.rtt p.ts }.rateOf)
            else { o with rtt := nextRtt v.now o.rtt p.ts }))))))
    ∧ (∀ (slot : BitVec 6) (st : BitVec 3) d r x rest e us key w bs, key = 2 * st.toNat →
      (s.slot slot.toNat).desc = some d → (s.slot slot.toNat).run = some r → s.inService = true → missedLike s = false →
      mayCharge s (bucketOf s 2 slot.toNat) = true → (∀ y, r.dst = some y → xlatHeld s y = false) →
      ((s.slot slot.toNat).ins.findD key default).staged = x :: rest →
      pieceAt d (streamLevel (key / 2)) (inList d r key)
        (dmod 64 ((s.slot slot.toNat).ins.findD key default).consumed ((s.slot slot.toNat).ins.findD key default).base) = some e →
      x.step = r.step → x.gather = e.1 → x.bytes.length = e.2 →
      us = unitsIn d (streamLevel (key / 2)) (inList d r key) (x.bytes.length + 1)
        ((s.slot slot.toNat).ins.findD key default).units (((s.slot slot.toNat).ins.findD key default).carry ++ x.bytes) →
      us.1.all (fun u => takeReady d r key u.1 u.2.1) = true →
      hbmRead s (stageAt d key ((s.slot slot.toNat).ins.findD key default).consumed) x.bytes.length = (w, .done, bs) →
      exec (.pieceConsume slot st) s = .next (settleSteps (flushAcks (consumePiece w slot.toNat key d x us.1 us.2))))
    ∧ (∀ (slot : BitVec 6) (st : BitVec 3) d key x t, (s.slot slot.toNat).desc = some d → s.inService = true →
      missedLike s = false → outstanding s slot.toNat st.toNat = [(key, x, t)] →
      (x.sends ≤ collRetries s slot.toNat → exec (.pieceResendTimer slot st) s
        = .next (settleSteps (sendPiece (s.arriveAt t) slot.toNat key d x)))
      ∧ (collRetries s slot.toNat < x.sends → exec (.pieceResendTimer slot st) s
        = .next (settleSteps (exhaustPiece (s.arriveAt t) slot.toNat key d))))

/-- (R190; R191; R194; R196; R198; R199; R202) On a fabric port that is UP: a frame with a bad LCRC is counted and
answered by one NAK; a routed frame that is next in LSEQ order is taken (its link word first; at version 1 an
ACK goes) and looked up; one seen before does nothing but count its bytes; one further on is answered by one
NAK. Control frames count their bytes, and after them their VC0 buffer is free if the link is UP: LINK_ACK drops
the acknowledged frames from the replay buffer and notes progress; LINK_NAK takes what came before as received
and replays from the frame named, or retrains after eight fruitless replays; CREDIT adds the credits returned,
to at most the full buffer. REPLAY_TIMEOUT, no replay running, comes REPLAY_TO (at least 1,000 ns) after the
last progress and replays from the oldest frame; VC0_HOLD_EXPIRY drops the oldest VC0 frame that lacks credit
when VC0_HOLD has passed, counts it, and frees its buffer. -/
def Obligations.FabricFramesArriveAndAreReplayed : Prop :=
  ∀ (s : State) (port : BitVec 4) (p : Nat) (k : Port) (ctl : State) (free : State → State), p = port.toNat → k = s.port p →
    ctl = s.modCnt p (fun c => { c with rxBytes := wrap 64 (c.rxBytes + 44) }) →
    free = (fun t => if (t.port p).cond = .up then freeBuffer t p 0 1 else t) →
    (∀ (f : FabFrame) u, fromLine s p = true → isEth s p = false → k.cond = .up →
      u = s.modCnt p (fun c => { c with rxBytes := wrap 64 (c.rxBytes + (28 + f.len.toNat)) }) →
      (∀ v, f.lcrcOk = false → k.nakSent = false → v = u.modCnt p (fun c => { c with lcrcErr := wrap 32 (c.lcrcErr + 1) }) →
        exec (.fabricFrameReceived port f) s = .next (sendCtl (v.modPort p (fun k => { k with nakSent := true })) p
          (.nak (BitVec.ofNat 16 k.rxSeq))))
      ∧ (∀ v w, f.lcrcOk = true → replayed f = true → dmod 16 f.lseq.toNat k.rxSeq = 0 →
        v = (takeLinkWord u p f).modPort p (fun k => { k with rxSeq := wrap 16 (k.rxSeq + 1), nakSent := false }) →
        w = (if k.ver = 1 then sendCtl v p (.ack f.lseq) else v) → badFormat w p f = false → f.vc ≠ 7 →
        exec (.fabricFrameReceived port f) s = .next (handleFrame w f p))
      ∧ (f.lcrcOk = true → replayed f = true → 2 ^ 15 ≤ dmod 16 f.lseq.toNat k.rxSeq →
        exec (.fabricFrameReceived port f) s = .next u)
      ∧ (f.lcrcOk = true → replayed f = true → 0 < dmod 16 f.lseq.toNat k.rxSeq → dmod 16 f.lseq.toNat k.rxSeq < 2 ^ 15 →
        exec (.fabricFrameReceived port f) s = .next (sendNak u p)))
    ∧ (∀ (l : BitVec 16) (still : Queued → Bool), fromLine s p = true → isEth s p = false → k.cond = .up →
      still = (fun q => decide (dmod 16 l.toNat q.frame.lseq.toNat ≥ 2 ^ 15)) →
      (k.replay.filter still).length < k.replay.length →
      exec (.linkAck port l) s = .next (free (ctl.modPort p (fun k => { k with
        replay := k.replay.filter still, again := k.again.filter still
        progressAt := s.now, fruitless := 0, ackedSeq := l.toNat }))))
    ∧ (∀ (l : BitVec 16) u, fromLine s p = true → isEth s p = false → k.cond = .up →
      u = ackFrames ctl p (dmod 16 l.toNat 1) →
      exec (.linkNak port l) s
        = .next (free (if (u.port p).fruitless ≥ 8 then fabRetrain u p else replayFrom u p (some l.toNat))))
    ∧ (∀ (vc : BitVec 3) (n : BitVec 16), fromLine s p = true → isEth s p = false → k.cond = .up → vc.toNat ≤ 6 →
      exec (.credit port vc n) s = .next (free (noteStalls (ctl.modPort p (fun k => { k with
        credits := k.credits.put vc.toNat (min (if vc.toNat = 0 then 1024 else 3712) (k.credits.findD vc.toNat 0 + n.toNat)) })) p)))
    ∧ (k.cond = .up → k.replay ≠ [] → k.again = [] → k.fruitless < 8 →
      exec (.replayTimeout port) s
        = .next (replayFrom (s.arriveAt (k.progressAt + max 1000 (fld k.cfg 47 32))) p none))
    ∧ (∀ q rest u, isEth s p = false → k.queues.findD 0 [] = q :: rest → k.credits.findD 0 0 < frameCredits q.frame →
      u = s.arriveAt (q.since + max 1 (fld s.routing.cfg 31 16) * 1000) →
      exec (.vc0HoldExpiry port) s = .next (freeBuffer ((u.modPort p (fun k => { k with
          queues := k.queues.put 0 rest })).modCnt p (fun c => { c with vc0Drop := wrap 16 (c.vc0Drop + 1) }))
        q.arr q.arrVc (frameCredits q.frame)))

/-- (R193; R194; R195; R222; R330; R332) HELLO on a fabric port counts its bytes, and after it its VC0 buffer is
free if the link is UP: the third in a row from one neighbour in TRAINING with alignment brings the link UP; in
UP one from the same neighbour renews its plan, and one from another takes the port DOWN with a fault; in
RETRAIN one from the same neighbour brings it UP and replays. HELLO_TIMER comes 10 microseconds after the last
HELLO, a millisecond while UP, and sends one. Loss of alignment in UP enters RETRAIN. RETRAIN_MAX in RETRAIN
takes the port DOWN with a fault. A millisecond after DOWN an enabled port trains again. FLL_CFG_WRITE with EN 1
on an enabled port sets RETRAIN_MAX and REPLAY_TO only; on a port that may not train with EN 0 and DOWN it sets
every field. FAB_NODE_WRITE with SET already 1 and a plan held changes nothing. -/
def Obligations.FabricLinksChangeCondition : Prop :=
  ∀ (s : State) (port : BitVec 4) (p : Nat) (k : Port) (ctl : State) (free : State → State), p = port.toNat → k = s.port p →
    ctl = s.modCnt p (fun c => { c with rxBytes := wrap 64 (c.rxBytes + 44) }) →
    free = (fun t => if (t.port p).cond = .up then freeBuffer t p 0 1 else t) →
    (∀ (src : BitVec 18) (ver : Byte) (np : BitVec 4) (id : Word), fromLine s p = true → isEth s p = false →
      (k.cond = .training → k.helloFrom = some (src.toNat, np.toNat, ver.toNat) → 2 ≤ k.helloCount → k.aligned = true →
        exec (.hello port src ver np id) s = .next (free (linkUp ctl p src.toNat ver.toNat np.toNat id)))
      ∧ (k.cond = .up → k.nbrNode = src.toNat → k.nbrPort = np.toNat →
        exec (.hello port src ver np id) s = .next (free (ctl.modPort p (fun k => { k with nbrPlan := some id }))))
      ∧ (k.cond = .up → (k.nbrNode ≠ src.toNat ∨ k.nbrPort ≠ np.toNat) →
        exec (.hello port src ver np id) s = .next (free (linkTriggered (raiseFault (fabDown ctl p false) 0x04 0x00 p 0xFF p
          (BitVec.ofNat 32 (((fabDown ctl p false).port p).nbrNode % 2 ^ 18))) p s.now)))
      ∧ (k.cond = .retrain → k.nbrNode = src.toNat → k.nbrPort = np.toNat →
        exec (.hello port src ver np id) s = .next (free (replayFrom (ctl.modPort p (fun k => { k with
          cond := .up, since := s.now, aligned := true, nbrPlan := some id, lastHello := s.now, nakSent := false })) p none))))
    ∧ (∀ u, s.inService = true → isEth s p = false → k.cond ≠ .down → portMute s p = false → loopOf s p = 0 →
      u = (s.arriveAt (k.lastHello + (if k.cond = .up then 1000000 else 10000))) →
      exec (.helloTimer port) s = .next (sendCtl (u.modPort p (fun k => { k with lastHello := u.now })) p
        (helloOf (u.modPort p (fun k => { k with lastHello := u.now })) p)))
    ∧ (k.cond = .up →
      exec (.pcsAlignmentLoss port) s = .next (s.modPort p (fun k => { k with
        cond := .retrain, since := s.now, aligned := false, again := [], fruitless := 0, helloCount := 0, helloFrom := none
        cnt := { k.cnt with retrains := wrap 8 (k.cnt.retrains + 1) } })))
    ∧ (∀ u, k.cond = .retrain → u = s.arriveAt (k.since + max 1 (fld k.cfg 63 48) * 1000) →
      exec (.retrainMaxExpiry port) s = .next (linkTriggered (raiseFault (fabDown u p false) 0x04 0x00 p 0xFF p
          (BitVec.ofNat 32 (((fabDown u p false).port p).nbrNode % 2 ^ 18))) p u.now))
    ∧ (s.inService = true → k.cond = .down → fabMayTrain s p = true →
      exec (.fabricRetrainTimer port) s = .next (startTraining (s.arriveAt (k.since + 1000000)) p))
    ∧ (∀ (link : BitVec 2) (v : Word), taken s link.toNat (0x60000 + 0x100 * p) [(31, 6), (3, 2)] v = true →
      bit v 1 = true → bit k.cfg 1 = true → k.cond ≠ .down →
      exec (.fllCfgWrite link port v) s = .next (settle (s.modPort p (fun k => { k with
        cfg := merge [(63, 48), (47, 32), (1, 1)] k.cfg (fllValue v) }))))
    ∧ (∀ (link : BitVec 2) (v : Word), taken s link.toNat 0x61000 [(63, 19)] v = true → bit s.routing.node 18 = true →
      exec (.fabNodeWrite link v) s = .next { s with routing := { s.routing with
        node := reg [(18, 18, 1), (17, 0, if holdsPlan s then fld s.routing.node 17 0 else fld v 17 0)] } })

/-- (R217; R218; R219; R222) ROUTE_CMD COPY with an injecting bank, the other RETIRED and the next plan slot EMPTY
stages a copy for the manager and answers OK; with no injecting bank it answers PLAN_MISMATCH and changes
nothing else. DISCARD of a bank the manager staged clears it; of a bank a plan staged it answers PLAN_MISMATCH.
ROUTE_TBL_DATA_WRITE without AUTO_INC stores the entry in the manager's STAGED bank; reading returns the
selected entry. TABLE_FRONT_WRITE of a multiple of 256 at least 10 ms ahead arms the manager's staged bank. At
the front's tick, an isobar due latching first, injection moves to the ARMED bank, the bank that injected drains
from then. A draining bank is cleared DRAIN_BOUND after its switch. -/
def Obligations.RoutingBanksMoveAsTheirTableSays : Prop :=
  ∀ (s : State),
    (∀ (link : BitVec 2) (v : Word) b, taken s link.toNat 0x61018 [(63, 8)] v = true → fld v 7 0 = 1 →
      injectBank s = some b → (bankOf s.routing (!b)).cond = .retired → s.plans.nextCond = .empty →
      exec (.routeCopy link v) s = .next ((s.modBank (!b) (fun _ =>
          ⟨.staged, (bankOf s.routing b).sets, true, 0⟩)).modRouting (fun r => { r with code := 0 })))
    ∧ (∀ (link : BitVec 2) (v : Word), taken s link.toNat 0x61018 [(63, 8)] v = true → fld v 7 0 = 1 →
      injectBank s = none →
      exec (.routeCopy link v) s = .next { s with routing := { s.routing with code := 0x0C } })
    ∧ (∀ (link : BitVec 2) (v : Word) b, taken s link.toNat 0x61018 [(63, 8)] v = true → fld v 7 0 = 2 →
      (bankOf s.routing b).cond = .staged → stagedOrArmed (bankOf s.routing (!b)) = false →
      ((bankOf s.routing b).mgr = true → exec (.routeDiscard link v) s = .next (((s.modBank b (fun _ => Bank.reset)).modRouting
          (fun r => { r with tableFront := none })).modRouting (fun r => { r with code := 0 })))
      ∧ ((bankOf s.routing b).mgr = false →
        exec (.routeDiscard link v) s = .next { s with routing := { s.routing with code := 0x0C } }))
    ∧ (∀ (link : BitVec 2) (v : Word) b k, taken s link.toNat 0x61030 [] v = true → b = selBank s → k = bankOf s.routing b →
      s.plans.nextCond = .empty → selValid s = true → k.cond = .staged → k.mgr = true → bit s.routing.sel 31 = false →
      exec (.routeTblDataWrite link v) s = .next (s.modBank b (fun k => { k with
        cond := .staged, mgr := true
        sets := k.sets.put (selSet s) (storeEntry (routeSet s b (selSet s)) (selTable s) (selIndex s) v) })))
    ∧ (∀ (link : BitVec 2), arrives s link.toNat = true → serves s link.toNat 0x61030 = true → bit s.routing.sel 31 = false →
      exec (.routeTblDataRead link) s = .next { s with out := .regRead link.toNat (tableData s) :: s.out })
    ∧ (∀ (link : BitVec 2) (v : Word) b, taken s link.toNat 0x61020 [] v = true →
      (bankOf s.routing b).cond = .staged → (bankOf s.routing b).mgr = true → (bankOf s.routing (!b)).cond ≠ .staged →
      s.plans.nextCond = .empty → v.toNat % 256 = 0 → s.now + 10000000 ≤ v.toNat →
      exec (.tableFrontWrite link v) s = .next (((s.modBank b (fun k => { k with cond := .armed })).modRouting
        (fun r => { r with tableFront := some v.toNat })).modRouting (fun r => { r with code := 0 })))
    ∧ (∀ f b u, s.routing.tableFront = some f → (bankOf s.routing b).cond = .armed → (bankOf s.routing (!b)).cond = .inject →
      s.inService = true → u = latchDue (s.arriveAt f) false →
      exec .tableFront s = .next (((u.modBank b (fun k => { k with cond := .inject })).modBank (!b)
        (fun k => if k.cond == .inject then { k with cond := .drain, drainFrom := u.now } else k)).modRouting
        (fun r => { r with tableFront := none })))
    ∧ (∀ b u, (bankOf s.routing b).cond = .drain → (bankOf s.routing (!b)).cond ≠ .drain →
      u = s.arriveAt ((bankOf s.routing b).drainFrom + (match s.plans.active with
        | some p => p.drainBound | none => 100000)) →
      exec .bankDrainBound s = .next (u.modBank b (fun _ => Bank.reset)))

/-- (R200; R202; R203; R204; R206; R211) For every frame on VC0 to VC6 and every set: if lookup sends it out of a
port with a choice, then its bank is not RETIRED, that port is a fabric port that is UP, is not the one it
arrived on, is named by a valid entry (or is the looped port for the device's own node), and the new VC is the
old one or the one above it; queuing lowers HOPS by one unless the set is 16. A frame for this device whose bank
is not RETIRED is delivered whatever its HOPS and key, if it came from a link. A frame that came from a link,
for another node, with HOPS 0 is dropped for HOP, and with a key absent from its set for PKEY. -/
def Obligations.LookupFollowsItsPseudocode : Prop :=
  ∀ (s : State) (f : FabFrame) (set : Nat), set ≤ 16 → f.vc.toNat ≤ 6 →
    (∀ p i v, lookupFrame s f set = .out p i v →
      (bankOf s.routing f.bank).cond ≠ .retired ∧ isEth s p = false ∧ p ≠ set ∧ v ≤ 6
      ∧ (v = f.vc.toNat ∨ (v = f.vc.toNat + 1 ∧ f.vc.toNat % 2 = 1))
      ∧ (f.dst.toNat ≠ nodeId s → fabUp s p = true ∧ ∃ e, e = routeEntry s f.bank set f.dst.toNat ∧ e.getLsbD 31 = true
        ∧ i ≤ 2 ∧ p = e.toNat / 2 ^ (16 + 4 * i) % 16 ∧ (i ≠ 0 → e.getLsbD (7 + i) = true)
        ∧ (f.vc ≠ 0 → (e.getLsbD (10 + i) = true ↔ v = f.vc.toNat + 1))
        ∧ (∀ j, j < i → (j = 0 ∨ e.getLsbD (7 + j) = true) →
          e.toNat / 2 ^ (16 + 4 * j) % 16 = set ∨ fabUp s (e.toNat / 2 ^ (16 + 4 * j) % 16) = false)))
    ∧ ((bankOf s.routing f.bank).cond = .retired → lookupFrame s f set = .drop .bank)
    ∧ ((bankOf s.routing f.bank).cond ≠ .retired → f.dst.toNat = nodeId s → set ≠ 16 → lookupFrame s f set = .here)
    ∧ ((bankOf s.routing f.bank).cond ≠ .retired → f.dst.toNat ≠ nodeId s → set ≠ 16 → f.hops = 0 →
      lookupFrame s f set = .drop .hop)
    ∧ ((bankOf s.routing f.bank).cond ≠ .retired → f.dst.toNat ≠ nodeId s → set ≠ 16 → f.hops ≠ 0 →
      keyMember s f.bank set f.pkey.toNat = false → lookupFrame s f set = .drop .pkey)
    ∧ (∀ why, lookupFrame s f set = .drop why →
      handleFrame s f set = freeBuffer (countDrop s set why) set f.vc.toNat (frameCredits f))

/-- (R229; R230; R231; R232; R120) ETH_FRAME_RECEIVED on an Ethernet-mode port: a bad FCS, a bad length or a second
tag is dropped and counted in FORMAT and nothing else changes; one that no filter passes is counted in FILTER; a
ZTP or CSP frame for the device, on a priority without a policer, with room in the buffer, is handed on, marked
CE where its ECN says so, its bytes held, and XOFF is looked at; a PTP frame goes to the time unit, whose port
remembers its transport. PAUSE_FRAME in mode 802.3x pauses the sub-port for quanta times 64 byte times; in PFC
mode it pauses the priorities it names that have PFC. PFC_REFRESH of a priority in XOFF above XON comes half of
the pause time after the last, and sends it again. PAUSE_EXPIRY comes at the end of the pause and lifts it. -/
def Obligations.EthernetFramesAreFilteredAndPauses : Prop :=
  ∀ (s : State) (port : BitVec 4) (sub : BitVec 2) (p : Nat) (e : EthPort), p = port.toNat → e = s.ethPort p → isEth s p = true →
    (∀ (f : EthFrame), (f.fcsOk = false ∨ f.length < 64 ∨ maxFrame e < f.length ∨ f.doubleTag = true) →
      exec (.ethFrameReceived port sub f) s = .next (s.modEth p (fun e => { e with
        dropFormat := wrap 16 (e.dropFormat + 1) })))
    ∧ (∀ (f : EthFrame) u, f.fcsOk = true → 64 ≤ f.length → f.length ≤ maxFrame e → f.doubleTag = false →
      u = s.modEth p (fun e => { e with rxFrames := wrap 64 (e.rxFrames + 1) }) →
      (f.control = false → passesFilter s p f.dst = false →
        exec (.ethFrameReceived port sub f) s = .next (u.modEth p (fun e => { e with
          dropFilter := wrap 16 (e.dropFilter + 1) })))
      ∧ (∀ b, f.control = false → passesFilter s p f.dst = true → vlansFor e (frameVid f) ≠ [] →
        bit (e.police.findD (framePrio f) 0) 63 = false → (∃ z, f.body = .ztp z ∨ ∃ c, f.body = .csp c) →
        (vlansFor e (frameVid f)).any (fun v => forDevice s v f) = true → e.rxHeld.vals.foldl (· + ·) 0 + f.length ≤ 1572864 →
        b = ({ arr := ⟨some port, 0, (f.ip.map (·.src)).getD 0, (injectBank s).getD false, ceOf f .pass⟩
               body := payloadOf f, prio := framePrio f, bytes := f.length, sub := sub.toNat } : Inboxed) →
        exec (.ethFrameReceived port sub f) s = .next (checkXoff (({ u with
          inbox := s.inbox ++ [b] } : State).modEth p (fun e => { e with
            rxHeld := e.rxHeld.modifyD (framePrio f) 0 (· + f.length) })) p (framePrio f)))
      ∧ (∀ m v, f.control = false → passesFilter s p f.dst = true → vlansFor e (frameVid f) ≠ [] → f.body = .ptp m →
        v = u.modPtp p (fun x => { x with transport := match f.ip with | none => 0 | some h => if h.v6 then 2 else 1 }) →
        exec (.ethFrameReceived port sub f) s = .next { v with inbox := v.inbox ++ [({
          arr := ⟨some (BitVec.ofNat 4 p), 0, (f.ip.map (·.src)).getD 0, (injectBank v).getD false, false⟩
          body := .ptp m, prio := 0, bytes := 0, sub := sub.toNat } : Inboxed)] })
      ∧ (∀ v, v = u.modEth p (fun e => { e with pauseRx := wrap 16 (e.pauseRx + 1) }) →
        (∀ q, f.body = .pause q → pauseMode e = 1 →
          exec (.pauseFrame port sub f) s = .next (v.modSub p sub.toNat (fun x => { x with
            portPause := s.now + ceilDiv (q.toNat * 64) (ethRate e) })))
        ∧ (∀ cls qs, f.body = .pfc cls qs → pauseMode e = 2 →
          exec (.pauseFrame port sub f) s
            = .next (forEach ((List.range 8).filter (fun t => cls.getLsbD t && bit e.cfg (32 + t))) v (fun w t =>
              w.modSub p sub.toNat (fun x => { x with
                pauseEnd := x.pauseEnd.put t (s.now + ceilDiv ((qs.getD t 0).toNat * 64) (ethRate e)) }))))))
    ∧ (∀ (t : BitVec 3) a, (subOf e sub.toNat).xoffAt.find t.toNat = some a → xonLevel e < rxOccupancy e t.toNat →
      exec (.pfcRefresh port sub t) s
        = .next (sendPause (s.arriveAt (a + fld e.pfc 63 48 * 32 / ethRate e)) p t.toNat (fld e.pfc 63 48)))
    ∧ (∀ (t : BitVec 3) a, pauseMode e = 1 → (subOf e sub.toNat).portPause = a → a ≠ 0 →
      exec (.pauseExpiry port sub t) s = .next ((s.arriveAt a).modSub p sub.toNat (fun x => { x with portPause := 0 })))
    ∧ (∀ (t : BitVec 3) a, pauseMode e ≠ 1 → (subOf e sub.toNat).pauseEnd.findD t.toNat 0 = a → a ≠ 0 →
      exec (.pauseExpiry port sub t) s = .next ((s.arriveAt a).modSub p sub.toNat (fun x => { x with
        pauseEnd := x.pauseEnd.erase t.toNat })))

/-- (R225; R228; R233; R235; R238; R239; R241; R363) ETH_FRAME_START on a sub-port that is up with a frame waiting
comes when the line is free and its die's throttle allows, counts the heads that a gate holds, and starts the
frame the scheduler picks, its addresses as they stand now: its scheduler is charged, the frame is counted,
metered to its subscriber, and sent. GATE_ENTRY comes at the end of the entry in force. SUBPORT_LINK_UP of an
enabled port's sub-port brings it up with no pause and announces each address. SUBPORT_LINK_DOWN takes the sub-
port down, losing a frame in progress; with only MAC control frames waiting they are lost; a frame waiting alone
moves to the next sub-port that is up. -/
def Obligations.EthernetFramesStartAndSubPortsMove : Prop :=
  ∀ (s : State) (port : BitVec 4) (sub : BitVec 2) (p : Nat) (x : SubPort), p = port.toNat →
    x = subOf (s.ethPort p) sub.toNat →
    (∀ u f y g v w, isEth s p = true → x.up = true → x.waiting ≠ [] → u = countHeld (s.arriveAt x.nextAt) p sub.toNat →
      pickEth u p sub.toNat = some (f, y) → g = leaveFrame u p f →
      v = ((u.modSub p sub.toNat (fun _ => { spendFrame u p y f with flying := some { f with frame := g } })).modEth p
        (fun e => { e with
          txFrames := wrap 64 (e.txFrames + 1), pauseTx := if f.rank = 2 then wrap 16 (e.pauseTx + 1) else e.pauseTx })).modMeter
        f.subscriber (fun m => if f.rank = 0 then { m with netTx := wrap 64 (m.netTx + f.frame.length) } else m) →
      (∀ m, g.body = .ptp m → w = ptpLeft v p m) → ((∀ m, g.body ≠ .ptp m) → w = v) →
      exec (.ethFrameStart port sub) s = .next (rawFrameDone (w.sent (.eth p sub.toNat g)) f.rawOf))
    ∧ (∀ u g i start, u = forEach (List.range (subCount (s.ethPort p))) s (fun s i => countHeld s p i) →
      gateNow u p = some (g, i, start) →
      exec (.gateEntry port) s = .next (u.arriveAt (start + 16 * gateTicks (g.entries.getD i 0))))
    ∧ (∀ u, isEth s p = true → sub.toNat < subCount (s.ethPort p) → bit (s.port p).cfg 1 = true →
      u = s.modSub p sub.toNat (fun x => { x with up := true, portPause := 0, pauseEnd := Tbl.empty }) →
      exec (.subportLinkUp port sub) s
        = .next (forEach (u.ethPort p).vlans.vals u (fun s v => announceVlan s p sub.toNat default v)))
    ∧ (∀ u, u = (loseFlying s p sub.toNat).modSub p sub.toNat (fun x => { x with
        up := false, waiting := [], flying := none, xoffAt := Tbl.empty, portPause := 0, pauseEnd := Tbl.empty
        busyUntil := 0, nextAt := 0, drrD := Tbl.empty
        svcTags := x.svcTags.mapCells (fun _ g => { g with backlog := false })
        subTags := x.subTags.mapCells (fun _ g => { g with backlog := false }) }) →
      ((x.busyUntil ≤ s.now ∨ x.flying = none) → loseFlying s p sub.toNat = s)
      ∧ ((∀ f ∈ x.waiting, f.rank = 2) → exec (.subportLinkDown port sub) s = .next u)
      ∧ (∀ f j, x.waiting = [f] → f.rank ≠ 2 → pickSub (u.ethPort p) (sub.toNat + 1) = some j →
        exec (.subportLinkDown port sub) s = .next (u.modSub p j (fun y => queueOn y f))))

/-- (R255; R256; R257; R258) SEG_SET on a segment that is neither valid nor draining, its base on a granule and its
length not zero: an HBM range in a region that the pool or a claim gives, or a range behind a link of the
instance that is UP or RETRAIN, becomes the valid segment the registers describe, and SEG_CODE is OK; a base off
a granule answers MALFORMED and sets nothing. SEG_CLEAR of a valid segment that no queue, ring or claim uses
clears it. Each takes effect at the end of its tick. -/
def Obligations.SegmentsAreSetAndCleared : Prop :=
  ∀ (s : State) (link : BitVec 2) (inst : BitVec 7) (v : Word) (i n : Nat) (w : Window), i = inst.toNat →
    w = (s.inst i).win → n = w.segSel → taken s link.toNat (winAddr i 0x5020) [(63, 8)] v = true →
    (∀ g, fld v 7 0 = 1 → (s.seg i n).valid = false → (s.seg i n).draining = false → w.segBase.toNat % 2097152 = 0 →
      fld w.segCfg 31 0 ≠ 0 → g = segOf w →
      (bit w.segCfg 36 = false → inRegion ((s.inst i).res ++ claimsFor s i) g = true → segClaimed s i n = false →
        exec (.segSet link inst v) s = .next (((s.modWin i (fun w => { w with segDone := true, segCode := 0 })).modSeg i n
          (fun _ => g)).arriveAt (s.now + 16)))
      ∧ (bit w.segCfg 36 = true → mayUse s i (fld w.segCfg 39 38) = true →
        ((s.link (fld w.segCfg 39 38)).cond = .up ∨ (s.link (fld w.segCfg 39 38)).cond = .retrain) →
        exec (.segSet link inst v) s = .next (((s.modWin i (fun w => { w with segDone := true, segCode := 0 })).modSeg i n
          (fun _ => g)).arriveAt (s.now + 16))))
    ∧ (fld v 7 0 = 1 → w.segBase.toNat % 2097152 ≠ 0 →
      exec (.segSet link inst v) s
        = .next ((s.modWin i (fun w => { w with segDone := true, segCode := 0x05 })).arriveAt (s.now + 16)))
    ∧ (fld v 7 0 = 2 → segQueued s i n = false → segClaimed s i n = false →
      covers ((nextClaims s).filter (fun c => c.owner == i)) 0x05 n = false → (s.seg i n).valid = true →
      exec (.segClear link inst v) s
        = .next ((clearSeg (s.modWin i (fun w => { w with segDone := true, segCode := 0 })) i n).arriveAt (s.now + 16)))

/-- (R248; R249; R250; R251; R252; R263; R316) PATROL_SCRUB of a word without an error only charges its 8 bytes and
moves the position and, at the top of HBM, the pass. One that it corrects, its error not injected, is counted at
its stack, loses its soft error, and its row is remembered, and repaired where the pass before remembered it too
and no word of the row is uncorrectable. An uncorrectable one is noted and logged. CHANNEL_RETRAIN counts, and
one that fails marks the stack for retirement. STACK_STOPS_ANSWERING makes every word of the stack unreadable
and marks it. COUCH_REOPEN closes and opens a couch QP in ERROR. What then may go on is settled. -/
def Obligations.HbmIsScrubbedAndStacksRetire : Prop :=
  ∀ (s : State), s.inService = true →
    (∀ (addr : BitVec 40) (found : ScrubFind) (w : Nat) (last : Bool), w = addr.toNat / 8 → w * 8 < hbmTop s.hbm →
      last = decide (hbmTop s.hbm = w * 8 + 8) →
      (wordBad s.hbm w = false → s.hbm.soft.contains w = false → found = .clean →
        exec (.patrolScrub addr found) s = .next (settle ((chargeShared s [(0, 8)]).modHbm (fun h => { h with
          position := if last then 0 else w * 8 / gran
          passes := if last then wrap 32 (h.passes + 1) else h.passes }))))
      ∧ (∀ st row t u, wordBad s.hbm w = false → found = .corrected → st = stackOf s.hbm (w * 8) → row = rowOf s.hbm (w * 8) →
        s.hbm.injected.contains w = false →
        t = (((chargeShared s [(0, 8)]).modStack st (fun k => { k with corrected := wrap 32 (k.corrected + 1) })).modHbm
          (fun h => { h with soft := h.soft.filter (· != w) })).modHbm (fun h => { h with
            scrubRows := (row, s.hbm.passes) :: h.scrubRows.filter (fun r => r.1 != row &&
              (r.2 == s.hbm.passes || r.2 == wrap 32 (s.hbm.passes + 2 ^ 32 - 1))) }) →
        u = (if (s.hbm.scrubRows.contains (row, wrap 32 (s.hbm.passes + 2 ^ 32 - 1))
            && !s.hbm.bad.any (fun b => rowOf s.hbm (b * 8) == row)) = true then repairRow t st row true else t) →
        exec (.patrolScrub addr found) s = .next (settle (u.modHbm (fun h => { h with
          position := if last then 0 else w * 8 / gran
          passes := if last then wrap 32 (h.passes + 1) else h.passes }))))
      ∧ (found = .uncorrectable →
        exec (.patrolScrub addr found) s = .next (settle ((logUe ((chargeShared s [(0, 8)]).modHbm (fun h => { h with
            bad := w :: h.bad.filter (· != w) })) w true).modHbm (fun h => { h with
          position := if last then 0 else w * 8 / gran
          passes := if last then wrap 32 (h.passes + 1) else h.passes })))))
    ∧ (∀ (st : BitVec 4) u, s.hbm.live.getLsbD st.toNat = true →
      u = s.modStack st.toNat (fun k => { k with retrains := wrap 32 (k.retrains + 1) }) →
      exec (.channelRetrain st .trained) s = .next u
      ∧ exec (.channelRetrain st .failed) s = .next (settle (markRetired u st.toNat))
      ∧ exec (.stackStopsAnswering st) s = .next (settle (markRetired { s with
          hbm := { s.hbm with dead := s.hbm.dead ||| (1#12 <<< st.toNat) } } st.toNat)))
    ∧ (∀ (qp : BitVec 20) e, couchOfQp s qp.toNat = some e → (s.qp qp.toNat).st = .error →
      exec (.couchReopen qp) s
        = .next (settle (openCouchQp (closeQp s qp.toNat (drainBoundUs (s.qp qp.toNat).ident)) e)))

/-- (R270; R271; R272; R286; R287; R288; R292; R326) PL_CFG_WRITE with EN 1 on a link that is DOWN starts training
with the new settings; with EN 0 on one that is UP it takes it DOWN with an epoch bump. FORCE_DOWN does the same
to a link that is not DOWN. PL_TRAINING_COMPLETE brings a link in TRAINING UP at the lower version and the
widest group of lanes that works, and serves what waited. PL_TRAINING_TIMEOUT comes 500 ms after training began,
sets the BOARD cause and logs a fault, once. PL_RETRAIN_TIMER trains again a millisecond after DOWN.
PL_ALIGNMENT_LOSS enters RETRAIN and counts; PL_REALIGNED within 20 microseconds brings the link UP again no
wider; PL_RETRAIN_TIMEOUT takes it DOWN. RESET_NOTICE on an UP link of version 2.1 or 3.0 takes it DOWN. -/
def Obligations.PomelLinksChangeCondition : Prop :=
  ∀ (s : State) (pl : BitVec 2) (l : Nat) (k : PLink), l = pl.toNat → k = s.link l →
    (∀ (link : BitVec 2) (v : Word) u, taken s link.toNat (plAddr l 0) [(63, 13), (11, 10), (7, 6), (3, 1)] v = true →
      u = s.modLink l (fun k => { k with cfg := merge plCfgFields k.cfg (plCfgValue v) }) →
      (bit v 0 = true → k.cond = .down →
        exec (.plCfgWrite link pl v) s = .next (u.modLink l (fun k => { k with
          cond := .training, used := k.cfg, since := s.now, trainSince := s.now })))
      ∧ (bit v 0 = false → (k.cond = .up ∨ k.cond = .retrain) →
        exec (.plCfgWrite link pl v) s = .next (epochBump (u.modLink l (fun k => { k with
          cond := .down, since := s.now, lanes := 0, boardCause := false })) l)))
    ∧ (∀ (link : BitVec 2) (v : Word), taken s link.toNat (plAddr l 0x10) [(63, 8)] v = true → fld v 7 0 = 1 →
      (k.cond = .up ∨ k.cond = .retrain) →
      exec (.forceDown link pl v) s = .next (epochBump (s.modLink l (fun k => { k with
        cond := .down, since := s.now, lanes := 0, boardCause := false })) l))
    ∧ (∀ (ver : BitVec 2) (agent : Bool) (lanes : BitVec 16) w g, s.running = true → k.cond = .training →
      laneGroup lanes.toNat (boardWidthMax k) = some (w, g) →
      exec (.plTrainingComplete pl ver agent lanes) s = .next (boardServe (s.modLink l (fun k => { k with
        cond := .up, since := s.now, boardCause := false, agent := agent, width := w, lanes := g
        ver := min (min ver.toNat 2) (boardVerMax k) })) l))
    ∧ (∀ u, s.running = true → k.cond = .training → k.boardCause = false → u = s.arriveAt (k.trainSince + 500000000) →
      exec (.plTrainingTimeout pl) s = .next (noteCauses (raiseFault (u.modLink l (fun k => { k with boardCause := true }))
        0x05 0 (32 + l) 0xFF l (BitVec.ofNat 32 k.epoch))))
    ∧ (∀ u, s.running = true → k.cond = .down → bit k.cfg 0 = true → u = s.arriveAt (k.since + 1000000) →
      exec (.plRetrainTimer pl) s = .next (u.modLink l (fun k => { k with
        cond := .training, used := k.cfg, since := u.now, trainSince := u.now })))
    ∧ (k.cond = .up →
      exec (.plAlignmentLoss pl) s = .next (s.modLink l (fun k => { k with
        cond := .retrain, since := s.now, retrains := wrap 16 (k.retrains + 1) })))
    ∧ (∀ (lanes : BitVec 16) w g, k.cond = .retrain → s.now ≤ k.since + 20000 →
      laneGroup lanes.toNat k.width = some (w, g) →
      exec (.plRealigned pl lanes) s = .next (boardServe ((s.modLink l (fun k => { k with
        stallMax := sat 16 (max k.stallMax ((s.now - k.since) / 16)) })).modLink l (fun k => { k with
          cond := .up, since := s.now, width := w, lanes := g
          replays := if k.reqs.isEmpty then k.replays else wrap 8 (k.replays + 1) })) l))
    ∧ (k.cond = .retrain →
      exec (.plRetrainTimeout pl) s = .next (boardDown (noteStall (s.arriveAt (k.since + 20000)) l) l))
    ∧ (k.cond = .up → k.ver ≠ 0 →
      exec (.resetNotice pl) s = .next (epochBump (s.modLink l (fun k => { k with
        cond := .down, since := s.now, lanes := 0, boardCause := false })) l))

/-- (R247; R252; R273; R274; R276; R277; R279; R292) With the link UP, the device in service and no self-test
running: RD_NC that an entry permits, whose words are readable, takes back the lines that other companions hold
for writing, corrects the words it meets, and answers the bytes of HBM up to the end of the line; RD_SHR and
RD_OWN answer the line and track it, RD_OWN after taking it back from all others; of the control space they
answer as uncached reads. WR_LINE and WR_PART that an entry permits write the bytes under the mask and answer
CMP when every word took them and CMP_ERR when one did not, and what waited for them goes on. Without a
permission, or from a device behind the companion, a read answers zeros and a write does nothing, and each is
counted. -/
def Obligations.CompanionsReadAndWriteThroughTheAperture : Prop :=
  ∀ (s : State) (pl : BitVec 2) (cls : ReqClass) (addr : BitVec 40) (l a n : Nat), l = pl.toNat → a = addr.toNat →
    n = a / 64 → s.inService = true → linkCarries s l = true → apertureWaits s = false →
    (∀ (size : BitVec 7) m u, m = min size.toNat (64 - a % 64) → u = correctRange (takeOwned s (some l) (linesOf a m)) a m →
      (aptPermits s l cls false a m = true → firstBad u.hbm a m = none →
        exec (.rdNc pl cls false addr size) s = .next ((boardBytes u l 0xFF true m).sent (.readData l (readBytes s.mem a m))))
      ∧ (aptPermits s l cls false a m = false →
        exec (.rdNc pl cls false addr size) s = .next ((s.modLink l (fun k => { k with
          aptViol := wrap 16 (k.aptViol + 1) })).sent (.readData l (List.replicate m 0)))))
    ∧ (∀ u, aptPermits s l cls false (n * 64) 64 = true → firstBad s.hbm (n * 64) 64 = none →
      u = correctRange (takeOwned s (some l) (linesOf (n * 64) 64)) (n * 64) 64 → firstBad u.hbm (n * 64) 64 = none →
      exec (.rdShr pl cls ⟨false, addr⟩) s = .next (trackLine ((boardBytes u l 0xFF true 64).sent
        (.readData l (readBytes s.mem (n * 64) 64))) l n false))
    ∧ (∀ v u, aptPermits s l cls false (n * 64) 64 = true → v = backInvOthers s l n → firstBad v.hbm (n * 64) 64 = none →
      u = correctRange (takeOwned v (some l) (linesOf (n * 64) 64)) (n * 64) 64 → firstBad u.hbm (n * 64) 64 = none →
      exec (.rdOwn pl cls ⟨false, addr⟩) s = .next (trackLine ((boardBytes u l 0xFF true 64).sent
        (.readData l (readBytes s.mem (n * 64) 64))) l n true))
    ∧ (exec (.rdShr pl .agent ⟨true, addr⟩) s = .next (readCtrl s l (n * 64) 64)
      ∧ exec (.rdOwn pl .agent ⟨true, addr⟩) s = .next (readCtrl s l (n * 64) 64)
      ∧ exec (.rdNc pl .agent true addr 64) s = .next (readCtrl s l a (min 64 (64 - a % 64))))
    ∧ (∀ (mask : BitVec 64) (data : BitVec 512),
      (aptPermits s l cls true (n * 64) 64 = true →
        (∀ r, r = ownWrite (boardBytes s l 0xFF false 64) l (n * 64) (BitVec.allOnes 64) (lineBytes data) →
          exec (.wrLine pl cls false addr data) s = .next (settle (r.1.sent (if r.2 then .cmp l else .cmpErr l))))
        ∧ (∀ r, r = ownWrite (boardBytes s l 0xFF false (maskCount mask)) l (n * 64) mask (lineBytes data) →
          exec (.wrPart pl cls false addr mask data) s = .next (settle (r.1.sent (if r.2 then .cmp l else .cmpErr l)))))
      ∧ (aptPermits s l cls true (n * 64) 64 = false →
        exec (.wrLine pl cls false addr data) s = .next (s.modLink l (fun k => { k with
          aptViol := wrap 16 (k.aptViol + 1) }))
        ∧ exec (.wrPart pl cls false addr mask data) s = .next (s.modLink l (fun k => { k with
          aptViol := wrap 16 (k.aptViol + 1) }))))

/-- (R64; R275; R278; R280; R287) SNP_INV on an UP link takes the line's new bytes, ends its watches and serves the
heads of the queues that watched it. WATCH_POLL of a queue that waits for an entry in board memory without a
watch comes a microsecond later, is counted and serves the head. A companion's FENCE is answered CMP. CMP for
the oldest request ends it: a write's ends nothing else, a read's brings the bytes of its line. -/
def Obligations.WatchesFencesAndCompletions : Prop :=
  ∀ (s : State) (pl : BitVec 2) (l : Nat), l = pl.toNat →
    (∀ (addr : BitVec 52) (data : BitVec 512) n qs, (s.link l).cond = .up → n = addr.toNat / 64 →
      qs = ((s.link l).watches.filter (fun w => w.1 == n)).map (·.2) →
      exec (.snpInv pl addr data) s = .next (settle (forEach qs
        ((s.setBoard l (writeBytes (s.board l) (n * 64) (lineBytes data))).modLink l (fun k => { k with
          watches := k.watches.filter (fun w => w.1 != n) })) serveHead)))
    ∧ (∀ (q : BitVec 19) w x, s.queues.find q.toNat = some w → x = headSlot s w → w.st = .waiting → w.reason = .early →
      x.board = true → (∀ c ∈ (s.link x.link).watches, c.2 ≠ q.toNat) →
      exec (.watchPoll q) s = .next (settle (serveHead ((s.arriveAt (s.now + 1000)).modLink x.link (fun k => { k with
        watchFull := wrap 17 (k.watchFull + 1) })) q.toNat)))
    ∧ (arrives s l = true → exec (.pomelFence pl) s = .next { s with out := .cmp l :: s.out })
    ∧ (∀ (err : Bool) (data : BitVec 512) r rest u, (s.link l).cond = .up → (s.link l).reqs = r :: rest →
      u = s.modLink l (fun k => { k with reqs := rest }) →
      ((r.write = true ∨ err = true) → exec (.cmp pl err data) s = .next u)
      ∧ (r.write = false → err = false →
        exec (.cmp pl err data) s
          = .next (u.setBoard l (writeBytes (s.board l) (r.addr / 64 * 64) (lineBytes data)))))

/-- (R222; R293; R295; R296; R297; R308; R35) REGISTER_WRITE of an address that the device does not serve for the
link counts a refused access and records it, and at an address that is no multiple of 8 a narrow one. FAB_CFG,
MGR_LINKS and ISOBAR_TIME written whole with reserved bits zero take their fields: a zero field of FAB_CFG is 1,
MGR_LINKS ignores 0. -/
def Obligations.RegisterWritesAreServedOrViolate : Prop :=
  ∀ (s : State) (link : BitVec 2) (v : Word),
    (∀ (addr : BitVec 34), addr.toNat % 8 ≠ 0 → arrives s link.toNat = true →
      (serves s link.toNat addr.toNat = true →
        exec (.registerWrite link addr v) s = .next { s with ctrl := { s.ctrl with
          refused := s.ctrl.refused.put link.toNat (wrap 32 (s.ctrl.refused.findD link.toNat 0 + 1))
          lastViol := reg [(63, 63, 1), (62, 61, link.toNat), (60, 56, 3), (33, 0, addr.toNat)] } })
      ∧ (serves s link.toNat addr.toNat = false → reservedMap addr.toNat = false →
        exec (.registerWrite link addr v) s = .next { s with ctrl := { s.ctrl with
          refused := s.ctrl.refused.put link.toNat (wrap 32 (s.ctrl.refused.findD link.toNat 0 + 1))
          lastViol := reg [(63, 63, 1), (62, 61, link.toNat), (60, 56, 1), (33, 0, addr.toNat)] } }))
    ∧ (taken s link.toNat 0x61008 [(15, 8)] v = true →
      exec (.registerWrite link 0x61008 v) s = .next { s with routing := { s.routing with
        cfg := merge [(63, 48), (47, 40), (39, 32), (31, 16), (7, 0)] 0 (fabCfgValue v) } })
    ∧ (taken s link.toNat 0x100 [(63, 4)] v = true →
      exec (.registerWrite link 0x100 v) s = .next { s with ctrl := { s.ctrl with
        mgrLinks := if fld v 3 0 = 0 then s.ctrl.mgrLinks else fld v 3 0 } })
    ∧ (taken s link.toNat 0x10200 [] v = true →
      exec (.registerWrite link 0x10200 v) s = .next { s with time := { s.time with isoTime := v } })

/-- (R299; R300; R301; R302; R303; R304; R305; R306; R366) For a posted command of a manager door with no load
running: INST_CREATE that no check of R299 refuses takes its resources and answers OK, and one that a check
refuses takes nothing and answers the check's step, entry and status. INST_CALM and INST_REMOVE of an ACTIVE
instance other than 0 begin calming, with removal for the latter, and answer OK; INST_RESET of a CALM instance
that is not being removed begins its reset in the next tick. INST_CALM of instance 0 answers MALFORMED.
INST_DRAIN_BOUND of an instance that is not CALMING only settles. INST_ZEROING_COMPLETE of a RESETTING instance
that holds no HBM region makes it FREE with nothing held. MBX_INFO answers OK with the interface version and the
versions accepted. -/
def Obligations.InstancesAreCreatedCalmedResetAndRemoved : Prop :=
  ∀ (s : State),
    (∀ (d : Door) (link : BitVec 2) u i, u = took s d → i = reqFld s d 8 1 → s.plans.nextCond ≠ .loading →
      (posted s d link.toNat 0x0010 1 true = true →
        (createFail u d = none → exec (.instCreate d link) s = .next (answer (createInst u d) d St.ok [0]))
        ∧ (∀ step k st, createFail u d = some (step, k, st) →
          exec (.instCreate d link) s = .next (answer u d st [reg [(15, 8, step), (7, 0, k)]])))
      ∧ (posted s d link.toNat 0x0011 1 true = true →
        (0 < i → i < 128 → (s.inst i).st = .active →
          exec (.instCalm d link) s = .next (answer (settleSteps (enterCalming u i false)) d St.ok []))
        ∧ (i = 0 → exec (.instCalm d link) s = .next (answer u d St.malformed [])))
      ∧ (posted s d link.toNat 0x0012 1 true = true → 0 < i → i < 128 → (s.inst i).st = .calm →
        (s.inst i).removing = false →
        exec (.instReset d link) s = .next (answer (settleSteps (beginReset u i)) d St.ok []))
      ∧ (posted s d link.toNat 0x0013 1 true = true → 0 < i → i < 128 → (s.inst i).st = .active →
        exec (.instRemove d link) s = .next (answer (settleSteps (enterCalming u i true)) d St.ok [])))
    ∧ (∀ (d : Door) (link : BitVec 2), posted s d link.toNat 0x0001 1 false = true →
      exec (.mbxInfo d link) s = .next (answer (took s d) d St.ok [mailInfo d (reqFld s d 8 2)]))
    ∧ (∀ i : BitVec 7, (s.inst i.toNat).st ≠ .calming → exec (.instDrainBound i) s = .next (settleSteps s))
    ∧ (∀ i : BitVec 7, (s.inst i.toNat).st = .resetting → s.mtr.running = false →
      (∀ c ∈ (s.inst i.toNat).res, c.kind ≠ 0x06) →
      exec (.instZeroingComplete i) s = .next (s.modInst i.toNat (fun x => { x with
        st := .free, res := [], removing := false, drainUs := 0, calmAt := 0 })))

/-- (R300; R301; R302) INST_DRAIN_BOUND of a CALMING instance that has no queue and no QP left when the tick of its
bound has been evaluated makes it CALM at its bound (or begins its reset, when it is being removed), and
settles. INST_ZEROING_COMPLETE of a RESETTING instance leaves it FREE with nothing held, every byte of each HBM
region it held zero, every byte outside those regions as before, and every other instance as before. -/
def Obligations.InstanceDrainAndZeroing : Prop :=
  ∀ (s : State) (i : BitVec 7),
    (∀ v u, (s.inst i.toNat).st = .calming → v = meetTick (s.arriveAt (s.inst i.toNat).calmAt) →
      (v.inst i.toNat).st = .calming → instQueues v i.toNat = [] → instQps v i.toNat = [] →
      u = v.modInst i.toNat (fun x => { x with st := .calm }) →
      exec (.instDrainBound i) s
        = .next (settleSteps (if (u.inst i.toNat).removing then beginReset u i.toNat else u)))
    ∧ ((s.inst i.toNat).st = .resetting →
      ∃ t, exec (.instZeroingComplete i) s = .next t
        ∧ (t.inst i.toNat).st = .free ∧ (t.inst i.toNat).res = []
        ∧ (∀ j, j ≠ i.toNat → t.inst j = s.inst j)
        ∧ (∀ c ∈ (s.inst i.toNat).res, c.kind = 0x06 → ∀ a, c.first * 2097152 ≤ a → a < (c.first + c.count) * 2097152 →
          readByte t.mem a = 0)
        ∧ (∀ a, (∀ c ∈ (s.inst i.toNat).res, c.kind = 0x06 →
            a < c.first * 2097152 ∨ (c.first + c.count) * 2097152 ≤ a) → readByte t.mem a = readByte s.mem a))

/-- (R310; R313; R315; R317; R363) PWR_CAP_WRITE while no load runs decides at once: a value that is not a multiple
of 5 from 300 to 700 is MALFORMED, one below the reservations of a plan slot is ENERGY_REFUSED, neither changes
the cap, and any other is OK and governs from the next period. CREDIT_PERIOD comes 1,024 ns after the last,
takes the accepted cap, adds the shared pool's own refill, refills every bucket, and heads that waited for
credit look again. COEFFICIENT_UPDATE comes at the next multiple of 10 ms, sets K of a domain with energy
estimated by its rule within 2,048 to 8,192, clears the estimates and takes the static power; with nothing
estimated K is drawn from a free value within the same bounds. -/
def Obligations.TheCapAndItsCredits : Prop :=
  ∀ (s : State),
    (∀ (link : BitVec 2) (v : Word) w, taken s link.toNat 0xA0000 [(63, 10)] v = true → s.plans.nextCond ≠ .loading →
      w = fld v 9 0 →
      ((w < 300 ∨ 700 < w ∨ w % 5 ≠ 0) →
        exec (.pwrCapWrite link v) s = .next { s with pwr := { s.pwr with
          capDone := true, capCode := 0x05, capHeld := none } })
      ∧ (300 ≤ w → w ≤ 700 → w % 5 = 0 → (w * 1000 < reservedMw s.plans.active ∨ w * 1000 < reservedMw s.plans.next) →
        exec (.pwrCapWrite link v) s = .next { s with pwr := { s.pwr with
          capDone := true, capCode := 0x10, capHeld := none } })
      ∧ (300 ≤ w → w ≤ 700 → w % 5 = 0 → reservedMw s.plans.active ≤ w * 1000 → reservedMw s.plans.next ≤ w * 1000 →
        exec (.pwrCapWrite link v) s = .next { s with pwr := { s.pwr with
          capDone := true, capCode := 0, capHeld := none, capNext := some w } }))
    ∧ (∀ u w, s.inService = true →
      u = (s.arriveAt (s.pwr.lastPeriod + 1024)).modPwr (fun p => { p with
        lastPeriod := s.pwr.lastPeriod + 1024, cap := p.capNext.getD p.cap, capNext := none }) →
      w = u.modPwr (fun p => { p with shared := p.shared + sharedOwn u, sharedRefill := (sharedOwn u).toNat }) →
      exec .creditPeriod s = .next (retryHeads (forEach (buckets w) w refillBucket) .energy))
    ∧ (∀ (measured : List Nat) (static : BitVec 10), s.running = true →
      ∃ t, exec (.coefficientUpdate measured static) s = .next t
        ∧ t.pwr.staticW = static.toNat ∧ t.pwr.estimated = Tbl.empty
        ∧ (∀ d, d < 5 → 2048 ≤ kOf t d ∧ kOf t d ≤ 8192)
        ∧ (∀ d e, d < 5 → e = s.pwr.estimated.findD d 0 → e ≠ 0 → kOf t d =
          max 2048 (min 8192 ((3 * kOf s d * e + kOf s d * measured.getD d 0) / (4 * e))))
        ∧ t.time = (s.arriveAt ((s.now / 10000000 + 1) * 10000000)).time
        ∧ t = { s with time := t.time, pwr := t.pwr, mtr := t.mtr, draw := t.draw })

/-- (R318; R319; R320; R321) THROTTLE_REQUEST comes at the next multiple of 100 microseconds, notes the temperature,
and with the junction at THROTTLE_TJ or the millisecond's average over the cap, and no override in force, asks
every unit for one level more. THROTTLE_RELEASE comes at the next millisecond and lowers every unit with power
at most 95 % of the cap and the junction more than 3 degrees below THROTTLE_TJ. DEFER_EXPIRY puts a deferred
request of one unit into effect at its time and counts it. THERMAL_OVERRIDE at 105 degrees with no override in
force sets EMERG, counts it, and logs a fault. EMERG_CLEAR below THROTTLE_TJ clears EMERG. -/
def Obligations.ThrottlingRisesDefersAndReleases : Prop :=
  ∀ (s : State), s.running = true →
    (∀ (tj : Byte) u, u = noteTj (s.arriveAt ((s.now / 100000 + 1) * 100000)) tj.toNat → s.pwr.emerg = false →
      ((averageUw u > s.pwr.cap * 1000000 ∨ throttleTj s ≤ tj.toNat) →
        exec (.throttleRequest tj) s = .next (forEach [0, 1, 2, 3, 4] u requestUnit))
      ∧ (averageUw u ≤ s.pwr.cap * 1000000 → tj.toNat < throttleTj s → exec (.throttleRequest tj) s = .next u))
    ∧ (∀ (tj : Byte) u, u = noteTj (s.arriveAt ((s.now / 1000000 + 1) * 1000000)) tj.toNat → s.pwr.emerg = false →
      averageUw u * 100 ≤ s.pwr.cap * 1000000 * 95 → tj.toNat + 3 < throttleTj s →
      exec (.throttleRelease tj) s
        = .next (forEach [0, 1, 2, 3, 4] u (fun s k => setLevel s k (levelOf s k - 1))))
    ∧ (∀ k t u, k < 5 → (s.pwr.units.findD k default).deferredAt = some t →
      (∀ j, j < 5 → j ≠ k → (s.pwr.units.findD j default).deferredAt = none) →
      u = s.arriveAt (t + min 200 (fld s.pwr.cfg 39 32) * 1000) →
      exec .deferExpiry s = .next ((applyDeferred u k).modPwr (fun p => { p with
        deferExpired := wrap 16 (p.deferExpired + 1) })))
    ∧ (∀ tj : Byte, s.pwr.emerg = false → 105 ≤ tj.toNat →
      ∃ t, exec (.thermalOverride tj) s = .next t ∧ t = { s with pwr := t.pwr, flt := t.flt }
        ∧ t.pwr.emerg = true ∧ t.pwr.tj = tj.toNat ∧ t.pwr.emergencies = wrap 16 (s.pwr.emergencies + 1)
        ∧ (∀ k, k < 5 → levelOf t k = 8)
        ∧ t.flt.raised = s.flt.raised ++ [⟨s.now, 7, 0, 113, 0xFF, decide (s.time.lock ≠ .locked), false, 0,
            BitVec.ofNat 32 tj.toNat⟩])
    ∧ (∀ tj : Byte, tj.toNat < throttleTj s →
      exec (.emergClear tj) s = .next (noteCauses { s with pwr := { s.pwr with tj := tj.toNat, emerg := false } }))

/-- (R322; R323; R324; R325; R326; R337; R338; R403) FAULT_LOG_APPEND with one fault reported and none pending puts
it in the ring at its SEQ, DEGRADES set where its cause has set in its tick, counts its class, moves the oldest
entry when the ring is full, sets PENDING, prints one console line and fires the manager's vector when it is
enabled; with none reported it changes nothing. CORE_ACK_WRITE clears PENDING and cause CORE where 1 is written.
CORE_WATCHDOG_EXPIRY counts, sets cause CORE at the third within 10 s, and logs a fault of class 0x0C. -/
def Obligations.FaultsAreLoggedInOrder : Prop :=
  ∀ (s : State),
    (s.flt.raised = [] → exec .faultLogAppend s = .next s)
    ∧ (∀ e full, s.flt.raised = [e] → s.flt.pending = false → full = decide (dmod 32 s.flt.nextSeq s.flt.oldest = 65536) →
      ∃ u, exec .faultLogAppend s = .next (noteCauses (if s.flt.vecEn then fireVector u s.flt.vector else u))
        ∧ u = { s with flt := u.flt, out := .uart (wrap 32 s.flt.nextSeq) :: s.out }
        ∧ u.flt.raised = [] ∧ u.flt.pending = true ∧ u.flt.nextSeq = wrap 32 (s.flt.nextSeq + 1)
        ∧ u.flt.log = s.flt.log.put (s.flt.nextSeq % 65536) { e with degrades := match causeOfClass e.cls e.detail e.status with
            | some b => (noteCauses s).flt.rises.contains (b, e.time)
            | none => false }
        ∧ u.flt.oldest = (if full then wrap 32 (s.flt.oldest + 1) else s.flt.oldest)
        ∧ u.flt.overwritten = (if full then wrap 32 (s.flt.overwritten + 1) else s.flt.overwritten)
        ∧ u.flt.classCount.findD e.cls 0 = wrap 64 (s.flt.classCount.findD e.cls 0 + 1))
    ∧ (∀ (link : BitVec 2) (v : Word), taken s link.toNat 0xB0008 [(31, 10)] v = true →
      exec (.coreAckWrite link v) s = .next (noteCauses { s with flt := { s.flt with
        coreCause := s.flt.coreCause && !bit v 9, pending := s.flt.pending && !bit v 8 } }))
    ∧ (∀ (core : BitVec 4) (task : Byte) times, s.running = true →
      times = s.now :: s.flt.wdTimes.filter (fun t => decide (s.now < t + 10000000000)) →
      exec (.coreWatchdogExpiry core task) s = .next (noteCauses (raiseFault { s with flt := { s.flt with
          expiries := wrap 32 (s.flt.expiries + 1), wdLast := s.flt.wdLast.put core.toNat s.now, wdTimes := times
          coreCause := s.flt.coreCause || decide (3 ≤ times.length) } }
        0x0C 0 (128 + core.toNat) 0xFF core.toNat (BitVec.ofNat 32 task.toNat))))

/-- (R329; R330; R331; R334) ALT_NOTICE in service records the alternate it names and applies what is due.
NOTICE_REPEAT of a record of the active plan sent fewer than three times sends its notice again 50 microseconds
after the last and counts it. DECISION_POINT, when no armed front comes first, arrives at the next point and
applies what is due. RESTORE_COMPLETE of a restore whose partner has answered with a bad record logs a fault
with its status and leaves the region undefined, with no valid generation; of one whose whole generation has
arrived it logs the restore, its DETAIL free. -/
def Obligations.AlternatesAndRestores : Prop :=
  ∀ (s : State), s.inService = true →
    (∀ (port : BitVec 4) (alt : BitVec 16) (e : Word) (hops : Byte) (origin : BitVec 18),
      exec (.altNotice port alt e hops origin) s
        = .next (settleSteps (applyAllDue (noticeIn s port.toNat alt.toNat e.toNat hops.toNat origin.toNat))))
    ∧ (∀ (alt : BitVec 16) r u, s.flt.alts.find alt.toNat = some r → r.sends < 3 →
      u = sendNotice (s.arriveAt (r.lastSend + 50000)) alt.toNat r →
      exec (.noticeRepeat alt) s = .next (u.modFlt (fun f => { f with
        alts := f.alts.modify alt.toNat (fun r => { r with sends := r.sends + 1, lastSend := u.now }) })))
    ∧ (∀ e, nextDecision s = some e →
      (s.plans.nextCond ≠ .armed ∨ max s.now (tickStart e) < tickStart s.plans.front) →
      exec .decisionPoint s = .next (settleSteps (applyAllDue (s.arriveAt e))))
    ∧ (∀ (region : BitVec 16) (k : Restore) (e : CouchEnt) (u : State) (r : Nat), r = region.toNat →
      s.flt.restoring.find r = some k →
      restoreEnt s r = some e → u = s.modFlt (fun f => { f with restoring := f.restoring.erase r }) → k.phase = 2 →
      k.open_ = 0 →
      (∀ b, k.bad = some b →
        exec (.restoreComplete region) s = .next (settle (raiseFault ((undefineHbm (u.modFlt (fun f => { f with
            restoreFailed := true, restoreStatus := b.status })) (e.source * gran) (e.length * gran)).modCouch r (fun c => { c with cond := .none, validGen := none }))
          0x0A b.status (taskEngine 4) e.owner r (BitVec.ofNat 32 (leAt k.record 0 8)))))
      ∧ (∀ w, k.bad = none → leAt k.record 0 8 ≠ 0 → w = restoreDone u r e (leAt k.record 8 1) (leAt k.record 0 8) →
        exec (.restoreComplete region) s = .next (settle (raiseFault { w with draw := w.draw + 1 } 0x0B 0
          (taskEngine 4) e.owner r (BitVec.ofNat 32 (Config.freeValue w.draw).toNat)))))

/-- (R33; R335; R339; R340; R345; R387; R392; R394; R395; R397; R399; R411) PORST_N low for 10 microseconds or more,
loss of a main rail and a thermal trip leave the device OFF with the state a cold reset leaves: no memory,
fabric time 0, every fuse, the island's supply and companion memory as before, the pin functions and the dynamic
address gone; a shorter low changes nothing. PORST_N_RELEASE with the halt fuse blown leaves BOOT_HALT;
otherwise, with no other input low, a boot begins. WRST_N low in service enters a warm boot's first phase with
what R335 keeps; its release, and the clock's return, begin the boot once nothing holds it. REFCLK_SYS loss acts
as WRST_N. With PORST_N high and no boundary scan, FAULT_N is low exactly in BOOT_HALT, while a boot waits for
its flash, with cause CORE set, with REFCLK_SYS lost, and in OFF entered by a rail loss or a trip. -/
def Obligations.ResetInputsAndRails : Prop :=
  ∀ (s : State),
    (∀ n : Nat, n < 10000 → exec (.porstNAssert n) s = .next s)
    ∧ (∀ n : Nat, 10000 ≤ n → exec (.porstNAssert n) s = .next { coldState s with pins := { (coldState s).pins with
        porstLow := true, thermTrip := false } })
    ∧ (∃ t, t = coldState s ∧ t.boot.phase = .off ∧ t.mem = [] ∧ t.time = TimeUnit.reset ∧ t.queues = Tbl.empty
      ∧ t.board0 = s.board0 ∧ t.board3 = s.board3 ∧ t.boot.fuseSvn = s.boot.fuseSvn
      ∧ t.boot.haltFuse = s.boot.haltFuse ∧ t.boot.keyRevoke = s.boot.keyRevoke ∧ t.boot.flash = s.boot.flash
      ∧ t.mtr.running = s.mtr.running ∧ t.mtr.fuses = s.mtr.fuses ∧ t.pins = { s.pins with i3cDyn := none, gpio := Tbl.empty }
      ∧ t.pending = s.pending ∧ t.flt = Faults.reset ∧ t.insts = State.reset.insts)
    ∧ (∀ (flash : Flash) (strap : BitVec 2) u, s.pins.porstLow = true →
      u = ({ coldState s with pins := { (coldState s).pins with
        porstLow := false, offByFault := false, strap := strap.toNat } } : State).modBoot (fun b => { b with
          flash := flash }) →
      (s.boot.haltFuse = true → exec (.porstNRelease flash strap) s = .next { u with boot := { u.boot with
        phase := .bootHalt } })
      ∧ (s.boot.haltFuse = false → s.pins.wrstLow = false → s.pins.refclkLost = false →
        exec (.porstNRelease flash strap) s = .next (beginBoot { u with boot := { u.boot with phase := .boot } })))
    ∧ (exec .railLoss s = .next { coldState s with pins := { (coldState s).pins with offByFault := true } })
    ∧ (s.boot.phase ≠ .off → exec .thermalTrip s = .next { coldState s with pins := { (coldState s).pins with
        offByFault := true, thermTrip := true } })
    ∧ (∀ u, s.inService = true → s.pins.porstLow = false → s.pins.wrstLow = false → s.pins.refclkLost = false →
      u = (warmState s).modBoot (fun b => { b with phase := .boot, verified := false }) →
      exec .wrstNAssert s = .next { u with pins := { u.pins with wrstLow := true } }
      ∧ exec .refclkSysLoss s = .next { u with pins := { u.pins with refclkLost := true } })
    ∧ (∀ u, s.pins.wrstLow = true → s.pins.porstLow = false → s.pins.refclkLost = false → s.boot.phase = .boot →
      u = { s with pins := { s.pins with wrstLow := false } } → exec .wrstNRelease s = .next (beginBoot u))
    ∧ (∀ u, s.pins.refclkLost = true → s.pins.porstLow = false → s.pins.wrstLow = false → s.boot.phase = .boot →
      u = { s with pins := { s.pins with refclkLost := false } } → exec .refclkSysRecovery s = .next (beginBoot u))
    ∧ (s.pins.porstLow = false → scanDrive s .faultN = none → (drive s .faultN = .low ↔
      s.boot.phase = .bootHalt ∨ (s.boot.phase = .boot ∧ s.boot.waitFlash ≠ 0) ∨ s.flt.coreCause = true
        ∨ s.pins.refclkLost = true ∨ (s.boot.phase = .off ∧ s.pins.offByFault = true)))

/-- (R54; R220; R335; R339; R340; R341; R344; R345; R346; R364) FLASH_RETRY of a boot that waits comes a second
later: with the flash absent or blank it waits on with that reason; with an image that fails a check of R344 the
halt fuse is blown and the device is in BOOT_HALT at that step; with one that passes its versions are taken, its
body is copied to the code region and locked, and the link phase is reached 300 ms after the start.
BOOT_COMPLETE of a verified boot that no input holds comes 5,900 ms after its start, 1,480 ms for a warm one,
and opens the doors: after a cold boot memory is all zero with no error and each stack shows its spare rows,
after a warm one the banks and the plan store come back. -/
def Obligations.BootsReadTheFlashAndFinish : Prop :=
  ∀ (s : State),
    (∀ (flash : Flash) u, s.boot.phase = .boot → s.boot.waitFlash ≠ 0 → bootHeld s = false →
      u = (s.arriveAt (s.now + 1000000000)).modBoot (fun b => { b with
        flash := flash, startedAt := (s.arriveAt (s.now + 1000000000)).now, waitFlash := 0 }) →
      (flash = .absent → exec (.flashRetry flash) s = .next { u with boot := { u.boot with waitFlash := 1 } })
      ∧ (flash = .blank → exec (.flashRetry flash) s = .next { u with boot := { u.boot with waitFlash := 2 } })
      ∧ (∀ b k, flash = .image b → verifyFail u b = some k →
        exec (.flashRetry flash) s = .next { u with boot := { u.boot with
          phase := .bootHalt, haltFuse := true, haltStep := k } })
      ∧ (∀ b v, flash = .image b → verifyFail u b = none →
        v = u.modBoot (fun k => { k with
          verified := true, waitFlash := 0, running := imageVersion b, runningSvn := imageSvn b
          flashVersion := imageVersion b, flashSvn := imageSvn b, headerHash := sm3 (b.take 512)
          bootSvn := k.fuseSvn, code := slice b 512 (bodyLength b), codeLocked := true }) →
        exec (.flashRetry flash) s = .next (linkPhase (v.arriveAt (u.boot.startedAt + 300000000)))))
    ∧ (∀ ms u v spares, s.boot.phase = .boot → s.boot.verified = true → bootHeld s = false →
      ms = (if s.boot.warm then 1480 else 5900) → u = s.arriveAt (s.boot.startedAt + ms * 1000000) →
      v = newGeneration (((u.modBoot (fun b => { b with
        phase := .service, hbmValid := true, stage := .none, staged := [] })).modPwr (fun p => { p with
          lastPeriod := u.now / 1024 * 1024 })).modPlans (fun x => { x with bootAt := u.now })) 0 →
      spares = (List.range 12).map (fun n => (n, { v.stack n with sparesLeft := (v.stack n).spare })) →
      (s.boot.warm = false → exec .bootComplete s = .next (settleSteps { v with
        mem := [], hbm := { v.hbm with bad := [], soft := [], injected := [], perStack := ⟨spares⟩ } }))
      ∧ (s.boot.warm = true → exec .bootComplete s = .next (settleSteps (warmPlans (warmRouting v)))))

/-- (R347; R348; R349; R352; R353) For a posted FW_STAGE of a manager door: LOAD of a readable image that passes
every check takes back lines companions own, stages a copy and answers OK; with an address that is not 64-byte
aligned it answers MALFORMED naming step 8. COMMIT and ABORT of a STAGED copy begin the flash write (what the
flash holds until the write ends is a free value, log entry 6) and drop the copy; in any other condition they
answer MALFORMED. ADVANCE to a version above the fuses, and no higher than the running image, the flash and 128,
blows the fuses, and no lower one. FLASH_WRITE_COMPLETE with a good read-back commits the image to the flash,
and the third bad one fails. FW_QUERY answers the versions and the condition. -/
def Obligations.FirmwareIsStagedAndWritten : Prop :=
  ∀ (s : State),
    (∀ (d : Door) (link : BitVec 2) u op, posted s d link.toNat 0x0060 1 true = true → u = took s d →
      op = reqFld s d 8 1 →
      (∀ addr len w b, op = 1 → (s.boot.stage = .none ∨ s.boot.stage = .staged) → addr = reqFld s d 0x10 8 →
        len = reqFld s d 0x18 8 → addr % 64 = 0 → addr + len ≤ hbmAvail s.hbm * 2097152 → len ≤ 33554432 →
        w = correctRange (takeOwned u none (linesOf addr len)) addr len → firstBad w.hbm addr len = none →
        b = readBytes s.mem addr len → len = 512 + bodyLength b → verifyFail s b = none →
        exec (.fwStageLoad d link) s = .next (answer (w.modBoot (fun x => { x with
          stage := .staged, staged := b })) d St.ok []))
      ∧ (op = 1 → (s.boot.stage = .none ∨ s.boot.stage = .staged) → reqFld s d 0x10 8 % 64 ≠ 0 →
        exec (.fwStageLoad d link) s = .next (answer u d St.malformed [reg [(7, 0, 8)]]))
      ∧ (op = 2 → s.boot.stage = .staged →
        exec (.fwStageCommit d link) s = .next (answer (({ u with draw := u.draw + 1 } : State).modBoot (fun b => { b with
          stage := .writing, bytesWritten := 0, attempts := 0, flash := .image (Config.flashPart u.draw) })) d St.ok []))
      ∧ (op = 2 → s.boot.stage ≠ .staged → exec (.fwStageCommit d link) s = .next (answer u d St.malformed []))
      ∧ (op = 3 → s.boot.stage = .staged →
        exec (.fwStageAbort d link) s = .next (answer (u.modBoot (fun b => { b with stage := .none, staged := [] })) d St.ok []))
      ∧ (∀ v, op = 4 → v = reqFld s d 0x10 4 → s.boot.stage ≠ .staged → s.boot.stage ≠ .writing →
        (s.boot.fuseSvn < v → v ≤ 128 → v ≤ s.boot.runningSvn → v ≤ s.boot.flashSvn →
          exec (.fwStageAdvance d link) s = .next (answer (u.modBoot (fun b => { b with fuseSvn := v })) d St.ok []))
        ∧ (v ≤ s.boot.fuseSvn → exec (.fwStageAdvance d link) s = .next (answer u d St.malformed []))))
    ∧ (∀ ok : Bool, s.boot.stage = .writing → s.inService = true →
      (ok = true → exec (.flashWriteComplete ok) s = .next { s with boot := { s.boot with
        attempts := s.boot.attempts + 1, bytesWritten := s.boot.staged.length, stage := .committed
        flash := .image s.boot.staged, flashVersion := imageVersion s.boot.staged, flashSvn := imageSvn s.boot.staged } })
      ∧ (ok = false → exec (.flashWriteComplete ok) s = .next { s with boot := { s.boot with
        attempts := s.boot.attempts + 1, bytesWritten := s.boot.staged.length
        stage := if s.boot.attempts + 1 < 3 then .writing else .failed } }))
    ∧ (∀ (d : Door) (link : BitVec 2), posted s d link.toNat 0x0061 1 true = true →
      exec (.fwQuery d link) s = .next (answer (took s d) d St.ok [s.boot.running, s.boot.flashVersion,
        reg [(63, 56, condCode s.boot.stage), (55, 48, s.boot.runningSvn), (47, 40, s.boot.flashSvn),
          (39, 32, s.boot.fuseSvn), (31, 0, s.boot.bytesWritten)]]))

/-- (R355; R356; R357; R358; R401; R402) A posted IDENTITY or ATTEST whose address is 64-byte aligned in a writable
segment of its instance writes the certificates, or the attestation report over the nonce given, and answers OK;
at any other address it answers LOCAL_BOUNDS. The I3C port, out of OFF and with PORST_N high, answers the
identity record and its provisional ID, and BCR and DCR bytes that are free values, and takes and drops its
dynamic address. In service I3C_MBX_WR stores a request word of a door that is not BUSY, GO runs the request's
command, and the reads give the answer words and the status. -/
def Obligations.IdentityAndAttestationAreReported : Prop :=
  ∀ (s : State),
    (∀ (d : Door) (link : BitVec 2) u, u = took s d →
      (posted s d link.toNat 0x0062 1 false = true →
        (∀ x w, reportRange u d (reqWord s d 1) 8192 = some x →
          xlatWrite u x 0 ((Config.idCert ++ Config.caCert ++ akCert u).take 8192) = (w, .done) →
          exec (.identity d link) s = .next (retryEarly (answer w d St.ok
            [reg [(47, 32, (akCert u).length), (31, 16, Config.caCert.length), (15, 0, Config.idCert.length)]])))
        ∧ (reportRange u d (reqWord s d 1) 8192 = none →
          exec (.identity d link) s = .next (answer u d St.localBounds [])))
      ∧ (posted s d link.toNat 0x0063 1 false = true → ∀ x w, reportRange u d (reqWord s d 5) 256 = some x →
        xlatWrite u x 0 (attestation u (slice (reqBytes s d) 8 32)) = (w, .done) →
        exec (.attest d link) s = .next (retryEarly (answer w d St.ok []))))
    ∧ (i3cAnswers s = true →
      exec .i3cIdentity s = .next { s with out := .i3c (identityRecord s) :: s.out }
      ∧ exec .getpid s = .next { s with out := .i3c (beBytes 6 (0x1A5 * 2 ^ 33 + 0x9768 * 2 ^ 16 + s.pins.strap % 4)) :: s.out }
      ∧ exec .getbcr s = .next { s with
          draw := s.draw + 1, out := .i3c [(Config.freeValue s.draw).setWidth 8] :: s.out }
      ∧ exec .getdcr s = .next { s with
          draw := s.draw + 1, out := .i3c [(Config.freeValue s.draw).setWidth 8] :: s.out }
      ∧ exec .rstdaa s = .next { s with pins := { s.pins with i3cDyn := none } }
      ∧ (∀ a : BitVec 7, exec (.setdasa a) s = .next { s with pins := { s.pins with i3cDyn := some a.toNat } }
        ∧ (s.pins.i3cDyn = none → exec (.entdaa a) s = .next { s with pins := { s.pins with i3cDyn := some a.toNat } })
        ∧ (s.pins.i3cDyn ≠ none → exec (.entdaa a) s = .next s)))
    ∧ (s.inService = true → s.pins.porstLow = false →
      (∀ (w : Byte) (v : Word), w.toNat ≤ 63 → (s.door 128).busy = false →
        exec (.i3cMbxWr w v) s = .next (s.modDoor 128 (fun d => { d with req := d.req.put w.toNat v })))
      ∧ (posted s .i3c 0 0x0001 1 false = true →
        exec .i3cMbxGo s = .next (answer (took s .i3c) .i3c St.ok [mailInfo .i3c (reqFld s .i3c 8 2)]))
      ∧ (∀ w : Byte, w.toNat ≤ 7 → exec (.i3cMbxRd w) s = .next { s with
          out := .i3c (leBytes 8 ((s.door 128).resp.findD w.toNat 0).toNat) :: s.out })
      ∧ exec .i3cMbxStat s = .next { s with out := .i3c (leBytes 8 (reg (mbxStatus (s.door 128))).toNat) :: s.out })

/-- (R362; R363; R364; R365; R366; R367; R368; R393) MTR_VDD_RISE of a stopped island blows one more fuse up to
1,024 and starts every count from zero. MTR_VDD_FALL stops it and loses its counts. METER_PERIOD_CLOSE of a
running island comes at the next multiple of its period, counts the granules held and writes a record for each
instance that was not FREE and for the device. METER_RING_FLUSH in service puts the records held back into the
ring. The auditor's reads answer the identity, the certificate from an offset, the last sequence and a record by
its sequence, and change nothing else. SPOT of an instance number with fewer than ten in the last second keeps a
record of its nonce and answers its 256 bytes; the eleventh answers 0xFF bytes and keeps nothing. -/
def Obligations.TheIslandCountsAndRecords : Prop :=
  ∀ (s : State),
    (s.mtr.running = false →
      exec .mtrVddRise s = .next { s with mtr := { s.mtr with
        running := true, fuses := if s.mtr.fuses < 1024 then s.mtr.fuses + 1 else s.mtr.fuses, meters := Tbl.empty, gen := Tbl.empty
        seq := 0, prev := Tbl.empty, sram := [], ringHeld := [], notFree := notFreeNow s, period := 60, periodNext := 60
        lastClose := s.now, gmsAt := s.now / 1000000, rdSel := 0, spots := [] } })
    ∧ exec .mtrVddFall s = .next { s with mtr := { s.mtr with
        running := false, meters := Tbl.empty, gen := Tbl.empty, seq := 0, prev := Tbl.empty, sram := [], ringHeld := []
        notFree := [], spots := [] } }
    ∧ (s.mtr.running = true →
      (∀ t u v, t = closeTime s → u = countGranules (s.arriveAt t) →
        v = forEach (closeInsts u ++ [0xFF]) u (fun s i => writeRecord s i (timeDoubt s || decide (tickStart t < s.now)) false) →
        exec .meterPeriodClose s = .next { v with mtr := { v.mtr with
          lastClose := max v.now t, notFree := notFreeNow v, period := v.mtr.periodNext } })
      ∧ (s.inService = true → exec .meterRingFlush s = .next { s with mtr := { s.mtr with
          ring := (s.mtr.ringHeld.reverse ++ s.mtr.ring).take 16384, ringHeld := [] } })
      ∧ exec .mtrIdentity s = .next { s with out := .auditor (islandIdentity s) :: s.out }
      ∧ (∀ o : BitVec 16, exec (.cert o) s = .next { s with out := .auditor (slice certBytes o.toNat 256) :: s.out })
      ∧ exec .lastSeq s = .next { s with out := .auditor (leBytes 8 s.mtr.seq) :: s.out }
      ∧ (∀ n : Word, exec (.record n) s = .next { s with out := .auditor (sramRecord s n.toNat) :: s.out })
      ∧ (∀ (i : Byte) (nonce : BitVec 256) recent, recent = s.mtr.spots.filter (fun t => decide (s.now < t + 1000000000)) →
        (10 ≤ recent.length → exec (.spot i nonce) s = .next { s with out := .auditor (List.replicate 256 0xFF) :: s.out })
        ∧ (∀ u w, recent.length < 10 → (i.toNat < 128 ∨ i.toNat = 0xFF) →
          u = countGranules { s with mtr := { s.mtr with spots := s.now :: recent } } →
          w = makeRecord u i.toNat (timeDoubt u) false true nonce →
          exec (.spot i nonce) s = .next ((keepRecord u w).sent (.auditor (markBytes w))))))

/-- (R247; R323; R371; R374; R375; R376; R380) TST_LOOP_WRITE on a port that is off and that no plan uses, and
TST_PL_LOOP_WRITE on a link that is off, take their fields, a depth code above the last taken as 0; on one that
is on they change nothing. PHY_LOOP and SELF_TEST with both plan slots EMPTY, instances 1 to 127 FREE and no
test running start, and otherwise are refused with CODE MALFORMED. MEM_TEST_COMPLETE of PHY_LOOP ends it with no
failing word and the stacks that failed; of SELF_TEST with none failing it takes back the lines companions hold
there and zeroes the pool of the tested stacks. TST_INJECT_WRITE of an aligned pool word arms an injection of
its type, and of an address beyond the pool changes nothing. -/
def Obligations.LoopbacksAndMemoryTests : Prop :=
  ∀ (s : State) (link : BitVec 2) (v : Word),
    (∀ port : BitVec 4, taken s link.toNat (0xE0100 + 8 * port.toNat) loopRsvd v = true →
      (bit (s.port port.toNat).cfg 1 = false → planUses s port.toNat = false →
        exec (.tstLoopWrite link port v) s = .next { s with tst := { s.tst with
          loop := s.tst.loop.put port.toNat (loopValue v 4) } })
      ∧ ((bit (s.port port.toNat).cfg 1 = true ∨ planUses s port.toNat = true) →
        exec (.tstLoopWrite link port v) s = .next s))
    ∧ (∀ pl : BitVec 2, taken s link.toNat (0xE0200 + 8 * pl.toNat) loopRsvd v = true →
      (bit (s.link pl.toNat).cfg 0 = false →
        exec (.tstPlLoopWrite link pl v) s = .next { s with tst := { s.tst with
          plLoop := s.tst.plLoop.put pl.toNat (loopValue v 3) } })
      ∧ (bit (s.link pl.toNat).cfg 0 = true → exec (.tstPlLoopWrite link pl v) s = .next s))
    ∧ (∀ t, taken s link.toNat 0xE0400 [(63, 28), (15, 8)] v = true →
      t = (if memTestMay s then { s with tst := { s.tst with
          memDone := false, memCode := 0, memFails := 0, memFailed := 0
          memRunning := some (fld v 7 0, BitVec.ofNat 12 (fld v 27 16)) } }
        else { s with tst := { s.tst with memDone := false, memCode := 0x05 } }) →
      (fld v 7 0 = 1 → exec (.phyLoop link v) s = .next t) ∧ (fld v 7 0 = 2 → exec (.selfTest link v) s = .next t))
    ∧ (∀ st (failing : List (BitVec 40)) words, s.tst.memRunning = some (1, st) →
      words = ((failing.map (fun a => a.toNat / 8 * 8)).filter (testedAddr s st)).eraseDups →
      exec (.memTestComplete failing) s = .next { s with tst := { s.tst with
        memRunning := none, memDone := true, memCode := 0, memFails := 0
        memFailed := BitVec.ofNat 12 (bitsOf 12 (fun k => words.any (fun a => stackOf s.hbm a == k))) } })
    ∧ (∀ st, s.tst.memRunning = some (2, st) → testedAddr s st (fld s.tst.inject 39 0) = false →
      ∃ t, exec (.memTestComplete []) s = .next t
        ∧ t.tst = { s.tst with memRunning := none, memDone := true, memCode := 0, memFails := 0, memFailed := 0 }
        ∧ t = { s with tst := t.tst, mem := t.mem, hbm := t.hbm, links := t.links, out := t.out }
        ∧ (∀ a, testedAddr s st a = true → readByte t.mem a = 0)
        ∧ (∀ a, testedAddr s st a = false → readByte t.mem a = readByte s.mem a))
    ∧ (taken s link.toNat 0xE0410 [(61, 40)] v = true →
      (fld v 2 0 = 0 → fld v 39 0 < hbmAvail s.hbm * 2097152 →
        exec (.tstInjectWrite link v) s = .next { s with tst := { s.tst with
          inject := merge [(63, 62), (39, 0)] 0 v, injArmed := fld v 63 62 != 0 } })
      ∧ (hbmAvail s.hbm * 2097152 ≤ fld v 39 0 → exec (.tstInjectWrite link v) s = .next s))

/-- (R377; R386; R411) With the device not OFF and PORST_N high: BYPASS, IDCODE and SAMPLE/PRELOAD load themselves,
IDCODE answering 0x1976_834B; EXTEST, EXTEST_PULSE, EXTEST_TRAIN, CLAMP and HIGHZ load themselves out of service
or with SCAN_EN set, and BYPASS in service without it. With the device OFF or PORST_N low nothing loads. -/
def Obligations.BoundaryScanInstructionsLoad : Prop :=
  ∀ (s : State),
    (s.boot.phase ≠ .off → s.pins.porstLow = false →
      exec .bypass s = .next { s with tst := { s.tst with jtag := .bypass } }
      ∧ exec .samplePreload s = .next { s with tst := { s.tst with jtag := .samplePreload } }
      ∧ exec .idcode s = .next { s with
          tst := { s.tst with jtag := .idcode }, out := .jtag 0x1976834B :: s.out }
      ∧ (∀ b, b = (s.inService && !s.tst.scanEn) →
        exec .extest s = .next { s with tst := { s.tst with jtag := if b then .bypass else .extest } }
        ∧ exec .extestPulse s = .next { s with tst := { s.tst with jtag := if b then .bypass else .extestPulse } }
        ∧ exec .extestTrain s = .next { s with tst := { s.tst with jtag := if b then .bypass else .extestTrain } }
        ∧ exec .clamp s = .next { s with tst := { s.tst with jtag := if b then .bypass else .clamp } }
        ∧ exec .highz s = .next { s with tst := { s.tst with jtag := if b then .bypass else .highz } }))
    ∧ ((s.boot.phase = .off ∨ s.pins.porstLow = true) →
      exec .bypass s = .next s ∧ exec .idcode s = .next s ∧ exec .samplePreload s = .next s ∧ exec .extest s = .next s
      ∧ exec .extestPulse s = .next s ∧ exec .extestTrain s = .next s ∧ exec .clamp s = .next s ∧ exec .highz s = .next s)

/-- (R13) For every state with a command c at the front of its queue, step is exec of c on the state with the rest
of the queue. How commands wait is the model's own form (log entry 1). -/
def Obligations.AStepRunsTheCommandAtTheFront : Prop :=
  ∀ (s : State) (c : Instr) (rest : List Instr), s.pending = c :: rest → step s = exec c { s with pending := rest }

/-- (R13; R339) On an empty queue, a device that is not OFF ends the present tick, its waits evaluated, settles,
counts what its ports have stalled and sends the ACKs of collective pieces that are due; where no queue, wait,
slot or other work stands, that is fabric time moved on to the next tick of 16 ns, the causes looked at and the
stalls counted. A device that is OFF stays as it is. That a step without a command is a tick is the model's
choice (log entry 4). -/
def Obligations.AnEmptyQueueIsATickOfTheClock : Prop :=
  ∀ (s : State), s.pending = [] →
    (s.boot.phase ≠ .off → step s = .next (flushAcks (forEach s.ports.keys (settle (endTick s)) noteStalls)))
    ∧ (∀ u, s.boot.phase ≠ .off → s.queues.keys = [] → s.sync.waits = [] → s.coll.slots.keys = [] → s.now ≤ s.sync.tickAt →
      quiet s = true → u = s.arriveAt (s.now + 16) → u.now = max s.now (tickStart (s.now + 16))
        ∧ step s = .next (forEach s.ports.keys (noteCauses { u with sync := { u.sync with
          tickAt := u.now, before := Tbl.empty, ranks := Tbl.empty } }) noteStalls))
    ∧ (s.boot.phase = .off → step s = .next s)

/-- (R35; R155; R220; R222; R292; R300; R308; R321; R339; R394) State.reset has an empty queue, no memory listed and
every memory in canonical form, PORST_N low and the device OFF; FLL_CFG 200, 4,000 and 2 with EN and MODE 0;
FAB_CFG 32, 1, 1, 100 and 32; both banks RETIRED; PL_CFG with EN, CACHE_EN 1 and VER_MAX 2; the cap 700 W;
MGR_LINKS 0xF; instance 0 ACTIVE and every other FREE; every QP CLOSED. That a machine starts held in PORST_N is
the model's choice (log entry 2). -/
def Obligations.ResetLeavesTheValuesTheSpecGives : Prop :=
  State.reset.pending = [] ∧ MemInv State.reset ∧ State.reset.mem = [] ∧ State.reset.boot.phase = .off
    ∧ State.reset.pins.porstLow = true
    ∧ (∀ p, fld (State.reset.port p).cfg 63 48 = 200 ∧ fld (State.reset.port p).cfg 47 32 = 4000
      ∧ fld (State.reset.port p).cfg 5 4 = 2 ∧ fld (State.reset.port p).cfg 1 0 = 0 ∧ (State.reset.port p).cond = .down)
    ∧ fld State.reset.routing.cfg 63 48 = 32 ∧ fld State.reset.routing.cfg 47 40 = 1
    ∧ fld State.reset.routing.cfg 39 32 = 1 ∧ fld State.reset.routing.cfg 31 16 = 100 ∧ fld State.reset.routing.cfg 7 0 = 32
    ∧ (∀ b, (bankOf State.reset.routing b).cond = .retired)
    ∧ (∀ l, bit (State.reset.link l).cfg 0 = true ∧ bit (State.reset.link l).cfg 12 = true ∧ fld (State.reset.link l).cfg 5 4 = 2)
    ∧ State.reset.pwr.cap = 700 ∧ State.reset.ctrl.mgrLinks = 0xF
    ∧ (State.reset.inst 0).st = .active ∧ (∀ i, i ≠ 0 → (State.reset.inst i).st = .free) ∧ (∀ q, (State.reset.qp q).st = .closed)

/-- (R245; R253; R269; R302; R375) For every state whose five memories list rising addresses and no byte that reads
as an unlisted one, and for every command or tick, the next state's memories do so too. Equal memories are
therefore equal data after any run. -/
def Obligations.EveryStepKeepsMemoryCanonical : Prop :=
  ∀ (s t : State), MemInv s → step s = .next t → MemInv t

/-- (R343; R345; R352; R362) For every state and every command or tick, the next state's security version is at
least the old one, a blown halt fuse is still blown, the revocation fuses are the same, and the island's boot
count is at least the old one. Revocation changes only through an image the vendor signs for it, which runs
outside the commands of the table (R353). -/
def Obligations.NoStepClearsAFuse : Prop :=
  ∀ (s t : State), step s = .next t → FusesKept s t

/-- (R13) For every state and every next state of a step, the queue after it is the queue before it without its
front: no command adds, drops or reorders another. The queue itself is the model's own form (log entry 1). -/
def Obligations.CommandsAreTakenFirstInFirstOut : Prop :=
  ∀ (s t : State), step s = .next t → t.pending = s.pending.tail

/-- (R13; R305; R297) From every state a step has a next state: every command of the table has an effect in every
state of the block, were it to be ignored and counted. -/
def Obligations.EveryStepGoesOn : Prop :=
  ∀ s : State, Goes s

/-- (R253; R252) For every canonical memory, address and list of bytes: when the write is done its bytes read back;
every byte outside the range reads as before in any case. A word covered whole is not uncorrectable afterwards,
unless an injection is armed. A word that cannot be read and is covered only in part keeps its bytes and the
write ends MEMORY_UNCORRECTABLE. -/
def Obligations.HbmWritesReplaceWholeWords : Prop :=
  ∀ (s : State) (a : Nat) (bs : List Byte), Memory.wf s.mem = true →
    ((hbmWrite s a bs).2 = .done → readBytes (hbmWrite s a bs).1.mem a bs.length = bs)
    ∧ (∀ x, (x < a ∨ a + bs.length ≤ x) → readByte (hbmWrite s a bs).1.mem x = readByte s.mem x)
    ∧ (s.tst.injArmed = false → ∀ w ∈ wholeWords a bs.length, (hbmWrite s a bs).1.hbm.bad.contains w = false)
    ∧ (∀ w ∈ wordsOf a bs.length, wordBad s.hbm w = true → w ∉ wholeWords a bs.length →
      (∃ d, (hbmWrite s a bs).2 = .failed 0x09 d) ∧ ∀ x, x / 8 = w → readByte (hbmWrite s a bs).1.mem x = readByte s.mem x)

/-- (R86; R252; R253) For two held ranges of HBM of one length that do not overlap, with every word of both
readable, moving the bytes of a COPY ends OK, the destination then reads as the source read before, and every
byte outside the destination reads as before. -/
def Obligations.CopyMovesItsBytes : Prop :=
  ∀ (s : State) (src dst : Xlat), Memory.wf s.mem = true → src.board = false → dst.board = false → src.len = dst.len →
    sameMemory src dst = false → firstBad s.hbm src.addr src.len = none → firstBad s.hbm dst.addr dst.len = none →
    ∃ t, copyData s src dst = (t, 0, 0)
      ∧ readBytes t.mem dst.addr dst.len = readBytes s.mem src.addr src.len
      ∧ ∀ x, (x < dst.addr ∨ dst.addr + dst.len ≤ x) → readByte t.mem x = readByte s.mem x

/-- (R264; R300; R322; R334; R149) In a state with no couch copy and no restore in progress, no QP DRAINING, no
instance CALMING and no head that waits for its line or for landing space, settling leaves everything as it is
but the note of which causes stand, and of those that have set in this tick. -/
def Obligations.SettlingAQuietDevice : Prop :=
  ∀ s : State, quiet s = true → settle s = { s with flt := { s.flt with
    causesBefore := causes s
    rises := s.flt.rises.filter (fun r => r.2 == s.now || s.flt.raised.any (fun e => e.time == r.2))
      ++ ((List.range 8).filter (fun b => (causes s).getLsbD b && !s.flt.causesBefore.getLsbD b)).map
        (fun b => (b, s.now)) } }

/-- (R206) next_vc keeps VC0 whatever DL; a lower VC stays itself without a dateline and moves to the upper VC of
its pair with one; an upper VC stays itself without one and is invalid with one. Along any list of hops that a
frame on VC1 to VC6 survives, at most one crosses a dateline, and from an upper VC it stays there. -/
def Obligations.NextVcCrossesAtMostOneDateline : Prop :=
  (∀ dl, nextVc 0 dl = some 0)
    ∧ (∀ v ∈ [1, 3, 5], nextVc v false = some v ∧ nextVc v true = some (v + 1))
    ∧ (∀ v ∈ [2, 4, 6], nextVc v false = some v ∧ nextVc v true = none)
    ∧ (∀ (hops : List Bool) (v w : Nat), 1 ≤ v → v ≤ 6 → hops.foldlM nextVc v = some w →
      hops.count true ≤ 1 ∧ (v % 2 = 0 → w = v))

/-- (R25) For every sheet, VC and circuit: a sheet of kind 0 (UNPLANNED) and a port without a schedule admit exactly
VC0 to VC6; one of kind 1 (CIRCUIT) admits exactly VC0, and VC7 for the sheet's circuit; one of kind 2 (CLOSED)
admits exactly VC0. -/
def Obligations.SheetKindsAdmitTheirChannels : Prop :=
  ∀ (x : SheetNow) (vc c : Nat), vc ≤ 7 →
    (sheetKind x.entry = 0 → (admits (some x) vc c = true ↔ vc ≤ 6))
    ∧ (sheetKind x.entry = 1 → (admits (some x) vc c = true ↔ vc = 0 ∨ (vc = 7 ∧ c = sheetCircuit x.entry)))
    ∧ (sheetKind x.entry = 2 → (admits (some x) vc c = true ↔ vc = 0))
    ∧ (admits none vc c = true ↔ vc ≤ 6)

/-- (R324; R322) For every list of reported faults, what is appended is a rearrangement of it in which no entry
comes before one it should follow by TIME, then ENGINE, then OBJECT. -/
def Obligations.FaultEntriesAreOrdered : Prop :=
  ∀ es : List FaultEntry, (sortFaults es).Perm es
    ∧ (sortFaults es).Pairwise (fun a b => a.time < b.time ∨ (a.time = b.time ∧ (a.engine < b.engine
      ∨ (a.engine = b.engine ∧ a.object ≤ b.object))))

/-- (R167; R169; R170) For a range whose length is a multiple of GRAN, cut into n parts: part 0 begins at the
range's first element, each part ends where the next begins, and the last ends with the range. -/
def Obligations.PartsTileTheirRange : Prop :=
  ∀ (g a len n : Nat), 0 < g → 0 < n → g ∣ len →
    (partOf g a len 0 n).1 = a
    ∧ (∀ k, (partOf g a len k n).1 + (partOf g a len k n).2 = (partOf g a len (k + 1) n).1)
    ∧ (partOf g a len (n - 1) n).1 + (partOf g a len (n - 1) n).2 = a + len

/-- (R296; R297; R308) For every state in which a write arrives on a link that MGR_LINKS does not hold, and every
value: each command that writes a device-global register counts one refused access on the link, records it as
not served, and changes nothing else. -/
def Obligations.OnlyManagerLinksReachTheDevice : Prop :=
  ∀ (s : State) (link pl : BitVec 2) (port : BitVec 4) (v : Word) (no : Nat → State),
    arrives s link.toNat = true → s.ctrl.mgrLinks.testBit link.toNat = false →
    (∀ a, no a = { s with ctrl := { s.ctrl with
      refused := s.ctrl.refused.put link.toNat (wrap 32 (s.ctrl.refused.findD link.toNat 0 + 1))
      lastViol := reg [(63, 63, 1), (62, 61, link.toNat), (60, 56, 1), (33, 0, a)] } }) →
    exec (.timeCtrlWrite link v) s = .next (no 0x10000) ∧ exec (.timeEpochWrite link v) s = .next (no 0x10028)
    ∧ exec (.isobarArm link v) s = .next (no 0x10208) ∧ exec (.fllCfgWrite link port v) s = .next (no (0x60000 + 0x100 * port.toNat))
    ∧ exec (.fabNodeWrite link v) s = .next (no 0x61000) ∧ exec (.tableFrontWrite link v) s = .next (no 0x61020)
    ∧ exec (.routeTblDataWrite link v) s = .next (no 0x61030) ∧ exec (.plCfgWrite link pl v) s = .next (no (plAddr pl.toNat 0))
    ∧ exec (.forceDown link pl v) s = .next (no (plAddr pl.toNat 0x10)) ∧ exec (.pwrCapWrite link v) s = .next (no 0xA0000)
    ∧ exec (.coreAckWrite link v) s = .next (no 0xB0008) ∧ exec (.tstInjectWrite link v) s = .next (no 0xE0410)

/-- (R303; R305; R306) For a request that arrives at a served window door: while the door is BUSY its GO is ignored
and counted. At a door that is not BUSY and whose instance is not ACTIVE, FW_QUERY and QP_OPEN answer FLUSHED
and change nothing else; at an ACTIVE tenant's door FW_QUERY answers MALFORMED. An answer puts STATUS and TAG
into word 0 and the other words after it, clears BUSY, sets DONE, and fires the vector of a window's door when
it is enabled. -/
def Obligations.MailboxDoorsRefuseAndAnswer : Prop :=
  ∀ (s : State) (i : BitVec 7) (link : BitVec 2) (d : Door), d = .window i → arrives s link.toNat = true →
    serves s link.toNat (winAddr i.toNat 0x7240) = true →
    ((s.door i.toNat).busy = true →
      (reqCmd s d = 0x0061 → exec (.fwQuery d link) s = .next (s.modDoor i.toNat (fun x => { x with
        ignored := wrap 16 (x.ignored + 1) })))
      ∧ (reqCmd s d = 0x0040 → exec (.qpOpen d link) s = .next (s.modDoor i.toNat (fun x => { x with
        ignored := wrap 16 (x.ignored + 1) }))))
    ∧ ((s.door i.toNat).busy = false → (s.inst i.toNat).st ≠ .active →
      (reqCmd s d = 0x0061 → exec (.fwQuery d link) s = .next (answer (took s d) d 0x04 []))
      ∧ (reqCmd s d = 0x0040 → exec (.qpOpen d link) s = .next (answer (took s d) d 0x04 [])))
    ∧ ((s.door i.toNat).busy = false → (s.inst i.toNat).st = .active → i ≠ 0 → reqCmd s d = 0x0061 →
      exec (.fwQuery d link) s = .next (answer (took s d) d 0x05 []))
    ∧ (∀ st ws, ∃ t, answer s d st ws = (if (s.door i.toNat).vecEn then fireVector t (s.door i.toNat).vector else t)
      ∧ t = s.modDoor i.toNat (fun x => { x with
        resp := ⟨(List.range (ws.length + 1)).zip (reg [(63, 32, fld (reqWord s d 0) 63 32), (7, 0, st)] :: ws)⟩
        busy := false, done := true, tag := fld (reqWord s d 0) 63 32 }))
end

