-- ==== Sys2Proof/Laws/Access.lean ====
section
/-! SUPPORT. What the gates of the control space let through: a register write that is taken runs its effect,
and a request that is posted runs its command on the door turned BUSY. -/

namespace Sys2Proof.Machine

theorem ctlWrite_taken {s : State} {l a : Nat} {rsv : List (Nat × Nat)} {v : Word} (h : taken s l a rsv v = true)
    (f : State → State) : ctlWrite s l a rsv v f = f s := by
  simp only [taken, Bool.and_eq_true, beq_iff_eq] at h
  obtain ⟨⟨h1, h2⟩, h3⟩ := h
  simp [ctlWrite, h1, h2, h3]

theorem ctlDoorbell_taken {s : State} {l a : Nat} {rsv : List (Nat × Nat)} {v : Word} {held : Bool}
    (h : taken s l a rsv v = true) (hh : held = true) (f : State → State) : ctlDoorbell s l a held rsv v f = f s := by
  simp only [taken, Bool.and_eq_true, beq_iff_eq] at h
  obtain ⟨⟨h1, h2⟩, h3⟩ := h
  simp [ctlDoorbell, h1, h2, h3, hh]

theorem findD_put_same {α : Type} (t : Tbl α) (k : Nat) (v d : α) : (t.put k v).findD k d = v := by
  obtain ⟨c⟩ := t
  simp only [Tbl.findD, Tbl.find, Tbl.put]
  induction c with
  | nil => simp [Tbl.insertCell, Tbl.lookup]
  | cons x xs ih =>
    obtain ⟨j, w⟩ := x
    simp only [Tbl.insertCell]
    split
    · simp [Tbl.lookup]
    · split
      · simp [Tbl.lookup]
      · rename_i h1 h2
        simp only [Tbl.lookup]
        rw [if_neg (fun h => h2 h.symm)]
        exact ih

theorem took_door (s : State) (d : Door) :
    (took s d).door (doorKey d) = { s.door (doorKey d) with busy := true, done := false } := by
  simp [took, State.modDoor, State.door, Tbl.modifyD, findD_put_same]

theorem took_reqWord (s : State) (d : Door) (w : Nat) : reqWord (took s d) d w = reqWord s d w := by
  simp [reqWord, took_door]

theorem mailRow_posted {s : State} {d : Door} {l cmd ver : Nat} {mgr : Bool} {vs : List Nat}
    (h : posted s d l cmd ver mgr = true) (hv : vs.contains ver = true) (run : State → State) :
    mailRow s d l cmd (fun s => mailGate s d mgr vs run) = run (took s d) := by
  simp only [posted, Bool.and_eq_true, beq_iff_eq, Bool.not_eq_true'] at h
  obtain ⟨⟨⟨⟨⟨⟨h1, h2⟩, h3⟩, h4⟩, h5⟩, h6⟩, h7⟩ := h
  have e : mailGate s d mgr vs run = run (took s d) := by
    have h5' : fld (reqWord (took s d) d 0) 31 24 = 0 := by rw [took_reqWord]; exact h5
    have h6' : fld (reqWord (took s d) d 0) 23 16 = ver := by rw [took_reqWord]; exact h6
    have h4' : ((took s d).inst (doorInst d)).st = .active := h4
    unfold mailGate
    simp only [h2, Bool.false_eq_true, if_false]
    change (if reqCmd (took s d) d ≠ 1 ∧ ((took s d).inst (doorInst d)).st ≠ .active then _
      else if fld (reqWord (took s d) d 0) 31 24 ≠ 0 ∨ (!vs.contains (fld (reqWord (took s d) d 0) 23 16)) = true ∨ (mgr = true ∧ doorInst d ≠ 0) then _
      else run (took s d)) = _
    rw [if_neg (fun hh => hh.2 h4'), if_neg]
    rw [h5', h6', hv]
    cases mgr <;> simp_all
  cases d with
  | i3c => simp_all [mailRow]
  | window i =>
    simp only [Bool.and_eq_true] at h1
    obtain ⟨ha, hs⟩ := h1
    have : serves s l (winAddr (doorInst (.window i)) 0x7240) = true := hs
    simp only [mailRow, ha, this, h3]
    simpa using e

end Sys2Proof.Machine
end

