-- ==== Sys2Proof/Laws/State.lean ====
section
/-! SUPPORT. One lemma per field of the state and per named update: what the update leaves in the field. -/

namespace Sys2Proof.Machine

variable (s : State)

/-! #### State.modTime -/
@[simp] theorem State.modTime_pending (f : TimeUnit → TimeUnit) : (s.modTime f).pending = s.pending := rfl
@[simp] theorem State.modTime_draw (f : TimeUnit → TimeUnit) : (s.modTime f).draw = s.draw := rfl
@[simp] theorem State.modTime_time (f : TimeUnit → TimeUnit) : (s.modTime f).time = f s.time := rfl
@[simp] theorem State.modTime_plans (f : TimeUnit → TimeUnit) : (s.modTime f).plans = s.plans := rfl
@[simp] theorem State.modTime_queues (f : TimeUnit → TimeUnit) : (s.modTime f).queues = s.queues := rfl
@[simp] theorem State.modTime_rings (f : TimeUnit → TimeUnit) : (s.modTime f).rings = s.rings := rfl
@[simp] theorem State.modTime_sync (f : TimeUnit → TimeUnit) : (s.modTime f).sync = s.sync := rfl
@[simp] theorem State.modTime_qps (f : TimeUnit → TimeUnit) : (s.modTime f).qps = s.qps := rfl
@[simp] theorem State.modTime_tp (f : TimeUnit → TimeUnit) : (s.modTime f).tp = s.tp := rfl
@[simp] theorem State.modTime_coll (f : TimeUnit → TimeUnit) : (s.modTime f).coll = s.coll := rfl
@[simp] theorem State.modTime_ports (f : TimeUnit → TimeUnit) : (s.modTime f).ports = s.ports := rfl
@[simp] theorem State.modTime_routing (f : TimeUnit → TimeUnit) : (s.modTime f).routing = s.routing := rfl
@[simp] theorem State.modTime_eth (f : TimeUnit → TimeUnit) : (s.modTime f).eth = s.eth := rfl
@[simp] theorem State.modTime_hbm (f : TimeUnit → TimeUnit) : (s.modTime f).hbm = s.hbm := rfl
@[simp] theorem State.modTime_mem (f : TimeUnit → TimeUnit) : (s.modTime f).mem = s.mem := rfl
@[simp] theorem State.modTime_board0 (f : TimeUnit → TimeUnit) : (s.modTime f).board0 = s.board0 := rfl
@[simp] theorem State.modTime_board1 (f : TimeUnit → TimeUnit) : (s.modTime f).board1 = s.board1 := rfl
@[simp] theorem State.modTime_board2 (f : TimeUnit → TimeUnit) : (s.modTime f).board2 = s.board2 := rfl
@[simp] theorem State.modTime_board3 (f : TimeUnit → TimeUnit) : (s.modTime f).board3 = s.board3 := rfl
@[simp] theorem State.modTime_couch (f : TimeUnit → TimeUnit) : (s.modTime f).couch = s.couch := rfl
@[simp] theorem State.modTime_links (f : TimeUnit → TimeUnit) : (s.modTime f).links = s.links := rfl
@[simp] theorem State.modTime_vectors (f : TimeUnit → TimeUnit) : (s.modTime f).vectors = s.vectors := rfl
@[simp] theorem State.modTime_insts (f : TimeUnit → TimeUnit) : (s.modTime f).insts = s.insts := rfl
@[simp] theorem State.modTime_doors (f : TimeUnit → TimeUnit) : (s.modTime f).doors = s.doors := rfl
@[simp] theorem State.modTime_ctrl (f : TimeUnit → TimeUnit) : (s.modTime f).ctrl = s.ctrl := rfl
@[simp] theorem State.modTime_pwr (f : TimeUnit → TimeUnit) : (s.modTime f).pwr = s.pwr := rfl
@[simp] theorem State.modTime_flt (f : TimeUnit → TimeUnit) : (s.modTime f).flt = s.flt := rfl
@[simp] theorem State.modTime_boot (f : TimeUnit → TimeUnit) : (s.modTime f).boot = s.boot := rfl
@[simp] theorem State.modTime_mtr (f : TimeUnit → TimeUnit) : (s.modTime f).mtr = s.mtr := rfl
@[simp] theorem State.modTime_tst (f : TimeUnit → TimeUnit) : (s.modTime f).tst = s.tst := rfl
@[simp] theorem State.modTime_pins (f : TimeUnit → TimeUnit) : (s.modTime f).pins = s.pins := rfl
@[simp] theorem State.modTime_inbox (f : TimeUnit → TimeUnit) : (s.modTime f).inbox = s.inbox := rfl
@[simp] theorem State.modTime_out (f : TimeUnit → TimeUnit) : (s.modTime f).out = s.out := rfl

/-! #### State.modPlans -/
@[simp] theorem State.modPlans_pending (f : PlanSlots → PlanSlots) : (s.modPlans f).pending = s.pending := rfl
@[simp] theorem State.modPlans_draw (f : PlanSlots → PlanSlots) : (s.modPlans f).draw = s.draw := rfl
@[simp] theorem State.modPlans_time (f : PlanSlots → PlanSlots) : (s.modPlans f).time = s.time := rfl
@[simp] theorem State.modPlans_plans (f : PlanSlots → PlanSlots) : (s.modPlans f).plans = f s.plans := rfl
@[simp] theorem State.modPlans_queues (f : PlanSlots → PlanSlots) : (s.modPlans f).queues = s.queues := rfl
@[simp] theorem State.modPlans_rings (f : PlanSlots → PlanSlots) : (s.modPlans f).rings = s.rings := rfl
@[simp] theorem State.modPlans_sync (f : PlanSlots → PlanSlots) : (s.modPlans f).sync = s.sync := rfl
@[simp] theorem State.modPlans_qps (f : PlanSlots → PlanSlots) : (s.modPlans f).qps = s.qps := rfl
@[simp] theorem State.modPlans_tp (f : PlanSlots → PlanSlots) : (s.modPlans f).tp = s.tp := rfl
@[simp] theorem State.modPlans_coll (f : PlanSlots → PlanSlots) : (s.modPlans f).coll = s.coll := rfl
@[simp] theorem State.modPlans_ports (f : PlanSlots → PlanSlots) : (s.modPlans f).ports = s.ports := rfl
@[simp] theorem State.modPlans_routing (f : PlanSlots → PlanSlots) : (s.modPlans f).routing = s.routing := rfl
@[simp] theorem State.modPlans_eth (f : PlanSlots → PlanSlots) : (s.modPlans f).eth = s.eth := rfl
@[simp] theorem State.modPlans_hbm (f : PlanSlots → PlanSlots) : (s.modPlans f).hbm = s.hbm := rfl
@[simp] theorem State.modPlans_mem (f : PlanSlots → PlanSlots) : (s.modPlans f).mem = s.mem := rfl
@[simp] theorem State.modPlans_board0 (f : PlanSlots → PlanSlots) : (s.modPlans f).board0 = s.board0 := rfl
@[simp] theorem State.modPlans_board1 (f : PlanSlots → PlanSlots) : (s.modPlans f).board1 = s.board1 := rfl
@[simp] theorem State.modPlans_board2 (f : PlanSlots → PlanSlots) : (s.modPlans f).board2 = s.board2 := rfl
@[simp] theorem State.modPlans_board3 (f : PlanSlots → PlanSlots) : (s.modPlans f).board3 = s.board3 := rfl
@[simp] theorem State.modPlans_couch (f : PlanSlots → PlanSlots) : (s.modPlans f).couch = s.couch := rfl
@[simp] theorem State.modPlans_links (f : PlanSlots → PlanSlots) : (s.modPlans f).links = s.links := rfl
@[simp] theorem State.modPlans_vectors (f : PlanSlots → PlanSlots) : (s.modPlans f).vectors = s.vectors := rfl
@[simp] theorem State.modPlans_insts (f : PlanSlots → PlanSlots) : (s.modPlans f).insts = s.insts := rfl
@[simp] theorem State.modPlans_doors (f : PlanSlots → PlanSlots) : (s.modPlans f).doors = s.doors := rfl
@[simp] theorem State.modPlans_ctrl (f : PlanSlots → PlanSlots) : (s.modPlans f).ctrl = s.ctrl := rfl
@[simp] theorem State.modPlans_pwr (f : PlanSlots → PlanSlots) : (s.modPlans f).pwr = s.pwr := rfl
@[simp] theorem State.modPlans_flt (f : PlanSlots → PlanSlots) : (s.modPlans f).flt = s.flt := rfl
@[simp] theorem State.modPlans_boot (f : PlanSlots → PlanSlots) : (s.modPlans f).boot = s.boot := rfl
@[simp] theorem State.modPlans_mtr (f : PlanSlots → PlanSlots) : (s.modPlans f).mtr = s.mtr := rfl
@[simp] theorem State.modPlans_tst (f : PlanSlots → PlanSlots) : (s.modPlans f).tst = s.tst := rfl
@[simp] theorem State.modPlans_pins (f : PlanSlots → PlanSlots) : (s.modPlans f).pins = s.pins := rfl
@[simp] theorem State.modPlans_inbox (f : PlanSlots → PlanSlots) : (s.modPlans f).inbox = s.inbox := rfl
@[simp] theorem State.modPlans_out (f : PlanSlots → PlanSlots) : (s.modPlans f).out = s.out := rfl

/-! #### State.modFlt -/
@[simp] theorem State.modFlt_pending (f : Faults → Faults) : (s.modFlt f).pending = s.pending := rfl
@[simp] theorem State.modFlt_draw (f : Faults → Faults) : (s.modFlt f).draw = s.draw := rfl
@[simp] theorem State.modFlt_time (f : Faults → Faults) : (s.modFlt f).time = s.time := rfl
@[simp] theorem State.modFlt_plans (f : Faults → Faults) : (s.modFlt f).plans = s.plans := rfl
@[simp] theorem State.modFlt_queues (f : Faults → Faults) : (s.modFlt f).queues = s.queues := rfl
@[simp] theorem State.modFlt_rings (f : Faults → Faults) : (s.modFlt f).rings = s.rings := rfl
@[simp] theorem State.modFlt_sync (f : Faults → Faults) : (s.modFlt f).sync = s.sync := rfl
@[simp] theorem State.modFlt_qps (f : Faults → Faults) : (s.modFlt f).qps = s.qps := rfl
@[simp] theorem State.modFlt_tp (f : Faults → Faults) : (s.modFlt f).tp = s.tp := rfl
@[simp] theorem State.modFlt_coll (f : Faults → Faults) : (s.modFlt f).coll = s.coll := rfl
@[simp] theorem State.modFlt_ports (f : Faults → Faults) : (s.modFlt f).ports = s.ports := rfl
@[simp] theorem State.modFlt_routing (f : Faults → Faults) : (s.modFlt f).routing = s.routing := rfl
@[simp] theorem State.modFlt_eth (f : Faults → Faults) : (s.modFlt f).eth = s.eth := rfl
@[simp] theorem State.modFlt_hbm (f : Faults → Faults) : (s.modFlt f).hbm = s.hbm := rfl
@[simp] theorem State.modFlt_mem (f : Faults → Faults) : (s.modFlt f).mem = s.mem := rfl
@[simp] theorem State.modFlt_board0 (f : Faults → Faults) : (s.modFlt f).board0 = s.board0 := rfl
@[simp] theorem State.modFlt_board1 (f : Faults → Faults) : (s.modFlt f).board1 = s.board1 := rfl
@[simp] theorem State.modFlt_board2 (f : Faults → Faults) : (s.modFlt f).board2 = s.board2 := rfl
@[simp] theorem State.modFlt_board3 (f : Faults → Faults) : (s.modFlt f).board3 = s.board3 := rfl
@[simp] theorem State.modFlt_couch (f : Faults → Faults) : (s.modFlt f).couch = s.couch := rfl
@[simp] theorem State.modFlt_links (f : Faults → Faults) : (s.modFlt f).links = s.links := rfl
@[simp] theorem State.modFlt_vectors (f : Faults → Faults) : (s.modFlt f).vectors = s.vectors := rfl
@[simp] theorem State.modFlt_insts (f : Faults → Faults) : (s.modFlt f).insts = s.insts := rfl
@[simp] theorem State.modFlt_doors (f : Faults → Faults) : (s.modFlt f).doors = s.doors := rfl
@[simp] theorem State.modFlt_ctrl (f : Faults → Faults) : (s.modFlt f).ctrl = s.ctrl := rfl
@[simp] theorem State.modFlt_pwr (f : Faults → Faults) : (s.modFlt f).pwr = s.pwr := rfl
@[simp] theorem State.modFlt_flt (f : Faults → Faults) : (s.modFlt f).flt = f s.flt := rfl
@[simp] theorem State.modFlt_boot (f : Faults → Faults) : (s.modFlt f).boot = s.boot := rfl
@[simp] theorem State.modFlt_mtr (f : Faults → Faults) : (s.modFlt f).mtr = s.mtr := rfl
@[simp] theorem State.modFlt_tst (f : Faults → Faults) : (s.modFlt f).tst = s.tst := rfl
@[simp] theorem State.modFlt_pins (f : Faults → Faults) : (s.modFlt f).pins = s.pins := rfl
@[simp] theorem State.modFlt_inbox (f : Faults → Faults) : (s.modFlt f).inbox = s.inbox := rfl
@[simp] theorem State.modFlt_out (f : Faults → Faults) : (s.modFlt f).out = s.out := rfl

/-! #### State.modPwr -/
@[simp] theorem State.modPwr_pending (f : Power → Power) : (s.modPwr f).pending = s.pending := rfl
@[simp] theorem State.modPwr_draw (f : Power → Power) : (s.modPwr f).draw = s.draw := rfl
@[simp] theorem State.modPwr_time (f : Power → Power) : (s.modPwr f).time = s.time := rfl
@[simp] theorem State.modPwr_plans (f : Power → Power) : (s.modPwr f).plans = s.plans := rfl
@[simp] theorem State.modPwr_queues (f : Power → Power) : (s.modPwr f).queues = s.queues := rfl
@[simp] theorem State.modPwr_rings (f : Power → Power) : (s.modPwr f).rings = s.rings := rfl
@[simp] theorem State.modPwr_sync (f : Power → Power) : (s.modPwr f).sync = s.sync := rfl
@[simp] theorem State.modPwr_qps (f : Power → Power) : (s.modPwr f).qps = s.qps := rfl
@[simp] theorem State.modPwr_tp (f : Power → Power) : (s.modPwr f).tp = s.tp := rfl
@[simp] theorem State.modPwr_coll (f : Power → Power) : (s.modPwr f).coll = s.coll := rfl
@[simp] theorem State.modPwr_ports (f : Power → Power) : (s.modPwr f).ports = s.ports := rfl
@[simp] theorem State.modPwr_routing (f : Power → Power) : (s.modPwr f).routing = s.routing := rfl
@[simp] theorem State.modPwr_eth (f : Power → Power) : (s.modPwr f).eth = s.eth := rfl
@[simp] theorem State.modPwr_hbm (f : Power → Power) : (s.modPwr f).hbm = s.hbm := rfl
@[simp] theorem State.modPwr_mem (f : Power → Power) : (s.modPwr f).mem = s.mem := rfl
@[simp] theorem State.modPwr_board0 (f : Power → Power) : (s.modPwr f).board0 = s.board0 := rfl
@[simp] theorem State.modPwr_board1 (f : Power → Power) : (s.modPwr f).board1 = s.board1 := rfl
@[simp] theorem State.modPwr_board2 (f : Power → Power) : (s.modPwr f).board2 = s.board2 := rfl
@[simp] theorem State.modPwr_board3 (f : Power → Power) : (s.modPwr f).board3 = s.board3 := rfl
@[simp] theorem State.modPwr_couch (f : Power → Power) : (s.modPwr f).couch = s.couch := rfl
@[simp] theorem State.modPwr_links (f : Power → Power) : (s.modPwr f).links = s.links := rfl
@[simp] theorem State.modPwr_vectors (f : Power → Power) : (s.modPwr f).vectors = s.vectors := rfl
@[simp] theorem State.modPwr_insts (f : Power → Power) : (s.modPwr f).insts = s.insts := rfl
@[simp] theorem State.modPwr_doors (f : Power → Power) : (s.modPwr f).doors = s.doors := rfl
@[simp] theorem State.modPwr_ctrl (f : Power → Power) : (s.modPwr f).ctrl = s.ctrl := rfl
@[simp] theorem State.modPwr_pwr (f : Power → Power) : (s.modPwr f).pwr = f s.pwr := rfl
@[simp] theorem State.modPwr_flt (f : Power → Power) : (s.modPwr f).flt = s.flt := rfl
@[simp] theorem State.modPwr_boot (f : Power → Power) : (s.modPwr f).boot = s.boot := rfl
@[simp] theorem State.modPwr_mtr (f : Power → Power) : (s.modPwr f).mtr = s.mtr := rfl
@[simp] theorem State.modPwr_tst (f : Power → Power) : (s.modPwr f).tst = s.tst := rfl
@[simp] theorem State.modPwr_pins (f : Power → Power) : (s.modPwr f).pins = s.pins := rfl
@[simp] theorem State.modPwr_inbox (f : Power → Power) : (s.modPwr f).inbox = s.inbox := rfl
@[simp] theorem State.modPwr_out (f : Power → Power) : (s.modPwr f).out = s.out := rfl

/-! #### State.modHbm -/
@[simp] theorem State.modHbm_pending (f : Hbm → Hbm) : (s.modHbm f).pending = s.pending := rfl
@[simp] theorem State.modHbm_draw (f : Hbm → Hbm) : (s.modHbm f).draw = s.draw := rfl
@[simp] theorem State.modHbm_time (f : Hbm → Hbm) : (s.modHbm f).time = s.time := rfl
@[simp] theorem State.modHbm_plans (f : Hbm → Hbm) : (s.modHbm f).plans = s.plans := rfl
@[simp] theorem State.modHbm_queues (f : Hbm → Hbm) : (s.modHbm f).queues = s.queues := rfl
@[simp] theorem State.modHbm_rings (f : Hbm → Hbm) : (s.modHbm f).rings = s.rings := rfl
@[simp] theorem State.modHbm_sync (f : Hbm → Hbm) : (s.modHbm f).sync = s.sync := rfl
@[simp] theorem State.modHbm_qps (f : Hbm → Hbm) : (s.modHbm f).qps = s.qps := rfl
@[simp] theorem State.modHbm_tp (f : Hbm → Hbm) : (s.modHbm f).tp = s.tp := rfl
@[simp] theorem State.modHbm_coll (f : Hbm → Hbm) : (s.modHbm f).coll = s.coll := rfl
@[simp] theorem State.modHbm_ports (f : Hbm → Hbm) : (s.modHbm f).ports = s.ports := rfl
@[simp] theorem State.modHbm_routing (f : Hbm → Hbm) : (s.modHbm f).routing = s.routing := rfl
@[simp] theorem State.modHbm_eth (f : Hbm → Hbm) : (s.modHbm f).eth = s.eth := rfl
@[simp] theorem State.modHbm_hbm (f : Hbm → Hbm) : (s.modHbm f).hbm = f s.hbm := rfl
@[simp] theorem State.modHbm_mem (f : Hbm → Hbm) : (s.modHbm f).mem = s.mem := rfl
@[simp] theorem State.modHbm_board0 (f : Hbm → Hbm) : (s.modHbm f).board0 = s.board0 := rfl
@[simp] theorem State.modHbm_board1 (f : Hbm → Hbm) : (s.modHbm f).board1 = s.board1 := rfl
@[simp] theorem State.modHbm_board2 (f : Hbm → Hbm) : (s.modHbm f).board2 = s.board2 := rfl
@[simp] theorem State.modHbm_board3 (f : Hbm → Hbm) : (s.modHbm f).board3 = s.board3 := rfl
@[simp] theorem State.modHbm_couch (f : Hbm → Hbm) : (s.modHbm f).couch = s.couch := rfl
@[simp] theorem State.modHbm_links (f : Hbm → Hbm) : (s.modHbm f).links = s.links := rfl
@[simp] theorem State.modHbm_vectors (f : Hbm → Hbm) : (s.modHbm f).vectors = s.vectors := rfl
@[simp] theorem State.modHbm_insts (f : Hbm → Hbm) : (s.modHbm f).insts = s.insts := rfl
@[simp] theorem State.modHbm_doors (f : Hbm → Hbm) : (s.modHbm f).doors = s.doors := rfl
@[simp] theorem State.modHbm_ctrl (f : Hbm → Hbm) : (s.modHbm f).ctrl = s.ctrl := rfl
@[simp] theorem State.modHbm_pwr (f : Hbm → Hbm) : (s.modHbm f).pwr = s.pwr := rfl
@[simp] theorem State.modHbm_flt (f : Hbm → Hbm) : (s.modHbm f).flt = s.flt := rfl
@[simp] theorem State.modHbm_boot (f : Hbm → Hbm) : (s.modHbm f).boot = s.boot := rfl
@[simp] theorem State.modHbm_mtr (f : Hbm → Hbm) : (s.modHbm f).mtr = s.mtr := rfl
@[simp] theorem State.modHbm_tst (f : Hbm → Hbm) : (s.modHbm f).tst = s.tst := rfl
@[simp] theorem State.modHbm_pins (f : Hbm → Hbm) : (s.modHbm f).pins = s.pins := rfl
@[simp] theorem State.modHbm_inbox (f : Hbm → Hbm) : (s.modHbm f).inbox = s.inbox := rfl
@[simp] theorem State.modHbm_out (f : Hbm → Hbm) : (s.modHbm f).out = s.out := rfl

/-! #### State.modMtr -/
@[simp] theorem State.modMtr_pending (f : Island → Island) : (s.modMtr f).pending = s.pending := rfl
@[simp] theorem State.modMtr_draw (f : Island → Island) : (s.modMtr f).draw = s.draw := rfl
@[simp] theorem State.modMtr_time (f : Island → Island) : (s.modMtr f).time = s.time := rfl
@[simp] theorem State.modMtr_plans (f : Island → Island) : (s.modMtr f).plans = s.plans := rfl
@[simp] theorem State.modMtr_queues (f : Island → Island) : (s.modMtr f).queues = s.queues := rfl
@[simp] theorem State.modMtr_rings (f : Island → Island) : (s.modMtr f).rings = s.rings := rfl
@[simp] theorem State.modMtr_sync (f : Island → Island) : (s.modMtr f).sync = s.sync := rfl
@[simp] theorem State.modMtr_qps (f : Island → Island) : (s.modMtr f).qps = s.qps := rfl
@[simp] theorem State.modMtr_tp (f : Island → Island) : (s.modMtr f).tp = s.tp := rfl
@[simp] theorem State.modMtr_coll (f : Island → Island) : (s.modMtr f).coll = s.coll := rfl
@[simp] theorem State.modMtr_ports (f : Island → Island) : (s.modMtr f).ports = s.ports := rfl
@[simp] theorem State.modMtr_routing (f : Island → Island) : (s.modMtr f).routing = s.routing := rfl
@[simp] theorem State.modMtr_eth (f : Island → Island) : (s.modMtr f).eth = s.eth := rfl
@[simp] theorem State.modMtr_hbm (f : Island → Island) : (s.modMtr f).hbm = s.hbm := rfl
@[simp] theorem State.modMtr_mem (f : Island → Island) : (s.modMtr f).mem = s.mem := rfl
@[simp] theorem State.modMtr_board0 (f : Island → Island) : (s.modMtr f).board0 = s.board0 := rfl
@[simp] theorem State.modMtr_board1 (f : Island → Island) : (s.modMtr f).board1 = s.board1 := rfl
@[simp] theorem State.modMtr_board2 (f : Island → Island) : (s.modMtr f).board2 = s.board2 := rfl
@[simp] theorem State.modMtr_board3 (f : Island → Island) : (s.modMtr f).board3 = s.board3 := rfl
@[simp] theorem State.modMtr_couch (f : Island → Island) : (s.modMtr f).couch = s.couch := rfl
@[simp] theorem State.modMtr_links (f : Island → Island) : (s.modMtr f).links = s.links := rfl
@[simp] theorem State.modMtr_vectors (f : Island → Island) : (s.modMtr f).vectors = s.vectors := rfl
@[simp] theorem State.modMtr_insts (f : Island → Island) : (s.modMtr f).insts = s.insts := rfl
@[simp] theorem State.modMtr_doors (f : Island → Island) : (s.modMtr f).doors = s.doors := rfl
@[simp] theorem State.modMtr_ctrl (f : Island → Island) : (s.modMtr f).ctrl = s.ctrl := rfl
@[simp] theorem State.modMtr_pwr (f : Island → Island) : (s.modMtr f).pwr = s.pwr := rfl
@[simp] theorem State.modMtr_flt (f : Island → Island) : (s.modMtr f).flt = s.flt := rfl
@[simp] theorem State.modMtr_boot (f : Island → Island) : (s.modMtr f).boot = s.boot := rfl
@[simp] theorem State.modMtr_mtr (f : Island → Island) : (s.modMtr f).mtr = f s.mtr := rfl
@[simp] theorem State.modMtr_tst (f : Island → Island) : (s.modMtr f).tst = s.tst := rfl
@[simp] theorem State.modMtr_pins (f : Island → Island) : (s.modMtr f).pins = s.pins := rfl
@[simp] theorem State.modMtr_inbox (f : Island → Island) : (s.modMtr f).inbox = s.inbox := rfl
@[simp] theorem State.modMtr_out (f : Island → Island) : (s.modMtr f).out = s.out := rfl

/-! #### State.modBoot -/
@[simp] theorem State.modBoot_pending (f : Boot → Boot) : (s.modBoot f).pending = s.pending := rfl
@[simp] theorem State.modBoot_draw (f : Boot → Boot) : (s.modBoot f).draw = s.draw := rfl
@[simp] theorem State.modBoot_time (f : Boot → Boot) : (s.modBoot f).time = s.time := rfl
@[simp] theorem State.modBoot_plans (f : Boot → Boot) : (s.modBoot f).plans = s.plans := rfl
@[simp] theorem State.modBoot_queues (f : Boot → Boot) : (s.modBoot f).queues = s.queues := rfl
@[simp] theorem State.modBoot_rings (f : Boot → Boot) : (s.modBoot f).rings = s.rings := rfl
@[simp] theorem State.modBoot_sync (f : Boot → Boot) : (s.modBoot f).sync = s.sync := rfl
@[simp] theorem State.modBoot_qps (f : Boot → Boot) : (s.modBoot f).qps = s.qps := rfl
@[simp] theorem State.modBoot_tp (f : Boot → Boot) : (s.modBoot f).tp = s.tp := rfl
@[simp] theorem State.modBoot_coll (f : Boot → Boot) : (s.modBoot f).coll = s.coll := rfl
@[simp] theorem State.modBoot_ports (f : Boot → Boot) : (s.modBoot f).ports = s.ports := rfl
@[simp] theorem State.modBoot_routing (f : Boot → Boot) : (s.modBoot f).routing = s.routing := rfl
@[simp] theorem State.modBoot_eth (f : Boot → Boot) : (s.modBoot f).eth = s.eth := rfl
@[simp] theorem State.modBoot_hbm (f : Boot → Boot) : (s.modBoot f).hbm = s.hbm := rfl
@[simp] theorem State.modBoot_mem (f : Boot → Boot) : (s.modBoot f).mem = s.mem := rfl
@[simp] theorem State.modBoot_board0 (f : Boot → Boot) : (s.modBoot f).board0 = s.board0 := rfl
@[simp] theorem State.modBoot_board1 (f : Boot → Boot) : (s.modBoot f).board1 = s.board1 := rfl
@[simp] theorem State.modBoot_board2 (f : Boot → Boot) : (s.modBoot f).board2 = s.board2 := rfl
@[simp] theorem State.modBoot_board3 (f : Boot → Boot) : (s.modBoot f).board3 = s.board3 := rfl
@[simp] theorem State.modBoot_couch (f : Boot → Boot) : (s.modBoot f).couch = s.couch := rfl
@[simp] theorem State.modBoot_links (f : Boot → Boot) : (s.modBoot f).links = s.links := rfl
@[simp] theorem State.modBoot_vectors (f : Boot → Boot) : (s.modBoot f).vectors = s.vectors := rfl
@[simp] theorem State.modBoot_insts (f : Boot → Boot) : (s.modBoot f).insts = s.insts := rfl
@[simp] theorem State.modBoot_doors (f : Boot → Boot) : (s.modBoot f).doors = s.doors := rfl
@[simp] theorem State.modBoot_ctrl (f : Boot → Boot) : (s.modBoot f).ctrl = s.ctrl := rfl
@[simp] theorem State.modBoot_pwr (f : Boot → Boot) : (s.modBoot f).pwr = s.pwr := rfl
@[simp] theorem State.modBoot_flt (f : Boot → Boot) : (s.modBoot f).flt = s.flt := rfl
@[simp] theorem State.modBoot_boot (f : Boot → Boot) : (s.modBoot f).boot = f s.boot := rfl
@[simp] theorem State.modBoot_mtr (f : Boot → Boot) : (s.modBoot f).mtr = s.mtr := rfl
@[simp] theorem State.modBoot_tst (f : Boot → Boot) : (s.modBoot f).tst = s.tst := rfl
@[simp] theorem State.modBoot_pins (f : Boot → Boot) : (s.modBoot f).pins = s.pins := rfl
@[simp] theorem State.modBoot_inbox (f : Boot → Boot) : (s.modBoot f).inbox = s.inbox := rfl
@[simp] theorem State.modBoot_out (f : Boot → Boot) : (s.modBoot f).out = s.out := rfl

/-! #### State.modTst -/
@[simp] theorem State.modTst_pending (f : Test → Test) : (s.modTst f).pending = s.pending := rfl
@[simp] theorem State.modTst_draw (f : Test → Test) : (s.modTst f).draw = s.draw := rfl
@[simp] theorem State.modTst_time (f : Test → Test) : (s.modTst f).time = s.time := rfl
@[simp] theorem State.modTst_plans (f : Test → Test) : (s.modTst f).plans = s.plans := rfl
@[simp] theorem State.modTst_queues (f : Test → Test) : (s.modTst f).queues = s.queues := rfl
@[simp] theorem State.modTst_rings (f : Test → Test) : (s.modTst f).rings = s.rings := rfl
@[simp] theorem State.modTst_sync (f : Test → Test) : (s.modTst f).sync = s.sync := rfl
@[simp] theorem State.modTst_qps (f : Test → Test) : (s.modTst f).qps = s.qps := rfl
@[simp] theorem State.modTst_tp (f : Test → Test) : (s.modTst f).tp = s.tp := rfl
@[simp] theorem State.modTst_coll (f : Test → Test) : (s.modTst f).coll = s.coll := rfl
@[simp] theorem State.modTst_ports (f : Test → Test) : (s.modTst f).ports = s.ports := rfl
@[simp] theorem State.modTst_routing (f : Test → Test) : (s.modTst f).routing = s.routing := rfl
@[simp] theorem State.modTst_eth (f : Test → Test) : (s.modTst f).eth = s.eth := rfl
@[simp] theorem State.modTst_hbm (f : Test → Test) : (s.modTst f).hbm = s.hbm := rfl
@[simp] theorem State.modTst_mem (f : Test → Test) : (s.modTst f).mem = s.mem := rfl
@[simp] theorem State.modTst_board0 (f : Test → Test) : (s.modTst f).board0 = s.board0 := rfl
@[simp] theorem State.modTst_board1 (f : Test → Test) : (s.modTst f).board1 = s.board1 := rfl
@[simp] theorem State.modTst_board2 (f : Test → Test) : (s.modTst f).board2 = s.board2 := rfl
@[simp] theorem State.modTst_board3 (f : Test → Test) : (s.modTst f).board3 = s.board3 := rfl
@[simp] theorem State.modTst_couch (f : Test → Test) : (s.modTst f).couch = s.couch := rfl
@[simp] theorem State.modTst_links (f : Test → Test) : (s.modTst f).links = s.links := rfl
@[simp] theorem State.modTst_vectors (f : Test → Test) : (s.modTst f).vectors = s.vectors := rfl
@[simp] theorem State.modTst_insts (f : Test → Test) : (s.modTst f).insts = s.insts := rfl
@[simp] theorem State.modTst_doors (f : Test → Test) : (s.modTst f).doors = s.doors := rfl
@[simp] theorem State.modTst_ctrl (f : Test → Test) : (s.modTst f).ctrl = s.ctrl := rfl
@[simp] theorem State.modTst_pwr (f : Test → Test) : (s.modTst f).pwr = s.pwr := rfl
@[simp] theorem State.modTst_flt (f : Test → Test) : (s.modTst f).flt = s.flt := rfl
@[simp] theorem State.modTst_boot (f : Test → Test) : (s.modTst f).boot = s.boot := rfl
@[simp] theorem State.modTst_mtr (f : Test → Test) : (s.modTst f).mtr = s.mtr := rfl
@[simp] theorem State.modTst_tst (f : Test → Test) : (s.modTst f).tst = f s.tst := rfl
@[simp] theorem State.modTst_pins (f : Test → Test) : (s.modTst f).pins = s.pins := rfl
@[simp] theorem State.modTst_inbox (f : Test → Test) : (s.modTst f).inbox = s.inbox := rfl
@[simp] theorem State.modTst_out (f : Test → Test) : (s.modTst f).out = s.out := rfl

/-! #### State.modColl -/
@[simp] theorem State.modColl_pending (f : Coll → Coll) : (s.modColl f).pending = s.pending := rfl
@[simp] theorem State.modColl_draw (f : Coll → Coll) : (s.modColl f).draw = s.draw := rfl
@[simp] theorem State.modColl_time (f : Coll → Coll) : (s.modColl f).time = s.time := rfl
@[simp] theorem State.modColl_plans (f : Coll → Coll) : (s.modColl f).plans = s.plans := rfl
@[simp] theorem State.modColl_queues (f : Coll → Coll) : (s.modColl f).queues = s.queues := rfl
@[simp] theorem State.modColl_rings (f : Coll → Coll) : (s.modColl f).rings = s.rings := rfl
@[simp] theorem State.modColl_sync (f : Coll → Coll) : (s.modColl f).sync = s.sync := rfl
@[simp] theorem State.modColl_qps (f : Coll → Coll) : (s.modColl f).qps = s.qps := rfl
@[simp] theorem State.modColl_tp (f : Coll → Coll) : (s.modColl f).tp = s.tp := rfl
@[simp] theorem State.modColl_coll (f : Coll → Coll) : (s.modColl f).coll = f s.coll := rfl
@[simp] theorem State.modColl_ports (f : Coll → Coll) : (s.modColl f).ports = s.ports := rfl
@[simp] theorem State.modColl_routing (f : Coll → Coll) : (s.modColl f).routing = s.routing := rfl
@[simp] theorem State.modColl_eth (f : Coll → Coll) : (s.modColl f).eth = s.eth := rfl
@[simp] theorem State.modColl_hbm (f : Coll → Coll) : (s.modColl f).hbm = s.hbm := rfl
@[simp] theorem State.modColl_mem (f : Coll → Coll) : (s.modColl f).mem = s.mem := rfl
@[simp] theorem State.modColl_board0 (f : Coll → Coll) : (s.modColl f).board0 = s.board0 := rfl
@[simp] theorem State.modColl_board1 (f : Coll → Coll) : (s.modColl f).board1 = s.board1 := rfl
@[simp] theorem State.modColl_board2 (f : Coll → Coll) : (s.modColl f).board2 = s.board2 := rfl
@[simp] theorem State.modColl_board3 (f : Coll → Coll) : (s.modColl f).board3 = s.board3 := rfl
@[simp] theorem State.modColl_couch (f : Coll → Coll) : (s.modColl f).couch = s.couch := rfl
@[simp] theorem State.modColl_links (f : Coll → Coll) : (s.modColl f).links = s.links := rfl
@[simp] theorem State.modColl_vectors (f : Coll → Coll) : (s.modColl f).vectors = s.vectors := rfl
@[simp] theorem State.modColl_insts (f : Coll → Coll) : (s.modColl f).insts = s.insts := rfl
@[simp] theorem State.modColl_doors (f : Coll → Coll) : (s.modColl f).doors = s.doors := rfl
@[simp] theorem State.modColl_ctrl (f : Coll → Coll) : (s.modColl f).ctrl = s.ctrl := rfl
@[simp] theorem State.modColl_pwr (f : Coll → Coll) : (s.modColl f).pwr = s.pwr := rfl
@[simp] theorem State.modColl_flt (f : Coll → Coll) : (s.modColl f).flt = s.flt := rfl
@[simp] theorem State.modColl_boot (f : Coll → Coll) : (s.modColl f).boot = s.boot := rfl
@[simp] theorem State.modColl_mtr (f : Coll → Coll) : (s.modColl f).mtr = s.mtr := rfl
@[simp] theorem State.modColl_tst (f : Coll → Coll) : (s.modColl f).tst = s.tst := rfl
@[simp] theorem State.modColl_pins (f : Coll → Coll) : (s.modColl f).pins = s.pins := rfl
@[simp] theorem State.modColl_inbox (f : Coll → Coll) : (s.modColl f).inbox = s.inbox := rfl
@[simp] theorem State.modColl_out (f : Coll → Coll) : (s.modColl f).out = s.out := rfl

/-! #### State.modSync -/
@[simp] theorem State.modSync_pending (f : SyncMem → SyncMem) : (s.modSync f).pending = s.pending := rfl
@[simp] theorem State.modSync_draw (f : SyncMem → SyncMem) : (s.modSync f).draw = s.draw := rfl
@[simp] theorem State.modSync_time (f : SyncMem → SyncMem) : (s.modSync f).time = s.time := rfl
@[simp] theorem State.modSync_plans (f : SyncMem → SyncMem) : (s.modSync f).plans = s.plans := rfl
@[simp] theorem State.modSync_queues (f : SyncMem → SyncMem) : (s.modSync f).queues = s.queues := rfl
@[simp] theorem State.modSync_rings (f : SyncMem → SyncMem) : (s.modSync f).rings = s.rings := rfl
@[simp] theorem State.modSync_sync (f : SyncMem → SyncMem) : (s.modSync f).sync = f s.sync := rfl
@[simp] theorem State.modSync_qps (f : SyncMem → SyncMem) : (s.modSync f).qps = s.qps := rfl
@[simp] theorem State.modSync_tp (f : SyncMem → SyncMem) : (s.modSync f).tp = s.tp := rfl
@[simp] theorem State.modSync_coll (f : SyncMem → SyncMem) : (s.modSync f).coll = s.coll := rfl
@[simp] theorem State.modSync_ports (f : SyncMem → SyncMem) : (s.modSync f).ports = s.ports := rfl
@[simp] theorem State.modSync_routing (f : SyncMem → SyncMem) : (s.modSync f).routing = s.routing := rfl
@[simp] theorem State.modSync_eth (f : SyncMem → SyncMem) : (s.modSync f).eth = s.eth := rfl
@[simp] theorem State.modSync_hbm (f : SyncMem → SyncMem) : (s.modSync f).hbm = s.hbm := rfl
@[simp] theorem State.modSync_mem (f : SyncMem → SyncMem) : (s.modSync f).mem = s.mem := rfl
@[simp] theorem State.modSync_board0 (f : SyncMem → SyncMem) : (s.modSync f).board0 = s.board0 := rfl
@[simp] theorem State.modSync_board1 (f : SyncMem → SyncMem) : (s.modSync f).board1 = s.board1 := rfl
@[simp] theorem State.modSync_board2 (f : SyncMem → SyncMem) : (s.modSync f).board2 = s.board2 := rfl
@[simp] theorem State.modSync_board3 (f : SyncMem → SyncMem) : (s.modSync f).board3 = s.board3 := rfl
@[simp] theorem State.modSync_couch (f : SyncMem → SyncMem) : (s.modSync f).couch = s.couch := rfl
@[simp] theorem State.modSync_links (f : SyncMem → SyncMem) : (s.modSync f).links = s.links := rfl
@[simp] theorem State.modSync_vectors (f : SyncMem → SyncMem) : (s.modSync f).vectors = s.vectors := rfl
@[simp] theorem State.modSync_insts (f : SyncMem → SyncMem) : (s.modSync f).insts = s.insts := rfl
@[simp] theorem State.modSync_doors (f : SyncMem → SyncMem) : (s.modSync f).doors = s.doors := rfl
@[simp] theorem State.modSync_ctrl (f : SyncMem → SyncMem) : (s.modSync f).ctrl = s.ctrl := rfl
@[simp] theorem State.modSync_pwr (f : SyncMem → SyncMem) : (s.modSync f).pwr = s.pwr := rfl
@[simp] theorem State.modSync_flt (f : SyncMem → SyncMem) : (s.modSync f).flt = s.flt := rfl
@[simp] theorem State.modSync_boot (f : SyncMem → SyncMem) : (s.modSync f).boot = s.boot := rfl
@[simp] theorem State.modSync_mtr (f : SyncMem → SyncMem) : (s.modSync f).mtr = s.mtr := rfl
@[simp] theorem State.modSync_tst (f : SyncMem → SyncMem) : (s.modSync f).tst = s.tst := rfl
@[simp] theorem State.modSync_pins (f : SyncMem → SyncMem) : (s.modSync f).pins = s.pins := rfl
@[simp] theorem State.modSync_inbox (f : SyncMem → SyncMem) : (s.modSync f).inbox = s.inbox := rfl
@[simp] theorem State.modSync_out (f : SyncMem → SyncMem) : (s.modSync f).out = s.out := rfl

/-! #### State.modRouting -/
@[simp] theorem State.modRouting_pending (f : Routing → Routing) : (s.modRouting f).pending = s.pending := rfl
@[simp] theorem State.modRouting_draw (f : Routing → Routing) : (s.modRouting f).draw = s.draw := rfl
@[simp] theorem State.modRouting_time (f : Routing → Routing) : (s.modRouting f).time = s.time := rfl
@[simp] theorem State.modRouting_plans (f : Routing → Routing) : (s.modRouting f).plans = s.plans := rfl
@[simp] theorem State.modRouting_queues (f : Routing → Routing) : (s.modRouting f).queues = s.queues := rfl
@[simp] theorem State.modRouting_rings (f : Routing → Routing) : (s.modRouting f).rings = s.rings := rfl
@[simp] theorem State.modRouting_sync (f : Routing → Routing) : (s.modRouting f).sync = s.sync := rfl
@[simp] theorem State.modRouting_qps (f : Routing → Routing) : (s.modRouting f).qps = s.qps := rfl
@[simp] theorem State.modRouting_tp (f : Routing → Routing) : (s.modRouting f).tp = s.tp := rfl
@[simp] theorem State.modRouting_coll (f : Routing → Routing) : (s.modRouting f).coll = s.coll := rfl
@[simp] theorem State.modRouting_ports (f : Routing → Routing) : (s.modRouting f).ports = s.ports := rfl
@[simp] theorem State.modRouting_routing (f : Routing → Routing) : (s.modRouting f).routing = f s.routing := rfl
@[simp] theorem State.modRouting_eth (f : Routing → Routing) : (s.modRouting f).eth = s.eth := rfl
@[simp] theorem State.modRouting_hbm (f : Routing → Routing) : (s.modRouting f).hbm = s.hbm := rfl
@[simp] theorem State.modRouting_mem (f : Routing → Routing) : (s.modRouting f).mem = s.mem := rfl
@[simp] theorem State.modRouting_board0 (f : Routing → Routing) : (s.modRouting f).board0 = s.board0 := rfl
@[simp] theorem State.modRouting_board1 (f : Routing → Routing) : (s.modRouting f).board1 = s.board1 := rfl
@[simp] theorem State.modRouting_board2 (f : Routing → Routing) : (s.modRouting f).board2 = s.board2 := rfl
@[simp] theorem State.modRouting_board3 (f : Routing → Routing) : (s.modRouting f).board3 = s.board3 := rfl
@[simp] theorem State.modRouting_couch (f : Routing → Routing) : (s.modRouting f).couch = s.couch := rfl
@[simp] theorem State.modRouting_links (f : Routing → Routing) : (s.modRouting f).links = s.links := rfl
@[simp] theorem State.modRouting_vectors (f : Routing → Routing) : (s.modRouting f).vectors = s.vectors := rfl
@[simp] theorem State.modRouting_insts (f : Routing → Routing) : (s.modRouting f).insts = s.insts := rfl
@[simp] theorem State.modRouting_doors (f : Routing → Routing) : (s.modRouting f).doors = s.doors := rfl
@[simp] theorem State.modRouting_ctrl (f : Routing → Routing) : (s.modRouting f).ctrl = s.ctrl := rfl
@[simp] theorem State.modRouting_pwr (f : Routing → Routing) : (s.modRouting f).pwr = s.pwr := rfl
@[simp] theorem State.modRouting_flt (f : Routing → Routing) : (s.modRouting f).flt = s.flt := rfl
@[simp] theorem State.modRouting_boot (f : Routing → Routing) : (s.modRouting f).boot = s.boot := rfl
@[simp] theorem State.modRouting_mtr (f : Routing → Routing) : (s.modRouting f).mtr = s.mtr := rfl
@[simp] theorem State.modRouting_tst (f : Routing → Routing) : (s.modRouting f).tst = s.tst := rfl
@[simp] theorem State.modRouting_pins (f : Routing → Routing) : (s.modRouting f).pins = s.pins := rfl
@[simp] theorem State.modRouting_inbox (f : Routing → Routing) : (s.modRouting f).inbox = s.inbox := rfl
@[simp] theorem State.modRouting_out (f : Routing → Routing) : (s.modRouting f).out = s.out := rfl

/-! #### State.modInsts -/
@[simp] theorem State.modInsts_pending (f : Tbl Inst → Tbl Inst) : (s.modInsts f).pending = s.pending := rfl
@[simp] theorem State.modInsts_draw (f : Tbl Inst → Tbl Inst) : (s.modInsts f).draw = s.draw := rfl
@[simp] theorem State.modInsts_time (f : Tbl Inst → Tbl Inst) : (s.modInsts f).time = s.time := rfl
@[simp] theorem State.modInsts_plans (f : Tbl Inst → Tbl Inst) : (s.modInsts f).plans = s.plans := rfl
@[simp] theorem State.modInsts_queues (f : Tbl Inst → Tbl Inst) : (s.modInsts f).queues = s.queues := rfl
@[simp] theorem State.modInsts_rings (f : Tbl Inst → Tbl Inst) : (s.modInsts f).rings = s.rings := rfl
@[simp] theorem State.modInsts_sync (f : Tbl Inst → Tbl Inst) : (s.modInsts f).sync = s.sync := rfl
@[simp] theorem State.modInsts_qps (f : Tbl Inst → Tbl Inst) : (s.modInsts f).qps = s.qps := rfl
@[simp] theorem State.modInsts_tp (f : Tbl Inst → Tbl Inst) : (s.modInsts f).tp = s.tp := rfl
@[simp] theorem State.modInsts_coll (f : Tbl Inst → Tbl Inst) : (s.modInsts f).coll = s.coll := rfl
@[simp] theorem State.modInsts_ports (f : Tbl Inst → Tbl Inst) : (s.modInsts f).ports = s.ports := rfl
@[simp] theorem State.modInsts_routing (f : Tbl Inst → Tbl Inst) : (s.modInsts f).routing = s.routing := rfl
@[simp] theorem State.modInsts_eth (f : Tbl Inst → Tbl Inst) : (s.modInsts f).eth = s.eth := rfl
@[simp] theorem State.modInsts_hbm (f : Tbl Inst → Tbl Inst) : (s.modInsts f).hbm = s.hbm := rfl
@[simp] theorem State.modInsts_mem (f : Tbl Inst → Tbl Inst) : (s.modInsts f).mem = s.mem := rfl
@[simp] theorem State.modInsts_board0 (f : Tbl Inst → Tbl Inst) : (s.modInsts f).board0 = s.board0 := rfl
@[simp] theorem State.modInsts_board1 (f : Tbl Inst → Tbl Inst) : (s.modInsts f).board1 = s.board1 := rfl
@[simp] theorem State.modInsts_board2 (f : Tbl Inst → Tbl Inst) : (s.modInsts f).board2 = s.board2 := rfl
@[simp] theorem State.modInsts_board3 (f : Tbl Inst → Tbl Inst) : (s.modInsts f).board3 = s.board3 := rfl
@[simp] theorem State.modInsts_couch (f : Tbl Inst → Tbl Inst) : (s.modInsts f).couch = s.couch := rfl
@[simp] theorem State.modInsts_links (f : Tbl Inst → Tbl Inst) : (s.modInsts f).links = s.links := rfl
@[simp] theorem State.modInsts_vectors (f : Tbl Inst → Tbl Inst) : (s.modInsts f).vectors = s.vectors := rfl
@[simp] theorem State.modInsts_insts (f : Tbl Inst → Tbl Inst) : (s.modInsts f).insts = f s.insts := rfl
@[simp] theorem State.modInsts_doors (f : Tbl Inst → Tbl Inst) : (s.modInsts f).doors = s.doors := rfl
@[simp] theorem State.modInsts_ctrl (f : Tbl Inst → Tbl Inst) : (s.modInsts f).ctrl = s.ctrl := rfl
@[simp] theorem State.modInsts_pwr (f : Tbl Inst → Tbl Inst) : (s.modInsts f).pwr = s.pwr := rfl
@[simp] theorem State.modInsts_flt (f : Tbl Inst → Tbl Inst) : (s.modInsts f).flt = s.flt := rfl
@[simp] theorem State.modInsts_boot (f : Tbl Inst → Tbl Inst) : (s.modInsts f).boot = s.boot := rfl
@[simp] theorem State.modInsts_mtr (f : Tbl Inst → Tbl Inst) : (s.modInsts f).mtr = s.mtr := rfl
@[simp] theorem State.modInsts_tst (f : Tbl Inst → Tbl Inst) : (s.modInsts f).tst = s.tst := rfl
@[simp] theorem State.modInsts_pins (f : Tbl Inst → Tbl Inst) : (s.modInsts f).pins = s.pins := rfl
@[simp] theorem State.modInsts_inbox (f : Tbl Inst → Tbl Inst) : (s.modInsts f).inbox = s.inbox := rfl
@[simp] theorem State.modInsts_out (f : Tbl Inst → Tbl Inst) : (s.modInsts f).out = s.out := rfl

/-! #### State.modQueue -/
@[simp] theorem State.modQueue_pending (q : Nat) (f : WorkQueue → WorkQueue) : (s.modQueue q f).pending = s.pending := rfl
@[simp] theorem State.modQueue_draw (q : Nat) (f : WorkQueue → WorkQueue) : (s.modQueue q f).draw = s.draw := rfl
@[simp] theorem State.modQueue_time (q : Nat) (f : WorkQueue → WorkQueue) : (s.modQueue q f).time = s.time := rfl
@[simp] theorem State.modQueue_plans (q : Nat) (f : WorkQueue → WorkQueue) : (s.modQueue q f).plans = s.plans := rfl
@[simp] theorem State.modQueue_queues (q : Nat) (f : WorkQueue → WorkQueue) : (s.modQueue q f).queues = s.queues.modify q f := rfl
@[simp] theorem State.modQueue_rings (q : Nat) (f : WorkQueue → WorkQueue) : (s.modQueue q f).rings = s.rings := rfl
@[simp] theorem State.modQueue_sync (q : Nat) (f : WorkQueue → WorkQueue) : (s.modQueue q f).sync = s.sync := rfl
@[simp] theorem State.modQueue_qps (q : Nat) (f : WorkQueue → WorkQueue) : (s.modQueue q f).qps = s.qps := rfl
@[simp] theorem State.modQueue_tp (q : Nat) (f : WorkQueue → WorkQueue) : (s.modQueue q f).tp = s.tp := rfl
@[simp] theorem State.modQueue_coll (q : Nat) (f : WorkQueue → WorkQueue) : (s.modQueue q f).coll = s.coll := rfl
@[simp] theorem State.modQueue_ports (q : Nat) (f : WorkQueue → WorkQueue) : (s.modQueue q f).ports = s.ports := rfl
@[simp] theorem State.modQueue_routing (q : Nat) (f : WorkQueue → WorkQueue) : (s.modQueue q f).routing = s.routing := rfl
@[simp] theorem State.modQueue_eth (q : Nat) (f : WorkQueue → WorkQueue) : (s.modQueue q f).eth = s.eth := rfl
@[simp] theorem State.modQueue_hbm (q : Nat) (f : WorkQueue → WorkQueue) : (s.modQueue q f).hbm = s.hbm := rfl
@[simp] theorem State.modQueue_mem (q : Nat) (f : WorkQueue → WorkQueue) : (s.modQueue q f).mem = s.mem := rfl
@[simp] theorem State.modQueue_board0 (q : Nat) (f : WorkQueue → WorkQueue) : (s.modQueue q f).board0 = s.board0 := rfl
@[simp] theorem State.modQueue_board1 (q : Nat) (f : WorkQueue → WorkQueue) : (s.modQueue q f).board1 = s.board1 := rfl
@[simp] theorem State.modQueue_board2 (q : Nat) (f : WorkQueue → WorkQueue) : (s.modQueue q f).board2 = s.board2 := rfl
@[simp] theorem State.modQueue_board3 (q : Nat) (f : WorkQueue → WorkQueue) : (s.modQueue q f).board3 = s.board3 := rfl
@[simp] theorem State.modQueue_couch (q : Nat) (f : WorkQueue → WorkQueue) : (s.modQueue q f).couch = s.couch := rfl
@[simp] theorem State.modQueue_links (q : Nat) (f : WorkQueue → WorkQueue) : (s.modQueue q f).links = s.links := rfl
@[simp] theorem State.modQueue_vectors (q : Nat) (f : WorkQueue → WorkQueue) : (s.modQueue q f).vectors = s.vectors := rfl
@[simp] theorem State.modQueue_insts (q : Nat) (f : WorkQueue → WorkQueue) : (s.modQueue q f).insts = s.insts := rfl
@[simp] theorem State.modQueue_doors (q : Nat) (f : WorkQueue → WorkQueue) : (s.modQueue q f).doors = s.doors := rfl
@[simp] theorem State.modQueue_ctrl (q : Nat) (f : WorkQueue → WorkQueue) : (s.modQueue q f).ctrl = s.ctrl := rfl
@[simp] theorem State.modQueue_pwr (q : Nat) (f : WorkQueue → WorkQueue) : (s.modQueue q f).pwr = s.pwr := rfl
@[simp] theorem State.modQueue_flt (q : Nat) (f : WorkQueue → WorkQueue) : (s.modQueue q f).flt = s.flt := rfl
@[simp] theorem State.modQueue_boot (q : Nat) (f : WorkQueue → WorkQueue) : (s.modQueue q f).boot = s.boot := rfl
@[simp] theorem State.modQueue_mtr (q : Nat) (f : WorkQueue → WorkQueue) : (s.modQueue q f).mtr = s.mtr := rfl
@[simp] theorem State.modQueue_tst (q : Nat) (f : WorkQueue → WorkQueue) : (s.modQueue q f).tst = s.tst := rfl
@[simp] theorem State.modQueue_pins (q : Nat) (f : WorkQueue → WorkQueue) : (s.modQueue q f).pins = s.pins := rfl
@[simp] theorem State.modQueue_inbox (q : Nat) (f : WorkQueue → WorkQueue) : (s.modQueue q f).inbox = s.inbox := rfl
@[simp] theorem State.modQueue_out (q : Nat) (f : WorkQueue → WorkQueue) : (s.modQueue q f).out = s.out := rfl

/-! #### State.modRing -/
@[simp] theorem State.modRing_pending (r : Nat) (f : Ring → Ring) : (s.modRing r f).pending = s.pending := rfl
@[simp] theorem State.modRing_draw (r : Nat) (f : Ring → Ring) : (s.modRing r f).draw = s.draw := rfl
@[simp] theorem State.modRing_time (r : Nat) (f : Ring → Ring) : (s.modRing r f).time = s.time := rfl
@[simp] theorem State.modRing_plans (r : Nat) (f : Ring → Ring) : (s.modRing r f).plans = s.plans := rfl
@[simp] theorem State.modRing_queues (r : Nat) (f : Ring → Ring) : (s.modRing r f).queues = s.queues := rfl
@[simp] theorem State.modRing_rings (r : Nat) (f : Ring → Ring) : (s.modRing r f).rings = s.rings.modify r f := rfl
@[simp] theorem State.modRing_sync (r : Nat) (f : Ring → Ring) : (s.modRing r f).sync = s.sync := rfl
@[simp] theorem State.modRing_qps (r : Nat) (f : Ring → Ring) : (s.modRing r f).qps = s.qps := rfl
@[simp] theorem State.modRing_tp (r : Nat) (f : Ring → Ring) : (s.modRing r f).tp = s.tp := rfl
@[simp] theorem State.modRing_coll (r : Nat) (f : Ring → Ring) : (s.modRing r f).coll = s.coll := rfl
@[simp] theorem State.modRing_ports (r : Nat) (f : Ring → Ring) : (s.modRing r f).ports = s.ports := rfl
@[simp] theorem State.modRing_routing (r : Nat) (f : Ring → Ring) : (s.modRing r f).routing = s.routing := rfl
@[simp] theorem State.modRing_eth (r : Nat) (f : Ring → Ring) : (s.modRing r f).eth = s.eth := rfl
@[simp] theorem State.modRing_hbm (r : Nat) (f : Ring → Ring) : (s.modRing r f).hbm = s.hbm := rfl
@[simp] theorem State.modRing_mem (r : Nat) (f : Ring → Ring) : (s.modRing r f).mem = s.mem := rfl
@[simp] theorem State.modRing_board0 (r : Nat) (f : Ring → Ring) : (s.modRing r f).board0 = s.board0 := rfl
@[simp] theorem State.modRing_board1 (r : Nat) (f : Ring → Ring) : (s.modRing r f).board1 = s.board1 := rfl
@[simp] theorem State.modRing_board2 (r : Nat) (f : Ring → Ring) : (s.modRing r f).board2 = s.board2 := rfl
@[simp] theorem State.modRing_board3 (r : Nat) (f : Ring → Ring) : (s.modRing r f).board3 = s.board3 := rfl
@[simp] theorem State.modRing_couch (r : Nat) (f : Ring → Ring) : (s.modRing r f).couch = s.couch := rfl
@[simp] theorem State.modRing_links (r : Nat) (f : Ring → Ring) : (s.modRing r f).links = s.links := rfl
@[simp] theorem State.modRing_vectors (r : Nat) (f : Ring → Ring) : (s.modRing r f).vectors = s.vectors := rfl
@[simp] theorem State.modRing_insts (r : Nat) (f : Ring → Ring) : (s.modRing r f).insts = s.insts := rfl
@[simp] theorem State.modRing_doors (r : Nat) (f : Ring → Ring) : (s.modRing r f).doors = s.doors := rfl
@[simp] theorem State.modRing_ctrl (r : Nat) (f : Ring → Ring) : (s.modRing r f).ctrl = s.ctrl := rfl
@[simp] theorem State.modRing_pwr (r : Nat) (f : Ring → Ring) : (s.modRing r f).pwr = s.pwr := rfl
@[simp] theorem State.modRing_flt (r : Nat) (f : Ring → Ring) : (s.modRing r f).flt = s.flt := rfl
@[simp] theorem State.modRing_boot (r : Nat) (f : Ring → Ring) : (s.modRing r f).boot = s.boot := rfl
@[simp] theorem State.modRing_mtr (r : Nat) (f : Ring → Ring) : (s.modRing r f).mtr = s.mtr := rfl
@[simp] theorem State.modRing_tst (r : Nat) (f : Ring → Ring) : (s.modRing r f).tst = s.tst := rfl
@[simp] theorem State.modRing_pins (r : Nat) (f : Ring → Ring) : (s.modRing r f).pins = s.pins := rfl
@[simp] theorem State.modRing_inbox (r : Nat) (f : Ring → Ring) : (s.modRing r f).inbox = s.inbox := rfl
@[simp] theorem State.modRing_out (r : Nat) (f : Ring → Ring) : (s.modRing r f).out = s.out := rfl

/-! #### State.modQp -/
@[simp] theorem State.modQp_pending (n : Nat) (f : Qp → Qp) : (s.modQp n f).pending = s.pending := rfl
@[simp] theorem State.modQp_draw (n : Nat) (f : Qp → Qp) : (s.modQp n f).draw = s.draw := rfl
@[simp] theorem State.modQp_time (n : Nat) (f : Qp → Qp) : (s.modQp n f).time = s.time := rfl
@[simp] theorem State.modQp_plans (n : Nat) (f : Qp → Qp) : (s.modQp n f).plans = s.plans := rfl
@[simp] theorem State.modQp_queues (n : Nat) (f : Qp → Qp) : (s.modQp n f).queues = s.queues := rfl
@[simp] theorem State.modQp_rings (n : Nat) (f : Qp → Qp) : (s.modQp n f).rings = s.rings := rfl
@[simp] theorem State.modQp_sync (n : Nat) (f : Qp → Qp) : (s.modQp n f).sync = s.sync := rfl
@[simp] theorem State.modQp_qps (n : Nat) (f : Qp → Qp) : (s.modQp n f).qps = s.qps.modifyD n Qp.reset f := rfl
@[simp] theorem State.modQp_tp (n : Nat) (f : Qp → Qp) : (s.modQp n f).tp = s.tp := rfl
@[simp] theorem State.modQp_coll (n : Nat) (f : Qp → Qp) : (s.modQp n f).coll = s.coll := rfl
@[simp] theorem State.modQp_ports (n : Nat) (f : Qp → Qp) : (s.modQp n f).ports = s.ports := rfl
@[simp] theorem State.modQp_routing (n : Nat) (f : Qp → Qp) : (s.modQp n f).routing = s.routing := rfl
@[simp] theorem State.modQp_eth (n : Nat) (f : Qp → Qp) : (s.modQp n f).eth = s.eth := rfl
@[simp] theorem State.modQp_hbm (n : Nat) (f : Qp → Qp) : (s.modQp n f).hbm = s.hbm := rfl
@[simp] theorem State.modQp_mem (n : Nat) (f : Qp → Qp) : (s.modQp n f).mem = s.mem := rfl
@[simp] theorem State.modQp_board0 (n : Nat) (f : Qp → Qp) : (s.modQp n f).board0 = s.board0 := rfl
@[simp] theorem State.modQp_board1 (n : Nat) (f : Qp → Qp) : (s.modQp n f).board1 = s.board1 := rfl
@[simp] theorem State.modQp_board2 (n : Nat) (f : Qp → Qp) : (s.modQp n f).board2 = s.board2 := rfl
@[simp] theorem State.modQp_board3 (n : Nat) (f : Qp → Qp) : (s.modQp n f).board3 = s.board3 := rfl
@[simp] theorem State.modQp_couch (n : Nat) (f : Qp → Qp) : (s.modQp n f).couch = s.couch := rfl
@[simp] theorem State.modQp_links (n : Nat) (f : Qp → Qp) : (s.modQp n f).links = s.links := rfl
@[simp] theorem State.modQp_vectors (n : Nat) (f : Qp → Qp) : (s.modQp n f).vectors = s.vectors := rfl
@[simp] theorem State.modQp_insts (n : Nat) (f : Qp → Qp) : (s.modQp n f).insts = s.insts := rfl
@[simp] theorem State.modQp_doors (n : Nat) (f : Qp → Qp) : (s.modQp n f).doors = s.doors := rfl
@[simp] theorem State.modQp_ctrl (n : Nat) (f : Qp → Qp) : (s.modQp n f).ctrl = s.ctrl := rfl
@[simp] theorem State.modQp_pwr (n : Nat) (f : Qp → Qp) : (s.modQp n f).pwr = s.pwr := rfl
@[simp] theorem State.modQp_flt (n : Nat) (f : Qp → Qp) : (s.modQp n f).flt = s.flt := rfl
@[simp] theorem State.modQp_boot (n : Nat) (f : Qp → Qp) : (s.modQp n f).boot = s.boot := rfl
@[simp] theorem State.modQp_mtr (n : Nat) (f : Qp → Qp) : (s.modQp n f).mtr = s.mtr := rfl
@[simp] theorem State.modQp_tst (n : Nat) (f : Qp → Qp) : (s.modQp n f).tst = s.tst := rfl
@[simp] theorem State.modQp_pins (n : Nat) (f : Qp → Qp) : (s.modQp n f).pins = s.pins := rfl
@[simp] theorem State.modQp_inbox (n : Nat) (f : Qp → Qp) : (s.modQp n f).inbox = s.inbox := rfl
@[simp] theorem State.modQp_out (n : Nat) (f : Qp → Qp) : (s.modQp n f).out = s.out := rfl

/-! #### State.modPort -/
@[simp] theorem State.modPort_pending (p : Nat) (f : Port → Port) : (s.modPort p f).pending = s.pending := rfl
@[simp] theorem State.modPort_draw (p : Nat) (f : Port → Port) : (s.modPort p f).draw = s.draw := rfl
@[simp] theorem State.modPort_time (p : Nat) (f : Port → Port) : (s.modPort p f).time = s.time := rfl
@[simp] theorem State.modPort_plans (p : Nat) (f : Port → Port) : (s.modPort p f).plans = s.plans := rfl
@[simp] theorem State.modPort_queues (p : Nat) (f : Port → Port) : (s.modPort p f).queues = s.queues := rfl
@[simp] theorem State.modPort_rings (p : Nat) (f : Port → Port) : (s.modPort p f).rings = s.rings := rfl
@[simp] theorem State.modPort_sync (p : Nat) (f : Port → Port) : (s.modPort p f).sync = s.sync := rfl
@[simp] theorem State.modPort_qps (p : Nat) (f : Port → Port) : (s.modPort p f).qps = s.qps := rfl
@[simp] theorem State.modPort_tp (p : Nat) (f : Port → Port) : (s.modPort p f).tp = s.tp := rfl
@[simp] theorem State.modPort_coll (p : Nat) (f : Port → Port) : (s.modPort p f).coll = s.coll := rfl
@[simp] theorem State.modPort_ports (p : Nat) (f : Port → Port) : (s.modPort p f).ports = s.ports.modifyD p Port.reset f := rfl
@[simp] theorem State.modPort_routing (p : Nat) (f : Port → Port) : (s.modPort p f).routing = s.routing := rfl
@[simp] theorem State.modPort_eth (p : Nat) (f : Port → Port) : (s.modPort p f).eth = s.eth := rfl
@[simp] theorem State.modPort_hbm (p : Nat) (f : Port → Port) : (s.modPort p f).hbm = s.hbm := rfl
@[simp] theorem State.modPort_mem (p : Nat) (f : Port → Port) : (s.modPort p f).mem = s.mem := rfl
@[simp] theorem State.modPort_board0 (p : Nat) (f : Port → Port) : (s.modPort p f).board0 = s.board0 := rfl
@[simp] theorem State.modPort_board1 (p : Nat) (f : Port → Port) : (s.modPort p f).board1 = s.board1 := rfl
@[simp] theorem State.modPort_board2 (p : Nat) (f : Port → Port) : (s.modPort p f).board2 = s.board2 := rfl
@[simp] theorem State.modPort_board3 (p : Nat) (f : Port → Port) : (s.modPort p f).board3 = s.board3 := rfl
@[simp] theorem State.modPort_couch (p : Nat) (f : Port → Port) : (s.modPort p f).couch = s.couch := rfl
@[simp] theorem State.modPort_links (p : Nat) (f : Port → Port) : (s.modPort p f).links = s.links := rfl
@[simp] theorem State.modPort_vectors (p : Nat) (f : Port → Port) : (s.modPort p f).vectors = s.vectors := rfl
@[simp] theorem State.modPort_insts (p : Nat) (f : Port → Port) : (s.modPort p f).insts = s.insts := rfl
@[simp] theorem State.modPort_doors (p : Nat) (f : Port → Port) : (s.modPort p f).doors = s.doors := rfl
@[simp] theorem State.modPort_ctrl (p : Nat) (f : Port → Port) : (s.modPort p f).ctrl = s.ctrl := rfl
@[simp] theorem State.modPort_pwr (p : Nat) (f : Port → Port) : (s.modPort p f).pwr = s.pwr := rfl
@[simp] theorem State.modPort_flt (p : Nat) (f : Port → Port) : (s.modPort p f).flt = s.flt := rfl
@[simp] theorem State.modPort_boot (p : Nat) (f : Port → Port) : (s.modPort p f).boot = s.boot := rfl
@[simp] theorem State.modPort_mtr (p : Nat) (f : Port → Port) : (s.modPort p f).mtr = s.mtr := rfl
@[simp] theorem State.modPort_tst (p : Nat) (f : Port → Port) : (s.modPort p f).tst = s.tst := rfl
@[simp] theorem State.modPort_pins (p : Nat) (f : Port → Port) : (s.modPort p f).pins = s.pins := rfl
@[simp] theorem State.modPort_inbox (p : Nat) (f : Port → Port) : (s.modPort p f).inbox = s.inbox := rfl
@[simp] theorem State.modPort_out (p : Nat) (f : Port → Port) : (s.modPort p f).out = s.out := rfl

/-! #### State.modEth -/
@[simp] theorem State.modEth_pending (p : Nat) (f : EthPort → EthPort) : (s.modEth p f).pending = s.pending := rfl
@[simp] theorem State.modEth_draw (p : Nat) (f : EthPort → EthPort) : (s.modEth p f).draw = s.draw := rfl
@[simp] theorem State.modEth_time (p : Nat) (f : EthPort → EthPort) : (s.modEth p f).time = s.time := rfl
@[simp] theorem State.modEth_plans (p : Nat) (f : EthPort → EthPort) : (s.modEth p f).plans = s.plans := rfl
@[simp] theorem State.modEth_queues (p : Nat) (f : EthPort → EthPort) : (s.modEth p f).queues = s.queues := rfl
@[simp] theorem State.modEth_rings (p : Nat) (f : EthPort → EthPort) : (s.modEth p f).rings = s.rings := rfl
@[simp] theorem State.modEth_sync (p : Nat) (f : EthPort → EthPort) : (s.modEth p f).sync = s.sync := rfl
@[simp] theorem State.modEth_qps (p : Nat) (f : EthPort → EthPort) : (s.modEth p f).qps = s.qps := rfl
@[simp] theorem State.modEth_tp (p : Nat) (f : EthPort → EthPort) : (s.modEth p f).tp = s.tp := rfl
@[simp] theorem State.modEth_coll (p : Nat) (f : EthPort → EthPort) : (s.modEth p f).coll = s.coll := rfl
@[simp] theorem State.modEth_ports (p : Nat) (f : EthPort → EthPort) : (s.modEth p f).ports = s.ports := rfl
@[simp] theorem State.modEth_routing (p : Nat) (f : EthPort → EthPort) : (s.modEth p f).routing = s.routing := rfl
@[simp] theorem State.modEth_eth (p : Nat) (f : EthPort → EthPort) : (s.modEth p f).eth = { s.eth with ports := s.eth.ports.modifyD p EthPort.reset f } := rfl
@[simp] theorem State.modEth_hbm (p : Nat) (f : EthPort → EthPort) : (s.modEth p f).hbm = s.hbm := rfl
@[simp] theorem State.modEth_mem (p : Nat) (f : EthPort → EthPort) : (s.modEth p f).mem = s.mem := rfl
@[simp] theorem State.modEth_board0 (p : Nat) (f : EthPort → EthPort) : (s.modEth p f).board0 = s.board0 := rfl
@[simp] theorem State.modEth_board1 (p : Nat) (f : EthPort → EthPort) : (s.modEth p f).board1 = s.board1 := rfl
@[simp] theorem State.modEth_board2 (p : Nat) (f : EthPort → EthPort) : (s.modEth p f).board2 = s.board2 := rfl
@[simp] theorem State.modEth_board3 (p : Nat) (f : EthPort → EthPort) : (s.modEth p f).board3 = s.board3 := rfl
@[simp] theorem State.modEth_couch (p : Nat) (f : EthPort → EthPort) : (s.modEth p f).couch = s.couch := rfl
@[simp] theorem State.modEth_links (p : Nat) (f : EthPort → EthPort) : (s.modEth p f).links = s.links := rfl
@[simp] theorem State.modEth_vectors (p : Nat) (f : EthPort → EthPort) : (s.modEth p f).vectors = s.vectors := rfl
@[simp] theorem State.modEth_insts (p : Nat) (f : EthPort → EthPort) : (s.modEth p f).insts = s.insts := rfl
@[simp] theorem State.modEth_doors (p : Nat) (f : EthPort → EthPort) : (s.modEth p f).doors = s.doors := rfl
@[simp] theorem State.modEth_ctrl (p : Nat) (f : EthPort → EthPort) : (s.modEth p f).ctrl = s.ctrl := rfl
@[simp] theorem State.modEth_pwr (p : Nat) (f : EthPort → EthPort) : (s.modEth p f).pwr = s.pwr := rfl
@[simp] theorem State.modEth_flt (p : Nat) (f : EthPort → EthPort) : (s.modEth p f).flt = s.flt := rfl
@[simp] theorem State.modEth_boot (p : Nat) (f : EthPort → EthPort) : (s.modEth p f).boot = s.boot := rfl
@[simp] theorem State.modEth_mtr (p : Nat) (f : EthPort → EthPort) : (s.modEth p f).mtr = s.mtr := rfl
@[simp] theorem State.modEth_tst (p : Nat) (f : EthPort → EthPort) : (s.modEth p f).tst = s.tst := rfl
@[simp] theorem State.modEth_pins (p : Nat) (f : EthPort → EthPort) : (s.modEth p f).pins = s.pins := rfl
@[simp] theorem State.modEth_inbox (p : Nat) (f : EthPort → EthPort) : (s.modEth p f).inbox = s.inbox := rfl
@[simp] theorem State.modEth_out (p : Nat) (f : EthPort → EthPort) : (s.modEth p f).out = s.out := rfl

/-! #### State.modLink -/
@[simp] theorem State.modLink_pending (l : Nat) (f : PLink → PLink) : (s.modLink l f).pending = s.pending := rfl
@[simp] theorem State.modLink_draw (l : Nat) (f : PLink → PLink) : (s.modLink l f).draw = s.draw := rfl
@[simp] theorem State.modLink_time (l : Nat) (f : PLink → PLink) : (s.modLink l f).time = s.time := rfl
@[simp] theorem State.modLink_plans (l : Nat) (f : PLink → PLink) : (s.modLink l f).plans = s.plans := rfl
@[simp] theorem State.modLink_queues (l : Nat) (f : PLink → PLink) : (s.modLink l f).queues = s.queues := rfl
@[simp] theorem State.modLink_rings (l : Nat) (f : PLink → PLink) : (s.modLink l f).rings = s.rings := rfl
@[simp] theorem State.modLink_sync (l : Nat) (f : PLink → PLink) : (s.modLink l f).sync = s.sync := rfl
@[simp] theorem State.modLink_qps (l : Nat) (f : PLink → PLink) : (s.modLink l f).qps = s.qps := rfl
@[simp] theorem State.modLink_tp (l : Nat) (f : PLink → PLink) : (s.modLink l f).tp = s.tp := rfl
@[simp] theorem State.modLink_coll (l : Nat) (f : PLink → PLink) : (s.modLink l f).coll = s.coll := rfl
@[simp] theorem State.modLink_ports (l : Nat) (f : PLink → PLink) : (s.modLink l f).ports = s.ports := rfl
@[simp] theorem State.modLink_routing (l : Nat) (f : PLink → PLink) : (s.modLink l f).routing = s.routing := rfl
@[simp] theorem State.modLink_eth (l : Nat) (f : PLink → PLink) : (s.modLink l f).eth = s.eth := rfl
@[simp] theorem State.modLink_hbm (l : Nat) (f : PLink → PLink) : (s.modLink l f).hbm = s.hbm := rfl
@[simp] theorem State.modLink_mem (l : Nat) (f : PLink → PLink) : (s.modLink l f).mem = s.mem := rfl
@[simp] theorem State.modLink_board0 (l : Nat) (f : PLink → PLink) : (s.modLink l f).board0 = s.board0 := rfl
@[simp] theorem State.modLink_board1 (l : Nat) (f : PLink → PLink) : (s.modLink l f).board1 = s.board1 := rfl
@[simp] theorem State.modLink_board2 (l : Nat) (f : PLink → PLink) : (s.modLink l f).board2 = s.board2 := rfl
@[simp] theorem State.modLink_board3 (l : Nat) (f : PLink → PLink) : (s.modLink l f).board3 = s.board3 := rfl
@[simp] theorem State.modLink_couch (l : Nat) (f : PLink → PLink) : (s.modLink l f).couch = s.couch := rfl
@[simp] theorem State.modLink_links (l : Nat) (f : PLink → PLink) : (s.modLink l f).links = s.links.modifyD l PLink.reset f := rfl
@[simp] theorem State.modLink_vectors (l : Nat) (f : PLink → PLink) : (s.modLink l f).vectors = s.vectors := rfl
@[simp] theorem State.modLink_insts (l : Nat) (f : PLink → PLink) : (s.modLink l f).insts = s.insts := rfl
@[simp] theorem State.modLink_doors (l : Nat) (f : PLink → PLink) : (s.modLink l f).doors = s.doors := rfl
@[simp] theorem State.modLink_ctrl (l : Nat) (f : PLink → PLink) : (s.modLink l f).ctrl = s.ctrl := rfl
@[simp] theorem State.modLink_pwr (l : Nat) (f : PLink → PLink) : (s.modLink l f).pwr = s.pwr := rfl
@[simp] theorem State.modLink_flt (l : Nat) (f : PLink → PLink) : (s.modLink l f).flt = s.flt := rfl
@[simp] theorem State.modLink_boot (l : Nat) (f : PLink → PLink) : (s.modLink l f).boot = s.boot := rfl
@[simp] theorem State.modLink_mtr (l : Nat) (f : PLink → PLink) : (s.modLink l f).mtr = s.mtr := rfl
@[simp] theorem State.modLink_tst (l : Nat) (f : PLink → PLink) : (s.modLink l f).tst = s.tst := rfl
@[simp] theorem State.modLink_pins (l : Nat) (f : PLink → PLink) : (s.modLink l f).pins = s.pins := rfl
@[simp] theorem State.modLink_inbox (l : Nat) (f : PLink → PLink) : (s.modLink l f).inbox = s.inbox := rfl
@[simp] theorem State.modLink_out (l : Nat) (f : PLink → PLink) : (s.modLink l f).out = s.out := rfl

/-! #### State.modInst -/
@[simp] theorem State.modInst_pending (i : Nat) (f : Inst → Inst) : (s.modInst i f).pending = s.pending := rfl
@[simp] theorem State.modInst_draw (i : Nat) (f : Inst → Inst) : (s.modInst i f).draw = s.draw := rfl
@[simp] theorem State.modInst_time (i : Nat) (f : Inst → Inst) : (s.modInst i f).time = s.time := rfl
@[simp] theorem State.modInst_plans (i : Nat) (f : Inst → Inst) : (s.modInst i f).plans = s.plans := rfl
@[simp] theorem State.modInst_queues (i : Nat) (f : Inst → Inst) : (s.modInst i f).queues = s.queues := rfl
@[simp] theorem State.modInst_rings (i : Nat) (f : Inst → Inst) : (s.modInst i f).rings = s.rings := rfl
@[simp] theorem State.modInst_sync (i : Nat) (f : Inst → Inst) : (s.modInst i f).sync = s.sync := rfl
@[simp] theorem State.modInst_qps (i : Nat) (f : Inst → Inst) : (s.modInst i f).qps = s.qps := rfl
@[simp] theorem State.modInst_tp (i : Nat) (f : Inst → Inst) : (s.modInst i f).tp = s.tp := rfl
@[simp] theorem State.modInst_coll (i : Nat) (f : Inst → Inst) : (s.modInst i f).coll = s.coll := rfl
@[simp] theorem State.modInst_ports (i : Nat) (f : Inst → Inst) : (s.modInst i f).ports = s.ports := rfl
@[simp] theorem State.modInst_routing (i : Nat) (f : Inst → Inst) : (s.modInst i f).routing = s.routing := rfl
@[simp] theorem State.modInst_eth (i : Nat) (f : Inst → Inst) : (s.modInst i f).eth = s.eth := rfl
@[simp] theorem State.modInst_hbm (i : Nat) (f : Inst → Inst) : (s.modInst i f).hbm = s.hbm := rfl
@[simp] theorem State.modInst_mem (i : Nat) (f : Inst → Inst) : (s.modInst i f).mem = s.mem := rfl
@[simp] theorem State.modInst_board0 (i : Nat) (f : Inst → Inst) : (s.modInst i f).board0 = s.board0 := rfl
@[simp] theorem State.modInst_board1 (i : Nat) (f : Inst → Inst) : (s.modInst i f).board1 = s.board1 := rfl
@[simp] theorem State.modInst_board2 (i : Nat) (f : Inst → Inst) : (s.modInst i f).board2 = s.board2 := rfl
@[simp] theorem State.modInst_board3 (i : Nat) (f : Inst → Inst) : (s.modInst i f).board3 = s.board3 := rfl
@[simp] theorem State.modInst_couch (i : Nat) (f : Inst → Inst) : (s.modInst i f).couch = s.couch := rfl
@[simp] theorem State.modInst_links (i : Nat) (f : Inst → Inst) : (s.modInst i f).links = s.links := rfl
@[simp] theorem State.modInst_vectors (i : Nat) (f : Inst → Inst) : (s.modInst i f).vectors = s.vectors := rfl
@[simp] theorem State.modInst_insts (i : Nat) (f : Inst → Inst) : (s.modInst i f).insts = s.insts.modifyD i Inst.reset f := rfl
@[simp] theorem State.modInst_doors (i : Nat) (f : Inst → Inst) : (s.modInst i f).doors = s.doors := rfl
@[simp] theorem State.modInst_ctrl (i : Nat) (f : Inst → Inst) : (s.modInst i f).ctrl = s.ctrl := rfl
@[simp] theorem State.modInst_pwr (i : Nat) (f : Inst → Inst) : (s.modInst i f).pwr = s.pwr := rfl
@[simp] theorem State.modInst_flt (i : Nat) (f : Inst → Inst) : (s.modInst i f).flt = s.flt := rfl
@[simp] theorem State.modInst_boot (i : Nat) (f : Inst → Inst) : (s.modInst i f).boot = s.boot := rfl
@[simp] theorem State.modInst_mtr (i : Nat) (f : Inst → Inst) : (s.modInst i f).mtr = s.mtr := rfl
@[simp] theorem State.modInst_tst (i : Nat) (f : Inst → Inst) : (s.modInst i f).tst = s.tst := rfl
@[simp] theorem State.modInst_pins (i : Nat) (f : Inst → Inst) : (s.modInst i f).pins = s.pins := rfl
@[simp] theorem State.modInst_inbox (i : Nat) (f : Inst → Inst) : (s.modInst i f).inbox = s.inbox := rfl
@[simp] theorem State.modInst_out (i : Nat) (f : Inst → Inst) : (s.modInst i f).out = s.out := rfl

/-! #### State.modWin -/
@[simp] theorem State.modWin_pending (i : Nat) (f : Window → Window) : (s.modWin i f).pending = s.pending := rfl
@[simp] theorem State.modWin_draw (i : Nat) (f : Window → Window) : (s.modWin i f).draw = s.draw := rfl
@[simp] theorem State.modWin_time (i : Nat) (f : Window → Window) : (s.modWin i f).time = s.time := rfl
@[simp] theorem State.modWin_plans (i : Nat) (f : Window → Window) : (s.modWin i f).plans = s.plans := rfl
@[simp] theorem State.modWin_queues (i : Nat) (f : Window → Window) : (s.modWin i f).queues = s.queues := rfl
@[simp] theorem State.modWin_rings (i : Nat) (f : Window → Window) : (s.modWin i f).rings = s.rings := rfl
@[simp] theorem State.modWin_sync (i : Nat) (f : Window → Window) : (s.modWin i f).sync = s.sync := rfl
@[simp] theorem State.modWin_qps (i : Nat) (f : Window → Window) : (s.modWin i f).qps = s.qps := rfl
@[simp] theorem State.modWin_tp (i : Nat) (f : Window → Window) : (s.modWin i f).tp = s.tp := rfl
@[simp] theorem State.modWin_coll (i : Nat) (f : Window → Window) : (s.modWin i f).coll = s.coll := rfl
@[simp] theorem State.modWin_ports (i : Nat) (f : Window → Window) : (s.modWin i f).ports = s.ports := rfl
@[simp] theorem State.modWin_routing (i : Nat) (f : Window → Window) : (s.modWin i f).routing = s.routing := rfl
@[simp] theorem State.modWin_eth (i : Nat) (f : Window → Window) : (s.modWin i f).eth = s.eth := rfl
@[simp] theorem State.modWin_hbm (i : Nat) (f : Window → Window) : (s.modWin i f).hbm = s.hbm := rfl
@[simp] theorem State.modWin_mem (i : Nat) (f : Window → Window) : (s.modWin i f).mem = s.mem := rfl
@[simp] theorem State.modWin_board0 (i : Nat) (f : Window → Window) : (s.modWin i f).board0 = s.board0 := rfl
@[simp] theorem State.modWin_board1 (i : Nat) (f : Window → Window) : (s.modWin i f).board1 = s.board1 := rfl
@[simp] theorem State.modWin_board2 (i : Nat) (f : Window → Window) : (s.modWin i f).board2 = s.board2 := rfl
@[simp] theorem State.modWin_board3 (i : Nat) (f : Window → Window) : (s.modWin i f).board3 = s.board3 := rfl
@[simp] theorem State.modWin_couch (i : Nat) (f : Window → Window) : (s.modWin i f).couch = s.couch := rfl
@[simp] theorem State.modWin_links (i : Nat) (f : Window → Window) : (s.modWin i f).links = s.links := rfl
@[simp] theorem State.modWin_vectors (i : Nat) (f : Window → Window) : (s.modWin i f).vectors = s.vectors := rfl
@[simp] theorem State.modWin_insts (i : Nat) (f : Window → Window) : (s.modWin i f).insts = s.insts.modifyD i Inst.reset (fun x => { x with win := f x.win }) := rfl
@[simp] theorem State.modWin_doors (i : Nat) (f : Window → Window) : (s.modWin i f).doors = s.doors := rfl
@[simp] theorem State.modWin_ctrl (i : Nat) (f : Window → Window) : (s.modWin i f).ctrl = s.ctrl := rfl
@[simp] theorem State.modWin_pwr (i : Nat) (f : Window → Window) : (s.modWin i f).pwr = s.pwr := rfl
@[simp] theorem State.modWin_flt (i : Nat) (f : Window → Window) : (s.modWin i f).flt = s.flt := rfl
@[simp] theorem State.modWin_boot (i : Nat) (f : Window → Window) : (s.modWin i f).boot = s.boot := rfl
@[simp] theorem State.modWin_mtr (i : Nat) (f : Window → Window) : (s.modWin i f).mtr = s.mtr := rfl
@[simp] theorem State.modWin_tst (i : Nat) (f : Window → Window) : (s.modWin i f).tst = s.tst := rfl
@[simp] theorem State.modWin_pins (i : Nat) (f : Window → Window) : (s.modWin i f).pins = s.pins := rfl
@[simp] theorem State.modWin_inbox (i : Nat) (f : Window → Window) : (s.modWin i f).inbox = s.inbox := rfl
@[simp] theorem State.modWin_out (i : Nat) (f : Window → Window) : (s.modWin i f).out = s.out := rfl

/-! #### State.modVec -/
@[simp] theorem State.modVec_pending (v : Nat) (f : Vec → Vec) : (s.modVec v f).pending = s.pending := rfl
@[simp] theorem State.modVec_draw (v : Nat) (f : Vec → Vec) : (s.modVec v f).draw = s.draw := rfl
@[simp] theorem State.modVec_time (v : Nat) (f : Vec → Vec) : (s.modVec v f).time = s.time := rfl
@[simp] theorem State.modVec_plans (v : Nat) (f : Vec → Vec) : (s.modVec v f).plans = s.plans := rfl
@[simp] theorem State.modVec_queues (v : Nat) (f : Vec → Vec) : (s.modVec v f).queues = s.queues := rfl
@[simp] theorem State.modVec_rings (v : Nat) (f : Vec → Vec) : (s.modVec v f).rings = s.rings := rfl
@[simp] theorem State.modVec_sync (v : Nat) (f : Vec → Vec) : (s.modVec v f).sync = s.sync := rfl
@[simp] theorem State.modVec_qps (v : Nat) (f : Vec → Vec) : (s.modVec v f).qps = s.qps := rfl
@[simp] theorem State.modVec_tp (v : Nat) (f : Vec → Vec) : (s.modVec v f).tp = s.tp := rfl
@[simp] theorem State.modVec_coll (v : Nat) (f : Vec → Vec) : (s.modVec v f).coll = s.coll := rfl
@[simp] theorem State.modVec_ports (v : Nat) (f : Vec → Vec) : (s.modVec v f).ports = s.ports := rfl
@[simp] theorem State.modVec_routing (v : Nat) (f : Vec → Vec) : (s.modVec v f).routing = s.routing := rfl
@[simp] theorem State.modVec_eth (v : Nat) (f : Vec → Vec) : (s.modVec v f).eth = s.eth := rfl
@[simp] theorem State.modVec_hbm (v : Nat) (f : Vec → Vec) : (s.modVec v f).hbm = s.hbm := rfl
@[simp] theorem State.modVec_mem (v : Nat) (f : Vec → Vec) : (s.modVec v f).mem = s.mem := rfl
@[simp] theorem State.modVec_board0 (v : Nat) (f : Vec → Vec) : (s.modVec v f).board0 = s.board0 := rfl
@[simp] theorem State.modVec_board1 (v : Nat) (f : Vec → Vec) : (s.modVec v f).board1 = s.board1 := rfl
@[simp] theorem State.modVec_board2 (v : Nat) (f : Vec → Vec) : (s.modVec v f).board2 = s.board2 := rfl
@[simp] theorem State.modVec_board3 (v : Nat) (f : Vec → Vec) : (s.modVec v f).board3 = s.board3 := rfl
@[simp] theorem State.modVec_couch (v : Nat) (f : Vec → Vec) : (s.modVec v f).couch = s.couch := rfl
@[simp] theorem State.modVec_links (v : Nat) (f : Vec → Vec) : (s.modVec v f).links = s.links := rfl
@[simp] theorem State.modVec_vectors (v : Nat) (f : Vec → Vec) : (s.modVec v f).vectors = s.vectors.modifyD v default f := rfl
@[simp] theorem State.modVec_insts (v : Nat) (f : Vec → Vec) : (s.modVec v f).insts = s.insts := rfl
@[simp] theorem State.modVec_doors (v : Nat) (f : Vec → Vec) : (s.modVec v f).doors = s.doors := rfl
@[simp] theorem State.modVec_ctrl (v : Nat) (f : Vec → Vec) : (s.modVec v f).ctrl = s.ctrl := rfl
@[simp] theorem State.modVec_pwr (v : Nat) (f : Vec → Vec) : (s.modVec v f).pwr = s.pwr := rfl
@[simp] theorem State.modVec_flt (v : Nat) (f : Vec → Vec) : (s.modVec v f).flt = s.flt := rfl
@[simp] theorem State.modVec_boot (v : Nat) (f : Vec → Vec) : (s.modVec v f).boot = s.boot := rfl
@[simp] theorem State.modVec_mtr (v : Nat) (f : Vec → Vec) : (s.modVec v f).mtr = s.mtr := rfl
@[simp] theorem State.modVec_tst (v : Nat) (f : Vec → Vec) : (s.modVec v f).tst = s.tst := rfl
@[simp] theorem State.modVec_pins (v : Nat) (f : Vec → Vec) : (s.modVec v f).pins = s.pins := rfl
@[simp] theorem State.modVec_inbox (v : Nat) (f : Vec → Vec) : (s.modVec v f).inbox = s.inbox := rfl
@[simp] theorem State.modVec_out (v : Nat) (f : Vec → Vec) : (s.modVec v f).out = s.out := rfl

/-! #### State.modDoor -/
@[simp] theorem State.modDoor_pending (d : Nat) (f : DoorState → DoorState) : (s.modDoor d f).pending = s.pending := rfl
@[simp] theorem State.modDoor_draw (d : Nat) (f : DoorState → DoorState) : (s.modDoor d f).draw = s.draw := rfl
@[simp] theorem State.modDoor_time (d : Nat) (f : DoorState → DoorState) : (s.modDoor d f).time = s.time := rfl
@[simp] theorem State.modDoor_plans (d : Nat) (f : DoorState → DoorState) : (s.modDoor d f).plans = s.plans := rfl
@[simp] theorem State.modDoor_queues (d : Nat) (f : DoorState → DoorState) : (s.modDoor d f).queues = s.queues := rfl
@[simp] theorem State.modDoor_rings (d : Nat) (f : DoorState → DoorState) : (s.modDoor d f).rings = s.rings := rfl
@[simp] theorem State.modDoor_sync (d : Nat) (f : DoorState → DoorState) : (s.modDoor d f).sync = s.sync := rfl
@[simp] theorem State.modDoor_qps (d : Nat) (f : DoorState → DoorState) : (s.modDoor d f).qps = s.qps := rfl
@[simp] theorem State.modDoor_tp (d : Nat) (f : DoorState → DoorState) : (s.modDoor d f).tp = s.tp := rfl
@[simp] theorem State.modDoor_coll (d : Nat) (f : DoorState → DoorState) : (s.modDoor d f).coll = s.coll := rfl
@[simp] theorem State.modDoor_ports (d : Nat) (f : DoorState → DoorState) : (s.modDoor d f).ports = s.ports := rfl
@[simp] theorem State.modDoor_routing (d : Nat) (f : DoorState → DoorState) : (s.modDoor d f).routing = s.routing := rfl
@[simp] theorem State.modDoor_eth (d : Nat) (f : DoorState → DoorState) : (s.modDoor d f).eth = s.eth := rfl
@[simp] theorem State.modDoor_hbm (d : Nat) (f : DoorState → DoorState) : (s.modDoor d f).hbm = s.hbm := rfl
@[simp] theorem State.modDoor_mem (d : Nat) (f : DoorState → DoorState) : (s.modDoor d f).mem = s.mem := rfl
@[simp] theorem State.modDoor_board0 (d : Nat) (f : DoorState → DoorState) : (s.modDoor d f).board0 = s.board0 := rfl
@[simp] theorem State.modDoor_board1 (d : Nat) (f : DoorState → DoorState) : (s.modDoor d f).board1 = s.board1 := rfl
@[simp] theorem State.modDoor_board2 (d : Nat) (f : DoorState → DoorState) : (s.modDoor d f).board2 = s.board2 := rfl
@[simp] theorem State.modDoor_board3 (d : Nat) (f : DoorState → DoorState) : (s.modDoor d f).board3 = s.board3 := rfl
@[simp] theorem State.modDoor_couch (d : Nat) (f : DoorState → DoorState) : (s.modDoor d f).couch = s.couch := rfl
@[simp] theorem State.modDoor_links (d : Nat) (f : DoorState → DoorState) : (s.modDoor d f).links = s.links := rfl
@[simp] theorem State.modDoor_vectors (d : Nat) (f : DoorState → DoorState) : (s.modDoor d f).vectors = s.vectors := rfl
@[simp] theorem State.modDoor_insts (d : Nat) (f : DoorState → DoorState) : (s.modDoor d f).insts = s.insts := rfl
@[simp] theorem State.modDoor_doors (d : Nat) (f : DoorState → DoorState) : (s.modDoor d f).doors = s.doors.modifyD d default f := rfl
@[simp] theorem State.modDoor_ctrl (d : Nat) (f : DoorState → DoorState) : (s.modDoor d f).ctrl = s.ctrl := rfl
@[simp] theorem State.modDoor_pwr (d : Nat) (f : DoorState → DoorState) : (s.modDoor d f).pwr = s.pwr := rfl
@[simp] theorem State.modDoor_flt (d : Nat) (f : DoorState → DoorState) : (s.modDoor d f).flt = s.flt := rfl
@[simp] theorem State.modDoor_boot (d : Nat) (f : DoorState → DoorState) : (s.modDoor d f).boot = s.boot := rfl
@[simp] theorem State.modDoor_mtr (d : Nat) (f : DoorState → DoorState) : (s.modDoor d f).mtr = s.mtr := rfl
@[simp] theorem State.modDoor_tst (d : Nat) (f : DoorState → DoorState) : (s.modDoor d f).tst = s.tst := rfl
@[simp] theorem State.modDoor_pins (d : Nat) (f : DoorState → DoorState) : (s.modDoor d f).pins = s.pins := rfl
@[simp] theorem State.modDoor_inbox (d : Nat) (f : DoorState → DoorState) : (s.modDoor d f).inbox = s.inbox := rfl
@[simp] theorem State.modDoor_out (d : Nat) (f : DoorState → DoorState) : (s.modDoor d f).out = s.out := rfl

/-! #### State.modSlot -/
@[simp] theorem State.modSlot_pending (n : Nat) (f : Slot → Slot) : (s.modSlot n f).pending = s.pending := rfl
@[simp] theorem State.modSlot_draw (n : Nat) (f : Slot → Slot) : (s.modSlot n f).draw = s.draw := rfl
@[simp] theorem State.modSlot_time (n : Nat) (f : Slot → Slot) : (s.modSlot n f).time = s.time := rfl
@[simp] theorem State.modSlot_plans (n : Nat) (f : Slot → Slot) : (s.modSlot n f).plans = s.plans := rfl
@[simp] theorem State.modSlot_queues (n : Nat) (f : Slot → Slot) : (s.modSlot n f).queues = s.queues := rfl
@[simp] theorem State.modSlot_rings (n : Nat) (f : Slot → Slot) : (s.modSlot n f).rings = s.rings := rfl
@[simp] theorem State.modSlot_sync (n : Nat) (f : Slot → Slot) : (s.modSlot n f).sync = s.sync := rfl
@[simp] theorem State.modSlot_qps (n : Nat) (f : Slot → Slot) : (s.modSlot n f).qps = s.qps := rfl
@[simp] theorem State.modSlot_tp (n : Nat) (f : Slot → Slot) : (s.modSlot n f).tp = s.tp := rfl
@[simp] theorem State.modSlot_coll (n : Nat) (f : Slot → Slot) : (s.modSlot n f).coll = { s.coll with slots := s.coll.slots.modifyD n Slot.reset f } := rfl
@[simp] theorem State.modSlot_ports (n : Nat) (f : Slot → Slot) : (s.modSlot n f).ports = s.ports := rfl
@[simp] theorem State.modSlot_routing (n : Nat) (f : Slot → Slot) : (s.modSlot n f).routing = s.routing := rfl
@[simp] theorem State.modSlot_eth (n : Nat) (f : Slot → Slot) : (s.modSlot n f).eth = s.eth := rfl
@[simp] theorem State.modSlot_hbm (n : Nat) (f : Slot → Slot) : (s.modSlot n f).hbm = s.hbm := rfl
@[simp] theorem State.modSlot_mem (n : Nat) (f : Slot → Slot) : (s.modSlot n f).mem = s.mem := rfl
@[simp] theorem State.modSlot_board0 (n : Nat) (f : Slot → Slot) : (s.modSlot n f).board0 = s.board0 := rfl
@[simp] theorem State.modSlot_board1 (n : Nat) (f : Slot → Slot) : (s.modSlot n f).board1 = s.board1 := rfl
@[simp] theorem State.modSlot_board2 (n : Nat) (f : Slot → Slot) : (s.modSlot n f).board2 = s.board2 := rfl
@[simp] theorem State.modSlot_board3 (n : Nat) (f : Slot → Slot) : (s.modSlot n f).board3 = s.board3 := rfl
@[simp] theorem State.modSlot_couch (n : Nat) (f : Slot → Slot) : (s.modSlot n f).couch = s.couch := rfl
@[simp] theorem State.modSlot_links (n : Nat) (f : Slot → Slot) : (s.modSlot n f).links = s.links := rfl
@[simp] theorem State.modSlot_vectors (n : Nat) (f : Slot → Slot) : (s.modSlot n f).vectors = s.vectors := rfl
@[simp] theorem State.modSlot_insts (n : Nat) (f : Slot → Slot) : (s.modSlot n f).insts = s.insts := rfl
@[simp] theorem State.modSlot_doors (n : Nat) (f : Slot → Slot) : (s.modSlot n f).doors = s.doors := rfl
@[simp] theorem State.modSlot_ctrl (n : Nat) (f : Slot → Slot) : (s.modSlot n f).ctrl = s.ctrl := rfl
@[simp] theorem State.modSlot_pwr (n : Nat) (f : Slot → Slot) : (s.modSlot n f).pwr = s.pwr := rfl
@[simp] theorem State.modSlot_flt (n : Nat) (f : Slot → Slot) : (s.modSlot n f).flt = s.flt := rfl
@[simp] theorem State.modSlot_boot (n : Nat) (f : Slot → Slot) : (s.modSlot n f).boot = s.boot := rfl
@[simp] theorem State.modSlot_mtr (n : Nat) (f : Slot → Slot) : (s.modSlot n f).mtr = s.mtr := rfl
@[simp] theorem State.modSlot_tst (n : Nat) (f : Slot → Slot) : (s.modSlot n f).tst = s.tst := rfl
@[simp] theorem State.modSlot_pins (n : Nat) (f : Slot → Slot) : (s.modSlot n f).pins = s.pins := rfl
@[simp] theorem State.modSlot_inbox (n : Nat) (f : Slot → Slot) : (s.modSlot n f).inbox = s.inbox := rfl
@[simp] theorem State.modSlot_out (n : Nat) (f : Slot → Slot) : (s.modSlot n f).out = s.out := rfl

/-! #### State.modGranule -/
@[simp] theorem State.modGranule_pending (g : Nat) (f : Granule → Granule) : (s.modGranule g f).pending = s.pending := rfl
@[simp] theorem State.modGranule_draw (g : Nat) (f : Granule → Granule) : (s.modGranule g f).draw = s.draw := rfl
@[simp] theorem State.modGranule_time (g : Nat) (f : Granule → Granule) : (s.modGranule g f).time = s.time := rfl
@[simp] theorem State.modGranule_plans (g : Nat) (f : Granule → Granule) : (s.modGranule g f).plans = s.plans := rfl
@[simp] theorem State.modGranule_queues (g : Nat) (f : Granule → Granule) : (s.modGranule g f).queues = s.queues := rfl
@[simp] theorem State.modGranule_rings (g : Nat) (f : Granule → Granule) : (s.modGranule g f).rings = s.rings := rfl
@[simp] theorem State.modGranule_sync (g : Nat) (f : Granule → Granule) : (s.modGranule g f).sync = { s.sync with granules := s.sync.granules.modifyD g default f } := rfl
@[simp] theorem State.modGranule_qps (g : Nat) (f : Granule → Granule) : (s.modGranule g f).qps = s.qps := rfl
@[simp] theorem State.modGranule_tp (g : Nat) (f : Granule → Granule) : (s.modGranule g f).tp = s.tp := rfl
@[simp] theorem State.modGranule_coll (g : Nat) (f : Granule → Granule) : (s.modGranule g f).coll = s.coll := rfl
@[simp] theorem State.modGranule_ports (g : Nat) (f : Granule → Granule) : (s.modGranule g f).ports = s.ports := rfl
@[simp] theorem State.modGranule_routing (g : Nat) (f : Granule → Granule) : (s.modGranule g f).routing = s.routing := rfl
@[simp] theorem State.modGranule_eth (g : Nat) (f : Granule → Granule) : (s.modGranule g f).eth = s.eth := rfl
@[simp] theorem State.modGranule_hbm (g : Nat) (f : Granule → Granule) : (s.modGranule g f).hbm = s.hbm := rfl
@[simp] theorem State.modGranule_mem (g : Nat) (f : Granule → Granule) : (s.modGranule g f).mem = s.mem := rfl
@[simp] theorem State.modGranule_board0 (g : Nat) (f : Granule → Granule) : (s.modGranule g f).board0 = s.board0 := rfl
@[simp] theorem State.modGranule_board1 (g : Nat) (f : Granule → Granule) : (s.modGranule g f).board1 = s.board1 := rfl
@[simp] theorem State.modGranule_board2 (g : Nat) (f : Granule → Granule) : (s.modGranule g f).board2 = s.board2 := rfl
@[simp] theorem State.modGranule_board3 (g : Nat) (f : Granule → Granule) : (s.modGranule g f).board3 = s.board3 := rfl
@[simp] theorem State.modGranule_couch (g : Nat) (f : Granule → Granule) : (s.modGranule g f).couch = s.couch := rfl
@[simp] theorem State.modGranule_links (g : Nat) (f : Granule → Granule) : (s.modGranule g f).links = s.links := rfl
@[simp] theorem State.modGranule_vectors (g : Nat) (f : Granule → Granule) : (s.modGranule g f).vectors = s.vectors := rfl
@[simp] theorem State.modGranule_insts (g : Nat) (f : Granule → Granule) : (s.modGranule g f).insts = s.insts := rfl
@[simp] theorem State.modGranule_doors (g : Nat) (f : Granule → Granule) : (s.modGranule g f).doors = s.doors := rfl
@[simp] theorem State.modGranule_ctrl (g : Nat) (f : Granule → Granule) : (s.modGranule g f).ctrl = s.ctrl := rfl
@[simp] theorem State.modGranule_pwr (g : Nat) (f : Granule → Granule) : (s.modGranule g f).pwr = s.pwr := rfl
@[simp] theorem State.modGranule_flt (g : Nat) (f : Granule → Granule) : (s.modGranule g f).flt = s.flt := rfl
@[simp] theorem State.modGranule_boot (g : Nat) (f : Granule → Granule) : (s.modGranule g f).boot = s.boot := rfl
@[simp] theorem State.modGranule_mtr (g : Nat) (f : Granule → Granule) : (s.modGranule g f).mtr = s.mtr := rfl
@[simp] theorem State.modGranule_tst (g : Nat) (f : Granule → Granule) : (s.modGranule g f).tst = s.tst := rfl
@[simp] theorem State.modGranule_pins (g : Nat) (f : Granule → Granule) : (s.modGranule g f).pins = s.pins := rfl
@[simp] theorem State.modGranule_inbox (g : Nat) (f : Granule → Granule) : (s.modGranule g f).inbox = s.inbox := rfl
@[simp] theorem State.modGranule_out (g : Nat) (f : Granule → Granule) : (s.modGranule g f).out = s.out := rfl

/-! #### State.modStack -/
@[simp] theorem State.modStack_pending (n : Nat) (f : Stack → Stack) : (s.modStack n f).pending = s.pending := rfl
@[simp] theorem State.modStack_draw (n : Nat) (f : Stack → Stack) : (s.modStack n f).draw = s.draw := rfl
@[simp] theorem State.modStack_time (n : Nat) (f : Stack → Stack) : (s.modStack n f).time = s.time := rfl
@[simp] theorem State.modStack_plans (n : Nat) (f : Stack → Stack) : (s.modStack n f).plans = s.plans := rfl
@[simp] theorem State.modStack_queues (n : Nat) (f : Stack → Stack) : (s.modStack n f).queues = s.queues := rfl
@[simp] theorem State.modStack_rings (n : Nat) (f : Stack → Stack) : (s.modStack n f).rings = s.rings := rfl
@[simp] theorem State.modStack_sync (n : Nat) (f : Stack → Stack) : (s.modStack n f).sync = s.sync := rfl
@[simp] theorem State.modStack_qps (n : Nat) (f : Stack → Stack) : (s.modStack n f).qps = s.qps := rfl
@[simp] theorem State.modStack_tp (n : Nat) (f : Stack → Stack) : (s.modStack n f).tp = s.tp := rfl
@[simp] theorem State.modStack_coll (n : Nat) (f : Stack → Stack) : (s.modStack n f).coll = s.coll := rfl
@[simp] theorem State.modStack_ports (n : Nat) (f : Stack → Stack) : (s.modStack n f).ports = s.ports := rfl
@[simp] theorem State.modStack_routing (n : Nat) (f : Stack → Stack) : (s.modStack n f).routing = s.routing := rfl
@[simp] theorem State.modStack_eth (n : Nat) (f : Stack → Stack) : (s.modStack n f).eth = s.eth := rfl
@[simp] theorem State.modStack_hbm (n : Nat) (f : Stack → Stack) : (s.modStack n f).hbm = { s.hbm with perStack := s.hbm.perStack.modifyD n (Stack.reset n) f } := rfl
@[simp] theorem State.modStack_mem (n : Nat) (f : Stack → Stack) : (s.modStack n f).mem = s.mem := rfl
@[simp] theorem State.modStack_board0 (n : Nat) (f : Stack → Stack) : (s.modStack n f).board0 = s.board0 := rfl
@[simp] theorem State.modStack_board1 (n : Nat) (f : Stack → Stack) : (s.modStack n f).board1 = s.board1 := rfl
@[simp] theorem State.modStack_board2 (n : Nat) (f : Stack → Stack) : (s.modStack n f).board2 = s.board2 := rfl
@[simp] theorem State.modStack_board3 (n : Nat) (f : Stack → Stack) : (s.modStack n f).board3 = s.board3 := rfl
@[simp] theorem State.modStack_couch (n : Nat) (f : Stack → Stack) : (s.modStack n f).couch = s.couch := rfl
@[simp] theorem State.modStack_links (n : Nat) (f : Stack → Stack) : (s.modStack n f).links = s.links := rfl
@[simp] theorem State.modStack_vectors (n : Nat) (f : Stack → Stack) : (s.modStack n f).vectors = s.vectors := rfl
@[simp] theorem State.modStack_insts (n : Nat) (f : Stack → Stack) : (s.modStack n f).insts = s.insts := rfl
@[simp] theorem State.modStack_doors (n : Nat) (f : Stack → Stack) : (s.modStack n f).doors = s.doors := rfl
@[simp] theorem State.modStack_ctrl (n : Nat) (f : Stack → Stack) : (s.modStack n f).ctrl = s.ctrl := rfl
@[simp] theorem State.modStack_pwr (n : Nat) (f : Stack → Stack) : (s.modStack n f).pwr = s.pwr := rfl
@[simp] theorem State.modStack_flt (n : Nat) (f : Stack → Stack) : (s.modStack n f).flt = s.flt := rfl
@[simp] theorem State.modStack_boot (n : Nat) (f : Stack → Stack) : (s.modStack n f).boot = s.boot := rfl
@[simp] theorem State.modStack_mtr (n : Nat) (f : Stack → Stack) : (s.modStack n f).mtr = s.mtr := rfl
@[simp] theorem State.modStack_tst (n : Nat) (f : Stack → Stack) : (s.modStack n f).tst = s.tst := rfl
@[simp] theorem State.modStack_pins (n : Nat) (f : Stack → Stack) : (s.modStack n f).pins = s.pins := rfl
@[simp] theorem State.modStack_inbox (n : Nat) (f : Stack → Stack) : (s.modStack n f).inbox = s.inbox := rfl
@[simp] theorem State.modStack_out (n : Nat) (f : Stack → Stack) : (s.modStack n f).out = s.out := rfl

/-! #### State.modCouch -/
@[simp] theorem State.modCouch_pending (r : Nat) (f : Couch → Couch) : (s.modCouch r f).pending = s.pending := rfl
@[simp] theorem State.modCouch_draw (r : Nat) (f : Couch → Couch) : (s.modCouch r f).draw = s.draw := rfl
@[simp] theorem State.modCouch_time (r : Nat) (f : Couch → Couch) : (s.modCouch r f).time = s.time := rfl
@[simp] theorem State.modCouch_plans (r : Nat) (f : Couch → Couch) : (s.modCouch r f).plans = s.plans := rfl
@[simp] theorem State.modCouch_queues (r : Nat) (f : Couch → Couch) : (s.modCouch r f).queues = s.queues := rfl
@[simp] theorem State.modCouch_rings (r : Nat) (f : Couch → Couch) : (s.modCouch r f).rings = s.rings := rfl
@[simp] theorem State.modCouch_sync (r : Nat) (f : Couch → Couch) : (s.modCouch r f).sync = s.sync := rfl
@[simp] theorem State.modCouch_qps (r : Nat) (f : Couch → Couch) : (s.modCouch r f).qps = s.qps := rfl
@[simp] theorem State.modCouch_tp (r : Nat) (f : Couch → Couch) : (s.modCouch r f).tp = s.tp := rfl
@[simp] theorem State.modCouch_coll (r : Nat) (f : Couch → Couch) : (s.modCouch r f).coll = s.coll := rfl
@[simp] theorem State.modCouch_ports (r : Nat) (f : Couch → Couch) : (s.modCouch r f).ports = s.ports := rfl
@[simp] theorem State.modCouch_routing (r : Nat) (f : Couch → Couch) : (s.modCouch r f).routing = s.routing := rfl
@[simp] theorem State.modCouch_eth (r : Nat) (f : Couch → Couch) : (s.modCouch r f).eth = s.eth := rfl
@[simp] theorem State.modCouch_hbm (r : Nat) (f : Couch → Couch) : (s.modCouch r f).hbm = s.hbm := rfl
@[simp] theorem State.modCouch_mem (r : Nat) (f : Couch → Couch) : (s.modCouch r f).mem = s.mem := rfl
@[simp] theorem State.modCouch_board0 (r : Nat) (f : Couch → Couch) : (s.modCouch r f).board0 = s.board0 := rfl
@[simp] theorem State.modCouch_board1 (r : Nat) (f : Couch → Couch) : (s.modCouch r f).board1 = s.board1 := rfl
@[simp] theorem State.modCouch_board2 (r : Nat) (f : Couch → Couch) : (s.modCouch r f).board2 = s.board2 := rfl
@[simp] theorem State.modCouch_board3 (r : Nat) (f : Couch → Couch) : (s.modCouch r f).board3 = s.board3 := rfl
@[simp] theorem State.modCouch_couch (r : Nat) (f : Couch → Couch) : (s.modCouch r f).couch = s.couch.modify r f := rfl
@[simp] theorem State.modCouch_links (r : Nat) (f : Couch → Couch) : (s.modCouch r f).links = s.links := rfl
@[simp] theorem State.modCouch_vectors (r : Nat) (f : Couch → Couch) : (s.modCouch r f).vectors = s.vectors := rfl
@[simp] theorem State.modCouch_insts (r : Nat) (f : Couch → Couch) : (s.modCouch r f).insts = s.insts := rfl
@[simp] theorem State.modCouch_doors (r : Nat) (f : Couch → Couch) : (s.modCouch r f).doors = s.doors := rfl
@[simp] theorem State.modCouch_ctrl (r : Nat) (f : Couch → Couch) : (s.modCouch r f).ctrl = s.ctrl := rfl
@[simp] theorem State.modCouch_pwr (r : Nat) (f : Couch → Couch) : (s.modCouch r f).pwr = s.pwr := rfl
@[simp] theorem State.modCouch_flt (r : Nat) (f : Couch → Couch) : (s.modCouch r f).flt = s.flt := rfl
@[simp] theorem State.modCouch_boot (r : Nat) (f : Couch → Couch) : (s.modCouch r f).boot = s.boot := rfl
@[simp] theorem State.modCouch_mtr (r : Nat) (f : Couch → Couch) : (s.modCouch r f).mtr = s.mtr := rfl
@[simp] theorem State.modCouch_tst (r : Nat) (f : Couch → Couch) : (s.modCouch r f).tst = s.tst := rfl
@[simp] theorem State.modCouch_pins (r : Nat) (f : Couch → Couch) : (s.modCouch r f).pins = s.pins := rfl
@[simp] theorem State.modCouch_inbox (r : Nat) (f : Couch → Couch) : (s.modCouch r f).inbox = s.inbox := rfl
@[simp] theorem State.modCouch_out (r : Nat) (f : Couch → Couch) : (s.modCouch r f).out = s.out := rfl

/-! #### State.sent -/
@[simp] theorem State.sent_pending (x : Sent) : (s.sent x).pending = s.pending := rfl
@[simp] theorem State.sent_draw (x : Sent) : (s.sent x).draw = s.draw := rfl
@[simp] theorem State.sent_time (x : Sent) : (s.sent x).time = s.time := rfl
@[simp] theorem State.sent_plans (x : Sent) : (s.sent x).plans = s.plans := rfl
@[simp] theorem State.sent_queues (x : Sent) : (s.sent x).queues = s.queues := rfl
@[simp] theorem State.sent_rings (x : Sent) : (s.sent x).rings = s.rings := rfl
@[simp] theorem State.sent_sync (x : Sent) : (s.sent x).sync = s.sync := rfl
@[simp] theorem State.sent_qps (x : Sent) : (s.sent x).qps = s.qps := rfl
@[simp] theorem State.sent_tp (x : Sent) : (s.sent x).tp = s.tp := rfl
@[simp] theorem State.sent_coll (x : Sent) : (s.sent x).coll = s.coll := rfl
@[simp] theorem State.sent_ports (x : Sent) : (s.sent x).ports = s.ports := rfl
@[simp] theorem State.sent_routing (x : Sent) : (s.sent x).routing = s.routing := rfl
@[simp] theorem State.sent_eth (x : Sent) : (s.sent x).eth = s.eth := rfl
@[simp] theorem State.sent_hbm (x : Sent) : (s.sent x).hbm = s.hbm := rfl
@[simp] theorem State.sent_mem (x : Sent) : (s.sent x).mem = s.mem := rfl
@[simp] theorem State.sent_board0 (x : Sent) : (s.sent x).board0 = s.board0 := rfl
@[simp] theorem State.sent_board1 (x : Sent) : (s.sent x).board1 = s.board1 := rfl
@[simp] theorem State.sent_board2 (x : Sent) : (s.sent x).board2 = s.board2 := rfl
@[simp] theorem State.sent_board3 (x : Sent) : (s.sent x).board3 = s.board3 := rfl
@[simp] theorem State.sent_couch (x : Sent) : (s.sent x).couch = s.couch := rfl
@[simp] theorem State.sent_links (x : Sent) : (s.sent x).links = s.links := rfl
@[simp] theorem State.sent_vectors (x : Sent) : (s.sent x).vectors = s.vectors := rfl
@[simp] theorem State.sent_insts (x : Sent) : (s.sent x).insts = s.insts := rfl
@[simp] theorem State.sent_doors (x : Sent) : (s.sent x).doors = s.doors := rfl
@[simp] theorem State.sent_ctrl (x : Sent) : (s.sent x).ctrl = s.ctrl := rfl
@[simp] theorem State.sent_pwr (x : Sent) : (s.sent x).pwr = s.pwr := rfl
@[simp] theorem State.sent_flt (x : Sent) : (s.sent x).flt = s.flt := rfl
@[simp] theorem State.sent_boot (x : Sent) : (s.sent x).boot = s.boot := rfl
@[simp] theorem State.sent_mtr (x : Sent) : (s.sent x).mtr = s.mtr := rfl
@[simp] theorem State.sent_tst (x : Sent) : (s.sent x).tst = s.tst := rfl
@[simp] theorem State.sent_pins (x : Sent) : (s.sent x).pins = s.pins := rfl
@[simp] theorem State.sent_inbox (x : Sent) : (s.sent x).inbox = s.inbox := rfl
@[simp] theorem State.sent_out (x : Sent) : (s.sent x).out = x :: s.out := rfl

/-! #### State.arriveAt -/
@[simp] theorem State.arriveAt_pending (t : Nat) : (s.arriveAt t).pending = s.pending := rfl
@[simp] theorem State.arriveAt_draw (t : Nat) : (s.arriveAt t).draw = s.draw := rfl
@[simp] theorem State.arriveAt_time (t : Nat) : (s.arriveAt t).time = passTo s.time (max s.time.now (tickStart t)) := rfl
@[simp] theorem State.arriveAt_plans (t : Nat) : (s.arriveAt t).plans = s.plans := rfl
@[simp] theorem State.arriveAt_queues (t : Nat) : (s.arriveAt t).queues = s.queues := rfl
@[simp] theorem State.arriveAt_rings (t : Nat) : (s.arriveAt t).rings = s.rings := rfl
@[simp] theorem State.arriveAt_sync (t : Nat) : (s.arriveAt t).sync = s.sync := rfl
@[simp] theorem State.arriveAt_qps (t : Nat) : (s.arriveAt t).qps = s.qps := rfl
@[simp] theorem State.arriveAt_tp (t : Nat) : (s.arriveAt t).tp = s.tp := rfl
@[simp] theorem State.arriveAt_coll (t : Nat) : (s.arriveAt t).coll = s.coll := rfl
@[simp] theorem State.arriveAt_ports (t : Nat) : (s.arriveAt t).ports = s.ports := rfl
@[simp] theorem State.arriveAt_routing (t : Nat) : (s.arriveAt t).routing = s.routing := rfl
@[simp] theorem State.arriveAt_eth (t : Nat) : (s.arriveAt t).eth = s.eth := rfl
@[simp] theorem State.arriveAt_hbm (t : Nat) : (s.arriveAt t).hbm = s.hbm := rfl
@[simp] theorem State.arriveAt_mem (t : Nat) : (s.arriveAt t).mem = s.mem := rfl
@[simp] theorem State.arriveAt_board0 (t : Nat) : (s.arriveAt t).board0 = s.board0 := rfl
@[simp] theorem State.arriveAt_board1 (t : Nat) : (s.arriveAt t).board1 = s.board1 := rfl
@[simp] theorem State.arriveAt_board2 (t : Nat) : (s.arriveAt t).board2 = s.board2 := rfl
@[simp] theorem State.arriveAt_board3 (t : Nat) : (s.arriveAt t).board3 = s.board3 := rfl
@[simp] theorem State.arriveAt_couch (t : Nat) : (s.arriveAt t).couch = s.couch := rfl
@[simp] theorem State.arriveAt_links (t : Nat) : (s.arriveAt t).links = s.links := rfl
@[simp] theorem State.arriveAt_vectors (t : Nat) : (s.arriveAt t).vectors = s.vectors := rfl
@[simp] theorem State.arriveAt_insts (t : Nat) : (s.arriveAt t).insts = s.insts := rfl
@[simp] theorem State.arriveAt_doors (t : Nat) : (s.arriveAt t).doors = s.doors := rfl
@[simp] theorem State.arriveAt_ctrl (t : Nat) : (s.arriveAt t).ctrl = s.ctrl := rfl
@[simp] theorem State.arriveAt_pwr (t : Nat) : (s.arriveAt t).pwr = s.pwr := rfl
@[simp] theorem State.arriveAt_flt (t : Nat) : (s.arriveAt t).flt = s.flt := rfl
@[simp] theorem State.arriveAt_boot (t : Nat) : (s.arriveAt t).boot = s.boot := rfl
@[simp] theorem State.arriveAt_mtr (t : Nat) : (s.arriveAt t).mtr = s.mtr := rfl
@[simp] theorem State.arriveAt_tst (t : Nat) : (s.arriveAt t).tst = s.tst := rfl
@[simp] theorem State.arriveAt_pins (t : Nat) : (s.arriveAt t).pins = s.pins := rfl
@[simp] theorem State.arriveAt_inbox (t : Nat) : (s.arriveAt t).inbox = s.inbox := rfl
@[simp] theorem State.arriveAt_out (t : Nat) : (s.arriveAt t).out = s.out := rfl

@[simp] theorem State.arriveAt_now (t : Nat) : (s.arriveAt t).now = max s.now (tickStart t) := rfl

end Sys2Proof.Machine
end

