-- ==== Sys2Proof/Laws/Memory.lean ====
section
/-! SUPPORT. Laws of byte memory: a read after a write, and the canonical form, which every memory operation
keeps. -/

namespace Sys2Proof.Machine

/-- A byte below the first listed address is unlisted. -/
theorem readByte_below {lo : Nat} {m : List Host.Cell} (h : memWfFrom lo m = true) {a : Nat} (ha : a < lo) :
    readByte m a = unlistedByte := by
  induction m generalizing lo with
  | nil => rfl
  | cons c rest ih =>
    obtain ⟨k, v⟩ := c
    simp only [memWfFrom, Bool.and_eq_true, decide_eq_true_eq] at h
    have hk : k ≠ a := by omega
    simp [readByte, hk, ih h.2 (by omega : a < k + 1)]

theorem memWfFrom_weaken {lo lo' : Nat} {m : List Host.Cell} (hle : lo' ≤ lo) (h : memWfFrom lo m = true) :
    memWfFrom lo' m = true := by
  cases m with
  | nil => rfl
  | cons c rest =>
    obtain ⟨k, v⟩ := c
    simp only [memWfFrom, Bool.and_eq_true, decide_eq_true_eq] at h ⊢
    exact ⟨⟨by omega, h.1.2⟩, h.2⟩

theorem memWfFrom_writeByte {lo : Nat} {m : List Host.Cell} (h : memWfFrom lo m = true) {a : Nat} (b : Byte)
    (ha : lo ≤ a) : memWfFrom lo (writeByte m a b) = true := by
  induction m generalizing lo with
  | nil =>
    simp only [writeByte]
    split
    · rfl
    · rename_i hb
      simp [memWfFrom, ha, hb]
  | cons c rest ih =>
    obtain ⟨k, v⟩ := c
    simp only [memWfFrom, Bool.and_eq_true, decide_eq_true_eq] at h
    simp only [writeByte]
    split
    · split
      · simp [memWfFrom, h]
      · rename_i hak hb
        simp only [memWfFrom, Bool.and_eq_true, decide_eq_true_eq]
        exact ⟨⟨ha, hb⟩, ⟨by omega, h.1.2⟩, h.2⟩
    · split
      · split
        · exact memWfFrom_weaken (by omega) h.2
        · rename_i _ hak hb
          subst hak
          simp only [memWfFrom, Bool.and_eq_true, decide_eq_true_eq]
          exact ⟨⟨ha, hb⟩, h.2⟩
      · simp only [memWfFrom, Bool.and_eq_true, decide_eq_true_eq]
        exact ⟨h.1, ih h.2 (by omega)⟩

/-- Storing a byte keeps the canonical form. -/
theorem wf_writeByte {m : List Host.Cell} (h : Memory.wf m = true) (a : Nat) (b : Byte) :
    Memory.wf (writeByte m a b) = true := memWfFrom_writeByte h b (Nat.zero_le a)

/-- Storing bytes keeps the canonical form. -/
theorem wf_writeBytes {m : List Host.Cell} (h : Memory.wf m = true) (a : Nat) (bs : List Byte) :
    Memory.wf (writeBytes m a bs) = true := by
  induction bs generalizing m a with
  | nil => exact h
  | cons b bs ih => exact ih (wf_writeByte h a b) (a + 1)

theorem memWfFrom_filter (p : Host.Cell → Bool) {lo : Nat} {m : List Host.Cell} (h : memWfFrom lo m = true) :
    memWfFrom lo (m.filter p) = true := by
  induction m generalizing lo with
  | nil => rfl
  | cons c rest ih =>
    obtain ⟨k, v⟩ := c
    simp only [memWfFrom, Bool.and_eq_true, decide_eq_true_eq] at h
    simp only [List.filter_cons]
    split
    · simp only [memWfFrom, Bool.and_eq_true, decide_eq_true_eq]
      exact ⟨h.1, ih h.2⟩
    · exact memWfFrom_weaken (by omega) (ih h.2)

/-- Taking cells out keeps the canonical form. -/
theorem wf_filter (p : Host.Cell → Bool) {m : List Host.Cell} (h : Memory.wf m = true) :
    Memory.wf (m.filter p) = true := memWfFrom_filter p h

theorem wf_foldl_write {β : Type} (skip : β → Bool) (addr : β → Nat) (val : β → Byte) (cs : List β)
    {m : List Host.Cell} (h : Memory.wf m = true) :
    Memory.wf (cs.foldl (fun m c => if skip c then m else writeByte m (addr c) (val c)) m) = true := by
  induction cs generalizing m with
  | nil => exact h
  | cons c cs ih =>
    simp only [List.foldl_cons]
    split
    · exact ih h
    · exact ih (wf_writeByte h _ _)

/-- A byte reads back as it was stored. -/
theorem readByte_writeByte_same {lo : Nat} {m : List Host.Cell} (h : memWfFrom lo m = true) (a : Nat) (b : Byte) :
    readByte (writeByte m a b) a = b := by
  induction m generalizing lo with
  | nil =>
    simp only [writeByte]
    split
    · rename_i hb; simp [readByte, hb]
    · simp [readByte]
  | cons c rest ih =>
    obtain ⟨k, v⟩ := c
    simp only [memWfFrom, Bool.and_eq_true, decide_eq_true_eq] at h
    simp only [writeByte]
    split
    · rename_i hak
      split
      · rename_i hb
        have hk : k ≠ a := by omega
        simp [readByte, hk, readByte_below h.2 (by omega : a < k + 1), hb]
      · simp [readByte]
    · split
      · rename_i _ hak
        subst hak
        split
        · rename_i hb
          simp [readByte_below h.2 (by omega : a < a + 1), hb]
        · simp [readByte]
      · rename_i h1 h2
        have hk : k ≠ a := fun e => h2 e.symm
        simp [readByte, hk, ih h.2]

/-- Storing a byte leaves every other byte. -/
theorem readByte_writeByte_ne {lo : Nat} {m : List Host.Cell} (h : memWfFrom lo m = true) {a x : Nat} (b : Byte)
    (hx : x ≠ a) : readByte (writeByte m a b) x = readByte m x := by
  induction m generalizing lo with
  | nil =>
    simp only [writeByte]
    split
    · rfl
    · simp [readByte, Ne.symm hx]
  | cons c rest ih =>
    obtain ⟨k, v⟩ := c
    simp only [memWfFrom, Bool.and_eq_true, decide_eq_true_eq] at h
    simp only [writeByte]
    split
    · split
      · rfl
      · simp [readByte, Ne.symm hx]
    · split
      · rename_i _ hak
        subst hak
        split
        · simp [readByte, Ne.symm hx]
        · simp [readByte, Ne.symm hx]
      · simp only [readByte]
        split
        · rfl
        · exact ih h.2

/-- Bytes outside a stored range stay. -/
theorem readByte_writeBytes_out {m : List Host.Cell} (h : Memory.wf m = true) (a : Nat) (bs : List Byte) {x : Nat}
    (hx : x < a ∨ a + bs.length ≤ x) : readByte (writeBytes m a bs) x = readByte m x := by
  induction bs generalizing m a with
  | nil => rfl
  | cons b bs ih =>
    simp only [List.length_cons] at hx
    simp only [writeBytes]
    rw [ih (wf_writeByte h a b) (a + 1) (by omega)]
    exact readByte_writeByte_ne h b (by omega)

/-! ### The operations of the state -/

@[simp] theorem sent_mem (s : State) (x : Sent) : (s.sent x).mem = s.mem := rfl

theorem forEach_keeps {α β : Type} (g : State → β) (f : State → α → State) (hf : ∀ s x, g (f s x) = g s)
    (xs : List α) (s : State) : g (forEach xs s f) = g s := by
  induction xs generalizing s with
  | nil => rfl
  | cons x xs ih => exact (ih (f s x)).trans (hf s x)

theorem forEach_inv {α : Type} (P : State → Prop) (f : State → α → State) (hf : ∀ s x, P s → P (f s x))
    (xs : List α) (s : State) (h : P s) : P (forEach xs s f) := by
  induction xs generalizing s with
  | nil => exact h
  | cons x xs ih => exact ih (f s x) (hf s x h)

/-- Taking lines back from companions changes no byte. -/
theorem takeBack_mem (s : State) (links : List Nat) (p : Nat × Bool → Bool) : (takeBack s links p).mem = s.mem := by
  unfold takeBack
  apply forEach_keeps (fun s => s.mem)
  intro s l
  dsimp only
  split
  · rfl
  · simp only [State.modLink_mem]
    exact forEach_keeps (fun s => s.mem) _ (by intros; rfl) _ _

theorem backInvLines_mem (s : State) (ls : List Nat) : (backInvLines s ls).mem = s.mem := takeBack_mem s _ _

theorem backInvRange_mem (s : State) (a n : Nat) : (backInvRange s a n).mem = s.mem := takeBack_mem s _ _

theorem takeOwned_mem (s : State) (k : Option Nat) (ls : List Nat) : (takeOwned s k ls).mem = s.mem := takeBack_mem s _ _

/-- Correcting words changes no byte: a correctable word reads as it was stored. -/
theorem correctWords_mem (s : State) (ws : List Nat) : (correctWords s ws).mem = s.mem := by
  unfold correctWords
  exact forEach_keeps (fun s => s.mem) _ (by intros; rfl) _ _

theorem applyInjection_mem (s : State) (ws : List Nat) : (applyInjection s ws).mem = s.mem := by
  unfold applyInjection
  dsimp only
  split
  · split <;> rfl
  · rfl

@[simp] theorem raiseFault_mem (s : State) (c st e i o : Nat) (d : BitVec 32) : (raiseFault s c st e i o d).mem = s.mem := rfl

theorem markRetired_mem (s : State) (n : Nat) : (markRetired s n).mem = s.mem := by
  unfold markRetired; split <;> rfl

theorem logUe_mem (s : State) (w : Nat) (b : Bool) : (logUe s w b).mem = s.mem := by
  unfold logUe
  dsimp only
  repeat' split
  all_goals first
    | rfl
    | (rw [markRetired_mem]; rfl)

/-- Every write of HBM keeps the canonical form. -/
theorem wf_hbmWrite {s : State} (h : Memory.wf s.mem = true) (a : Nat) (bs : List Byte) :
    Memory.wf (hbmWrite s a bs).1.mem = true := by
  unfold hbmWrite
  dsimp only
  split
  · rw [applyInjection_mem]
    exact wf_foldl_write _ _ _ _ (by rw [backInvLines_mem, correctWords_mem]; exact h)
  · rw [logUe_mem, applyInjection_mem]
    exact wf_foldl_write _ _ _ _ (by rw [backInvLines_mem, correctWords_mem]; exact h)

theorem wf_hbmStore {s : State} (h : Memory.wf s.mem = true) (a : Nat) (bs : List Byte) :
    Memory.wf (hbmStore s a bs).mem = true := wf_hbmWrite h a bs

/-- Zeroing a range keeps the canonical form. -/
theorem wf_hbmZero {s : State} (h : Memory.wf s.mem = true) (a n : Nat) : Memory.wf (hbmZero s a n).mem = true :=
  wf_filter _ (by rw [backInvRange_mem]; exact h)

theorem correctRange_mem (s : State) (a n : Nat) : (correctRange s a n).mem = s.mem := correctWords_mem s _

/-- Reading HBM changes no byte, whoever asks. -/
theorem hbmReadBy_mem (k : Option Nat) (s : State) (a n : Nat) : (hbmReadBy k s a n).1.mem = s.mem := by
  unfold hbmReadBy
  dsimp only
  split
  · rw [correctRange_mem, takeOwned_mem]
  · simp only [logUe_mem, correctRange_mem, takeOwned_mem]

theorem hbmRead_mem (s : State) (a n : Nat) : (hbmRead s a n).1.mem = s.mem := hbmReadBy_mem none s a n

/-- Reset memory is in canonical form. -/
theorem reset_mem_wf : Memory.wf State.reset.mem = true := rfl

end Sys2Proof.Machine
end

