-- ==== Sys2Proof/Laws/Stays.lean ====
section
/-! SUPPORT. The laws of `Stays`: it is a preorder, and the named updates of the state keep it.  Each lemma about
an operation says that what stayed up to its argument stays up to its result. -/

namespace Sys2Proof.Machine

theorem FusesKept.refl (s : State) : FusesKept s s := ⟨Nat.le_refl _, id, rfl, Nat.le_refl _⟩

theorem FusesKept.trans {a b c : State} (h : FusesKept a b) (k : FusesKept b c) : FusesKept a c :=
  ⟨Nat.le_trans h.1 k.1, fun x => k.2.1 (h.2.1 x), k.2.2.1.trans h.2.2.1, Nat.le_trans h.2.2.2 k.2.2.2⟩

theorem Stays.refl (s : State) : Stays s s := ⟨rfl, id, FusesKept.refl s⟩

theorem Stays.trans {a b c : State} (h : Stays a b) (k : Stays b c) : Stays a c :=
  ⟨k.queue.trans h.queue, fun x => k.mem (h.mem x), h.fuses.trans k.fuses⟩

/-- An update of none of the fields that `Stays` speaks of. -/
theorem Stays.same {s0 s t : State} (h : Stays s0 s) (hq : t.pending = s.pending) (hm : t.mem = s.mem)
    (h0 : t.board0 = s.board0) (h1 : t.board1 = s.board1) (h2 : t.board2 = s.board2) (h3 : t.board3 = s.board3)
    (hb : t.boot = s.boot) (hi : t.mtr = s.mtr) : Stays s0 t :=
  h.trans ⟨hq, by simp only [MemInv, hm, h0, h1, h2, h3]; exact id, ⟨Nat.le_of_eq (by rw [hb]), by rw [hb]; exact id, by rw [hb], Nat.le_of_eq (by rw [hi])⟩⟩

/-- A state written as an update of `s` that takes over every field `Stays` speaks of. -/
theorem stays_mk {s0 s : State} {x_draw x_time x_plans x_queues x_rings x_sync x_qps x_tp x_coll x_ports x_routing x_eth x_hbm x_couch x_links x_vectors x_insts x_doors x_ctrl x_pwr x_flt x_tst x_pins x_inbox x_out} :
    Stays s0 ⟨s.pending, x_draw, x_time, x_plans, x_queues, x_rings, x_sync, x_qps, x_tp, x_coll, x_ports, x_routing, x_eth, x_hbm, s.mem, s.board0, s.board1, s.board2, s.board3, x_couch, x_links, x_vectors, x_insts, x_doors, x_ctrl, x_pwr, x_flt, s.boot, s.mtr, x_tst, x_pins, x_inbox, x_out⟩ ↔ Stays s0 s :=
  ⟨fun h => h.trans ⟨rfl, id, Nat.le_refl _, id, rfl, Nat.le_refl _⟩, fun h => h.same rfl rfl rfl rfl rfl rfl rfl rfl⟩

theorem Stays.ite {s0 a b : State} {c : Prop} [Decidable c] (ha : Stays s0 a) (hb : Stays s0 b) :
    Stays s0 (if c then a else b) := by split <;> assumption

theorem Stays.ite_fst {s0 : State} {α : Type} {a b : State × α} {c : Prop} [Decidable c] (ha : Stays s0 a.1)
    (hb : Stays s0 b.1) : Stays s0 (if c then a else b).1 := by split <;> assumption

theorem Stays.of_eq {s0 a : State} {α : Type} {p : State × α} {b : α} (e : p = (a, b)) (h : Stays s0 p.1) :
    Stays s0 a := by subst e; exact h

theorem forEach_stays {s0 s : State} {α : Type} {xs : List α} {f : State → α → State} (h : Stays s0 s)
    (hf : ∀ s x, Stays s0 s → Stays s0 (f s x)) : Stays s0 (forEach xs s f) := by
  unfold forEach
  induction xs generalizing s with
  | nil => exact h
  | cons x xs ih => exact ih (hf s x h)

theorem foldl_stays {s0 s : State} {α : Type} {xs : List α} {f : State → α → State} (h : Stays s0 s)
    (hf : ∀ s x, Stays s0 s → Stays s0 (f s x)) : Stays s0 (xs.foldl f s) := forEach_stays h hf

theorem foldl_fst_stays {s0 : State} {α β : Type} {xs : List α} {f : State × β → α → State × β} {p : State × β}
    (h : Stays s0 p.1) (hf : ∀ p x, Stays s0 p.1 → Stays s0 (f p x).1) : Stays s0 (xs.foldl f p).1 := by
  induction xs generalizing p with
  | nil => exact h
  | cons x xs ih => exact ih (hf p x h)

/-! ### Updates that other fields take -/

theorem State.modTime_stays {s0 s : State} {f : TimeUnit → TimeUnit} (h : Stays s0 s) : Stays s0 (s.modTime f) :=
  h.same rfl rfl rfl rfl rfl rfl rfl rfl
theorem State.modPlans_stays {s0 s : State} {f : PlanSlots → PlanSlots} (h : Stays s0 s) : Stays s0 (s.modPlans f) :=
  h.same rfl rfl rfl rfl rfl rfl rfl rfl
theorem State.modFlt_stays {s0 s : State} {f : Faults → Faults} (h : Stays s0 s) : Stays s0 (s.modFlt f) :=
  h.same rfl rfl rfl rfl rfl rfl rfl rfl
theorem State.modPwr_stays {s0 s : State} {f : Power → Power} (h : Stays s0 s) : Stays s0 (s.modPwr f) :=
  h.same rfl rfl rfl rfl rfl rfl rfl rfl
theorem State.modHbm_stays {s0 s : State} {f : Hbm → Hbm} (h : Stays s0 s) : Stays s0 (s.modHbm f) :=
  h.same rfl rfl rfl rfl rfl rfl rfl rfl
theorem State.modTst_stays {s0 s : State} {f : Test → Test} (h : Stays s0 s) : Stays s0 (s.modTst f) :=
  h.same rfl rfl rfl rfl rfl rfl rfl rfl
theorem State.modColl_stays {s0 s : State} {f : Coll → Coll} (h : Stays s0 s) : Stays s0 (s.modColl f) :=
  h.same rfl rfl rfl rfl rfl rfl rfl rfl
theorem State.modSync_stays {s0 s : State} {f : SyncMem → SyncMem} (h : Stays s0 s) : Stays s0 (s.modSync f) :=
  h.same rfl rfl rfl rfl rfl rfl rfl rfl
theorem State.modRouting_stays {s0 s : State} {f : Routing → Routing} (h : Stays s0 s) : Stays s0 (s.modRouting f) :=
  h.same rfl rfl rfl rfl rfl rfl rfl rfl
theorem State.modInsts_stays {s0 s : State} {f : Tbl Inst → Tbl Inst} (h : Stays s0 s) : Stays s0 (s.modInsts f) :=
  h.same rfl rfl rfl rfl rfl rfl rfl rfl
theorem State.modQueue_stays {s0 s : State} {q : Nat} {f : WorkQueue → WorkQueue} (h : Stays s0 s) : Stays s0 (s.modQueue q f) :=
  h.same rfl rfl rfl rfl rfl rfl rfl rfl
theorem State.modRing_stays {s0 s : State} {r : Nat} {f : Ring → Ring} (h : Stays s0 s) : Stays s0 (s.modRing r f) :=
  h.same rfl rfl rfl rfl rfl rfl rfl rfl
theorem State.modQp_stays {s0 s : State} {n : Nat} {f : Qp → Qp} (h : Stays s0 s) : Stays s0 (s.modQp n f) :=
  h.same rfl rfl rfl rfl rfl rfl rfl rfl
theorem State.modPort_stays {s0 s : State} {p : Nat} {f : Port → Port} (h : Stays s0 s) : Stays s0 (s.modPort p f) :=
  h.same rfl rfl rfl rfl rfl rfl rfl rfl
theorem State.modEth_stays {s0 s : State} {p : Nat} {f : EthPort → EthPort} (h : Stays s0 s) : Stays s0 (s.modEth p f) :=
  h.same rfl rfl rfl rfl rfl rfl rfl rfl
theorem State.modLink_stays {s0 s : State} {l : Nat} {f : PLink → PLink} (h : Stays s0 s) : Stays s0 (s.modLink l f) :=
  h.same rfl rfl rfl rfl rfl rfl rfl rfl
theorem State.modInst_stays {s0 s : State} {i : Nat} {f : Inst → Inst} (h : Stays s0 s) : Stays s0 (s.modInst i f) :=
  h.same rfl rfl rfl rfl rfl rfl rfl rfl
theorem State.modWin_stays {s0 s : State} {i : Nat} {f : Window → Window} (h : Stays s0 s) : Stays s0 (s.modWin i f) :=
  h.same rfl rfl rfl rfl rfl rfl rfl rfl
theorem State.modVec_stays {s0 s : State} {v : Nat} {f : Vec → Vec} (h : Stays s0 s) : Stays s0 (s.modVec v f) :=
  h.same rfl rfl rfl rfl rfl rfl rfl rfl
theorem State.modDoor_stays {s0 s : State} {d : Nat} {f : DoorState → DoorState} (h : Stays s0 s) : Stays s0 (s.modDoor d f) :=
  h.same rfl rfl rfl rfl rfl rfl rfl rfl
theorem State.modSlot_stays {s0 s : State} {n : Nat} {f : Slot → Slot} (h : Stays s0 s) : Stays s0 (s.modSlot n f) :=
  h.same rfl rfl rfl rfl rfl rfl rfl rfl
theorem State.modGranule_stays {s0 s : State} {g : Nat} {f : Granule → Granule} (h : Stays s0 s) : Stays s0 (s.modGranule g f) :=
  h.same rfl rfl rfl rfl rfl rfl rfl rfl
theorem State.modStack_stays {s0 s : State} {n : Nat} {f : Stack → Stack} (h : Stays s0 s) : Stays s0 (s.modStack n f) :=
  h.same rfl rfl rfl rfl rfl rfl rfl rfl
theorem State.modCouch_stays {s0 s : State} {r : Nat} {f : Couch → Couch} (h : Stays s0 s) : Stays s0 (s.modCouch r f) :=
  h.same rfl rfl rfl rfl rfl rfl rfl rfl
theorem State.sent_stays {s0 s : State} {x : Sent} (h : Stays s0 s) : Stays s0 (s.sent x) :=
  h.same rfl rfl rfl rfl rfl rfl rfl rfl
theorem State.arriveAt_stays {s0 s : State} {t : Nat} (h : Stays s0 s) : Stays s0 (s.arriveAt t) :=
  h.same rfl rfl rfl rfl rfl rfl rfl rfl

theorem State.modBoot_stays {s0 s : State} {f : Boot → Boot} (h : Stays s0 s) (h1 : s.boot.fuseSvn ≤ (f s.boot).fuseSvn)
    (h2 : s.boot.haltFuse = true → (f s.boot).haltFuse = true) (h3 : (f s.boot).keyRevoke = s.boot.keyRevoke) :
    Stays s0 (s.modBoot f) :=
  h.trans ⟨rfl, id, h1, h2, h3, Nat.le_refl _⟩

theorem State.modMtr_stays {s0 s : State} {f : Island → Island} (h : Stays s0 s) (h1 : s.mtr.fuses ≤ (f s.mtr).fuses) :
    Stays s0 (s.modMtr f) :=
  h.trans ⟨rfl, id, Nat.le_refl _, id, rfl, h1⟩

end Sys2Proof.Machine
end

