-- ==== Sys2Proof/Laws/StaysOps.lean ====
section
/-! SUPPORT. The operations of Machine/Ops.lean keep what `Stays` names. -/

namespace Sys2Proof.Machine

theorem State.modPtp_stays {z0 s : State} {p : Nat} {f : PtpPort → PtpPort} (hz0 : Stays z0 s) : Stays z0 (State.modPtp s p f) := by
  unfold State.modPtp
  repeat' first
    | with_reducible assumption | exact Nat.le_refl _ | exact id | exact Eq.refl _ | intro _ | with_reducible apply Stays.ite | with_reducible apply Stays.ite_fst
    | with_reducible apply State.modTime_stays
    | (refine Stays.of_eq (by with_reducible assumption) ?_) | (simp only [stays_mk]) | split

theorem State.modCnt_stays {z0 s : State} {p : Nat} {f : PortCounts → PortCounts} (hz0 : Stays z0 s) : Stays z0 (State.modCnt s p f) := by
  unfold State.modCnt
  repeat' first
    | with_reducible assumption | exact Nat.le_refl _ | exact id | exact Eq.refl _ | intro _ | with_reducible apply Stays.ite | with_reducible apply Stays.ite_fst
    | with_reducible apply State.modPort_stays
    | (refine Stays.of_eq (by with_reducible assumption) ?_) | (simp only [stays_mk]) | split

theorem State.modSub_stays {z0 s : State} {p : Nat} {sub : Nat} {f : SubPort → SubPort} (hz0 : Stays z0 s) : Stays z0 (State.modSub s p sub f) := by
  unfold State.modSub
  repeat' first
    | with_reducible assumption | exact Nat.le_refl _ | exact id | exact Eq.refl _ | intro _ | with_reducible apply Stays.ite | with_reducible apply Stays.ite_fst
    | with_reducible apply State.modEth_stays
    | (refine Stays.of_eq (by with_reducible assumption) ?_) | (simp only [stays_mk]) | split

theorem State.modSeg_stays {z0 s : State} {i : Nat} {n : Nat} {f : Seg → Seg} (hz0 : Stays z0 s) : Stays z0 (State.modSeg s i n f) := by
  unfold State.modSeg
  repeat' first
    | with_reducible assumption | exact Nat.le_refl _ | exact id | exact Eq.refl _ | intro _ | with_reducible apply Stays.ite | with_reducible apply Stays.ite_fst
    | with_reducible apply State.modWin_stays
    | (refine Stays.of_eq (by with_reducible assumption) ?_) | (simp only [stays_mk]) | split

theorem State.modMeter_stays {z0 s : State} {i : Nat} {f : Meter → Meter} (hz0 : Stays z0 s) : Stays z0 (State.modMeter s i f) := by
  unfold State.modMeter
  repeat' first
    | with_reducible assumption | exact Nat.le_refl _ | exact id | exact Eq.refl _ | intro _ | with_reducible apply Stays.ite | with_reducible apply Stays.ite_fst
    | with_reducible apply State.modMtr_stays
    | (refine Stays.of_eq (by with_reducible assumption) ?_) | (simp only [stays_mk]) | split

theorem ptpLeft_stays {z0 s : State} {p : Nat} {m : PtpMsg} (hz0 : Stays z0 s) : Stays z0 (ptpLeft s p m) := by
  unfold ptpLeft
  repeat' first
    | with_reducible assumption | exact Nat.le_refl _ | exact id | exact Eq.refl _ | intro _ | with_reducible apply Stays.ite | with_reducible apply Stays.ite_fst
    | with_reducible apply State.modPtp_stays
    | (refine Stays.of_eq (by with_reducible assumption) ?_) | (simp only [stays_mk]) | split

theorem drawFree_stays {z0 s : State}  (hz0 : Stays z0 s) : Stays z0 (drawFree s).2 := by
  unfold drawFree
  repeat' first
    | with_reducible assumption | exact Nat.le_refl _ | exact id | exact Eq.refl _ | intro _ | with_reducible apply Stays.ite | with_reducible apply Stays.ite_fst
    | (refine Stays.of_eq (by with_reducible assumption) ?_) | (simp only [stays_mk]) | split

theorem board_wf {s : State} (h : MemInv s) (l : Nat) : Memory.wf (s.board l) = true := by
  unfold State.board
  split
  · exact h.2.1
  · split
    · exact h.2.2.1
    · split
      · exact h.2.2.2.1
      · exact h.2.2.2.2

theorem State.setBoard_stays {s0 s : State} {l : Nat} {m : List Host.Cell} (h : Stays s0 s)
    (hm : MemInv s → Memory.wf m = true) : Stays s0 (s.setBoard l m) := by
  refine h.trans ?_
  unfold State.setBoard
  split
  · exact ⟨rfl, fun x => ⟨x.1, hm x, x.2.2.1, x.2.2.2.1, x.2.2.2.2⟩, FusesKept.refl s⟩
  · split
    · exact ⟨rfl, fun x => ⟨x.1, x.2.1, hm x, x.2.2.2.1, x.2.2.2.2⟩, FusesKept.refl s⟩
    · split
      · exact ⟨rfl, fun x => ⟨x.1, x.2.1, x.2.2.1, hm x, x.2.2.2.2⟩, FusesKept.refl s⟩
      · exact ⟨rfl, fun x => ⟨x.1, x.2.1, x.2.2.1, x.2.2.2.1, hm x⟩, FusesKept.refl s⟩

/-- An update of HBM contents alone. -/
theorem Stays.mem_only {s0 s t : State} (h : Stays s0 s) (hq : t.pending = s.pending)
    (hm : Memory.wf s.mem = true → Memory.wf t.mem = true)
    (h0 : t.board0 = s.board0) (h1 : t.board1 = s.board1) (h2 : t.board2 = s.board2) (h3 : t.board3 = s.board3)
    (hb : t.boot = s.boot) (hi : t.mtr = s.mtr) : Stays s0 t :=
  h.trans ⟨hq, by simp only [MemInv, h0, h1, h2, h3]; exact fun x => ⟨hm x.1, x.2⟩,
    ⟨Nat.le_of_eq (by rw [hb]), by rw [hb]; exact id, by rw [hb], Nat.le_of_eq (by rw [hi])⟩⟩

theorem raiseFault_stays {z0 s : State} {cls : Nat} {status : Nat} {engine : Nat} {inst : Nat} {object : Nat} {detail : BitVec 32} (hz0 : Stays z0 s) : Stays z0 (raiseFault s cls status engine inst object detail) := by
  unfold raiseFault
  repeat' first
    | with_reducible assumption | exact Nat.le_refl _ | exact id | exact Eq.refl _ | intro _ | with_reducible apply Stays.ite | with_reducible apply Stays.ite_fst
    | with_reducible apply State.modFlt_stays
    | (refine Stays.of_eq (by with_reducible assumption) ?_) | (simp only [stays_mk]) | split

theorem fireVector_stays {z0 s : State} {v : Nat} (hz0 : Stays z0 s) : Stays z0 (fireVector s v) := by
  unfold fireVector
  repeat' first
    | with_reducible assumption | exact Nat.le_refl _ | exact id | exact Eq.refl _ | intro _ | with_reducible apply Stays.ite | with_reducible apply Stays.ite_fst
    | with_reducible apply State.modVec_stays | with_reducible apply State.sent_stays
    | (refine Stays.of_eq (by with_reducible assumption) ?_) | (simp only [stays_mk]) | split

theorem servePending_stays {z0 s : State} {v : Nat} (hz0 : Stays z0 s) : Stays z0 (servePending s v) := by
  unfold servePending
  repeat' first
    | with_reducible assumption | exact Nat.le_refl _ | exact id | exact Eq.refl _ | intro _ | with_reducible apply Stays.ite | with_reducible apply Stays.ite_fst
    | with_reducible apply State.modVec_stays | with_reducible apply State.sent_stays
    | (refine Stays.of_eq (by with_reducible assumption) ?_) | (simp only [stays_mk]) | split

theorem servePendingOn_stays {z0 s : State} {l : Nat} (hz0 : Stays z0 s) : Stays z0 (servePendingOn s l) := by
  unfold servePendingOn
  repeat' first
    | with_reducible assumption | exact Nat.le_refl _ | exact id | exact Eq.refl _ | intro _ | with_reducible apply Stays.ite | with_reducible apply Stays.ite_fst
    | with_reducible apply forEach_stays | with_reducible apply servePending_stays
    | (refine Stays.of_eq (by with_reducible assumption) ?_) | (simp only [stays_mk]) | split

theorem markRetired_stays {z0 s : State} {st : Nat} (hz0 : Stays z0 s) : Stays z0 (markRetired s st) := by
  unfold markRetired
  repeat' first
    | with_reducible assumption | exact Nat.le_refl _ | exact id | exact Eq.refl _ | intro _ | with_reducible apply Stays.ite | with_reducible apply Stays.ite_fst
    | with_reducible apply raiseFault_stays | with_reducible apply State.modHbm_stays
    | (refine Stays.of_eq (by with_reducible assumption) ?_) | (simp only [stays_mk]) | split

theorem repairRow_stays {z0 s : State} {st : Nat} {row : Nat} {inService : Bool} (hz0 : Stays z0 s) : Stays z0 (repairRow s st row inService) := by
  unfold repairRow
  repeat' first
    | with_reducible assumption | exact Nat.le_refl _ | exact id | exact Eq.refl _ | intro _ | with_reducible apply Stays.ite | with_reducible apply Stays.ite_fst
    | with_reducible apply State.modStack_stays | with_reducible apply State.modHbm_stays | with_reducible apply markRetired_stays
    | (refine Stays.of_eq (by with_reducible assumption) ?_) | (simp only [stays_mk]) | split

theorem logUe_stays {z0 s : State} {w : Nat} {scrub : Bool} (hz0 : Stays z0 s) : Stays z0 (logUe s w scrub) := by
  unfold logUe
  repeat' first
    | with_reducible assumption | exact Nat.le_refl _ | exact id | exact Eq.refl _ | intro _ | with_reducible apply Stays.ite | with_reducible apply Stays.ite_fst
    | with_reducible apply State.modStack_stays | with_reducible apply State.modHbm_stays | with_reducible apply raiseFault_stays
    | with_reducible apply markRetired_stays
    | (refine Stays.of_eq (by with_reducible assumption) ?_) | (simp only [stays_mk]) | split

theorem correctWords_stays {z0 s : State} {ws : List Nat} (hz0 : Stays z0 s) : Stays z0 (correctWords s ws) := by
  unfold correctWords
  repeat' first
    | with_reducible assumption | exact Nat.le_refl _ | exact id | exact Eq.refl _ | intro _ | with_reducible apply Stays.ite | with_reducible apply Stays.ite_fst
    | with_reducible apply forEach_stays | with_reducible apply State.modStack_stays | with_reducible apply State.modHbm_stays
    | (refine Stays.of_eq (by with_reducible assumption) ?_) | (simp only [stays_mk]) | split

theorem correctRange_stays {z0 s : State} {a : Nat} {n : Nat} (hz0 : Stays z0 s) : Stays z0 (correctRange s a n) := by
  unfold correctRange
  repeat' first
    | with_reducible assumption | exact Nat.le_refl _ | exact id | exact Eq.refl _ | intro _ | with_reducible apply Stays.ite | with_reducible apply Stays.ite_fst
    | with_reducible apply correctWords_stays
    | (refine Stays.of_eq (by with_reducible assumption) ?_) | (simp only [stays_mk]) | split

theorem takeBack_stays {z0 s : State} {links : List Nat} {p : Nat × Bool → Bool} (hz0 : Stays z0 s) : Stays z0 (takeBack s links p) := by
  unfold takeBack
  repeat' first
    | with_reducible assumption | exact Nat.le_refl _ | exact id | exact Eq.refl _ | intro _ | with_reducible apply Stays.ite | with_reducible apply Stays.ite_fst
    | with_reducible apply forEach_stays | with_reducible apply State.sent_stays | with_reducible apply State.modLink_stays
    | (refine Stays.of_eq (by with_reducible assumption) ?_) | (simp only [stays_mk]) | split

theorem backInvLines_stays {z0 s : State} {lines : List Nat} (hz0 : Stays z0 s) : Stays z0 (backInvLines s lines) := by
  unfold backInvLines
  repeat' first
    | with_reducible assumption | exact Nat.le_refl _ | exact id | exact Eq.refl _ | intro _ | with_reducible apply Stays.ite | with_reducible apply Stays.ite_fst
    | with_reducible apply takeBack_stays
    | (refine Stays.of_eq (by with_reducible assumption) ?_) | (simp only [stays_mk]) | split

theorem backInvRange_stays {z0 s : State} {a : Nat} {n : Nat} (hz0 : Stays z0 s) : Stays z0 (backInvRange s a n) := by
  unfold backInvRange
  repeat' first
    | with_reducible assumption | exact Nat.le_refl _ | exact id | exact Eq.refl _ | intro _ | with_reducible apply Stays.ite | with_reducible apply Stays.ite_fst
    | with_reducible apply takeBack_stays
    | (refine Stays.of_eq (by with_reducible assumption) ?_) | (simp only [stays_mk]) | split

theorem takeOwned_stays {z0 s : State} {asker : Option Nat} {lines : List Nat} (hz0 : Stays z0 s) : Stays z0 (takeOwned s asker lines) := by
  unfold takeOwned
  repeat' first
    | with_reducible assumption | exact Nat.le_refl _ | exact id | exact Eq.refl _ | intro _ | with_reducible apply Stays.ite | with_reducible apply Stays.ite_fst
    | with_reducible apply takeBack_stays
    | (refine Stays.of_eq (by with_reducible assumption) ?_) | (simp only [stays_mk]) | split

theorem applyInjection_stays {z0 s : State} {words : List Nat} (hz0 : Stays z0 s) : Stays z0 (applyInjection s words) := by
  unfold applyInjection
  repeat' first
    | with_reducible assumption | exact Nat.le_refl _ | exact id | exact Eq.refl _ | intro _ | with_reducible apply Stays.ite | with_reducible apply Stays.ite_fst
    | with_reducible apply State.modTst_stays | with_reducible apply State.modHbm_stays
    | (refine Stays.of_eq (by with_reducible assumption) ?_) | (simp only [stays_mk]) | split

theorem hbmWrite_stays {s0 s : State} {a : Nat} {bs : List Byte} (h : Stays s0 s) : Stays s0 (hbmWrite s a bs).1 := by
  unfold hbmWrite
  have hb : Stays s0 (backInvLines (correctWords s ((wordsOf a bs.length).filter
      (fun w => !(wholeWords a bs.length).contains w))) (linesOf a bs.length)) :=
    backInvLines_stays (correctWords_stays h)
  dsimp only
  generalize backInvLines (correctWords s _) (linesOf a bs.length) = s1 at hb ⊢
  have key : ∀ m, (Memory.wf s1.mem = true → Memory.wf m = true) → Stays s0 ({ s1 with mem := m } : State) := fun m hm =>
    hb.mem_only rfl hm rfl rfl rfl rfl rfl rfl
  split
  · with_reducible apply applyInjection_stays
    with_reducible apply State.modHbm_stays
    with_reducible apply key
    exact fun hm => wf_foldl_write _ _ _ _ hm
  · with_reducible apply logUe_stays
    with_reducible apply applyInjection_stays
    with_reducible apply State.modHbm_stays
    with_reducible apply key
    exact fun hm => wf_foldl_write _ _ _ _ hm

theorem hbmStore_stays {z0 s : State} {a : Nat} {bs : List Byte} (hz0 : Stays z0 s) : Stays z0 (hbmStore s a bs) := by
  unfold hbmStore
  repeat' first
    | with_reducible assumption | exact Nat.le_refl _ | exact id | exact Eq.refl _ | intro _ | with_reducible apply Stays.ite | with_reducible apply Stays.ite_fst
    | with_reducible apply hbmWrite_stays
    | (refine Stays.of_eq (by with_reducible assumption) ?_) | (simp only [stays_mk]) | split

theorem hbmReadBy_stays {s0 s : State} {k : Option Nat} {a n : Nat} (h : Stays s0 s) :
    Stays s0 (hbmReadBy k s a n).1 := by
  unfold hbmReadBy
  dsimp only
  split
  · exact correctRange_stays (takeOwned_stays h)
  · exact logUe_stays (correctRange_stays (takeOwned_stays h))

theorem hbmRead_stays {s0 s : State} {a n : Nat} (h : Stays s0 s) : Stays s0 (hbmRead s a n).1 := hbmReadBy_stays h

theorem healWords_stays {z0 s : State} {ok : Nat → Bool} (hz0 : Stays z0 s) : Stays z0 (healWords s ok) := by
  unfold healWords
  repeat' first
    | with_reducible assumption | exact Nat.le_refl _ | exact id | exact Eq.refl _ | intro _ | with_reducible apply Stays.ite | with_reducible apply Stays.ite_fst
    | with_reducible apply State.modHbm_stays
    | (refine Stays.of_eq (by with_reducible assumption) ?_) | (simp only [stays_mk]) | split

theorem hbmZero_stays {s0 s : State} {a n : Nat} (h : Stays s0 s) : Stays s0 (hbmZero s a n) := by
  have hb : Stays s0 (backInvRange s a n) := backInvRange_stays h
  unfold hbmZero
  generalize backInvRange s a n = s1 at hb ⊢
  exact hb.mem_only rfl (fun x => wf_filter _ x) rfl rfl rfl rfl rfl rfl

theorem boardBytes_stays {z0 s : State} {l : Nat} {inst : Nat} {tx : Bool} {n : Nat} (hz0 : Stays z0 s) : Stays z0 (boardBytes s l inst tx n) := by
  unfold boardBytes
  repeat' first
    | with_reducible assumption | exact Nat.le_refl _ | exact id | exact Eq.refl _ | intro _ | with_reducible apply Stays.ite | with_reducible apply Stays.ite_fst
    | with_reducible apply State.modLink_stays | with_reducible apply State.modMeter_stays
    | (refine Stays.of_eq (by with_reducible assumption) ?_) | (simp only [stays_mk]) | split

theorem boardReq_stays {z0 s : State} {l : Nat} {addr : Nat} {n : Nat} {write : Bool} (hz0 : Stays z0 s) : Stays z0 (boardReq s l addr n write) := by
  unfold boardReq
  repeat' first
    | with_reducible assumption | exact Nat.le_refl _ | exact id | exact Eq.refl _ | intro _ | with_reducible apply Stays.ite | with_reducible apply Stays.ite_fst
    | with_reducible apply State.modLink_stays
    | (refine Stays.of_eq (by with_reducible assumption) ?_) | (simp only [stays_mk]) | split

theorem xlatRead_stays {s0 s : State} {x : Xlat} {o n : Nat} (h : Stays s0 s) : Stays s0 (xlatRead s x o n).1 := by
  unfold xlatRead
  split
  · exact h
  · split
    · exact State.sent_stays (boardReq_stays (boardBytes_stays h))
    · exact hbmRead_stays h

theorem xlatWrite_stays {s0 s : State} {x : Xlat} {o : Nat} {bs : List Byte} (h : Stays s0 s) :
    Stays s0 (xlatWrite s x o bs).1 := by
  unfold xlatWrite
  split
  · exact h
  · split
    · exact State.sent_stays (State.setBoard_stays (boardReq_stays (boardBytes_stays h))
        (fun hi => wf_writeBytes (board_wf hi _) _ _))
    · exact hbmWrite_stays h

theorem freeBytes_stays {s0 s : State} {n : Nat} (h : Stays s0 s) : Stays s0 (freeBytes n s).2 := by
  induction n generalizing s with
  | zero => exact h
  | succ n ih => exact ih (h.same rfl rfl rfl rfl rfl rfl rfl rfl)

theorem undefineHbm_stays {s0 s : State} {a n : Nat} (h : Stays s0 s) : Stays s0 (undefineHbm s a n) := by
  have hf : Stays s0 (freeBytes n (backInvRange s a n)).2 := freeBytes_stays (backInvRange_stays h)
  unfold undefineHbm
  generalize freeBytes n (backInvRange s a n) = r at hf ⊢
  exact hf.mem_only rfl (fun x => wf_writeBytes x _ _) rfl rfl rfl rfl rfl rfl

theorem undefineFrom_stays {s0 s : State} {x : Xlat} {o : Nat} (h : Stays s0 s) : Stays s0 (undefineFrom s x o) := by
  unfold undefineFrom
  split
  · exact h
  · split
    · have hf : Stays s0 (freeBytes (x.len - o) s).2 := freeBytes_stays h
      dsimp only
      generalize freeBytes (x.len - o) s = r at hf ⊢
      exact State.setBoard_stays hf (fun hi => wf_writeBytes (board_wf hi _) _ _)
    · exact undefineHbm_stays h

theorem holdXlat_stays {z0 s : State} {x : Xlat} (hz0 : Stays z0 s) : Stays z0 (holdXlat s x) := by
  unfold holdXlat
  repeat' first
    | with_reducible assumption | exact Nat.le_refl _ | exact id | exact Eq.refl _ | intro _ | with_reducible apply Stays.ite | with_reducible apply Stays.ite_fst
    | with_reducible apply State.modSeg_stays
    | (refine Stays.of_eq (by with_reducible assumption) ?_) | (simp only [stays_mk]) | split

theorem dropXlat_stays {z0 s : State} {x : Xlat} (hz0 : Stays z0 s) : Stays z0 (dropXlat s x) := by
  unfold dropXlat
  repeat' first
    | with_reducible assumption | exact Nat.le_refl _ | exact id | exact Eq.refl _ | intro _ | with_reducible apply Stays.ite | with_reducible apply Stays.ite_fst
    | with_reducible apply State.modSeg_stays
    | (refine Stays.of_eq (by with_reducible assumption) ?_) | (simp only [stays_mk]) | split

theorem State.modDie_stays {s0 s : State} {p : Nat} {f : DieCounts → DieCounts} (h : Stays s0 s) :
    Stays s0 (s.modDie p f) := by
  unfold State.modDie
  split
  · exact h.same rfl rfl rfl rfl rfl rfl rfl rfl
  · exact h.same rfl rfl rfl rfl rfl rfl rfl rfl

theorem noteEnergy_stays {z0 s : State} {parts : List (Nat × Nat)} (hz0 : Stays z0 s) : Stays z0 (noteEnergy s parts) := by
  unfold noteEnergy
  repeat' first
    | with_reducible assumption | exact Nat.le_refl _ | exact id | exact Eq.refl _ | intro _ | with_reducible apply Stays.ite | with_reducible apply Stays.ite_fst
    | with_reducible apply State.modPwr_stays | with_reducible apply foldl_stays | with_reducible apply foldl_fst_stays
    | (refine Stays.of_eq (by with_reducible assumption) ?_) | (simp only [stays_mk]) | split

theorem chargeShared_stays {z0 s : State} {parts : List (Nat × Nat)} (hz0 : Stays z0 s) : Stays z0 (chargeShared s parts) := by
  unfold chargeShared
  repeat' first
    | with_reducible assumption | exact Nat.le_refl _ | exact id | exact Eq.refl _ | intro _ | with_reducible apply Stays.ite | with_reducible apply Stays.ite_fst
    | with_reducible apply noteEnergy_stays | with_reducible apply State.modPwr_stays | with_reducible apply State.modMeter_stays
    | (refine Stays.of_eq (by with_reducible assumption) ?_) | (simp only [stays_mk]) | split

end Sys2Proof.Machine
end

