-- ==== Sys2Proof/Laws/StaysFlags.lean ====
section
/-! SUPPORT. The operations of Machine/Flags.lean keep what `Stays` names. -/

namespace Sys2Proof.Machine

theorem noteCauses_stays {z0 s : State}  (hz0 : Stays z0 s) : Stays z0 (noteCauses s) := by
  unfold noteCauses
  repeat' first
    | with_reducible assumption | exact Nat.le_refl _ | exact id | exact Eq.refl _ | intro _ | with_reducible apply Stays.ite | with_reducible apply Stays.ite_fst
    | with_reducible apply State.modFlt_stays
    | (refine Stays.of_eq (by with_reducible assumption) ?_) | (simp only [stays_mk]) | split

end Sys2Proof.Machine
end

