-- ==== Sys2Proof/Laws/StaysFabricOps.lean ====
section
/-! SUPPORT. The operations of Machine/FabricOps.lean keep what `Stays` names. -/

namespace Sys2Proof.Machine

theorem State.modBank_stays {z0 s : State} {b : Bool} {f : Bank → Bank} (hz0 : Stays z0 s) : Stays z0 (State.modBank s b f) := by
  unfold State.modBank
  repeat' first
    | with_reducible assumption | exact Nat.le_refl _ | exact id | exact Eq.refl _ | intro _ | with_reducible apply Stays.ite | with_reducible apply Stays.ite_fst
    | with_reducible apply State.modRouting_stays
    | (refine Stays.of_eq (by with_reducible assumption) ?_) | (simp only [stays_mk]) | split

theorem countDrop_stays {z0 s : State} {set : Nat} {why : DropWhy} (hz0 : Stays z0 s) : Stays z0 (countDrop s set why) := by
  unfold countDrop
  repeat' first
    | with_reducible assumption | exact Nat.le_refl _ | exact id | exact Eq.refl _ | intro _ | with_reducible apply Stays.ite | with_reducible apply Stays.ite_fst
    | with_reducible apply State.modCnt_stays
    | (refine Stays.of_eq (by with_reducible assumption) ?_) | (simp only [stays_mk]) | split

theorem noteWaits_stays {z0 s : State} {p : Nat} (hz0 : Stays z0 s) : Stays z0 (noteWaits s p) := by
  unfold noteWaits
  repeat' first
    | with_reducible assumption | exact Nat.le_refl _ | exact id | exact Eq.refl _ | intro _ | with_reducible apply Stays.ite | with_reducible apply Stays.ite_fst
    | with_reducible apply State.modPort_stays
    | (refine Stays.of_eq (by with_reducible assumption) ?_) | (simp only [stays_mk]) | split

theorem enqueue_stays {z0 s : State} {p : Nat} {q : Queued} (hz0 : Stays z0 s) : Stays z0 (enqueue s p q) := by
  unfold enqueue
  repeat' first
    | with_reducible assumption | exact Nat.le_refl _ | exact id | exact Eq.refl _ | intro _ | with_reducible apply Stays.ite | with_reducible apply Stays.ite_fst
    | with_reducible apply State.modPort_stays
    | (refine Stays.of_eq (by with_reducible assumption) ?_) | (simp only [stays_mk]) | split

theorem sendVc0_stays {z0 s : State} {p : Nat} {f : FabFrame} (hz0 : Stays z0 s) : Stays z0 (sendVc0 s p f) := by
  unfold sendVc0
  repeat' first
    | with_reducible assumption | exact Nat.le_refl _ | exact id | exact Eq.refl _ | intro _ | with_reducible apply Stays.ite | with_reducible apply Stays.ite_fst
    | with_reducible apply enqueue_stays | with_reducible apply State.modCnt_stays | with_reducible apply State.sent_stays
    | (refine Stays.of_eq (by with_reducible assumption) ?_) | (simp only [stays_mk]) | split

theorem sendCtl_stays {z0 s : State} {p : Nat} {m : LinkCtl} (hz0 : Stays z0 s) : Stays z0 (sendCtl s p m) := by
  unfold sendCtl
  repeat' first
    | with_reducible assumption | exact Nat.le_refl _ | exact id | exact Eq.refl _ | intro _ | with_reducible apply Stays.ite | with_reducible apply Stays.ite_fst
    | with_reducible apply sendVc0_stays
    | (refine Stays.of_eq (by with_reducible assumption) ?_) | (simp only [stays_mk]) | split

theorem sendCredit_stays {z0 s : State} {p : Nat} {vc : Nat} (hz0 : Stays z0 s) : Stays z0 (sendCredit p s vc) := by
  unfold sendCredit
  repeat' first
    | with_reducible assumption | exact Nat.le_refl _ | exact id | exact Eq.refl _ | intro _ | with_reducible apply Stays.ite | with_reducible apply Stays.ite_fst
    | with_reducible apply sendCtl_stays | with_reducible apply State.modPort_stays
    | (refine Stays.of_eq (by with_reducible assumption) ?_) | (simp only [stays_mk]) | split

theorem freeBuffer_stays {z0 s : State} {arr : Nat} {vc : Nat} {n : Nat} (hz0 : Stays z0 s) : Stays z0 (freeBuffer s arr vc n) := by
  unfold freeBuffer
  repeat' first
    | with_reducible assumption | exact Nat.le_refl _ | exact id | exact Eq.refl _ | intro _ | with_reducible apply Stays.ite | with_reducible apply Stays.ite_fst
    | with_reducible apply sendCredit_stays | with_reducible apply State.modPort_stays
    | (refine Stays.of_eq (by with_reducible assumption) ?_) | (simp only [stays_mk]) | split

theorem deliver_stays {z0 s : State} {arr : Option Nat} {f : FabFrame} (hz0 : Stays z0 s) : Stays z0 (deliver s arr f) := by
  unfold deliver
  repeat' first
    | with_reducible assumption | exact Nat.le_refl _ | exact id | exact Eq.refl _ | intro _ | with_reducible apply Stays.ite | with_reducible apply Stays.ite_fst
    | (refine Stays.of_eq (by with_reducible assumption) ?_) | (simp only [stays_mk]) | split

theorem handleFrame_stays {z0 s : State} {f : FabFrame} {set : Nat} (hz0 : Stays z0 s) : Stays z0 (handleFrame s f set) := by
  unfold handleFrame
  repeat' first
    | with_reducible assumption | exact Nat.le_refl _ | exact id | exact Eq.refl _ | intro _ | with_reducible apply Stays.ite | with_reducible apply Stays.ite_fst
    | with_reducible apply freeBuffer_stays | with_reducible apply countDrop_stays | with_reducible apply deliver_stays
    | with_reducible apply State.modCnt_stays | with_reducible apply enqueue_stays
    | (refine Stays.of_eq (by with_reducible assumption) ?_) | (simp only [stays_mk]) | split

theorem inject_stays {z0 s : State} {dst : Nat} {kind : Nat} {vc : Nat} {len : Nat} {pkey : BitVec 16} {body : FrameBody} (hz0 : Stays z0 s) : Stays z0 (inject s dst kind vc len pkey body) := by
  unfold inject
  repeat' first
    | with_reducible assumption | exact Nat.le_refl _ | exact id | exact Eq.refl _ | intro _ | with_reducible apply Stays.ite | with_reducible apply Stays.ite_fst
    | with_reducible apply countDrop_stays | with_reducible apply handleFrame_stays
    | (refine Stays.of_eq (by with_reducible assumption) ?_) | (simp only [stays_mk]) | split

theorem injectCircuit_stays {z0 s : State} {p : Nat} {circuit : Nat} {dst : Nat} {kind : Nat} {len : Nat} {pkey : BitVec 16} {body : FrameBody} (hz0 : Stays z0 s) : Stays z0 (injectCircuit s p circuit dst kind len pkey body) := by
  unfold injectCircuit
  repeat' first
    | with_reducible assumption | exact Nat.le_refl _ | exact id | exact Eq.refl _ | intro _ | with_reducible apply Stays.ite | with_reducible apply Stays.ite_fst
    | with_reducible apply enqueue_stays
    | (refine Stays.of_eq (by with_reducible assumption) ?_) | (simp only [stays_mk]) | split

theorem meterFrame_stays {z0 s : State} {f : FabFrame} (hz0 : Stays z0 s) : Stays z0 (meterFrame s f) := by
  unfold meterFrame
  repeat' first
    | with_reducible assumption | exact Nat.le_refl _ | exact id | exact Eq.refl _ | intro _ | with_reducible apply Stays.ite | with_reducible apply Stays.ite_fst
    | with_reducible apply State.modMeter_stays
    | (refine Stays.of_eq (by with_reducible assumption) ?_) | (simp only [stays_mk]) | split

theorem bodyLeft_stays {z0 s : State} {p : Nat} {b : FrameBody} (hz0 : Stays z0 s) : Stays z0 (bodyLeft s p b) := by
  unfold bodyLeft
  repeat' first
    | with_reducible assumption | exact Nat.le_refl _ | exact id | exact Eq.refl _ | intro _ | with_reducible apply Stays.ite | with_reducible apply Stays.ite_fst
    | with_reducible apply ptpLeft_stays
    | (refine Stays.of_eq (by with_reducible assumption) ?_) | (simp only [stays_mk]) | split

theorem startFrame_stays {z0 s : State} {p : Nat} {q : Queued} {turn : Nat} {d : Tbl Int} (hz0 : Stays z0 s) : Stays z0 (startFrame s p q turn d) := by
  unfold startFrame
  repeat' first
    | with_reducible assumption | exact Nat.le_refl _ | exact id | exact Eq.refl _ | intro _ | with_reducible apply Stays.ite | with_reducible apply Stays.ite_fst
    | with_reducible apply State.modPort_stays | with_reducible apply State.modCnt_stays | with_reducible apply freeBuffer_stays
    | with_reducible apply bodyLeft_stays | with_reducible apply meterFrame_stays | with_reducible apply chargeShared_stays
    | with_reducible apply State.sent_stays
    | (refine Stays.of_eq (by with_reducible assumption) ?_) | (simp only [stays_mk]) | split

theorem ackFrames_stays {z0 s : State} {p : Nat} {l : Nat} (hz0 : Stays z0 s) : Stays z0 (ackFrames s p l) := by
  unfold ackFrames
  repeat' first
    | with_reducible assumption | exact Nat.le_refl _ | exact id | exact Eq.refl _ | intro _ | with_reducible apply Stays.ite | with_reducible apply Stays.ite_fst
    | with_reducible apply State.modPort_stays
    | (refine Stays.of_eq (by with_reducible assumption) ?_) | (simp only [stays_mk]) | split

theorem addCredits_stays {z0 s : State} {p : Nat} {vc : Nat} {n : Nat} (hz0 : Stays z0 s) : Stays z0 (addCredits s p vc n) := by
  unfold addCredits
  repeat' first
    | with_reducible assumption | exact Nat.le_refl _ | exact id | exact Eq.refl _ | intro _ | with_reducible apply Stays.ite | with_reducible apply Stays.ite_fst
    | with_reducible apply State.modPort_stays
    | (refine Stays.of_eq (by with_reducible assumption) ?_) | (simp only [stays_mk]) | split

theorem replayFrom_stays {z0 s : State} {p : Nat} {l : Option Nat} (hz0 : Stays z0 s) : Stays z0 (replayFrom s p l) := by
  unfold replayFrom
  repeat' first
    | with_reducible assumption | exact Nat.le_refl _ | exact id | exact Eq.refl _ | intro _ | with_reducible apply Stays.ite | with_reducible apply Stays.ite_fst
    | with_reducible apply State.modPort_stays
    | (refine Stays.of_eq (by with_reducible assumption) ?_) | (simp only [stays_mk]) | split

theorem startAgain_stays {z0 s : State} {p : Nat} {q : Queued} (hz0 : Stays z0 s) : Stays z0 (startAgain s p q) := by
  unfold startAgain
  repeat' first
    | with_reducible assumption | exact Nat.le_refl _ | exact id | exact Eq.refl _ | intro _ | with_reducible apply Stays.ite | with_reducible apply Stays.ite_fst
    | with_reducible apply State.modPort_stays | with_reducible apply meterFrame_stays | with_reducible apply State.sent_stays
    | (refine Stays.of_eq (by with_reducible assumption) ?_) | (simp only [stays_mk]) | split

theorem noteStalls_stays {z0 s : State} {p : Nat} (hz0 : Stays z0 s) : Stays z0 (noteStalls s p) := by
  unfold noteStalls
  repeat' first
    | with_reducible assumption | exact Nat.le_refl _ | exact id | exact Eq.refl _ | intro _ | with_reducible apply Stays.ite | with_reducible apply Stays.ite_fst
    | with_reducible apply forEach_stays | with_reducible apply State.modPort_stays
    | (refine Stays.of_eq (by with_reducible assumption) ?_) | (simp only [stays_mk]) | split

theorem fabRetrain_stays {z0 s : State} {p : Nat} (hz0 : Stays z0 s) : Stays z0 (fabRetrain s p) := by
  unfold fabRetrain
  repeat' first
    | with_reducible assumption | exact Nat.le_refl _ | exact id | exact Eq.refl _ | intro _ | with_reducible apply Stays.ite | with_reducible apply Stays.ite_fst
    | with_reducible apply State.modPort_stays
    | (refine Stays.of_eq (by with_reducible assumption) ?_) | (simp only [stays_mk]) | split

theorem fabDown_stays {z0 s : State} {p : Nat} {discardQueues : Bool} (hz0 : Stays z0 s) : Stays z0 (fabDown s p discardQueues) := by
  unfold fabDown
  repeat' first
    | with_reducible assumption | exact Nat.le_refl _ | exact id | exact Eq.refl _ | intro _ | with_reducible apply Stays.ite | with_reducible apply Stays.ite_fst
    | with_reducible apply State.modPort_stays | with_reducible apply forEach_stays | with_reducible apply freeBuffer_stays
    | (refine Stays.of_eq (by with_reducible assumption) ?_) | (simp only [stays_mk]) | split

theorem fabLinkFault_stays {z0 s : State} {p : Nat} (hz0 : Stays z0 s) : Stays z0 (fabLinkFault s p) := by
  unfold fabLinkFault
  repeat' first
    | with_reducible assumption | exact Nat.le_refl _ | exact id | exact Eq.refl _ | intro _ | with_reducible apply Stays.ite | with_reducible apply Stays.ite_fst
    | with_reducible apply raiseFault_stays
    | (refine Stays.of_eq (by with_reducible assumption) ?_) | (simp only [stays_mk]) | split

theorem startTraining_stays {z0 s : State} {p : Nat} (hz0 : Stays z0 s) : Stays z0 (startTraining s p) := by
  unfold startTraining
  repeat' first
    | with_reducible assumption | exact Nat.le_refl _ | exact id | exact Eq.refl _ | intro _ | with_reducible apply Stays.ite | with_reducible apply Stays.ite_fst
    | with_reducible apply State.modPort_stays | with_reducible apply sendCtl_stays
    | (refine Stays.of_eq (by with_reducible assumption) ?_) | (simp only [stays_mk]) | split

theorem moveInjection_stays {z0 s : State} {b : Bool} (hz0 : Stays z0 s) : Stays z0 (moveInjection s b) := by
  unfold moveInjection
  repeat' first
    | with_reducible assumption | exact Nat.le_refl _ | exact id | exact Eq.refl _ | intro _ | with_reducible apply Stays.ite | with_reducible apply Stays.ite_fst
    | with_reducible apply State.modBank_stays | with_reducible apply inject_stays
    | (refine Stays.of_eq (by with_reducible assumption) ?_) | (simp only [stays_mk]) | split

end Sys2Proof.Machine
end

