-- ==== Sys2Proof/Laws/StaysQueueOps.lean ====
section
/-! SUPPORT. The operations of Machine/QueueOps.lean keep what `Stays` names. -/

namespace Sys2Proof.Machine

theorem writeCompletion_stays {z0 s : State} {n : Nat} {mk : Ring → List Byte} (hz0 : Stays z0 s) : Stays z0 (writeCompletion s n mk) := by
  unfold writeCompletion
  repeat' first
    | with_reducible assumption | exact Nat.le_refl _ | exact id | exact Eq.refl _ | intro _ | with_reducible apply Stays.ite | with_reducible apply Stays.ite_fst
    | with_reducible apply xlatWrite_stays | with_reducible apply State.modRing_stays | with_reducible apply fireVector_stays
    | (refine Stays.of_eq (by with_reducible assumption) ?_) | (simp only [stays_mk]) | split

theorem reserveSlot_stays {s0 s t : State} {q : Nat} (h : Stays s0 s) (e : reserveSlot s q = some t) : Stays s0 t := by
  unfold reserveSlot at e
  split at e
  · cases e
  · dsimp only at e
    split at e
    · cases e
    · split at e
      · injection e with e
        subst e
        exact State.modRing_stays (State.modQueue_stays h)
      · obtain ⟨v, -, rfl⟩ := Option.map_eq_some_iff.mp e
        exact State.modQueue_stays (State.modQueue_stays (State.modQueue_stays h))

theorem joinGroup_stays {z0 s : State} {q : Nat} {seq : Nat} {closes : Bool} (hz0 : Stays z0 s) : Stays z0 (joinGroup s q seq closes).1 := by
  unfold joinGroup
  repeat' first
    | with_reducible assumption | exact Nat.le_refl _ | exact id | exact Eq.refl _ | intro _ | with_reducible apply Stays.ite | with_reducible apply Stays.ite_fst
    | with_reducible apply State.modQueue_stays
    | (refine Stays.of_eq (by with_reducible assumption) ?_) | (simp only [stays_mk]) | split

theorem flushGroups_stays {z0 s : State} {q : Nat} {n0 : Nat} (hz0 : Stays z0 s) : Stays z0 (flushGroups q n0 s) := by
  induction n0 generalizing s with
  | zero => exact hz0
  | succ n0 ih =>
  unfold flushGroups
  repeat' first
    | with_reducible assumption | exact Nat.le_refl _ | exact id | exact Eq.refl _ | intro _ | with_reducible apply Stays.ite | with_reducible apply Stays.ite_fst
    | with_reducible apply State.modQueue_stays | with_reducible apply State.modRing_stays | with_reducible apply writeCompletion_stays
    | with_reducible apply ih
    | (refine Stays.of_eq (by with_reducible assumption) ?_) | (simp only [stays_mk]) | split

theorem flushQueue_stays {z0 s : State} {q : Nat} (hz0 : Stays z0 s) : Stays z0 (flushQueue s q) := by
  unfold flushQueue
  repeat' first
    | with_reducible assumption | exact Nat.le_refl _ | exact id | exact Eq.refl _ | intro _ | with_reducible apply Stays.ite | with_reducible apply Stays.ite_fst
    | with_reducible apply flushGroups_stays
    | (refine Stays.of_eq (by with_reducible assumption) ?_) | (simp only [stays_mk]) | split

theorem State.modStarted_stays {z0 s : State} {q : Nat} {seq : Nat} {f : Started → Started} (hz0 : Stays z0 s) : Stays z0 (State.modStarted s q seq f) := by
  unfold State.modStarted
  repeat' first
    | with_reducible assumption | exact Nat.le_refl _ | exact id | exact Eq.refl _ | intro _ | with_reducible apply Stays.ite | with_reducible apply Stays.ite_fst
    | with_reducible apply State.modQueue_stays
    | (refine Stays.of_eq (by with_reducible assumption) ?_) | (simp only [stays_mk]) | split

theorem endEntry_stays {z0 s : State} {q : Nat} {seq : Nat} {status : Nat} {result : Word} {detail : BitVec 32} (hz0 : Stays z0 s) : Stays z0 (endEntry s q seq status result detail) := by
  unfold endEntry
  repeat' first
    | with_reducible assumption | exact Nat.le_refl _ | exact id | exact Eq.refl _ | intro _ | with_reducible apply Stays.ite | with_reducible apply Stays.ite_fst
    | with_reducible apply State.modStarted_stays | with_reducible apply State.modSync_stays | with_reducible apply State.modQueue_stays
    | (refine Stays.of_eq (by with_reducible assumption) ?_) | (simp only [stays_mk]) | split

theorem serveQueueWaits_stays {z0 s : State} {q : Nat} (hz0 : Stays z0 s) : Stays z0 (serveQueueWaits s q) := by
  unfold serveQueueWaits
  repeat' first
    | with_reducible assumption | exact Nat.le_refl _ | exact id | exact Eq.refl _ | intro _ | with_reducible apply Stays.ite | with_reducible apply Stays.ite_fst
    | with_reducible apply forEach_stays | with_reducible apply endEntry_stays
    | (refine Stays.of_eq (by with_reducible assumption) ?_) | (simp only [stays_mk]) | split

theorem dropXlats_stays {z0 s : State} {xs : List Xlat} (hz0 : Stays z0 s) : Stays z0 (dropXlats s xs) := by
  unfold dropXlats
  repeat' first
    | with_reducible assumption | exact Nat.le_refl _ | exact id | exact Eq.refl _ | intro _ | with_reducible apply Stays.ite | with_reducible apply Stays.ite_fst
    | with_reducible apply forEach_stays | with_reducible apply dropXlat_stays
    | (refine Stays.of_eq (by with_reducible assumption) ?_) | (simp only [stays_mk]) | split

theorem haltQueue_stays {z0 s : State} {q : Nat} {seq : Nat} {status : Nat} {op : Nat} {detail : BitVec 32} {counted : Bool} (hz0 : Stays z0 s) : Stays z0 (haltQueue s q seq status op detail counted) := by
  unfold haltQueue
  repeat' first
    | with_reducible assumption | exact Nat.le_refl _ | exact id | exact Eq.refl _ | intro _ | with_reducible apply Stays.ite | with_reducible apply Stays.ite_fst
    | with_reducible apply dropXlats_stays | with_reducible apply State.modQueue_stays | with_reducible apply State.modSync_stays
    | with_reducible apply raiseFault_stays | with_reducible apply State.modWin_stays | with_reducible apply flushQueue_stays
    | with_reducible apply fireVector_stays | with_reducible apply serveQueueWaits_stays
    | (refine Stays.of_eq (by with_reducible assumption) ?_) | (simp only [stays_mk]) | split

theorem haltStarted_stays {z0 s : State} {q : Nat} {seq : Nat} {status : Nat} {detail : BitVec 32} (hz0 : Stays z0 s) : Stays z0 (haltStarted s q seq status detail) := by
  unfold haltStarted
  repeat' first
    | with_reducible assumption | exact Nat.le_refl _ | exact id | exact Eq.refl _ | intro _ | with_reducible apply Stays.ite | with_reducible apply Stays.ite_fst
    | with_reducible apply haltQueue_stays | with_reducible apply dropXlats_stays
    | (refine Stays.of_eq (by with_reducible assumption) ?_) | (simp only [stays_mk]) | split

theorem chargeStart_stays {z0 s : State} {i : Nat} {acct : Option Nat} {parts : List (Nat × Nat)} (hz0 : Stays z0 s) : Stays z0 (chargeStart s i acct parts) := by
  unfold chargeStart
  repeat' first
    | with_reducible assumption | exact Nat.le_refl _ | exact id | exact Eq.refl _ | intro _ | with_reducible apply Stays.ite | with_reducible apply Stays.ite_fst
    | with_reducible apply noteEnergy_stays | with_reducible apply State.modPwr_stays | with_reducible apply State.modWin_stays
    | with_reducible apply State.modMeter_stays
    | (refine Stays.of_eq (by with_reducible assumption) ?_) | (simp only [stays_mk]) | split

theorem waitFor_stays {z0 s : State} {q : Nat} {r : Reason} (hz0 : Stays z0 s) : Stays z0 (waitFor s q r) := by
  unfold waitFor
  repeat' first
    | with_reducible assumption | exact Nat.le_refl _ | exact id | exact Eq.refl _ | intro _ | with_reducible apply Stays.ite | with_reducible apply Stays.ite_fst
    | with_reducible apply State.modPwr_stays | with_reducible apply State.modQueue_stays
    | (refine Stays.of_eq (by with_reducible assumption) ?_) | (simp only [stays_mk]) | split

theorem watchLine_stays {z0 s : State} {q : Nat} {x : Xlat} (hz0 : Stays z0 s) : Stays z0 (watchLine s q x) := by
  unfold watchLine
  repeat' first
    | with_reducible assumption | exact Nat.le_refl _ | exact id | exact Eq.refl _ | intro _ | with_reducible apply Stays.ite | with_reducible apply Stays.ite_fst
    | with_reducible apply State.modLink_stays | with_reducible apply State.sent_stays
    | (refine Stays.of_eq (by with_reducible assumption) ?_) | (simp only [stays_mk]) | split

theorem unwatch_stays {z0 s : State} {q : Nat} (hz0 : Stays z0 s) : Stays z0 (unwatch s q) := by
  unfold unwatch
  repeat' first
    | with_reducible assumption | exact Nat.le_refl _ | exact id | exact Eq.refl _ | intro _ | with_reducible apply Stays.ite | with_reducible apply Stays.ite_fst
    | with_reducible apply forEach_stays | with_reducible apply State.modLink_stays
    | (refine Stays.of_eq (by with_reducible assumption) ?_) | (simp only [stays_mk]) | split

theorem issueHead_stays {s0 s : State} {q n : Nat} (hs0 : Stays s0 s) : Stays s0 (issueHead q n s) := by
  induction n generalizing s with
  | zero => exact hs0
  | succ n ih =>
  unfold issueHead
  split
  · exact hs0
  · split
    · exact hs0
    · split
      · split
        · split
          · next e => exact ih (reserveSlot_stays hs0 e)
          · exact waitFor_stays hs0
        · split
          · split
            · exact waitFor_stays hs0
            · exact State.modQueue_stays hs0
          · split
            next e => exact ih (serveQueueWaits_stays (flushQueue_stays (State.modQueue_stays (Stays.of_eq e (joinGroup_stays hs0)))))
      · split
        · exact hs0
        · split
          · exact State.modQueue_stays hs0
          · extract_lets x
            split
            · exact waitFor_stays hs0
            · split
              · next e => exact haltQueue_stays (Stays.of_eq e (xlatRead_stays hs0))
              · next e =>
                have h1 := Stays.of_eq e (xlatRead_stays hs0)
                extract_lets ent sA sB s1
                split
                · exact watchLine_stays (waitFor_stays (State.modQueue_stays (Stays.ite h1 (State.modWin_stays h1))))
                · have h2 : Stays s0 s1 := State.modQueue_stays (unwatch_stays h1)
                  split
                  · exact ih (State.modQueue_stays (forEach_stays h2 (fun _ _ h => holdXlat_stays h)))
                  · split
                    · refine haltQueue_stays ?_
                      split
                      · exact State.modWin_stays h2
                      · exact h2
                    · exact ih (State.modQueue_stays h2)

theorem serveHead_stays {z0 s : State} {q : Nat} (hz0 : Stays z0 s) : Stays z0 (serveHead s q) := by
  unfold serveHead
  repeat' first
    | with_reducible assumption | exact Nat.le_refl _ | exact id | exact Eq.refl _ | intro _ | with_reducible apply Stays.ite | with_reducible apply Stays.ite_fst
    | with_reducible apply issueHead_stays
    | (refine Stays.of_eq (by with_reducible assumption) ?_) | (simp only [stays_mk]) | split

theorem retryHeads_stays {z0 s : State} {r : Reason} (hz0 : Stays z0 s) : Stays z0 (retryHeads s r) := by
  unfold retryHeads
  repeat' first
    | with_reducible assumption | exact Nat.le_refl _ | exact id | exact Eq.refl _ | intro _ | with_reducible apply Stays.ite | with_reducible apply Stays.ite_fst
    | with_reducible apply forEach_stays | with_reducible apply serveHead_stays
    | (refine Stays.of_eq (by with_reducible assumption) ?_) | (simp only [stays_mk]) | split

theorem retryEarly_stays {z0 s : State}  (hz0 : Stays z0 s) : Stays z0 (retryEarly s) := by
  unfold retryEarly
  repeat' first
    | with_reducible assumption | exact Nat.le_refl _ | exact id | exact Eq.refl _ | intro _ | with_reducible apply Stays.ite | with_reducible apply Stays.ite_fst
    | with_reducible apply forEach_stays | with_reducible apply serveHead_stays
    | (refine Stays.of_eq (by with_reducible assumption) ?_) | (simp only [stays_mk]) | split

theorem passTurn_stays {z0 s : State} {q : Nat} (hz0 : Stays z0 s) : Stays z0 (passTurn s q) := by
  unfold passTurn
  repeat' first
    | with_reducible assumption | exact Nat.le_refl _ | exact id | exact Eq.refl _ | intro _ | with_reducible apply Stays.ite | with_reducible apply Stays.ite_fst
    | with_reducible apply State.modPwr_stays
    | (refine Stays.of_eq (by with_reducible assumption) ?_) | (simp only [stays_mk]) | split

theorem calmQueue_stays {z0 s : State} {q : Nat} (hz0 : Stays z0 s) : Stays z0 (calmQueue s q) := by
  unfold calmQueue
  repeat' first
    | with_reducible assumption | exact Nat.le_refl _ | exact id | exact Eq.refl _ | intro _ | with_reducible apply Stays.ite | with_reducible apply Stays.ite_fst
    | with_reducible apply flushQueue_stays | with_reducible apply State.modQueue_stays | with_reducible apply serveQueueWaits_stays
    | (refine Stays.of_eq (by with_reducible assumption) ?_) | (simp only [stays_mk]) | split

theorem completeEntry_stays {z0 s : State} {q : Nat} {x : Started} {e : Ending} (hz0 : Stays z0 s) : Stays z0 (completeEntry s q x e) := by
  unfold completeEntry
  repeat' first
    | with_reducible assumption | exact Nat.le_refl _ | exact id | exact Eq.refl _ | intro _ | with_reducible apply Stays.ite | with_reducible apply Stays.ite_fst
    | with_reducible apply dropXlats_stays | with_reducible apply State.modQueue_stays | with_reducible apply serveQueueWaits_stays
    | with_reducible apply flushQueue_stays | with_reducible apply calmQueue_stays | with_reducible apply serveHead_stays
    | (refine Stays.of_eq (by with_reducible assumption) ?_) | (simp only [stays_mk]) | split

theorem waitFrom_stays {z0 s : State} {q : Nat} {r : Reason} {t : Nat} (hz0 : Stays z0 s) : Stays z0 (waitFrom s q r t) := by
  unfold waitFrom
  repeat' first
    | with_reducible assumption | exact Nat.le_refl _ | exact id | exact Eq.refl _ | intro _ | with_reducible apply Stays.ite | with_reducible apply Stays.ite_fst
    | with_reducible apply State.modQueue_stays
    | (refine Stays.of_eq (by with_reducible assumption) ?_) | (simp only [stays_mk]) | split

theorem waitAtHead_stays {z0 s : State} {q : Nat} {r : Reason} (hz0 : Stays z0 s) : Stays z0 (waitAtHead s q r) := by
  unfold waitAtHead
  repeat' first
    | with_reducible assumption | exact Nat.le_refl _ | exact id | exact Eq.refl _ | intro _ | with_reducible apply Stays.ite | with_reducible apply Stays.ite_fst
    | with_reducible apply waitFrom_stays
    | (refine Stays.of_eq (by with_reducible assumption) ?_) | (simp only [stays_mk]) | split

theorem beginLull_stays {z0 s : State} {q : Nat} (hz0 : Stays z0 s) : Stays z0 (beginLull s q) := by
  unfold beginLull
  repeat' first
    | with_reducible assumption | exact Nat.le_refl _ | exact id | exact Eq.refl _ | intro _ | with_reducible apply Stays.ite | with_reducible apply Stays.ite_fst
    | with_reducible apply State.modQueue_stays | with_reducible apply State.modWin_stays
    | (refine Stays.of_eq (by with_reducible assumption) ?_) | (simp only [stays_mk]) | split

end Sys2Proof.Machine
end

