-- ==== Sys2Proof/Laws/StaysEthOps.lean ====
section
/-! SUPPORT. The operations of Machine/EthOps.lean keep what `Stays` names. -/

namespace Sys2Proof.Machine

theorem ethQueue_stays {z0 s : State} {p : Nat} {want : Nat} {f : EthQueued} (hz0 : Stays z0 s) : Stays z0 (ethQueue s p want f) := by
  unfold ethQueue
  repeat' first
    | with_reducible assumption | exact Nat.le_refl _ | exact id | exact Eq.refl _ | intro _ | with_reducible apply Stays.ite | with_reducible apply Stays.ite_fst
    | with_reducible apply State.modSub_stays
    | (refine Stays.of_eq (by with_reducible assumption) ?_) | (simp only [stays_mk]) | split

theorem ethOwn_stays {z0 s : State} {p : Nat} {sub : Nat} {rank : Nat} {f : EthFrame} (hz0 : Stays z0 s) : Stays z0 (ethOwn s p sub rank f) := by
  unfold ethOwn
  repeat' first
    | with_reducible assumption | exact Nat.le_refl _ | exact id | exact Eq.refl _ | intro _ | with_reducible apply Stays.ite | with_reducible apply Stays.ite_fst
    | with_reducible apply State.modSub_stays | with_reducible apply ethQueue_stays
    | (refine Stays.of_eq (by with_reducible assumption) ?_) | (simp only [stays_mk]) | split

theorem ethZtp_stays {z0 s : State} {q : Nat} {i : QpIdent} {response : Bool} {p : ZtpPacket} (hz0 : Stays z0 s) : Stays z0 (ethZtp s q i response p) := by
  unfold ethZtp
  repeat' first
    | with_reducible assumption | exact Nat.le_refl _ | exact id | exact Eq.refl _ | intro _ | with_reducible apply Stays.ite | with_reducible apply Stays.ite_fst
    | with_reducible apply ethQueue_stays
    | (refine Stays.of_eq (by with_reducible assumption) ?_) | (simp only [stays_mk]) | split

theorem sendPause_stays {z0 s : State} {p : Nat} {t : Nat} {quanta : Nat} (hz0 : Stays z0 s) : Stays z0 (sendPause s p t quanta) := by
  unfold sendPause
  repeat' first
    | with_reducible assumption | exact Nat.le_refl _ | exact id | exact Eq.refl _ | intro _ | with_reducible apply Stays.ite | with_reducible apply Stays.ite_fst
    | with_reducible apply forEach_stays | with_reducible apply ethOwn_stays | with_reducible apply State.modSub_stays
    | (refine Stays.of_eq (by with_reducible assumption) ?_) | (simp only [stays_mk]) | split

theorem checkXoff_stays {z0 s : State} {p : Nat} {t : Nat} (hz0 : Stays z0 s) : Stays z0 (checkXoff s p t) := by
  unfold checkXoff
  repeat' first
    | with_reducible assumption | exact Nat.le_refl _ | exact id | exact Eq.refl _ | intro _ | with_reducible apply Stays.ite | with_reducible apply Stays.ite_fst
    | with_reducible apply sendPause_stays
    | (refine Stays.of_eq (by with_reducible assumption) ?_) | (simp only [stays_mk]) | split

theorem takeInbox_stays {z0 s : State} {arr : Arrival} {body : FrameBody} (hz0 : Stays z0 s) : Stays z0 (takeInbox s arr body) := by
  unfold takeInbox
  repeat' first
    | with_reducible assumption | exact Nat.le_refl _ | exact id | exact Eq.refl _ | intro _ | with_reducible apply Stays.ite | with_reducible apply Stays.ite_fst
    | with_reducible apply checkXoff_stays | with_reducible apply State.modEth_stays
    | (refine Stays.of_eq (by with_reducible assumption) ?_) | (simp only [stays_mk]) | split

end Sys2Proof.Machine
end

