-- ==== Sys2Proof/Laws/StaysTransportOps.lean ====
section
/-! SUPPORT. The operations of Machine/TransportOps.lean keep what `Stays` names. -/

namespace Sys2Proof.Machine

theorem State.modMsg_stays {z0 s : State} {q : Nat} {msn : Nat} {f : Msg → Msg} (hz0 : Stays z0 s) : Stays z0 (State.modMsg s q msn f) := by
  unfold State.modMsg
  repeat' first
    | with_reducible assumption | exact Nat.le_refl _ | exact id | exact Eq.refl _ | intro _ | with_reducible apply Stays.ite | with_reducible apply Stays.ite_fst
    | with_reducible apply State.modQp_stays
    | (refine Stays.of_eq (by with_reducible assumption) ?_) | (simp only [stays_mk]) | split

theorem tellOwner_stays {z0 s : State} {m : Msg} {status : Nat} {result : Word} {detail : BitVec 32} (hz0 : Stays z0 s) : Stays z0 (tellOwner s m status result detail) := by
  unfold tellOwner
  repeat' first
    | with_reducible assumption | exact Nat.le_refl _ | exact id | exact Eq.refl _ | intro _ | with_reducible apply Stays.ite | with_reducible apply Stays.ite_fst
    | with_reducible apply haltStarted_stays | with_reducible apply endEntry_stays | with_reducible apply State.modCouch_stays
    | with_reducible apply State.modFlt_stays
    | (refine Stays.of_eq (by with_reducible assumption) ?_) | (simp only [stays_mk]) | split

theorem endMsg_stays {z0 s : State} {q : Nat} {msn : Nat} {status : Nat} {result : Word} {detail : BitVec 32} (hz0 : Stays z0 s) : Stays z0 (endMsg s q msn status result detail) := by
  unfold endMsg
  repeat' first
    | with_reducible assumption | exact Nat.le_refl _ | exact id | exact Eq.refl _ | intro _ | with_reducible apply Stays.ite | with_reducible apply Stays.ite_fst
    | with_reducible apply tellOwner_stays | with_reducible apply State.modQp_stays
    | (refine Stays.of_eq (by with_reducible assumption) ?_) | (simp only [stays_mk]) | split

theorem endAll_stays {z0 s : State} {q : Nat} {status : Nat} {detail : BitVec 32} (hz0 : Stays z0 s) : Stays z0 (endAll s q status detail) := by
  unfold endAll
  repeat' first
    | with_reducible assumption | exact Nat.le_refl _ | exact id | exact Eq.refl _ | intro _ | with_reducible apply Stays.ite | with_reducible apply Stays.ite_fst
    | with_reducible apply forEach_stays | with_reducible apply endMsg_stays
    | (refine Stays.of_eq (by with_reducible assumption) ?_) | (simp only [stays_mk]) | split

theorem discardHeld_stays {z0 s : State} {q : Nat} (hz0 : Stays z0 s) : Stays z0 (discardHeld s q) := by
  unfold discardHeld
  repeat' first
    | with_reducible assumption | exact Nat.le_refl _ | exact id | exact Eq.refl _ | intro _ | with_reducible apply Stays.ite | with_reducible apply Stays.ite_fst
    | with_reducible apply State.modSync_stays
    | (refine Stays.of_eq (by with_reducible assumption) ?_) | (simp only [stays_mk]) | split

theorem endApplying_stays {z0 s : State} {a : Applying} (hz0 : Stays z0 s) : Stays z0 (endApplying s a) := by
  unfold endApplying
  repeat' first
    | with_reducible assumption | exact Nat.le_refl _ | exact id | exact Eq.refl _ | intro _ | with_reducible apply Stays.ite | with_reducible apply Stays.ite_fst
    | with_reducible apply dropXlat_stays
    | (refine Stays.of_eq (by with_reducible assumption) ?_) | (simp only [stays_mk]) | split

theorem dropApplying_stays {z0 s : State} {q : Nat} (hz0 : Stays z0 s) : Stays z0 (dropApplying s q) := by
  unfold dropApplying
  repeat' first
    | with_reducible assumption | exact Nat.le_refl _ | exact id | exact Eq.refl _ | intro _ | with_reducible apply Stays.ite | with_reducible apply Stays.ite_fst
    | with_reducible apply endApplying_stays | with_reducible apply State.modQp_stays
    | (refine Stays.of_eq (by with_reducible assumption) ?_) | (simp only [stays_mk]) | split

theorem qpError_stays {z0 s : State} {q : Nat} {lastStatus : Nat} {status : Nat} {detail : BitVec 32} {reason : Nat} (hz0 : Stays z0 s) : Stays z0 (qpError s q lastStatus status detail reason) := by
  unfold qpError
  repeat' first
    | with_reducible assumption | exact Nat.le_refl _ | exact id | exact Eq.refl _ | intro _ | with_reducible apply Stays.ite | with_reducible apply Stays.ite_fst
    | with_reducible apply endAll_stays | with_reducible apply discardHeld_stays | with_reducible apply dropApplying_stays
    | with_reducible apply State.modQp_stays | with_reducible apply raiseFault_stays
    | (refine Stays.of_eq (by with_reducible assumption) ?_) | (simp only [stays_mk]) | split

theorem qpClosed_stays {z0 s : State} {q : Nat} (hz0 : Stays z0 s) : Stays z0 (qpClosed s q) := by
  unfold qpClosed
  repeat' first
    | with_reducible assumption | exact Nat.le_refl _ | exact id | exact Eq.refl _ | intro _ | with_reducible apply Stays.ite | with_reducible apply Stays.ite_fst
    | with_reducible apply endAll_stays | with_reducible apply discardHeld_stays | with_reducible apply dropApplying_stays
    | with_reducible apply State.modQp_stays
    | (refine Stays.of_eq (by with_reducible assumption) ?_) | (simp only [stays_mk]) | split

theorem sendOut_stays {z0 s : State} {q : Nat} {vc : Nat} {p : ZtpPacket} (hz0 : Stays z0 s) : Stays z0 (sendOut s q vc p) := by
  unfold sendOut
  repeat' first
    | with_reducible assumption | exact Nat.le_refl _ | exact id | exact Eq.refl _ | intro _ | with_reducible apply Stays.ite | with_reducible apply Stays.ite_fst
    | with_reducible apply chargeShared_stays | with_reducible apply ethZtp_stays | with_reducible apply injectCircuit_stays
    | with_reducible apply inject_stays
    | (refine Stays.of_eq (by with_reducible assumption) ?_) | (simp only [stays_mk]) | split

theorem sendSealed_stays {z0 s : State} {q : Nat} {vc : Nat} {p : ZtpPacket} (hz0 : Stays z0 s) : Stays z0 (sendSealed s q vc p) := by
  unfold sendSealed
  repeat' first
    | with_reducible assumption | exact Nat.le_refl _ | exact id | exact Eq.refl _ | intro _ | with_reducible apply Stays.ite | with_reducible apply Stays.ite_fst
    | with_reducible apply sendOut_stays | with_reducible apply qpError_stays | with_reducible apply State.modQp_stays
    | (refine Stays.of_eq (by with_reducible assumption) ?_) | (simp only [stays_mk]) | split

theorem sendConn_stays {z0 s : State} {q : Nat} {typ : Nat} {c : ConnBlock} (hz0 : Stays z0 s) : Stays z0 (sendConn s q typ c) := by
  unfold sendConn
  repeat' first
    | with_reducible assumption | exact Nat.le_refl _ | exact id | exact Eq.refl _ | intro _ | with_reducible apply Stays.ite | with_reducible apply Stays.ite_fst
    | with_reducible apply sendOut_stays
    | (refine Stays.of_eq (by with_reducible assumption) ?_) | (simp only [stays_mk]) | split

theorem sendAnswer_stays {z0 s : State} {q : Nat} {typ : Nat} {psn : Nat} {msn : Nat} {syn : Nat} {status : Nat} {result : Word} {ts : BitVec 32} (hz0 : Stays z0 s) : Stays z0 (sendAnswer s q typ psn msn syn status result ts) := by
  unfold sendAnswer
  repeat' first
    | with_reducible assumption | exact Nat.le_refl _ | exact id | exact Eq.refl _ | intro _ | with_reducible apply Stays.ite | with_reducible apply Stays.ite_fst
    | with_reducible apply sendSealed_stays
    | (refine Stays.of_eq (by with_reducible assumption) ?_) | (simp only [stays_mk]) | split

theorem admitAll_stays {z0 s : State} {q : Nat} (hz0 : Stays z0 s) : Stays z0 (admitAll s q) := by
  unfold admitAll
  repeat' first
    | with_reducible assumption | exact Nat.le_refl _ | exact id | exact Eq.refl _ | intro _ | with_reducible apply Stays.ite | with_reducible apply Stays.ite_fst
    | with_reducible apply State.modQp_stays
    | (refine Stays.of_eq (by with_reducible assumption) ?_) | (simp only [stays_mk]) | split

theorem touchQp_stays {z0 s : State} {q : Nat} (hz0 : Stays z0 s) : Stays z0 (touchQp s q) := by
  unfold touchQp
  repeat' first
    | with_reducible assumption | exact Nat.le_refl _ | exact id | exact Eq.refl _ | intro _ | with_reducible apply Stays.ite | with_reducible apply Stays.ite_fst
    | with_reducible apply State.modQp_stays
    | (refine Stays.of_eq (by with_reducible assumption) ?_) | (simp only [stays_mk]) | split

theorem startMsg_stays {z0 s : State} {q : Nat} {m : Msg} (hz0 : Stays z0 s) : Stays z0 (startMsg s q m) := by
  unfold startMsg
  repeat' first
    | with_reducible assumption | exact Nat.le_refl _ | exact id | exact Eq.refl _ | intro _ | with_reducible apply Stays.ite | with_reducible apply Stays.ite_fst
    | with_reducible apply admitAll_stays | with_reducible apply touchQp_stays | with_reducible apply State.modQp_stays
    | with_reducible apply tellOwner_stays
    | (refine Stays.of_eq (by with_reducible assumption) ?_) | (simp only [stays_mk]) | split

theorem moveAck_stays {z0 s : State} {q : Nat} {u : Nat} (hz0 : Stays z0 s) : Stays z0 (moveAck s q u) := by
  unfold moveAck
  repeat' first
    | with_reducible assumption | exact Nat.le_refl _ | exact id | exact Eq.refl _ | intro _ | with_reducible apply Stays.ite | with_reducible apply Stays.ite_fst
    | with_reducible apply State.sent_stays | with_reducible apply State.modQp_stays | with_reducible apply admitAll_stays
    | with_reducible apply forEach_stays | with_reducible apply endMsg_stays
    | (refine Stays.of_eq (by with_reducible assumption) ?_) | (simp only [stays_mk]) | split

theorem advanceAck_stays {z0 s : State} {q : Nat} {psn : Nat} (hz0 : Stays z0 s) : Stays z0 (advanceAck s q psn) := by
  unfold advanceAck
  repeat' first
    | with_reducible assumption | exact Nat.le_refl _ | exact id | exact Eq.refl _ | intro _ | with_reducible apply Stays.ite | with_reducible apply Stays.ite_fst
    | with_reducible apply moveAck_stays
    | (refine Stays.of_eq (by with_reducible assumption) ?_) | (simp only [stays_mk]) | split

theorem settleAck_stays {z0 s : State} {q : Nat} (hz0 : Stays z0 s) : Stays z0 (settleAck s q) := by
  unfold settleAck
  repeat' first
    | with_reducible assumption | exact Nat.le_refl _ | exact id | exact Eq.refl _ | intro _ | with_reducible apply Stays.ite | with_reducible apply Stays.ite_fst
    | with_reducible apply admitAll_stays | with_reducible apply moveAck_stays
    | (refine Stays.of_eq (by with_reducible assumption) ?_) | (simp only [stays_mk]) | split

theorem resendFrom_stays {z0 s : State} {q : Nat} {psn : Nat} (hz0 : Stays z0 s) : Stays z0 (resendFrom s q psn) := by
  unfold resendFrom
  repeat' first
    | with_reducible assumption | exact Nat.le_refl _ | exact id | exact Eq.refl _ | intro _ | with_reducible apply Stays.ite | with_reducible apply Stays.ite_fst
    | with_reducible apply State.modQp_stays
    | (refine Stays.of_eq (by with_reducible assumption) ?_) | (simp only [stays_mk]) | split

theorem recordMsg_stays {z0 s : State} {q : Nat} {msn : Nat} {status : Nat} {held : Bool} {result : Word} {psn : Nat} {ts : BitVec 32} {sig : Bool} (hz0 : Stays z0 s) : Stays z0 (recordMsg s q msn status held result psn ts sig) := by
  unfold recordMsg
  repeat' first
    | with_reducible assumption | exact Nat.le_refl _ | exact id | exact Eq.refl _ | intro _ | with_reducible apply Stays.ite | with_reducible apply Stays.ite_fst
    | with_reducible apply State.modQp_stays
    | (refine Stays.of_eq (by with_reducible assumption) ?_) | (simp only [stays_mk]) | split

theorem writeResult_stays {z0 s : State} {q : Nat} {msn : Nat} (hz0 : Stays z0 s) : Stays z0 (writeResult s q msn) := by
  unfold writeResult
  repeat' first
    | with_reducible assumption | exact Nat.le_refl _ | exact id | exact Eq.refl _ | intro _ | with_reducible apply Stays.ite | with_reducible apply Stays.ite_fst
    | with_reducible apply healWords_stays
    | (refine Stays.of_eq (by with_reducible assumption) ?_) | (simp only [stays_mk]) | split

theorem contextLost_stays {z0 s : State} {q : Nat} {w : Nat} (hz0 : Stays z0 s) : Stays z0 (contextLost s q w) := by
  unfold contextLost
  repeat' first
    | with_reducible assumption | exact Nat.le_refl _ | exact id | exact Eq.refl _ | intro _ | with_reducible apply Stays.ite | with_reducible apply Stays.ite_fst
    | with_reducible apply qpError_stays | with_reducible apply logUe_stays
    | (refine Stays.of_eq (by with_reducible assumption) ?_) | (simp only [stays_mk]) | split

theorem heldEnded_stays {z0 s : State} {q : Nat} {msn : Nat} {status : Nat} {result : Word} (hz0 : Stays z0 s) : Stays z0 (heldEnded s q msn status result) := by
  unfold heldEnded
  repeat' first
    | with_reducible assumption | exact Nat.le_refl _ | exact id | exact Eq.refl _ | intro _ | with_reducible apply Stays.ite | with_reducible apply Stays.ite_fst
    | with_reducible apply State.modSync_stays | with_reducible apply State.modQp_stays | with_reducible apply writeResult_stays
    | with_reducible apply sendAnswer_stays
    | (refine Stays.of_eq (by with_reducible assumption) ?_) | (simp only [stays_mk]) | split

end Sys2Proof.Machine
end

