-- ==== Sys2Proof/Laws/StaysSyncOps.lean ====
section
/-! SUPPORT. The operations of Machine/SyncOps.lean keep what `Stays` names. -/

namespace Sys2Proof.Machine

theorem setObj_stays {z0 s : State} {id : Nat} {v : Nat} (hz0 : Stays z0 s) : Stays z0 (setObj s id v) := by
  unfold setObj
  repeat' first
    | with_reducible assumption | exact Nat.le_refl _ | exact id | exact Eq.refl _ | intro _ | with_reducible apply Stays.ite | with_reducible apply Stays.ite_fst
    | with_reducible apply State.modSync_stays
    | (refine Stays.of_eq (by with_reducible assumption) ?_) | (simp only [stays_mk]) | split

theorem endWait_stays {z0 s : State} {w : Wait} {status : Nat} {result : Word} (hz0 : Stays z0 s) : Stays z0 (endWait s w status result) := by
  unfold endWait
  repeat' first
    | with_reducible assumption | exact Nat.le_refl _ | exact id | exact Eq.refl _ | intro _ | with_reducible apply Stays.ite | with_reducible apply Stays.ite_fst
    | with_reducible apply State.modSync_stays | with_reducible apply haltStarted_stays | with_reducible apply endEntry_stays
    | with_reducible apply heldEnded_stays
    | (refine Stays.of_eq (by with_reducible assumption) ?_) | (simp only [stays_mk]) | split

theorem serveCounter_stays {z0 s : State} {id : Nat} (hz0 : Stays z0 s) : Stays z0 (serveCounter s id) := by
  unfold serveCounter
  repeat' first
    | with_reducible assumption | exact Nat.le_refl _ | exact id | exact Eq.refl _ | intro _ | with_reducible apply Stays.ite | with_reducible apply Stays.ite_fst
    | with_reducible apply forEach_stays | with_reducible apply endWait_stays
    | (refine Stays.of_eq (by with_reducible assumption) ?_) | (simp only [stays_mk]) | split

theorem serveSem_stays {z0 s : State} {id : Nat} (hz0 : Stays z0 s) : Stays z0 (serveSem s id) := by
  unfold serveSem
  repeat' first
    | with_reducible assumption | exact Nat.le_refl _ | exact id | exact Eq.refl _ | intro _ | with_reducible apply Stays.ite | with_reducible apply Stays.ite_fst
    | with_reducible apply forEach_stays | with_reducible apply setObj_stays | with_reducible apply endWait_stays
    | (refine Stays.of_eq (by with_reducible assumption) ?_) | (simp only [stays_mk]) | split

theorem serveAll_stays {z0 s : State}  (hz0 : Stays z0 s) : Stays z0 (serveAll s) := by
  unfold serveAll
  repeat' first
    | with_reducible assumption | exact Nat.le_refl _ | exact id | exact Eq.refl _ | intro _ | with_reducible apply Stays.ite | with_reducible apply Stays.ite_fst
    | with_reducible apply forEach_stays | with_reducible apply serveSem_stays | with_reducible apply serveCounter_stays
    | (refine Stays.of_eq (by with_reducible assumption) ?_) | (simp only [stays_mk]) | split

theorem passTimeWait_stays {z0 s : State} {t : Nat} {q : Nat} (hz0 : Stays z0 s) : Stays z0 (passTimeWait t s q) := by
  unfold passTimeWait
  repeat' first
    | with_reducible assumption | exact Nat.le_refl _ | exact id | exact Eq.refl _ | intro _ | with_reducible apply Stays.ite | with_reducible apply Stays.ite_fst
    | with_reducible apply endEntry_stays
    | (refine Stays.of_eq (by with_reducible assumption) ?_) | (simp only [stays_mk]) | split

theorem expireHead_stays {z0 s : State} {t : Nat} {q : Nat} (hz0 : Stays z0 s) : Stays z0 (expireHead t s q) := by
  unfold expireHead
  repeat' first
    | with_reducible assumption | exact Nat.le_refl _ | exact id | exact Eq.refl _ | intro _ | with_reducible apply Stays.ite | with_reducible apply Stays.ite_fst
    | with_reducible apply endEntry_stays
    | (refine Stays.of_eq (by with_reducible assumption) ?_) | (simp only [stays_mk]) | split

theorem expireHeld_stays {z0 s : State} {t : Nat} {w : Wait} (hz0 : Stays z0 s) : Stays z0 (expireHeld t s w) := by
  unfold expireHeld
  repeat' first
    | with_reducible assumption | exact Nat.le_refl _ | exact id | exact Eq.refl _ | intro _ | with_reducible apply Stays.ite | with_reducible apply Stays.ite_fst
    | with_reducible apply endWait_stays
    | (refine Stays.of_eq (by with_reducible assumption) ?_) | (simp only [stays_mk]) | split

theorem noteUnmet_stays {z0 s : State} {t : Nat} {w : Wait} (hz0 : Stays z0 s) : Stays z0 (noteUnmet t s w) := by
  unfold noteUnmet
  repeat' first
    | with_reducible assumption | exact Nat.le_refl _ | exact id | exact Eq.refl _ | intro _ | with_reducible apply Stays.ite | with_reducible apply Stays.ite_fst
    | with_reducible apply waitFrom_stays
    | (refine Stays.of_eq (by with_reducible assumption) ?_) | (simp only [stays_mk]) | split

theorem evaluateTick_stays {z0 s : State} {t : Nat} (hz0 : Stays z0 s) : Stays z0 (evaluateTick s t) := by
  unfold evaluateTick
  repeat' first
    | with_reducible assumption | exact Nat.le_refl _ | exact id | exact Eq.refl _ | intro _ | with_reducible apply Stays.ite | with_reducible apply Stays.ite_fst
    | with_reducible apply forEach_stays | with_reducible apply serveAll_stays | with_reducible apply passTimeWait_stays
    | with_reducible apply expireHead_stays | with_reducible apply expireHeld_stays | with_reducible apply noteUnmet_stays
    | (refine Stays.of_eq (by with_reducible assumption) ?_) | (simp only [stays_mk]) | split

theorem freshTick_stays {z0 s : State} {t : Nat} (hz0 : Stays z0 s) : Stays z0 (freshTick s t) := by
  unfold freshTick
  repeat' first
    | with_reducible assumption | exact Nat.le_refl _ | exact id | exact Eq.refl _ | intro _ | with_reducible apply Stays.ite | with_reducible apply Stays.ite_fst
    | with_reducible apply State.modSync_stays
    | (refine Stays.of_eq (by with_reducible assumption) ?_) | (simp only [stays_mk]) | split

theorem catchUp_stays {z0 s : State}  (hz0 : Stays z0 s) : Stays z0 (catchUp s) := by
  unfold catchUp
  repeat' first
    | with_reducible assumption | exact Nat.le_refl _ | exact id | exact Eq.refl _ | intro _ | with_reducible apply Stays.ite | with_reducible apply Stays.ite_fst
    | with_reducible apply freshTick_stays | with_reducible apply evaluateTick_stays
    | (refine Stays.of_eq (by with_reducible assumption) ?_) | (simp only [stays_mk]) | split

theorem meetTick_stays {z0 s : State}  (hz0 : Stays z0 s) : Stays z0 (meetTick s) := by
  unfold meetTick
  repeat' first
    | with_reducible assumption | exact Nat.le_refl _ | exact id | exact Eq.refl _ | intro _ | with_reducible apply Stays.ite | with_reducible apply Stays.ite_fst
    | with_reducible apply catchUp_stays | with_reducible apply evaluateTick_stays
    | (refine Stays.of_eq (by with_reducible assumption) ?_) | (simp only [stays_mk]) | split

theorem endTick_stays {z0 s : State}  (hz0 : Stays z0 s) : Stays z0 (endTick s) := by
  unfold endTick
  repeat' first
    | with_reducible assumption | exact Nat.le_refl _ | exact id | exact Eq.refl _ | intro _ | with_reducible apply Stays.ite | with_reducible apply Stays.ite_fst
    | with_reducible apply catchUp_stays | with_reducible apply evaluateTick_stays | with_reducible apply State.arriveAt_stays
    | with_reducible apply freshTick_stays
    | (refine Stays.of_eq (by with_reducible assumption) ?_) | (simp only [stays_mk]) | split

theorem takeTurn_stays {z0 s : State} {id : Nat} {rank : Nat} (hz0 : Stays z0 s) : Stays z0 (takeTurn s id rank) := by
  unfold takeTurn
  repeat' first
    | with_reducible assumption | exact Nat.le_refl _ | exact id | exact Eq.refl _ | intro _ | with_reducible apply Stays.ite | with_reducible apply Stays.ite_fst
    | with_reducible apply catchUp_stays | with_reducible apply endTick_stays | with_reducible apply State.modSync_stays
    | (refine Stays.of_eq (by with_reducible assumption) ?_) | (simp only [stays_mk]) | split

theorem addCounter_stays {z0 s : State} {id : Nat} {n : Nat} {rank : Nat} (hz0 : Stays z0 s) : Stays z0 (addCounter s id n rank) := by
  unfold addCounter
  repeat' first
    | with_reducible assumption | exact Nat.le_refl _ | exact id | exact Eq.refl _ | intro _ | with_reducible apply Stays.ite | with_reducible apply Stays.ite_fst
    | with_reducible apply takeTurn_stays | with_reducible apply setObj_stays
    | (refine Stays.of_eq (by with_reducible assumption) ?_) | (simp only [stays_mk]) | split

theorem addSem_stays {z0 s : State} {id : Nat} {n : Nat} {rank : Nat} (hz0 : Stays z0 s) : Stays z0 (addSem s id n rank).1 := by
  unfold addSem
  repeat' first
    | with_reducible assumption | exact Nat.le_refl _ | exact id | exact Eq.refl _ | intro _ | with_reducible apply Stays.ite | with_reducible apply Stays.ite_fst
    | with_reducible apply takeTurn_stays | with_reducible apply setObj_stays
    | (refine Stays.of_eq (by with_reducible assumption) ?_) | (simp only [stays_mk]) | split

theorem joinWait_stays {z0 s : State} {w : Wait} (hz0 : Stays z0 s) : Stays z0 (joinWait s w) := by
  unfold joinWait
  repeat' first
    | with_reducible assumption | exact Nat.le_refl _ | exact id | exact Eq.refl _ | intro _ | with_reducible apply Stays.ite | with_reducible apply Stays.ite_fst
    | with_reducible apply catchUp_stays | with_reducible apply endTick_stays | with_reducible apply endWait_stays
    | with_reducible apply State.modSync_stays
    | (refine Stays.of_eq (by with_reducible assumption) ?_) | (simp only [stays_mk]) | split

theorem initGranule_stays {z0 s : State} {g : Nat} {sem : Bool} (hz0 : Stays z0 s) : Stays z0 (initGranule s g sem) := by
  unfold initGranule
  repeat' first
    | with_reducible assumption | exact Nat.le_refl _ | exact id | exact Eq.refl _ | intro _ | with_reducible apply Stays.ite | with_reducible apply Stays.ite_fst
    | with_reducible apply catchUp_stays | with_reducible apply State.modSync_stays | with_reducible apply foldl_stays
    | with_reducible apply State.modGranule_stays | with_reducible apply foldl_fst_stays
    | (refine Stays.of_eq (by with_reducible assumption) ?_) | (simp only [stays_mk]) | split

theorem endGranWaits_stays {z0 s : State} {g : Nat} {status : Nat} (hz0 : Stays z0 s) : Stays z0 (endGranWaits s g status) := by
  unfold endGranWaits
  repeat' first
    | with_reducible assumption | exact Nat.le_refl _ | exact id | exact Eq.refl _ | intro _ | with_reducible apply Stays.ite | with_reducible apply Stays.ite_fst
    | with_reducible apply serveAll_stays | with_reducible apply catchUp_stays | with_reducible apply forEach_stays
    | with_reducible apply endWait_stays
    | (refine Stays.of_eq (by with_reducible assumption) ?_) | (simp only [stays_mk]) | split

theorem orphanGranule_stays {z0 s : State} {g : Nat} (hz0 : Stays z0 s) : Stays z0 (orphanGranule s g) := by
  unfold orphanGranule
  repeat' first
    | with_reducible assumption | exact Nat.le_refl _ | exact id | exact Eq.refl _ | intro _ | with_reducible apply Stays.ite | with_reducible apply Stays.ite_fst
    | with_reducible apply endGranWaits_stays | with_reducible apply State.modGranule_stays
    | (refine Stays.of_eq (by with_reducible assumption) ?_) | (simp only [stays_mk]) | split

theorem poolGranule_stays {z0 s : State} {g : Nat} (hz0 : Stays z0 s) : Stays z0 (poolGranule s g) := by
  unfold poolGranule
  repeat' first
    | with_reducible assumption | exact Nat.le_refl _ | exact id | exact Eq.refl _ | intro _ | with_reducible apply Stays.ite | with_reducible apply Stays.ite_fst
    | with_reducible apply initGranule_stays | with_reducible apply State.modGranule_stays
    | (refine Stays.of_eq (by with_reducible assumption) ?_) | (simp only [stays_mk]) | split

end Sys2Proof.Machine
end

