-- ==== Sys2Proof/Laws/StaysAccessOps.lean ====
section
/-! SUPPORT. The operations of Machine/AccessOps.lean keep what `Stays` names. -/

namespace Sys2Proof.Machine

theorem violate_stays {z0 s : State} {l : Nat} {kind : Nat} {addr : Nat} {write : Bool} (hz0 : Stays z0 s) : Stays z0 (violate s l kind addr write) := by
  unfold violate
  repeat' first
    | with_reducible assumption | exact Nat.le_refl _ | exact id | exact Eq.refl _ | intro _ | with_reducible apply Stays.ite | with_reducible apply Stays.ite_fst
    | (refine Stays.of_eq (by with_reducible assumption) ?_) | (simp only [stays_mk]) | split

theorem refuseAccess_stays {z0 s : State} {l : Nat} {a : Nat} {write : Bool} (hz0 : Stays z0 s) : Stays z0 (refuseAccess s l a write) := by
  unfold refuseAccess
  repeat' first
    | with_reducible assumption | exact Nat.le_refl _ | exact id | exact Eq.refl _ | intro _ | with_reducible apply Stays.ite | with_reducible apply Stays.ite_fst
    | with_reducible apply violate_stays
    | (refine Stays.of_eq (by with_reducible assumption) ?_) | (simp only [stays_mk]) | split

theorem ctlWrite_stays {z0 s : State} {l : Nat} {a : Nat} {rsv : List (Nat × Nat)} {v : Word} {f : State → State} (h_f : ∀ s, Stays z0 s → Stays z0 (f s)) (hz0 : Stays z0 s) : Stays z0 (ctlWrite s l a rsv v f) := by
  unfold ctlWrite
  repeat' first
    | with_reducible assumption | exact Nat.le_refl _ | exact id | exact Eq.refl _ | intro _ | with_reducible apply Stays.ite | with_reducible apply Stays.ite_fst
    | with_reducible apply refuseAccess_stays | with_reducible apply violate_stays | with_reducible apply h_f
    | (refine Stays.of_eq (by with_reducible assumption) ?_) | (simp only [stays_mk]) | split

theorem ctlDoorbell_stays {z0 s : State} {l : Nat} {a : Nat} {held : Bool} {rsv : List (Nat × Nat)} {v : Word} {f : State → State} (h_f : ∀ s, Stays z0 s → Stays z0 (f s)) (hz0 : Stays z0 s) : Stays z0 (ctlDoorbell s l a held rsv v f) := by
  unfold ctlDoorbell
  repeat' first
    | with_reducible assumption | exact Nat.le_refl _ | exact id | exact Eq.refl _ | intro _ | with_reducible apply Stays.ite | with_reducible apply Stays.ite_fst
    | with_reducible apply refuseAccess_stays | with_reducible apply violate_stays | with_reducible apply h_f
    | (refine Stays.of_eq (by with_reducible assumption) ?_) | (simp only [stays_mk]) | split

theorem answer_stays {z0 s : State} {d : Door} {status : Nat} {ws : List Word} (hz0 : Stays z0 s) : Stays z0 (answer s d status ws) := by
  unfold answer
  repeat' first
    | with_reducible assumption | exact Nat.le_refl _ | exact id | exact Eq.refl _ | intro _ | with_reducible apply Stays.ite | with_reducible apply Stays.ite_fst
    | with_reducible apply State.modDoor_stays | with_reducible apply fireVector_stays
    | (refine Stays.of_eq (by with_reducible assumption) ?_) | (simp only [stays_mk]) | split

theorem mailGate_stays {z0 s : State} {d : Door} {mgrOnly : Bool} {versions : List Nat} {run : State → State} (h_run : ∀ s, Stays z0 s → Stays z0 (run s)) (hz0 : Stays z0 s) : Stays z0 (mailGate s d mgrOnly versions run) := by
  unfold mailGate
  repeat' first
    | with_reducible assumption | exact Nat.le_refl _ | exact id | exact Eq.refl _ | intro _ | with_reducible apply Stays.ite | with_reducible apply Stays.ite_fst
    | with_reducible apply State.modDoor_stays | with_reducible apply answer_stays | with_reducible apply h_run
    | (refine Stays.of_eq (by with_reducible assumption) ?_) | (simp only [stays_mk]) | split

theorem mailRow_stays {z0 s : State} {d : Door} {l : Nat} {cmd : Nat} {run : State → State} (h_run : ∀ s, Stays z0 s → Stays z0 (run s)) (hz0 : Stays z0 s) : Stays z0 (mailRow s d l cmd run) := by
  unfold mailRow
  repeat' first
    | with_reducible assumption | exact Nat.le_refl _ | exact id | exact Eq.refl _ | intro _ | with_reducible apply Stays.ite | with_reducible apply Stays.ite_fst
    | with_reducible apply refuseAccess_stays | with_reducible apply h_run
    | (refine Stays.of_eq (by with_reducible assumption) ?_) | (simp only [stays_mk]) | split

theorem answerSt_stays {s0 : State} {d : Door} {r : State × Nat} (hs0 : Stays s0 r.1) : Stays s0 (answerSt d r) :=
  answer_stays hs0

end Sys2Proof.Machine
end

