-- ==== Sys2Proof/Laws/StaysRecoveryOps.lean ====
section
/-! SUPPORT. The operations of Machine/RecoveryOps.lean keep what `Stays` names. -/

namespace Sys2Proof.Machine

theorem takeDescriptor_stays {z0 s : State} {n : Nat} {d : Descriptor} (hz0 : Stays z0 s) : Stays z0 (takeDescriptor s n d) := by
  unfold takeDescriptor
  repeat' first
    | with_reducible assumption | exact Nat.le_refl _ | exact id | exact Eq.refl _ | intro _ | with_reducible apply Stays.ite | with_reducible apply Stays.ite_fst
    | with_reducible apply hbmZero_stays | with_reducible apply State.sent_stays | with_reducible apply State.modSlot_stays
    | (refine Stays.of_eq (by with_reducible assumption) ?_) | (simp only [stays_mk]) | split

theorem freeSlot_stays {z0 s : State} {n : Nat} (hz0 : Stays z0 s) : Stays z0 (freeSlot s n) := by
  unfold freeSlot
  repeat' first
    | with_reducible assumption | exact Nat.le_refl _ | exact id | exact Eq.refl _ | intro _ | with_reducible apply Stays.ite | with_reducible apply Stays.ite_fst
    | with_reducible apply State.modSlot_stays
    | (refine Stays.of_eq (by with_reducible assumption) ?_) | (simp only [stays_mk]) | split

theorem settleSlot_stays {z0 s : State} {n : Nat} (hz0 : Stays z0 s) : Stays z0 (settleSlot s n) := by
  unfold settleSlot
  repeat' first
    | with_reducible assumption | exact Nat.le_refl _ | exact id | exact Eq.refl _ | intro _ | with_reducible apply Stays.ite | with_reducible apply Stays.ite_fst
    | with_reducible apply takeDescriptor_stays | with_reducible apply freeSlot_stays
    | (refine Stays.of_eq (by with_reducible assumption) ?_) | (simp only [stays_mk]) | split

theorem noticeOn_stays {z0 s : State} {alt : Nat} {r : Alt} {p : Nat} (hz0 : Stays z0 s) : Stays z0 (noticeOn alt r s p) := by
  unfold noticeOn
  repeat' first
    | with_reducible assumption | exact Nat.le_refl _ | exact id | exact Eq.refl _ | intro _ | with_reducible apply Stays.ite | with_reducible apply Stays.ite_fst
    | with_reducible apply sendCtl_stays
    | (refine Stays.of_eq (by with_reducible assumption) ?_) | (simp only [stays_mk]) | split

theorem sendNotice_stays {z0 s : State} {alt : Nat} {r : Alt} (hz0 : Stays z0 s) : Stays z0 (sendNotice s alt r) := by
  unfold sendNotice
  repeat' first
    | with_reducible assumption | exact Nat.le_refl _ | exact id | exact Eq.refl _ | intro _ | with_reducible apply Stays.ite | with_reducible apply Stays.ite_fst
    | with_reducible apply forEach_stays | with_reducible apply noticeOn_stays
    | (refine Stays.of_eq (by with_reducible assumption) ?_) | (simp only [stays_mk]) | split

theorem unbindCircuit_stays {z0 s : State} {c : Nat × Nat} (hz0 : Stays z0 s) : Stays z0 (unbindCircuit s c) := by
  unfold unbindCircuit
  repeat' first
    | with_reducible assumption | exact Nat.le_refl _ | exact id | exact Eq.refl _ | intro _ | with_reducible apply Stays.ite | with_reducible apply Stays.ite_fst
    | with_reducible apply State.modQp_stays | with_reducible apply State.modSlot_stays
    | (refine Stays.of_eq (by with_reducible assumption) ?_) | (simp only [stays_mk]) | split

theorem recordAlt_stays {z0 s : State} {alt : Nat} {next : Bool} {planId : Word} {e : Nat} {origin : Nat} {hops : Nat} {arrPort : Nat} (hz0 : Stays z0 s) : Stays z0 (recordAlt s alt next planId e origin hops arrPort) := by
  unfold recordAlt
  repeat' first
    | with_reducible assumption | exact Nat.le_refl _ | exact id | exact Eq.refl _ | intro _ | with_reducible apply Stays.ite | with_reducible apply Stays.ite_fst
    | with_reducible apply State.modFlt_stays | with_reducible apply sendNotice_stays | with_reducible apply forEach_stays
    | with_reducible apply unbindCircuit_stays
    | (refine Stays.of_eq (by with_reducible assumption) ?_) | (simp only [stays_mk]) | split

theorem triggerAlt_stays {z0 s : State} {a : AltEnt} {t : Nat} (hz0 : Stays z0 s) : Stays z0 (triggerAlt s a t) := by
  unfold triggerAlt
  repeat' first
    | with_reducible assumption | exact Nat.le_refl _ | exact id | exact Eq.refl _ | intro _ | with_reducible apply Stays.ite | with_reducible apply Stays.ite_fst
    | with_reducible apply recordAlt_stays
    | (refine Stays.of_eq (by with_reducible assumption) ?_) | (simp only [stays_mk]) | split

theorem linkTriggered_stays {z0 s : State} {port : Nat} {t : Nat} (hz0 : Stays z0 s) : Stays z0 (linkTriggered s port t) := by
  unfold linkTriggered
  repeat' first
    | with_reducible assumption | exact Nat.le_refl _ | exact id | exact Eq.refl _ | intro _ | with_reducible apply Stays.ite | with_reducible apply Stays.ite_fst
    | with_reducible apply forEach_stays | with_reducible apply triggerAlt_stays
    | (refine Stays.of_eq (by with_reducible assumption) ?_) | (simp only [stays_mk]) | split

theorem portDown_stays {z0 s : State} {p : Nat} {discardQueues : Bool} (hz0 : Stays z0 s) : Stays z0 (portDown s p discardQueues) := by
  unfold portDown
  repeat' first
    | with_reducible assumption | exact Nat.le_refl _ | exact id | exact Eq.refl _ | intro _ | with_reducible apply Stays.ite | with_reducible apply Stays.ite_fst
    | with_reducible apply linkTriggered_stays | with_reducible apply fabLinkFault_stays | with_reducible apply fabDown_stays
    | (refine Stays.of_eq (by with_reducible assumption) ?_) | (simp only [stays_mk]) | split

theorem memberTriggered_stays {z0 s : State} {n : Nat} {member : Nat} (hz0 : Stays z0 s) : Stays z0 (memberTriggered s n member) := by
  unfold memberTriggered
  repeat' first
    | with_reducible assumption | exact Nat.le_refl _ | exact id | exact Eq.refl _ | intro _ | with_reducible apply Stays.ite | with_reducible apply Stays.ite_fst
    | with_reducible apply forEach_stays | with_reducible apply triggerAlt_stays
    | (refine Stays.of_eq (by with_reducible assumption) ?_) | (simp only [stays_mk]) | split

theorem undefineStep_stays {z0 s : State} {r : Run} {d : Option Descriptor} (hz0 : Stays z0 s) : Stays z0 (undefineStep s r d) := by
  unfold undefineStep
  repeat' first
    | with_reducible assumption | exact Nat.le_refl _ | exact id | exact Eq.refl _ | intro _ | with_reducible apply Stays.ite | with_reducible apply Stays.ite_fst
    | with_reducible apply undefineFrom_stays | with_reducible apply undefineHbm_stays
    | (refine Stays.of_eq (by with_reducible assumption) ?_) | (simp only [stays_mk]) | split

theorem endStep_stays {z0 s : State} {n : Nat} {status : Nat} {level : Nat} {member : Nat} (hz0 : Stays z0 s) : Stays z0 (endStep s n status level member) := by
  unfold endStep
  repeat' first
    | with_reducible assumption | exact Nat.le_refl _ | exact id | exact Eq.refl _ | intro _ | with_reducible apply Stays.ite | with_reducible apply Stays.ite_fst
    | with_reducible apply State.modSlot_stays | with_reducible apply raiseFault_stays | with_reducible apply undefineStep_stays
    | with_reducible apply endEntry_stays | with_reducible apply memberTriggered_stays | with_reducible apply settleSlot_stays
    | (refine Stays.of_eq (by with_reducible assumption) ?_) | (simp only [stays_mk]) | split

end Sys2Proof.Machine
end

