-- ==== Sys2Proof/Laws/StaysCouchOps.lean ====
section
/-! SUPPORT. The operations of Machine/CouchOps.lean keep what `Stays` names. -/

namespace Sys2Proof.Machine

theorem startTurn_stays {z0 s : State} {q : Nat} {m : Msg} (hz0 : Stays z0 s) : Stays z0 (startTurn s q m) := by
  unfold startTurn
  repeat' first
    | with_reducible assumption | exact Nat.le_refl _ | exact id | exact Eq.refl _ | intro _ | with_reducible apply Stays.ite | with_reducible apply Stays.ite_fst
    | with_reducible apply endTick_stays | with_reducible apply State.modQp_stays
    | (refine Stays.of_eq (by with_reducible assumption) ?_) | (simp only [stays_mk]) | split

theorem startOnQp_stays {z0 s : State} {q : Nat} {m : Msg} (hz0 : Stays z0 s) : Stays z0 (startOnQp s q m) := by
  unfold startOnQp
  repeat' first
    | with_reducible assumption | exact Nat.le_refl _ | exact id | exact Eq.refl _ | intro _ | with_reducible apply Stays.ite | with_reducible apply Stays.ite_fst
    | with_reducible apply startMsg_stays | with_reducible apply startTurn_stays | with_reducible apply tellOwner_stays
    | (refine Stays.of_eq (by with_reducible assumption) ?_) | (simp only [stays_mk]) | split

theorem modRun_stays {z0 s : State} {r : Nat} {f : CouchRun → CouchRun} (hz0 : Stays z0 s) : Stays z0 (modRun s r f) := by
  unfold modRun
  repeat' first
    | with_reducible assumption | exact Nat.le_refl _ | exact id | exact Eq.refl _ | intro _ | with_reducible apply Stays.ite | with_reducible apply Stays.ite_fst
    | with_reducible apply State.modCouch_stays
    | (refine Stays.of_eq (by with_reducible assumption) ?_) | (simp only [stays_mk]) | split

theorem couchFail_stays {z0 s : State} {r : Nat} {e : Ending} (hz0 : Stays z0 s) : Stays z0 (couchFail s r e) := by
  unfold couchFail
  repeat' first
    | with_reducible assumption | exact Nat.le_refl _ | exact id | exact Eq.refl _ | intro _ | with_reducible apply Stays.ite | with_reducible apply Stays.ite_fst
    | with_reducible apply State.modCouch_stays | with_reducible apply endEntry_stays | with_reducible apply raiseFault_stays
    | (refine Stays.of_eq (by with_reducible assumption) ?_) | (simp only [stays_mk]) | split

theorem couchSend_stays {z0 s : State} {e : CouchEnt} {r : Nat} {g : Nat} {bytes : List Byte} {i : Nat} (hz0 : Stays z0 s) : Stays z0 (couchSend e r g bytes s i) := by
  unfold couchSend
  repeat' first
    | with_reducible assumption | exact Nat.le_refl _ | exact id | exact Eq.refl _ | intro _ | with_reducible apply Stays.ite | with_reducible apply Stays.ite_fst
    | with_reducible apply startOnQp_stays | with_reducible apply modRun_stays
    | (refine Stays.of_eq (by with_reducible assumption) ?_) | (simp only [stays_mk]) | split

theorem couchSpread_stays {z0 s : State} {r : Nat} {c : Couch} {g : Nat} (hz0 : Stays z0 s) : Stays z0 (couchSpread s r c g) := by
  unfold couchSpread
  repeat' first
    | with_reducible assumption | exact Nat.le_refl _ | exact id | exact Eq.refl _ | intro _ | with_reducible apply Stays.ite | with_reducible apply Stays.ite_fst
    | with_reducible apply hbmRead_stays | with_reducible apply forEach_stays | with_reducible apply hbmStore_stays
    | with_reducible apply couchSend_stays | with_reducible apply modRun_stays
    | (refine Stays.of_eq (by with_reducible assumption) ?_) | (simp only [stays_mk]) | split

theorem couchBegin_stays {z0 s : State} {r : Nat} (hz0 : Stays z0 s) : Stays z0 (couchBegin s r) := by
  unfold couchBegin
  repeat' first
    | with_reducible assumption | exact Nat.le_refl _ | exact id | exact Eq.refl _ | intro _ | with_reducible apply Stays.ite | with_reducible apply Stays.ite_fst
    | with_reducible apply couchSpread_stays | with_reducible apply State.modCouch_stays
    | (refine Stays.of_eq (by with_reducible assumption) ?_) | (simp only [stays_mk]) | split

theorem couchCommit_stays {z0 s : State} {r : Nat} {c : Couch} {u : CouchRun} (hz0 : Stays z0 s) : Stays z0 (couchCommit s r c u) := by
  unfold couchCommit
  repeat' first
    | with_reducible assumption | exact Nat.le_refl _ | exact id | exact Eq.refl _ | intro _ | with_reducible apply Stays.ite | with_reducible apply Stays.ite_fst
    | with_reducible apply startOnQp_stays | with_reducible apply modRun_stays
    | (refine Stays.of_eq (by with_reducible assumption) ?_) | (simp only [stays_mk]) | split

theorem couchDone_stays {z0 s : State} {r : Nat} {u : CouchRun} (hz0 : Stays z0 s) : Stays z0 (couchDone s r u) := by
  unfold couchDone
  repeat' first
    | with_reducible assumption | exact Nat.le_refl _ | exact id | exact Eq.refl _ | intro _ | with_reducible apply Stays.ite | with_reducible apply Stays.ite_fst
    | with_reducible apply State.modCouch_stays | with_reducible apply endEntry_stays
    | (refine Stays.of_eq (by with_reducible assumption) ?_) | (simp only [stays_mk]) | split

theorem couchStep_stays {z0 s : State} {r : Nat} (hz0 : Stays z0 s) : Stays z0 (couchStep s r) := by
  unfold couchStep
  repeat' first
    | with_reducible assumption | exact Nat.le_refl _ | exact id | exact Eq.refl _ | intro _ | with_reducible apply Stays.ite | with_reducible apply Stays.ite_fst
    | with_reducible apply couchFail_stays | with_reducible apply couchBegin_stays | with_reducible apply couchCommit_stays
    | with_reducible apply couchDone_stays
    | (refine Stays.of_eq (by with_reducible assumption) ?_) | (simp only [stays_mk]) | split

theorem driveCouch_stays {z0 s : State} {r : Nat} (hz0 : Stays z0 s) : Stays z0 (driveCouch s r) := by
  unfold driveCouch
  repeat' first
    | with_reducible assumption | exact Nat.le_refl _ | exact id | exact Eq.refl _ | intro _ | with_reducible apply Stays.ite | with_reducible apply Stays.ite_fst
    | with_reducible apply couchStep_stays
    | (refine Stays.of_eq (by with_reducible assumption) ?_) | (simp only [stays_mk]) | split

theorem driveCouches_stays {z0 s : State}  (hz0 : Stays z0 s) : Stays z0 (driveCouches s) := by
  unfold driveCouches
  repeat' first
    | with_reducible assumption | exact Nat.le_refl _ | exact id | exact Eq.refl _ | intro _ | with_reducible apply Stays.ite | with_reducible apply Stays.ite_fst
    | with_reducible apply forEach_stays | with_reducible apply driveCouch_stays
    | (refine Stays.of_eq (by with_reducible assumption) ?_) | (simp only [stays_mk]) | split

theorem couchOpen_stays {z0 s : State} {r : Nat} {q : Nat} {seq : Nat} (hz0 : Stays z0 s) : Stays z0 (couchOpen s r q seq) := by
  unfold couchOpen
  repeat' first
    | with_reducible assumption | exact Nat.le_refl _ | exact id | exact Eq.refl _ | intro _ | with_reducible apply Stays.ite | with_reducible apply Stays.ite_fst
    | with_reducible apply haltStarted_stays | with_reducible apply State.modCouch_stays | with_reducible apply startOnQp_stays
    | with_reducible apply driveCouch_stays
    | (refine Stays.of_eq (by with_reducible assumption) ?_) | (simp only [stays_mk]) | split

theorem modRestore_stays {z0 s : State} {r : Nat} {f : Restore → Restore} (hz0 : Stays z0 s) : Stays z0 (modRestore s r f) := by
  unfold modRestore
  repeat' first
    | with_reducible assumption | exact Nat.le_refl _ | exact id | exact Eq.refl _ | intro _ | with_reducible apply Stays.ite | with_reducible apply Stays.ite_fst
    | with_reducible apply State.modFlt_stays
    | (refine Stays.of_eq (by with_reducible assumption) ?_) | (simp only [stays_mk]) | split

theorem restoreBegin_stays {z0 s : State} {r : Nat} {e : CouchEnt} (hz0 : Stays z0 s) : Stays z0 (restoreBegin s r e) := by
  unfold restoreBegin
  repeat' first
    | with_reducible assumption | exact Nat.le_refl _ | exact id | exact Eq.refl _ | intro _ | with_reducible apply Stays.ite | with_reducible apply Stays.ite_fst
    | with_reducible apply startOnQp_stays | with_reducible apply modRestore_stays
    | (refine Stays.of_eq (by with_reducible assumption) ?_) | (simp only [stays_mk]) | split

theorem restorePiece_stays {z0 s : State} {r : Nat} {g : Nat} {e : CouchEnt} {i : Nat} (hz0 : Stays z0 s) : Stays z0 (restorePiece r g e s i) := by
  unfold restorePiece
  repeat' first
    | with_reducible assumption | exact Nat.le_refl _ | exact id | exact Eq.refl _ | intro _ | with_reducible apply Stays.ite | with_reducible apply Stays.ite_fst
    | with_reducible apply startOnQp_stays
    | (refine Stays.of_eq (by with_reducible assumption) ?_) | (simp only [stays_mk]) | split

theorem restoreRead_stays {z0 s : State} {r : Nat} {e : CouchEnt} {g : Nat} (hz0 : Stays z0 s) : Stays z0 (restoreRead s r e g) := by
  unfold restoreRead
  repeat' first
    | with_reducible assumption | exact Nat.le_refl _ | exact id | exact Eq.refl _ | intro _ | with_reducible apply Stays.ite | with_reducible apply Stays.ite_fst
    | with_reducible apply forEach_stays | with_reducible apply modRestore_stays | with_reducible apply restorePiece_stays
    | (refine Stays.of_eq (by with_reducible assumption) ?_) | (simp only [stays_mk]) | split

theorem driveRestore_stays {z0 s : State} {r : Nat} (hz0 : Stays z0 s) : Stays z0 (driveRestore s r) := by
  unfold driveRestore
  repeat' first
    | with_reducible assumption | exact Nat.le_refl _ | exact id | exact Eq.refl _ | intro _ | with_reducible apply Stays.ite | with_reducible apply Stays.ite_fst
    | with_reducible apply restoreBegin_stays | with_reducible apply restoreRead_stays
    | (refine Stays.of_eq (by with_reducible assumption) ?_) | (simp only [stays_mk]) | split

theorem driveRestores_stays {z0 s : State}  (hz0 : Stays z0 s) : Stays z0 (driveRestores s) := by
  unfold driveRestores
  repeat' first
    | with_reducible assumption | exact Nat.le_refl _ | exact id | exact Eq.refl _ | intro _ | with_reducible apply Stays.ite | with_reducible apply Stays.ite_fst
    | with_reducible apply forEach_stays | with_reducible apply driveRestore_stays
    | (refine Stays.of_eq (by with_reducible assumption) ?_) | (simp only [stays_mk]) | split

end Sys2Proof.Machine
end

