-- ==== Sys2Proof/Laws/StaysConnOps.lean ====
section
/-! SUPPORT. The operations of Machine/ConnOps.lean keep what `Stays` names. -/

namespace Sys2Proof.Machine

theorem sendDiscReq_stays {z0 s : State} {q : Nat} (hz0 : Stays z0 s) : Stays z0 (sendDiscReq s q) := by
  unfold sendDiscReq
  repeat' first
    | with_reducible assumption | exact Nat.le_refl _ | exact id | exact Eq.refl _ | intro _ | with_reducible apply Stays.ite | with_reducible apply Stays.ite_fst
    | with_reducible apply sendConn_stays | with_reducible apply State.modQp_stays
    | (refine Stays.of_eq (by with_reducible assumption) ?_) | (simp only [stays_mk]) | split

theorem drainStep_stays {z0 s : State} {q : Nat} (hz0 : Stays z0 s) : Stays z0 (drainStep s q) := by
  unfold drainStep
  repeat' first
    | with_reducible assumption | exact Nat.le_refl _ | exact id | exact Eq.refl _ | intro _ | with_reducible apply Stays.ite | with_reducible apply Stays.ite_fst
    | with_reducible apply qpClosed_stays | with_reducible apply sendConn_stays | with_reducible apply sendDiscReq_stays
    | (refine Stays.of_eq (by with_reducible assumption) ?_) | (simp only [stays_mk]) | split

theorem drainQp_stays {z0 s : State} {q : Nat} {us : Nat} {peerDisc : Bool} (hz0 : Stays z0 s) : Stays z0 (drainQp s q us peerDisc) := by
  unfold drainQp
  repeat' first
    | with_reducible assumption | exact Nat.le_refl _ | exact id | exact Eq.refl _ | intro _ | with_reducible apply Stays.ite | with_reducible apply Stays.ite_fst
    | with_reducible apply discardHeld_stays | with_reducible apply State.modQp_stays | with_reducible apply drainStep_stays
    | (refine Stays.of_eq (by with_reducible assumption) ?_) | (simp only [stays_mk]) | split

theorem closeQp_stays {z0 s : State} {q : Nat} {us : Nat} (hz0 : Stays z0 s) : Stays z0 (closeQp s q us) := by
  unfold closeQp
  repeat' first
    | with_reducible assumption | exact Nat.le_refl _ | exact id | exact Eq.refl _ | intro _ | with_reducible apply Stays.ite | with_reducible apply Stays.ite_fst
    | with_reducible apply drainQp_stays | with_reducible apply qpClosed_stays | with_reducible apply sendConn_stays
    | (refine Stays.of_eq (by with_reducible assumption) ?_) | (simp only [stays_mk]) | split

theorem openQp_stays {z0 s : State} {q : Nat} {i : QpIdent} (hz0 : Stays z0 s) : Stays z0 (openQp s q i) := by
  unfold openQp
  repeat' first
    | with_reducible assumption | exact Nat.le_refl _ | exact id | exact Eq.refl _ | intro _ | with_reducible apply Stays.ite | with_reducible apply Stays.ite_fst
    | with_reducible apply State.modQp_stays | with_reducible apply sendConn_stays
    | (refine Stays.of_eq (by with_reducible assumption) ?_) | (simp only [stays_mk]) | split

theorem qpOpened_stays {z0 s : State} {q : Nat} (hz0 : Stays z0 s) : Stays z0 (qpOpened s q) := by
  unfold qpOpened
  repeat' first
    | with_reducible assumption | exact Nat.le_refl _ | exact id | exact Eq.refl _ | intro _ | with_reducible apply Stays.ite | with_reducible apply Stays.ite_fst
    | with_reducible apply State.modQp_stays
    | (refine Stays.of_eq (by with_reducible assumption) ?_) | (simp only [stays_mk]) | split

theorem signalLocal_stays {z0 s : State} {q : Nat} {e : Entry} (hz0 : Stays z0 s) : Stays z0 (signalLocal s q e) := by
  unfold signalLocal
  repeat' first
    | with_reducible assumption | exact Nat.le_refl _ | exact id | exact Eq.refl _ | intro _ | with_reducible apply Stays.ite | with_reducible apply Stays.ite_fst
    | with_reducible apply addCounter_stays
    | (refine Stays.of_eq (by with_reducible assumption) ?_) | (simp only [stays_mk]) | split

theorem finishEntry_stays {z0 s : State} {q : Nat} {seq : Nat} (hz0 : Stays z0 s) : Stays z0 (finishEntry s q seq) := by
  unfold finishEntry
  repeat' first
    | with_reducible assumption | exact Nat.le_refl _ | exact id | exact Eq.refl _ | intro _ | with_reducible apply Stays.ite | with_reducible apply Stays.ite_fst
    | with_reducible apply catchUp_stays | with_reducible apply signalLocal_stays | with_reducible apply completeEntry_stays
    | (refine Stays.of_eq (by with_reducible assumption) ?_) | (simp only [stays_mk]) | split

end Sys2Proof.Machine
end

