-- ==== Sys2Proof/Laws/StaysMeterOps.lean ====
section
/-! SUPPORT. The operations of Machine/MeterOps.lean keep what `Stays` names. -/

namespace Sys2Proof.Machine

theorem countGranules_stays {z0 s : State}  (hz0 : Stays z0 s) : Stays z0 (countGranules s) := by
  unfold countGranules
  repeat' first
    | with_reducible assumption | exact Nat.le_refl _ | exact id | exact Eq.refl _ | intro _ | with_reducible apply Stays.ite | with_reducible apply Stays.ite_fst
    | with_reducible apply forEach_stays | with_reducible apply State.modMeter_stays | with_reducible apply State.modMtr_stays
    | (refine Stays.of_eq (by with_reducible assumption) ?_) | (simp only [stays_mk]) | split

theorem keepRecord_stays {z0 s : State} {w : Watermark} (hz0 : Stays z0 s) : Stays z0 (keepRecord s w) := by
  unfold keepRecord
  repeat' first
    | with_reducible assumption | exact Nat.le_refl _ | exact id | exact Eq.refl _ | intro _ | with_reducible apply Stays.ite | with_reducible apply Stays.ite_fst
    | with_reducible apply State.modMtr_stays
    | (refine Stays.of_eq (by with_reducible assumption) ?_) | (simp only [stays_mk]) | split

theorem writeRecord_stays {z0 s : State} {i : Nat} {doubt : Bool} {isFinal : Bool} (hz0 : Stays z0 s) : Stays z0 (writeRecord s i doubt isFinal) := by
  unfold writeRecord
  repeat' first
    | with_reducible assumption | exact Nat.le_refl _ | exact id | exact Eq.refl _ | intro _ | with_reducible apply Stays.ite | with_reducible apply Stays.ite_fst
    | with_reducible apply keepRecord_stays
    | (refine Stays.of_eq (by with_reducible assumption) ?_) | (simp only [stays_mk]) | split

theorem finalRecord_stays {z0 s : State} {i : Nat} (hz0 : Stays z0 s) : Stays z0 (finalRecord s i) := by
  unfold finalRecord
  repeat' first
    | with_reducible assumption | exact Nat.le_refl _ | exact id | exact Eq.refl _ | intro _ | with_reducible apply Stays.ite | with_reducible apply Stays.ite_fst
    | with_reducible apply writeRecord_stays | with_reducible apply countGranules_stays
    | (refine Stays.of_eq (by with_reducible assumption) ?_) | (simp only [stays_mk]) | split

theorem newGeneration_stays {z0 s : State} {i : Nat} (hz0 : Stays z0 s) : Stays z0 (newGeneration s i) := by
  unfold newGeneration
  repeat' first
    | with_reducible assumption | exact Nat.le_refl _ | exact id | exact Eq.refl _ | intro _ | with_reducible apply Stays.ite | with_reducible apply Stays.ite_fst
    | with_reducible apply State.modMtr_stays
    | (refine Stays.of_eq (by with_reducible assumption) ?_) | (simp only [stays_mk]) | split

end Sys2Proof.Machine
end

