-- ==== Sys2Proof/Laws/StaysInstOps.lean ====
section
/-! SUPPORT. The operations of Machine/InstOps.lean keep what `Stays` names. -/

namespace Sys2Proof.Machine

theorem clearVector_stays {z0 s : State} {v : Nat} (hz0 : Stays z0 s) : Stays z0 (clearVector s v) := by
  unfold clearVector
  repeat' first
    | with_reducible assumption | exact Nat.le_refl _ | exact id | exact Eq.refl _ | intro _ | with_reducible apply Stays.ite | with_reducible apply Stays.ite_fst
    | with_reducible apply State.modLink_stays | with_reducible apply State.modVec_stays
    | (refine Stays.of_eq (by with_reducible assumption) ?_) | (simp only [stays_mk]) | split

theorem beginReset_stays {s0 s : State} {i : Nat} (hs0 : Stays s0 s) : Stays s0 (beginReset s i) := by
  unfold beginReset
  extract_lets s1 s2 s3 s4 s5 s6 s7
  have h1 : Stays s0 s1 := finalRecord_stays (State.arriveAt_stays hs0)
  have h2 : Stays s0 s2 := forEach_stays h1 (fun _ _ h => orphanGranule_stays h)
  have h3 : Stays s0 s3 := forEach_stays h2 (fun _ _ h => qpClosed_stays h)
  have h4 : Stays s0 s4 := State.modWin_stays h3
  have h5 : Stays s0 s5 := forEach_stays h4 (fun _ _ h => stays_mk.mpr (unwatch_stays h))
  have h6 : Stays s0 s6 := forEach_stays h5 (fun _ _ h => stays_mk.mpr h)
  have h7 : Stays s0 s7 := forEach_stays h6 (fun _ _ h => clearVector_stays h)
  exact State.modInst_stays h7

theorem reachCalm_stays {s0 s : State} {i : Nat} (hs0 : Stays s0 s) : Stays s0 (reachCalm s i) := by
  unfold reachCalm
  split
  · extract_lets s1
    have h1 : Stays s0 s1 := State.modInst_stays hs0
    split
    · exact beginReset_stays h1
    · exact h1
  · exact hs0

theorem reachCalms_stays {z0 s : State}  (hz0 : Stays z0 s) : Stays z0 (reachCalms s) := by
  unfold reachCalms
  repeat' first
    | with_reducible assumption | exact Nat.le_refl _ | exact id | exact Eq.refl _ | intro _ | with_reducible apply Stays.ite | with_reducible apply Stays.ite_fst
    | with_reducible apply forEach_stays | with_reducible apply reachCalm_stays
    | (refine Stays.of_eq (by with_reducible assumption) ?_) | (simp only [stays_mk]) | split

theorem enterCalming_stays {z0 s : State} {i : Nat} {removing : Bool} (hz0 : Stays z0 s) : Stays z0 (enterCalming s i removing) := by
  unfold enterCalming
  repeat' first
    | with_reducible assumption | exact Nat.le_refl _ | exact id | exact Eq.refl _ | intro _ | with_reducible apply Stays.ite | with_reducible apply Stays.ite_fst
    | with_reducible apply State.modInst_stays | with_reducible apply forEach_stays | with_reducible apply dropXlats_stays
    | with_reducible apply State.modQueue_stays | with_reducible apply calmQueue_stays | with_reducible apply closeQp_stays
    | with_reducible apply reachCalm_stays
    | (refine Stays.of_eq (by with_reducible assumption) ?_) | (simp only [stays_mk]) | split

theorem flushEntries_stays {z0 s : State} {q : Nat} (hz0 : Stays z0 s) : Stays z0 (flushEntries s q) := by
  unfold flushEntries
  repeat' first
    | with_reducible assumption | exact Nat.le_refl _ | exact id | exact Eq.refl _ | intro _ | with_reducible apply Stays.ite | with_reducible apply Stays.ite_fst
    | with_reducible apply forEach_stays | with_reducible apply endEntry_stays | with_reducible apply finishEntry_stays
    | (refine Stays.of_eq (by with_reducible assumption) ?_) | (simp only [stays_mk]) | split

theorem instDrained_stays {z0 s : State} {i : Nat} (hz0 : Stays z0 s) : Stays z0 (instDrained s i) := by
  unfold instDrained
  repeat' first
    | with_reducible assumption | exact Nat.le_refl _ | exact id | exact Eq.refl _ | intro _ | with_reducible apply Stays.ite | with_reducible apply Stays.ite_fst
    | with_reducible apply meetTick_stays | with_reducible apply State.arriveAt_stays | with_reducible apply forEach_stays
    | with_reducible apply qpClosed_stays | with_reducible apply endStep_stays | with_reducible apply couchFail_stays
    | with_reducible apply flushEntries_stays | with_reducible apply reachCalm_stays | with_reducible apply calmQueue_stays
    | (refine Stays.of_eq (by with_reducible assumption) ?_) | (simp only [stays_mk]) | split

theorem instZeroed_stays {z0 s : State} {i : Nat} (hz0 : Stays z0 s) : Stays z0 (instZeroed s i) := by
  unfold instZeroed
  repeat' first
    | with_reducible assumption | exact Nat.le_refl _ | exact id | exact Eq.refl _ | intro _ | with_reducible apply Stays.ite | with_reducible apply Stays.ite_fst
    | with_reducible apply forEach_stays | with_reducible apply countGranules_stays | with_reducible apply hbmZero_stays
    | with_reducible apply State.modInst_stays
    | (refine Stays.of_eq (by with_reducible assumption) ?_) | (simp only [stays_mk]) | split

theorem settle_stays {z0 s : State}  (hz0 : Stays z0 s) : Stays z0 (settle s) := by
  unfold settle
  repeat' first
    | with_reducible assumption | exact Nat.le_refl _ | exact id | exact Eq.refl _ | intro _ | with_reducible apply Stays.ite | with_reducible apply Stays.ite_fst
    | with_reducible apply driveRestores_stays | with_reducible apply driveCouches_stays | with_reducible apply forEach_stays
    | with_reducible apply drainStep_stays | with_reducible apply noteCauses_stays | with_reducible apply reachCalms_stays
    | with_reducible apply retryHeads_stays | with_reducible apply retryEarly_stays
    | (refine Stays.of_eq (by with_reducible assumption) ?_) | (simp only [stays_mk]) | split

end Sys2Proof.Machine
end

