-- ==== Sys2Proof/Laws/StaysRequestOps.lean ====
section
/-! SUPPORT. The operations of Machine/RequestOps.lean keep what `Stays` names. -/

namespace Sys2Proof.Machine

theorem staleDrop_stays {z0 s : State} {port : Nat} (hz0 : Stays z0 s) : Stays z0 (staleDrop s port) := by
  unfold staleDrop
  repeat' first
    | with_reducible assumption | exact Nat.le_refl _ | exact id | exact Eq.refl _ | intro _ | with_reducible apply Stays.ite | with_reducible apply Stays.ite_fst
    | with_reducible apply State.modDie_stays
    | (refine Stays.of_eq (by with_reducible assumption) ?_) | (simp only [stays_mk]) | split

theorem authFail_stays {z0 s : State} {port : Nat} (hz0 : Stays z0 s) : Stays z0 (authFail s port) := by
  unfold authFail
  repeat' first
    | with_reducible assumption | exact Nat.le_refl _ | exact id | exact Eq.refl _ | intro _ | with_reducible apply Stays.ite | with_reducible apply Stays.ite_fst
    | with_reducible apply State.modDie_stays
    | (refine Stays.of_eq (by with_reducible assumption) ?_) | (simp only [stays_mk]) | split

theorem outOfWindow_stays {z0 s : State} {port : Nat} (hz0 : Stays z0 s) : Stays z0 (outOfWindow s port) := by
  unfold outOfWindow
  repeat' first
    | with_reducible assumption | exact Nat.le_refl _ | exact id | exact Eq.refl _ | intro _ | with_reducible apply Stays.ite | with_reducible apply Stays.ite_fst
    | with_reducible apply State.modDie_stays
    | (refine Stays.of_eq (by with_reducible assumption) ?_) | (simp only [stays_mk]) | split

theorem pktGate_stays {z0 s : State} {arr : Arrival} {p : ZtpPacket} {typ : Byte} {run : State → State} (h_run : ∀ s, Stays z0 s → Stays z0 (run s)) (hz0 : Stays z0 s) : Stays z0 (pktGate s arr p typ run) := by
  unfold pktGate
  repeat' first
    | with_reducible assumption | exact Nat.le_refl _ | exact id | exact Eq.refl _ | intro _ | with_reducible apply Stays.ite | with_reducible apply Stays.ite_fst
    | with_reducible apply takeInbox_stays | with_reducible apply State.modDie_stays | with_reducible apply staleDrop_stays
    | with_reducible apply h_run
    | (refine Stays.of_eq (by with_reducible assumption) ?_) | (simp only [stays_mk]) | split

theorem respGate_stays {z0 s : State} {arr : Arrival} {p : ZtpPacket} {typ : Byte} {run : State → Nat → State} (h_run : ∀ s x1, Stays z0 s → Stays z0 (run s x1)) (hz0 : Stays z0 s) : Stays z0 (respGate s arr p typ run) := by
  unfold respGate
  repeat' first
    | with_reducible assumption | exact Nat.le_refl _ | exact id | exact Eq.refl _ | intro _ | with_reducible apply Stays.ite | with_reducible apply Stays.ite_fst
    | with_reducible apply pktGate_stays | with_reducible apply staleDrop_stays | with_reducible apply authFail_stays
    | with_reducible apply countDrop_stays | with_reducible apply settle_stays | with_reducible apply h_run
    | (refine Stays.of_eq (by with_reducible assumption) ?_) | (simp only [stays_mk]) | split

theorem replyBack_stays {z0 s : State} {arr : Arrival} {vc : Nat} {a : ZtpPacket} (hz0 : Stays z0 s) : Stays z0 (replyBack s arr vc a) := by
  unfold replyBack
  repeat' first
    | with_reducible assumption | exact Nat.le_refl _ | exact id | exact Eq.refl _ | intro _ | with_reducible apply Stays.ite | with_reducible apply Stays.ite_fst
    | with_reducible apply ethZtp_stays | with_reducible apply inject_stays
    | (refine Stays.of_eq (by with_reducible assumption) ?_) | (simp only [stays_mk]) | split

theorem makeResident_stays {z0 s : State} {q : Nat} (hz0 : Stays z0 s) : Stays z0 (makeResident s q) := by
  unfold makeResident
  repeat' first
    | with_reducible assumption | exact Nat.le_refl _ | exact id | exact Eq.refl _ | intro _ | with_reducible apply Stays.ite | with_reducible apply Stays.ite_fst
    | with_reducible apply touchQp_stays | with_reducible apply State.modQp_stays
    | (refine Stays.of_eq (by with_reducible assumption) ?_) | (simp only [stays_mk]) | split

theorem sendRequest_stays {z0 s : State} {q : Nat} {p : ZtpPacket} {after : Nat} {cost : Nat} (hz0 : Stays z0 s) : Stays z0 (sendRequest s q p after cost) := by
  unfold sendRequest
  repeat' first
    | with_reducible assumption | exact Nat.le_refl _ | exact id | exact Eq.refl _ | intro _ | with_reducible apply Stays.ite | with_reducible apply Stays.ite_fst
    | with_reducible apply State.modQp_stays | with_reducible apply State.modWin_stays | with_reducible apply sendSealed_stays
    | (refine Stays.of_eq (by with_reducible assumption) ?_) | (simp only [stays_mk]) | split

theorem sendNext_stays {z0 s : State} {q : Nat} (hz0 : Stays z0 s) : Stays z0 (sendNext s q) := by
  unfold sendNext
  repeat' first
    | with_reducible assumption | exact Nat.le_refl _ | exact id | exact Eq.refl _ | intro _ | with_reducible apply Stays.ite | with_reducible apply Stays.ite_fst
    | with_reducible apply State.modQp_stays | with_reducible apply State.arriveAt_stays | with_reducible apply sendRequest_stays
    | with_reducible apply xlatRead_stays | with_reducible apply settleAck_stays | with_reducible apply endMsg_stays
    | (refine Stays.of_eq (by with_reducible assumption) ?_) | (simp only [stays_mk]) | split

theorem takeCnp_stays {z0 s : State} {q : Nat} (hz0 : Stays z0 s) : Stays z0 (takeCnp s q) := by
  unfold takeCnp
  repeat' first
    | with_reducible assumption | exact Nat.le_refl _ | exact id | exact Eq.refl _ | intro _ | with_reducible apply Stays.ite | with_reducible apply Stays.ite_fst
    | with_reducible apply State.modQp_stays
    | (refine Stays.of_eq (by with_reducible assumption) ?_) | (simp only [stays_mk]) | split

theorem sampleRtt_stays {z0 s : State} {q : Nat} {ts : BitVec 32} (hz0 : Stays z0 s) : Stays z0 (sampleRtt s q ts) := by
  unfold sampleRtt
  repeat' first
    | with_reducible assumption | exact Nat.le_refl _ | exact id | exact Eq.refl _ | intro _ | with_reducible apply Stays.ite | with_reducible apply Stays.ite_fst
    | with_reducible apply State.modQp_stays
    | (refine Stays.of_eq (by with_reducible assumption) ?_) | (simp only [stays_mk]) | split

end Sys2Proof.Machine
end

