-- ==== Sys2Proof/Laws/StaysCollOps.lean ====
section
/-! SUPPORT. The operations of Machine/CollOps.lean keep what `Stays` names. -/

namespace Sys2Proof.Machine

theorem countPress_stays {z0 s : State} {saturated : Nat} {nans : Nat} (hz0 : Stays z0 s) : Stays z0 (countPress s saturated nans) := by
  unfold countPress
  repeat' first
    | with_reducible assumption | exact Nat.le_refl _ | exact id | exact Eq.refl _ | intro _ | with_reducible apply Stays.ite | with_reducible apply Stays.ite_fst
    | with_reducible apply State.modColl_stays
    | (refine Stays.of_eq (by with_reducible assumption) ?_) | (simp only [stays_mk]) | split

theorem countOperands_stays {z0 s : State} {d : Descriptor} {n : Nat} (hz0 : Stays z0 s) : Stays z0 (countOperands s d n) := by
  unfold countOperands
  repeat' first
    | with_reducible assumption | exact Nat.le_refl _ | exact id | exact Eq.refl _ | intro _ | with_reducible apply Stays.ite | with_reducible apply Stays.ite_fst
    | with_reducible apply drawFree_stays | with_reducible apply State.modColl_stays | with_reducible apply State.modMeter_stays
    | (refine Stays.of_eq (by with_reducible assumption) ?_) | (simp only [stays_mk]) | split

theorem wireUnit_stays {z0 s : State} {d : Descriptor} {r : Run} {level : Nat} {x : Transfer} {u : Nat} (hz0 : Stays z0 s) : Stays z0 (wireUnit s d r level x u).1 := by
  unfold wireUnit
  repeat' first
    | with_reducible assumption | exact Nat.le_refl _ | exact id | exact Eq.refl _ | intro _ | with_reducible apply Stays.ite | with_reducible apply Stays.ite_fst
    | with_reducible apply countPress_stays | with_reducible apply hbmRead_stays | with_reducible apply hbmStore_stays
    | with_reducible apply countOperands_stays
    | (refine Stays.of_eq (by with_reducible assumption) ?_) | (simp only [stays_mk]) | split

theorem chargePiece_stays {z0 s : State} {n : Nat} {d : Descriptor} {parts : List (Nat × Nat)} (hz0 : Stays z0 s) : Stays z0 (chargePiece s n d parts) := by
  unfold chargePiece
  repeat' first
    | with_reducible assumption | exact Nat.le_refl _ | exact id | exact Eq.refl _ | intro _ | with_reducible apply Stays.ite | with_reducible apply Stays.ite_fst
    | with_reducible apply chargeStart_stays
    | (refine Stays.of_eq (by with_reducible assumption) ?_) | (simp only [stays_mk]) | split

theorem State.modOut_stays {z0 s : State} {n : Nat} {key : Nat} {f : OutStream → OutStream} (hz0 : Stays z0 s) : Stays z0 (State.modOut s n key f) := by
  unfold State.modOut
  repeat' first
    | with_reducible assumption | exact Nat.le_refl _ | exact id | exact Eq.refl _ | intro _ | with_reducible apply Stays.ite | with_reducible apply Stays.ite_fst
    | with_reducible apply State.modSlot_stays
    | (refine Stays.of_eq (by with_reducible assumption) ?_) | (simp only [stays_mk]) | split

theorem State.modIn_stays {z0 s : State} {n : Nat} {key : Nat} {f : InStream → InStream} (hz0 : Stays z0 s) : Stays z0 (State.modIn s n key f) := by
  unfold State.modIn
  repeat' first
    | with_reducible assumption | exact Nat.le_refl _ | exact id | exact Eq.refl _ | intro _ | with_reducible apply Stays.ite | with_reducible apply Stays.ite_fst
    | with_reducible apply State.modSlot_stays
    | (refine Stays.of_eq (by with_reducible assumption) ?_) | (simp only [stays_mk]) | split

theorem State.modRunOf_stays {z0 s : State} {n : Nat} {f : Run → Run} (hz0 : Stays z0 s) : Stays z0 (State.modRunOf s n f) := by
  unfold State.modRunOf
  repeat' first
    | with_reducible assumption | exact Nat.le_refl _ | exact id | exact Eq.refl _ | intro _ | with_reducible apply Stays.ite | with_reducible apply Stays.ite_fst
    | with_reducible apply State.modSlot_stays
    | (refine Stays.of_eq (by with_reducible assumption) ?_) | (simp only [stays_mk]) | split

theorem pumpStream_stays {z0 s : State} {n : Nat} {key : Nat} {d : Descriptor} {n0 : Nat} (hz0 : Stays z0 s) : Stays z0 (pumpStream n key d n0 s) := by
  induction n0 generalizing s with
  | zero => exact hz0
  | succ n0 ih =>
  unfold pumpStream
  repeat' first
    | with_reducible assumption | exact Nat.le_refl _ | exact id | exact Eq.refl _ | intro _ | with_reducible apply Stays.ite | with_reducible apply Stays.ite_fst
    | with_reducible apply endStep_stays | with_reducible apply wireUnit_stays | with_reducible apply State.modOut_stays
    | with_reducible apply ih
    | (refine Stays.of_eq (by with_reducible assumption) ?_) | (simp only [stays_mk]) | split

theorem pump_stays {z0 s : State} {n : Nat} (hz0 : Stays z0 s) : Stays z0 (pump s n) := by
  unfold pump
  repeat' first
    | with_reducible assumption | exact Nat.le_refl _ | exact id | exact Eq.refl _ | intro _ | with_reducible apply Stays.ite | with_reducible apply Stays.ite_fst
    | with_reducible apply forEach_stays | with_reducible apply pumpStream_stays
    | (refine Stays.of_eq (by with_reducible assumption) ?_) | (simp only [stays_mk]) | split

theorem writeDst_stays {z0 s : State} {n : Nat} {d : Descriptor} {u : Nat} {bs : List Byte} (hz0 : Stays z0 s) : Stays z0 (writeDst s n d u bs) := by
  unfold writeDst
  repeat' first
    | with_reducible assumption | exact Nat.le_refl _ | exact id | exact Eq.refl _ | intro _ | with_reducible apply Stays.ite | with_reducible apply Stays.ite_fst
    | with_reducible apply freeBytes_stays | with_reducible apply xlatWrite_stays | with_reducible apply endStep_stays
    | (refine Stays.of_eq (by with_reducible assumption) ?_) | (simp only [stays_mk]) | split

theorem putFinals_stays {z0 s : State} {n : Nat} {d : Descriptor} {fs : List (Nat × List Byte)} (hz0 : Stays z0 s) : Stays z0 (putFinals s n d fs) := by
  unfold putFinals
  repeat' first
    | with_reducible assumption | exact Nat.le_refl _ | exact id | exact Eq.refl _ | intro _ | with_reducible apply Stays.ite | with_reducible apply Stays.ite_fst
    | with_reducible apply foldl_stays | with_reducible apply countPress_stays | with_reducible apply State.modRunOf_stays
    | with_reducible apply forEach_stays | with_reducible apply writeDst_stays | with_reducible apply foldl_fst_stays
    | (refine Stays.of_eq (by with_reducible assumption) ?_) | (simp only [stays_mk]) | split

theorem finishUnits_stays {z0 s : State} {n : Nat} {d : Descriptor} {us : List Nat} (hz0 : Stays z0 s) : Stays z0 (finishUnits s n d us) := by
  unfold finishUnits
  repeat' first
    | with_reducible assumption | exact Nat.le_refl _ | exact id | exact Eq.refl _ | intro _ | with_reducible apply Stays.ite | with_reducible apply Stays.ite_fst
    | with_reducible apply putFinals_stays | with_reducible apply countPress_stays | with_reducible apply foldl_stays
    | with_reducible apply foldl_fst_stays
    | (refine Stays.of_eq (by with_reducible assumption) ?_) | (simp only [stays_mk]) | split

theorem ethCsp_stays {z0 s : State} {n : Nat} {st : Nat} {port : Nat} {vid : Nat} {v6 : Bool} {dscp : Nat} {dst : BitVec 128} {member : Nat} {owner : Nat} {response : Bool} {p : CspPacket} (hz0 : Stays z0 s) : Stays z0 (ethCsp s n st port vid v6 dscp dst member owner response p) := by
  unfold ethCsp
  repeat' first
    | with_reducible assumption | exact Nat.le_refl _ | exact id | exact Eq.refl _ | intro _ | with_reducible apply Stays.ite | with_reducible apply Stays.ite_fst
    | with_reducible apply ethQueue_stays
    | (refine Stays.of_eq (by with_reducible assumption) ?_) | (simp only [stays_mk]) | split

theorem flushAck_stays {z0 s : State} {n : Nat} {key : Nat} (hz0 : Stays z0 s) : Stays z0 (flushAck s n key) := by
  unfold flushAck
  repeat' first
    | with_reducible assumption | exact Nat.le_refl _ | exact id | exact Eq.refl _ | intro _ | with_reducible apply Stays.ite | with_reducible apply Stays.ite_fst
    | with_reducible apply State.modIn_stays | with_reducible apply chargeShared_stays | with_reducible apply ethCsp_stays
    | with_reducible apply inject_stays
    | (refine Stays.of_eq (by with_reducible assumption) ?_) | (simp only [stays_mk]) | split

theorem flushAcks_stays {s0 s : State} (hs0 : Stays s0 s) : Stays s0 (flushAcks s) :=
  forEach_stays hs0 (fun _ _ h => forEach_stays h (fun _ _ h => flushAck_stays h))

theorem oweAck_stays {z0 s : State} {n : Nat} {key : Nat} (hz0 : Stays z0 s) : Stays z0 (oweAck s n key) := by
  unfold oweAck
  repeat' first
    | with_reducible assumption | exact Nat.le_refl _ | exact id | exact Eq.refl _ | intro _ | with_reducible apply Stays.ite | with_reducible apply Stays.ite_fst
    | with_reducible apply flushAck_stays | with_reducible apply State.modIn_stays
    | (refine Stays.of_eq (by with_reducible assumption) ?_) | (simp only [stays_mk]) | split

theorem pieceArrived_stays {z0 s : State} {n : Nat} {key : Nat} (hz0 : Stays z0 s) : Stays z0 (pieceArrived s n key) := by
  unfold pieceArrived
  repeat' first
    | with_reducible assumption | exact Nat.le_refl _ | exact id | exact Eq.refl _ | intro _ | with_reducible apply Stays.ite | with_reducible apply Stays.ite_fst
    | with_reducible apply addCounter_stays | with_reducible apply oweAck_stays | with_reducible apply State.modIn_stays
    | (refine Stays.of_eq (by with_reducible assumption) ?_) | (simp only [stays_mk]) | split

theorem formatFault_stays {z0 s : State} {n : Nat} {key : Nat} (hz0 : Stays z0 s) : Stays z0 (formatFault s n key) := by
  unfold formatFault
  repeat' first
    | with_reducible assumption | exact Nat.le_refl _ | exact id | exact Eq.refl _ | intro _ | with_reducible apply Stays.ite | with_reducible apply Stays.ite_fst
    | with_reducible apply endStep_stays
    | (refine Stays.of_eq (by with_reducible assumption) ?_) | (simp only [stays_mk]) | split

theorem rescan_stays {z0 s : State} {n : Nat} {key : Nat} (hz0 : Stays z0 s) : Stays z0 (rescan s n key) := by
  unfold rescan
  repeat' first
    | with_reducible assumption | exact Nat.le_refl _ | exact id | exact Eq.refl _ | intro _ | with_reducible apply Stays.ite | with_reducible apply Stays.ite_fst
    | with_reducible apply pieceArrived_stays
    | (refine Stays.of_eq (by with_reducible assumption) ?_) | (simp only [stays_mk]) | split

end Sys2Proof.Machine
end

