-- ==== Sys2Proof/Laws/StaysConnections.lean ====
section
/-! SUPPORT. The operations of Machine/Connections.lean keep what `Stays` names. -/

namespace Sys2Proof.Machine

theorem openCommand_stays {z0 s : State} {d : Door} (hz0 : Stays z0 s) : Stays z0 (openCommand s d).1 := by
  unfold openCommand
  repeat' first
    | with_reducible assumption | exact Nat.le_refl _ | exact id | exact Eq.refl _ | intro _ | with_reducible apply Stays.ite | with_reducible apply Stays.ite_fst
    | with_reducible apply openQp_stays | with_reducible apply makeResident_stays
    | (refine Stays.of_eq (by with_reducible assumption) ?_) | (simp only [stays_mk]) | split

theorem execQpOpen_stays {s t : State} {door : Door} {link : BitVec 2} (hn : execQpOpen door link s = .next t) : Stays s t := by
  unfold execQpOpen at hn
  injection hn with hn
  subst hn
  have hz0 : Stays s s := Stays.refl s
  repeat' first
    | with_reducible assumption | exact Nat.le_refl _ | exact id | exact Eq.refl _ | intro _ | with_reducible apply Stays.ite | with_reducible apply Stays.ite_fst
    | with_reducible apply mailRow_stays | with_reducible apply mailGate_stays | with_reducible apply answerSt_stays
    | with_reducible apply openCommand_stays
    | (refine Stays.of_eq (by with_reducible assumption) ?_) | (simp only [stays_mk]) | split

theorem closeCommand_stays {z0 s : State} {d : Door} (hz0 : Stays z0 s) : Stays z0 (closeCommand s d).1 := by
  unfold closeCommand
  repeat' first
    | with_reducible assumption | exact Nat.le_refl _ | exact id | exact Eq.refl _ | intro _ | with_reducible apply Stays.ite | with_reducible apply Stays.ite_fst
    | with_reducible apply closeQp_stays
    | (refine Stays.of_eq (by with_reducible assumption) ?_) | (simp only [stays_mk]) | split

theorem execQpClose_stays {s t : State} {door : Door} {link : BitVec 2} (hn : execQpClose door link s = .next t) : Stays s t := by
  unfold execQpClose at hn
  injection hn with hn
  subst hn
  have hz0 : Stays s s := Stays.refl s
  repeat' first
    | with_reducible assumption | exact Nat.le_refl _ | exact id | exact Eq.refl _ | intro _ | with_reducible apply Stays.ite | with_reducible apply Stays.ite_fst
    | with_reducible apply settle_stays | with_reducible apply mailRow_stays | with_reducible apply mailGate_stays
    | with_reducible apply answerSt_stays | with_reducible apply closeCommand_stays
    | (refine Stays.of_eq (by with_reducible assumption) ?_) | (simp only [stays_mk]) | split

theorem connGate_stays {z0 s : State} {arr : Arrival} {p : ZtpPacket} {typ : Byte} {run : State → Nat → ConnBlock → State} (h_run : ∀ s x1 x2, Stays z0 s → Stays z0 (run s x1 x2)) (hz0 : Stays z0 s) : Stays z0 (connGate s arr p typ run) := by
  unfold connGate
  repeat' first
    | with_reducible assumption | exact Nat.le_refl _ | exact id | exact Eq.refl _ | intro _ | with_reducible apply Stays.ite | with_reducible apply Stays.ite_fst
    | with_reducible apply pktGate_stays | with_reducible apply staleDrop_stays | with_reducible apply authFail_stays
    | with_reducible apply settle_stays | with_reducible apply h_run
    | (refine Stays.of_eq (by with_reducible assumption) ?_) | (simp only [stays_mk]) | split

theorem decideConnReq_stays {z0 s : State} {q : Nat} {c : ConnBlock} (hz0 : Stays z0 s) : Stays z0 (decideConnReq s q c) := by
  unfold decideConnReq
  repeat' first
    | with_reducible assumption | exact Nat.le_refl _ | exact id | exact Eq.refl _ | intro _ | with_reducible apply Stays.ite | with_reducible apply Stays.ite_fst
    | with_reducible apply State.modQp_stays | with_reducible apply sendConn_stays | with_reducible apply qpError_stays
    | (refine Stays.of_eq (by with_reducible assumption) ?_) | (simp only [stays_mk]) | split

theorem takeConnReq_stays {z0 s : State} {arr : Arrival} {q : Nat} {c : ConnBlock} (hz0 : Stays z0 s) : Stays z0 (takeConnReq s arr q c) := by
  unfold takeConnReq
  repeat' first
    | with_reducible assumption | exact Nat.le_refl _ | exact id | exact Eq.refl _ | intro _ | with_reducible apply Stays.ite | with_reducible apply Stays.ite_fst
    | with_reducible apply staleDrop_stays | with_reducible apply sendConn_stays | with_reducible apply decideConnReq_stays
    | (refine Stays.of_eq (by with_reducible assumption) ?_) | (simp only [stays_mk]) | split

theorem execConnReq_stays {s t : State} {arr : Arrival} {pkt : ZtpPacket} (hn : execConnReq arr pkt s = .next t) : Stays s t := by
  unfold execConnReq at hn
  injection hn with hn
  subst hn
  have hz0 : Stays s s := Stays.refl s
  repeat' first
    | with_reducible assumption | exact Nat.le_refl _ | exact id | exact Eq.refl _ | intro _ | with_reducible apply Stays.ite | with_reducible apply Stays.ite_fst
    | with_reducible apply connGate_stays | with_reducible apply takeConnReq_stays
    | (refine Stays.of_eq (by with_reducible assumption) ?_) | (simp only [stays_mk]) | split

theorem takeConnRep_stays {z0 s : State} {arr : Arrival} {q : Nat} {c : ConnBlock} (hz0 : Stays z0 s) : Stays z0 (takeConnRep s arr q c) := by
  unfold takeConnRep
  repeat' first
    | with_reducible assumption | exact Nat.le_refl _ | exact id | exact Eq.refl _ | intro _ | with_reducible apply Stays.ite | with_reducible apply Stays.ite_fst
    | with_reducible apply staleDrop_stays | with_reducible apply qpError_stays | with_reducible apply State.modQp_stays
    | with_reducible apply qpOpened_stays | with_reducible apply sendConn_stays
    | (refine Stays.of_eq (by with_reducible assumption) ?_) | (simp only [stays_mk]) | split

theorem execConnRep_stays {s t : State} {arr : Arrival} {pkt : ZtpPacket} (hn : execConnRep arr pkt s = .next t) : Stays s t := by
  unfold execConnRep at hn
  injection hn with hn
  subst hn
  have hz0 : Stays s s := Stays.refl s
  repeat' first
    | with_reducible assumption | exact Nat.le_refl _ | exact id | exact Eq.refl _ | intro _ | with_reducible apply Stays.ite | with_reducible apply Stays.ite_fst
    | with_reducible apply connGate_stays | with_reducible apply takeConnRep_stays
    | (refine Stays.of_eq (by with_reducible assumption) ?_) | (simp only [stays_mk]) | split

theorem takeConnRtu_stays {z0 s : State} {arr : Arrival} {q : Nat} {c : ConnBlock} (hz0 : Stays z0 s) : Stays z0 (takeConnRtu s arr q c) := by
  unfold takeConnRtu
  repeat' first
    | with_reducible assumption | exact Nat.le_refl _ | exact id | exact Eq.refl _ | intro _ | with_reducible apply Stays.ite | with_reducible apply Stays.ite_fst
    | with_reducible apply qpOpened_stays | with_reducible apply staleDrop_stays
    | (refine Stays.of_eq (by with_reducible assumption) ?_) | (simp only [stays_mk]) | split

theorem execConnRtu_stays {s t : State} {arr : Arrival} {pkt : ZtpPacket} (hn : execConnRtu arr pkt s = .next t) : Stays s t := by
  unfold execConnRtu at hn
  injection hn with hn
  subst hn
  have hz0 : Stays s s := Stays.refl s
  repeat' first
    | with_reducible assumption | exact Nat.le_refl _ | exact id | exact Eq.refl _ | intro _ | with_reducible apply Stays.ite | with_reducible apply Stays.ite_fst
    | with_reducible apply connGate_stays | with_reducible apply takeConnRtu_stays
    | (refine Stays.of_eq (by with_reducible assumption) ?_) | (simp only [stays_mk]) | split

theorem closedDisc_stays {z0 s : State} {arr : Arrival} {q : Nat} {p : ZtpPacket} {c : ConnBlock} (hz0 : Stays z0 s) : Stays z0 (closedDisc s arr q p c) := by
  unfold closedDisc
  repeat' first
    | with_reducible assumption | exact Nat.le_refl _ | exact id | exact Eq.refl _ | intro _ | with_reducible apply Stays.ite | with_reducible apply Stays.ite_fst
    | with_reducible apply replyBack_stays
    | (refine Stays.of_eq (by with_reducible assumption) ?_) | (simp only [stays_mk]) | split

theorem takeDiscReq_stays {z0 s : State} {arr : Arrival} {q : Nat} {p : ZtpPacket} {c : ConnBlock} (hz0 : Stays z0 s) : Stays z0 (takeDiscReq s arr q p c) := by
  unfold takeDiscReq
  repeat' first
    | with_reducible assumption | exact Nat.le_refl _ | exact id | exact Eq.refl _ | intro _ | with_reducible apply Stays.ite | with_reducible apply Stays.ite_fst
    | with_reducible apply closedDisc_stays | with_reducible apply staleDrop_stays | with_reducible apply drainQp_stays
    | with_reducible apply drainStep_stays | with_reducible apply State.modQp_stays | with_reducible apply sendConn_stays
    | (refine Stays.of_eq (by with_reducible assumption) ?_) | (simp only [stays_mk]) | split

theorem execDiscReq_stays {s t : State} {arr : Arrival} {pkt : ZtpPacket} (hn : execDiscReq arr pkt s = .next t) : Stays s t := by
  unfold execDiscReq at hn
  injection hn with hn
  subst hn
  have hz0 : Stays s s := Stays.refl s
  repeat' first
    | with_reducible assumption | exact Nat.le_refl _ | exact id | exact Eq.refl _ | intro _ | with_reducible apply Stays.ite | with_reducible apply Stays.ite_fst
    | with_reducible apply connGate_stays | with_reducible apply takeDiscReq_stays
    | (refine Stays.of_eq (by with_reducible assumption) ?_) | (simp only [stays_mk]) | split

theorem takeDiscRep_stays {z0 s : State} {arr : Arrival} {q : Nat} {c : ConnBlock} (hz0 : Stays z0 s) : Stays z0 (takeDiscRep s arr q c) := by
  unfold takeDiscRep
  repeat' first
    | with_reducible assumption | exact Nat.le_refl _ | exact id | exact Eq.refl _ | intro _ | with_reducible apply Stays.ite | with_reducible apply Stays.ite_fst
    | with_reducible apply qpClosed_stays | with_reducible apply staleDrop_stays
    | (refine Stays.of_eq (by with_reducible assumption) ?_) | (simp only [stays_mk]) | split

theorem execDiscRep_stays {s t : State} {arr : Arrival} {pkt : ZtpPacket} (hn : execDiscRep arr pkt s = .next t) : Stays s t := by
  unfold execDiscRep at hn
  injection hn with hn
  subst hn
  have hz0 : Stays s s := Stays.refl s
  repeat' first
    | with_reducible assumption | exact Nat.le_refl _ | exact id | exact Eq.refl _ | intro _ | with_reducible apply Stays.ite | with_reducible apply Stays.ite_fst
    | with_reducible apply connGate_stays | with_reducible apply takeDiscRep_stays
    | (refine Stays.of_eq (by with_reducible assumption) ?_) | (simp only [stays_mk]) | split

theorem connAgain_stays {z0 s : State} {q : Nat} (hz0 : Stays z0 s) : Stays z0 (connAgain s q) := by
  unfold connAgain
  repeat' first
    | with_reducible assumption | exact Nat.le_refl _ | exact id | exact Eq.refl _ | intro _ | with_reducible apply Stays.ite | with_reducible apply Stays.ite_fst
    | with_reducible apply State.arriveAt_stays | with_reducible apply sendConn_stays | with_reducible apply State.modQp_stays
    | (refine Stays.of_eq (by with_reducible assumption) ?_) | (simp only [stays_mk]) | split

theorem execConnReqTimer_stays {s t : State} {qp : BitVec 20} (hn : execConnReqTimer qp s = .next t) : Stays s t := by
  unfold execConnReqTimer at hn
  injection hn with hn
  subst hn
  have hz0 : Stays s s := Stays.refl s
  repeat' first
    | with_reducible assumption | exact Nat.le_refl _ | exact id | exact Eq.refl _ | intro _ | with_reducible apply Stays.ite | with_reducible apply Stays.ite_fst
    | with_reducible apply connAgain_stays
    | (refine Stays.of_eq (by with_reducible assumption) ?_) | (simp only [stays_mk]) | split

theorem setupLate_stays {z0 s : State} {q : Nat} (hz0 : Stays z0 s) : Stays z0 (setupLate s q) := by
  unfold setupLate
  repeat' first
    | with_reducible assumption | exact Nat.le_refl _ | exact id | exact Eq.refl _ | intro _ | with_reducible apply Stays.ite | with_reducible apply Stays.ite_fst
    | with_reducible apply settle_stays | with_reducible apply qpError_stays | with_reducible apply State.arriveAt_stays
    | (refine Stays.of_eq (by with_reducible assumption) ?_) | (simp only [stays_mk]) | split

theorem execSetupTimeout_stays {s t : State} {qp : BitVec 20} (hn : execSetupTimeout qp s = .next t) : Stays s t := by
  unfold execSetupTimeout at hn
  injection hn with hn
  subst hn
  have hz0 : Stays s s := Stays.refl s
  repeat' first
    | with_reducible assumption | exact Nat.le_refl _ | exact id | exact Eq.refl _ | intro _ | with_reducible apply Stays.ite | with_reducible apply Stays.ite_fst
    | with_reducible apply setupLate_stays
    | (refine Stays.of_eq (by with_reducible assumption) ?_) | (simp only [stays_mk]) | split

theorem discAgain_stays {z0 s : State} {q : Nat} (hz0 : Stays z0 s) : Stays z0 (discAgain s q) := by
  unfold discAgain
  repeat' first
    | with_reducible assumption | exact Nat.le_refl _ | exact id | exact Eq.refl _ | intro _ | with_reducible apply Stays.ite | with_reducible apply Stays.ite_fst
    | with_reducible apply sendDiscReq_stays | with_reducible apply State.arriveAt_stays
    | (refine Stays.of_eq (by with_reducible assumption) ?_) | (simp only [stays_mk]) | split

theorem execDiscReqTimer_stays {s t : State} {qp : BitVec 20} (hn : execDiscReqTimer qp s = .next t) : Stays s t := by
  unfold execDiscReqTimer at hn
  injection hn with hn
  subst hn
  have hz0 : Stays s s := Stays.refl s
  repeat' first
    | with_reducible assumption | exact Nat.le_refl _ | exact id | exact Eq.refl _ | intro _ | with_reducible apply Stays.ite | with_reducible apply Stays.ite_fst
    | with_reducible apply discAgain_stays
    | (refine Stays.of_eq (by with_reducible assumption) ?_) | (simp only [stays_mk]) | split

theorem qpDrained_stays {z0 s : State} {q : Nat} (hz0 : Stays z0 s) : Stays z0 (qpDrained s q) := by
  unfold qpDrained
  repeat' first
    | with_reducible assumption | exact Nat.le_refl _ | exact id | exact Eq.refl _ | intro _ | with_reducible apply Stays.ite | with_reducible apply Stays.ite_fst
    | with_reducible apply settle_stays | with_reducible apply qpClosed_stays | with_reducible apply State.arriveAt_stays
    | (refine Stays.of_eq (by with_reducible assumption) ?_) | (simp only [stays_mk]) | split

theorem execQpDrainBound_stays {s t : State} {qp : BitVec 20} (hn : execQpDrainBound qp s = .next t) : Stays s t := by
  unfold execQpDrainBound at hn
  injection hn with hn
  subst hn
  have hz0 : Stays s s := Stays.refl s
  repeat' first
    | with_reducible assumption | exact Nat.le_refl _ | exact id | exact Eq.refl _ | intro _ | with_reducible apply Stays.ite | with_reducible apply Stays.ite_fst
    | with_reducible apply qpDrained_stays
    | (refine Stays.of_eq (by with_reducible assumption) ?_) | (simp only [stays_mk]) | split

end Sys2Proof.Machine
end

