-- ==== Sys2Proof/Laws/StaysPowerOps.lean ====
section
/-! SUPPORT. The operations of Machine/PowerOps.lean keep what `Stays` names. -/

namespace Sys2Proof.Machine

theorem setLevel_stays {z0 s : State} {u : Nat} {l : Nat} (hz0 : Stays z0 s) : Stays z0 (setLevel s u l) := by
  unfold setLevel
  repeat' first
    | with_reducible assumption | exact Nat.le_refl _ | exact id | exact Eq.refl _ | intro _ | with_reducible apply Stays.ite | with_reducible apply Stays.ite_fst
    | with_reducible apply State.modPwr_stays
    | (refine Stays.of_eq (by with_reducible assumption) ?_) | (simp only [stays_mk]) | split

theorem raiseLevel_stays {z0 s : State} {u : Nat} (hz0 : Stays z0 s) : Stays z0 (raiseLevel s u) := by
  unfold raiseLevel
  repeat' first
    | with_reducible assumption | exact Nat.le_refl _ | exact id | exact Eq.refl _ | intro _ | with_reducible apply Stays.ite | with_reducible apply Stays.ite_fst
    | with_reducible apply setLevel_stays
    | (refine Stays.of_eq (by with_reducible assumption) ?_) | (simp only [stays_mk]) | split

theorem applyDeferred_stays {z0 s : State} {u : Nat} (hz0 : Stays z0 s) : Stays z0 (applyDeferred s u) := by
  unfold applyDeferred
  repeat' first
    | with_reducible assumption | exact Nat.le_refl _ | exact id | exact Eq.refl _ | intro _ | with_reducible apply Stays.ite | with_reducible apply Stays.ite_fst
    | with_reducible apply raiseLevel_stays | with_reducible apply State.modPwr_stays
    | (refine Stays.of_eq (by with_reducible assumption) ?_) | (simp only [stays_mk]) | split

theorem requestUnit_stays {z0 s : State} {u : Nat} (hz0 : Stays z0 s) : Stays z0 (requestUnit s u) := by
  unfold requestUnit
  repeat' first
    | with_reducible assumption | exact Nat.le_refl _ | exact id | exact Eq.refl _ | intro _ | with_reducible apply Stays.ite | with_reducible apply Stays.ite_fst
    | with_reducible apply applyDeferred_stays | with_reducible apply State.modPwr_stays | with_reducible apply raiseLevel_stays
    | (refine Stays.of_eq (by with_reducible assumption) ?_) | (simp only [stays_mk]) | split

theorem stepBoundary_stays {z0 s : State}  (hz0 : Stays z0 s) : Stays z0 (stepBoundary s) := by
  unfold stepBoundary
  repeat' first
    | with_reducible assumption | exact Nat.le_refl _ | exact id | exact Eq.refl _ | intro _ | with_reducible apply Stays.ite | with_reducible apply Stays.ite_fst
    | with_reducible apply forEach_stays | with_reducible apply applyDeferred_stays
    | (refine Stays.of_eq (by with_reducible assumption) ?_) | (simp only [stays_mk]) | split

theorem settleSteps_stays {z0 s : State}  (hz0 : Stays z0 s) : Stays z0 (settleSteps s) := by
  unfold settleSteps
  repeat' first
    | with_reducible assumption | exact Nat.le_refl _ | exact id | exact Eq.refl _ | intro _ | with_reducible apply Stays.ite | with_reducible apply Stays.ite_fst
    | with_reducible apply stepBoundary_stays | with_reducible apply settle_stays
    | (refine Stays.of_eq (by with_reducible assumption) ?_) | (simp only [stays_mk]) | split

theorem decideCap_stays {z0 s : State} {v : Nat} (hz0 : Stays z0 s) : Stays z0 (decideCap s v) := by
  unfold decideCap
  repeat' first
    | with_reducible assumption | exact Nat.le_refl _ | exact id | exact Eq.refl _ | intro _ | with_reducible apply Stays.ite | with_reducible apply Stays.ite_fst
    | with_reducible apply State.modPwr_stays
    | (refine Stays.of_eq (by with_reducible assumption) ?_) | (simp only [stays_mk]) | split

theorem decideHeldCap_stays {z0 s : State}  (hz0 : Stays z0 s) : Stays z0 (decideHeldCap s) := by
  unfold decideHeldCap
  repeat' first
    | with_reducible assumption | exact Nat.le_refl _ | exact id | exact Eq.refl _ | intro _ | with_reducible apply Stays.ite | with_reducible apply Stays.ite_fst
    | with_reducible apply decideCap_stays
    | (refine Stays.of_eq (by with_reducible assumption) ?_) | (simp only [stays_mk]) | split

theorem refillBucket_stays {z0 s : State} {x : Nat × EnergyEnt} (hz0 : Stays z0 s) : Stays z0 (refillBucket s x) := by
  unfold refillBucket
  repeat' first
    | with_reducible assumption | exact Nat.le_refl _ | exact id | exact Eq.refl _ | intro _ | with_reducible apply Stays.ite | with_reducible apply Stays.ite_fst
    | with_reducible apply State.modPwr_stays
    | (refine Stays.of_eq (by with_reducible assumption) ?_) | (simp only [stays_mk]) | split

theorem startBuckets_stays {z0 s : State}  (hz0 : Stays z0 s) : Stays z0 (startBuckets s) := by
  unfold startBuckets
  repeat' first
    | with_reducible assumption | exact Nat.le_refl _ | exact id | exact Eq.refl _ | intro _ | with_reducible apply Stays.ite | with_reducible apply Stays.ite_fst
    | with_reducible apply State.modPwr_stays
    | (refine Stays.of_eq (by with_reducible assumption) ?_) | (simp only [stays_mk]) | split

end Sys2Proof.Machine
end

