-- ==== Sys2Proof/Laws/StaysAltOps.lean ====
section
/-! SUPPORT. The operations of Machine/AltOps.lean keep what `Stays` names. -/

namespace Sys2Proof.Machine

theorem openCouchQp_stays {z0 s : State} {e : CouchEnt} (hz0 : Stays z0 s) : Stays z0 (openCouchQp s e) := by
  unfold openCouchQp
  repeat' first
    | with_reducible assumption | exact Nat.le_refl _ | exact id | exact Eq.refl _ | intro _ | with_reducible apply Stays.ite | with_reducible apply Stays.ite_fst
    | with_reducible apply openQp_stays | with_reducible apply makeResident_stays
    | (refine Stays.of_eq (by with_reducible assumption) ?_) | (simp only [stays_mk]) | split

theorem readImage_stays {z0 s : State} {r : Nat × Nat} (hz0 : Stays z0 s) : Stays z0 (readImage s r).1 := by
  unfold readImage
  repeat' first
    | with_reducible assumption | exact Nat.le_refl _ | exact id | exact Eq.refl _ | intro _ | with_reducible apply Stays.ite | with_reducible apply Stays.ite_fst
    | with_reducible apply hbmRead_stays
    | (refine Stays.of_eq (by with_reducible assumption) ?_) | (simp only [stays_mk]) | split

theorem altsIntact_stays {z0 s : State} {p : Plan} (hz0 : Stays z0 s) : Stays z0 (altsIntact s p).1 := by
  unfold altsIntact
  repeat' first
    | with_reducible assumption | exact Nat.le_refl _ | exact id | exact Eq.refl _ | intro _ | with_reducible apply Stays.ite | with_reducible apply Stays.ite_fst
    | with_reducible apply readImage_stays
    | (refine Stays.of_eq (by with_reducible assumption) ?_) | (simp only [stays_mk]) | split

theorem itemOnSlot_stays {z0 s : State} {n : Nat} {i : AltItem} (hz0 : Stays z0 s) : Stays z0 (itemOnSlot s n i) := by
  unfold itemOnSlot
  repeat' first
    | with_reducible assumption | exact Nat.le_refl _ | exact id | exact Eq.refl _ | intro _ | with_reducible apply Stays.ite | with_reducible apply Stays.ite_fst
    | with_reducible apply settleSlot_stays | with_reducible apply State.modSlot_stays
    | (refine Stays.of_eq (by with_reducible assumption) ?_) | (simp only [stays_mk]) | split

theorem bindCircuit_stays {z0 s : State} {c : Circuit} (hz0 : Stays z0 s) : Stays z0 (bindCircuit s c) := by
  unfold bindCircuit
  repeat' first
    | with_reducible assumption | exact Nat.le_refl _ | exact id | exact Eq.refl _ | intro _ | with_reducible apply Stays.ite | with_reducible apply Stays.ite_fst
    | with_reducible apply State.modQp_stays | with_reducible apply State.modSlot_stays
    | (refine Stays.of_eq (by with_reducible assumption) ?_) | (simp only [stays_mk]) | split

theorem itemEffect_stays {z0 s : State} {i : AltItem} (hz0 : Stays z0 s) : Stays z0 (itemEffect s i) := by
  unfold itemEffect
  repeat' first
    | with_reducible assumption | exact Nat.le_refl _ | exact id | exact Eq.refl _ | intro _ | with_reducible apply Stays.ite | with_reducible apply Stays.ite_fst
    | with_reducible apply itemOnSlot_stays | with_reducible apply bindCircuit_stays
    | (refine Stays.of_eq (by with_reducible assumption) ?_) | (simp only [stays_mk]) | split

theorem logAlt_stays {z0 s : State} {alt : Nat} {e : Nat} {status : Nat} (hz0 : Stays z0 s) : Stays z0 (logAlt s alt e status) := by
  unfold logAlt
  repeat' first
    | with_reducible assumption | exact Nat.le_refl _ | exact id | exact Eq.refl _ | intro _ | with_reducible apply Stays.ite | with_reducible apply Stays.ite_fst
    | with_reducible apply raiseFault_stays
    | (refine Stays.of_eq (by with_reducible assumption) ?_) | (simp only [stays_mk]) | split

theorem setAltCond_stays {z0 s : State} {alt : Nat} {c : AltCond} (hz0 : Stays z0 s) : Stays z0 (setAltCond s alt c) := by
  unfold setAltCond
  repeat' first
    | with_reducible assumption | exact Nat.le_refl _ | exact id | exact Eq.refl _ | intro _ | with_reducible apply Stays.ite | with_reducible apply Stays.ite_fst
    | with_reducible apply State.modFlt_stays
    | (refine Stays.of_eq (by with_reducible assumption) ?_) | (simp only [stays_mk]) | split

theorem applyOne_stays {z0 s : State} {alt : Nat} {e : Nat} (hz0 : Stays z0 s) : Stays z0 (applyOne s alt e) := by
  unfold applyOne
  repeat' first
    | with_reducible assumption | exact Nat.le_refl _ | exact id | exact Eq.refl _ | intro _ | with_reducible apply Stays.ite | with_reducible apply Stays.ite_fst
    | with_reducible apply altsIntact_stays | with_reducible apply logAlt_stays | with_reducible apply setAltCond_stays
    | with_reducible apply State.modPlans_stays | with_reducible apply forEach_stays | with_reducible apply itemEffect_stays
    | with_reducible apply State.modFlt_stays
    | (refine Stays.of_eq (by with_reducible assumption) ?_) | (simp only [stays_mk]) | split

theorem applyDue_stays {z0 s : State}  {n0 : Nat} (hz0 : Stays z0 s) : Stays z0 (applyDue  n0 s) := by
  induction n0 generalizing s with
  | zero => exact hz0
  | succ n0 ih =>
  unfold applyDue
  repeat' first
    | with_reducible assumption | exact Nat.le_refl _ | exact id | exact Eq.refl _ | intro _ | with_reducible apply Stays.ite | with_reducible apply Stays.ite_fst
    | with_reducible apply forEach_stays | with_reducible apply applyOne_stays | with_reducible apply ih
    | (refine Stays.of_eq (by with_reducible assumption) ?_) | (simp only [stays_mk]) | split

theorem applyAllDue_stays {z0 s : State}  (hz0 : Stays z0 s) : Stays z0 (applyAllDue s) := by
  unfold applyAllDue
  repeat' first
    | with_reducible assumption | exact Nat.le_refl _ | exact id | exact Eq.refl _ | intro _ | with_reducible apply Stays.ite | with_reducible apply Stays.ite_fst
    | with_reducible apply retryHeads_stays | with_reducible apply applyDue_stays
    | (refine Stays.of_eq (by with_reducible assumption) ?_) | (simp only [stays_mk]) | split

end Sys2Proof.Machine
end

