-- ==== Sys2Proof/Laws/StaysEthernet.lean ====
section
/-! SUPPORT. The operations of Machine/Ethernet.lean keep what `Stays` names. -/

namespace Sys2Proof.Machine

theorem police_stays {z0 s : State} {p : Nat} {t : Nat} {f : EthFrame} (hz0 : Stays z0 s) : Stays z0 (police s p t f).1 := by
  unfold police
  repeat' first
    | with_reducible assumption | exact Nat.le_refl _ | exact id | exact Eq.refl _ | intro _ | with_reducible apply Stays.ite | with_reducible apply Stays.ite_fst
    | with_reducible apply State.modEth_stays
    | (refine Stays.of_eq (by with_reducible assumption) ?_) | (simp only [stays_mk]) | split

theorem answerFirmware_stays {z0 s : State} {p : Nat} {sub : Nat} {f : EthFrame} {body : EthBody} (hz0 : Stays z0 s) : Stays z0 (answerFirmware s p sub f body) := by
  unfold answerFirmware
  repeat' first
    | with_reducible assumption | exact Nat.le_refl _ | exact id | exact Eq.refl _ | intro _ | with_reducible apply Stays.ite | with_reducible apply Stays.ite_fst
    | with_reducible apply State.modEth_stays | with_reducible apply ethOwn_stays
    | (refine Stays.of_eq (by with_reducible assumption) ?_) | (simp only [stays_mk]) | split

theorem applyPause_stays {z0 s : State} {p : Nat} {sub : Nat} {b : EthBody} (hz0 : Stays z0 s) : Stays z0 (applyPause s p sub b) := by
  unfold applyPause
  repeat' first
    | with_reducible assumption | exact Nat.le_refl _ | exact id | exact Eq.refl _ | intro _ | with_reducible apply Stays.ite | with_reducible apply Stays.ite_fst
    | with_reducible apply State.modEth_stays | with_reducible apply State.modSub_stays | with_reducible apply forEach_stays
    | (refine Stays.of_eq (by with_reducible assumption) ?_) | (simp only [stays_mk]) | split

theorem ptpReceived_stays {z0 s : State} {p : Nat} {sub : Nat} {f : EthFrame} {m : PtpMsg} (hz0 : Stays z0 s) : Stays z0 (ptpReceived s p sub f m) := by
  unfold ptpReceived
  repeat' first
    | with_reducible assumption | exact Nat.le_refl _ | exact id | exact Eq.refl _ | intro _ | with_reducible apply Stays.ite | with_reducible apply Stays.ite_fst
    | with_reducible apply State.modPtp_stays
    | (refine Stays.of_eq (by with_reducible assumption) ?_) | (simp only [stays_mk]) | split

theorem receiveEth_stays {z0 s : State} {p : Nat} {sub : Nat} {f : EthFrame} (hz0 : Stays z0 s) : Stays z0 (receiveEth s p sub f) := by
  unfold receiveEth
  repeat' first
    | with_reducible assumption | exact Nat.le_refl _ | exact id | exact Eq.refl _ | intro _ | with_reducible apply Stays.ite | with_reducible apply Stays.ite_fst
    | with_reducible apply State.modEth_stays | with_reducible apply applyPause_stays | with_reducible apply police_stays
    | with_reducible apply ptpReceived_stays | with_reducible apply answerFirmware_stays | with_reducible apply foldl_stays
    | with_reducible apply checkXoff_stays | with_reducible apply foldl_fst_stays
    | (refine Stays.of_eq (by with_reducible assumption) ?_) | (simp only [stays_mk]) | split

theorem execEthFrameReceived_stays {s t : State} {port : BitVec 4} {sub : BitVec 2} {frame : EthFrame} (hn : execEthFrameReceived port sub frame s = .next t) : Stays s t := by
  unfold execEthFrameReceived at hn
  injection hn with hn
  subst hn
  have hz0 : Stays s s := Stays.refl s
  repeat' first
    | with_reducible assumption | exact Nat.le_refl _ | exact id | exact Eq.refl _ | intro _ | with_reducible apply Stays.ite | with_reducible apply Stays.ite_fst
    | with_reducible apply receiveEth_stays
    | (refine Stays.of_eq (by with_reducible assumption) ?_) | (simp only [stays_mk]) | split

theorem refreshPfc_stays {z0 s : State} {p : Nat} {sub : Nat} {t : Nat} (hz0 : Stays z0 s) : Stays z0 (refreshPfc s p sub t) := by
  unfold refreshPfc
  repeat' first
    | with_reducible assumption | exact Nat.le_refl _ | exact id | exact Eq.refl _ | intro _ | with_reducible apply Stays.ite | with_reducible apply Stays.ite_fst
    | with_reducible apply sendPause_stays | with_reducible apply State.arriveAt_stays
    | (refine Stays.of_eq (by with_reducible assumption) ?_) | (simp only [stays_mk]) | split

theorem execPfcRefresh_stays {s t : State} {port : BitVec 4} {sub : BitVec 2} {prio : BitVec 3} (hn : execPfcRefresh port sub prio s = .next t) : Stays s t := by
  unfold execPfcRefresh at hn
  injection hn with hn
  subst hn
  have hz0 : Stays s s := Stays.refl s
  repeat' first
    | with_reducible assumption | exact Nat.le_refl _ | exact id | exact Eq.refl _ | intro _ | with_reducible apply Stays.ite | with_reducible apply Stays.ite_fst
    | with_reducible apply refreshPfc_stays
    | (refine Stays.of_eq (by with_reducible assumption) ?_) | (simp only [stays_mk]) | split

theorem execPauseFrame_stays {s t : State} {port : BitVec 4} {sub : BitVec 2} {frame : EthFrame} (hn : execPauseFrame port sub frame s = .next t) : Stays s t := by
  unfold execPauseFrame at hn
  injection hn with hn
  subst hn
  have hz0 : Stays s s := Stays.refl s
  repeat' first
    | with_reducible assumption | exact Nat.le_refl _ | exact id | exact Eq.refl _ | intro _ | with_reducible apply Stays.ite | with_reducible apply Stays.ite_fst
    | with_reducible apply receiveEth_stays
    | (refine Stays.of_eq (by with_reducible assumption) ?_) | (simp only [stays_mk]) | split

theorem expirePause_stays {z0 s : State} {p : Nat} {sub : Nat} {t : Nat} (hz0 : Stays z0 s) : Stays z0 (expirePause s p sub t) := by
  unfold expirePause
  repeat' first
    | with_reducible assumption | exact Nat.le_refl _ | exact id | exact Eq.refl _ | intro _ | with_reducible apply Stays.ite | with_reducible apply Stays.ite_fst
    | with_reducible apply State.arriveAt_stays | with_reducible apply State.modSub_stays
    | (refine Stays.of_eq (by with_reducible assumption) ?_) | (simp only [stays_mk]) | split

theorem execPauseExpiry_stays {s t : State} {port : BitVec 4} {sub : BitVec 2} {prio : BitVec 3} (hn : execPauseExpiry port sub prio s = .next t) : Stays s t := by
  unfold execPauseExpiry at hn
  injection hn with hn
  subst hn
  have hz0 : Stays s s := Stays.refl s
  repeat' first
    | with_reducible assumption | exact Nat.le_refl _ | exact id | exact Eq.refl _ | intro _ | with_reducible apply Stays.ite | with_reducible apply Stays.ite_fst
    | with_reducible apply expirePause_stays
    | (refine Stays.of_eq (by with_reducible assumption) ?_) | (simp only [stays_mk]) | split

theorem rawFrameDone_stays {z0 s : State} {r : Option (Nat × Nat × Bool)} (hz0 : Stays z0 s) : Stays z0 (rawFrameDone s r) := by
  unfold rawFrameDone
  repeat' first
    | with_reducible assumption | exact Nat.le_refl _ | exact id | exact Eq.refl _ | intro _ | with_reducible apply Stays.ite | with_reducible apply Stays.ite_fst
    | with_reducible apply State.modStarted_stays | with_reducible apply endEntry_stays
    | (refine Stays.of_eq (by with_reducible assumption) ?_) | (simp only [stays_mk]) | split

theorem countHeld_stays {z0 s : State} {p : Nat} {sub : Nat} (hz0 : Stays z0 s) : Stays z0 (countHeld s p sub) := by
  unfold countHeld
  repeat' first
    | with_reducible assumption | exact Nat.le_refl _ | exact id | exact Eq.refl _ | intro _ | with_reducible apply Stays.ite | with_reducible apply Stays.ite_fst
    | with_reducible apply forEach_stays | with_reducible apply State.modSub_stays | with_reducible apply State.modEth_stays
    | (refine Stays.of_eq (by with_reducible assumption) ?_) | (simp only [stays_mk]) | split

theorem startEth_stays {z0 s : State} {p : Nat} {sub : Nat} (hz0 : Stays z0 s) : Stays z0 (startEth s p sub) := by
  unfold startEth
  repeat' first
    | with_reducible assumption | exact Nat.le_refl _ | exact id | exact Eq.refl _ | intro _ | with_reducible apply Stays.ite | with_reducible apply Stays.ite_fst
    | with_reducible apply State.arriveAt_stays | with_reducible apply countHeld_stays | with_reducible apply State.modSub_stays
    | with_reducible apply State.modEth_stays | with_reducible apply State.modMeter_stays | with_reducible apply ptpLeft_stays
    | with_reducible apply rawFrameDone_stays | with_reducible apply State.sent_stays
    | (refine Stays.of_eq (by with_reducible assumption) ?_) | (simp only [stays_mk]) | split

theorem execEthFrameStart_stays {s t : State} {port : BitVec 4} {sub : BitVec 2} (hn : execEthFrameStart port sub s = .next t) : Stays s t := by
  unfold execEthFrameStart at hn
  injection hn with hn
  subst hn
  have hz0 : Stays s s := Stays.refl s
  repeat' first
    | with_reducible assumption | exact Nat.le_refl _ | exact id | exact Eq.refl _ | intro _ | with_reducible apply Stays.ite | with_reducible apply Stays.ite_fst
    | with_reducible apply startEth_stays
    | (refine Stays.of_eq (by with_reducible assumption) ?_) | (simp only [stays_mk]) | split

theorem nextGate_stays {z0 s : State} {p : Nat} (hz0 : Stays z0 s) : Stays z0 (nextGate s p) := by
  unfold nextGate
  repeat' first
    | with_reducible assumption | exact Nat.le_refl _ | exact id | exact Eq.refl _ | intro _ | with_reducible apply Stays.ite | with_reducible apply Stays.ite_fst
    | with_reducible apply forEach_stays | with_reducible apply countHeld_stays | with_reducible apply State.arriveAt_stays
    | (refine Stays.of_eq (by with_reducible assumption) ?_) | (simp only [stays_mk]) | split

theorem execGateEntry_stays {s t : State} {port : BitVec 4} (hn : execGateEntry port s = .next t) : Stays s t := by
  unfold execGateEntry at hn
  injection hn with hn
  subst hn
  have hz0 : Stays s s := Stays.refl s
  repeat' first
    | with_reducible assumption | exact Nat.le_refl _ | exact id | exact Eq.refl _ | intro _ | with_reducible apply Stays.ite | with_reducible apply Stays.ite_fst
    | with_reducible apply nextGate_stays
    | (refine Stays.of_eq (by with_reducible assumption) ?_) | (simp only [stays_mk]) | split

theorem announceVlan_stays {z0 s : State} {p : Nat} {sub : Nat} {old : Vlan} {v : Vlan} (hz0 : Stays z0 s) : Stays z0 (announceVlan s p sub old v) := by
  unfold announceVlan
  repeat' first
    | with_reducible assumption | exact Nat.le_refl _ | exact id | exact Eq.refl _ | intro _ | with_reducible apply Stays.ite | with_reducible apply Stays.ite_fst
    | with_reducible apply ethOwn_stays
    | (refine Stays.of_eq (by with_reducible assumption) ?_) | (simp only [stays_mk]) | split

theorem subUp_stays {z0 s : State} {p : Nat} {sub : Nat} (hz0 : Stays z0 s) : Stays z0 (subUp s p sub) := by
  unfold subUp
  repeat' first
    | with_reducible assumption | exact Nat.le_refl _ | exact id | exact Eq.refl _ | intro _ | with_reducible apply Stays.ite | with_reducible apply Stays.ite_fst
    | with_reducible apply State.modSub_stays | with_reducible apply forEach_stays | with_reducible apply announceVlan_stays
    | (refine Stays.of_eq (by with_reducible assumption) ?_) | (simp only [stays_mk]) | split

theorem execSubportLinkUp_stays {s t : State} {port : BitVec 4} {sub : BitVec 2} (hn : execSubportLinkUp port sub s = .next t) : Stays s t := by
  unfold execSubportLinkUp at hn
  injection hn with hn
  subst hn
  have hz0 : Stays s s := Stays.refl s
  repeat' first
    | with_reducible assumption | exact Nat.le_refl _ | exact id | exact Eq.refl _ | intro _ | with_reducible apply Stays.ite | with_reducible apply Stays.ite_fst
    | with_reducible apply subUp_stays
    | (refine Stays.of_eq (by with_reducible assumption) ?_) | (simp only [stays_mk]) | split

theorem loseFlying_stays {z0 s : State} {p : Nat} {sub : Nat} (hz0 : Stays z0 s) : Stays z0 (loseFlying s p sub) := by
  unfold loseFlying
  repeat' first
    | with_reducible assumption | exact Nat.le_refl _ | exact id | exact Eq.refl _ | intro _ | with_reducible apply Stays.ite | with_reducible apply Stays.ite_fst
    | with_reducible apply State.modEth_stays | with_reducible apply State.modStarted_stays
    | (refine Stays.of_eq (by with_reducible assumption) ?_) | (simp only [stays_mk]) | split

theorem subDown_stays {z0 s : State} {p : Nat} {sub : Nat} (hz0 : Stays z0 s) : Stays z0 (subDown s p sub) := by
  unfold subDown
  repeat' first
    | with_reducible assumption | exact Nat.le_refl _ | exact id | exact Eq.refl _ | intro _ | with_reducible apply Stays.ite | with_reducible apply Stays.ite_fst
    | with_reducible apply loseFlying_stays | with_reducible apply State.modSub_stays | with_reducible apply forEach_stays
    | with_reducible apply endEntry_stays
    | (refine Stays.of_eq (by with_reducible assumption) ?_) | (simp only [stays_mk]) | split

theorem execSubportLinkDown_stays {s t : State} {port : BitVec 4} {sub : BitVec 2} (hn : execSubportLinkDown port sub s = .next t) : Stays s t := by
  unfold execSubportLinkDown at hn
  injection hn with hn
  subst hn
  have hz0 : Stays s s := Stays.refl s
  repeat' first
    | with_reducible assumption | exact Nat.le_refl _ | exact id | exact Eq.refl _ | intro _ | with_reducible apply Stays.ite | with_reducible apply Stays.ite_fst
    | with_reducible apply subDown_stays
    | (refine Stays.of_eq (by with_reducible assumption) ?_) | (simp only [stays_mk]) | split

end Sys2Proof.Machine
end

