-- ==== Sys2Proof/Laws/StaysRawOps.lean ====
section
/-! SUPPORT. The operations of Machine/RawOps.lean keep what `Stays` names. -/

namespace Sys2Proof.Machine

theorem copyData_stays {z0 s : State} {src : Xlat} {dst : Xlat} (hz0 : Stays z0 s) : Stays z0 (copyData s src dst).1 := by
  unfold copyData
  repeat' first
    | with_reducible assumption | exact Nat.le_refl _ | exact id | exact Eq.refl _ | intro _ | with_reducible apply Stays.ite | with_reducible apply Stays.ite_fst
    | with_reducible apply xlatRead_stays | with_reducible apply undefineFrom_stays | with_reducible apply xlatWrite_stays
    | with_reducible apply freeBytes_stays
    | (refine Stays.of_eq (by with_reducible assumption) ?_) | (simp only [stays_mk]) | split

theorem queueRaw_stays {z0 s : State} {q : Nat} {seq : Nat} {p : Nat} {inst : Nat} {lso : Bool} {fs : List (List Byte)} (hz0 : Stays z0 s) : Stays z0 (queueRaw s q seq p inst lso fs) := by
  unfold queueRaw
  repeat' first
    | with_reducible assumption | exact Nat.le_refl _ | exact id | exact Eq.refl _ | intro _ | with_reducible apply Stays.ite | with_reducible apply Stays.ite_fst
    | with_reducible apply endEntry_stays | with_reducible apply forEach_stays | with_reducible apply State.modSub_stays
    | (refine Stays.of_eq (by with_reducible assumption) ?_) | (simp only [stays_mk]) | split

end Sys2Proof.Machine
end

