-- ==== Sys2Proof/Laws/StaysQueues.lean ====
section
/-! SUPPORT. The operations of Machine/Queues.lean keep what `Stays` names. -/

namespace Sys2Proof.Machine

theorem staleDoorbell_stays {z0 s : State} {i : Nat} (hz0 : Stays z0 s) : Stays z0 (staleDoorbell s i) := by
  unfold staleDoorbell
  repeat' first
    | with_reducible assumption | exact Nat.le_refl _ | exact id | exact Eq.refl _ | intro _ | with_reducible apply Stays.ite | with_reducible apply Stays.ite_fst
    | with_reducible apply State.modWin_stays
    | (refine Stays.of_eq (by with_reducible assumption) ?_) | (simp only [stays_mk]) | split

theorem takeWqDoorbell_stays {z0 s : State} {i : Nat} {q : Nat} {v : Word} (hz0 : Stays z0 s) : Stays z0 (takeWqDoorbell s i q v) := by
  unfold takeWqDoorbell
  repeat' first
    | with_reducible assumption | exact Nat.le_refl _ | exact id | exact Eq.refl _ | intro _ | with_reducible apply Stays.ite | with_reducible apply Stays.ite_fst
    | with_reducible apply staleDoorbell_stays | with_reducible apply serveHead_stays | with_reducible apply State.modQueue_stays
    | (refine Stays.of_eq (by with_reducible assumption) ?_) | (simp only [stays_mk]) | split

theorem doorbellAt_stays {z0 s : State} {l : Nat} {i : Nat} {a : Nat} {held : Bool} {rsv : List (Nat × Nat)} {v : Word} {f : State → State} (h_f : ∀ s, Stays z0 s → Stays z0 (f s)) (hz0 : Stays z0 s) : Stays z0 (doorbellAt s l i a held rsv v f) := by
  unfold doorbellAt
  repeat' first
    | with_reducible assumption | exact Nat.le_refl _ | exact id | exact Eq.refl _ | intro _ | with_reducible apply Stays.ite | with_reducible apply Stays.ite_fst
    | with_reducible apply ctlDoorbell_stays | with_reducible apply staleDoorbell_stays | with_reducible apply h_f
    | (refine Stays.of_eq (by with_reducible assumption) ?_) | (simp only [stays_mk]) | split

theorem execWqDoorbell_stays {s t : State} {link : BitVec 2} {inst : BitVec 7} {q : BitVec 19} {value : Word} (hn : execWqDoorbell link inst q value s = .next t) : Stays s t := by
  unfold execWqDoorbell at hn
  injection hn with hn
  subst hn
  have hz0 : Stays s s := Stays.refl s
  repeat' first
    | with_reducible assumption | exact Nat.le_refl _ | exact id | exact Eq.refl _ | intro _ | with_reducible apply Stays.ite | with_reducible apply Stays.ite_fst
    | with_reducible apply doorbellAt_stays | with_reducible apply takeWqDoorbell_stays
    | (refine Stays.of_eq (by with_reducible assumption) ?_) | (simp only [stays_mk]) | split

theorem takeCqDoorbell_stays {z0 s : State} {i : Nat} {n : Nat} {v : Word} (hz0 : Stays z0 s) : Stays z0 (takeCqDoorbell s i n v) := by
  unfold takeCqDoorbell
  repeat' first
    | with_reducible assumption | exact Nat.le_refl _ | exact id | exact Eq.refl _ | intro _ | with_reducible apply Stays.ite | with_reducible apply Stays.ite_fst
    | with_reducible apply staleDoorbell_stays | with_reducible apply State.modRing_stays | with_reducible apply fireVector_stays
    | with_reducible apply forEach_stays | with_reducible apply flushQueue_stays | with_reducible apply serveHead_stays
    | (refine Stays.of_eq (by with_reducible assumption) ?_) | (simp only [stays_mk]) | split

theorem execCqDoorbell_stays {s t : State} {link : BitVec 2} {inst : BitVec 7} {ring : BitVec 17} {value : Word} (hn : execCqDoorbell link inst ring value s = .next t) : Stays s t := by
  unfold execCqDoorbell at hn
  injection hn with hn
  subst hn
  have hz0 : Stays s s := Stays.refl s
  repeat' first
    | with_reducible assumption | exact Nat.le_refl _ | exact id | exact Eq.refl _ | intro _ | with_reducible apply Stays.ite | with_reducible apply Stays.ite_fst
    | with_reducible apply doorbellAt_stays | with_reducible apply takeCqDoorbell_stays
    | (refine Stays.of_eq (by with_reducible assumption) ?_) | (simp only [stays_mk]) | split

theorem startHead_stays {z0 s : State} {q : Nat} {w : WorkQueue} {h : Issued} (hz0 : Stays z0 s) : Stays z0 (startHead s q w h) := by
  unfold startHead
  repeat' first
    | with_reducible assumption | exact Nat.le_refl _ | exact id | exact Eq.refl _ | intro _ | with_reducible apply Stays.ite | with_reducible apply Stays.ite_fst
    | with_reducible apply joinGroup_stays | with_reducible apply chargeStart_stays | with_reducible apply State.modQueue_stays
    | with_reducible apply serveHead_stays
    | (refine Stays.of_eq (by with_reducible assumption) ?_) | (simp only [stays_mk]) | split

theorem startEntry_stays {z0 s : State} {q : Nat} (hz0 : Stays z0 s) : Stays z0 (startEntry s q) := by
  unfold startEntry
  repeat' first
    | with_reducible assumption | exact Nat.le_refl _ | exact id | exact Eq.refl _ | intro _ | with_reducible apply Stays.ite | with_reducible apply Stays.ite_fst
    | with_reducible apply serveHead_stays | with_reducible apply haltQueue_stays | with_reducible apply startHead_stays
    | with_reducible apply passTurn_stays
    | (refine Stays.of_eq (by with_reducible assumption) ?_) | (simp only [stays_mk]) | split

theorem execEntryStart_stays {s t : State} {q : BitVec 19} (hn : execEntryStart q s = .next t) : Stays s t := by
  unfold execEntryStart at hn
  injection hn with hn
  subst hn
  have hz0 : Stays s s := Stays.refl s
  repeat' first
    | with_reducible assumption | exact Nat.le_refl _ | exact id | exact Eq.refl _ | intro _ | with_reducible apply Stays.ite | with_reducible apply Stays.ite_fst
    | with_reducible apply startEntry_stays
    | (refine Stays.of_eq (by with_reducible assumption) ?_) | (simp only [stays_mk]) | split

theorem completeOne_stays {z0 s : State} {q : Nat} {seq : Nat} (hz0 : Stays z0 s) : Stays z0 (completeOne s q seq) := by
  unfold completeOne
  repeat' first
    | with_reducible assumption | exact Nat.le_refl _ | exact id | exact Eq.refl _ | intro _ | with_reducible apply Stays.ite | with_reducible apply Stays.ite_fst
    | with_reducible apply settle_stays | with_reducible apply finishEntry_stays
    | (refine Stays.of_eq (by with_reducible assumption) ?_) | (simp only [stays_mk]) | split

theorem execEntryComplete_stays {s t : State} {q : BitVec 19} {seq : BitVec 32} (hn : execEntryComplete q seq s = .next t) : Stays s t := by
  unfold execEntryComplete at hn
  injection hn with hn
  subst hn
  have hz0 : Stays s s := Stays.refl s
  repeat' first
    | with_reducible assumption | exact Nat.le_refl _ | exact id | exact Eq.refl _ | intro _ | with_reducible apply Stays.ite | with_reducible apply Stays.ite_fst
    | with_reducible apply completeOne_stays
    | (refine Stays.of_eq (by with_reducible assumption) ?_) | (simp only [stays_mk]) | split

theorem wqCommand_stays {z0 s : State} {i : Nat} {v : Word} (hz0 : Stays z0 s) : Stays z0 (wqCommand s i v) := by
  unfold wqCommand
  repeat' first
    | with_reducible assumption | exact Nat.le_refl _ | exact id | exact Eq.refl _ | intro _ | with_reducible apply Stays.ite | with_reducible apply Stays.ite_fst
    | with_reducible apply State.modWin_stays | with_reducible apply calmQueue_stays
    | (refine Stays.of_eq (by with_reducible assumption) ?_) | (simp only [stays_mk]) | split

theorem execWqCreate_stays {s t : State} {link : BitVec 2} {inst : BitVec 7} {value : Word} (hn : execWqCreate link inst value s = .next t) : Stays s t := by
  unfold execWqCreate at hn
  injection hn with hn
  subst hn
  have hz0 : Stays s s := Stays.refl s
  repeat' first
    | with_reducible assumption | exact Nat.le_refl _ | exact id | exact Eq.refl _ | intro _ | with_reducible apply Stays.ite | with_reducible apply Stays.ite_fst
    | with_reducible apply ctlWrite_stays | with_reducible apply wqCommand_stays
    | (refine Stays.of_eq (by with_reducible assumption) ?_) | (simp only [stays_mk]) | split

theorem cqCommand_stays {z0 s : State} {i : Nat} {v : Word} (hz0 : Stays z0 s) : Stays z0 (cqCommand s i v) := by
  unfold cqCommand
  repeat' first
    | with_reducible assumption | exact Nat.le_refl _ | exact id | exact Eq.refl _ | intro _ | with_reducible apply Stays.ite | with_reducible apply Stays.ite_fst
    | with_reducible apply State.modWin_stays
    | (refine Stays.of_eq (by with_reducible assumption) ?_) | (simp only [stays_mk]) | split

theorem execCqCreate_stays {s t : State} {link : BitVec 2} {inst : BitVec 7} {value : Word} (hn : execCqCreate link inst value s = .next t) : Stays s t := by
  unfold execCqCreate at hn
  injection hn with hn
  subst hn
  have hz0 : Stays s s := Stays.refl s
  repeat' first
    | with_reducible assumption | exact Nat.le_refl _ | exact id | exact Eq.refl _ | intro _ | with_reducible apply Stays.ite | with_reducible apply Stays.ite_fst
    | with_reducible apply ctlWrite_stays | with_reducible apply cqCommand_stays
    | (refine Stays.of_eq (by with_reducible assumption) ?_) | (simp only [stays_mk]) | split

end Sys2Proof.Machine
end

