-- ==== Sys2Proof/Laws/StaysInstructions.lean ====
section
/-! SUPPORT. The operations of Machine/Instructions.lean keep what `Stays` names. -/

namespace Sys2Proof.Machine

theorem runEntry_stays {z0 s : State} {q : Nat} {op : Nat} {f : State → WorkQueue → Started → State} (h_f : ∀ s x1 x2, Stays z0 s → Stays z0 (f s x1 x2)) (hz0 : Stays z0 s) : Stays z0 (runEntry s q op f) := by
  unfold runEntry
  repeat' first
    | with_reducible assumption | exact Nat.le_refl _ | exact id | exact Eq.refl _ | intro _ | with_reducible apply Stays.ite | with_reducible apply Stays.ite_fst
    | with_reducible apply settle_stays | with_reducible apply h_f
    | (refine Stays.of_eq (by with_reducible assumption) ?_) | (simp only [stays_mk]) | split

theorem markRan_stays {z0 s : State} {q : Nat} {seq : Nat} (hz0 : Stays z0 s) : Stays z0 (markRan s q seq) := by
  unfold markRan
  repeat' first
    | with_reducible assumption | exact Nat.le_refl _ | exact id | exact Eq.refl _ | intro _ | with_reducible apply Stays.ite | with_reducible apply Stays.ite_fst
    | with_reducible apply State.modStarted_stays
    | (refine Stays.of_eq (by with_reducible assumption) ?_) | (simp only [stays_mk]) | split

theorem runNop_stays {z0 s : State} {q : Nat} {v2 : WorkQueue} {x : Started} (hz0 : Stays z0 s) : Stays z0 (runNop s q v2 x) := by
  unfold runNop
  repeat' first
    | with_reducible assumption | exact Nat.le_refl _ | exact id | exact Eq.refl _ | intro _ | with_reducible apply Stays.ite | with_reducible apply Stays.ite_fst
    | with_reducible apply endEntry_stays
    | (refine Stays.of_eq (by with_reducible assumption) ?_) | (simp only [stays_mk]) | split

theorem execNop_stays {s t : State} {q : BitVec 19} (hn : execNop q s = .next t) : Stays s t := by
  unfold execNop at hn
  injection hn with hn
  subst hn
  have hz0 : Stays s s := Stays.refl s
  repeat' first
    | with_reducible assumption | exact Nat.le_refl _ | exact id | exact Eq.refl _ | intro _ | with_reducible apply Stays.ite | with_reducible apply Stays.ite_fst
    | with_reducible apply runEntry_stays | with_reducible apply runNop_stays
    | (refine Stays.of_eq (by with_reducible assumption) ?_) | (simp only [stays_mk]) | split

theorem runFence_stays {z0 s : State} {q : Nat} {v2 : WorkQueue} {x : Started} (hz0 : Stays z0 s) : Stays z0 (runFence s q v2 x) := by
  unfold runFence
  repeat' first
    | with_reducible assumption | exact Nat.le_refl _ | exact id | exact Eq.refl _ | intro _ | with_reducible apply Stays.ite | with_reducible apply Stays.ite_fst
    | with_reducible apply endEntry_stays
    | (refine Stays.of_eq (by with_reducible assumption) ?_) | (simp only [stays_mk]) | split

theorem execFence_stays {s t : State} {q : BitVec 19} (hn : execFence q s = .next t) : Stays s t := by
  unfold execFence at hn
  injection hn with hn
  subst hn
  have hz0 : Stays s s := Stays.refl s
  repeat' first
    | with_reducible assumption | exact Nat.le_refl _ | exact id | exact Eq.refl _ | intro _ | with_reducible apply Stays.ite | with_reducible apply Stays.ite_fst
    | with_reducible apply runEntry_stays | with_reducible apply runFence_stays
    | (refine Stays.of_eq (by with_reducible assumption) ?_) | (simp only [stays_mk]) | split

theorem runMsg_stays {z0 s : State} {q : Nat} {x : Started} {kind : MsgKind} (hz0 : Stays z0 s) : Stays z0 (runMsg s q x kind) := by
  unfold runMsg
  repeat' first
    | with_reducible assumption | exact Nat.le_refl _ | exact id | exact Eq.refl _ | intro _ | with_reducible apply Stays.ite | with_reducible apply Stays.ite_fst
    | with_reducible apply startOnQp_stays | with_reducible apply markRan_stays
    | (refine Stays.of_eq (by with_reducible assumption) ?_) | (simp only [stays_mk]) | split

theorem runWrite_stays {z0 s : State} {q : Nat} {v2 : WorkQueue} {x : Started} (hz0 : Stays z0 s) : Stays z0 (runWrite s q v2 x) := by
  unfold runWrite
  repeat' first
    | with_reducible assumption | exact Nat.le_refl _ | exact id | exact Eq.refl _ | intro _ | with_reducible apply Stays.ite | with_reducible apply Stays.ite_fst
    | with_reducible apply runMsg_stays
    | (refine Stays.of_eq (by with_reducible assumption) ?_) | (simp only [stays_mk]) | split

theorem execWrite_stays {s t : State} {q : BitVec 19} (hn : execWrite q s = .next t) : Stays s t := by
  unfold execWrite at hn
  injection hn with hn
  subst hn
  have hz0 : Stays s s := Stays.refl s
  repeat' first
    | with_reducible assumption | exact Nat.le_refl _ | exact id | exact Eq.refl _ | intro _ | with_reducible apply Stays.ite | with_reducible apply Stays.ite_fst
    | with_reducible apply runEntry_stays | with_reducible apply runWrite_stays
    | (refine Stays.of_eq (by with_reducible assumption) ?_) | (simp only [stays_mk]) | split

theorem runRead_stays {z0 s : State} {q : Nat} {v2 : WorkQueue} {x : Started} (hz0 : Stays z0 s) : Stays z0 (runRead s q v2 x) := by
  unfold runRead
  repeat' first
    | with_reducible assumption | exact Nat.le_refl _ | exact id | exact Eq.refl _ | intro _ | with_reducible apply Stays.ite | with_reducible apply Stays.ite_fst
    | with_reducible apply runMsg_stays
    | (refine Stays.of_eq (by with_reducible assumption) ?_) | (simp only [stays_mk]) | split

theorem execRead_stays {s t : State} {q : BitVec 19} (hn : execRead q s = .next t) : Stays s t := by
  unfold execRead at hn
  injection hn with hn
  subst hn
  have hz0 : Stays s s := Stays.refl s
  repeat' first
    | with_reducible assumption | exact Nat.le_refl _ | exact id | exact Eq.refl _ | intro _ | with_reducible apply Stays.ite | with_reducible apply Stays.ite_fst
    | with_reducible apply runEntry_stays | with_reducible apply runRead_stays
    | (refine Stays.of_eq (by with_reducible assumption) ?_) | (simp only [stays_mk]) | split

theorem runCopy_stays {z0 s : State} {q : Nat} {v2 : WorkQueue} {x : Started} (hz0 : Stays z0 s) : Stays z0 (runCopy s q v2 x) := by
  unfold runCopy
  repeat' first
    | with_reducible assumption | exact Nat.le_refl _ | exact id | exact Eq.refl _ | intro _ | with_reducible apply Stays.ite | with_reducible apply Stays.ite_fst
    | with_reducible apply markRan_stays
    | (refine Stays.of_eq (by with_reducible assumption) ?_) | (simp only [stays_mk]) | split

theorem execCopy_stays {s t : State} {q : BitVec 19} (hn : execCopy q s = .next t) : Stays s t := by
  unfold execCopy at hn
  injection hn with hn
  subst hn
  have hz0 : Stays s s := Stays.refl s
  repeat' first
    | with_reducible assumption | exact Nat.le_refl _ | exact id | exact Eq.refl _ | intro _ | with_reducible apply Stays.ite | with_reducible apply Stays.ite_fst
    | with_reducible apply runEntry_stays | with_reducible apply runCopy_stays
    | (refine Stays.of_eq (by with_reducible assumption) ?_) | (simp only [stays_mk]) | split

theorem finishCopy_stays {s0 s : State} {q seq : Nat} (hs0 : Stays s0 s) : Stays s0 (finishCopy s q seq) := by
  unfold finishCopy
  split
  · exact hs0
  · split
    · exact hs0
    · split
      · split
        · exact hs0
        · exact completeOne_stays (endEntry_stays (copyData_stays hs0))
      · exact hs0

theorem execCopyComplete_stays {s t : State} {q : BitVec 19} {seq : BitVec 32} (hn : execCopyComplete q seq s = .next t) : Stays s t := by
  unfold execCopyComplete at hn
  injection hn with hn
  subst hn
  have hz0 : Stays s s := Stays.refl s
  repeat' first
    | with_reducible assumption | exact Nat.le_refl _ | exact id | exact Eq.refl _ | intro _ | with_reducible apply Stays.ite | with_reducible apply Stays.ite_fst
    | with_reducible apply finishCopy_stays
    | (refine Stays.of_eq (by with_reducible assumption) ?_) | (simp only [stays_mk]) | split

theorem holdWait_stays {z0 s : State} {q : Nat} {x : Started} (hz0 : Stays z0 s) : Stays z0 (holdWait s q x) := by
  unfold holdWait
  repeat' first
    | with_reducible assumption | exact Nat.le_refl _ | exact id | exact Eq.refl _ | intro _ | with_reducible apply Stays.ite | with_reducible apply Stays.ite_fst
    | with_reducible apply waitAtHead_stays
    | (refine Stays.of_eq (by with_reducible assumption) ?_) | (simp only [stays_mk]) | split

theorem runSignal_stays {z0 s : State} {q : Nat} {v2 : WorkQueue} {x : Started} (hz0 : Stays z0 s) : Stays z0 (runSignal s q v2 x) := by
  unfold runSignal
  repeat' first
    | with_reducible assumption | exact Nat.le_refl _ | exact id | exact Eq.refl _ | intro _ | with_reducible apply Stays.ite | with_reducible apply Stays.ite_fst
    | with_reducible apply runMsg_stays | with_reducible apply haltStarted_stays | with_reducible apply addCounter_stays
    | with_reducible apply endEntry_stays
    | (refine Stays.of_eq (by with_reducible assumption) ?_) | (simp only [stays_mk]) | split

theorem execSignal_stays {s t : State} {q : BitVec 19} (hn : execSignal q s = .next t) : Stays s t := by
  unfold execSignal at hn
  injection hn with hn
  subst hn
  have hz0 : Stays s s := Stays.refl s
  repeat' first
    | with_reducible assumption | exact Nat.le_refl _ | exact id | exact Eq.refl _ | intro _ | with_reducible apply Stays.ite | with_reducible apply Stays.ite_fst
    | with_reducible apply runEntry_stays | with_reducible apply runSignal_stays
    | (refine Stays.of_eq (by with_reducible assumption) ?_) | (simp only [stays_mk]) | split

theorem runWaitCounter_stays {z0 s : State} {q : Nat} {v2 : WorkQueue} {x : Started} (hz0 : Stays z0 s) : Stays z0 (runWaitCounter s q v2 x) := by
  unfold runWaitCounter
  repeat' first
    | with_reducible assumption | exact Nat.le_refl _ | exact id | exact Eq.refl _ | intro _ | with_reducible apply Stays.ite | with_reducible apply Stays.ite_fst
    | with_reducible apply holdWait_stays | with_reducible apply runMsg_stays | with_reducible apply haltStarted_stays
    | with_reducible apply joinWait_stays | with_reducible apply markRan_stays
    | (refine Stays.of_eq (by with_reducible assumption) ?_) | (simp only [stays_mk]) | split

theorem execWaitCounter_stays {s t : State} {q : BitVec 19} (hn : execWaitCounter q s = .next t) : Stays s t := by
  unfold execWaitCounter at hn
  injection hn with hn
  subst hn
  have hz0 : Stays s s := Stays.refl s
  repeat' first
    | with_reducible assumption | exact Nat.le_refl _ | exact id | exact Eq.refl _ | intro _ | with_reducible apply Stays.ite | with_reducible apply Stays.ite_fst
    | with_reducible apply runEntry_stays | with_reducible apply runWaitCounter_stays
    | (refine Stays.of_eq (by with_reducible assumption) ?_) | (simp only [stays_mk]) | split

theorem runSemAdd_stays {z0 s : State} {q : Nat} {v2 : WorkQueue} {x : Started} (hz0 : Stays z0 s) : Stays z0 (runSemAdd s q v2 x) := by
  unfold runSemAdd
  repeat' first
    | with_reducible assumption | exact Nat.le_refl _ | exact id | exact Eq.refl _ | intro _ | with_reducible apply Stays.ite | with_reducible apply Stays.ite_fst
    | with_reducible apply runMsg_stays | with_reducible apply haltStarted_stays | with_reducible apply addSem_stays
    | with_reducible apply endEntry_stays
    | (refine Stays.of_eq (by with_reducible assumption) ?_) | (simp only [stays_mk]) | split

theorem execSemAdd_stays {s t : State} {q : BitVec 19} (hn : execSemAdd q s = .next t) : Stays s t := by
  unfold execSemAdd at hn
  injection hn with hn
  subst hn
  have hz0 : Stays s s := Stays.refl s
  repeat' first
    | with_reducible assumption | exact Nat.le_refl _ | exact id | exact Eq.refl _ | intro _ | with_reducible apply Stays.ite | with_reducible apply Stays.ite_fst
    | with_reducible apply runEntry_stays | with_reducible apply runSemAdd_stays
    | (refine Stays.of_eq (by with_reducible assumption) ?_) | (simp only [stays_mk]) | split

theorem runSemWait_stays {z0 s : State} {q : Nat} {v2 : WorkQueue} {x : Started} (hz0 : Stays z0 s) : Stays z0 (runSemWait s q v2 x) := by
  unfold runSemWait
  repeat' first
    | with_reducible assumption | exact Nat.le_refl _ | exact id | exact Eq.refl _ | intro _ | with_reducible apply Stays.ite | with_reducible apply Stays.ite_fst
    | with_reducible apply holdWait_stays | with_reducible apply runMsg_stays | with_reducible apply haltStarted_stays
    | with_reducible apply joinWait_stays | with_reducible apply markRan_stays
    | (refine Stays.of_eq (by with_reducible assumption) ?_) | (simp only [stays_mk]) | split

theorem execSemWait_stays {s t : State} {q : BitVec 19} (hn : execSemWait q s = .next t) : Stays s t := by
  unfold execSemWait at hn
  injection hn with hn
  subst hn
  have hz0 : Stays s s := Stays.refl s
  repeat' first
    | with_reducible assumption | exact Nat.le_refl _ | exact id | exact Eq.refl _ | intro _ | with_reducible apply Stays.ite | with_reducible apply Stays.ite_fst
    | with_reducible apply runEntry_stays | with_reducible apply runSemWait_stays
    | (refine Stays.of_eq (by with_reducible assumption) ?_) | (simp only [stays_mk]) | split

theorem runWaitQueue_stays {z0 s : State} {q : Nat} {v2 : WorkQueue} {x : Started} (hz0 : Stays z0 s) : Stays z0 (runWaitQueue s q v2 x) := by
  unfold runWaitQueue
  repeat' first
    | with_reducible assumption | exact Nat.le_refl _ | exact id | exact Eq.refl _ | intro _ | with_reducible apply Stays.ite | with_reducible apply Stays.ite_fst
    | with_reducible apply markRan_stays | with_reducible apply endEntry_stays | with_reducible apply holdWait_stays
    | (refine Stays.of_eq (by with_reducible assumption) ?_) | (simp only [stays_mk]) | split

theorem execWaitQueue_stays {s t : State} {q : BitVec 19} (hn : execWaitQueue q s = .next t) : Stays s t := by
  unfold execWaitQueue at hn
  injection hn with hn
  subst hn
  have hz0 : Stays s s := Stays.refl s
  repeat' first
    | with_reducible assumption | exact Nat.le_refl _ | exact id | exact Eq.refl _ | intro _ | with_reducible apply Stays.ite | with_reducible apply Stays.ite_fst
    | with_reducible apply runEntry_stays | with_reducible apply runWaitQueue_stays
    | (refine Stays.of_eq (by with_reducible assumption) ?_) | (simp only [stays_mk]) | split

theorem runTimeWait_stays {z0 s : State} {q : Nat} {v2 : WorkQueue} {x : Started} (hz0 : Stays z0 s) : Stays z0 (runTimeWait s q v2 x) := by
  unfold runTimeWait
  repeat' first
    | with_reducible assumption | exact Nat.le_refl _ | exact id | exact Eq.refl _ | intro _ | with_reducible apply Stays.ite | with_reducible apply Stays.ite_fst
    | with_reducible apply State.modStarted_stays | with_reducible apply endEntry_stays | with_reducible apply waitAtHead_stays
    | with_reducible apply beginLull_stays
    | (refine Stays.of_eq (by with_reducible assumption) ?_) | (simp only [stays_mk]) | split

theorem execTimeWait_stays {s t : State} {q : BitVec 19} (hn : execTimeWait q s = .next t) : Stays s t := by
  unfold execTimeWait at hn
  injection hn with hn
  subst hn
  have hz0 : Stays s s := Stays.refl s
  repeat' first
    | with_reducible assumption | exact Nat.le_refl _ | exact id | exact Eq.refl _ | intro _ | with_reducible apply Stays.ite | with_reducible apply Stays.ite_fst
    | with_reducible apply runEntry_stays | with_reducible apply runTimeWait_stays
    | (refine Stays.of_eq (by with_reducible assumption) ?_) | (simp only [stays_mk]) | split

theorem reachTimeWait_stays {z0 s : State} {q : Nat} (hz0 : Stays z0 s) : Stays z0 (reachTimeWait s q) := by
  unfold reachTimeWait
  repeat' first
    | with_reducible assumption | exact Nat.le_refl _ | exact id | exact Eq.refl _ | intro _ | with_reducible apply Stays.ite | with_reducible apply Stays.ite_fst
    | with_reducible apply State.arriveAt_stays | with_reducible apply endEntry_stays
    | (refine Stays.of_eq (by with_reducible assumption) ?_) | (simp only [stays_mk]) | split

theorem execTimeWaitReached_stays {s t : State} {q : BitVec 19} (hn : execTimeWaitReached q s = .next t) : Stays s t := by
  unfold execTimeWaitReached at hn
  injection hn with hn
  subst hn
  have hz0 : Stays s s := Stays.refl s
  repeat' first
    | with_reducible assumption | exact Nat.le_refl _ | exact id | exact Eq.refl _ | intro _ | with_reducible apply Stays.ite | with_reducible apply Stays.ite_fst
    | with_reducible apply reachTimeWait_stays
    | (refine Stays.of_eq (by with_reducible assumption) ?_) | (simp only [stays_mk]) | split

theorem runHostSignal_stays {z0 s : State} {q : Nat} {v2 : WorkQueue} {x : Started} (hz0 : Stays z0 s) : Stays z0 (runHostSignal s q v2 x) := by
  unfold runHostSignal
  repeat' first
    | with_reducible assumption | exact Nat.le_refl _ | exact id | exact Eq.refl _ | intro _ | with_reducible apply Stays.ite | with_reducible apply Stays.ite_fst
    | with_reducible apply fireVector_stays | with_reducible apply endEntry_stays | with_reducible apply xlatWrite_stays
    | (refine Stays.of_eq (by with_reducible assumption) ?_) | (simp only [stays_mk]) | split

theorem execHostSignal_stays {s t : State} {q : BitVec 19} (hn : execHostSignal q s = .next t) : Stays s t := by
  unfold execHostSignal at hn
  injection hn with hn
  subst hn
  have hz0 : Stays s s := Stays.refl s
  repeat' first
    | with_reducible assumption | exact Nat.le_refl _ | exact id | exact Eq.refl _ | intro _ | with_reducible apply Stays.ite | with_reducible apply Stays.ite_fst
    | with_reducible apply runEntry_stays | with_reducible apply runHostSignal_stays
    | (refine Stays.of_eq (by with_reducible assumption) ?_) | (simp only [stays_mk]) | split

theorem runCouchCopy_stays {z0 s : State} {q : Nat} {v2 : WorkQueue} {x : Started} (hz0 : Stays z0 s) : Stays z0 (runCouchCopy s q v2 x) := by
  unfold runCouchCopy
  repeat' first
    | with_reducible assumption | exact Nat.le_refl _ | exact id | exact Eq.refl _ | intro _ | with_reducible apply Stays.ite | with_reducible apply Stays.ite_fst
    | with_reducible apply couchOpen_stays | with_reducible apply markRan_stays
    | (refine Stays.of_eq (by with_reducible assumption) ?_) | (simp only [stays_mk]) | split

theorem execCouchCopy_stays {s t : State} {q : BitVec 19} (hn : execCouchCopy q s = .next t) : Stays s t := by
  unfold execCouchCopy at hn
  injection hn with hn
  subst hn
  have hz0 : Stays s s := Stays.refl s
  repeat' first
    | with_reducible assumption | exact Nat.le_refl _ | exact id | exact Eq.refl _ | intro _ | with_reducible apply Stays.ite | with_reducible apply Stays.ite_fst
    | with_reducible apply runEntry_stays | with_reducible apply runCouchCopy_stays
    | (refine Stays.of_eq (by with_reducible assumption) ?_) | (simp only [stays_mk]) | split

theorem runRawSend_stays {z0 s : State} {q : Nat} {w : WorkQueue} {x : Started} (hz0 : Stays z0 s) : Stays z0 (runRawSend s q w x) := by
  unfold runRawSend
  repeat' first
    | with_reducible assumption | exact Nat.le_refl _ | exact id | exact Eq.refl _ | intro _ | with_reducible apply Stays.ite | with_reducible apply Stays.ite_fst
    | with_reducible apply xlatRead_stays | with_reducible apply endEntry_stays | with_reducible apply queueRaw_stays
    | with_reducible apply markRan_stays
    | (refine Stays.of_eq (by with_reducible assumption) ?_) | (simp only [stays_mk]) | split

theorem execRawSend_stays {s t : State} {q : BitVec 19} (hn : execRawSend q s = .next t) : Stays s t := by
  unfold execRawSend at hn
  injection hn with hn
  subst hn
  have hz0 : Stays s s := Stays.refl s
  repeat' first
    | with_reducible assumption | exact Nat.le_refl _ | exact id | exact Eq.refl _ | intro _ | with_reducible apply Stays.ite | with_reducible apply Stays.ite_fst
    | with_reducible apply runEntry_stays | with_reducible apply runRawSend_stays
    | (refine Stays.of_eq (by with_reducible assumption) ?_) | (simp only [stays_mk]) | split

end Sys2Proof.Machine
end

