-- ==== Sys2Proof/Laws/StaysCollectives.lean ====
section
/-! SUPPORT. The operations of Machine/Collectives.lean keep what `Stays` names. -/

namespace Sys2Proof.Machine

theorem readInputs_stays {s0 s : State} {n : Nat} {d : Descriptor} {len : Nat} {xs : List Xlat} (hs0 : Stays s0 s) :
    Stays s0 (readInputs n d len xs s).1 := by
  induction xs generalizing s with
  | nil => exact hs0
  | cons x xs ih =>
    have h1 : Stays s0 (xlatRead s x 0 len).1 := xlatRead_stays hs0
    unfold readInputs
    generalize xlatRead s x 0 len = p at h1 ⊢
    obtain ⟨s1, a, b⟩ := p
    cases a with
    | failed st d => exact endStep_stays h1
    | done =>
      have h2 := ih h1
      dsimp only
      generalize readInputs n _ len xs s1 = q at h2 ⊢
      obtain ⟨s2, o⟩ := q
      cases o with
      | none => exact h2
      | some m => exact h2

theorem openRun_stays {z0 s : State} {n : Nat} {q : Nat} {x : Started} {d : Descriptor} {src : List Xlat} {dst : Option Xlat} (hz0 : Stays z0 s) : Stays z0 (openRun s n q x d src dst) := by
  unfold openRun
  repeat' first
    | with_reducible assumption | exact Nat.le_refl _ | exact id | exact Eq.refl _ | intro _ | with_reducible apply Stays.ite | with_reducible apply Stays.ite_fst
    | with_reducible apply State.modSlot_stays
    | (refine Stays.of_eq (by with_reducible assumption) ?_) | (simp only [stays_mk]) | split

theorem beginReduce_stays {z0 s : State} {n : Nat} {d : Descriptor} {r : Run} (hz0 : Stays z0 s) : Stays z0 (beginReduce s n d r) := by
  unfold beginReduce
  repeat' first
    | with_reducible assumption | exact Nat.le_refl _ | exact id | exact Eq.refl _ | intro _ | with_reducible apply Stays.ite | with_reducible apply Stays.ite_fst
    | with_reducible apply readInputs_stays | with_reducible apply State.modRunOf_stays | with_reducible apply chargePiece_stays
    | with_reducible apply countOperands_stays | with_reducible apply finishUnits_stays
    | (refine Stays.of_eq (by with_reducible assumption) ?_) | (simp only [stays_mk]) | split

theorem beginGather_stays {z0 s : State} {n : Nat} {d : Descriptor} {r : Run} (hz0 : Stays z0 s) : Stays z0 (beginGather s n d r) := by
  unfold beginGather
  repeat' first
    | with_reducible assumption | exact Nat.le_refl _ | exact id | exact Eq.refl _ | intro _ | with_reducible apply Stays.ite | with_reducible apply Stays.ite_fst
    | with_reducible apply readInputs_stays | with_reducible apply putFinals_stays | with_reducible apply chargePiece_stays
    | (refine Stays.of_eq (by with_reducible assumption) ?_) | (simp only [stays_mk]) | split

theorem runCollStep_stays {z0 s : State} {q : Nat} {v2 : WorkQueue} {x : Started} (hz0 : Stays z0 s) : Stays z0 (runCollStep s q v2 x) := by
  unfold runCollStep
  repeat' first
    | with_reducible assumption | exact Nat.le_refl _ | exact id | exact Eq.refl _ | intro _ | with_reducible apply Stays.ite | with_reducible apply Stays.ite_fst
    | with_reducible apply endEntry_stays | with_reducible apply openRun_stays | with_reducible apply markRan_stays
    | with_reducible apply forEach_stays | with_reducible apply rescan_stays | with_reducible apply pump_stays
    | with_reducible apply beginGather_stays | with_reducible apply beginReduce_stays
    | (refine Stays.of_eq (by with_reducible assumption) ?_) | (simp only [stays_mk]) | split

theorem execCollStep_stays {s t : State} {q : BitVec 19} (hn : execCollStep q s = .next t) : Stays s t := by
  unfold execCollStep at hn
  injection hn with hn
  subst hn
  have hz0 : Stays s s := Stays.refl s
  repeat' first
    | with_reducible assumption | exact Nat.le_refl _ | exact id | exact Eq.refl _ | intro _ | with_reducible apply Stays.ite | with_reducible apply Stays.ite_fst
    | with_reducible apply stepBoundary_stays | with_reducible apply runEntry_stays | with_reducible apply runCollStep_stays
    | (refine Stays.of_eq (by with_reducible assumption) ?_) | (simp only [stays_mk]) | split

theorem cspStale_stays {z0 s : State}  (hz0 : Stays z0 s) : Stays z0 (cspStale s) := by
  unfold cspStale
  repeat' first
    | with_reducible assumption | exact Nat.le_refl _ | exact id | exact Eq.refl _ | intro _ | with_reducible apply Stays.ite | with_reducible apply Stays.ite_fst
    | with_reducible apply State.modColl_stays | with_reducible apply staleDrop_stays
    | (refine Stays.of_eq (by with_reducible assumption) ?_) | (simp only [stays_mk]) | split

theorem cspGate_stays {z0 s : State} {arr : Arrival} {p : CspPacket} {typ : Byte} {run : State → Nat → Descriptor → State} (h_run : ∀ s x1 x2, Stays z0 s → Stays z0 (run s x1 x2)) (hz0 : Stays z0 s) : Stays z0 (cspGate s arr p typ run) := by
  unfold cspGate
  repeat' first
    | with_reducible assumption | exact Nat.le_refl _ | exact id | exact Eq.refl _ | intro _ | with_reducible apply Stays.ite | with_reducible apply Stays.ite_fst
    | with_reducible apply takeInbox_stays | with_reducible apply cspStale_stays | with_reducible apply settleSteps_stays
    | with_reducible apply flushAcks_stays | with_reducible apply countDrop_stays | with_reducible apply h_run
    | (refine Stays.of_eq (by with_reducible assumption) ?_) | (simp only [stays_mk]) | split

theorem landData_stays {z0 s : State} {n : Nat} {key : Nat} {d : Descriptor} {p : CspPacket} {have_ : StagedPiece} (hz0 : Stays z0 s) : Stays z0 (landData s n key d p have_) := by
  unfold landData
  repeat' first
    | with_reducible assumption | exact Nat.le_refl _ | exact id | exact Eq.refl _ | intro _ | with_reducible apply Stays.ite | with_reducible apply Stays.ite_fst
    | with_reducible apply hbmStore_stays | with_reducible apply State.modIn_stays
    | (refine Stays.of_eq (by with_reducible assumption) ?_) | (simp only [stays_mk]) | split

theorem stageData_stays {z0 s : State} {n : Nat} {key : Nat} {d : Descriptor} {p : CspPacket} (hz0 : Stays z0 s) : Stays z0 (stageData s n key d p) := by
  unfold stageData
  repeat' first
    | with_reducible assumption | exact Nat.le_refl _ | exact id | exact Eq.refl _ | intro _ | with_reducible apply Stays.ite | with_reducible apply Stays.ite_fst
    | with_reducible apply formatFault_stays | with_reducible apply landData_stays | with_reducible apply pieceArrived_stays
    | (refine Stays.of_eq (by with_reducible assumption) ?_) | (simp only [stays_mk]) | split

theorem takeCspData_stays {z0 s : State} {arr : Arrival} {p : CspPacket} {n : Nat} {d : Descriptor} (hz0 : Stays z0 s) : Stays z0 (takeCspData s arr p n d) := by
  unfold takeCspData
  repeat' first
    | with_reducible assumption | exact Nat.le_refl _ | exact id | exact Eq.refl _ | intro _ | with_reducible apply Stays.ite | with_reducible apply Stays.ite_fst
    | with_reducible apply cspStale_stays | with_reducible apply State.modIn_stays | with_reducible apply oweAck_stays
    | with_reducible apply stageData_stays
    | (refine Stays.of_eq (by with_reducible assumption) ?_) | (simp only [stays_mk]) | split

theorem execCspData_stays {s t : State} {arr : Arrival} {pkt : CspPacket} (hn : execCspData arr pkt s = .next t) : Stays s t := by
  unfold execCspData at hn
  injection hn with hn
  subst hn
  have hz0 : Stays s s := Stays.refl s
  repeat' first
    | with_reducible assumption | exact Nat.le_refl _ | exact id | exact Eq.refl _ | intro _ | with_reducible apply Stays.ite | with_reducible apply Stays.ite_fst
    | with_reducible apply cspGate_stays | with_reducible apply takeCspData_stays
    | (refine Stays.of_eq (by with_reducible assumption) ?_) | (simp only [stays_mk]) | split

theorem moveStream_stays {z0 s : State} {n : Nat} {key : Nat} {d : Descriptor} {m : Nat × Nat} (hz0 : Stays z0 s) : Stays z0 (moveStream s n key d m) := by
  unfold moveStream
  repeat' first
    | with_reducible assumption | exact Nat.le_refl _ | exact id | exact Eq.refl _ | intro _ | with_reducible apply Stays.ite | with_reducible apply Stays.ite_fst
    | with_reducible apply addCounter_stays | with_reducible apply State.modOut_stays
    | (refine Stays.of_eq (by with_reducible assumption) ?_) | (simp only [stays_mk]) | split

theorem rateAck_stays {z0 s : State} {n : Nat} {key : Nat} {p : CspPacket} (hz0 : Stays z0 s) : Stays z0 (rateAck s n key p) := by
  unfold rateAck
  repeat' first
    | with_reducible assumption | exact Nat.le_refl _ | exact id | exact Eq.refl _ | intro _ | with_reducible apply Stays.ite | with_reducible apply Stays.ite_fst
    | with_reducible apply State.modOut_stays
    | (refine Stays.of_eq (by with_reducible assumption) ?_) | (simp only [stays_mk]) | split

theorem takeCspAck_stays {z0 s : State} {p : CspPacket} {n : Nat} {d : Descriptor} (hz0 : Stays z0 s) : Stays z0 (takeCspAck s p n d) := by
  unfold takeCspAck
  repeat' first
    | with_reducible assumption | exact Nat.le_refl _ | exact id | exact Eq.refl _ | intro _ | with_reducible apply Stays.ite | with_reducible apply Stays.ite_fst
    | with_reducible apply cspStale_stays | with_reducible apply rateAck_stays | with_reducible apply moveStream_stays
    | (refine Stays.of_eq (by with_reducible assumption) ?_) | (simp only [stays_mk]) | split

theorem execCspAck_stays {s t : State} {arr : Arrival} {pkt : CspPacket} (hn : execCspAck arr pkt s = .next t) : Stays s t := by
  unfold execCspAck at hn
  injection hn with hn
  subst hn
  have hz0 : Stays s s := Stays.refl s
  repeat' first
    | with_reducible assumption | exact Nat.le_refl _ | exact id | exact Eq.refl _ | intro _ | with_reducible apply Stays.ite | with_reducible apply Stays.ite_fst
    | with_reducible apply cspGate_stays | with_reducible apply takeCspAck_stays
    | (refine Stays.of_eq (by with_reducible assumption) ?_) | (simp only [stays_mk]) | split

theorem sendData_stays {z0 s : State} {n : Nat} {key : Nat} {d : Descriptor} {p : CspPacket} (hz0 : Stays z0 s) : Stays z0 (sendData s n key d p) := by
  unfold sendData
  repeat' first
    | with_reducible assumption | exact Nat.le_refl _ | exact id | exact Eq.refl _ | intro _ | with_reducible apply Stays.ite | with_reducible apply Stays.ite_fst
    | with_reducible apply ethCsp_stays | with_reducible apply injectCircuit_stays | with_reducible apply inject_stays
    | (refine Stays.of_eq (by with_reducible assumption) ?_) | (simp only [stays_mk]) | split

theorem sendPiece_stays {z0 s : State} {n : Nat} {key : Nat} {d : Descriptor} {x : SentPiece} (hz0 : Stays z0 s) : Stays z0 (sendPiece s n key d x) := by
  unfold sendPiece
  repeat' first
    | with_reducible assumption | exact Nat.le_refl _ | exact id | exact Eq.refl _ | intro _ | with_reducible apply Stays.ite | with_reducible apply Stays.ite_fst
    | with_reducible apply foldl_stays | with_reducible apply chargePiece_stays | with_reducible apply chargeShared_stays
    | with_reducible apply State.modColl_stays | with_reducible apply State.modOut_stays | with_reducible apply forEach_stays
    | with_reducible apply sendData_stays | with_reducible apply foldl_fst_stays
    | (refine Stays.of_eq (by with_reducible assumption) ?_) | (simp only [stays_mk]) | split

theorem startRate_stays {z0 s : State} {n : Nat} {key : Nat} (hz0 : Stays z0 s) : Stays z0 (startRate s n key) := by
  unfold startRate
  repeat' first
    | with_reducible assumption | exact Nat.le_refl _ | exact id | exact Eq.refl _ | intro _ | with_reducible apply Stays.ite | with_reducible apply Stays.ite_fst
    | with_reducible apply State.modOut_stays
    | (refine Stays.of_eq (by with_reducible assumption) ?_) | (simp only [stays_mk]) | split

theorem pieceSend_stays {z0 s : State} {n : Nat} {st : Nat} (hz0 : Stays z0 s) : Stays z0 (pieceSend s n st) := by
  unfold pieceSend
  repeat' first
    | with_reducible assumption | exact Nat.le_refl _ | exact id | exact Eq.refl _ | intro _ | with_reducible apply Stays.ite | with_reducible apply Stays.ite_fst
    | with_reducible apply startRate_stays | with_reducible apply State.arriveAt_stays | with_reducible apply flushAcks_stays
    | with_reducible apply sendPiece_stays
    | (refine Stays.of_eq (by with_reducible assumption) ?_) | (simp only [stays_mk]) | split

theorem execPieceSend_stays {s t : State} {slot : BitVec 6} {st : BitVec 3} (hn : execPieceSend slot st s = .next t) : Stays s t := by
  unfold execPieceSend at hn
  injection hn with hn
  subst hn
  have hz0 : Stays s s := Stays.refl s
  repeat' first
    | with_reducible assumption | exact Nat.le_refl _ | exact id | exact Eq.refl _ | intro _ | with_reducible apply Stays.ite | with_reducible apply Stays.ite_fst
    | with_reducible apply pieceSend_stays
    | (refine Stays.of_eq (by with_reducible assumption) ?_) | (simp only [stays_mk]) | split

theorem exhaustPiece_stays {z0 s : State} {n : Nat} {key : Nat} {d : Descriptor} (hz0 : Stays z0 s) : Stays z0 (exhaustPiece s n key d) := by
  unfold exhaustPiece
  repeat' first
    | with_reducible assumption | exact Nat.le_refl _ | exact id | exact Eq.refl _ | intro _ | with_reducible apply Stays.ite | with_reducible apply Stays.ite_fst
    | with_reducible apply endStep_stays | with_reducible apply State.modOut_stays
    | (refine Stays.of_eq (by with_reducible assumption) ?_) | (simp only [stays_mk]) | split

theorem pieceResend_stays {z0 s : State} {n : Nat} {st : Nat} (hz0 : Stays z0 s) : Stays z0 (pieceResend s n st) := by
  unfold pieceResend
  repeat' first
    | with_reducible assumption | exact Nat.le_refl _ | exact id | exact Eq.refl _ | intro _ | with_reducible apply Stays.ite | with_reducible apply Stays.ite_fst
    | with_reducible apply State.arriveAt_stays | with_reducible apply forEach_stays | with_reducible apply exhaustPiece_stays
    | with_reducible apply sendPiece_stays
    | (refine Stays.of_eq (by with_reducible assumption) ?_) | (simp only [stays_mk]) | split

theorem execPieceResendTimer_stays {s t : State} {slot : BitVec 6} {st : BitVec 3} (hn : execPieceResendTimer slot st s = .next t) : Stays s t := by
  unfold execPieceResendTimer at hn
  injection hn with hn
  subst hn
  have hz0 : Stays s s := Stays.refl s
  repeat' first
    | with_reducible assumption | exact Nat.le_refl _ | exact id | exact Eq.refl _ | intro _ | with_reducible apply Stays.ite | with_reducible apply Stays.ite_fst
    | with_reducible apply settleSteps_stays | with_reducible apply pieceResend_stays
    | (refine Stays.of_eq (by with_reducible assumption) ?_) | (simp only [stays_mk]) | split

theorem consumePiece_stays {z0 s : State} {n : Nat} {key : Nat} {d : Descriptor} {x : StagedPiece} {us : List (Transfer × Nat × List Byte)} {left : List Byte} (hz0 : Stays z0 s) : Stays z0 (consumePiece s n key d x us left) := by
  unfold consumePiece
  repeat' first
    | with_reducible assumption | exact Nat.le_refl _ | exact id | exact Eq.refl _ | intro _ | with_reducible apply Stays.ite | with_reducible apply Stays.ite_fst
    | with_reducible apply countOperands_stays | with_reducible apply chargePiece_stays | with_reducible apply State.modIn_stays
    | with_reducible apply State.modRunOf_stays | with_reducible apply foldl_stays | with_reducible apply putFinals_stays
    | with_reducible apply finishUnits_stays | with_reducible apply pump_stays | with_reducible apply oweAck_stays
    | with_reducible apply foldl_fst_stays
    | (refine Stays.of_eq (by with_reducible assumption) ?_) | (simp only [stays_mk]) | split

theorem tryConsume_stays {s0 s t : State} {n key : Nat} {d : Descriptor} {r : Run} (hs0 : Stays s0 s)
    (h : tryConsume s n key d r = some t) : Stays s0 t := by
  unfold tryConsume at h
  dsimp only at h
  split at h
  · cases h
  · split at h
    · cases h
    · split at h
      · injection h with h
        exact h ▸ formatFault_stays hs0
      · split at h
        · injection h with h
          subst h
          split
          · next e => exact endStep_stays (Stays.of_eq e (hbmRead_stays hs0))
          · next e => exact consumePiece_stays (Stays.of_eq e (hbmRead_stays hs0))
        · cases h

theorem pieceConsume_stays {s0 s : State} {n st : Nat} (hs0 : Stays s0 s) : Stays s0 (pieceConsume s n st) := by
  unfold pieceConsume
  cases (s.slot n).desc with
  | none => exact hs0
  | some d =>
    cases (s.slot n).run with
    | none => exact hs0
    | some r =>
      dsimp only
      generalize (!s.inService || missedLike s || !mayCharge s (bucketOf s 2 n)
        || (match r.dst with | some x => xlatHeld s x && !xlatLost s x | none => false)) = c
      cases c with
      | true => exact hs0
      | false =>
        cases h : [2 * st, 2 * st + 1].findSome? (fun key => tryConsume s n key d r) with
        | none => simp only [h]; exact hs0
        | some w =>
          simp only [h]
          obtain ⟨k, _, hk⟩ := List.exists_of_findSome?_eq_some h
          exact flushAcks_stays (tryConsume_stays hs0 hk)

theorem execPieceConsume_stays {s t : State} {slot : BitVec 6} {st : BitVec 3} (hn : execPieceConsume slot st s = .next t) : Stays s t := by
  unfold execPieceConsume at hn
  injection hn with hn
  subst hn
  have hz0 : Stays s s := Stays.refl s
  repeat' first
    | with_reducible assumption | exact Nat.le_refl _ | exact id | exact Eq.refl _ | intro _ | with_reducible apply Stays.ite | with_reducible apply Stays.ite_fst
    | with_reducible apply settleSteps_stays | with_reducible apply pieceConsume_stays
    | (refine Stays.of_eq (by with_reducible assumption) ?_) | (simp only [stays_mk]) | split

theorem stepLimit_stays {z0 s : State} {n : Nat} (hz0 : Stays z0 s) : Stays z0 (stepLimit s n) := by
  unfold stepLimit
  repeat' first
    | with_reducible assumption | exact Nat.le_refl _ | exact id | exact Eq.refl _ | intro _ | with_reducible apply Stays.ite | with_reducible apply Stays.ite_fst
    | with_reducible apply endStep_stays | with_reducible apply State.arriveAt_stays
    | (refine Stays.of_eq (by with_reducible assumption) ?_) | (simp only [stays_mk]) | split

theorem execStepLimitExpiry_stays {s t : State} {slot : BitVec 6} (hn : execStepLimitExpiry slot s = .next t) : Stays s t := by
  unfold execStepLimitExpiry at hn
  injection hn with hn
  subst hn
  have hz0 : Stays s s := Stays.refl s
  repeat' first
    | with_reducible assumption | exact Nat.le_refl _ | exact id | exact Eq.refl _ | intro _ | with_reducible apply Stays.ite | with_reducible apply Stays.ite_fst
    | with_reducible apply settleSteps_stays | with_reducible apply stepLimit_stays
    | (refine Stays.of_eq (by with_reducible assumption) ?_) | (simp only [stays_mk]) | split

theorem completeStep_stays {z0 s : State} {n : Nat} (hz0 : Stays z0 s) : Stays z0 (completeStep s n) := by
  unfold completeStep
  repeat' first
    | with_reducible assumption | exact Nat.le_refl _ | exact id | exact Eq.refl _ | intro _ | with_reducible apply Stays.ite | with_reducible apply Stays.ite_fst
    | with_reducible apply State.modSlot_stays | with_reducible apply settleSlot_stays | with_reducible apply endEntry_stays
    | (refine Stays.of_eq (by with_reducible assumption) ?_) | (simp only [stays_mk]) | split

theorem execCollStepComplete_stays {s t : State} {slot : BitVec 6} (hn : execCollStepComplete slot s = .next t) : Stays s t := by
  unfold execCollStepComplete at hn
  injection hn with hn
  subst hn
  have hz0 : Stays s s := Stays.refl s
  repeat' first
    | with_reducible assumption | exact Nat.le_refl _ | exact id | exact Eq.refl _ | intro _ | with_reducible apply Stays.ite | with_reducible apply Stays.ite_fst
    | with_reducible apply settleSteps_stays | with_reducible apply flushAcks_stays | with_reducible apply completeStep_stays
    | (refine Stays.of_eq (by with_reducible assumption) ?_) | (simp only [stays_mk]) | split

theorem rateFlow_stays {s0 s : State} {r : FlowRef} (hs0 : Stays s0 s) : Stays s0 (rateFlow s r) := by
  unfold rateFlow
  cases r with
  | qp n =>
    dsimp only
    split
    · exact hs0
    · exact State.modQp_stays (State.arriveAt_stays hs0)
  | stream a b =>
    dsimp only
    split
    · exact hs0
    · exact forEach_stays hs0 (fun _ _ h => State.modOut_stays (State.arriveAt_stays h))

theorem execRatePeriod_stays {s t : State} {flow : FlowRef} (hn : execRatePeriod flow s = .next t) : Stays s t := by
  unfold execRatePeriod at hn
  injection hn with hn
  subst hn
  have hz0 : Stays s s := Stays.refl s
  repeat' first
    | with_reducible assumption | exact Nat.le_refl _ | exact id | exact Eq.refl _ | intro _ | with_reducible apply Stays.ite | with_reducible apply Stays.ite_fst
    | with_reducible apply rateFlow_stays
    | (refine Stays.of_eq (by with_reducible assumption) ?_) | (simp only [stays_mk]) | split

end Sys2Proof.Machine
end

