-- ==== Sys2Proof/Laws/StaysPlanOps.lean ====
section
/-! SUPPORT. The operations of Machine/PlanOps.lean keep what `Stays` names. -/

namespace Sys2Proof.Machine

theorem couchRecord_stays {z0 s : State} {e : CouchEnt} (hz0 : Stays z0 s) : Stays z0 (couchRecord s e) := by
  unfold couchRecord
  repeat' first
    | with_reducible assumption | exact Nat.le_refl _ | exact id | exact Eq.refl _ | intro _ | with_reducible apply Stays.ite | with_reducible apply Stays.ite_fst
    | (refine Stays.of_eq (by with_reducible assumption) ?_) | (simp only [stays_mk]) | split

theorem startRestores_stays {z0 s : State} {p : Plan} (hz0 : Stays z0 s) : Stays z0 (startRestores s p) := by
  unfold startRestores
  repeat' first
    | with_reducible assumption | exact Nat.le_refl _ | exact id | exact Eq.refl _ | intro _ | with_reducible apply Stays.ite | with_reducible apply Stays.ite_fst
    | with_reducible apply State.modFlt_stays | with_reducible apply driveRestores_stays | with_reducible apply forEach_stays
    | with_reducible apply openCouchQp_stays
    | (refine Stays.of_eq (by with_reducible assumption) ?_) | (simp only [stays_mk]) | split

theorem planLoaded_stays {z0 s : State} {p : Plan} (hz0 : Stays z0 s) : Stays z0 (planLoaded s p) := by
  unfold planLoaded
  repeat' first
    | with_reducible assumption | exact Nat.le_refl _ | exact id | exact Eq.refl _ | intro _ | with_reducible apply Stays.ite | with_reducible apply Stays.ite_fst
    | with_reducible apply State.modPlans_stays | with_reducible apply forEach_stays | with_reducible apply makeResident_stays
    | with_reducible apply State.modBank_stays | with_reducible apply startRestores_stays | with_reducible apply couchRecord_stays
    | (refine Stays.of_eq (by with_reducible assumption) ?_) | (simp only [stays_mk]) | split

theorem clearPlanBank_stays {z0 s : State}  (hz0 : Stays z0 s) : Stays z0 (clearPlanBank s) := by
  unfold clearPlanBank
  repeat' first
    | with_reducible assumption | exact Nat.le_refl _ | exact id | exact Eq.refl _ | intro _ | with_reducible apply Stays.ite | with_reducible apply Stays.ite_fst
    | with_reducible apply forEach_stays | with_reducible apply State.modBank_stays
    | (refine Stays.of_eq (by with_reducible assumption) ?_) | (simp only [stays_mk]) | split

theorem dropCouchQp_stays {z0 s : State} {e : CouchEnt} (hz0 : Stays z0 s) : Stays z0 (dropCouchQp s e) := by
  unfold dropCouchQp
  repeat' first
    | with_reducible assumption | exact Nat.le_refl _ | exact id | exact Eq.refl _ | intro _ | with_reducible apply Stays.ite | with_reducible apply Stays.ite_fst
    | with_reducible apply closeQp_stays
    | (refine Stays.of_eq (by with_reducible assumption) ?_) | (simp only [stays_mk]) | split

theorem dropNext_stays {z0 s : State}  (hz0 : Stays z0 s) : Stays z0 (dropNext s) := by
  unfold dropNext
  repeat' first
    | with_reducible assumption | exact Nat.le_refl _ | exact id | exact Eq.refl _ | intro _ | with_reducible apply Stays.ite | with_reducible apply Stays.ite_fst
    | with_reducible apply clearPlanBank_stays | with_reducible apply State.modPlans_stays | with_reducible apply State.modFlt_stays
    | with_reducible apply forEach_stays | with_reducible apply dropCouchQp_stays
    | (refine Stays.of_eq (by with_reducible assumption) ?_) | (simp only [stays_mk]) | split

theorem setResult_stays {z0 s : State} {f : Option Fail} (hz0 : Stays z0 s) : Stays z0 (setResult s f) := by
  unfold setResult
  repeat' first
    | with_reducible assumption | exact Nat.le_refl _ | exact id | exact Eq.refl _ | intro _ | with_reducible apply Stays.ite | with_reducible apply Stays.ite_fst
    | with_reducible apply State.modPlans_stays
    | (refine Stays.of_eq (by with_reducible assumption) ?_) | (simp only [stays_mk]) | split

theorem answerResult_stays {z0 s : State} {d : Door} {f : Option Fail} (hz0 : Stays z0 s) : Stays z0 (answerResult s d f) := by
  unfold answerResult
  repeat' first
    | with_reducible assumption | exact Nat.le_refl _ | exact id | exact Eq.refl _ | intro _ | with_reducible apply Stays.ite | with_reducible apply Stays.ite_fst
    | with_reducible apply setResult_stays | with_reducible apply answer_stays
    | (refine Stays.of_eq (by with_reducible assumption) ?_) | (simp only [stays_mk]) | split

theorem clearSeg_stays {z0 s : State} {i : Nat} {n : Nat} (hz0 : Stays z0 s) : Stays z0 (clearSeg s i n) := by
  unfold clearSeg
  repeat' first
    | with_reducible assumption | exact Nat.le_refl _ | exact id | exact Eq.refl _ | intro _ | with_reducible apply Stays.ite | with_reducible apply Stays.ite_fst
    | with_reducible apply State.modSeg_stays
    | (refine Stays.of_eq (by with_reducible assumption) ?_) | (simp only [stays_mk]) | split

theorem releaseGranule_stays {z0 s : State} {g : Nat} (hz0 : Stays z0 s) : Stays z0 (releaseGranule s g) := by
  unfold releaseGranule
  repeat' first
    | with_reducible assumption | exact Nat.le_refl _ | exact id | exact Eq.refl _ | intro _ | with_reducible apply Stays.ite | with_reducible apply Stays.ite_fst
    | with_reducible apply poolGranule_stays | with_reducible apply endGranWaits_stays
    | (refine Stays.of_eq (by with_reducible assumption) ?_) | (simp only [stays_mk]) | split

theorem pinsAtFront_stays {z0 s : State} {claims : List Claim} (hz0 : Stays z0 s) : Stays z0 (pinsAtFront s claims) := by
  unfold pinsAtFront
  repeat' first
    | with_reducible assumption | exact Nat.le_refl _ | exact id | exact Eq.refl _ | intro _ | with_reducible apply Stays.ite | with_reducible apply Stays.ite_fst
    | with_reducible apply foldl_stays | with_reducible apply foldl_fst_stays
    | (refine Stays.of_eq (by with_reducible assumption) ?_) | (simp only [stays_mk]) | split

theorem releaseBall_stays {z0 s : State} {n : Nat} (hz0 : Stays z0 s) : Stays z0 (releaseBall s n) := by
  unfold releaseBall
  repeat' first
    | with_reducible assumption | exact Nat.le_refl _ | exact id | exact Eq.refl _ | intro _ | with_reducible apply Stays.ite | with_reducible apply Stays.ite_fst
    | (refine Stays.of_eq (by with_reducible assumption) ?_) | (simp only [stays_mk]) | split

theorem releaseClaim_stays {z0 s : State} {c : Claim} (hz0 : Stays z0 s) : Stays z0 (releaseClaim s c) := by
  unfold releaseClaim
  repeat' first
    | with_reducible assumption | exact Nat.le_refl _ | exact id | exact Eq.refl _ | intro _ | with_reducible apply Stays.ite | with_reducible apply Stays.ite_fst
    | with_reducible apply forEach_stays | with_reducible apply releaseGranule_stays | with_reducible apply clearSeg_stays
    | with_reducible apply releaseBall_stays
    | (refine Stays.of_eq (by with_reducible assumption) ?_) | (simp only [stays_mk]) | split

theorem flushOldStep_stays {z0 s : State} {n : Nat} (hz0 : Stays z0 s) : Stays z0 (flushOldStep s n) := by
  unfold flushOldStep
  repeat' first
    | with_reducible assumption | exact Nat.le_refl _ | exact id | exact Eq.refl _ | intro _ | with_reducible apply Stays.ite | with_reducible apply Stays.ite_fst
    | with_reducible apply endStep_stays
    | (refine Stays.of_eq (by with_reducible assumption) ?_) | (simp only [stays_mk]) | split

theorem markOldStep_stays {z0 s : State} {n : Nat} (hz0 : Stays z0 s) : Stays z0 (markOldStep s n) := by
  unfold markOldStep
  repeat' first
    | with_reducible assumption | exact Nat.le_refl _ | exact id | exact Eq.refl _ | intro _ | with_reducible apply Stays.ite | with_reducible apply Stays.ite_fst
    | with_reducible apply State.modSlot_stays
    | (refine Stays.of_eq (by with_reducible assumption) ?_) | (simp only [stays_mk]) | split

theorem flushOldRegion_stays {z0 s : State} {r : Nat} (hz0 : Stays z0 s) : Stays z0 (flushOldRegion s r) := by
  unfold flushOldRegion
  repeat' first
    | with_reducible assumption | exact Nat.le_refl _ | exact id | exact Eq.refl _ | intro _ | with_reducible apply Stays.ite | with_reducible apply Stays.ite_fst
    | with_reducible apply couchFail_stays
    | (refine Stays.of_eq (by with_reducible assumption) ?_) | (simp only [stays_mk]) | split

theorem releaseOld_stays {z0 s : State}  (hz0 : Stays z0 s) : Stays z0 (releaseOld s) := by
  unfold releaseOld
  repeat' first
    | with_reducible assumption | exact Nat.le_refl _ | exact id | exact Eq.refl _ | intro _ | with_reducible apply Stays.ite | with_reducible apply Stays.ite_fst
    | with_reducible apply forEach_stays | with_reducible apply countGranules_stays | with_reducible apply flushOldStep_stays
    | with_reducible apply flushOldRegion_stays | with_reducible apply State.modPlans_stays | with_reducible apply releaseClaim_stays
    | with_reducible apply dropCouchQp_stays
    | (refine Stays.of_eq (by with_reducible assumption) ?_) | (simp only [stays_mk]) | split

theorem slotAtFront_stays {z0 s : State} {claims : List Claim} {p : Plan} {n : Nat} (hz0 : Stays z0 s) : Stays z0 (slotAtFront claims p s n) := by
  unfold slotAtFront
  repeat' first
    | with_reducible assumption | exact Nat.le_refl _ | exact id | exact Eq.refl _ | intro _ | with_reducible apply Stays.ite | with_reducible apply Stays.ite_fst
    | with_reducible apply State.modSlot_stays | with_reducible apply itemOnSlot_stays | with_reducible apply markOldStep_stays
    | (refine Stays.of_eq (by with_reducible assumption) ?_) | (simp only [stays_mk]) | split

theorem regionAtFront_stays {z0 s : State} {r : Nat} (hz0 : Stays z0 s) : Stays z0 (regionAtFront s r) := by
  unfold regionAtFront
  repeat' first
    | with_reducible assumption | exact Nat.le_refl _ | exact id | exact Eq.refl _ | intro _ | with_reducible apply Stays.ite | with_reducible apply Stays.ite_fst
    | with_reducible apply State.modCouch_stays | with_reducible apply flushOldRegion_stays
    | (refine Stays.of_eq (by with_reducible assumption) ?_) | (simp only [stays_mk]) | split

theorem claimAtFront_stays {z0 s : State} {c : Claim} (hz0 : Stays z0 s) : Stays z0 (claimAtFront s c) := by
  unfold claimAtFront
  repeat' first
    | with_reducible assumption | exact Nat.le_refl _ | exact id | exact Eq.refl _ | intro _ | with_reducible apply Stays.ite | with_reducible apply Stays.ite_fst
    | with_reducible apply forEach_stays | with_reducible apply initGranule_stays
    | (refine Stays.of_eq (by with_reducible assumption) ?_) | (simp only [stays_mk]) | split

theorem bankAtFront_stays {z0 s : State} {empty : Bool} (hz0 : Stays z0 s) : Stays z0 (bankAtFront s empty) := by
  unfold bankAtFront
  repeat' first
    | with_reducible assumption | exact Nat.le_refl _ | exact id | exact Eq.refl _ | intro _ | with_reducible apply Stays.ite | with_reducible apply Stays.ite_fst
    | with_reducible apply moveInjection_stays | with_reducible apply forEach_stays | with_reducible apply State.modBank_stays
    | with_reducible apply inject_stays
    | (refine Stays.of_eq (by with_reducible assumption) ?_) | (simp only [stays_mk]) | split

theorem altsAtFront_stays {z0 s : State} {p : Plan} (hz0 : Stays z0 s) : Stays z0 (altsAtFront s p) := by
  unfold altsAtFront
  repeat' first
    | with_reducible assumption | exact Nat.le_refl _ | exact id | exact Eq.refl _ | intro _ | with_reducible apply Stays.ite | with_reducible apply Stays.ite_fst
    | with_reducible apply State.modFlt_stays
    | (refine Stays.of_eq (by with_reducible assumption) ?_) | (simp only [stays_mk]) | split

theorem unbindRecorded_stays {z0 s : State}  (hz0 : Stays z0 s) : Stays z0 (unbindRecorded s) := by
  unfold unbindRecorded
  repeat' first
    | with_reducible assumption | exact Nat.le_refl _ | exact id | exact Eq.refl _ | intro _ | with_reducible apply Stays.ite | with_reducible apply Stays.ite_fst
    | with_reducible apply forEach_stays | with_reducible apply unbindCircuit_stays
    | (refine Stays.of_eq (by with_reducible assumption) ?_) | (simp only [stays_mk]) | split

theorem switchSlots_stays {z0 s : State} {p : Plan} (hz0 : Stays z0 s) : Stays z0 (switchSlots s p) := by
  unfold switchSlots
  repeat' first
    | with_reducible assumption | exact Nat.le_refl _ | exact id | exact Eq.refl _ | intro _ | with_reducible apply Stays.ite | with_reducible apply Stays.ite_fst
    | with_reducible apply State.modPlans_stays
    | (refine Stays.of_eq (by with_reducible assumption) ?_) | (simp only [stays_mk]) | split

theorem switchRest_stays {z0 s : State} {p : Plan} (hz0 : Stays z0 s) : Stays z0 (switchRest s p) := by
  unfold switchRest
  repeat' first
    | with_reducible assumption | exact Nat.le_refl _ | exact id | exact Eq.refl _ | intro _ | with_reducible apply Stays.ite | with_reducible apply Stays.ite_fst
    | with_reducible apply bankAtFront_stays | with_reducible apply pinsAtFront_stays | with_reducible apply forEach_stays
    | with_reducible apply claimAtFront_stays | with_reducible apply slotAtFront_stays | with_reducible apply couchRecord_stays
    | with_reducible apply regionAtFront_stays | with_reducible apply openCouchQp_stays | with_reducible apply unbindRecorded_stays
    | with_reducible apply altsAtFront_stays | with_reducible apply startBuckets_stays | with_reducible apply linkTriggered_stays
    | with_reducible apply retryHeads_stays | with_reducible apply settleSteps_stays | with_reducible apply applyAllDue_stays
    | (refine Stays.of_eq (by with_reducible assumption) ?_) | (simp only [stays_mk]) | split

theorem switchPlan_stays {z0 s : State}  (hz0 : Stays z0 s) : Stays z0 (switchPlan s) := by
  unfold switchPlan
  repeat' first
    | with_reducible assumption | exact Nat.le_refl _ | exact id | exact Eq.refl _ | intro _ | with_reducible apply Stays.ite | with_reducible apply Stays.ite_fst
    | with_reducible apply switchRest_stays | with_reducible apply switchSlots_stays | with_reducible apply countGranules_stays
    | with_reducible apply releaseOld_stays
    | (refine Stays.of_eq (by with_reducible assumption) ?_) | (simp only [stays_mk]) | split

theorem missFront_stays {z0 s : State}  (hz0 : Stays z0 s) : Stays z0 (missFront s) := by
  unfold missFront
  repeat' first
    | with_reducible assumption | exact Nat.le_refl _ | exact id | exact Eq.refl _ | intro _ | with_reducible apply Stays.ite | with_reducible apply Stays.ite_fst
    | with_reducible apply noteCauses_stays | with_reducible apply raiseFault_stays | with_reducible apply State.modPlans_stays
    | (refine Stays.of_eq (by with_reducible assumption) ?_) | (simp only [stays_mk]) | split

theorem resumePlan_stays {z0 s : State}  (hz0 : Stays z0 s) : Stays z0 (resumePlan s) := by
  unfold resumePlan
  repeat' first
    | with_reducible assumption | exact Nat.le_refl _ | exact id | exact Eq.refl _ | intro _ | with_reducible apply Stays.ite | with_reducible apply Stays.ite_fst
    | with_reducible apply State.modPlans_stays | with_reducible apply settleSteps_stays | with_reducible apply applyAllDue_stays
    | with_reducible apply forEach_stays | with_reducible apply openCouchQp_stays
    | (refine Stays.of_eq (by with_reducible assumption) ?_) | (simp only [stays_mk]) | split

theorem droppedFault_stays {z0 s : State} {p : Plan} (hz0 : Stays z0 s) : Stays z0 (droppedFault s p) := by
  unfold droppedFault
  repeat' first
    | with_reducible assumption | exact Nat.le_refl _ | exact id | exact Eq.refl _ | intro _ | with_reducible apply Stays.ite | with_reducible apply Stays.ite_fst
    | with_reducible apply raiseFault_stays
    | (refine Stays.of_eq (by with_reducible assumption) ?_) | (simp only [stays_mk]) | split

theorem recheckFail_stays {z0 s : State} {p : Plan} {b : Bool} {other : List Claim} (hz0 : Stays z0 s) : Stays z0 (recheckFail s p b other).1 := by
  unfold recheckFail
  repeat' first
    | with_reducible assumption | exact Nat.le_refl _ | exact id | exact Eq.refl _ | intro _ | with_reducible apply Stays.ite | with_reducible apply Stays.ite_fst
    | with_reducible apply readImage_stays
    | (refine Stays.of_eq (by with_reducible assumption) ?_) | (simp only [stays_mk]) | split

theorem stillGood_stays {z0 s : State} {p : Plan} {b : Bool} {other : List Claim} (hz0 : Stays z0 s) : Stays z0 (stillGood s p b other).1 := by
  unfold stillGood
  repeat' first
    | with_reducible assumption | exact Nat.le_refl _ | exact id | exact Eq.refl _ | intro _ | with_reducible apply Stays.ite | with_reducible apply Stays.ite_fst
    | with_reducible apply recheckFail_stays | with_reducible apply State.modPlans_stays
    | (refine Stays.of_eq (by with_reducible assumption) ?_) | (simp only [stays_mk]) | split

theorem abandonLoad_stays {z0 s : State}  (hz0 : Stays z0 s) : Stays z0 (abandonLoad s) := by
  unfold abandonLoad
  repeat' first
    | with_reducible assumption | exact Nat.le_refl _ | exact id | exact Eq.refl _ | intro _ | with_reducible apply Stays.ite | with_reducible apply Stays.ite_fst
    | with_reducible apply dropNext_stays | with_reducible apply State.modPlans_stays
    | (refine Stays.of_eq (by with_reducible assumption) ?_) | (simp only [stays_mk]) | split

theorem recheckNext_stays {z0 s : State} {keep : Bool} (hz0 : Stays z0 s) : Stays z0 (recheckNext s keep) := by
  unfold recheckNext
  repeat' first
    | with_reducible assumption | exact Nat.le_refl _ | exact id | exact Eq.refl _ | intro _ | with_reducible apply Stays.ite | with_reducible apply Stays.ite_fst
    | with_reducible apply State.modPlans_stays | with_reducible apply droppedFault_stays | with_reducible apply dropNext_stays
    | (refine Stays.of_eq (by with_reducible assumption) ?_) | (simp only [stays_mk]) | split

theorem recheckActive_stays {z0 s : State} {keep : Bool} (hz0 : Stays z0 s) : Stays z0 (recheckActive s keep) := by
  unfold recheckActive
  repeat' first
    | with_reducible assumption | exact Nat.le_refl _ | exact id | exact Eq.refl _ | intro _ | with_reducible apply Stays.ite | with_reducible apply Stays.ite_fst
    | with_reducible apply State.modPlans_stays | with_reducible apply droppedFault_stays | with_reducible apply forEach_stays
    | with_reducible apply releaseClaim_stays
    | (refine Stays.of_eq (by with_reducible assumption) ?_) | (simp only [stays_mk]) | split

theorem recheckPlans_stays {z0 s : State}  (hz0 : Stays z0 s) : Stays z0 (recheckPlans s) := by
  unfold recheckPlans
  repeat' first
    | with_reducible assumption | exact Nat.le_refl _ | exact id | exact Eq.refl _ | intro _ | with_reducible apply Stays.ite | with_reducible apply Stays.ite_fst
    | with_reducible apply abandonLoad_stays | with_reducible apply stillGood_stays | with_reducible apply recheckActive_stays
    | with_reducible apply recheckNext_stays | with_reducible apply missFront_stays | with_reducible apply startRestores_stays
    | (refine Stays.of_eq (by with_reducible assumption) ?_) | (simp only [stays_mk]) | split

end Sys2Proof.Machine
end

