-- ==== Sys2Proof/Laws/StaysResponder.lean ====
section
/-! SUPPORT. The operations of Machine/Responder.lean keep what `Stays` names. -/

namespace Sys2Proof.Machine

theorem checkTarget_stays {z0 s : State} {arr : Arrival} {q : Nat} {p : ZtpPacket} (hz0 : Stays z0 s) : Stays z0 (checkTarget s arr q p).1 := by
  unfold checkTarget
  repeat' first
    | with_reducible assumption | exact Nat.le_refl _ | exact id | exact Eq.refl _ | intro _ | with_reducible apply Stays.ite | with_reducible apply Stays.ite_fst
    | with_reducible apply State.modWin_stays
    | (refine Stays.of_eq (by with_reducible assumption) ?_) | (simp only [stays_mk]) | split

theorem ackGiven_stays {z0 s : State} {q : Nat} (hz0 : Stays z0 s) : Stays z0 (ackGiven s q) := by
  unfold ackGiven
  repeat' first
    | with_reducible assumption | exact Nat.le_refl _ | exact id | exact Eq.refl _ | intro _ | with_reducible apply Stays.ite | with_reducible apply Stays.ite_fst
    | with_reducible apply State.modQp_stays
    | (refine Stays.of_eq (by with_reducible assumption) ?_) | (simp only [stays_mk]) | split

theorem giveAck_stays {z0 s : State} {q : Nat} {psn : Nat} {msn : Nat} {result : Word} {ts : BitVec 32} (hz0 : Stays z0 s) : Stays z0 (giveAck s q psn msn result ts) := by
  unfold giveAck
  repeat' first
    | with_reducible assumption | exact Nat.le_refl _ | exact id | exact Eq.refl _ | intro _ | with_reducible apply Stays.ite | with_reducible apply Stays.ite_fst
    | with_reducible apply sendAnswer_stays | with_reducible apply ackGiven_stays
    | (refine Stays.of_eq (by with_reducible assumption) ?_) | (simp only [stays_mk]) | split

theorem giveFailed_stays {z0 s : State} {q : Nat} {psn : Nat} {msn : Nat} {status : Nat} {ts : BitVec 32} {sig : Bool} (hz0 : Stays z0 s) : Stays z0 (giveFailed s q psn msn status ts sig) := by
  unfold giveFailed
  repeat' first
    | with_reducible assumption | exact Nat.le_refl _ | exact id | exact Eq.refl _ | intro _ | with_reducible apply Stays.ite | with_reducible apply Stays.ite_fst
    | with_reducible apply sendSealed_stays
    | (refine Stays.of_eq (by with_reducible assumption) ?_) | (simp only [stays_mk]) | split

theorem consumeMsg_stays {z0 s : State} {q : Nat} {msn : Nat} {status : Nat} {endPsn : Nat} {psn : Nat} {ts : BitVec 32} {sig : Bool} (hz0 : Stays z0 s) : Stays z0 (consumeMsg s q msn status endPsn psn ts sig) := by
  unfold consumeMsg
  repeat' first
    | with_reducible assumption | exact Nat.le_refl _ | exact id | exact Eq.refl _ | intro _ | with_reducible apply Stays.ite | with_reducible apply Stays.ite_fst
    | with_reducible apply recordMsg_stays | with_reducible apply giveFailed_stays | with_reducible apply ackGiven_stays
    | with_reducible apply State.modQp_stays
    | (refine Stays.of_eq (by with_reducible assumption) ?_) | (simp only [stays_mk]) | split

theorem served_stays {z0 s : State} {x : Xlat} {n : Nat} (hz0 : Stays z0 s) : Stays z0 (served s x n) := by
  unfold served
  repeat' first
    | with_reducible assumption | exact Nat.le_refl _ | exact id | exact Eq.refl _ | intro _ | with_reducible apply Stays.ite | with_reducible apply Stays.ite_fst
    | with_reducible apply chargeShared_stays | with_reducible apply State.modMeter_stays
    | (refine Stays.of_eq (by with_reducible assumption) ?_) | (simp only [stays_mk]) | split

theorem maybeCnp_stays {z0 s : State} {arr : Arrival} {q : Nat} {p : ZtpPacket} (hz0 : Stays z0 s) : Stays z0 (maybeCnp s arr q p) := by
  unfold maybeCnp
  repeat' first
    | with_reducible assumption | exact Nat.le_refl _ | exact id | exact Eq.refl _ | intro _ | with_reducible apply Stays.ite | with_reducible apply Stays.ite_fst
    | with_reducible apply sendSealed_stays | with_reducible apply State.modQp_stays
    | (refine Stays.of_eq (by with_reducible assumption) ?_) | (simp only [stays_mk]) | split

theorem commitHolder_stays {z0 s : State} {r : Nat} {bytes : List Byte} (hz0 : Stays z0 s) : Stays z0 (commitHolder s r bytes) := by
  unfold commitHolder
  repeat' first
    | with_reducible assumption | exact Nat.le_refl _ | exact id | exact Eq.refl _ | intro _ | with_reducible apply Stays.ite | with_reducible apply Stays.ite_fst
    | with_reducible apply State.modCouch_stays
    | (refine Stays.of_eq (by with_reducible assumption) ?_) | (simp only [stays_mk]) | split

theorem finishWrite_stays {z0 s : State} {arr : Arrival} {q : Nat} {a : Applying} {p : ZtpPacket} (hz0 : Stays z0 s) : Stays z0 (finishWrite s arr q a p) := by
  unfold finishWrite
  repeat' first
    | with_reducible assumption | exact Nat.le_refl _ | exact id | exact Eq.refl _ | intro _ | with_reducible apply Stays.ite | with_reducible apply Stays.ite_fst
    | with_reducible apply endApplying_stays | with_reducible apply State.modQp_stays | with_reducible apply commitHolder_stays
    | with_reducible apply consumeMsg_stays | with_reducible apply recordMsg_stays | with_reducible apply addCounter_stays
    | (refine Stays.of_eq (by with_reducible assumption) ?_) | (simp only [stays_mk]) | split

theorem ackPlaced_stays {z0 s : State} {q : Nat} {p : ZtpPacket} (hz0 : Stays z0 s) : Stays z0 (ackPlaced s q p) := by
  unfold ackPlaced
  repeat' first
    | with_reducible assumption | exact Nat.le_refl _ | exact id | exact Eq.refl _ | intro _ | with_reducible apply Stays.ite | with_reducible apply Stays.ite_fst
    | with_reducible apply giveAck_stays | with_reducible apply State.modQp_stays
    | (refine Stays.of_eq (by with_reducible assumption) ?_) | (simp only [stays_mk]) | split

theorem placeWrite_stays {z0 s : State} {arr : Arrival} {q : Nat} {a : Applying} {p : ZtpPacket} (hz0 : Stays z0 s) : Stays z0 (placeWrite s arr q a p) := by
  unfold placeWrite
  repeat' first
    | with_reducible assumption | exact Nat.le_refl _ | exact id | exact Eq.refl _ | intro _ | with_reducible apply Stays.ite | with_reducible apply Stays.ite_fst
    | with_reducible apply xlatWrite_stays | with_reducible apply served_stays | with_reducible apply consumeMsg_stays
    | with_reducible apply endApplying_stays | with_reducible apply State.modQp_stays | with_reducible apply finishWrite_stays
    | with_reducible apply ackPlaced_stays
    | (refine Stays.of_eq (by with_reducible assumption) ?_) | (simp only [stays_mk]) | split

theorem sendResponses_stays {z0 s : State} {q : Nat} {pmtu : Nat} {p : ZtpPacket} {span : Nat} {n : Nat} {bs : List Byte} (hz0 : Stays z0 s) : Stays z0 (sendResponses s q pmtu p span n bs) := by
  unfold sendResponses
  repeat' first
    | with_reducible assumption | exact Nat.le_refl _ | exact id | exact Eq.refl _ | intro _ | with_reducible apply Stays.ite | with_reducible apply Stays.ite_fst
    | with_reducible apply forEach_stays | with_reducible apply sendSealed_stays
    | (refine Stays.of_eq (by with_reducible assumption) ?_) | (simp only [stays_mk]) | split

theorem runReadReq_stays {z0 s : State} {q : Nat} {p : ZtpPacket} {t : Target} {fresh : Bool} (hz0 : Stays z0 s) : Stays z0 (runReadReq s q p t fresh) := by
  unfold runReadReq
  repeat' first
    | with_reducible assumption | exact Nat.le_refl _ | exact id | exact Eq.refl _ | intro _ | with_reducible apply Stays.ite | with_reducible apply Stays.ite_fst
    | with_reducible apply xlatRead_stays | with_reducible apply served_stays | with_reducible apply recordMsg_stays
    | with_reducible apply State.modQp_stays | with_reducible apply sendResponses_stays | with_reducible apply ackPlaced_stays
    | with_reducible apply giveFailed_stays
    | (refine Stays.of_eq (by with_reducible assumption) ?_) | (simp only [stays_mk]) | split

theorem answerSync_stays {z0 s : State} {q : Nat} {p : ZtpPacket} {status : Nat} {result : Word} (hz0 : Stays z0 s) : Stays z0 (answerSync s q p status result) := by
  unfold answerSync
  repeat' first
    | with_reducible assumption | exact Nat.le_refl _ | exact id | exact Eq.refl _ | intro _ | with_reducible apply Stays.ite | with_reducible apply Stays.ite_fst
    | with_reducible apply recordMsg_stays | with_reducible apply State.modQp_stays | with_reducible apply giveAck_stays
    | with_reducible apply writeResult_stays | with_reducible apply consumeMsg_stays
    | (refine Stays.of_eq (by with_reducible assumption) ?_) | (simp only [stays_mk]) | split

theorem holdRemote_stays {z0 s : State} {q : Nat} {port : Nat} {p : ZtpPacket} {w : Wait} (hz0 : Stays z0 s) : Stays z0 (holdRemote s q port p w) := by
  unfold holdRemote
  repeat' first
    | with_reducible assumption | exact Nat.le_refl _ | exact id | exact Eq.refl _ | intro _ | with_reducible apply Stays.ite | with_reducible apply Stays.ite_fst
    | with_reducible apply State.modSync_stays | with_reducible apply State.modDie_stays | with_reducible apply sendAnswer_stays
    | with_reducible apply recordMsg_stays | with_reducible apply State.modQp_stays | with_reducible apply ackGiven_stays
    | with_reducible apply joinWait_stays
    | (refine Stays.of_eq (by with_reducible assumption) ?_) | (simp only [stays_mk]) | split

theorem applySync_stays {z0 s : State} {arr : Arrival} {q : Nat} {port : Nat} {p : ZtpPacket} {b : SyncBlock} (hz0 : Stays z0 s) : Stays z0 (applySync s arr q port p b) := by
  unfold applySync
  repeat' first
    | with_reducible assumption | exact Nat.le_refl _ | exact id | exact Eq.refl _ | intro _ | with_reducible apply Stays.ite | with_reducible apply Stays.ite_fst
    | with_reducible apply addCounter_stays | with_reducible apply answerSync_stays | with_reducible apply addSem_stays
    | with_reducible apply takeTurn_stays | with_reducible apply setObj_stays | with_reducible apply holdRemote_stays
    | (refine Stays.of_eq (by with_reducible assumption) ?_) | (simp only [stays_mk]) | split

theorem stallPacket_stays {z0 s : State} {arr : Arrival} {p : ZtpPacket} (hz0 : Stays z0 s) : Stays z0 (stallPacket s arr p) := by
  unfold stallPacket
  repeat' first
    | with_reducible assumption | exact Nat.le_refl _ | exact id | exact Eq.refl _ | intro _ | with_reducible apply Stays.ite | with_reducible apply Stays.ite_fst
    | (refine Stays.of_eq (by with_reducible assumption) ?_) | (simp only [stays_mk]) | split

theorem answerDuplicate_stays {z0 s : State} {arr : Arrival} {q : Nat} {port : Nat} {p : ZtpPacket} (hz0 : Stays z0 s) : Stays z0 (answerDuplicate s arr q port p) := by
  unfold answerDuplicate
  repeat' first
    | with_reducible assumption | exact Nat.le_refl _ | exact id | exact Eq.refl _ | intro _ | with_reducible apply Stays.ite | with_reducible apply Stays.ite_fst
    | with_reducible apply State.modDie_stays | with_reducible apply State.modWin_stays | with_reducible apply outOfWindow_stays
    | with_reducible apply sendAnswer_stays | with_reducible apply giveFailed_stays | with_reducible apply checkTarget_stays
    | with_reducible apply runReadReq_stays | with_reducible apply contextLost_stays
    | (refine Stays.of_eq (by with_reducible assumption) ?_) | (simp only [stays_mk]) | split

theorem takeExpected_stays {z0 s : State} {arr : Arrival} {q : Nat} {port : Nat} {p : ZtpPacket} (hz0 : Stays z0 s) : Stays z0 (takeExpected s arr q port p) := by
  unfold takeExpected
  repeat' first
    | with_reducible assumption | exact Nat.le_refl _ | exact id | exact Eq.refl _ | intro _ | with_reducible apply Stays.ite | with_reducible apply Stays.ite_fst
    | with_reducible apply staleDrop_stays | with_reducible apply stallPacket_stays | with_reducible apply placeWrite_stays
    | with_reducible apply checkTarget_stays | with_reducible apply consumeMsg_stays | with_reducible apply applySync_stays
    | with_reducible apply holdXlat_stays | with_reducible apply runReadReq_stays
    | (refine Stays.of_eq (by with_reducible assumption) ?_) | (simp only [stays_mk]) | split

theorem takeOpened_stays {z0 s : State} {arr : Arrival} {q : Nat} {port : Nat} {p : ZtpPacket} (hz0 : Stays z0 s) : Stays z0 (takeOpened s arr q port p) := by
  unfold takeOpened
  repeat' first
    | with_reducible assumption | exact Nat.le_refl _ | exact id | exact Eq.refl _ | intro _ | with_reducible apply Stays.ite | with_reducible apply Stays.ite_fst
    | with_reducible apply authFail_stays | with_reducible apply maybeCnp_stays | with_reducible apply State.modQp_stays
    | with_reducible apply takeExpected_stays | with_reducible apply answerDuplicate_stays | with_reducible apply State.modDie_stays
    | with_reducible apply sendAnswer_stays | with_reducible apply outOfWindow_stays
    | (refine Stays.of_eq (by with_reducible assumption) ?_) | (simp only [stays_mk]) | split

theorem takeRequest_stays {z0 s : State} {arr : Arrival} {p : ZtpPacket} (hz0 : Stays z0 s) : Stays z0 (takeRequest s arr p) := by
  unfold takeRequest
  repeat' first
    | with_reducible assumption | exact Nat.le_refl _ | exact id | exact Eq.refl _ | intro _ | with_reducible apply Stays.ite | with_reducible apply Stays.ite_fst
    | with_reducible apply staleDrop_stays | with_reducible apply giveFailed_stays | with_reducible apply takeOpened_stays
    | with_reducible apply qpOpened_stays
    | (refine Stays.of_eq (by with_reducible assumption) ?_) | (simp only [stays_mk]) | split

theorem busyBack_stays {z0 s : State} {arr : Arrival} {p : ZtpPacket} (hz0 : Stays z0 s) : Stays z0 (busyBack s arr p) := by
  unfold busyBack
  repeat' first
    | with_reducible assumption | exact Nat.le_refl _ | exact id | exact Eq.refl _ | intro _ | with_reducible apply Stays.ite | with_reducible apply Stays.ite_fst
    | with_reducible apply replyBack_stays
    | (refine Stays.of_eq (by with_reducible assumption) ?_) | (simp only [stays_mk]) | split

theorem missRequest_stays {z0 s : State} {arr : Arrival} {p : ZtpPacket} (hz0 : Stays z0 s) : Stays z0 (missRequest s arr p) := by
  unfold missRequest
  repeat' first
    | with_reducible assumption | exact Nat.le_refl _ | exact id | exact Eq.refl _ | intro _ | with_reducible apply Stays.ite | with_reducible apply Stays.ite_fst
    | with_reducible apply State.modQp_stays | with_reducible apply State.modDie_stays | with_reducible apply busyBack_stays
    | (refine Stays.of_eq (by with_reducible assumption) ?_) | (simp only [stays_mk]) | split

theorem requestGate_stays {z0 s : State} {arr : Arrival} {p : ZtpPacket} {typ : Byte} (hz0 : Stays z0 s) : Stays z0 (requestGate s arr p typ) := by
  unfold requestGate
  repeat' first
    | with_reducible assumption | exact Nat.le_refl _ | exact id | exact Eq.refl _ | intro _ | with_reducible apply Stays.ite | with_reducible apply Stays.ite_fst
    | with_reducible apply pktGate_stays | with_reducible apply settle_stays | with_reducible apply takeRequest_stays
    | with_reducible apply touchQp_stays | with_reducible apply missRequest_stays
    | (refine Stays.of_eq (by with_reducible assumption) ?_) | (simp only [stays_mk]) | split

theorem execWritePacket_stays {s t : State} {arr : Arrival} {pkt : ZtpPacket} (hn : execWritePacket arr pkt s = .next t) : Stays s t := by
  unfold execWritePacket at hn
  injection hn with hn
  subst hn
  have hz0 : Stays s s := Stays.refl s
  repeat' first
    | with_reducible assumption | exact Nat.le_refl _ | exact id | exact Eq.refl _ | intro _ | with_reducible apply Stays.ite | with_reducible apply Stays.ite_fst
    | with_reducible apply requestGate_stays
    | (refine Stays.of_eq (by with_reducible assumption) ?_) | (simp only [stays_mk]) | split

theorem execReadReq_stays {s t : State} {arr : Arrival} {pkt : ZtpPacket} (hn : execReadReq arr pkt s = .next t) : Stays s t := by
  unfold execReadReq at hn
  injection hn with hn
  subst hn
  have hz0 : Stays s s := Stays.refl s
  repeat' first
    | with_reducible assumption | exact Nat.le_refl _ | exact id | exact Eq.refl _ | intro _ | with_reducible apply Stays.ite | with_reducible apply Stays.ite_fst
    | with_reducible apply requestGate_stays
    | (refine Stays.of_eq (by with_reducible assumption) ?_) | (simp only [stays_mk]) | split

theorem execSyncReq_stays {s t : State} {arr : Arrival} {pkt : ZtpPacket} (hn : execSyncReq arr pkt s = .next t) : Stays s t := by
  unfold execSyncReq at hn
  injection hn with hn
  subst hn
  have hz0 : Stays s s := Stays.refl s
  repeat' first
    | with_reducible assumption | exact Nat.le_refl _ | exact id | exact Eq.refl _ | intro _ | with_reducible apply Stays.ite | with_reducible apply Stays.ite_fst
    | with_reducible apply requestGate_stays
    | (refine Stays.of_eq (by with_reducible assumption) ?_) | (simp only [stays_mk]) | split

theorem ackDelayed_stays {z0 s : State} {q : Nat} (hz0 : Stays z0 s) : Stays z0 (ackDelayed s q) := by
  unfold ackDelayed
  repeat' first
    | with_reducible assumption | exact Nat.le_refl _ | exact id | exact Eq.refl _ | intro _ | with_reducible apply Stays.ite | with_reducible apply Stays.ite_fst
    | with_reducible apply giveAck_stays | with_reducible apply State.arriveAt_stays
    | (refine Stays.of_eq (by with_reducible assumption) ?_) | (simp only [stays_mk]) | split

theorem execAckDelayExpiry_stays {s t : State} {qp : BitVec 20} (hn : execAckDelayExpiry qp s = .next t) : Stays s t := by
  unfold execAckDelayExpiry at hn
  injection hn with hn
  subst hn
  have hz0 : Stays s s := Stays.refl s
  repeat' first
    | with_reducible assumption | exact Nat.le_refl _ | exact id | exact Eq.refl _ | intro _ | with_reducible apply Stays.ite | with_reducible apply Stays.ite_fst
    | with_reducible apply ackDelayed_stays
    | (refine Stays.of_eq (by with_reducible assumption) ?_) | (simp only [stays_mk]) | split

theorem contextRead_stays {z0 s : State} {q : Nat} (hz0 : Stays z0 s) : Stays z0 (contextRead s q) := by
  unfold contextRead
  repeat' first
    | with_reducible assumption | exact Nat.le_refl _ | exact id | exact Eq.refl _ | intro _ | with_reducible apply Stays.ite | with_reducible apply Stays.ite_fst
    | with_reducible apply logUe_stays | with_reducible apply contextLost_stays
    | (refine Stays.of_eq (by with_reducible assumption) ?_) | (simp only [stays_mk]) | split

theorem contextFetched_stays {z0 s : State} {q : Nat} (hz0 : Stays z0 s) : Stays z0 (contextFetched s q) := by
  unfold contextFetched
  repeat' first
    | with_reducible assumption | exact Nat.le_refl _ | exact id | exact Eq.refl _ | intro _ | with_reducible apply Stays.ite | with_reducible apply Stays.ite_fst
    | with_reducible apply makeResident_stays | with_reducible apply State.modDie_stays | with_reducible apply settle_stays
    | with_reducible apply forEach_stays | with_reducible apply contextRead_stays | with_reducible apply takeRequest_stays
    | (refine Stays.of_eq (by with_reducible assumption) ?_) | (simp only [stays_mk]) | split

theorem execContextFetchComplete_stays {s t : State} {qp : BitVec 20} (hn : execContextFetchComplete qp s = .next t) : Stays s t := by
  unfold execContextFetchComplete at hn
  injection hn with hn
  subst hn
  have hz0 : Stays s s := Stays.refl s
  repeat' first
    | with_reducible assumption | exact Nat.le_refl _ | exact id | exact Eq.refl _ | intro _ | with_reducible apply Stays.ite | with_reducible apply Stays.ite_fst
    | with_reducible apply contextFetched_stays
    | (refine Stays.of_eq (by with_reducible assumption) ?_) | (simp only [stays_mk]) | split

end Sys2Proof.Machine
end

