-- ==== Sys2Proof/Laws/StaysBoardOps.lean ====
section
/-! SUPPORT. The operations of Machine/BoardOps.lean keep what `Stays` names. -/

namespace Sys2Proof.Machine

theorem loseMemory_stays {z0 s : State} {l : Nat} (hz0 : Stays z0 s) : Stays z0 (loseMemory s l) := by
  unfold loseMemory
  repeat' first
    | with_reducible assumption | exact Nat.le_refl _ | exact id | exact Eq.refl _ | intro _ | with_reducible apply Stays.ite | with_reducible apply Stays.ite_fst
    | with_reducible apply State.modInsts_stays
    | (refine Stays.of_eq (by with_reducible assumption) ?_) | (simp only [stays_mk]) | split

theorem loseQueue_stays {z0 s : State} {detail : BitVec 32} {q : Nat} (hz0 : Stays z0 s) : Stays z0 (loseQueue detail s q) := by
  unfold loseQueue
  repeat' first
    | with_reducible assumption | exact Nat.le_refl _ | exact id | exact Eq.refl _ | intro _ | with_reducible apply Stays.ite | with_reducible apply Stays.ite_fst
    | with_reducible apply haltQueue_stays | with_reducible apply unwatch_stays
    | (refine Stays.of_eq (by with_reducible assumption) ?_) | (simp only [stays_mk]) | split

theorem loseEntry_stays {z0 s : State} {detail : BitVec 32} {c : Nat × Started} (hz0 : Stays z0 s) : Stays z0 (loseEntry detail s c) := by
  unfold loseEntry
  repeat' first
    | with_reducible assumption | exact Nat.le_refl _ | exact id | exact Eq.refl _ | intro _ | with_reducible apply Stays.ite | with_reducible apply Stays.ite_fst
    | with_reducible apply endEntry_stays | with_reducible apply endStep_stays | with_reducible apply openRun_stays
    | with_reducible apply markRan_stays
    | (refine Stays.of_eq (by with_reducible assumption) ?_) | (simp only [stays_mk]) | split

theorem failApplying_stays {z0 s : State} {q : Nat} (hz0 : Stays z0 s) : Stays z0 (failApplying s q) := by
  unfold failApplying
  repeat' first
    | with_reducible assumption | exact Nat.le_refl _ | exact id | exact Eq.refl _ | intro _ | with_reducible apply Stays.ite | with_reducible apply Stays.ite_fst
    | with_reducible apply consumeMsg_stays | with_reducible apply endApplying_stays
    | (refine Stays.of_eq (by with_reducible assumption) ?_) | (simp only [stays_mk]) | split

theorem endLost_stays {z0 s : State} {l : Nat} {detail : BitVec 32} (hz0 : Stays z0 s) : Stays z0 (endLost s l detail) := by
  unfold endLost
  repeat' first
    | with_reducible assumption | exact Nat.le_refl _ | exact id | exact Eq.refl _ | intro _ | with_reducible apply Stays.ite | with_reducible apply Stays.ite_fst
    | with_reducible apply forEach_stays | with_reducible apply endMsg_stays | with_reducible apply loseEntry_stays
    | with_reducible apply endStep_stays | with_reducible apply failApplying_stays
    | (refine Stays.of_eq (by with_reducible assumption) ?_) | (simp only [stays_mk]) | split

theorem dropVectors_stays {z0 s : State} {l : Nat} (hz0 : Stays z0 s) : Stays z0 (dropVectors s l) := by
  unfold dropVectors
  repeat' first
    | with_reducible assumption | exact Nat.le_refl _ | exact id | exact Eq.refl _ | intro _ | with_reducible apply Stays.ite | with_reducible apply Stays.ite_fst
    | with_reducible apply forEach_stays | with_reducible apply State.modLink_stays | with_reducible apply State.modVec_stays
    | (refine Stays.of_eq (by with_reducible assumption) ?_) | (simp only [stays_mk]) | split

theorem epochBump_stays {z0 s : State} {l : Nat} (hz0 : Stays z0 s) : Stays z0 (epochBump s l) := by
  unfold epochBump
  repeat' first
    | with_reducible assumption | exact Nat.le_refl _ | exact id | exact Eq.refl _ | intro _ | with_reducible apply Stays.ite | with_reducible apply Stays.ite_fst
    | with_reducible apply State.modLink_stays | with_reducible apply loseMemory_stays | with_reducible apply forEach_stays
    | with_reducible apply loseQueue_stays | with_reducible apply dropVectors_stays | with_reducible apply endLost_stays
    | with_reducible apply settleSteps_stays | with_reducible apply raiseFault_stays
    | (refine Stays.of_eq (by with_reducible assumption) ?_) | (simp only [stays_mk]) | split

theorem boardTrain_stays {z0 s : State} {l : Nat} (hz0 : Stays z0 s) : Stays z0 (boardTrain s l) := by
  unfold boardTrain
  repeat' first
    | with_reducible assumption | exact Nat.le_refl _ | exact id | exact Eq.refl _ | intro _ | with_reducible apply Stays.ite | with_reducible apply Stays.ite_fst
    | with_reducible apply State.modLink_stays
    | (refine Stays.of_eq (by with_reducible assumption) ?_) | (simp only [stays_mk]) | split

theorem boardDown_stays {z0 s : State} {l : Nat} (hz0 : Stays z0 s) : Stays z0 (boardDown s l) := by
  unfold boardDown
  repeat' first
    | with_reducible assumption | exact Nat.le_refl _ | exact id | exact Eq.refl _ | intro _ | with_reducible apply Stays.ite | with_reducible apply Stays.ite_fst
    | with_reducible apply State.modLink_stays | with_reducible apply epochBump_stays | with_reducible apply noteCauses_stays
    | (refine Stays.of_eq (by with_reducible assumption) ?_) | (simp only [stays_mk]) | split

theorem boardServe_stays {z0 s : State} {l : Nat} (hz0 : Stays z0 s) : Stays z0 (boardServe s l) := by
  unfold boardServe
  repeat' first
    | with_reducible assumption | exact Nat.le_refl _ | exact id | exact Eq.refl _ | intro _ | with_reducible apply Stays.ite | with_reducible apply Stays.ite_fst
    | with_reducible apply servePendingOn_stays | with_reducible apply forEach_stays | with_reducible apply flushQueue_stays
    | with_reducible apply noteCauses_stays | with_reducible apply retryHeads_stays
    | (refine Stays.of_eq (by with_reducible assumption) ?_) | (simp only [stays_mk]) | split

theorem noteStall_stays {z0 s : State} {l : Nat} (hz0 : Stays z0 s) : Stays z0 (noteStall s l) := by
  unfold noteStall
  repeat' first
    | with_reducible assumption | exact Nat.le_refl _ | exact id | exact Eq.refl _ | intro _ | with_reducible apply Stays.ite | with_reducible apply Stays.ite_fst
    | with_reducible apply State.modLink_stays
    | (refine Stays.of_eq (by with_reducible assumption) ?_) | (simp only [stays_mk]) | split

theorem aptViolate_stays {z0 s : State} {l : Nat} (hz0 : Stays z0 s) : Stays z0 (aptViolate s l) := by
  unfold aptViolate
  repeat' first
    | with_reducible assumption | exact Nat.le_refl _ | exact id | exact Eq.refl _ | intro _ | with_reducible apply Stays.ite | with_reducible apply Stays.ite_fst
    | with_reducible apply State.modLink_stays
    | (refine Stays.of_eq (by with_reducible assumption) ?_) | (simp only [stays_mk]) | split

theorem trackLine_stays {z0 s : State} {l : Nat} {line : Nat} {own : Bool} (hz0 : Stays z0 s) : Stays z0 (trackLine s l line own) := by
  unfold trackLine
  repeat' first
    | with_reducible assumption | exact Nat.le_refl _ | exact id | exact Eq.refl _ | intro _ | with_reducible apply Stays.ite | with_reducible apply Stays.ite_fst
    | with_reducible apply State.modLink_stays | with_reducible apply State.sent_stays
    | (refine Stays.of_eq (by with_reducible assumption) ?_) | (simp only [stays_mk]) | split

theorem backInvOthers_stays {z0 s : State} {l : Nat} {line : Nat} (hz0 : Stays z0 s) : Stays z0 (backInvOthers s l line) := by
  unfold backInvOthers
  repeat' first
    | with_reducible assumption | exact Nat.le_refl _ | exact id | exact Eq.refl _ | intro _ | with_reducible apply Stays.ite | with_reducible apply Stays.ite_fst
    | with_reducible apply takeBack_stays
    | (refine Stays.of_eq (by with_reducible assumption) ?_) | (simp only [stays_mk]) | split

end Sys2Proof.Machine
end

