-- ==== Sys2Proof/Laws/StaysBoard.lean ====
section
/-! SUPPORT. The operations of Machine/Board.lean keep what `Stays` names. -/

namespace Sys2Proof.Machine

theorem setPlCfg_stays {z0 s : State} {l : Nat} {v : Word} (hz0 : Stays z0 s) : Stays z0 (setPlCfg s l v) := by
  unfold setPlCfg
  repeat' first
    | with_reducible assumption | exact Nat.le_refl _ | exact id | exact Eq.refl _ | intro _ | with_reducible apply Stays.ite | with_reducible apply Stays.ite_fst
    | with_reducible apply State.modLink_stays | with_reducible apply boardTrain_stays | with_reducible apply boardDown_stays
    | (refine Stays.of_eq (by with_reducible assumption) ?_) | (simp only [stays_mk]) | split

theorem execPlCfgWrite_stays {s t : State} {link : BitVec 2} {pl : BitVec 2} {value : Word} (hn : execPlCfgWrite link pl value s = .next t) : Stays s t := by
  unfold execPlCfgWrite at hn
  injection hn with hn
  subst hn
  have hz0 : Stays s s := Stays.refl s
  repeat' first
    | with_reducible assumption | exact Nat.le_refl _ | exact id | exact Eq.refl _ | intro _ | with_reducible apply Stays.ite | with_reducible apply Stays.ite_fst
    | with_reducible apply ctlWrite_stays | with_reducible apply setPlCfg_stays
    | (refine Stays.of_eq (by with_reducible assumption) ?_) | (simp only [stays_mk]) | split

theorem plCommand_stays {z0 s : State} {l : Nat} {v : Word} (hz0 : Stays z0 s) : Stays z0 (plCommand s l v) := by
  unfold plCommand
  repeat' first
    | with_reducible assumption | exact Nat.le_refl _ | exact id | exact Eq.refl _ | intro _ | with_reducible apply Stays.ite | with_reducible apply Stays.ite_fst
    | with_reducible apply boardDown_stays
    | (refine Stays.of_eq (by with_reducible assumption) ?_) | (simp only [stays_mk]) | split

theorem execForceDown_stays {s t : State} {link : BitVec 2} {pl : BitVec 2} {value : Word} (hn : execForceDown link pl value s = .next t) : Stays s t := by
  unfold execForceDown at hn
  injection hn with hn
  subst hn
  have hz0 : Stays s s := Stays.refl s
  repeat' first
    | with_reducible assumption | exact Nat.le_refl _ | exact id | exact Eq.refl _ | intro _ | with_reducible apply Stays.ite | with_reducible apply Stays.ite_fst
    | with_reducible apply ctlWrite_stays | with_reducible apply plCommand_stays
    | (refine Stays.of_eq (by with_reducible assumption) ?_) | (simp only [stays_mk]) | split

theorem trained_stays {z0 s : State} {l : Nat} {ver : Nat} {agent : Bool} {lanes : Nat} (hz0 : Stays z0 s) : Stays z0 (trained s l ver agent lanes) := by
  unfold trained
  repeat' first
    | with_reducible assumption | exact Nat.le_refl _ | exact id | exact Eq.refl _ | intro _ | with_reducible apply Stays.ite | with_reducible apply Stays.ite_fst
    | with_reducible apply boardServe_stays | with_reducible apply State.modLink_stays
    | (refine Stays.of_eq (by with_reducible assumption) ?_) | (simp only [stays_mk]) | split

theorem execPlTrainingComplete_stays {s t : State} {pl : BitVec 2} {ver : BitVec 2} {agent : Bool} {lanes : BitVec 16} (hn : execPlTrainingComplete pl ver agent lanes s = .next t) : Stays s t := by
  unfold execPlTrainingComplete at hn
  injection hn with hn
  subst hn
  have hz0 : Stays s s := Stays.refl s
  repeat' first
    | with_reducible assumption | exact Nat.le_refl _ | exact id | exact Eq.refl _ | intro _ | with_reducible apply Stays.ite | with_reducible apply Stays.ite_fst
    | with_reducible apply trained_stays
    | (refine Stays.of_eq (by with_reducible assumption) ?_) | (simp only [stays_mk]) | split

theorem trainTimeout_stays {z0 s : State} {l : Nat} (hz0 : Stays z0 s) : Stays z0 (trainTimeout s l) := by
  unfold trainTimeout
  repeat' first
    | with_reducible assumption | exact Nat.le_refl _ | exact id | exact Eq.refl _ | intro _ | with_reducible apply Stays.ite | with_reducible apply Stays.ite_fst
    | with_reducible apply State.arriveAt_stays | with_reducible apply noteCauses_stays | with_reducible apply raiseFault_stays
    | with_reducible apply State.modLink_stays
    | (refine Stays.of_eq (by with_reducible assumption) ?_) | (simp only [stays_mk]) | split

theorem execPlTrainingTimeout_stays {s t : State} {pl : BitVec 2} (hn : execPlTrainingTimeout pl s = .next t) : Stays s t := by
  unfold execPlTrainingTimeout at hn
  injection hn with hn
  subst hn
  have hz0 : Stays s s := Stays.refl s
  repeat' first
    | with_reducible assumption | exact Nat.le_refl _ | exact id | exact Eq.refl _ | intro _ | with_reducible apply Stays.ite | with_reducible apply Stays.ite_fst
    | with_reducible apply trainTimeout_stays
    | (refine Stays.of_eq (by with_reducible assumption) ?_) | (simp only [stays_mk]) | split

theorem boardRetry_stays {z0 s : State} {l : Nat} (hz0 : Stays z0 s) : Stays z0 (boardRetry s l) := by
  unfold boardRetry
  repeat' first
    | with_reducible assumption | exact Nat.le_refl _ | exact id | exact Eq.refl _ | intro _ | with_reducible apply Stays.ite | with_reducible apply Stays.ite_fst
    | with_reducible apply boardTrain_stays | with_reducible apply State.arriveAt_stays
    | (refine Stays.of_eq (by with_reducible assumption) ?_) | (simp only [stays_mk]) | split

theorem execPlRetrainTimer_stays {s t : State} {pl : BitVec 2} (hn : execPlRetrainTimer pl s = .next t) : Stays s t := by
  unfold execPlRetrainTimer at hn
  injection hn with hn
  subst hn
  have hz0 : Stays s s := Stays.refl s
  repeat' first
    | with_reducible assumption | exact Nat.le_refl _ | exact id | exact Eq.refl _ | intro _ | with_reducible apply Stays.ite | with_reducible apply Stays.ite_fst
    | with_reducible apply boardRetry_stays
    | (refine Stays.of_eq (by with_reducible assumption) ?_) | (simp only [stays_mk]) | split

theorem misaligned_stays {z0 s : State} {l : Nat} (hz0 : Stays z0 s) : Stays z0 (misaligned s l) := by
  unfold misaligned
  repeat' first
    | with_reducible assumption | exact Nat.le_refl _ | exact id | exact Eq.refl _ | intro _ | with_reducible apply Stays.ite | with_reducible apply Stays.ite_fst
    | with_reducible apply State.modLink_stays
    | (refine Stays.of_eq (by with_reducible assumption) ?_) | (simp only [stays_mk]) | split

theorem execPlAlignmentLoss_stays {s t : State} {pl : BitVec 2} (hn : execPlAlignmentLoss pl s = .next t) : Stays s t := by
  unfold execPlAlignmentLoss at hn
  injection hn with hn
  subst hn
  have hz0 : Stays s s := Stays.refl s
  repeat' first
    | with_reducible assumption | exact Nat.le_refl _ | exact id | exact Eq.refl _ | intro _ | with_reducible apply Stays.ite | with_reducible apply Stays.ite_fst
    | with_reducible apply misaligned_stays
    | (refine Stays.of_eq (by with_reducible assumption) ?_) | (simp only [stays_mk]) | split

theorem realigned_stays {z0 s : State} {l : Nat} {lanes : Nat} (hz0 : Stays z0 s) : Stays z0 (realigned s l lanes) := by
  unfold realigned
  repeat' first
    | with_reducible assumption | exact Nat.le_refl _ | exact id | exact Eq.refl _ | intro _ | with_reducible apply Stays.ite | with_reducible apply Stays.ite_fst
    | with_reducible apply boardServe_stays | with_reducible apply noteStall_stays | with_reducible apply State.modLink_stays
    | (refine Stays.of_eq (by with_reducible assumption) ?_) | (simp only [stays_mk]) | split

theorem execPlRealigned_stays {s t : State} {pl : BitVec 2} {lanes : BitVec 16} (hn : execPlRealigned pl lanes s = .next t) : Stays s t := by
  unfold execPlRealigned at hn
  injection hn with hn
  subst hn
  have hz0 : Stays s s := Stays.refl s
  repeat' first
    | with_reducible assumption | exact Nat.le_refl _ | exact id | exact Eq.refl _ | intro _ | with_reducible apply Stays.ite | with_reducible apply Stays.ite_fst
    | with_reducible apply realigned_stays
    | (refine Stays.of_eq (by with_reducible assumption) ?_) | (simp only [stays_mk]) | split

theorem retrainTimeout_stays {z0 s : State} {l : Nat} (hz0 : Stays z0 s) : Stays z0 (retrainTimeout s l) := by
  unfold retrainTimeout
  repeat' first
    | with_reducible assumption | exact Nat.le_refl _ | exact id | exact Eq.refl _ | intro _ | with_reducible apply Stays.ite | with_reducible apply Stays.ite_fst
    | with_reducible apply boardDown_stays | with_reducible apply noteStall_stays | with_reducible apply State.arriveAt_stays
    | (refine Stays.of_eq (by with_reducible assumption) ?_) | (simp only [stays_mk]) | split

theorem execPlRetrainTimeout_stays {s t : State} {pl : BitVec 2} (hn : execPlRetrainTimeout pl s = .next t) : Stays s t := by
  unfold execPlRetrainTimeout at hn
  injection hn with hn
  subst hn
  have hz0 : Stays s s := Stays.refl s
  repeat' first
    | with_reducible assumption | exact Nat.le_refl _ | exact id | exact Eq.refl _ | intro _ | with_reducible apply Stays.ite | with_reducible apply Stays.ite_fst
    | with_reducible apply retrainTimeout_stays
    | (refine Stays.of_eq (by with_reducible assumption) ?_) | (simp only [stays_mk]) | split

theorem resetNoticed_stays {z0 s : State} {l : Nat} (hz0 : Stays z0 s) : Stays z0 (resetNoticed s l) := by
  unfold resetNoticed
  repeat' first
    | with_reducible assumption | exact Nat.le_refl _ | exact id | exact Eq.refl _ | intro _ | with_reducible apply Stays.ite | with_reducible apply Stays.ite_fst
    | with_reducible apply boardDown_stays
    | (refine Stays.of_eq (by with_reducible assumption) ?_) | (simp only [stays_mk]) | split

theorem execResetNotice_stays {s t : State} {pl : BitVec 2} (hn : execResetNotice pl s = .next t) : Stays s t := by
  unfold execResetNotice at hn
  injection hn with hn
  subst hn
  have hz0 : Stays s s := Stays.refl s
  repeat' first
    | with_reducible assumption | exact Nat.le_refl _ | exact id | exact Eq.refl _ | intro _ | with_reducible apply Stays.ite | with_reducible apply Stays.ite_fst
    | with_reducible apply resetNoticed_stays
    | (refine Stays.of_eq (by with_reducible assumption) ?_) | (simp only [stays_mk]) | split

theorem boardLine_stays {s0 s : State} {l a : Nat} {bs : List Byte} (h : Stays s0 s) : Stays s0 (boardLine s l a bs) :=
  State.setBoard_stays h (fun hi => wf_writeBytes (board_wf hi l) _ _)

theorem snooped_stays {z0 s : State} {l : Nat} {addr : Nat} {bs : List Byte} (hz0 : Stays z0 s) : Stays z0 (snooped s l addr bs) := by
  unfold snooped
  repeat' first
    | with_reducible assumption | exact Nat.le_refl _ | exact id | exact Eq.refl _ | intro _ | with_reducible apply Stays.ite | with_reducible apply Stays.ite_fst
    | with_reducible apply boardLine_stays | with_reducible apply State.modLink_stays | with_reducible apply settle_stays
    | with_reducible apply forEach_stays | with_reducible apply serveHead_stays
    | (refine Stays.of_eq (by with_reducible assumption) ?_) | (simp only [stays_mk]) | split

theorem execSnpInv_stays {s t : State} {pl : BitVec 2} {addr : BitVec 52} {data : BitVec 512} (hn : execSnpInv pl addr data s = .next t) : Stays s t := by
  unfold execSnpInv at hn
  injection hn with hn
  subst hn
  have hz0 : Stays s s := Stays.refl s
  repeat' first
    | with_reducible assumption | exact Nat.le_refl _ | exact id | exact Eq.refl _ | intro _ | with_reducible apply Stays.ite | with_reducible apply Stays.ite_fst
    | with_reducible apply snooped_stays
    | (refine Stays.of_eq (by with_reducible assumption) ?_) | (simp only [stays_mk]) | split

theorem pollHead_stays {z0 s : State} {q : Nat} (hz0 : Stays z0 s) : Stays z0 (pollHead s q) := by
  unfold pollHead
  repeat' first
    | with_reducible assumption | exact Nat.le_refl _ | exact id | exact Eq.refl _ | intro _ | with_reducible apply Stays.ite | with_reducible apply Stays.ite_fst
    | with_reducible apply State.arriveAt_stays | with_reducible apply State.modLink_stays | with_reducible apply settle_stays
    | with_reducible apply serveHead_stays
    | (refine Stays.of_eq (by with_reducible assumption) ?_) | (simp only [stays_mk]) | split

theorem execWatchPoll_stays {s t : State} {q : BitVec 19} (hn : execWatchPoll q s = .next t) : Stays s t := by
  unfold execWatchPoll at hn
  injection hn with hn
  subst hn
  have hz0 : Stays s s := Stays.refl s
  repeat' first
    | with_reducible assumption | exact Nat.le_refl _ | exact id | exact Eq.refl _ | intro _ | with_reducible apply Stays.ite | with_reducible apply Stays.ite_fst
    | with_reducible apply pollHead_stays
    | (refine Stays.of_eq (by with_reducible assumption) ?_) | (simp only [stays_mk]) | split

theorem fenced_stays {z0 s : State} {l : Nat} (hz0 : Stays z0 s) : Stays z0 (fenced s l) := by
  unfold fenced
  repeat' first
    | with_reducible assumption | exact Nat.le_refl _ | exact id | exact Eq.refl _ | intro _ | with_reducible apply Stays.ite | with_reducible apply Stays.ite_fst
    | with_reducible apply State.sent_stays
    | (refine Stays.of_eq (by with_reducible assumption) ?_) | (simp only [stays_mk]) | split

theorem execPomelFence_stays {s t : State} {pl : BitVec 2} (hn : execPomelFence pl s = .next t) : Stays s t := by
  unfold execPomelFence at hn
  injection hn with hn
  subst hn
  have hz0 : Stays s s := Stays.refl s
  repeat' first
    | with_reducible assumption | exact Nat.le_refl _ | exact id | exact Eq.refl _ | intro _ | with_reducible apply Stays.ite | with_reducible apply Stays.ite_fst
    | with_reducible apply fenced_stays
    | (refine Stays.of_eq (by with_reducible assumption) ?_) | (simp only [stays_mk]) | split

theorem completed_stays {z0 s : State} {l : Nat} {err : Bool} {bs : List Byte} (hz0 : Stays z0 s) : Stays z0 (completed s l err bs) := by
  unfold completed
  repeat' first
    | with_reducible assumption | exact Nat.le_refl _ | exact id | exact Eq.refl _ | intro _ | with_reducible apply Stays.ite | with_reducible apply Stays.ite_fst
    | with_reducible apply State.modLink_stays | with_reducible apply boardLine_stays
    | (refine Stays.of_eq (by with_reducible assumption) ?_) | (simp only [stays_mk]) | split

theorem execCmp_stays {s t : State} {pl : BitVec 2} {err : Bool} {data : BitVec 512} (hn : execCmp pl err data s = .next t) : Stays s t := by
  unfold execCmp at hn
  injection hn with hn
  subst hn
  have hz0 : Stays s s := Stays.refl s
  repeat' first
    | with_reducible assumption | exact Nat.le_refl _ | exact id | exact Eq.refl _ | intro _ | with_reducible apply Stays.ite | with_reducible apply Stays.ite_fst
    | with_reducible apply completed_stays
    | (refine Stays.of_eq (by with_reducible assumption) ?_) | (simp only [stays_mk]) | split

end Sys2Proof.Machine
end

