-- ==== Sys2Proof/Laws/StaysLinkOps.lean ====
section
/-! SUPPORT. The operations of Machine/LinkOps.lean keep what `Stays` names. -/

namespace Sys2Proof.Machine

theorem linkUp_stays {z0 s : State} {p : Nat} {src : Nat} {ver : Nat} {nbrPort : Nat} {planId : Word} (hz0 : Stays z0 s) : Stays z0 (linkUp s p src ver nbrPort planId) := by
  unfold linkUp
  repeat' first
    | with_reducible assumption | exact Nat.le_refl _ | exact id | exact Eq.refl _ | intro _ | with_reducible apply Stays.ite | with_reducible apply Stays.ite_fst
    | with_reducible apply State.modPort_stays | with_reducible apply forEach_stays | with_reducible apply noticeOn_stays
    | (refine Stays.of_eq (by with_reducible assumption) ?_) | (simp only [stays_mk]) | split

theorem helloIn_stays {z0 s : State} {p : Nat} {src : Nat} {ver : Nat} {nbrPort : Nat} {planId : Word} (hz0 : Stays z0 s) : Stays z0 (helloIn s p src ver nbrPort planId) := by
  unfold helloIn
  repeat' first
    | with_reducible assumption | exact Nat.le_refl _ | exact id | exact Eq.refl _ | intro _ | with_reducible apply Stays.ite | with_reducible apply Stays.ite_fst
    | with_reducible apply linkUp_stays | with_reducible apply State.modPort_stays | with_reducible apply portDown_stays
    | with_reducible apply replayFrom_stays
    | (refine Stays.of_eq (by with_reducible assumption) ?_) | (simp only [stays_mk]) | split

theorem noticeIn_stays {z0 s : State} {p : Nat} {alt : Nat} {e : Nat} {hops : Nat} {origin : Nat} (hz0 : Stays z0 s) : Stays z0 (noticeIn s p alt e hops origin) := by
  unfold noticeIn
  repeat' first
    | with_reducible assumption | exact Nat.le_refl _ | exact id | exact Eq.refl _ | intro _ | with_reducible apply Stays.ite | with_reducible apply Stays.ite_fst
    | with_reducible apply recordAlt_stays
    | (refine Stays.of_eq (by with_reducible assumption) ?_) | (simp only [stays_mk]) | split

theorem replayOr_stays {z0 s : State} {p : Nat} {l : Option Nat} (hz0 : Stays z0 s) : Stays z0 (replayOr s p l) := by
  unfold replayOr
  repeat' first
    | with_reducible assumption | exact Nat.le_refl _ | exact id | exact Eq.refl _ | intro _ | with_reducible apply Stays.ite | with_reducible apply Stays.ite_fst
    | with_reducible apply fabRetrain_stays | with_reducible apply replayFrom_stays
    | (refine Stays.of_eq (by with_reducible assumption) ?_) | (simp only [stays_mk]) | split

theorem nakIn_stays {z0 s : State} {p : Nat} {l : Nat} (hz0 : Stays z0 s) : Stays z0 (nakIn s p l) := by
  unfold nakIn
  repeat' first
    | with_reducible assumption | exact Nat.le_refl _ | exact id | exact Eq.refl _ | intro _ | with_reducible apply Stays.ite | with_reducible apply Stays.ite_fst
    | with_reducible apply replayOr_stays | with_reducible apply ackFrames_stays
    | (refine Stays.of_eq (by with_reducible assumption) ?_) | (simp only [stays_mk]) | split

theorem sendNak_stays {z0 s : State} {p : Nat} (hz0 : Stays z0 s) : Stays z0 (sendNak s p) := by
  unfold sendNak
  repeat' first
    | with_reducible assumption | exact Nat.le_refl _ | exact id | exact Eq.refl _ | intro _ | with_reducible apply Stays.ite | with_reducible apply Stays.ite_fst
    | with_reducible apply sendCtl_stays | with_reducible apply State.modPort_stays
    | (refine Stays.of_eq (by with_reducible assumption) ?_) | (simp only [stays_mk]) | split

theorem circuitFrame_stays {z0 s : State} {p : Nat} {f : FabFrame} (hz0 : Stays z0 s) : Stays z0 (circuitFrame s p f) := by
  unfold circuitFrame
  repeat' first
    | with_reducible assumption | exact Nat.le_refl _ | exact id | exact Eq.refl _ | intro _ | with_reducible apply Stays.ite | with_reducible apply Stays.ite_fst
    | with_reducible apply State.modCnt_stays | with_reducible apply countDrop_stays | with_reducible apply deliver_stays
    | with_reducible apply enqueue_stays
    | (refine Stays.of_eq (by with_reducible assumption) ?_) | (simp only [stays_mk]) | split

theorem takeLinkWord_stays {z0 s : State} {p : Nat} {f : FabFrame} (hz0 : Stays z0 s) : Stays z0 (takeLinkWord s p f) := by
  unfold takeLinkWord
  repeat' first
    | with_reducible assumption | exact Nat.le_refl _ | exact id | exact Eq.refl _ | intro _ | with_reducible apply Stays.ite | with_reducible apply Stays.ite_fst
    | with_reducible apply ackFrames_stays | with_reducible apply addCredits_stays
    | (refine Stays.of_eq (by with_reducible assumption) ?_) | (simp only [stays_mk]) | split

theorem localFrame_stays {z0 s : State} {p : Nat} {f : FabFrame} (hz0 : Stays z0 s) : Stays z0 (localFrame s p f) := by
  unfold localFrame
  repeat' first
    | with_reducible assumption | exact Nat.le_refl _ | exact id | exact Eq.refl _ | intro _ | with_reducible apply Stays.ite | with_reducible apply Stays.ite_fst
    | with_reducible apply helloIn_stays | with_reducible apply ackFrames_stays | with_reducible apply nakIn_stays
    | with_reducible apply addCredits_stays | with_reducible apply noticeIn_stays | with_reducible apply deliver_stays
    | (refine Stays.of_eq (by with_reducible assumption) ?_) | (simp only [stays_mk]) | split

theorem formatDrop_stays {z0 s : State} {p : Nat} (hz0 : Stays z0 s) : Stays z0 (formatDrop s p) := by
  unfold formatDrop
  repeat' first
    | with_reducible assumption | exact Nat.le_refl _ | exact id | exact Eq.refl _ | intro _ | with_reducible apply Stays.ite | with_reducible apply Stays.ite_fst
    | with_reducible apply State.modCnt_stays
    | (refine Stays.of_eq (by with_reducible assumption) ?_) | (simp only [stays_mk]) | split

theorem ctlIn_stays {z0 s : State} {p : Nat} {f : State → State} (h_f : ∀ s, Stays z0 s → Stays z0 (f s)) (hz0 : Stays z0 s) : Stays z0 (ctlIn s p f) := by
  unfold ctlIn
  repeat' first
    | with_reducible assumption | exact Nat.le_refl _ | exact id | exact Eq.refl _ | intro _ | with_reducible apply Stays.ite | with_reducible apply Stays.ite_fst
    | with_reducible apply State.modCnt_stays | with_reducible apply freeBuffer_stays | with_reducible apply h_f
    | (refine Stays.of_eq (by with_reducible assumption) ?_) | (simp only [stays_mk]) | split

theorem receiveFrame_stays {z0 s : State} {p : Nat} {f : FabFrame} (hz0 : Stays z0 s) : Stays z0 (receiveFrame s p f) := by
  unfold receiveFrame
  repeat' first
    | with_reducible assumption | exact Nat.le_refl _ | exact id | exact Eq.refl _ | intro _ | with_reducible apply Stays.ite | with_reducible apply Stays.ite_fst
    | with_reducible apply State.modCnt_stays | with_reducible apply sendNak_stays | with_reducible apply formatDrop_stays
    | with_reducible apply localFrame_stays | with_reducible apply freeBuffer_stays | with_reducible apply takeLinkWord_stays
    | with_reducible apply State.modPort_stays | with_reducible apply sendCtl_stays | with_reducible apply circuitFrame_stays
    | with_reducible apply handleFrame_stays
    | (refine Stays.of_eq (by with_reducible assumption) ?_) | (simp only [stays_mk]) | split

theorem loopBack_stays {z0 s : State} {p : Nat} {f : FabFrame} (hz0 : Stays z0 s) : Stays z0 (loopBack s p f) := by
  unfold loopBack
  repeat' first
    | with_reducible assumption | exact Nat.le_refl _ | exact id | exact Eq.refl _ | intro _ | with_reducible apply Stays.ite | with_reducible apply Stays.ite_fst
    | with_reducible apply receiveFrame_stays
    | (refine Stays.of_eq (by with_reducible assumption) ?_) | (simp only [stays_mk]) | split

end Sys2Proof.Machine
end

