-- ==== Sys2Proof/Laws/StaysFabric.lean ====
section
/-! SUPPORT. The operations of Machine/Fabric.lean keep what `Stays` names. -/

namespace Sys2Proof.Machine

theorem execFabricFrameReceived_stays {s t : State} {port : BitVec 4} {frame : FabFrame} (hn : execFabricFrameReceived port frame s = .next t) : Stays s t := by
  unfold execFabricFrameReceived at hn
  injection hn with hn
  subst hn
  have hz0 : Stays s s := Stays.refl s
  repeat' first
    | with_reducible assumption | exact Nat.le_refl _ | exact id | exact Eq.refl _ | intro _ | with_reducible apply Stays.ite | with_reducible apply Stays.ite_fst
    | with_reducible apply receiveFrame_stays
    | (refine Stays.of_eq (by with_reducible assumption) ?_) | (simp only [stays_mk]) | split

theorem startEgress_stays {z0 s : State} {p : Nat} (h : Stays z0 s) : Stays z0 (startEgress s p) := by
  unfold startEgress
  have ht : Stays z0 (forEach (List.range 7) (noteStalls (noteWaits (s.arriveAt (s.port p).busyUntil) p) p) (sendCredit p)) :=
    forEach_stays (noteStalls_stays (noteWaits_stays (State.arriveAt_stays h))) (fun _ _ h => sendCredit_stays h)
  dsimp only
  generalize forEach _ _ _ = t at ht ⊢
  refine Stays.ite h ?_
  split
  · exact noteStalls_stays (noteWaits_stays h)
  · next r e =>
    have hr : Stays z0 r := by
      split at e
      · injection e with e
        exact e ▸ startAgain_stays ht
      · split at e
        · injection e with e
          exact e ▸ startFrame_stays ht
        · cases e
    split
    · exact noteStalls_stays (loopBack_stays hr)
    · exact hr

theorem execEgressFrameStart_stays {s t : State} {port : BitVec 4} (hn : execEgressFrameStart port s = .next t) : Stays s t := by
  unfold execEgressFrameStart at hn
  injection hn with hn
  subst hn
  have hz0 : Stays s s := Stays.refl s
  repeat' first
    | with_reducible assumption | exact Nat.le_refl _ | exact id | exact Eq.refl _ | intro _ | with_reducible apply Stays.ite | with_reducible apply Stays.ite_fst
    | with_reducible apply startEgress_stays
    | (refine Stays.of_eq (by with_reducible assumption) ?_) | (simp only [stays_mk]) | split

theorem reachSheet_stays {z0 s : State} {p : Nat} (hz0 : Stays z0 s) : Stays z0 (reachSheet s p) := by
  unfold reachSheet
  repeat' first
    | with_reducible assumption | exact Nat.le_refl _ | exact id | exact Eq.refl _ | intro _ | with_reducible apply Stays.ite | with_reducible apply Stays.ite_fst
    | with_reducible apply noteWaits_stays | with_reducible apply State.arriveAt_stays
    | (refine Stays.of_eq (by with_reducible assumption) ?_) | (simp only [stays_mk]) | split

theorem execSheetStart_stays {s t : State} {port : BitVec 4} (hn : execSheetStart port s = .next t) : Stays s t := by
  unfold execSheetStart at hn
  injection hn with hn
  subst hn
  have hz0 : Stays s s := Stays.refl s
  repeat' first
    | with_reducible assumption | exact Nat.le_refl _ | exact id | exact Eq.refl _ | intro _ | with_reducible apply Stays.ite | with_reducible apply Stays.ite_fst
    | with_reducible apply reachSheet_stays
    | (refine Stays.of_eq (by with_reducible assumption) ?_) | (simp only [stays_mk]) | split

theorem execHello_stays {s t : State} {port : BitVec 4} {src : BitVec 18} {verMax : Byte} {nbrPort : BitVec 4} {planId : Word} (hn : execHello port src verMax nbrPort planId s = .next t) : Stays s t := by
  unfold execHello at hn
  injection hn with hn
  subst hn
  have hz0 : Stays s s := Stays.refl s
  repeat' first
    | with_reducible assumption | exact Nat.le_refl _ | exact id | exact Eq.refl _ | intro _ | with_reducible apply Stays.ite | with_reducible apply Stays.ite_fst
    | with_reducible apply ctlIn_stays | with_reducible apply helloIn_stays
    | (refine Stays.of_eq (by with_reducible assumption) ?_) | (simp only [stays_mk]) | split

theorem helloDue_stays {z0 s : State} {p : Nat} (hz0 : Stays z0 s) : Stays z0 (helloDue s p) := by
  unfold helloDue
  repeat' first
    | with_reducible assumption | exact Nat.le_refl _ | exact id | exact Eq.refl _ | intro _ | with_reducible apply Stays.ite | with_reducible apply Stays.ite_fst
    | with_reducible apply State.arriveAt_stays | with_reducible apply State.modPort_stays | with_reducible apply sendCtl_stays
    | with_reducible apply loopBack_stays
    | (refine Stays.of_eq (by with_reducible assumption) ?_) | (simp only [stays_mk]) | split

theorem execHelloTimer_stays {s t : State} {port : BitVec 4} (hn : execHelloTimer port s = .next t) : Stays s t := by
  unfold execHelloTimer at hn
  injection hn with hn
  subst hn
  have hz0 : Stays s s := Stays.refl s
  repeat' first
    | with_reducible assumption | exact Nat.le_refl _ | exact id | exact Eq.refl _ | intro _ | with_reducible apply Stays.ite | with_reducible apply Stays.ite_fst
    | with_reducible apply helloDue_stays
    | (refine Stays.of_eq (by with_reducible assumption) ?_) | (simp only [stays_mk]) | split

theorem execLinkAck_stays {s t : State} {port : BitVec 4} {lseq : BitVec 16} (hn : execLinkAck port lseq s = .next t) : Stays s t := by
  unfold execLinkAck at hn
  injection hn with hn
  subst hn
  have hz0 : Stays s s := Stays.refl s
  repeat' first
    | with_reducible assumption | exact Nat.le_refl _ | exact id | exact Eq.refl _ | intro _ | with_reducible apply Stays.ite | with_reducible apply Stays.ite_fst
    | with_reducible apply ctlIn_stays | with_reducible apply ackFrames_stays
    | (refine Stays.of_eq (by with_reducible assumption) ?_) | (simp only [stays_mk]) | split

theorem execLinkNak_stays {s t : State} {port : BitVec 4} {lseq : BitVec 16} (hn : execLinkNak port lseq s = .next t) : Stays s t := by
  unfold execLinkNak at hn
  injection hn with hn
  subst hn
  have hz0 : Stays s s := Stays.refl s
  repeat' first
    | with_reducible assumption | exact Nat.le_refl _ | exact id | exact Eq.refl _ | intro _ | with_reducible apply Stays.ite | with_reducible apply Stays.ite_fst
    | with_reducible apply ctlIn_stays | with_reducible apply nakIn_stays
    | (refine Stays.of_eq (by with_reducible assumption) ?_) | (simp only [stays_mk]) | split

theorem execCredit_stays {s t : State} {port : BitVec 4} {vc : BitVec 3} {amount : BitVec 16} (hn : execCredit port vc amount s = .next t) : Stays s t := by
  unfold execCredit at hn
  injection hn with hn
  subst hn
  have hz0 : Stays s s := Stays.refl s
  repeat' first
    | with_reducible assumption | exact Nat.le_refl _ | exact id | exact Eq.refl _ | intro _ | with_reducible apply Stays.ite | with_reducible apply Stays.ite_fst
    | with_reducible apply ctlIn_stays | with_reducible apply noteStalls_stays | with_reducible apply addCredits_stays
    | (refine Stays.of_eq (by with_reducible assumption) ?_) | (simp only [stays_mk]) | split

theorem replayLate_stays {z0 s : State} {p : Nat} (hz0 : Stays z0 s) : Stays z0 (replayLate s p) := by
  unfold replayLate
  repeat' first
    | with_reducible assumption | exact Nat.le_refl _ | exact id | exact Eq.refl _ | intro _ | with_reducible apply Stays.ite | with_reducible apply Stays.ite_fst
    | with_reducible apply replayOr_stays | with_reducible apply State.arriveAt_stays
    | (refine Stays.of_eq (by with_reducible assumption) ?_) | (simp only [stays_mk]) | split

theorem execReplayTimeout_stays {s t : State} {port : BitVec 4} (hn : execReplayTimeout port s = .next t) : Stays s t := by
  unfold execReplayTimeout at hn
  injection hn with hn
  subst hn
  have hz0 : Stays s s := Stays.refl s
  repeat' first
    | with_reducible assumption | exact Nat.le_refl _ | exact id | exact Eq.refl _ | intro _ | with_reducible apply Stays.ite | with_reducible apply Stays.ite_fst
    | with_reducible apply replayLate_stays
    | (refine Stays.of_eq (by with_reducible assumption) ?_) | (simp only [stays_mk]) | split

theorem pcsLost_stays {z0 s : State} {p : Nat} (hz0 : Stays z0 s) : Stays z0 (pcsLost s p) := by
  unfold pcsLost
  repeat' first
    | with_reducible assumption | exact Nat.le_refl _ | exact id | exact Eq.refl _ | intro _ | with_reducible apply Stays.ite | with_reducible apply Stays.ite_fst
    | with_reducible apply fabRetrain_stays | with_reducible apply State.modPort_stays
    | (refine Stays.of_eq (by with_reducible assumption) ?_) | (simp only [stays_mk]) | split

theorem execPcsAlignmentLoss_stays {s t : State} {port : BitVec 4} (hn : execPcsAlignmentLoss port s = .next t) : Stays s t := by
  unfold execPcsAlignmentLoss at hn
  injection hn with hn
  subst hn
  have hz0 : Stays s s := Stays.refl s
  repeat' first
    | with_reducible assumption | exact Nat.le_refl _ | exact id | exact Eq.refl _ | intro _ | with_reducible apply Stays.ite | with_reducible apply Stays.ite_fst
    | with_reducible apply pcsLost_stays
    | (refine Stays.of_eq (by with_reducible assumption) ?_) | (simp only [stays_mk]) | split

theorem retrainOver_stays {z0 s : State} {p : Nat} (hz0 : Stays z0 s) : Stays z0 (retrainOver s p) := by
  unfold retrainOver
  repeat' first
    | with_reducible assumption | exact Nat.le_refl _ | exact id | exact Eq.refl _ | intro _ | with_reducible apply Stays.ite | with_reducible apply Stays.ite_fst
    | with_reducible apply portDown_stays | with_reducible apply State.arriveAt_stays
    | (refine Stays.of_eq (by with_reducible assumption) ?_) | (simp only [stays_mk]) | split

theorem execRetrainMaxExpiry_stays {s t : State} {port : BitVec 4} (hn : execRetrainMaxExpiry port s = .next t) : Stays s t := by
  unfold execRetrainMaxExpiry at hn
  injection hn with hn
  subst hn
  have hz0 : Stays s s := Stays.refl s
  repeat' first
    | with_reducible assumption | exact Nat.le_refl _ | exact id | exact Eq.refl _ | intro _ | with_reducible apply Stays.ite | with_reducible apply Stays.ite_fst
    | with_reducible apply retrainOver_stays
    | (refine Stays.of_eq (by with_reducible assumption) ?_) | (simp only [stays_mk]) | split

theorem trainAgain_stays {z0 s : State} {p : Nat} (hz0 : Stays z0 s) : Stays z0 (trainAgain s p) := by
  unfold trainAgain
  repeat' first
    | with_reducible assumption | exact Nat.le_refl _ | exact id | exact Eq.refl _ | intro _ | with_reducible apply Stays.ite | with_reducible apply Stays.ite_fst
    | with_reducible apply startTraining_stays | with_reducible apply State.arriveAt_stays
    | (refine Stays.of_eq (by with_reducible assumption) ?_) | (simp only [stays_mk]) | split

theorem execFabricRetrainTimer_stays {s t : State} {port : BitVec 4} (hn : execFabricRetrainTimer port s = .next t) : Stays s t := by
  unfold execFabricRetrainTimer at hn
  injection hn with hn
  subst hn
  have hz0 : Stays s s := Stays.refl s
  repeat' first
    | with_reducible assumption | exact Nat.le_refl _ | exact id | exact Eq.refl _ | intro _ | with_reducible apply Stays.ite | with_reducible apply Stays.ite_fst
    | with_reducible apply trainAgain_stays
    | (refine Stays.of_eq (by with_reducible assumption) ?_) | (simp only [stays_mk]) | split

theorem disablePort_stays {z0 s : State} {p : Nat} (hz0 : Stays z0 s) : Stays z0 (disablePort s p) := by
  unfold disablePort
  repeat' first
    | with_reducible assumption | exact Nat.le_refl _ | exact id | exact Eq.refl _ | intro _ | with_reducible apply Stays.ite | with_reducible apply Stays.ite_fst
    | with_reducible apply forEach_stays | with_reducible apply subDown_stays | with_reducible apply linkTriggered_stays
    | with_reducible apply fabDown_stays
    | (refine Stays.of_eq (by with_reducible assumption) ?_) | (simp only [stays_mk]) | split

theorem writeFllCfg_stays {z0 s : State} {p : Nat} {v : Word} (hz0 : Stays z0 s) : Stays z0 (writeFllCfg s p v) := by
  unfold writeFllCfg
  repeat' first
    | with_reducible assumption | exact Nat.le_refl _ | exact id | exact Eq.refl _ | intro _ | with_reducible apply Stays.ite | with_reducible apply Stays.ite_fst
    | with_reducible apply disablePort_stays | with_reducible apply State.modPort_stays | with_reducible apply startTraining_stays
    | (refine Stays.of_eq (by with_reducible assumption) ?_) | (simp only [stays_mk]) | split

theorem execFllCfgWrite_stays {s t : State} {link : BitVec 2} {port : BitVec 4} {value : Word}
    (hn : execFllCfgWrite link port value s = .next t) : Stays s t := by
  unfold execFllCfgWrite at hn
  injection hn with hn
  subst hn
  exact ctlWrite_stays (fun _ h => settle_stays (writeFllCfg_stays h)) (Stays.refl s)

theorem writeFabNode_stays {z0 s : State} {v : Word} (hz0 : Stays z0 s) : Stays z0 (writeFabNode s v) := by
  unfold writeFabNode
  repeat' first
    | with_reducible assumption | exact Nat.le_refl _ | exact id | exact Eq.refl _ | intro _ | with_reducible apply Stays.ite | with_reducible apply Stays.ite_fst
    | with_reducible apply State.modRouting_stays | with_reducible apply forEach_stays | with_reducible apply startTraining_stays
    | (refine Stays.of_eq (by with_reducible assumption) ?_) | (simp only [stays_mk]) | split

theorem execFabNodeWrite_stays {s t : State} {link : BitVec 2} {value : Word} (hn : execFabNodeWrite link value s = .next t) : Stays s t := by
  unfold execFabNodeWrite at hn
  injection hn with hn
  subst hn
  have hz0 : Stays s s := Stays.refl s
  repeat' first
    | with_reducible assumption | exact Nat.le_refl _ | exact id | exact Eq.refl _ | intro _ | with_reducible apply Stays.ite | with_reducible apply Stays.ite_fst
    | with_reducible apply ctlWrite_stays | with_reducible apply writeFabNode_stays
    | (refine Stays.of_eq (by with_reducible assumption) ?_) | (simp only [stays_mk]) | split

theorem holdOver_stays {z0 s : State} {p : Nat} (hz0 : Stays z0 s) : Stays z0 (holdOver s p) := by
  unfold holdOver
  repeat' first
    | with_reducible assumption | exact Nat.le_refl _ | exact id | exact Eq.refl _ | intro _ | with_reducible apply Stays.ite | with_reducible apply Stays.ite_fst
    | with_reducible apply State.arriveAt_stays | with_reducible apply State.modPort_stays | with_reducible apply freeBuffer_stays
    | with_reducible apply State.modCnt_stays
    | (refine Stays.of_eq (by with_reducible assumption) ?_) | (simp only [stays_mk]) | split

theorem execVc0HoldExpiry_stays {s t : State} {port : BitVec 4} (hn : execVc0HoldExpiry port s = .next t) : Stays s t := by
  unfold execVc0HoldExpiry at hn
  injection hn with hn
  subst hn
  have hz0 : Stays s s := Stays.refl s
  repeat' first
    | with_reducible assumption | exact Nat.le_refl _ | exact id | exact Eq.refl _ | intro _ | with_reducible apply Stays.ite | with_reducible apply Stays.ite_fst
    | with_reducible apply holdOver_stays
    | (refine Stays.of_eq (by with_reducible assumption) ?_) | (simp only [stays_mk]) | split

theorem routeCode_stays {z0 s : State} {c : Nat} (hz0 : Stays z0 s) : Stays z0 (routeCode s c) := by
  unfold routeCode
  repeat' first
    | with_reducible assumption | exact Nat.le_refl _ | exact id | exact Eq.refl _ | intro _ | with_reducible apply Stays.ite | with_reducible apply Stays.ite_fst
    | with_reducible apply State.modRouting_stays
    | (refine Stays.of_eq (by with_reducible assumption) ?_) | (simp only [stays_mk]) | split

theorem copyBank_stays {z0 s : State}  (hz0 : Stays z0 s) : Stays z0 (copyBank s) := by
  unfold copyBank
  repeat' first
    | with_reducible assumption | exact Nat.le_refl _ | exact id | exact Eq.refl _ | intro _ | with_reducible apply Stays.ite | with_reducible apply Stays.ite_fst
    | with_reducible apply routeCode_stays | with_reducible apply State.modBank_stays
    | (refine Stays.of_eq (by with_reducible assumption) ?_) | (simp only [stays_mk]) | split

theorem routeRow_stays {z0 s : State} {l : Nat} {v : Word} {cmd : Nat} {f : State → State} (h_f : ∀ s, Stays z0 s → Stays z0 (f s)) (hz0 : Stays z0 s) : Stays z0 (routeRow s l v cmd f) := by
  unfold routeRow
  repeat' first
    | with_reducible assumption | exact Nat.le_refl _ | exact id | exact Eq.refl _ | intro _ | with_reducible apply Stays.ite | with_reducible apply Stays.ite_fst
    | with_reducible apply ctlWrite_stays | with_reducible apply h_f
    | (refine Stays.of_eq (by with_reducible assumption) ?_) | (simp only [stays_mk]) | split

theorem execRouteCopy_stays {s t : State} {link : BitVec 2} {value : Word} (hn : execRouteCopy link value s = .next t) : Stays s t := by
  unfold execRouteCopy at hn
  injection hn with hn
  subst hn
  have hz0 : Stays s s := Stays.refl s
  repeat' first
    | with_reducible assumption | exact Nat.le_refl _ | exact id | exact Eq.refl _ | intro _ | with_reducible apply Stays.ite | with_reducible apply Stays.ite_fst
    | with_reducible apply routeRow_stays | with_reducible apply copyBank_stays
    | (refine Stays.of_eq (by with_reducible assumption) ?_) | (simp only [stays_mk]) | split

theorem discardBank_stays {z0 s : State}  (hz0 : Stays z0 s) : Stays z0 (discardBank s) := by
  unfold discardBank
  repeat' first
    | with_reducible assumption | exact Nat.le_refl _ | exact id | exact Eq.refl _ | intro _ | with_reducible apply Stays.ite | with_reducible apply Stays.ite_fst
    | with_reducible apply routeCode_stays | with_reducible apply State.modBank_stays | with_reducible apply State.modRouting_stays
    | (refine Stays.of_eq (by with_reducible assumption) ?_) | (simp only [stays_mk]) | split

theorem execRouteDiscard_stays {s t : State} {link : BitVec 2} {value : Word} (hn : execRouteDiscard link value s = .next t) : Stays s t := by
  unfold execRouteDiscard at hn
  injection hn with hn
  subst hn
  have hz0 : Stays s s := Stays.refl s
  repeat' first
    | with_reducible assumption | exact Nat.le_refl _ | exact id | exact Eq.refl _ | intro _ | with_reducible apply Stays.ite | with_reducible apply Stays.ite_fst
    | with_reducible apply routeRow_stays | with_reducible apply discardBank_stays
    | (refine Stays.of_eq (by with_reducible assumption) ?_) | (simp only [stays_mk]) | split

theorem advanceSel_stays {z0 s : State}  (hz0 : Stays z0 s) : Stays z0 (advanceSel s) := by
  unfold advanceSel
  repeat' first
    | with_reducible assumption | exact Nat.le_refl _ | exact id | exact Eq.refl _ | intro _ | with_reducible apply Stays.ite | with_reducible apply Stays.ite_fst
    | with_reducible apply State.modRouting_stays
    | (refine Stays.of_eq (by with_reducible assumption) ?_) | (simp only [stays_mk]) | split

theorem writeTable_stays {z0 s : State} {v : Word} (hz0 : Stays z0 s) : Stays z0 (writeTable s v) := by
  unfold writeTable
  repeat' first
    | with_reducible assumption | exact Nat.le_refl _ | exact id | exact Eq.refl _ | intro _ | with_reducible apply Stays.ite | with_reducible apply Stays.ite_fst
    | with_reducible apply advanceSel_stays | with_reducible apply State.modBank_stays
    | (refine Stays.of_eq (by with_reducible assumption) ?_) | (simp only [stays_mk]) | split

theorem execRouteTblDataWrite_stays {s t : State} {link : BitVec 2} {value : Word} (hn : execRouteTblDataWrite link value s = .next t) : Stays s t := by
  unfold execRouteTblDataWrite at hn
  injection hn with hn
  subst hn
  have hz0 : Stays s s := Stays.refl s
  repeat' first
    | with_reducible assumption | exact Nat.le_refl _ | exact id | exact Eq.refl _ | intro _ | with_reducible apply Stays.ite | with_reducible apply Stays.ite_fst
    | with_reducible apply ctlWrite_stays | with_reducible apply writeTable_stays
    | (refine Stays.of_eq (by with_reducible assumption) ?_) | (simp only [stays_mk]) | split

theorem ctlRead_stays {z0 s : State} {l : Nat} {a : Nat} {f : State → Word × State} (h_f : ∀ s, Stays z0 s → Stays z0 (f s).2) (hz0 : Stays z0 s) : Stays z0 (ctlRead s l a f) := by
  unfold ctlRead
  repeat' first
    | with_reducible assumption | exact Nat.le_refl _ | exact id | exact Eq.refl _ | intro _ | with_reducible apply Stays.ite | with_reducible apply Stays.ite_fst
    | with_reducible apply State.sent_stays | with_reducible apply refuseAccess_stays | with_reducible apply h_f
    | (refine Stays.of_eq (by with_reducible assumption) ?_) | (simp only [stays_mk]) | split

theorem execRouteTblDataRead_stays {s t : State} {link : BitVec 2} (hn : execRouteTblDataRead link s = .next t) : Stays s t := by
  unfold execRouteTblDataRead at hn
  injection hn with hn
  subst hn
  have hz0 : Stays s s := Stays.refl s
  repeat' first
    | with_reducible assumption | exact Nat.le_refl _ | exact id | exact Eq.refl _ | intro _ | with_reducible apply Stays.ite | with_reducible apply Stays.ite_fst
    | with_reducible apply ctlRead_stays | with_reducible apply advanceSel_stays
    | (refine Stays.of_eq (by with_reducible assumption) ?_) | (simp only [stays_mk]) | split

theorem armTable_stays {z0 s : State} {v : Word} (hz0 : Stays z0 s) : Stays z0 (armTable s v) := by
  unfold armTable
  repeat' first
    | with_reducible assumption | exact Nat.le_refl _ | exact id | exact Eq.refl _ | intro _ | with_reducible apply Stays.ite | with_reducible apply Stays.ite_fst
    | with_reducible apply routeCode_stays | with_reducible apply State.modBank_stays | with_reducible apply State.modRouting_stays
    | (refine Stays.of_eq (by with_reducible assumption) ?_) | (simp only [stays_mk]) | split

theorem execTableFrontWrite_stays {s t : State} {link : BitVec 2} {value : Word} (hn : execTableFrontWrite link value s = .next t) : Stays s t := by
  unfold execTableFrontWrite at hn
  injection hn with hn
  subst hn
  have hz0 : Stays s s := Stays.refl s
  repeat' first
    | with_reducible assumption | exact Nat.le_refl _ | exact id | exact Eq.refl _ | intro _ | with_reducible apply Stays.ite | with_reducible apply Stays.ite_fst
    | with_reducible apply ctlWrite_stays | with_reducible apply armTable_stays
    | (refine Stays.of_eq (by with_reducible assumption) ?_) | (simp only [stays_mk]) | split

theorem drainBank_stays {z0 s : State}  (hz0 : Stays z0 s) : Stays z0 (drainBank s) := by
  unfold drainBank
  repeat' first
    | with_reducible assumption | exact Nat.le_refl _ | exact id | exact Eq.refl _ | intro _ | with_reducible apply Stays.ite | with_reducible apply Stays.ite_fst
    | with_reducible apply State.arriveAt_stays | with_reducible apply State.modBank_stays
    | (refine Stays.of_eq (by with_reducible assumption) ?_) | (simp only [stays_mk]) | split

theorem execBankDrainBound_stays {s t : State} (hn : execBankDrainBound s = .next t) : Stays s t := by
  unfold execBankDrainBound at hn
  injection hn with hn
  subst hn
  have hz0 : Stays s s := Stays.refl s
  repeat' first
    | with_reducible assumption | exact Nat.le_refl _ | exact id | exact Eq.refl _ | intro _ | with_reducible apply Stays.ite | with_reducible apply Stays.ite_fst
    | with_reducible apply drainBank_stays
    | (refine Stays.of_eq (by with_reducible assumption) ?_) | (simp only [stays_mk]) | split

end Sys2Proof.Machine
end

