-- ==== Sys2Proof/Laws/StaysPlans.lean ====
section
/-! SUPPORT. The operations of Machine/Plans.lean keep what `Stays` names. -/

namespace Sys2Proof.Machine

theorem storeImage_stays {z0 s : State} {n : Nat} (hz0 : Stays z0 s) : Stays z0 (storeImage s n) := by
  unfold storeImage
  repeat' first
    | with_reducible assumption | exact Nat.le_refl _ | exact id | exact Eq.refl _ | intro _ | with_reducible apply Stays.ite | with_reducible apply Stays.ite_fst
    | with_reducible apply healWords_stays
    | (refine Stays.of_eq (by with_reducible assumption) ?_) | (simp only [stays_mk]) | split

theorem loadPlan_stays {z0 s : State} {d : Door} (hz0 : Stays z0 s) : Stays z0 (loadPlan s d) := by
  unfold loadPlan
  repeat' first
    | with_reducible assumption | exact Nat.le_refl _ | exact id | exact Eq.refl _ | intro _ | with_reducible apply Stays.ite | with_reducible apply Stays.ite_fst
    | with_reducible apply answerResult_stays | with_reducible apply readImage_stays | with_reducible apply storeImage_stays
    | with_reducible apply State.modPlans_stays
    | (refine Stays.of_eq (by with_reducible assumption) ?_) | (simp only [stays_mk]) | split

theorem execPlanLoad_stays {s t : State} {door : Door} {link : BitVec 2}
    (hn : execPlanLoad door link s = .next t) : Stays s t := by
  unfold execPlanLoad at hn
  injection hn with hn
  subst hn
  exact mailRow_stays (fun _ h => mailGate_stays (fun _ h => loadPlan_stays h) h) (Stays.refl s)

theorem endLoad_stays {z0 s : State}  (hz0 : Stays z0 s) : Stays z0 (endLoad s) := by
  unfold endLoad
  repeat' first
    | with_reducible assumption | exact Nat.le_refl _ | exact id | exact Eq.refl _ | intro _ | with_reducible apply Stays.ite | with_reducible apply Stays.ite_fst
    | with_reducible apply decideHeldCap_stays | with_reducible apply answerResult_stays | with_reducible apply State.modPlans_stays
    | with_reducible apply settle_stays | with_reducible apply planLoaded_stays
    | (refine Stays.of_eq (by with_reducible assumption) ?_) | (simp only [stays_mk]) | split

theorem execPlanLoadComplete_stays {s t : State} (hn : execPlanLoadComplete s = .next t) : Stays s t := by
  unfold execPlanLoadComplete at hn
  injection hn with hn
  subst hn
  have hz0 : Stays s s := Stays.refl s
  repeat' first
    | with_reducible assumption | exact Nat.le_refl _ | exact id | exact Eq.refl _ | intro _ | with_reducible apply Stays.ite | with_reducible apply Stays.ite_fst
    | with_reducible apply endLoad_stays
    | (refine Stays.of_eq (by with_reducible assumption) ?_) | (simp only [stays_mk]) | split

theorem armPlan_stays {z0 s : State} {d : Door} (hz0 : Stays z0 s) : Stays z0 (armPlan s d) := by
  unfold armPlan
  repeat' first
    | with_reducible assumption | exact Nat.le_refl _ | exact id | exact Eq.refl _ | intro _ | with_reducible apply Stays.ite | with_reducible apply Stays.ite_fst
    | with_reducible apply answerResult_stays | with_reducible apply State.modPlans_stays | with_reducible apply missFront_stays
    | (refine Stays.of_eq (by with_reducible assumption) ?_) | (simp only [stays_mk]) | split

theorem execPlanArm_stays {s t : State} {door : Door} {link : BitVec 2} (hn : execPlanArm door link s = .next t) : Stays s t := by
  unfold execPlanArm at hn
  injection hn with hn
  subst hn
  have hz0 : Stays s s := Stays.refl s
  repeat' first
    | with_reducible assumption | exact Nat.le_refl _ | exact id | exact Eq.refl _ | intro _ | with_reducible apply Stays.ite | with_reducible apply Stays.ite_fst
    | with_reducible apply mailRow_stays | with_reducible apply mailGate_stays | with_reducible apply armPlan_stays
    | (refine Stays.of_eq (by with_reducible assumption) ?_) | (simp only [stays_mk]) | split

theorem cancelPlan_stays {z0 s : State}  (hz0 : Stays z0 s) : Stays z0 (cancelPlan s).1 := by
  unfold cancelPlan
  repeat' first
    | with_reducible assumption | exact Nat.le_refl _ | exact id | exact Eq.refl _ | intro _ | with_reducible apply Stays.ite | with_reducible apply Stays.ite_fst
    | with_reducible apply settle_stays | with_reducible apply dropNext_stays | with_reducible apply State.modPlans_stays
    | (refine Stays.of_eq (by with_reducible assumption) ?_) | (simp only [stays_mk]) | split

theorem execPlanCancel_stays {s t : State} {door : Door} {link : BitVec 2} (hn : execPlanCancel door link s = .next t) : Stays s t := by
  unfold execPlanCancel at hn
  injection hn with hn
  subst hn
  have hz0 : Stays s s := Stays.refl s
  repeat' first
    | with_reducible assumption | exact Nat.le_refl _ | exact id | exact Eq.refl _ | intro _ | with_reducible apply Stays.ite | with_reducible apply Stays.ite_fst
    | with_reducible apply mailRow_stays | with_reducible apply mailGate_stays | with_reducible apply answerSt_stays
    | with_reducible apply cancelPlan_stays
    | (refine Stays.of_eq (by with_reducible assumption) ?_) | (simp only [stays_mk]) | split

theorem unloadPlan_stays {z0 s : State} {d : Door} (hz0 : Stays z0 s) : Stays z0 (unloadPlan s d).1 := by
  unfold unloadPlan
  repeat' first
    | with_reducible assumption | exact Nat.le_refl _ | exact id | exact Eq.refl _ | intro _ | with_reducible apply Stays.ite | with_reducible apply Stays.ite_fst
    | with_reducible apply setResult_stays | with_reducible apply State.modPlans_stays
    | (refine Stays.of_eq (by with_reducible assumption) ?_) | (simp only [stays_mk]) | split

theorem execPlanUnload_stays {s t : State} {door : Door} {link : BitVec 2} (hn : execPlanUnload door link s = .next t) : Stays s t := by
  unfold execPlanUnload at hn
  injection hn with hn
  subst hn
  have hz0 : Stays s s := Stays.refl s
  repeat' first
    | with_reducible assumption | exact Nat.le_refl _ | exact id | exact Eq.refl _ | intro _ | with_reducible apply Stays.ite | with_reducible apply Stays.ite_fst
    | with_reducible apply mailRow_stays | with_reducible apply mailGate_stays | with_reducible apply answerSt_stays
    | with_reducible apply unloadPlan_stays
    | (refine Stays.of_eq (by with_reducible assumption) ?_) | (simp only [stays_mk]) | split

theorem drainPlan_stays {z0 s : State}  (hz0 : Stays z0 s) : Stays z0 (drainPlan s) := by
  unfold drainPlan
  repeat' first
    | with_reducible assumption | exact Nat.le_refl _ | exact id | exact Eq.refl _ | intro _ | with_reducible apply Stays.ite | with_reducible apply Stays.ite_fst
    | with_reducible apply settleSteps_stays | with_reducible apply releaseOld_stays | with_reducible apply State.arriveAt_stays
    | (refine Stays.of_eq (by with_reducible assumption) ?_) | (simp only [stays_mk]) | split

theorem execPlanDrainBound_stays {s t : State} (hn : execPlanDrainBound s = .next t) : Stays s t := by
  unfold execPlanDrainBound at hn
  injection hn with hn
  subst hn
  have hz0 : Stays s s := Stays.refl s
  repeat' first
    | with_reducible assumption | exact Nat.le_refl _ | exact id | exact Eq.refl _ | intro _ | with_reducible apply Stays.ite | with_reducible apply Stays.ite_fst
    | with_reducible apply drainPlan_stays
    | (refine Stays.of_eq (by with_reducible assumption) ?_) | (simp only [stays_mk]) | split

end Sys2Proof.Machine
end

