-- ==== Sys2Proof/Laws/StaysSync.lean ====
section
/-! SUPPORT. The operations of Machine/Sync.lean keep what `Stays` names. -/

namespace Sys2Proof.Machine

theorem expireWait_stays {z0 s : State} {r : WaitRef} (hz0 : Stays z0 s) : Stays z0 (expireWait s r) := by
  unfold expireWait
  repeat' first
    | with_reducible assumption | exact Nat.le_refl _ | exact id | exact Eq.refl _ | intro _ | with_reducible apply Stays.ite | with_reducible apply Stays.ite_fst
    | with_reducible apply settle_stays | with_reducible apply endTick_stays | with_reducible apply State.arriveAt_stays
    | (refine Stays.of_eq (by with_reducible assumption) ?_) | (simp only [stays_mk]) | split

theorem execWaitDeadline_stays {s t : State} {wait : WaitRef} (hn : execWaitDeadline wait s = .next t) : Stays s t := by
  unfold execWaitDeadline at hn
  injection hn with hn
  subst hn
  have hz0 : Stays s s := Stays.refl s
  repeat' first
    | with_reducible assumption | exact Nat.le_refl _ | exact id | exact Eq.refl _ | intro _ | with_reducible apply Stays.ite | with_reducible apply Stays.ite_fst
    | with_reducible apply expireWait_stays
    | (refine Stays.of_eq (by with_reducible assumption) ?_) | (simp only [stays_mk]) | split

theorem granCommand_stays {z0 s : State} {i : Nat} {v : Word} (hz0 : Stays z0 s) : Stays z0 (granCommand s i v) := by
  unfold granCommand
  repeat' first
    | with_reducible assumption | exact Nat.le_refl _ | exact id | exact Eq.refl _ | intro _ | with_reducible apply Stays.ite | with_reducible apply Stays.ite_fst
    | with_reducible apply State.modWin_stays | with_reducible apply initGranule_stays
    | (refine Stays.of_eq (by with_reducible assumption) ?_) | (simp only [stays_mk]) | split

theorem execSyncInit_stays {s t : State} {link : BitVec 2} {inst : BitVec 7} {value : Word} (hn : execSyncInit link inst value s = .next t) : Stays s t := by
  unfold execSyncInit at hn
  injection hn with hn
  subst hn
  have hz0 : Stays s s := Stays.refl s
  repeat' first
    | with_reducible assumption | exact Nat.le_refl _ | exact id | exact Eq.refl _ | intro _ | with_reducible apply Stays.ite | with_reducible apply Stays.ite_fst
    | with_reducible apply ctlWrite_stays | with_reducible apply granCommand_stays
    | (refine Stays.of_eq (by with_reducible assumption) ?_) | (simp only [stays_mk]) | split

theorem shareWrite_stays {z0 s : State} {i : Nat} {upper : Bool} {v : Word} (hz0 : Stays z0 s) : Stays z0 (shareWrite s i upper v) := by
  unfold shareWrite
  repeat' first
    | with_reducible assumption | exact Nat.le_refl _ | exact id | exact Eq.refl _ | intro _ | with_reducible apply Stays.ite | with_reducible apply Stays.ite_fst
    | with_reducible apply State.modGranule_stays
    | (refine Stays.of_eq (by with_reducible assumption) ?_) | (simp only [stays_mk]) | split

theorem execSyncGshareWrite_stays {s t : State} {link : BitVec 2} {inst : BitVec 7} {upper : Bool} {value : Word} (hn : execSyncGshareWrite link inst upper value s = .next t) : Stays s t := by
  unfold execSyncGshareWrite at hn
  injection hn with hn
  subst hn
  have hz0 : Stays s s := Stays.refl s
  repeat' first
    | with_reducible assumption | exact Nat.le_refl _ | exact id | exact Eq.refl _ | intro _ | with_reducible apply Stays.ite | with_reducible apply Stays.ite_fst
    | with_reducible apply ctlWrite_stays | with_reducible apply shareWrite_stays
    | (refine Stays.of_eq (by with_reducible assumption) ?_) | (simp only [stays_mk]) | split

theorem dbIgnored_stays {z0 s : State} {i : Nat} (hz0 : Stays z0 s) : Stays z0 (dbIgnored s i) := by
  unfold dbIgnored
  repeat' first
    | with_reducible assumption | exact Nat.le_refl _ | exact id | exact Eq.refl _ | intro _ | with_reducible apply Stays.ite | with_reducible apply Stays.ite_fst
    | with_reducible apply State.modWin_stays
    | (refine Stays.of_eq (by with_reducible assumption) ?_) | (simp only [stays_mk]) | split

theorem syncDoorbell_stays {z0 s : State} {i : Nat} {v : Word} (hz0 : Stays z0 s) : Stays z0 (syncDoorbell s i v) := by
  unfold syncDoorbell
  repeat' first
    | with_reducible assumption | exact Nat.le_refl _ | exact id | exact Eq.refl _ | intro _ | with_reducible apply Stays.ite | with_reducible apply Stays.ite_fst
    | with_reducible apply dbIgnored_stays | with_reducible apply addCounter_stays | with_reducible apply addSem_stays
    | with_reducible apply State.modWin_stays
    | (refine Stays.of_eq (by with_reducible assumption) ?_) | (simp only [stays_mk]) | split

theorem syncDoorbellAt_stays {s0 s : State} {l i : Nat} {v : Word} (hs0 : Stays s0 s) :
    Stays s0 (syncDoorbellAt s l i v) := by
  have h1 : ∀ a, Stays s0 (ctlDoorbell s l a true [(62, 53)] v (fun s => settle (syncDoorbell s i v))) := fun _ =>
    ctlDoorbell_stays (fun _ h => settle_stays (syncDoorbell_stays h)) hs0
  exact Stays.ite (dbIgnored_stays (h1 _)) (h1 _)

theorem execSyncDoorbell_stays {s t : State} {link : BitVec 2} {inst : BitVec 7} {value : Word} (hn : execSyncDoorbell link inst value s = .next t) : Stays s t := by
  unfold execSyncDoorbell at hn
  injection hn with hn
  subst hn
  have hz0 : Stays s s := Stays.refl s
  repeat' first
    | with_reducible assumption | exact Nat.le_refl _ | exact id | exact Eq.refl _ | intro _ | with_reducible apply Stays.ite | with_reducible apply Stays.ite_fst
    | with_reducible apply syncDoorbellAt_stays
    | (refine Stays.of_eq (by with_reducible assumption) ?_) | (simp only [stays_mk]) | split

theorem reclaim_stays {z0 s : State} {g : Nat} (hz0 : Stays z0 s) : Stays z0 (reclaim s g).1 := by
  unfold reclaim
  repeat' first
    | with_reducible assumption | exact Nat.le_refl _ | exact id | exact Eq.refl _ | intro _ | with_reducible apply Stays.ite | with_reducible apply Stays.ite_fst
    | with_reducible apply State.modInsts_stays | with_reducible apply State.modPlans_stays | with_reducible apply initGranule_stays
    | with_reducible apply State.modGranule_stays | with_reducible apply poolGranule_stays
    | (refine Stays.of_eq (by with_reducible assumption) ?_) | (simp only [stays_mk]) | split

theorem granuleFailed_stays {z0 s : State} {g : Nat} (hz0 : Stays z0 s) : Stays z0 (granuleFailed s g) := by
  unfold granuleFailed
  repeat' first
    | with_reducible assumption | exact Nat.le_refl _ | exact id | exact Eq.refl _ | intro _ | with_reducible apply Stays.ite | with_reducible apply Stays.ite_fst
    | with_reducible apply drawFree_stays | with_reducible apply settle_stays | with_reducible apply orphanGranule_stays
    | with_reducible apply raiseFault_stays
    | (refine Stays.of_eq (by with_reducible assumption) ?_) | (simp only [stays_mk]) | split

theorem execSyncMemoryUe_stays {s t : State} {granule : BitVec 7} (hn : execSyncMemoryUe granule s = .next t) : Stays s t := by
  unfold execSyncMemoryUe at hn
  injection hn with hn
  subst hn
  have hz0 : Stays s s := Stays.refl s
  repeat' first
    | with_reducible assumption | exact Nat.le_refl _ | exact id | exact Eq.refl _ | intro _ | with_reducible apply Stays.ite | with_reducible apply Stays.ite_fst
    | with_reducible apply granuleFailed_stays
    | (refine Stays.of_eq (by with_reducible assumption) ?_) | (simp only [stays_mk]) | split

theorem lullDue_stays {z0 s : State} {q : Nat} (hz0 : Stays z0 s) : Stays z0 (lullDue s q) := by
  unfold lullDue
  repeat' first
    | with_reducible assumption | exact Nat.le_refl _ | exact id | exact Eq.refl _ | intro _ | with_reducible apply Stays.ite | with_reducible apply Stays.ite_fst
    | with_reducible apply beginLull_stays | with_reducible apply State.arriveAt_stays
    | (refine Stays.of_eq (by with_reducible assumption) ?_) | (simp only [stays_mk]) | split

theorem execLullBegin_stays {s t : State} {q : BitVec 19} (hn : execLullBegin q s = .next t) : Stays s t := by
  unfold execLullBegin at hn
  injection hn with hn
  subst hn
  have hz0 : Stays s s := Stays.refl s
  repeat' first
    | with_reducible assumption | exact Nat.le_refl _ | exact id | exact Eq.refl _ | intro _ | with_reducible apply Stays.ite | with_reducible apply Stays.ite_fst
    | with_reducible apply lullDue_stays
    | (refine Stays.of_eq (by with_reducible assumption) ?_) | (simp only [stays_mk]) | split

end Sys2Proof.Machine
end

