-- ==== Sys2Proof/Laws/StaysInstances.lean ====
section
/-! SUPPORT. The operations of Machine/Instances.lean keep what `Stays` names. -/

namespace Sys2Proof.Machine

theorem execMbxInfo_stays {s t : State} {door : Door} {link : BitVec 2} (hn : execMbxInfo door link s = .next t) : Stays s t := by
  unfold execMbxInfo at hn
  injection hn with hn
  subst hn
  have hz0 : Stays s s := Stays.refl s
  repeat' first
    | with_reducible assumption | exact Nat.le_refl _ | exact id | exact Eq.refl _ | intro _ | with_reducible apply Stays.ite | with_reducible apply Stays.ite_fst
    | with_reducible apply mailRow_stays | with_reducible apply mailGate_stays | with_reducible apply answer_stays
    | (refine Stays.of_eq (by with_reducible assumption) ?_) | (simp only [stays_mk]) | split

theorem poolTurn_stays {z0 s : State}  (hz0 : Stays z0 s) : Stays z0 (poolTurn s) := by
  unfold poolTurn
  repeat' first
    | with_reducible assumption | exact Nat.le_refl _ | exact id | exact Eq.refl _ | intro _ | with_reducible apply Stays.ite | with_reducible apply Stays.ite_fst
    | with_reducible apply endLoad_stays
    | (refine Stays.of_eq (by with_reducible assumption) ?_) | (simp only [stays_mk]) | split

theorem execSyncReclaim_stays {s t : State} {door : Door} {link : BitVec 2} (hn : execSyncReclaim door link s = .next t) : Stays s t := by
  unfold execSyncReclaim at hn
  injection hn with hn
  subst hn
  have hz0 : Stays s s := Stays.refl s
  repeat' first
    | with_reducible assumption | exact Nat.le_refl _ | exact id | exact Eq.refl _ | intro _ | with_reducible apply Stays.ite | with_reducible apply Stays.ite_fst
    | with_reducible apply mailRow_stays | with_reducible apply mailGate_stays | with_reducible apply answerSt_stays
    | with_reducible apply reclaim_stays | with_reducible apply poolTurn_stays
    | (refine Stays.of_eq (by with_reducible assumption) ?_) | (simp only [stays_mk]) | split

theorem createInst_stays {z0 s : State} {d : Door} (hz0 : Stays z0 s) : Stays z0 (createInst s d) := by
  unfold createInst
  repeat' first
    | with_reducible assumption | exact Nat.le_refl _ | exact id | exact Eq.refl _ | intro _ | with_reducible apply Stays.ite | with_reducible apply Stays.ite_fst
    | with_reducible apply countGranules_stays | with_reducible apply forEach_stays | with_reducible apply poolGranule_stays
    | with_reducible apply State.modGranule_stays | with_reducible apply State.modInst_stays | with_reducible apply newGeneration_stays
    | (refine Stays.of_eq (by with_reducible assumption) ?_) | (simp only [stays_mk]) | split

theorem runCreate_stays {z0 s : State} {d : Door} (hz0 : Stays z0 s) : Stays z0 (runCreate s d) := by
  unfold runCreate
  repeat' first
    | with_reducible assumption | exact Nat.le_refl _ | exact id | exact Eq.refl _ | intro _ | with_reducible apply Stays.ite | with_reducible apply Stays.ite_fst
    | with_reducible apply poolTurn_stays | with_reducible apply answer_stays | with_reducible apply createInst_stays
    | (refine Stays.of_eq (by with_reducible assumption) ?_) | (simp only [stays_mk]) | split

theorem execInstCreate_stays {s t : State} {door : Door} {link : BitVec 2} (hn : execInstCreate door link s = .next t) : Stays s t := by
  unfold execInstCreate at hn
  injection hn with hn
  subst hn
  have hz0 : Stays s s := Stays.refl s
  repeat' first
    | with_reducible assumption | exact Nat.le_refl _ | exact id | exact Eq.refl _ | intro _ | with_reducible apply Stays.ite | with_reducible apply Stays.ite_fst
    | with_reducible apply mailRow_stays | with_reducible apply mailGate_stays | with_reducible apply runCreate_stays
    | (refine Stays.of_eq (by with_reducible assumption) ?_) | (simp only [stays_mk]) | split

theorem onInst_stays {z0 s : State} {i : Nat} {f : InstState → State × Nat} (h_f : ∀ x1, Stays z0 (f x1).1) (hz0 : Stays z0 s) : Stays z0 (onInst s i f).1 := by
  unfold onInst
  repeat' first
    | with_reducible assumption | exact Nat.le_refl _ | exact id | exact Eq.refl _ | intro _ | with_reducible apply Stays.ite | with_reducible apply Stays.ite_fst
    | with_reducible apply h_f
    | (refine Stays.of_eq (by with_reducible assumption) ?_) | (simp only [stays_mk]) | split

theorem calmInst_stays {z0 s : State} {i : Nat} (hz0 : Stays z0 s) : Stays z0 (calmInst s i).1 := by
  unfold calmInst
  repeat' first
    | with_reducible assumption | exact Nat.le_refl _ | exact id | exact Eq.refl _ | intro _ | with_reducible apply Stays.ite | with_reducible apply Stays.ite_fst
    | with_reducible apply onInst_stays | with_reducible apply settleSteps_stays | with_reducible apply enterCalming_stays
    | (refine Stays.of_eq (by with_reducible assumption) ?_) | (simp only [stays_mk]) | split

theorem execInstCalm_stays {s t : State} {door : Door} {link : BitVec 2} (hn : execInstCalm door link s = .next t) : Stays s t := by
  unfold execInstCalm at hn
  injection hn with hn
  subst hn
  have hz0 : Stays s s := Stays.refl s
  repeat' first
    | with_reducible assumption | exact Nat.le_refl _ | exact id | exact Eq.refl _ | intro _ | with_reducible apply Stays.ite | with_reducible apply Stays.ite_fst
    | with_reducible apply mailRow_stays | with_reducible apply mailGate_stays | with_reducible apply answerSt_stays
    | with_reducible apply calmInst_stays
    | (refine Stays.of_eq (by with_reducible assumption) ?_) | (simp only [stays_mk]) | split

theorem resetInst_stays {z0 s : State} {i : Nat} (hz0 : Stays z0 s) : Stays z0 (resetInst s i).1 := by
  unfold resetInst
  repeat' first
    | with_reducible assumption | exact Nat.le_refl _ | exact id | exact Eq.refl _ | intro _ | with_reducible apply Stays.ite | with_reducible apply Stays.ite_fst
    | with_reducible apply onInst_stays | with_reducible apply settleSteps_stays | with_reducible apply beginReset_stays
    | (refine Stays.of_eq (by with_reducible assumption) ?_) | (simp only [stays_mk]) | split

theorem execInstReset_stays {s t : State} {door : Door} {link : BitVec 2} (hn : execInstReset door link s = .next t) : Stays s t := by
  unfold execInstReset at hn
  injection hn with hn
  subst hn
  have hz0 : Stays s s := Stays.refl s
  repeat' first
    | with_reducible assumption | exact Nat.le_refl _ | exact id | exact Eq.refl _ | intro _ | with_reducible apply Stays.ite | with_reducible apply Stays.ite_fst
    | with_reducible apply mailRow_stays | with_reducible apply mailGate_stays | with_reducible apply answerSt_stays
    | with_reducible apply resetInst_stays | with_reducible apply poolTurn_stays
    | (refine Stays.of_eq (by with_reducible assumption) ?_) | (simp only [stays_mk]) | split

theorem removeInst_stays {z0 s : State} {i : Nat} (hz0 : Stays z0 s) : Stays z0 (removeInst s i).1 := by
  unfold removeInst
  repeat' first
    | with_reducible assumption | exact Nat.le_refl _ | exact id | exact Eq.refl _ | intro _ | with_reducible apply Stays.ite | with_reducible apply Stays.ite_fst
    | with_reducible apply onInst_stays | with_reducible apply settleSteps_stays | with_reducible apply enterCalming_stays
    | (refine Stays.of_eq (by with_reducible assumption) ?_) | (simp only [stays_mk]) | split

theorem execInstRemove_stays {s t : State} {door : Door} {link : BitVec 2} (hn : execInstRemove door link s = .next t) : Stays s t := by
  unfold execInstRemove at hn
  injection hn with hn
  subst hn
  have hz0 : Stays s s := Stays.refl s
  repeat' first
    | with_reducible assumption | exact Nat.le_refl _ | exact id | exact Eq.refl _ | intro _ | with_reducible apply Stays.ite | with_reducible apply Stays.ite_fst
    | with_reducible apply mailRow_stays | with_reducible apply mailGate_stays | with_reducible apply answerSt_stays
    | with_reducible apply removeInst_stays | with_reducible apply poolTurn_stays
    | (refine Stays.of_eq (by with_reducible assumption) ?_) | (simp only [stays_mk]) | split

theorem execInstDrainBound_stays {s t : State} {inst : BitVec 7} (hn : execInstDrainBound inst s = .next t) : Stays s t := by
  unfold execInstDrainBound at hn
  injection hn with hn
  subst hn
  have hz0 : Stays s s := Stays.refl s
  repeat' first
    | with_reducible assumption | exact Nat.le_refl _ | exact id | exact Eq.refl _ | intro _ | with_reducible apply Stays.ite | with_reducible apply Stays.ite_fst
    | with_reducible apply settleSteps_stays | with_reducible apply instDrained_stays
    | (refine Stays.of_eq (by with_reducible assumption) ?_) | (simp only [stays_mk]) | split

theorem execInstZeroingComplete_stays {s t : State} {inst : BitVec 7} (hn : execInstZeroingComplete inst s = .next t) : Stays s t := by
  unfold execInstZeroingComplete at hn
  injection hn with hn
  subst hn
  have hz0 : Stays s s := Stays.refl s
  repeat' first
    | with_reducible assumption | exact Nat.le_refl _ | exact id | exact Eq.refl _ | intro _ | with_reducible apply Stays.ite | with_reducible apply Stays.ite_fst
    | with_reducible apply instZeroed_stays
    | (refine Stays.of_eq (by with_reducible assumption) ?_) | (simp only [stays_mk]) | split

end Sys2Proof.Machine
end

