-- ==== Sys2Proof/Laws/StaysBootOps.lean ====
section
/-! SUPPORT. The operations of Machine/BootOps.lean keep what `Stays` names. -/

namespace Sys2Proof.Machine

theorem repairBad_stays {z0 s : State}  (hz0 : Stays z0 s) : Stays z0 (repairBad s) := by
  unfold repairBad
  repeat' first
    | with_reducible assumption | exact Nat.le_refl _ | exact id | exact Eq.refl _ | intro _ | with_reducible apply Stays.ite | with_reducible apply Stays.ite_fst
    | with_reducible apply forEach_stays | with_reducible apply repairRow_stays
    | (refine Stays.of_eq (by with_reducible assumption) ?_) | (simp only [stays_mk]) | split

theorem coldState_stays {s0 s : State} (h : Stays s0 s) : Stays s0 (coldState s) := by
  have hc : Stays s0 (repairBad (countGranules s)) := repairBad_stays (countGranules_stays h)
  unfold coldState
  generalize repairBad (countGranules s) = s1 at hc ⊢
  exact hc.trans ⟨rfl, fun x => ⟨reset_mem_wf, x.2.1, x.2.2.1, x.2.2.2.1, x.2.2.2.2⟩, FusesKept.refl s1⟩

theorem warmLink_stays {z0 s : State} {l : Nat} (hz0 : Stays z0 s) : Stays z0 (warmLink s l) := by
  unfold warmLink
  repeat' first
    | with_reducible assumption | exact Nat.le_refl _ | exact id | exact Eq.refl _ | intro _ | with_reducible apply Stays.ite | with_reducible apply Stays.ite_fst
    | with_reducible apply State.modLink_stays | with_reducible apply raiseFault_stays
    | (refine Stays.of_eq (by with_reducible assumption) ?_) | (simp only [stays_mk]) | split

theorem warmInst_stays {z0 s : State} {i : Nat} (hz0 : Stays z0 s) : Stays z0 (warmInst s i) := by
  unfold warmInst
  repeat' first
    | with_reducible assumption | exact Nat.le_refl _ | exact id | exact Eq.refl _ | intro _ | with_reducible apply Stays.ite | with_reducible apply Stays.ite_fst
    | with_reducible apply finalRecord_stays | with_reducible apply forEach_stays | with_reducible apply hbmZero_stays
    | (refine Stays.of_eq (by with_reducible assumption) ?_) | (simp only [stays_mk]) | split

theorem warmCouch_stays {z0 s : State} {r : Nat} (hz0 : Stays z0 s) : Stays z0 (warmCouch s r) := by
  unfold warmCouch
  repeat' first
    | with_reducible assumption | exact Nat.le_refl _ | exact id | exact Eq.refl _ | intro _ | with_reducible apply Stays.ite | with_reducible apply Stays.ite_fst
    | with_reducible apply couchFail_stays
    | (refine Stays.of_eq (by with_reducible assumption) ?_) | (simp only [stays_mk]) | split

theorem warmState_stays {z0 s : State}  (hz0 : Stays z0 s) : Stays z0 (warmState s) := by
  unfold warmState
  repeat' first
    | with_reducible assumption | exact Nat.le_refl _ | exact id | exact Eq.refl _ | intro _ | with_reducible apply Stays.ite | with_reducible apply Stays.ite_fst
    | with_reducible apply forEach_stays | with_reducible apply countGranules_stays | with_reducible apply warmInst_stays
    | with_reducible apply warmCouch_stays | with_reducible apply warmLink_stays
    | (refine Stays.of_eq (by with_reducible assumption) ?_) | (simp only [stays_mk]) | split

theorem haltBoot_stays {z0 s : State} {step : Nat} (hz0 : Stays z0 s) : Stays z0 (haltBoot s step) := by
  unfold haltBoot
  repeat' first
    | with_reducible assumption | exact Nat.le_refl _ | exact id | exact Eq.refl _ | intro _ | with_reducible apply Stays.ite | with_reducible apply Stays.ite_fst
    | with_reducible apply State.modBoot_stays
    | (refine Stays.of_eq (by with_reducible assumption) ?_) | (simp only [stays_mk]) | split

theorem linkPhase_stays {z0 s : State}  (hz0 : Stays z0 s) : Stays z0 (linkPhase s) := by
  unfold linkPhase
  repeat' first
    | with_reducible assumption | exact Nat.le_refl _ | exact id | exact Eq.refl _ | intro _ | with_reducible apply Stays.ite | with_reducible apply Stays.ite_fst
    | with_reducible apply forEach_stays | with_reducible apply boardTrain_stays | with_reducible apply startTraining_stays
    | (refine Stays.of_eq (by with_reducible assumption) ?_) | (simp only [stays_mk]) | split

theorem imageGood_stays {z0 s : State} {b : List Byte} (hz0 : Stays z0 s) : Stays z0 (imageGood s b) := by
  unfold imageGood
  repeat' first
    | with_reducible assumption | exact Nat.le_refl _ | exact id | exact Eq.refl _ | intro _ | with_reducible apply Stays.ite | with_reducible apply Stays.ite_fst
    | with_reducible apply State.modBoot_stays | with_reducible apply linkPhase_stays | with_reducible apply State.arriveAt_stays
    | (refine Stays.of_eq (by with_reducible assumption) ?_) | (simp only [stays_mk]) | split

theorem readFlash_stays {z0 s : State}  (hz0 : Stays z0 s) : Stays z0 (readFlash s) := by
  unfold readFlash
  repeat' first
    | with_reducible assumption | exact Nat.le_refl _ | exact id | exact Eq.refl _ | intro _ | with_reducible apply Stays.ite | with_reducible apply Stays.ite_fst
    | with_reducible apply State.modBoot_stays | with_reducible apply haltBoot_stays | with_reducible apply imageGood_stays
    | (refine Stays.of_eq (by with_reducible assumption) ?_) | (simp only [stays_mk]) | split

theorem repairFlash_stays {z0 s : State}  (hz0 : Stays z0 s) : Stays z0 (repairFlash s) := by
  unfold repairFlash
  repeat' first
    | with_reducible assumption | exact Nat.le_refl _ | exact id | exact Eq.refl _ | intro _ | with_reducible apply Stays.ite | with_reducible apply Stays.ite_fst
    | with_reducible apply State.modBoot_stays
    | (refine Stays.of_eq (by with_reducible assumption) ?_) | (simp only [stays_mk]) | split

theorem beginBoot_stays {z0 s : State}  (hz0 : Stays z0 s) : Stays z0 (beginBoot s) := by
  unfold beginBoot
  repeat' first
    | with_reducible assumption | exact Nat.le_refl _ | exact id | exact Eq.refl _ | intro _ | with_reducible apply Stays.ite | with_reducible apply Stays.ite_fst
    | with_reducible apply State.modBoot_stays | with_reducible apply readFlash_stays | with_reducible apply repairFlash_stays
    | (refine Stays.of_eq (by with_reducible assumption) ?_) | (simp only [stays_mk]) | split

theorem released_stays {z0 s : State}  (hz0 : Stays z0 s) : Stays z0 (released s) := by
  unfold released
  repeat' first
    | with_reducible assumption | exact Nat.le_refl _ | exact id | exact Eq.refl _ | intro _ | with_reducible apply Stays.ite | with_reducible apply Stays.ite_fst
    | with_reducible apply beginBoot_stays
    | (refine Stays.of_eq (by with_reducible assumption) ?_) | (simp only [stays_mk]) | split

theorem warmAsserted_stays {s0 s : State} (h : Stays s0 s) : Stays s0 (warmAsserted s) := by
  unfold warmAsserted
  have h1 := warmState_stays h
  have h2 := coldState_stays h
  generalize warmState s = a at h1
  generalize coldState s = b at h2
  split
  · exact h1.trans ⟨rfl, id, FusesKept.refl a⟩
  · split
    · exact h1.trans ⟨rfl, id, FusesKept.refl a⟩
    · exact h2.trans ⟨rfl, id, FusesKept.refl b⟩
  · exact h
  · exact h

theorem warmRouting_stays {z0 s : State}  (hz0 : Stays z0 s) : Stays z0 (warmRouting s) := by
  unfold warmRouting
  repeat' first
    | with_reducible assumption | exact Nat.le_refl _ | exact id | exact Eq.refl _ | intro _ | with_reducible apply Stays.ite | with_reducible apply Stays.ite_fst
    | with_reducible apply moveInjection_stays | with_reducible apply State.modRouting_stays | with_reducible apply forEach_stays
    | with_reducible apply State.modBank_stays
    | (refine Stays.of_eq (by with_reducible assumption) ?_) | (simp only [stays_mk]) | split

theorem warmClaim_stays {z0 s : State} {c : Claim} (hz0 : Stays z0 s) : Stays z0 (warmClaim s c) := by
  unfold warmClaim
  repeat' first
    | with_reducible assumption | exact Nat.le_refl _ | exact id | exact Eq.refl _ | intro _ | with_reducible apply Stays.ite | with_reducible apply Stays.ite_fst
    | with_reducible apply forEach_stays | with_reducible apply initGranule_stays
    | (refine Stays.of_eq (by with_reducible assumption) ?_) | (simp only [stays_mk]) | split

theorem warmPlans_stays {z0 s : State}  (hz0 : Stays z0 s) : Stays z0 (warmPlans s) := by
  unfold warmPlans
  repeat' first
    | with_reducible assumption | exact Nat.le_refl _ | exact id | exact Eq.refl _ | intro _ | with_reducible apply Stays.ite | with_reducible apply Stays.ite_fst
    | with_reducible apply recheckPlans_stays | with_reducible apply forEach_stays | with_reducible apply warmClaim_stays
    | with_reducible apply startBuckets_stays | with_reducible apply takeDescriptor_stays
    | (refine Stays.of_eq (by with_reducible assumption) ?_) | (simp only [stays_mk]) | split

theorem enterService_stays {z0 s : State} (hz0 : Stays z0 s) : Stays z0 (enterService s) :=
  newGeneration_stays (State.modPlans_stays (State.modPwr_stays (hz0.trans ⟨rfl, id, FusesKept.refl s⟩)))

theorem initHbm_stays {z0 s : State} (hz0 : Stays z0 s) : Stays z0 (initHbm s) :=
  hz0.mem_only rfl (fun _ => rfl) rfl rfl rfl rfl rfl rfl

theorem endBoot_stays {z0 s : State}  (hz0 : Stays z0 s) : Stays z0 (endBoot s) := by
  unfold endBoot
  repeat' first
    | with_reducible assumption | exact Nat.le_refl _ | exact id | exact Eq.refl _ | intro _ | with_reducible apply Stays.ite | with_reducible apply Stays.ite_fst
    | with_reducible apply settleSteps_stays | with_reducible apply warmPlans_stays | with_reducible apply warmRouting_stays
    | with_reducible apply enterService_stays | with_reducible apply State.arriveAt_stays | with_reducible apply initHbm_stays
    | (refine Stays.of_eq (by with_reducible assumption) ?_) | (simp only [stays_mk]) | split

end Sys2Proof.Machine
end

