-- ==== Sys2Proof/Laws/StaysBoot.lean ====
section
/-! SUPPORT. The operations of Machine/Boot.lean keep what `Stays` names. -/

namespace Sys2Proof.Machine

theorem coldPins_stays {z0 s : State} {f : Pins → Pins} (hz0 : Stays z0 s) : Stays z0 (coldPins s f) := by
  unfold coldPins
  repeat' first
    | with_reducible assumption | exact Nat.le_refl _ | exact id | exact Eq.refl _ | intro _ | with_reducible apply Stays.ite | with_reducible apply Stays.ite_fst
    | with_reducible apply coldState_stays
    | (refine Stays.of_eq (by with_reducible assumption) ?_) | (simp only [stays_mk]) | split

theorem porstReleased_stays {z0 s : State} {flash : Flash} {strap : Nat} (hz0 : Stays z0 s) : Stays z0 (porstReleased s flash strap) := by
  unfold porstReleased
  repeat' first
    | with_reducible assumption | exact Nat.le_refl _ | exact id | exact Eq.refl _ | intro _ | with_reducible apply Stays.ite | with_reducible apply Stays.ite_fst
    | with_reducible apply coldPins_stays | with_reducible apply State.modBoot_stays | with_reducible apply released_stays
    | (refine Stays.of_eq (by with_reducible assumption) ?_) | (simp only [stays_mk]) | split

theorem execPorstNRelease_stays {s t : State} {flash : Flash} {strap : BitVec 2} (hn : execPorstNRelease flash strap s = .next t) : Stays s t := by
  unfold execPorstNRelease at hn
  injection hn with hn
  subst hn
  have hz0 : Stays s s := Stays.refl s
  repeat' first
    | with_reducible assumption | exact Nat.le_refl _ | exact id | exact Eq.refl _ | intro _ | with_reducible apply Stays.ite | with_reducible apply Stays.ite_fst
    | with_reducible apply porstReleased_stays
    | (refine Stays.of_eq (by with_reducible assumption) ?_) | (simp only [stays_mk]) | split

theorem porstAsserted_stays {z0 s : State} {lowNs : Nat} (hz0 : Stays z0 s) : Stays z0 (porstAsserted s lowNs) := by
  unfold porstAsserted
  repeat' first
    | with_reducible assumption | exact Nat.le_refl _ | exact id | exact Eq.refl _ | intro _ | with_reducible apply Stays.ite | with_reducible apply Stays.ite_fst
    | with_reducible apply coldPins_stays
    | (refine Stays.of_eq (by with_reducible assumption) ?_) | (simp only [stays_mk]) | split

theorem execPorstNAssert_stays {s t : State} {lowNs : Nat} (hn : execPorstNAssert lowNs s = .next t) : Stays s t := by
  unfold execPorstNAssert at hn
  injection hn with hn
  subst hn
  have hz0 : Stays s s := Stays.refl s
  repeat' first
    | with_reducible assumption | exact Nat.le_refl _ | exact id | exact Eq.refl _ | intro _ | with_reducible apply Stays.ite | with_reducible apply Stays.ite_fst
    | with_reducible apply porstAsserted_stays
    | (refine Stays.of_eq (by with_reducible assumption) ?_) | (simp only [stays_mk]) | split

theorem retryFlash_stays {z0 s : State} {flash : Flash} (hz0 : Stays z0 s) : Stays z0 (retryFlash s flash) := by
  unfold retryFlash
  repeat' first
    | with_reducible assumption | exact Nat.le_refl _ | exact id | exact Eq.refl _ | intro _ | with_reducible apply Stays.ite | with_reducible apply Stays.ite_fst
    | with_reducible apply State.arriveAt_stays | with_reducible apply readFlash_stays | with_reducible apply State.modBoot_stays
    | (refine Stays.of_eq (by with_reducible assumption) ?_) | (simp only [stays_mk]) | split

theorem execFlashRetry_stays {s t : State} {flash : Flash} (hn : execFlashRetry flash s = .next t) : Stays s t := by
  unfold execFlashRetry at hn
  injection hn with hn
  subst hn
  have hz0 : Stays s s := Stays.refl s
  repeat' first
    | with_reducible assumption | exact Nat.le_refl _ | exact id | exact Eq.refl _ | intro _ | with_reducible apply Stays.ite | with_reducible apply Stays.ite_fst
    | with_reducible apply retryFlash_stays
    | (refine Stays.of_eq (by with_reducible assumption) ?_) | (simp only [stays_mk]) | split

theorem execBootComplete_stays {s t : State} (hn : execBootComplete s = .next t) : Stays s t := by
  unfold execBootComplete at hn
  injection hn with hn
  subst hn
  have hz0 : Stays s s := Stays.refl s
  repeat' first
    | with_reducible assumption | exact Nat.le_refl _ | exact id | exact Eq.refl _ | intro _ | with_reducible apply Stays.ite | with_reducible apply Stays.ite_fst
    | with_reducible apply endBoot_stays
    | (refine Stays.of_eq (by with_reducible assumption) ?_) | (simp only [stays_mk]) | split

theorem wrstAsserted_stays {z0 s : State}  (hz0 : Stays z0 s) : Stays z0 (wrstAsserted s) := by
  unfold wrstAsserted
  repeat' first
    | with_reducible assumption | exact Nat.le_refl _ | exact id | exact Eq.refl _ | intro _ | with_reducible apply Stays.ite | with_reducible apply Stays.ite_fst
    | with_reducible apply warmAsserted_stays
    | (refine Stays.of_eq (by with_reducible assumption) ?_) | (simp only [stays_mk]) | split

theorem execWrstNAssert_stays {s t : State} (hn : execWrstNAssert s = .next t) : Stays s t := by
  unfold execWrstNAssert at hn
  injection hn with hn
  subst hn
  have hz0 : Stays s s := Stays.refl s
  repeat' first
    | with_reducible assumption | exact Nat.le_refl _ | exact id | exact Eq.refl _ | intro _ | with_reducible apply Stays.ite | with_reducible apply Stays.ite_fst
    | with_reducible apply wrstAsserted_stays
    | (refine Stays.of_eq (by with_reducible assumption) ?_) | (simp only [stays_mk]) | split

theorem wrstReleased_stays {z0 s : State}  (hz0 : Stays z0 s) : Stays z0 (wrstReleased s) := by
  unfold wrstReleased
  repeat' first
    | with_reducible assumption | exact Nat.le_refl _ | exact id | exact Eq.refl _ | intro _ | with_reducible apply Stays.ite | with_reducible apply Stays.ite_fst
    | with_reducible apply released_stays
    | (refine Stays.of_eq (by with_reducible assumption) ?_) | (simp only [stays_mk]) | split

theorem execWrstNRelease_stays {s t : State} (hn : execWrstNRelease s = .next t) : Stays s t := by
  unfold execWrstNRelease at hn
  injection hn with hn
  subst hn
  have hz0 : Stays s s := Stays.refl s
  repeat' first
    | with_reducible assumption | exact Nat.le_refl _ | exact id | exact Eq.refl _ | intro _ | with_reducible apply Stays.ite | with_reducible apply Stays.ite_fst
    | with_reducible apply wrstReleased_stays
    | (refine Stays.of_eq (by with_reducible assumption) ?_) | (simp only [stays_mk]) | split

theorem railLost_stays {z0 s : State}  (hz0 : Stays z0 s) : Stays z0 (railLost s) := by
  unfold railLost
  repeat' first
    | with_reducible assumption | exact Nat.le_refl _ | exact id | exact Eq.refl _ | intro _ | with_reducible apply Stays.ite | with_reducible apply Stays.ite_fst
    | with_reducible apply coldPins_stays
    | (refine Stays.of_eq (by with_reducible assumption) ?_) | (simp only [stays_mk]) | split

theorem execRailLoss_stays {s t : State} (hn : execRailLoss s = .next t) : Stays s t := by
  unfold execRailLoss at hn
  injection hn with hn
  subst hn
  have hz0 : Stays s s := Stays.refl s
  repeat' first
    | with_reducible assumption | exact Nat.le_refl _ | exact id | exact Eq.refl _ | intro _ | with_reducible apply Stays.ite | with_reducible apply Stays.ite_fst
    | with_reducible apply railLost_stays
    | (refine Stays.of_eq (by with_reducible assumption) ?_) | (simp only [stays_mk]) | split

theorem refclkStops_stays {z0 s : State}  (hz0 : Stays z0 s) : Stays z0 (refclkStops s) := by
  unfold refclkStops
  repeat' first
    | with_reducible assumption | exact Nat.le_refl _ | exact id | exact Eq.refl _ | intro _ | with_reducible apply Stays.ite | with_reducible apply Stays.ite_fst
    | with_reducible apply warmAsserted_stays
    | (refine Stays.of_eq (by with_reducible assumption) ?_) | (simp only [stays_mk]) | split

theorem execRefclkSysLoss_stays {s t : State} (hn : execRefclkSysLoss s = .next t) : Stays s t := by
  unfold execRefclkSysLoss at hn
  injection hn with hn
  subst hn
  have hz0 : Stays s s := Stays.refl s
  repeat' first
    | with_reducible assumption | exact Nat.le_refl _ | exact id | exact Eq.refl _ | intro _ | with_reducible apply Stays.ite | with_reducible apply Stays.ite_fst
    | with_reducible apply refclkStops_stays
    | (refine Stays.of_eq (by with_reducible assumption) ?_) | (simp only [stays_mk]) | split

theorem refclkReturns_stays {z0 s : State}  (hz0 : Stays z0 s) : Stays z0 (refclkReturns s) := by
  unfold refclkReturns
  repeat' first
    | with_reducible assumption | exact Nat.le_refl _ | exact id | exact Eq.refl _ | intro _ | with_reducible apply Stays.ite | with_reducible apply Stays.ite_fst
    | with_reducible apply released_stays
    | (refine Stays.of_eq (by with_reducible assumption) ?_) | (simp only [stays_mk]) | split

theorem execRefclkSysRecovery_stays {s t : State} (hn : execRefclkSysRecovery s = .next t) : Stays s t := by
  unfold execRefclkSysRecovery at hn
  injection hn with hn
  subst hn
  have hz0 : Stays s s := Stays.refl s
  repeat' first
    | with_reducible assumption | exact Nat.le_refl _ | exact id | exact Eq.refl _ | intro _ | with_reducible apply Stays.ite | with_reducible apply Stays.ite_fst
    | with_reducible apply refclkReturns_stays
    | (refine Stays.of_eq (by with_reducible assumption) ?_) | (simp only [stays_mk]) | split

theorem tripped_stays {z0 s : State}  (hz0 : Stays z0 s) : Stays z0 (tripped s) := by
  unfold tripped
  repeat' first
    | with_reducible assumption | exact Nat.le_refl _ | exact id | exact Eq.refl _ | intro _ | with_reducible apply Stays.ite | with_reducible apply Stays.ite_fst
    | with_reducible apply coldPins_stays
    | (refine Stays.of_eq (by with_reducible assumption) ?_) | (simp only [stays_mk]) | split

theorem execThermalTrip_stays {s t : State} (hn : execThermalTrip s = .next t) : Stays s t := by
  unfold execThermalTrip at hn
  injection hn with hn
  subst hn
  have hz0 : Stays s s := Stays.refl s
  repeat' first
    | with_reducible assumption | exact Nat.le_refl _ | exact id | exact Eq.refl _ | intro _ | with_reducible apply Stays.ite | with_reducible apply Stays.ite_fst
    | with_reducible apply tripped_stays
    | (refine Stays.of_eq (by with_reducible assumption) ?_) | (simp only [stays_mk]) | split

theorem stageRefused_stays {z0 s : State} {d : Door} {step : Nat} (hz0 : Stays z0 s) : Stays z0 (stageRefused s d step) := by
  unfold stageRefused
  repeat' first
    | with_reducible assumption | exact Nat.le_refl _ | exact id | exact Eq.refl _ | intro _ | with_reducible apply Stays.ite | with_reducible apply Stays.ite_fst
    | with_reducible apply answer_stays
    | (refine Stays.of_eq (by with_reducible assumption) ?_) | (simp only [stays_mk]) | split

theorem stageLoad_stays {z0 s : State} {d : Door} (hz0 : Stays z0 s) : Stays z0 (stageLoad s d) := by
  unfold stageLoad
  repeat' first
    | with_reducible assumption | exact Nat.le_refl _ | exact id | exact Eq.refl _ | intro _ | with_reducible apply Stays.ite | with_reducible apply Stays.ite_fst
    | with_reducible apply answer_stays | with_reducible apply stageRefused_stays | with_reducible apply hbmRead_stays
    | with_reducible apply State.modBoot_stays
    | (refine Stays.of_eq (by with_reducible assumption) ?_) | (simp only [stays_mk]) | split

theorem stageRow_stays {z0 s : State} {d : Door} {l : Nat} {op : Nat} {run : State → State} (h_run : ∀ s, Stays z0 s → Stays z0 (run s)) (hz0 : Stays z0 s) : Stays z0 (stageRow s d l op run) := by
  unfold stageRow
  repeat' first
    | with_reducible assumption | exact Nat.le_refl _ | exact id | exact Eq.refl _ | intro _ | with_reducible apply Stays.ite | with_reducible apply Stays.ite_fst
    | with_reducible apply mailRow_stays | with_reducible apply mailGate_stays | with_reducible apply h_run
    | (refine Stays.of_eq (by with_reducible assumption) ?_) | (simp only [stays_mk]) | split

theorem execFwStageLoad_stays {s t : State} {door : Door} {link : BitVec 2} (hn : execFwStageLoad door link s = .next t) : Stays s t := by
  unfold execFwStageLoad at hn
  injection hn with hn
  subst hn
  have hz0 : Stays s s := Stays.refl s
  repeat' first
    | with_reducible assumption | exact Nat.le_refl _ | exact id | exact Eq.refl _ | intro _ | with_reducible apply Stays.ite | with_reducible apply Stays.ite_fst
    | with_reducible apply stageRow_stays | with_reducible apply stageLoad_stays
    | (refine Stays.of_eq (by with_reducible assumption) ?_) | (simp only [stays_mk]) | split

theorem stageCommit_stays {z0 s : State}  (hz0 : Stays z0 s) : Stays z0 (stageCommit s).1 := by
  unfold stageCommit
  repeat' first
    | with_reducible assumption | exact Nat.le_refl _ | exact id | exact Eq.refl _ | intro _ | with_reducible apply Stays.ite | with_reducible apply Stays.ite_fst
    | with_reducible apply State.modBoot_stays
    | (refine Stays.of_eq (by with_reducible assumption) ?_) | (simp only [stays_mk]) | split

theorem execFwStageCommit_stays {s t : State} {door : Door} {link : BitVec 2} (hn : execFwStageCommit door link s = .next t) : Stays s t := by
  unfold execFwStageCommit at hn
  injection hn with hn
  subst hn
  have hz0 : Stays s s := Stays.refl s
  repeat' first
    | with_reducible assumption | exact Nat.le_refl _ | exact id | exact Eq.refl _ | intro _ | with_reducible apply Stays.ite | with_reducible apply Stays.ite_fst
    | with_reducible apply stageRow_stays | with_reducible apply answerSt_stays | with_reducible apply stageCommit_stays
    | (refine Stays.of_eq (by with_reducible assumption) ?_) | (simp only [stays_mk]) | split

theorem stageAbort_stays {z0 s : State}  (hz0 : Stays z0 s) : Stays z0 (stageAbort s).1 := by
  unfold stageAbort
  repeat' first
    | with_reducible assumption | exact Nat.le_refl _ | exact id | exact Eq.refl _ | intro _ | with_reducible apply Stays.ite | with_reducible apply Stays.ite_fst
    | with_reducible apply State.modBoot_stays
    | (refine Stays.of_eq (by with_reducible assumption) ?_) | (simp only [stays_mk]) | split

theorem execFwStageAbort_stays {s t : State} {door : Door} {link : BitVec 2} (hn : execFwStageAbort door link s = .next t) : Stays s t := by
  unfold execFwStageAbort at hn
  injection hn with hn
  subst hn
  have hz0 : Stays s s := Stays.refl s
  repeat' first
    | with_reducible assumption | exact Nat.le_refl _ | exact id | exact Eq.refl _ | intro _ | with_reducible apply Stays.ite | with_reducible apply Stays.ite_fst
    | with_reducible apply stageRow_stays | with_reducible apply answerSt_stays | with_reducible apply stageAbort_stays
    | (refine Stays.of_eq (by with_reducible assumption) ?_) | (simp only [stays_mk]) | split

theorem stageAdvance_stays {s0 s : State} {svn : Nat} (h : Stays s0 s) : Stays s0 (stageAdvance s svn).1 := by
  unfold stageAdvance
  dsimp only
  split
  · exact h
  · next hc => refine State.modBoot_stays (f := fun b => { b with fuseSvn := svn }) h ?_ id rfl; simp only [not_or] at hc; dsimp only; omega

theorem execFwStageAdvance_stays {s t : State} {door : Door} {link : BitVec 2} (hn : execFwStageAdvance door link s = .next t) : Stays s t := by
  unfold execFwStageAdvance at hn
  injection hn with hn
  subst hn
  have hz0 : Stays s s := Stays.refl s
  repeat' first
    | with_reducible assumption | exact Nat.le_refl _ | exact id | exact Eq.refl _ | intro _ | with_reducible apply Stays.ite | with_reducible apply Stays.ite_fst
    | with_reducible apply stageRow_stays | with_reducible apply answerSt_stays | with_reducible apply stageAdvance_stays
    | (refine Stays.of_eq (by with_reducible assumption) ?_) | (simp only [stays_mk]) | split

theorem flashWritten_stays {z0 s : State} {ok : Bool} (hz0 : Stays z0 s) : Stays z0 (flashWritten s ok) := by
  unfold flashWritten
  repeat' first
    | with_reducible assumption | exact Nat.le_refl _ | exact id | exact Eq.refl _ | intro _ | with_reducible apply Stays.ite | with_reducible apply Stays.ite_fst
    | with_reducible apply State.modBoot_stays
    | (refine Stays.of_eq (by with_reducible assumption) ?_) | (simp only [stays_mk]) | split

theorem execFlashWriteComplete_stays {s t : State} {readBack : Bool} (hn : execFlashWriteComplete readBack s = .next t) : Stays s t := by
  unfold execFlashWriteComplete at hn
  injection hn with hn
  subst hn
  have hz0 : Stays s s := Stays.refl s
  repeat' first
    | with_reducible assumption | exact Nat.le_refl _ | exact id | exact Eq.refl _ | intro _ | with_reducible apply Stays.ite | with_reducible apply Stays.ite_fst
    | with_reducible apply flashWritten_stays
    | (refine Stays.of_eq (by with_reducible assumption) ?_) | (simp only [stays_mk]) | split

theorem execFwQuery_stays {s t : State} {door : Door} {link : BitVec 2} (hn : execFwQuery door link s = .next t) : Stays s t := by
  unfold execFwQuery at hn
  injection hn with hn
  subst hn
  have hz0 : Stays s s := Stays.refl s
  repeat' first
    | with_reducible assumption | exact Nat.le_refl _ | exact id | exact Eq.refl _ | intro _ | with_reducible apply Stays.ite | with_reducible apply Stays.ite_fst
    | with_reducible apply mailRow_stays | with_reducible apply mailGate_stays | with_reducible apply answer_stays
    | (refine Stays.of_eq (by with_reducible assumption) ?_) | (simp only [stays_mk]) | split

theorem report_stays {z0 s : State} {d : Door} {addr : Word} {len : Nat} {bytes : List Byte} {ws : List Word} (hz0 : Stays z0 s) : Stays z0 (report s d addr len bytes ws) := by
  unfold report
  repeat' first
    | with_reducible assumption | exact Nat.le_refl _ | exact id | exact Eq.refl _ | intro _ | with_reducible apply Stays.ite | with_reducible apply Stays.ite_fst
    | with_reducible apply answer_stays | with_reducible apply xlatWrite_stays | with_reducible apply retryEarly_stays
    | (refine Stays.of_eq (by with_reducible assumption) ?_) | (simp only [stays_mk]) | split

theorem runIdentity_stays {z0 s : State} {d : Door} (hz0 : Stays z0 s) : Stays z0 (runIdentity s d) := by
  unfold runIdentity
  repeat' first
    | with_reducible assumption | exact Nat.le_refl _ | exact id | exact Eq.refl _ | intro _ | with_reducible apply Stays.ite | with_reducible apply Stays.ite_fst
    | with_reducible apply report_stays
    | (refine Stays.of_eq (by with_reducible assumption) ?_) | (simp only [stays_mk]) | split

theorem execIdentity_stays {s t : State} {door : Door} {link : BitVec 2} (hn : execIdentity door link s = .next t) : Stays s t := by
  unfold execIdentity at hn
  injection hn with hn
  subst hn
  have hz0 : Stays s s := Stays.refl s
  repeat' first
    | with_reducible assumption | exact Nat.le_refl _ | exact id | exact Eq.refl _ | intro _ | with_reducible apply Stays.ite | with_reducible apply Stays.ite_fst
    | with_reducible apply mailRow_stays | with_reducible apply mailGate_stays | with_reducible apply runIdentity_stays
    | (refine Stays.of_eq (by with_reducible assumption) ?_) | (simp only [stays_mk]) | split

theorem runAttest_stays {z0 s : State} {d : Door} (hz0 : Stays z0 s) : Stays z0 (runAttest s d) := by
  unfold runAttest
  repeat' first
    | with_reducible assumption | exact Nat.le_refl _ | exact id | exact Eq.refl _ | intro _ | with_reducible apply Stays.ite | with_reducible apply Stays.ite_fst
    | with_reducible apply report_stays
    | (refine Stays.of_eq (by with_reducible assumption) ?_) | (simp only [stays_mk]) | split

theorem execAttest_stays {s t : State} {door : Door} {link : BitVec 2} (hn : execAttest door link s = .next t) : Stays s t := by
  unfold execAttest at hn
  injection hn with hn
  subst hn
  have hz0 : Stays s s := Stays.refl s
  repeat' first
    | with_reducible assumption | exact Nat.le_refl _ | exact id | exact Eq.refl _ | intro _ | with_reducible apply Stays.ite | with_reducible apply Stays.ite_fst
    | with_reducible apply mailRow_stays | with_reducible apply mailGate_stays | with_reducible apply runAttest_stays
    | (refine Stays.of_eq (by with_reducible assumption) ?_) | (simp only [stays_mk]) | split

end Sys2Proof.Machine
end

