-- ==== Sys2Proof/Laws/StaysMemorySegs.lean ====
section
/-! SUPPORT. The operations of Machine/MemorySegs.lean keep what `Stays` names. -/

namespace Sys2Proof.Machine

theorem segDone_stays {z0 s : State} {i : Nat} {code : Nat} {f : State → State} (h_f : ∀ s, Stays z0 s → Stays z0 (f s)) (hz0 : Stays z0 s) : Stays z0 (segDone s i code f) := by
  unfold segDone
  repeat' first
    | with_reducible assumption | exact Nat.le_refl _ | exact id | exact Eq.refl _ | intro _ | with_reducible apply Stays.ite | with_reducible apply Stays.ite_fst
    | with_reducible apply State.modWin_stays | with_reducible apply State.arriveAt_stays | with_reducible apply h_f
    | (refine Stays.of_eq (by with_reducible assumption) ?_) | (simp only [stays_mk]) | split

theorem setSeg_stays {z0 s : State} {i : Nat} (hz0 : Stays z0 s) : Stays z0 (setSeg s i) := by
  unfold setSeg
  repeat' first
    | with_reducible assumption | exact Nat.le_refl _ | exact id | exact Eq.refl _ | intro _ | with_reducible apply Stays.ite | with_reducible apply Stays.ite_fst
    | with_reducible apply segDone_stays | with_reducible apply State.modSeg_stays
    | (refine Stays.of_eq (by with_reducible assumption) ?_) | (simp only [stays_mk]) | split

theorem dropSeg_stays {z0 s : State} {i : Nat} (hz0 : Stays z0 s) : Stays z0 (dropSeg s i) := by
  unfold dropSeg
  repeat' first
    | with_reducible assumption | exact Nat.le_refl _ | exact id | exact Eq.refl _ | intro _ | with_reducible apply Stays.ite | with_reducible apply Stays.ite_fst
    | with_reducible apply segDone_stays | with_reducible apply clearSeg_stays
    | (refine Stays.of_eq (by with_reducible assumption) ?_) | (simp only [stays_mk]) | split

theorem segRow_stays {z0 s : State} {l : Nat} {i : Nat} {v : Word} {cmd : Nat} {f : State → Nat → State} (h_f : ∀ s x1, Stays z0 s → Stays z0 (f s x1)) (hz0 : Stays z0 s) : Stays z0 (segRow s l i v cmd f) := by
  unfold segRow
  repeat' first
    | with_reducible assumption | exact Nat.le_refl _ | exact id | exact Eq.refl _ | intro _ | with_reducible apply Stays.ite | with_reducible apply Stays.ite_fst
    | with_reducible apply ctlWrite_stays | with_reducible apply h_f
    | (refine Stays.of_eq (by with_reducible assumption) ?_) | (simp only [stays_mk]) | split

theorem execSegSet_stays {s t : State} {link : BitVec 2} {inst : BitVec 7} {value : Word} (hn : execSegSet link inst value s = .next t) : Stays s t := by
  unfold execSegSet at hn
  injection hn with hn
  subst hn
  have hz0 : Stays s s := Stays.refl s
  repeat' first
    | with_reducible assumption | exact Nat.le_refl _ | exact id | exact Eq.refl _ | intro _ | with_reducible apply Stays.ite | with_reducible apply Stays.ite_fst
    | with_reducible apply segRow_stays | with_reducible apply setSeg_stays
    | (refine Stays.of_eq (by with_reducible assumption) ?_) | (simp only [stays_mk]) | split

theorem execSegClear_stays {s t : State} {link : BitVec 2} {inst : BitVec 7} {value : Word} (hn : execSegClear link inst value s = .next t) : Stays s t := by
  unfold execSegClear at hn
  injection hn with hn
  subst hn
  have hz0 : Stays s s := Stays.refl s
  repeat' first
    | with_reducible assumption | exact Nat.le_refl _ | exact id | exact Eq.refl _ | intro _ | with_reducible apply Stays.ite | with_reducible apply Stays.ite_fst
    | with_reducible apply segRow_stays | with_reducible apply dropSeg_stays
    | (refine Stays.of_eq (by with_reducible assumption) ?_) | (simp only [stays_mk]) | split

theorem scrubCorrect_stays {z0 s : State} {w : Nat} (hz0 : Stays z0 s) : Stays z0 (scrubCorrect s w) := by
  unfold scrubCorrect
  repeat' first
    | with_reducible assumption | exact Nat.le_refl _ | exact id | exact Eq.refl _ | intro _ | with_reducible apply Stays.ite | with_reducible apply Stays.ite_fst
    | with_reducible apply State.modStack_stays | with_reducible apply State.modHbm_stays | with_reducible apply repairRow_stays
    | (refine Stays.of_eq (by with_reducible assumption) ?_) | (simp only [stays_mk]) | split

theorem scrubWord_stays {z0 s : State} {addr : Nat} {found : ScrubFind} (hz0 : Stays z0 s) : Stays z0 (scrubWord s addr found) := by
  unfold scrubWord
  repeat' first
    | with_reducible assumption | exact Nat.le_refl _ | exact id | exact Eq.refl _ | intro _ | with_reducible apply Stays.ite | with_reducible apply Stays.ite_fst
    | with_reducible apply chargeShared_stays | with_reducible apply logUe_stays | with_reducible apply State.modHbm_stays
    | with_reducible apply scrubCorrect_stays | with_reducible apply settle_stays
    | (refine Stays.of_eq (by with_reducible assumption) ?_) | (simp only [stays_mk]) | split

theorem execPatrolScrub_stays {s t : State} {addr : BitVec 40} {found : ScrubFind} (hn : execPatrolScrub addr found s = .next t) : Stays s t := by
  unfold execPatrolScrub at hn
  injection hn with hn
  subst hn
  have hz0 : Stays s s := Stays.refl s
  repeat' first
    | with_reducible assumption | exact Nat.le_refl _ | exact id | exact Eq.refl _ | intro _ | with_reducible apply Stays.ite | with_reducible apply Stays.ite_fst
    | with_reducible apply scrubWord_stays
    | (refine Stays.of_eq (by with_reducible assumption) ?_) | (simp only [stays_mk]) | split

theorem retrainChannel_stays {z0 s : State} {st : Nat} {res : TrainResult} (hz0 : Stays z0 s) : Stays z0 (retrainChannel s st res) := by
  unfold retrainChannel
  repeat' first
    | with_reducible assumption | exact Nat.le_refl _ | exact id | exact Eq.refl _ | intro _ | with_reducible apply Stays.ite | with_reducible apply Stays.ite_fst
    | with_reducible apply State.modStack_stays | with_reducible apply settle_stays | with_reducible apply markRetired_stays
    | (refine Stays.of_eq (by with_reducible assumption) ?_) | (simp only [stays_mk]) | split

theorem execChannelRetrain_stays {s t : State} {stack : BitVec 4} {res : TrainResult} (hn : execChannelRetrain stack res s = .next t) : Stays s t := by
  unfold execChannelRetrain at hn
  injection hn with hn
  subst hn
  have hz0 : Stays s s := Stays.refl s
  repeat' first
    | with_reducible assumption | exact Nat.le_refl _ | exact id | exact Eq.refl _ | intro _ | with_reducible apply Stays.ite | with_reducible apply Stays.ite_fst
    | with_reducible apply retrainChannel_stays
    | (refine Stays.of_eq (by with_reducible assumption) ?_) | (simp only [stays_mk]) | split

theorem stackStops_stays {z0 s : State} {st : Nat} (hz0 : Stays z0 s) : Stays z0 (stackStops s st) := by
  unfold stackStops
  repeat' first
    | with_reducible assumption | exact Nat.le_refl _ | exact id | exact Eq.refl _ | intro _ | with_reducible apply Stays.ite | with_reducible apply Stays.ite_fst
    | with_reducible apply settle_stays | with_reducible apply markRetired_stays | with_reducible apply State.modHbm_stays
    | (refine Stays.of_eq (by with_reducible assumption) ?_) | (simp only [stays_mk]) | split

theorem execStackStopsAnswering_stays {s t : State} {stack : BitVec 4} (hn : execStackStopsAnswering stack s = .next t) : Stays s t := by
  unfold execStackStopsAnswering at hn
  injection hn with hn
  subst hn
  have hz0 : Stays s s := Stays.refl s
  repeat' first
    | with_reducible assumption | exact Nat.le_refl _ | exact id | exact Eq.refl _ | intro _ | with_reducible apply Stays.ite | with_reducible apply Stays.ite_fst
    | with_reducible apply stackStops_stays
    | (refine Stays.of_eq (by with_reducible assumption) ?_) | (simp only [stays_mk]) | split

theorem reopenCouch_stays {z0 s : State} {q : Nat} (hz0 : Stays z0 s) : Stays z0 (reopenCouch s q) := by
  unfold reopenCouch
  repeat' first
    | with_reducible assumption | exact Nat.le_refl _ | exact id | exact Eq.refl _ | intro _ | with_reducible apply Stays.ite | with_reducible apply Stays.ite_fst
    | with_reducible apply settle_stays | with_reducible apply openCouchQp_stays | with_reducible apply closeQp_stays
    | (refine Stays.of_eq (by with_reducible assumption) ?_) | (simp only [stays_mk]) | split

theorem execCouchReopen_stays {s t : State} {qp : BitVec 20} (hn : execCouchReopen qp s = .next t) : Stays s t := by
  unfold execCouchReopen at hn
  injection hn with hn
  subst hn
  have hz0 : Stays s s := Stays.refl s
  repeat' first
    | with_reducible assumption | exact Nat.le_refl _ | exact id | exact Eq.refl _ | intro _ | with_reducible apply Stays.ite | with_reducible apply Stays.ite_fst
    | with_reducible apply reopenCouch_stays
    | (refine Stays.of_eq (by with_reducible assumption) ?_) | (simp only [stays_mk]) | split

end Sys2Proof.Machine
end

