-- ==== Sys2Proof/Laws/StaysMetering.lean ====
section
/-! SUPPORT. The operations of Machine/Metering.lean keep what `Stays` names. -/

namespace Sys2Proof.Machine

theorem islandRise_stays {s0 s : State} (h : Stays s0 s) : Stays s0 (islandRise s) := by
  unfold islandRise
  split
  · exact h
  · exact State.modMtr_stays h (by dsimp only; split <;> omega)

theorem execMtrVddRise_stays {s t : State} (hn : execMtrVddRise s = .next t) : Stays s t := by
  unfold execMtrVddRise at hn
  injection hn with hn
  subst hn
  have hz0 : Stays s s := Stays.refl s
  repeat' first
    | with_reducible assumption | exact Nat.le_refl _ | exact id | exact Eq.refl _ | intro _ | with_reducible apply Stays.ite | with_reducible apply Stays.ite_fst
    | with_reducible apply islandRise_stays
    | (refine Stays.of_eq (by with_reducible assumption) ?_) | (simp only [stays_mk]) | split

theorem islandFall_stays {z0 s : State}  (hz0 : Stays z0 s) : Stays z0 (islandFall s) := by
  unfold islandFall
  repeat' first
    | with_reducible assumption | exact Nat.le_refl _ | exact id | exact Eq.refl _ | intro _ | with_reducible apply Stays.ite | with_reducible apply Stays.ite_fst
    | with_reducible apply State.modMtr_stays
    | (refine Stays.of_eq (by with_reducible assumption) ?_) | (simp only [stays_mk]) | split

theorem execMtrVddFall_stays {s t : State} (hn : execMtrVddFall s = .next t) : Stays s t := by
  unfold execMtrVddFall at hn
  injection hn with hn
  subst hn
  have hz0 : Stays s s := Stays.refl s
  repeat' first
    | with_reducible assumption | exact Nat.le_refl _ | exact id | exact Eq.refl _ | intro _ | with_reducible apply Stays.ite | with_reducible apply Stays.ite_fst
    | with_reducible apply islandFall_stays
    | (refine Stays.of_eq (by with_reducible assumption) ?_) | (simp only [stays_mk]) | split

theorem closePeriod_stays {z0 s : State}  (hz0 : Stays z0 s) : Stays z0 (closePeriod s) := by
  unfold closePeriod
  repeat' first
    | with_reducible assumption | exact Nat.le_refl _ | exact id | exact Eq.refl _ | intro _ | with_reducible apply Stays.ite | with_reducible apply Stays.ite_fst
    | with_reducible apply countGranules_stays | with_reducible apply State.arriveAt_stays | with_reducible apply forEach_stays
    | with_reducible apply writeRecord_stays | with_reducible apply State.modMtr_stays
    | (refine Stays.of_eq (by with_reducible assumption) ?_) | (simp only [stays_mk]) | split

theorem execMeterPeriodClose_stays {s t : State} (hn : execMeterPeriodClose s = .next t) : Stays s t := by
  unfold execMeterPeriodClose at hn
  injection hn with hn
  subst hn
  have hz0 : Stays s s := Stays.refl s
  repeat' first
    | with_reducible assumption | exact Nat.le_refl _ | exact id | exact Eq.refl _ | intro _ | with_reducible apply Stays.ite | with_reducible apply Stays.ite_fst
    | with_reducible apply closePeriod_stays
    | (refine Stays.of_eq (by with_reducible assumption) ?_) | (simp only [stays_mk]) | split

theorem flushRing_stays {z0 s : State}  (hz0 : Stays z0 s) : Stays z0 (flushRing s) := by
  unfold flushRing
  repeat' first
    | with_reducible assumption | exact Nat.le_refl _ | exact id | exact Eq.refl _ | intro _ | with_reducible apply Stays.ite | with_reducible apply Stays.ite_fst
    | with_reducible apply State.modMtr_stays
    | (refine Stays.of_eq (by with_reducible assumption) ?_) | (simp only [stays_mk]) | split

theorem execMeterRingFlush_stays {s t : State} (hn : execMeterRingFlush s = .next t) : Stays s t := by
  unfold execMeterRingFlush at hn
  injection hn with hn
  subst hn
  have hz0 : Stays s s := Stays.refl s
  repeat' first
    | with_reducible assumption | exact Nat.le_refl _ | exact id | exact Eq.refl _ | intro _ | with_reducible apply Stays.ite | with_reducible apply Stays.ite_fst
    | with_reducible apply flushRing_stays
    | (refine Stays.of_eq (by with_reducible assumption) ?_) | (simp only [stays_mk]) | split

theorem auditorRead_stays {z0 s : State} {bs : List Byte} (hz0 : Stays z0 s) : Stays z0 (auditorRead s bs) := by
  unfold auditorRead
  repeat' first
    | with_reducible assumption | exact Nat.le_refl _ | exact id | exact Eq.refl _ | intro _ | with_reducible apply Stays.ite | with_reducible apply Stays.ite_fst
    | with_reducible apply State.sent_stays
    | (refine Stays.of_eq (by with_reducible assumption) ?_) | (simp only [stays_mk]) | split

theorem execMtrIdentity_stays {s t : State} (hn : execMtrIdentity s = .next t) : Stays s t := by
  unfold execMtrIdentity at hn
  injection hn with hn
  subst hn
  have hz0 : Stays s s := Stays.refl s
  repeat' first
    | with_reducible assumption | exact Nat.le_refl _ | exact id | exact Eq.refl _ | intro _ | with_reducible apply Stays.ite | with_reducible apply Stays.ite_fst
    | with_reducible apply auditorRead_stays
    | (refine Stays.of_eq (by with_reducible assumption) ?_) | (simp only [stays_mk]) | split

theorem execCert_stays {s t : State} {offset : BitVec 16} (hn : execCert offset s = .next t) : Stays s t := by
  unfold execCert at hn
  injection hn with hn
  subst hn
  have hz0 : Stays s s := Stays.refl s
  repeat' first
    | with_reducible assumption | exact Nat.le_refl _ | exact id | exact Eq.refl _ | intro _ | with_reducible apply Stays.ite | with_reducible apply Stays.ite_fst
    | with_reducible apply auditorRead_stays
    | (refine Stays.of_eq (by with_reducible assumption) ?_) | (simp only [stays_mk]) | split

theorem execLastSeq_stays {s t : State} (hn : execLastSeq s = .next t) : Stays s t := by
  unfold execLastSeq at hn
  injection hn with hn
  subst hn
  have hz0 : Stays s s := Stays.refl s
  repeat' first
    | with_reducible assumption | exact Nat.le_refl _ | exact id | exact Eq.refl _ | intro _ | with_reducible apply Stays.ite | with_reducible apply Stays.ite_fst
    | with_reducible apply auditorRead_stays
    | (refine Stays.of_eq (by with_reducible assumption) ?_) | (simp only [stays_mk]) | split

theorem execRecord_stays {s t : State} {seq : Word} (hn : execRecord seq s = .next t) : Stays s t := by
  unfold execRecord at hn
  injection hn with hn
  subst hn
  have hz0 : Stays s s := Stays.refl s
  repeat' first
    | with_reducible assumption | exact Nat.le_refl _ | exact id | exact Eq.refl _ | intro _ | with_reducible apply Stays.ite | with_reducible apply Stays.ite_fst
    | with_reducible apply auditorRead_stays
    | (refine Stays.of_eq (by with_reducible assumption) ?_) | (simp only [stays_mk]) | split

theorem freeMeter_stays {z0 s : State}  (hz0 : Stays z0 s) : Stays z0 (freeMeter s).2 := by
  unfold freeMeter
  repeat' first
    | with_reducible assumption | exact Nat.le_refl _ | exact id | exact Eq.refl _ | intro _ | with_reducible apply Stays.ite | with_reducible apply Stays.ite_fst
    | with_reducible apply drawFree_stays
    | (refine Stays.of_eq (by with_reducible assumption) ?_) | (simp only [stays_mk]) | split

theorem spotRecord_stays {z0 s : State} {i : Nat} {nonce : BitVec 256} (hz0 : Stays z0 s) : Stays z0 (spotRecord s i nonce).2 := by
  unfold spotRecord
  repeat' first
    | with_reducible assumption | exact Nat.le_refl _ | exact id | exact Eq.refl _ | intro _ | with_reducible apply Stays.ite | with_reducible apply Stays.ite_fst
    | with_reducible apply freeMeter_stays | with_reducible apply drawFree_stays
    | (refine Stays.of_eq (by with_reducible assumption) ?_) | (simp only [stays_mk]) | split

theorem spotMark_stays {z0 s : State} {i : Nat} {nonce : BitVec 256} (hz0 : Stays z0 s) : Stays z0 (spotMark s i nonce) := by
  unfold spotMark
  repeat' first
    | with_reducible assumption | exact Nat.le_refl _ | exact id | exact Eq.refl _ | intro _ | with_reducible apply Stays.ite | with_reducible apply Stays.ite_fst
    | with_reducible apply auditorRead_stays | with_reducible apply countGranules_stays | with_reducible apply State.modMtr_stays
    | with_reducible apply spotRecord_stays | with_reducible apply keepRecord_stays
    | (refine Stays.of_eq (by with_reducible assumption) ?_) | (simp only [stays_mk]) | split

theorem execSpot_stays {s t : State} {inst : Byte} {nonce : BitVec 256} (hn : execSpot inst nonce s = .next t) : Stays s t := by
  unfold execSpot at hn
  injection hn with hn
  subst hn
  have hz0 : Stays s s := Stays.refl s
  repeat' first
    | with_reducible assumption | exact Nat.le_refl _ | exact id | exact Eq.refl _ | intro _ | with_reducible apply Stays.ite | with_reducible apply Stays.ite_fst
    | with_reducible apply spotMark_stays
    | (refine Stays.of_eq (by with_reducible assumption) ?_) | (simp only [stays_mk]) | split

end Sys2Proof.Machine
end

