-- ==== Sys2Proof/Laws/StaysPower.lean ====
section
/-! SUPPORT. The operations of Machine/Power.lean keep what `Stays` names. -/

namespace Sys2Proof.Machine

theorem writeCap_stays {z0 s : State} {v : Word} (hz0 : Stays z0 s) : Stays z0 (writeCap s v) := by
  unfold writeCap
  repeat' first
    | with_reducible assumption | exact Nat.le_refl _ | exact id | exact Eq.refl _ | intro _ | with_reducible apply Stays.ite | with_reducible apply Stays.ite_fst
    | with_reducible apply State.modPwr_stays | with_reducible apply decideCap_stays
    | (refine Stays.of_eq (by with_reducible assumption) ?_) | (simp only [stays_mk]) | split

theorem execPwrCapWrite_stays {s t : State} {link : BitVec 2} {value : Word} (hn : execPwrCapWrite link value s = .next t) : Stays s t := by
  unfold execPwrCapWrite at hn
  injection hn with hn
  subst hn
  have hz0 : Stays s s := Stays.refl s
  repeat' first
    | with_reducible assumption | exact Nat.le_refl _ | exact id | exact Eq.refl _ | intro _ | with_reducible apply Stays.ite | with_reducible apply Stays.ite_fst
    | with_reducible apply ctlWrite_stays | with_reducible apply writeCap_stays
    | (refine Stays.of_eq (by with_reducible assumption) ?_) | (simp only [stays_mk]) | split

theorem creditPeriod_stays {z0 s : State}  (hz0 : Stays z0 s) : Stays z0 (creditPeriod s) := by
  unfold creditPeriod
  repeat' first
    | with_reducible assumption | exact Nat.le_refl _ | exact id | exact Eq.refl _ | intro _ | with_reducible apply Stays.ite | with_reducible apply Stays.ite_fst
    | with_reducible apply State.arriveAt_stays | with_reducible apply State.modPwr_stays | with_reducible apply retryHeads_stays
    | with_reducible apply forEach_stays | with_reducible apply refillBucket_stays
    | (refine Stays.of_eq (by with_reducible assumption) ?_) | (simp only [stays_mk]) | split

theorem execCreditPeriod_stays {s t : State} (hn : execCreditPeriod s = .next t) : Stays s t := by
  unfold execCreditPeriod at hn
  injection hn with hn
  subst hn
  have hz0 : Stays s s := Stays.refl s
  repeat' first
    | with_reducible assumption | exact Nat.le_refl _ | exact id | exact Eq.refl _ | intro _ | with_reducible apply Stays.ite | with_reducible apply Stays.ite_fst
    | with_reducible apply creditPeriod_stays
    | (refine Stays.of_eq (by with_reducible assumption) ?_) | (simp only [stays_mk]) | split

theorem newK_stays {z0 s : State} {measured : Nat} {d : Nat} (hz0 : Stays z0 s) : Stays z0 (newK s measured d) := by
  unfold newK
  repeat' first
    | with_reducible assumption | exact Nat.le_refl _ | exact id | exact Eq.refl _ | intro _ | with_reducible apply Stays.ite | with_reducible apply Stays.ite_fst
    | with_reducible apply drawFree_stays | with_reducible apply State.modPwr_stays
    | (refine Stays.of_eq (by with_reducible assumption) ?_) | (simp only [stays_mk]) | split

theorem updateCoefs_stays {z0 s : State} {measured : List Nat} {staticW : Nat} (hz0 : Stays z0 s) : Stays z0 (updateCoefs s measured staticW) := by
  unfold updateCoefs
  repeat' first
    | with_reducible assumption | exact Nat.le_refl _ | exact id | exact Eq.refl _ | intro _ | with_reducible apply Stays.ite | with_reducible apply Stays.ite_fst
    | with_reducible apply State.arriveAt_stays | with_reducible apply forEach_stays | with_reducible apply newK_stays
    | with_reducible apply State.modPwr_stays | with_reducible apply State.modMeter_stays | with_reducible apply foldl_stays
    | with_reducible apply foldl_fst_stays
    | (refine Stays.of_eq (by with_reducible assumption) ?_) | (simp only [stays_mk]) | split

theorem execCoefficientUpdate_stays {s t : State} {measured : List Nat} {staticW : BitVec 10} (hn : execCoefficientUpdate measured staticW s = .next t) : Stays s t := by
  unfold execCoefficientUpdate at hn
  injection hn with hn
  subst hn
  have hz0 : Stays s s := Stays.refl s
  repeat' first
    | with_reducible assumption | exact Nat.le_refl _ | exact id | exact Eq.refl _ | intro _ | with_reducible apply Stays.ite | with_reducible apply Stays.ite_fst
    | with_reducible apply updateCoefs_stays
    | (refine Stays.of_eq (by with_reducible assumption) ?_) | (simp only [stays_mk]) | split

theorem noteTj_stays {z0 s : State} {tj : Nat} (hz0 : Stays z0 s) : Stays z0 (noteTj s tj) := by
  unfold noteTj
  repeat' first
    | with_reducible assumption | exact Nat.le_refl _ | exact id | exact Eq.refl _ | intro _ | with_reducible apply Stays.ite | with_reducible apply Stays.ite_fst
    | with_reducible apply State.modPwr_stays
    | (refine Stays.of_eq (by with_reducible assumption) ?_) | (simp only [stays_mk]) | split

theorem throttleRequest_stays {z0 s : State} {tj : Nat} (hz0 : Stays z0 s) : Stays z0 (throttleRequest s tj) := by
  unfold throttleRequest
  repeat' first
    | with_reducible assumption | exact Nat.le_refl _ | exact id | exact Eq.refl _ | intro _ | with_reducible apply Stays.ite | with_reducible apply Stays.ite_fst
    | with_reducible apply noteTj_stays | with_reducible apply State.arriveAt_stays | with_reducible apply forEach_stays
    | with_reducible apply requestUnit_stays
    | (refine Stays.of_eq (by with_reducible assumption) ?_) | (simp only [stays_mk]) | split

theorem execThrottleRequest_stays {s t : State} {tj : Byte} (hn : execThrottleRequest tj s = .next t) : Stays s t := by
  unfold execThrottleRequest at hn
  injection hn with hn
  subst hn
  have hz0 : Stays s s := Stays.refl s
  repeat' first
    | with_reducible assumption | exact Nat.le_refl _ | exact id | exact Eq.refl _ | intro _ | with_reducible apply Stays.ite | with_reducible apply Stays.ite_fst
    | with_reducible apply throttleRequest_stays
    | (refine Stays.of_eq (by with_reducible assumption) ?_) | (simp only [stays_mk]) | split

theorem throttleRelease_stays {z0 s : State} {tj : Nat} (hz0 : Stays z0 s) : Stays z0 (throttleRelease s tj) := by
  unfold throttleRelease
  repeat' first
    | with_reducible assumption | exact Nat.le_refl _ | exact id | exact Eq.refl _ | intro _ | with_reducible apply Stays.ite | with_reducible apply Stays.ite_fst
    | with_reducible apply noteTj_stays | with_reducible apply State.arriveAt_stays | with_reducible apply forEach_stays
    | with_reducible apply setLevel_stays
    | (refine Stays.of_eq (by with_reducible assumption) ?_) | (simp only [stays_mk]) | split

theorem execThrottleRelease_stays {s t : State} {tj : Byte} (hn : execThrottleRelease tj s = .next t) : Stays s t := by
  unfold execThrottleRelease at hn
  injection hn with hn
  subst hn
  have hz0 : Stays s s := Stays.refl s
  repeat' first
    | with_reducible assumption | exact Nat.le_refl _ | exact id | exact Eq.refl _ | intro _ | with_reducible apply Stays.ite | with_reducible apply Stays.ite_fst
    | with_reducible apply throttleRelease_stays
    | (refine Stays.of_eq (by with_reducible assumption) ?_) | (simp only [stays_mk]) | split

theorem deferExpiry_stays {z0 s : State}  (hz0 : Stays z0 s) : Stays z0 (deferExpiry s) := by
  unfold deferExpiry
  repeat' first
    | with_reducible assumption | exact Nat.le_refl _ | exact id | exact Eq.refl _ | intro _ | with_reducible apply Stays.ite | with_reducible apply Stays.ite_fst
    | with_reducible apply State.arriveAt_stays | with_reducible apply forEach_stays | with_reducible apply applyDeferred_stays
    | with_reducible apply State.modPwr_stays
    | (refine Stays.of_eq (by with_reducible assumption) ?_) | (simp only [stays_mk]) | split

theorem execDeferExpiry_stays {s t : State} (hn : execDeferExpiry s = .next t) : Stays s t := by
  unfold execDeferExpiry at hn
  injection hn with hn
  subst hn
  have hz0 : Stays s s := Stays.refl s
  repeat' first
    | with_reducible assumption | exact Nat.le_refl _ | exact id | exact Eq.refl _ | intro _ | with_reducible apply Stays.ite | with_reducible apply Stays.ite_fst
    | with_reducible apply deferExpiry_stays
    | (refine Stays.of_eq (by with_reducible assumption) ?_) | (simp only [stays_mk]) | split

theorem thermalOverride_stays {z0 s : State} {tj : Nat} (hz0 : Stays z0 s) : Stays z0 (thermalOverride s tj) := by
  unfold thermalOverride
  repeat' first
    | with_reducible assumption | exact Nat.le_refl _ | exact id | exact Eq.refl _ | intro _ | with_reducible apply Stays.ite | with_reducible apply Stays.ite_fst
    | with_reducible apply noteTj_stays | with_reducible apply forEach_stays | with_reducible apply setLevel_stays
    | with_reducible apply State.modPwr_stays | with_reducible apply noteCauses_stays | with_reducible apply raiseFault_stays
    | (refine Stays.of_eq (by with_reducible assumption) ?_) | (simp only [stays_mk]) | split

theorem execThermalOverride_stays {s t : State} {tj : Byte} (hn : execThermalOverride tj s = .next t) : Stays s t := by
  unfold execThermalOverride at hn
  injection hn with hn
  subst hn
  have hz0 : Stays s s := Stays.refl s
  repeat' first
    | with_reducible assumption | exact Nat.le_refl _ | exact id | exact Eq.refl _ | intro _ | with_reducible apply Stays.ite | with_reducible apply Stays.ite_fst
    | with_reducible apply thermalOverride_stays
    | (refine Stays.of_eq (by with_reducible assumption) ?_) | (simp only [stays_mk]) | split

theorem emergClear_stays {z0 s : State} {tj : Nat} (hz0 : Stays z0 s) : Stays z0 (emergClear s tj) := by
  unfold emergClear
  repeat' first
    | with_reducible assumption | exact Nat.le_refl _ | exact id | exact Eq.refl _ | intro _ | with_reducible apply Stays.ite | with_reducible apply Stays.ite_fst
    | with_reducible apply noteTj_stays | with_reducible apply noteCauses_stays | with_reducible apply State.modPwr_stays
    | (refine Stays.of_eq (by with_reducible assumption) ?_) | (simp only [stays_mk]) | split

theorem execEmergClear_stays {s t : State} {tj : Byte} (hn : execEmergClear tj s = .next t) : Stays s t := by
  unfold execEmergClear at hn
  injection hn with hn
  subst hn
  have hz0 : Stays s s := Stays.refl s
  repeat' first
    | with_reducible assumption | exact Nat.le_refl _ | exact id | exact Eq.refl _ | intro _ | with_reducible apply Stays.ite | with_reducible apply Stays.ite_fst
    | with_reducible apply emergClear_stays
    | (refine Stays.of_eq (by with_reducible assumption) ?_) | (simp only [stays_mk]) | split

end Sys2Proof.Machine
end

