-- ==== Sys2Proof/Laws/StaysRecovery.lean ====
section
/-! SUPPORT. The operations of Machine/Recovery.lean keep what `Stays` names. -/

namespace Sys2Proof.Machine

theorem logFaults_stays {z0 s : State}  (hz0 : Stays z0 s) : Stays z0 (logFaults s) := by
  unfold logFaults
  repeat' first
    | with_reducible assumption | exact Nat.le_refl _ | exact id | exact Eq.refl _ | intro _ | with_reducible apply Stays.ite | with_reducible apply Stays.ite_fst
    | with_reducible apply noteCauses_stays | with_reducible apply State.modFlt_stays | with_reducible apply forEach_stays
    | with_reducible apply State.sent_stays | with_reducible apply fireVector_stays
    | (refine Stays.of_eq (by with_reducible assumption) ?_) | (simp only [stays_mk]) | split

theorem execFaultLogAppend_stays {s t : State} (hn : execFaultLogAppend s = .next t) : Stays s t := by
  unfold execFaultLogAppend at hn
  injection hn with hn
  subst hn
  have hz0 : Stays s s := Stays.refl s
  repeat' first
    | with_reducible assumption | exact Nat.le_refl _ | exact id | exact Eq.refl _ | intro _ | with_reducible apply Stays.ite | with_reducible apply Stays.ite_fst
    | with_reducible apply logFaults_stays
    | (refine Stays.of_eq (by with_reducible assumption) ?_) | (simp only [stays_mk]) | split

theorem clearFltStatus_stays {z0 s : State} {v : Word} (hz0 : Stays z0 s) : Stays z0 (clearFltStatus s v) := by
  unfold clearFltStatus
  repeat' first
    | with_reducible assumption | exact Nat.le_refl _ | exact id | exact Eq.refl _ | intro _ | with_reducible apply Stays.ite | with_reducible apply Stays.ite_fst
    | with_reducible apply noteCauses_stays | with_reducible apply State.modFlt_stays
    | (refine Stays.of_eq (by with_reducible assumption) ?_) | (simp only [stays_mk]) | split

theorem execCoreAckWrite_stays {s t : State} {link : BitVec 2} {value : Word} (hn : execCoreAckWrite link value s = .next t) : Stays s t := by
  unfold execCoreAckWrite at hn
  injection hn with hn
  subst hn
  have hz0 : Stays s s := Stays.refl s
  repeat' first
    | with_reducible assumption | exact Nat.le_refl _ | exact id | exact Eq.refl _ | intro _ | with_reducible apply Stays.ite | with_reducible apply Stays.ite_fst
    | with_reducible apply ctlWrite_stays | with_reducible apply clearFltStatus_stays
    | (refine Stays.of_eq (by with_reducible assumption) ?_) | (simp only [stays_mk]) | split

theorem takeNotice_stays {z0 s : State} {p : Nat} {alt : Nat} {e : Nat} {hops : Nat} {origin : Nat} (hz0 : Stays z0 s) : Stays z0 (takeNotice s p alt e hops origin) := by
  unfold takeNotice
  repeat' first
    | with_reducible assumption | exact Nat.le_refl _ | exact id | exact Eq.refl _ | intro _ | with_reducible apply Stays.ite | with_reducible apply Stays.ite_fst
    | with_reducible apply settleSteps_stays | with_reducible apply applyAllDue_stays | with_reducible apply noticeIn_stays
    | (refine Stays.of_eq (by with_reducible assumption) ?_) | (simp only [stays_mk]) | split

theorem execAltNotice_stays {s t : State} {port : BitVec 4} {alt : BitVec 16} {e : Word} {hops : Byte} {origin : BitVec 18} (hn : execAltNotice port alt e hops origin s = .next t) : Stays s t := by
  unfold execAltNotice at hn
  injection hn with hn
  subst hn
  have hz0 : Stays s s := Stays.refl s
  repeat' first
    | with_reducible assumption | exact Nat.le_refl _ | exact id | exact Eq.refl _ | intro _ | with_reducible apply Stays.ite | with_reducible apply Stays.ite_fst
    | with_reducible apply takeNotice_stays
    | (refine Stays.of_eq (by with_reducible assumption) ?_) | (simp only [stays_mk]) | split

theorem repeatNotice_stays {z0 s : State} {alt : Nat} (hz0 : Stays z0 s) : Stays z0 (repeatNotice s alt) := by
  unfold repeatNotice
  repeat' first
    | with_reducible assumption | exact Nat.le_refl _ | exact id | exact Eq.refl _ | intro _ | with_reducible apply Stays.ite | with_reducible apply Stays.ite_fst
    | with_reducible apply State.modFlt_stays | with_reducible apply State.arriveAt_stays | with_reducible apply sendNotice_stays
    | (refine Stays.of_eq (by with_reducible assumption) ?_) | (simp only [stays_mk]) | split

theorem execNoticeRepeat_stays {s t : State} {alt : BitVec 16} (hn : execNoticeRepeat alt s = .next t) : Stays s t := by
  unfold execNoticeRepeat at hn
  injection hn with hn
  subst hn
  have hz0 : Stays s s := Stays.refl s
  repeat' first
    | with_reducible assumption | exact Nat.le_refl _ | exact id | exact Eq.refl _ | intro _ | with_reducible apply Stays.ite | with_reducible apply Stays.ite_fst
    | with_reducible apply repeatNotice_stays
    | (refine Stays.of_eq (by with_reducible assumption) ?_) | (simp only [stays_mk]) | split

theorem decisionPoint_stays {z0 s : State}  (hz0 : Stays z0 s) : Stays z0 (decisionPoint s) := by
  unfold decisionPoint
  repeat' first
    | with_reducible assumption | exact Nat.le_refl _ | exact id | exact Eq.refl _ | intro _ | with_reducible apply Stays.ite | with_reducible apply Stays.ite_fst
    | with_reducible apply settleSteps_stays | with_reducible apply applyAllDue_stays | with_reducible apply State.arriveAt_stays
    | (refine Stays.of_eq (by with_reducible assumption) ?_) | (simp only [stays_mk]) | split

theorem execDecisionPoint_stays {s t : State} (hn : execDecisionPoint s = .next t) : Stays s t := by
  unfold execDecisionPoint at hn
  injection hn with hn
  subst hn
  have hz0 : Stays s s := Stays.refl s
  repeat' first
    | with_reducible assumption | exact Nat.le_refl _ | exact id | exact Eq.refl _ | intro _ | with_reducible apply Stays.ite | with_reducible apply Stays.ite_fst
    | with_reducible apply decisionPoint_stays
    | (refine Stays.of_eq (by with_reducible assumption) ?_) | (simp only [stays_mk]) | split

theorem restoreDone_stays {z0 s : State} {r : Nat} {e : CouchEnt} {g : Nat} {sq : Nat} (hz0 : Stays z0 s) : Stays z0 (restoreDone s r e g sq) := by
  unfold restoreDone
  repeat' first
    | with_reducible assumption | exact Nat.le_refl _ | exact id | exact Eq.refl _ | intro _ | with_reducible apply Stays.ite | with_reducible apply Stays.ite_fst
    | with_reducible apply hbmStore_stays | with_reducible apply State.modCouch_stays
    | (refine Stays.of_eq (by with_reducible assumption) ?_) | (simp only [stays_mk]) | split

theorem restoreComplete_stays {z0 s : State} {r : Nat} (hz0 : Stays z0 s) : Stays z0 (restoreComplete s r) := by
  unfold restoreComplete
  repeat' first
    | with_reducible assumption | exact Nat.le_refl _ | exact id | exact Eq.refl _ | intro _ | with_reducible apply Stays.ite | with_reducible apply Stays.ite_fst
    | with_reducible apply State.modFlt_stays | with_reducible apply undefineHbm_stays | with_reducible apply settle_stays
    | with_reducible apply raiseFault_stays | with_reducible apply State.modCouch_stays | with_reducible apply restoreDone_stays
    | with_reducible apply drawFree_stays
    | (refine Stays.of_eq (by with_reducible assumption) ?_) | (simp only [stays_mk]) | split

theorem execRestoreComplete_stays {s t : State} {region : BitVec 16} (hn : execRestoreComplete region s = .next t) : Stays s t := by
  unfold execRestoreComplete at hn
  injection hn with hn
  subst hn
  have hz0 : Stays s s := Stays.refl s
  repeat' first
    | with_reducible assumption | exact Nat.le_refl _ | exact id | exact Eq.refl _ | intro _ | with_reducible apply Stays.ite | with_reducible apply Stays.ite_fst
    | with_reducible apply restoreComplete_stays
    | (refine Stays.of_eq (by with_reducible assumption) ?_) | (simp only [stays_mk]) | split

theorem coreExpired_stays {z0 s : State} {core : Nat} {task : Nat} (hz0 : Stays z0 s) : Stays z0 (coreExpired s core task) := by
  unfold coreExpired
  repeat' first
    | with_reducible assumption | exact Nat.le_refl _ | exact id | exact Eq.refl _ | intro _ | with_reducible apply Stays.ite | with_reducible apply Stays.ite_fst
    | with_reducible apply State.modFlt_stays | with_reducible apply noteCauses_stays | with_reducible apply raiseFault_stays
    | (refine Stays.of_eq (by with_reducible assumption) ?_) | (simp only [stays_mk]) | split

theorem execCoreWatchdogExpiry_stays {s t : State} {core : BitVec 4} {task : Byte} (hn : execCoreWatchdogExpiry core task s = .next t) : Stays s t := by
  unfold execCoreWatchdogExpiry at hn
  injection hn with hn
  subst hn
  have hz0 : Stays s s := Stays.refl s
  repeat' first
    | with_reducible assumption | exact Nat.le_refl _ | exact id | exact Eq.refl _ | intro _ | with_reducible apply Stays.ite | with_reducible apply Stays.ite_fst
    | with_reducible apply coreExpired_stays
    | (refine Stays.of_eq (by with_reducible assumption) ?_) | (simp only [stays_mk]) | split

end Sys2Proof.Machine
end

