-- ==== Sys2Proof/Laws/StaysTimeOps.lean ====
section
/-! SUPPORT. The operations of Machine/TimeOps.lean keep what `Stays` names. -/

namespace Sys2Proof.Machine

theorem clockTick_stays {s0 s : State} (h : Stays s0 s) : Stays s0 (clockTick s) :=
  Stays.ite h (flushAcks_stays (forEach_stays (settle_stays (endTick_stays h)) (fun _ _ h => noteStalls_stays h)))

theorem restartPeaks_stays {z0 s : State}  (hz0 : Stays z0 s) : Stays z0 (restartPeaks s) := by
  unfold restartPeaks
  repeat' first
    | with_reducible assumption | exact Nat.le_refl _ | exact id | exact Eq.refl _ | intro _ | with_reducible apply Stays.ite | with_reducible apply Stays.ite_fst
    | (refine Stays.of_eq (by with_reducible assumption) ?_) | (simp only [stays_mk]) | split

theorem latchIsobar_stays {s0 s : State} {stepped : Bool} (h : Stays s0 s) : Stays s0 (latchIsobar s stepped) :=
  restartPeaks_stays (State.modTime_stays (State.modTst_stays (forEach_stays h (fun _ _ h => noteStalls_stays h))))

theorem latchDue_stays {z0 s : State} {stepped : Bool} (hz0 : Stays z0 s) : Stays z0 (latchDue s stepped) := by
  unfold latchDue
  repeat' first
    | with_reducible assumption | exact Nat.le_refl _ | exact id | exact Eq.refl _ | intro _ | with_reducible apply Stays.ite | with_reducible apply Stays.ite_fst
    | with_reducible apply latchIsobar_stays
    | (refine Stays.of_eq (by with_reducible assumption) ?_) | (simp only [stays_mk]) | split

theorem stepTo_stays {z0 s : State} {t : Nat} (hz0 : Stays z0 s) : Stays z0 (stepTo s t) := by
  unfold stepTo
  repeat' first
    | with_reducible assumption | exact Nat.le_refl _ | exact id | exact Eq.refl _ | intro _ | with_reducible apply Stays.ite | with_reducible apply Stays.ite_fst
    | with_reducible apply catchUp_stays | with_reducible apply freshTick_stays | with_reducible apply State.modPwr_stays
    | with_reducible apply State.modTime_stays
    | (refine Stays.of_eq (by with_reducible assumption) ?_) | (simp only [stays_mk]) | split

theorem passTableFront_stays {z0 s : State}  (hz0 : Stays z0 s) : Stays z0 (passTableFront s) := by
  unfold passTableFront
  repeat' first
    | with_reducible assumption | exact Nat.le_refl _ | exact id | exact Eq.refl _ | intro _ | with_reducible apply Stays.ite | with_reducible apply Stays.ite_fst
    | with_reducible apply moveInjection_stays | with_reducible apply State.modRouting_stays
    | (refine Stays.of_eq (by with_reducible assumption) ?_) | (simp only [stays_mk]) | split

theorem stepForward_stays {z0 s : State} {t : Nat} (hz0 : Stays z0 s) : Stays z0 (stepForward s t) := by
  unfold stepForward
  repeat' first
    | with_reducible assumption | exact Nat.le_refl _ | exact id | exact Eq.refl _ | intro _ | with_reducible apply Stays.ite | with_reducible apply Stays.ite_fst
    | with_reducible apply stepTo_stays | with_reducible apply State.modTime_stays | with_reducible apply passTableFront_stays
    | with_reducible apply latchDue_stays | with_reducible apply missFront_stays
    | (refine Stays.of_eq (by with_reducible assumption) ?_) | (simp only [stays_mk]) | split

theorem stepFree_stays {z0 s : State} {o : Int} (hz0 : Stays z0 s) : Stays z0 (stepFree s o) := by
  unfold stepFree
  repeat' first
    | with_reducible assumption | exact Nat.le_refl _ | exact id | exact Eq.refl _ | intro _ | with_reducible apply Stays.ite | with_reducible apply Stays.ite_fst
    | with_reducible apply stepForward_stays | with_reducible apply stepTo_stays
    | (refine Stays.of_eq (by with_reducible assumption) ?_) | (simp only [stays_mk]) | split

theorem slewOff_stays {z0 s : State} {o : Int} (hz0 : Stays z0 s) : Stays z0 (slewOff s o) := by
  unfold slewOff
  repeat' first
    | with_reducible assumption | exact Nat.le_refl _ | exact id | exact Eq.refl _ | intro _ | with_reducible apply Stays.ite | with_reducible apply Stays.ite_fst
    | with_reducible apply State.modTime_stays
    | (refine Stays.of_eq (by with_reducible assumption) ?_) | (simp only [stays_mk]) | split

theorem correctLost_stays {z0 s : State} {o : Int} (hz0 : Stays z0 s) : Stays z0 (correctLost s o) := by
  unfold correctLost
  repeat' first
    | with_reducible assumption | exact Nat.le_refl _ | exact id | exact Eq.refl _ | intro _ | with_reducible apply Stays.ite | with_reducible apply Stays.ite_fst
    | with_reducible apply stepForward_stays | with_reducible apply slewOff_stays
    | (refine Stays.of_eq (by with_reducible assumption) ?_) | (simp only [stays_mk]) | split

theorem correctSlow_stays {z0 s : State} {o : Int} (hz0 : Stays z0 s) : Stays z0 (correctSlow s o) := by
  unfold correctSlow
  repeat' first
    | with_reducible assumption | exact Nat.le_refl _ | exact id | exact Eq.refl _ | intro _ | with_reducible apply Stays.ite | with_reducible apply Stays.ite_fst
    | with_reducible apply slewOff_stays
    | (refine Stays.of_eq (by with_reducible assumption) ?_) | (simp only [stays_mk]) | split

theorem correctAcquiring_stays {z0 s : State} {o : Int} (hz0 : Stays z0 s) : Stays z0 (correctAcquiring s o) := by
  unfold correctAcquiring
  repeat' first
    | with_reducible assumption | exact Nat.le_refl _ | exact id | exact Eq.refl _ | intro _ | with_reducible apply Stays.ite | with_reducible apply Stays.ite_fst
    | with_reducible apply correctLost_stays | with_reducible apply stepFree_stays
    | (refine Stays.of_eq (by with_reducible assumption) ?_) | (simp only [stays_mk]) | split

theorem becomeLocked_stays {z0 s : State} {f : Nat} {p : Nat} (hz0 : Stays z0 s) : Stays z0 (becomeLocked s f p) := by
  unfold becomeLocked
  repeat' first
    | with_reducible assumption | exact Nat.le_refl _ | exact id | exact Eq.refl _ | intro _ | with_reducible apply Stays.ite | with_reducible apply Stays.ite_fst
    | with_reducible apply noteCauses_stays | with_reducible apply State.modTime_stays | with_reducible apply State.modPlans_stays
    | (refine Stays.of_eq (by with_reducible assumption) ?_) | (simp only [stays_mk]) | split

theorem loseTime_stays {z0 s : State}  (hz0 : Stays z0 s) : Stays z0 (loseTime s) := by
  unfold loseTime
  repeat' first
    | with_reducible assumption | exact Nat.le_refl _ | exact id | exact Eq.refl _ | intro _ | with_reducible apply Stays.ite | with_reducible apply Stays.ite_fst
    | with_reducible apply raiseFault_stays | with_reducible apply noteCauses_stays | with_reducible apply State.modTime_stays
    | (refine Stays.of_eq (by with_reducible assumption) ?_) | (simp only [stays_mk]) | split

theorem syncAcquiring_stays {z0 s : State} {o : Int} {p : Nat} {n : Nat} (hz0 : Stays z0 s) : Stays z0 (syncAcquiring s o p n) := by
  unfold syncAcquiring
  repeat' first
    | with_reducible assumption | exact Nat.le_refl _ | exact id | exact Eq.refl _ | intro _ | with_reducible apply Stays.ite | with_reducible apply Stays.ite_fst
    | with_reducible apply becomeLocked_stays | with_reducible apply correctAcquiring_stays | with_reducible apply State.modTime_stays
    | (refine Stays.of_eq (by with_reducible assumption) ?_) | (simp only [stays_mk]) | split

theorem syncLocked_stays {z0 s : State} {o : Int} {p : Nat} (hz0 : Stays z0 s) : Stays z0 (syncLocked s o p) := by
  unfold syncLocked
  repeat' first
    | with_reducible assumption | exact Nat.le_refl _ | exact id | exact Eq.refl _ | intro _ | with_reducible apply Stays.ite | with_reducible apply Stays.ite_fst
    | with_reducible apply correctSlow_stays | with_reducible apply becomeLocked_stays | with_reducible apply State.modTime_stays
    | with_reducible apply correctLost_stays | with_reducible apply loseTime_stays
    | (refine Stays.of_eq (by with_reducible assumption) ?_) | (simp only [stays_mk]) | split

theorem syncLost_stays {z0 s : State} {o : Int} {p : Nat} {n : Nat} (hz0 : Stays z0 s) : Stays z0 (syncLost s o p n) := by
  unfold syncLost
  repeat' first
    | with_reducible assumption | exact Nat.le_refl _ | exact id | exact Eq.refl _ | intro _ | with_reducible apply Stays.ite | with_reducible apply Stays.ite_fst
    | with_reducible apply correctLost_stays | with_reducible apply State.modTime_stays | with_reducible apply becomeLocked_stays
    | (refine Stays.of_eq (by with_reducible assumption) ?_) | (simp only [stays_mk]) | split

theorem takeSync_stays {z0 s : State} {o : Int} {p : Nat} {interval : Nat} (hz0 : Stays z0 s) : Stays z0 (takeSync s o p interval) := by
  unfold takeSync
  repeat' first
    | with_reducible assumption | exact Nat.le_refl _ | exact id | exact Eq.refl _ | intro _ | with_reducible apply Stays.ite | with_reducible apply Stays.ite_fst
    | with_reducible apply State.modTime_stays | with_reducible apply syncAcquiring_stays | with_reducible apply syncLost_stays
    | with_reducible apply syncLocked_stays
    | (refine Stays.of_eq (by with_reducible assumption) ?_) | (simp only [stays_mk]) | split

theorem enterHoldover_stays {z0 s : State}  (hz0 : Stays z0 s) : Stays z0 (enterHoldover s) := by
  unfold enterHoldover
  repeat' first
    | with_reducible assumption | exact Nat.le_refl _ | exact id | exact Eq.refl _ | intro _ | with_reducible apply Stays.ite | with_reducible apply Stays.ite_fst
    | with_reducible apply State.modTime_stays
    | (refine Stays.of_eq (by with_reducible assumption) ?_) | (simp only [stays_mk]) | split

theorem sendPtpOn_stays {z0 s : State} {p : Nat} {sub : Nat} {m : PtpMsg} (hz0 : Stays z0 s) : Stays z0 (sendPtpOn s p sub m) := by
  unfold sendPtpOn
  repeat' first
    | with_reducible assumption | exact Nat.le_refl _ | exact id | exact Eq.refl _ | intro _ | with_reducible apply Stays.ite | with_reducible apply Stays.ite_fst
    | with_reducible apply ethOwn_stays | with_reducible apply sendVc0_stays
    | (refine Stays.of_eq (by with_reducible assumption) ?_) | (simp only [stays_mk]) | split

theorem sendPtp_stays {z0 s : State} {p : Nat} {m : PtpMsg} (hz0 : Stays z0 s) : Stays z0 (sendPtp s p m) := by
  unfold sendPtp
  repeat' first
    | with_reducible assumption | exact Nat.le_refl _ | exact id | exact Eq.refl _ | intro _ | with_reducible apply Stays.ite | with_reducible apply Stays.ite_fst
    | with_reducible apply sendPtpOn_stays
    | (refine Stays.of_eq (by with_reducible assumption) ?_) | (simp only [stays_mk]) | split

theorem takePtp_stays {z0 s : State} {p : Nat} {is : PtpMsg → Bool} (hz0 : Stays z0 s) : Stays z0 (takePtp s p is) := by
  unfold takePtp
  repeat' first
    | with_reducible assumption | exact Nat.le_refl _ | exact id | exact Eq.refl _ | intro _ | with_reducible apply Stays.ite | with_reducible apply Stays.ite_fst
    | (refine Stays.of_eq (by with_reducible assumption) ?_) | (simp only [stays_mk]) | split

theorem askDelay_stays {z0 s : State} {p : Nat} (hz0 : Stays z0 s) : Stays z0 (askDelay s p) := by
  unfold askDelay
  repeat' first
    | with_reducible assumption | exact Nat.le_refl _ | exact id | exact Eq.refl _ | intro _ | with_reducible apply Stays.ite | with_reducible apply Stays.ite_fst
    | with_reducible apply sendPtp_stays | with_reducible apply State.modPtp_stays
    | (refine Stays.of_eq (by with_reducible assumption) ?_) | (simp only [stays_mk]) | split

end Sys2Proof.Machine
end

