-- ==== Sys2Proof/Laws/StaysTime.lean ====
section
/-! SUPPORT. The operations of Machine/Time.lean keep what `Stays` names. -/

namespace Sys2Proof.Machine

theorem writeEpoch_stays {z0 s : State} {v : Word} (hz0 : Stays z0 s) : Stays z0 (writeEpoch s v) := by
  unfold writeEpoch
  repeat' first
    | with_reducible assumption | exact Nat.le_refl _ | exact id | exact Eq.refl _ | intro _ | with_reducible apply Stays.ite | with_reducible apply Stays.ite_fst
    | with_reducible apply State.modTime_stays
    | (refine Stays.of_eq (by with_reducible assumption) ?_) | (simp only [stays_mk]) | split

theorem execTimeEpochWrite_stays {s t : State} {link : BitVec 2} {value : Word} (hn : execTimeEpochWrite link value s = .next t) : Stays s t := by
  unfold execTimeEpochWrite at hn
  injection hn with hn
  subst hn
  have hz0 : Stays s s := Stays.refl s
  repeat' first
    | with_reducible assumption | exact Nat.le_refl _ | exact id | exact Eq.refl _ | intro _ | with_reducible apply Stays.ite | with_reducible apply Stays.ite_fst
    | with_reducible apply ctlWrite_stays | with_reducible apply writeEpoch_stays
    | (refine Stays.of_eq (by with_reducible assumption) ?_) | (simp only [stays_mk]) | split

theorem writeTimeCtrl_stays {z0 s : State} {v : Word} (hz0 : Stays z0 s) : Stays z0 (writeTimeCtrl s v) := by
  unfold writeTimeCtrl
  repeat' first
    | with_reducible assumption | exact Nat.le_refl _ | exact id | exact Eq.refl _ | intro _ | with_reducible apply Stays.ite | with_reducible apply Stays.ite_fst
    | with_reducible apply State.modTime_stays
    | (refine Stays.of_eq (by with_reducible assumption) ?_) | (simp only [stays_mk]) | split

theorem execTimeCtrlWrite_stays {s t : State} {link : BitVec 2} {value : Word} (hn : execTimeCtrlWrite link value s = .next t) : Stays s t := by
  unfold execTimeCtrlWrite at hn
  injection hn with hn
  subst hn
  have hz0 : Stays s s := Stays.refl s
  repeat' first
    | with_reducible assumption | exact Nat.le_refl _ | exact id | exact Eq.refl _ | intro _ | with_reducible apply Stays.ite | with_reducible apply Stays.ite_fst
    | with_reducible apply ctlWrite_stays | with_reducible apply writeTimeCtrl_stays
    | (refine Stays.of_eq (by with_reducible assumption) ?_) | (simp only [stays_mk]) | split

theorem syncArrives_stays {z0 s : State} {p : Nat} {origin : Nat} {sub : Nat} (hz0 : Stays z0 s) : Stays z0 (syncArrives s p origin sub) := by
  unfold syncArrives
  repeat' first
    | with_reducible assumption | exact Nat.le_refl _ | exact id | exact Eq.refl _ | intro _ | with_reducible apply Stays.ite | with_reducible apply Stays.ite_fst
    | with_reducible apply takePtp_stays | with_reducible apply State.modTime_stays | with_reducible apply State.modPtp_stays
    | with_reducible apply takeSync_stays | with_reducible apply askDelay_stays
    | (refine Stays.of_eq (by with_reducible assumption) ?_) | (simp only [stays_mk]) | split

theorem execPtpSyncReceived_stays {s t : State} {port : BitVec 4} {origin : Word} {sub : BitVec 4} (hn : execPtpSyncReceived port origin sub s = .next t) : Stays s t := by
  unfold execPtpSyncReceived at hn
  injection hn with hn
  subst hn
  have hz0 : Stays s s := Stays.refl s
  repeat' first
    | with_reducible assumption | exact Nat.le_refl _ | exact id | exact Eq.refl _ | intro _ | with_reducible apply Stays.ite | with_reducible apply Stays.ite_fst
    | with_reducible apply syncArrives_stays
    | (refine Stays.of_eq (by with_reducible assumption) ?_) | (simp only [stays_mk]) | split

theorem announceArrives_stays {z0 s : State} {p : Nat} {tlv : Option (BitVec 16)} {acc : Nat} {rank : Nat} (hz0 : Stays z0 s) : Stays z0 (announceArrives s p tlv acc rank) := by
  unfold announceArrives
  repeat' first
    | with_reducible assumption | exact Nat.le_refl _ | exact id | exact Eq.refl _ | intro _ | with_reducible apply Stays.ite | with_reducible apply Stays.ite_fst
    | with_reducible apply takePtp_stays | with_reducible apply State.modPtp_stays
    | (refine Stays.of_eq (by with_reducible assumption) ?_) | (simp only [stays_mk]) | split

theorem execAnnounceReceived_stays {s t : State} {port : BitVec 4} {tlv : Option (BitVec 16)} {accuracy : Byte} {rank : Word} (hn : execAnnounceReceived port tlv accuracy rank s = .next t) : Stays s t := by
  unfold execAnnounceReceived at hn
  injection hn with hn
  subst hn
  have hz0 : Stays s s := Stays.refl s
  repeat' first
    | with_reducible assumption | exact Nat.le_refl _ | exact id | exact Eq.refl _ | intro _ | with_reducible apply Stays.ite | with_reducible apply Stays.ite_fst
    | with_reducible apply announceArrives_stays
    | (refine Stays.of_eq (by with_reducible assumption) ?_) | (simp only [stays_mk]) | split

theorem syncExpired_stays {z0 s : State}  (hz0 : Stays z0 s) : Stays z0 (syncExpired s) := by
  unfold syncExpired
  repeat' first
    | with_reducible assumption | exact Nat.le_refl _ | exact id | exact Eq.refl _ | intro _ | with_reducible apply Stays.ite | with_reducible apply Stays.ite_fst
    | with_reducible apply enterHoldover_stays | with_reducible apply State.arriveAt_stays
    | (refine Stays.of_eq (by with_reducible assumption) ?_) | (simp only [stays_mk]) | split

theorem execSyncIntervalExpiry_stays {s t : State} (hn : execSyncIntervalExpiry s = .next t) : Stays s t := by
  unfold execSyncIntervalExpiry at hn
  injection hn with hn
  subst hn
  have hz0 : Stays s s := Stays.refl s
  repeat' first
    | with_reducible assumption | exact Nat.le_refl _ | exact id | exact Eq.refl _ | intro _ | with_reducible apply Stays.ite | with_reducible apply Stays.ite_fst
    | with_reducible apply syncExpired_stays
    | (refine Stays.of_eq (by with_reducible assumption) ?_) | (simp only [stays_mk]) | split

theorem holdoverLost_stays {z0 s : State}  (hz0 : Stays z0 s) : Stays z0 (holdoverLost s) := by
  unfold holdoverLost
  repeat' first
    | with_reducible assumption | exact Nat.le_refl _ | exact id | exact Eq.refl _ | intro _ | with_reducible apply Stays.ite | with_reducible apply Stays.ite_fst
    | with_reducible apply loseTime_stays | with_reducible apply State.arriveAt_stays
    | (refine Stays.of_eq (by with_reducible assumption) ?_) | (simp only [stays_mk]) | split

theorem execHoldoverLimitExceeded_stays {s t : State} (hn : execHoldoverLimitExceeded s = .next t) : Stays s t := by
  unfold execHoldoverLimitExceeded at hn
  injection hn with hn
  subst hn
  have hz0 : Stays s s := Stays.refl s
  repeat' first
    | with_reducible assumption | exact Nat.le_refl _ | exact id | exact Eq.refl _ | intro _ | with_reducible apply Stays.ite | with_reducible apply Stays.ite_fst
    | with_reducible apply holdoverLost_stays
    | (refine Stays.of_eq (by with_reducible assumption) ?_) | (simp only [stays_mk]) | split

theorem ppsEdge_stays {z0 s : State} {sub : Nat} {refOk : Bool} (hz0 : Stays z0 s) : Stays z0 (ppsEdge s sub refOk) := by
  unfold ppsEdge
  repeat' first
    | with_reducible assumption | exact Nat.le_refl _ | exact id | exact Eq.refl _ | intro _ | with_reducible apply Stays.ite | with_reducible apply Stays.ite_fst
    | with_reducible apply State.modTime_stays | with_reducible apply takeSync_stays | with_reducible apply enterHoldover_stays
    | (refine Stays.of_eq (by with_reducible assumption) ?_) | (simp only [stays_mk]) | split

theorem execTimePpsInEdge_stays {s t : State} {sub : BitVec 4} {refOk : Bool} (hn : execTimePpsInEdge sub refOk s = .next t) : Stays s t := by
  unfold execTimePpsInEdge at hn
  injection hn with hn
  subst hn
  have hz0 : Stays s s := Stays.refl s
  repeat' first
    | with_reducible assumption | exact Nat.le_refl _ | exact id | exact Eq.refl _ | intro _ | with_reducible apply Stays.ite | with_reducible apply Stays.ite_fst
    | with_reducible apply ppsEdge_stays
    | (refine Stays.of_eq (by with_reducible assumption) ?_) | (simp only [stays_mk]) | split

theorem giveTod_stays {z0 s : State} {d : Door} (hz0 : Stays z0 s) : Stays z0 (giveTod s d).1 := by
  unfold giveTod
  repeat' first
    | with_reducible assumption | exact Nat.le_refl _ | exact id | exact Eq.refl _ | intro _ | with_reducible apply Stays.ite | with_reducible apply Stays.ite_fst
    | with_reducible apply State.modTime_stays
    | (refine Stays.of_eq (by with_reducible assumption) ?_) | (simp only [stays_mk]) | split

theorem execTimeTod_stays {s t : State} {door : Door} {link : BitVec 2} (hn : execTimeTod door link s = .next t) : Stays s t := by
  unfold execTimeTod at hn
  injection hn with hn
  subst hn
  have hz0 : Stays s s := Stays.refl s
  repeat' first
    | with_reducible assumption | exact Nat.le_refl _ | exact id | exact Eq.refl _ | intro _ | with_reducible apply Stays.ite | with_reducible apply Stays.ite_fst
    | with_reducible apply mailRow_stays | with_reducible apply mailGate_stays | with_reducible apply answerSt_stays
    | with_reducible apply giveTod_stays
    | (refine Stays.of_eq (by with_reducible assumption) ?_) | (simp only [stays_mk]) | split

theorem ppsStart_stays {z0 s : State}  (hz0 : Stays z0 s) : Stays z0 (ppsStart s) := by
  unfold ppsStart
  repeat' first
    | with_reducible assumption | exact Nat.le_refl _ | exact id | exact Eq.refl _ | intro _ | with_reducible apply Stays.ite | with_reducible apply Stays.ite_fst
    | with_reducible apply State.arriveAt_stays | with_reducible apply State.modTime_stays
    | (refine Stays.of_eq (by with_reducible assumption) ?_) | (simp only [stays_mk]) | split

theorem execPpsOutPulse_stays {s t : State} (hn : execPpsOutPulse s = .next t) : Stays s t := by
  unfold execPpsOutPulse at hn
  injection hn with hn
  subst hn
  have hz0 : Stays s s := Stays.refl s
  repeat' first
    | with_reducible assumption | exact Nat.le_refl _ | exact id | exact Eq.refl _ | intro _ | with_reducible apply Stays.ite | with_reducible apply Stays.ite_fst
    | with_reducible apply ppsStart_stays
    | (refine Stays.of_eq (by with_reducible assumption) ?_) | (simp only [stays_mk]) | split

theorem ppsEnd_stays {z0 s : State}  (hz0 : Stays z0 s) : Stays z0 (ppsEnd s) := by
  unfold ppsEnd
  repeat' first
    | with_reducible assumption | exact Nat.le_refl _ | exact id | exact Eq.refl _ | intro _ | with_reducible apply Stays.ite | with_reducible apply Stays.ite_fst
    | with_reducible apply State.arriveAt_stays | with_reducible apply State.modTime_stays
    | (refine Stays.of_eq (by with_reducible assumption) ?_) | (simp only [stays_mk]) | split

theorem execPpsOutPulseEnd_stays {s t : State} (hn : execPpsOutPulseEnd s = .next t) : Stays s t := by
  unfold execPpsOutPulseEnd at hn
  injection hn with hn
  subst hn
  have hz0 : Stays s s := Stays.refl s
  repeat' first
    | with_reducible assumption | exact Nat.le_refl _ | exact id | exact Eq.refl _ | intro _ | with_reducible apply Stays.ite | with_reducible apply Stays.ite_fst
    | with_reducible apply ppsEnd_stays
    | (refine Stays.of_eq (by with_reducible assumption) ?_) | (simp only [stays_mk]) | split

theorem armIsobar_stays {z0 s : State} {v : Word} (hz0 : Stays z0 s) : Stays z0 (armIsobar s v) := by
  unfold armIsobar
  repeat' first
    | with_reducible assumption | exact Nat.le_refl _ | exact id | exact Eq.refl _ | intro _ | with_reducible apply Stays.ite | with_reducible apply Stays.ite_fst
    | with_reducible apply State.modTime_stays
    | (refine Stays.of_eq (by with_reducible assumption) ?_) | (simp only [stays_mk]) | split

theorem execIsobarArm_stays {s t : State} {link : BitVec 2} {value : Word} (hn : execIsobarArm link value s = .next t) : Stays s t := by
  unfold execIsobarArm at hn
  injection hn with hn
  subst hn
  have hz0 : Stays s s := Stays.refl s
  repeat' first
    | with_reducible assumption | exact Nat.le_refl _ | exact id | exact Eq.refl _ | intro _ | with_reducible apply Stays.ite | with_reducible apply Stays.ite_fst
    | with_reducible apply ctlWrite_stays | with_reducible apply armIsobar_stays
    | (refine Stays.of_eq (by with_reducible assumption) ?_) | (simp only [stays_mk]) | split

theorem isobarDue_stays {z0 s : State}  (hz0 : Stays z0 s) : Stays z0 (isobarDue s) := by
  unfold isobarDue
  repeat' first
    | with_reducible assumption | exact Nat.le_refl _ | exact id | exact Eq.refl _ | intro _ | with_reducible apply Stays.ite | with_reducible apply Stays.ite_fst
    | with_reducible apply latchIsobar_stays | with_reducible apply State.arriveAt_stays
    | (refine Stays.of_eq (by with_reducible assumption) ?_) | (simp only [stays_mk]) | split

theorem execIsobarLatch_stays {s t : State} (hn : execIsobarLatch s = .next t) : Stays s t := by
  unfold execIsobarLatch at hn
  injection hn with hn
  subst hn
  have hz0 : Stays s s := Stays.refl s
  repeat' first
    | with_reducible assumption | exact Nat.le_refl _ | exact id | exact Eq.refl _ | intro _ | with_reducible apply Stays.ite | with_reducible apply Stays.ite_fst
    | with_reducible apply isobarDue_stays
    | (refine Stays.of_eq (by with_reducible assumption) ?_) | (simp only [stays_mk]) | split

theorem sendSync_stays {z0 s : State} {p : Nat} (hz0 : Stays z0 s) : Stays z0 (sendSync s p) := by
  unfold sendSync
  repeat' first
    | with_reducible assumption | exact Nat.le_refl _ | exact id | exact Eq.refl _ | intro _ | with_reducible apply Stays.ite | with_reducible apply Stays.ite_fst
    | with_reducible apply State.arriveAt_stays | with_reducible apply sendPtp_stays | with_reducible apply State.modPtp_stays
    | with_reducible apply askDelay_stays
    | (refine Stays.of_eq (by with_reducible assumption) ?_) | (simp only [stays_mk]) | split

theorem execPtpSyncSend_stays {s t : State} {port : BitVec 4} (hn : execPtpSyncSend port s = .next t) : Stays s t := by
  unfold execPtpSyncSend at hn
  injection hn with hn
  subst hn
  have hz0 : Stays s s := Stays.refl s
  repeat' first
    | with_reducible assumption | exact Nat.le_refl _ | exact id | exact Eq.refl _ | intro _ | with_reducible apply Stays.ite | with_reducible apply Stays.ite_fst
    | with_reducible apply sendSync_stays
    | (refine Stays.of_eq (by with_reducible assumption) ?_) | (simp only [stays_mk]) | split

theorem sendAnnounce_stays {z0 s : State} {p : Nat} (hz0 : Stays z0 s) : Stays z0 (sendAnnounce s p) := by
  unfold sendAnnounce
  repeat' first
    | with_reducible assumption | exact Nat.le_refl _ | exact id | exact Eq.refl _ | intro _ | with_reducible apply Stays.ite | with_reducible apply Stays.ite_fst
    | with_reducible apply drawFree_stays | with_reducible apply sendPtp_stays
    | (refine Stays.of_eq (by with_reducible assumption) ?_) | (simp only [stays_mk]) | split

theorem execAnnounceSend_stays {s t : State} {port : BitVec 4} (hn : execAnnounceSend port s = .next t) : Stays s t := by
  unfold execAnnounceSend at hn
  injection hn with hn
  subst hn
  have hz0 : Stays s s := Stays.refl s
  repeat' first
    | with_reducible assumption | exact Nat.le_refl _ | exact id | exact Eq.refl _ | intro _ | with_reducible apply Stays.ite | with_reducible apply Stays.ite_fst
    | with_reducible apply sendAnnounce_stays
    | (refine Stays.of_eq (by with_reducible assumption) ?_) | (simp only [stays_mk]) | split

theorem peerDelay_stays {z0 s : State} {p : Nat} {m : PtpMsg} {sub : Nat} (hz0 : Stays z0 s) : Stays z0 (peerDelay s p m sub) := by
  unfold peerDelay
  repeat' first
    | with_reducible assumption | exact Nat.le_refl _ | exact id | exact Eq.refl _ | intro _ | with_reducible apply Stays.ite | with_reducible apply Stays.ite_fst
    | with_reducible apply takePtp_stays | with_reducible apply sendPtp_stays | with_reducible apply State.modPtp_stays
    | with_reducible apply State.modPort_stays
    | (refine Stays.of_eq (by with_reducible assumption) ?_) | (simp only [stays_mk]) | split

theorem execPdelayReq_stays {s t : State} {port : BitVec 4} {msg : PtpMsg} {sub : BitVec 4} (hn : execPdelayReq port msg sub s = .next t) : Stays s t := by
  unfold execPdelayReq at hn
  injection hn with hn
  subst hn
  have hz0 : Stays s s := Stays.refl s
  repeat' first
    | with_reducible assumption | exact Nat.le_refl _ | exact id | exact Eq.refl _ | intro _ | with_reducible apply Stays.ite | with_reducible apply Stays.ite_fst
    | with_reducible apply peerDelay_stays
    | (refine Stays.of_eq (by with_reducible assumption) ?_) | (simp only [stays_mk]) | split

theorem endToEnd_stays {z0 s : State} {p : Nat} {m : PtpMsg} {sub : Nat} (hz0 : Stays z0 s) : Stays z0 (endToEnd s p m sub) := by
  unfold endToEnd
  repeat' first
    | with_reducible assumption | exact Nat.le_refl _ | exact id | exact Eq.refl _ | intro _ | with_reducible apply Stays.ite | with_reducible apply Stays.ite_fst
    | with_reducible apply takePtp_stays | with_reducible apply sendPtpOn_stays | with_reducible apply State.modPtp_stays
    | (refine Stays.of_eq (by with_reducible assumption) ?_) | (simp only [stays_mk]) | split

theorem execDelayReq_stays {s t : State} {port : BitVec 4} {msg : PtpMsg} {sub : BitVec 4} (hn : execDelayReq port msg sub s = .next t) : Stays s t := by
  unfold execDelayReq at hn
  injection hn with hn
  subst hn
  have hz0 : Stays s s := Stays.refl s
  repeat' first
    | with_reducible assumption | exact Nat.le_refl _ | exact id | exact Eq.refl _ | intro _ | with_reducible apply Stays.ite | with_reducible apply Stays.ite_fst
    | with_reducible apply endToEnd_stays
    | (refine Stays.of_eq (by with_reducible assumption) ?_) | (simp only [stays_mk]) | split

end Sys2Proof.Machine
end

