-- ==== Sys2Proof/Laws/StaysManagement.lean ====
section
/-! SUPPORT. The operations of Machine/Management.lean keep what `Stays` names. -/

namespace Sys2Proof.Machine

theorem after_stays {s0 s : State} {o : Host.Outcome State Fault Refusal} (h : Stays s0 s)
    (ho : ∀ t, o = .next t → Stays s t) : Stays s0 (after o s) := by
  unfold after
  split
  · exact h.trans (ho _ rfl)
  · exact h
  · exact h

theorem goStage_stays {z0 s : State} {d : Door} {l : BitVec 2} (hz0 : Stays z0 s) : Stays z0 (goStage s d l) := by
  unfold goStage
  repeat' first
    | with_reducible assumption | exact Nat.le_refl _ | exact id | exact Eq.refl _ | intro _ | with_reducible apply Stays.ite | with_reducible apply Stays.ite_fst
    | exact execFwStageLoad_stays (by with_reducible assumption) | exact execFwStageCommit_stays (by with_reducible assumption) | exact execFwStageAbort_stays (by with_reducible assumption)
    | exact execFwStageAdvance_stays (by with_reducible assumption) | with_reducible apply after_stays | with_reducible apply mailGate_stays
    | with_reducible apply answer_stays
    | (refine Stays.of_eq (by with_reducible assumption) ?_) | (simp only [stays_mk]) | split

theorem mailGo_stays {z0 s : State} {d : Door} {l : BitVec 2} (hz0 : Stays z0 s) : Stays z0 (mailGo s d l) := by
  unfold mailGo
  repeat' first
    | with_reducible assumption | exact Nat.le_refl _ | exact id | exact Eq.refl _ | intro _ | with_reducible apply Stays.ite | with_reducible apply Stays.ite_fst
    | exact execMbxInfo_stays (by with_reducible assumption) | exact execInstCreate_stays (by with_reducible assumption) | exact execInstCalm_stays (by with_reducible assumption)
    | exact execInstReset_stays (by with_reducible assumption) | exact execInstRemove_stays (by with_reducible assumption) | exact execPlanLoad_stays (by with_reducible assumption)
    | exact execPlanArm_stays (by with_reducible assumption) | exact execPlanCancel_stays (by with_reducible assumption) | exact execPlanUnload_stays (by with_reducible assumption)
    | exact execSyncReclaim_stays (by with_reducible assumption) | exact execQpOpen_stays (by with_reducible assumption) | exact execQpClose_stays (by with_reducible assumption)
    | exact execTimeTod_stays (by with_reducible assumption) | exact execFwQuery_stays (by with_reducible assumption) | exact execIdentity_stays (by with_reducible assumption)
    | exact execAttest_stays (by with_reducible assumption) | with_reducible apply after_stays | with_reducible apply goStage_stays
    | with_reducible apply mailGate_stays
    | (refine Stays.of_eq (by with_reducible assumption) ?_) | (simp only [stays_mk]) | split

theorem execI3cIdentity_stays {s t : State} (hn : execI3cIdentity s = .next t) : Stays s t := by
  unfold execI3cIdentity at hn
  injection hn with hn
  subst hn
  have hz0 : Stays s s := Stays.refl s
  repeat' first
    | with_reducible assumption | exact Nat.le_refl _ | exact id | exact Eq.refl _ | intro _ | with_reducible apply Stays.ite | with_reducible apply Stays.ite_fst
    | with_reducible apply State.sent_stays
    | (refine Stays.of_eq (by with_reducible assumption) ?_) | (simp only [stays_mk]) | split

theorem i3cRead_stays {z0 s : State} {bytes : List Byte} (hz0 : Stays z0 s) : Stays z0 (i3cRead s bytes) := by
  unfold i3cRead
  repeat' first
    | with_reducible assumption | exact Nat.le_refl _ | exact id | exact Eq.refl _ | intro _ | with_reducible apply Stays.ite | with_reducible apply Stays.ite_fst
    | with_reducible apply State.sent_stays
    | (refine Stays.of_eq (by with_reducible assumption) ?_) | (simp only [stays_mk]) | split

theorem i3cStore_stays {z0 s : State} {w : Nat} {v : Word} (hz0 : Stays z0 s) : Stays z0 (i3cStore s w v) := by
  unfold i3cStore
  repeat' first
    | with_reducible assumption | exact Nat.le_refl _ | exact id | exact Eq.refl _ | intro _ | with_reducible apply Stays.ite | with_reducible apply Stays.ite_fst
    | with_reducible apply State.modDoor_stays
    | (refine Stays.of_eq (by with_reducible assumption) ?_) | (simp only [stays_mk]) | split

theorem execI3cMbxWr_stays {s t : State} {w : Byte} {data : Word} (hn : execI3cMbxWr w data s = .next t) : Stays s t := by
  unfold execI3cMbxWr at hn
  injection hn with hn
  subst hn
  have hz0 : Stays s s := Stays.refl s
  repeat' first
    | with_reducible assumption | exact Nat.le_refl _ | exact id | exact Eq.refl _ | intro _ | with_reducible apply Stays.ite | with_reducible apply Stays.ite_fst
    | with_reducible apply i3cStore_stays
    | (refine Stays.of_eq (by with_reducible assumption) ?_) | (simp only [stays_mk]) | split

theorem execI3cMbxGo_stays {s t : State} (hn : execI3cMbxGo s = .next t) : Stays s t := by
  unfold execI3cMbxGo at hn
  injection hn with hn
  subst hn
  have hz0 : Stays s s := Stays.refl s
  repeat' first
    | with_reducible assumption | exact Nat.le_refl _ | exact id | exact Eq.refl _ | intro _ | with_reducible apply Stays.ite | with_reducible apply Stays.ite_fst
    | with_reducible apply mailGo_stays
    | (refine Stays.of_eq (by with_reducible assumption) ?_) | (simp only [stays_mk]) | split

theorem execI3cMbxRd_stays {s t : State} {w : Byte} (hn : execI3cMbxRd w s = .next t) : Stays s t := by
  unfold execI3cMbxRd at hn
  injection hn with hn
  subst hn
  have hz0 : Stays s s := Stays.refl s
  repeat' first
    | with_reducible assumption | exact Nat.le_refl _ | exact id | exact Eq.refl _ | intro _ | with_reducible apply Stays.ite | with_reducible apply Stays.ite_fst
    | with_reducible apply i3cRead_stays
    | (refine Stays.of_eq (by with_reducible assumption) ?_) | (simp only [stays_mk]) | split

theorem execI3cMbxStat_stays {s t : State} (hn : execI3cMbxStat s = .next t) : Stays s t := by
  unfold execI3cMbxStat at hn
  injection hn with hn
  subst hn
  have hz0 : Stays s s := Stays.refl s
  repeat' first
    | with_reducible assumption | exact Nat.le_refl _ | exact id | exact Eq.refl _ | intro _ | with_reducible apply Stays.ite | with_reducible apply Stays.ite_fst
    | with_reducible apply i3cRead_stays
    | (refine Stays.of_eq (by with_reducible assumption) ?_) | (simp only [stays_mk]) | split

theorem setDyn_stays {z0 s : State} {a : Option Nat} (hz0 : Stays z0 s) : Stays z0 (setDyn s a) := by
  unfold setDyn
  repeat' first
    | with_reducible assumption | exact Nat.le_refl _ | exact id | exact Eq.refl _ | intro _ | with_reducible apply Stays.ite | with_reducible apply Stays.ite_fst
    | (refine Stays.of_eq (by with_reducible assumption) ?_) | (simp only [stays_mk]) | split

theorem execSetdasa_stays {s t : State} {dyn : BitVec 7} (hn : execSetdasa dyn s = .next t) : Stays s t := by
  unfold execSetdasa at hn
  injection hn with hn
  subst hn
  have hz0 : Stays s s := Stays.refl s
  repeat' first
    | with_reducible assumption | exact Nat.le_refl _ | exact id | exact Eq.refl _ | intro _ | with_reducible apply Stays.ite | with_reducible apply Stays.ite_fst
    | with_reducible apply setDyn_stays
    | (refine Stays.of_eq (by with_reducible assumption) ?_) | (simp only [stays_mk]) | split

theorem execEntdaa_stays {s t : State} {dyn : BitVec 7} (hn : execEntdaa dyn s = .next t) : Stays s t := by
  unfold execEntdaa at hn
  injection hn with hn
  subst hn
  have hz0 : Stays s s := Stays.refl s
  repeat' first
    | with_reducible assumption | exact Nat.le_refl _ | exact id | exact Eq.refl _ | intro _ | with_reducible apply Stays.ite | with_reducible apply Stays.ite_fst
    | with_reducible apply setDyn_stays
    | (refine Stays.of_eq (by with_reducible assumption) ?_) | (simp only [stays_mk]) | split

theorem execRstdaa_stays {s t : State} (hn : execRstdaa s = .next t) : Stays s t := by
  unfold execRstdaa at hn
  injection hn with hn
  subst hn
  have hz0 : Stays s s := Stays.refl s
  repeat' first
    | with_reducible assumption | exact Nat.le_refl _ | exact id | exact Eq.refl _ | intro _ | with_reducible apply Stays.ite | with_reducible apply Stays.ite_fst
    | with_reducible apply setDyn_stays
    | (refine Stays.of_eq (by with_reducible assumption) ?_) | (simp only [stays_mk]) | split

theorem execGetpid_stays {s t : State} (hn : execGetpid s = .next t) : Stays s t := by
  unfold execGetpid at hn
  injection hn with hn
  subst hn
  have hz0 : Stays s s := Stays.refl s
  repeat' first
    | with_reducible assumption | exact Nat.le_refl _ | exact id | exact Eq.refl _ | intro _ | with_reducible apply Stays.ite | with_reducible apply Stays.ite_fst
    | with_reducible apply State.sent_stays
    | (refine Stays.of_eq (by with_reducible assumption) ?_) | (simp only [stays_mk]) | split

theorem sendFreeByte_stays {z0 s : State}  (hz0 : Stays z0 s) : Stays z0 (sendFreeByte s) := by
  unfold sendFreeByte
  repeat' first
    | with_reducible assumption | exact Nat.le_refl _ | exact id | exact Eq.refl _ | intro _ | with_reducible apply Stays.ite | with_reducible apply Stays.ite_fst
    | with_reducible apply drawFree_stays | with_reducible apply State.sent_stays
    | (refine Stays.of_eq (by with_reducible assumption) ?_) | (simp only [stays_mk]) | split

theorem execGetbcr_stays {s t : State} (hn : execGetbcr s = .next t) : Stays s t := by
  unfold execGetbcr at hn
  injection hn with hn
  subst hn
  have hz0 : Stays s s := Stays.refl s
  repeat' first
    | with_reducible assumption | exact Nat.le_refl _ | exact id | exact Eq.refl _ | intro _ | with_reducible apply Stays.ite | with_reducible apply Stays.ite_fst
    | with_reducible apply sendFreeByte_stays
    | (refine Stays.of_eq (by with_reducible assumption) ?_) | (simp only [stays_mk]) | split

theorem execGetdcr_stays {s t : State} (hn : execGetdcr s = .next t) : Stays s t := by
  unfold execGetdcr at hn
  injection hn with hn
  subst hn
  have hz0 : Stays s s := Stays.refl s
  repeat' first
    | with_reducible assumption | exact Nat.le_refl _ | exact id | exact Eq.refl _ | intro _ | with_reducible apply Stays.ite | with_reducible apply Stays.ite_fst
    | with_reducible apply sendFreeByte_stays
    | (refine Stays.of_eq (by with_reducible assumption) ?_) | (simp only [stays_mk]) | split

end Sys2Proof.Machine
end

