-- ==== Sys2Proof/Laws/StaysTestJtag.lean ====
section
/-! SUPPORT. The operations of Machine/TestJtag.lean keep what `Stays` names. -/

namespace Sys2Proof.Machine

theorem setLoop_stays {z0 s : State} {p : Nat} {v : Word} (hz0 : Stays z0 s) : Stays z0 (setLoop s p v) := by
  unfold setLoop
  repeat' first
    | with_reducible assumption | exact Nat.le_refl _ | exact id | exact Eq.refl _ | intro _ | with_reducible apply Stays.ite | with_reducible apply Stays.ite_fst
    | with_reducible apply State.modTst_stays
    | (refine Stays.of_eq (by with_reducible assumption) ?_) | (simp only [stays_mk]) | split

theorem execTstLoopWrite_stays {s t : State} {link : BitVec 2} {port : BitVec 4} {value : Word} (hn : execTstLoopWrite link port value s = .next t) : Stays s t := by
  unfold execTstLoopWrite at hn
  injection hn with hn
  subst hn
  have hz0 : Stays s s := Stays.refl s
  repeat' first
    | with_reducible assumption | exact Nat.le_refl _ | exact id | exact Eq.refl _ | intro _ | with_reducible apply Stays.ite | with_reducible apply Stays.ite_fst
    | with_reducible apply ctlWrite_stays | with_reducible apply setLoop_stays
    | (refine Stays.of_eq (by with_reducible assumption) ?_) | (simp only [stays_mk]) | split

theorem setPlLoop_stays {z0 s : State} {l : Nat} {v : Word} (hz0 : Stays z0 s) : Stays z0 (setPlLoop s l v) := by
  unfold setPlLoop
  repeat' first
    | with_reducible assumption | exact Nat.le_refl _ | exact id | exact Eq.refl _ | intro _ | with_reducible apply Stays.ite | with_reducible apply Stays.ite_fst
    | with_reducible apply State.modTst_stays
    | (refine Stays.of_eq (by with_reducible assumption) ?_) | (simp only [stays_mk]) | split

theorem execTstPlLoopWrite_stays {s t : State} {link : BitVec 2} {pl : BitVec 2} {value : Word} (hn : execTstPlLoopWrite link pl value s = .next t) : Stays s t := by
  unfold execTstPlLoopWrite at hn
  injection hn with hn
  subst hn
  have hz0 : Stays s s := Stays.refl s
  repeat' first
    | with_reducible assumption | exact Nat.le_refl _ | exact id | exact Eq.refl _ | intro _ | with_reducible apply Stays.ite | with_reducible apply Stays.ite_fst
    | with_reducible apply ctlWrite_stays | with_reducible apply setPlLoop_stays
    | (refine Stays.of_eq (by with_reducible assumption) ?_) | (simp only [stays_mk]) | split

theorem startMemTest_stays {z0 s : State} {v : Word} (hz0 : Stays z0 s) : Stays z0 (startMemTest s v) := by
  unfold startMemTest
  repeat' first
    | with_reducible assumption | exact Nat.le_refl _ | exact id | exact Eq.refl _ | intro _ | with_reducible apply Stays.ite | with_reducible apply Stays.ite_fst
    | with_reducible apply State.modTst_stays
    | (refine Stays.of_eq (by with_reducible assumption) ?_) | (simp only [stays_mk]) | split

theorem memRow_stays {z0 s : State} {l : Nat} {v : Word} {cmd : Nat} (hz0 : Stays z0 s) : Stays z0 (memRow s l v cmd) := by
  unfold memRow
  repeat' first
    | with_reducible assumption | exact Nat.le_refl _ | exact id | exact Eq.refl _ | intro _ | with_reducible apply Stays.ite | with_reducible apply Stays.ite_fst
    | with_reducible apply ctlWrite_stays | with_reducible apply startMemTest_stays
    | (refine Stays.of_eq (by with_reducible assumption) ?_) | (simp only [stays_mk]) | split

theorem execPhyLoop_stays {s t : State} {link : BitVec 2} {value : Word} (hn : execPhyLoop link value s = .next t) : Stays s t := by
  unfold execPhyLoop at hn
  injection hn with hn
  subst hn
  have hz0 : Stays s s := Stays.refl s
  repeat' first
    | with_reducible assumption | exact Nat.le_refl _ | exact id | exact Eq.refl _ | intro _ | with_reducible apply Stays.ite | with_reducible apply Stays.ite_fst
    | with_reducible apply memRow_stays
    | (refine Stays.of_eq (by with_reducible assumption) ?_) | (simp only [stays_mk]) | split

theorem execSelfTest_stays {s t : State} {link : BitVec 2} {value : Word} (hn : execSelfTest link value s = .next t) : Stays s t := by
  unfold execSelfTest at hn
  injection hn with hn
  subst hn
  have hz0 : Stays s s := Stays.refl s
  repeat' first
    | with_reducible assumption | exact Nat.le_refl _ | exact id | exact Eq.refl _ | intro _ | with_reducible apply Stays.ite | with_reducible apply Stays.ite_fst
    | with_reducible apply memRow_stays
    | (refine Stays.of_eq (by with_reducible assumption) ?_) | (simp only [stays_mk]) | split

theorem logFailing_stays {z0 s : State} {a : Nat} (hz0 : Stays z0 s) : Stays z0 (logFailing s a) := by
  unfold logFailing
  repeat' first
    | with_reducible assumption | exact Nat.le_refl _ | exact id | exact Eq.refl _ | intro _ | with_reducible apply Stays.ite | with_reducible apply Stays.ite_fst
    | with_reducible apply raiseFault_stays
    | (refine Stays.of_eq (by with_reducible assumption) ?_) | (simp only [stays_mk]) | split

theorem clearPool_stays {s0 s : State} {st : BitVec 12} (h : Stays s0 s) : Stays s0 (clearPool s st) := by
  unfold clearPool
  have hb : Stays s0 (takeBack s [0, 1, 2, 3] (fun e => testedAddr s st (e.1 * 64))) := takeBack_stays h
  dsimp only
  generalize takeBack s _ _ = s1 at hb ⊢
  have h1 : ∀ p b, Stays s0 { s1 with mem := s1.mem.filter p, hbm := b } := fun p b =>
    hb.mem_only rfl (fun x => wf_filter _ x) rfl rfl rfl rfl rfl rfl
  split
  · exact applyInjection_stays (h1 _ _)
  · exact h1 _ _

theorem endMemTest_stays {z0 s : State} {failing : List (BitVec 40)} (hz0 : Stays z0 s) : Stays z0 (endMemTest s failing) := by
  unfold endMemTest
  repeat' first
    | with_reducible assumption | exact Nat.le_refl _ | exact id | exact Eq.refl _ | intro _ | with_reducible apply Stays.ite | with_reducible apply Stays.ite_fst
    | with_reducible apply forEach_stays | with_reducible apply logFailing_stays | with_reducible apply clearPool_stays
    | with_reducible apply State.modTst_stays
    | (refine Stays.of_eq (by with_reducible assumption) ?_) | (simp only [stays_mk]) | split

theorem execMemTestComplete_stays {s t : State} {failing : List (BitVec 40)} (hn : execMemTestComplete failing s = .next t) : Stays s t := by
  unfold execMemTestComplete at hn
  injection hn with hn
  subst hn
  have hz0 : Stays s s := Stays.refl s
  repeat' first
    | with_reducible assumption | exact Nat.le_refl _ | exact id | exact Eq.refl _ | intro _ | with_reducible apply Stays.ite | with_reducible apply Stays.ite_fst
    | with_reducible apply endMemTest_stays
    | (refine Stays.of_eq (by with_reducible assumption) ?_) | (simp only [stays_mk]) | split

theorem setInject_stays {z0 s : State} {v : Word} (hz0 : Stays z0 s) : Stays z0 (setInject s v) := by
  unfold setInject
  repeat' first
    | with_reducible assumption | exact Nat.le_refl _ | exact id | exact Eq.refl _ | intro _ | with_reducible apply Stays.ite | with_reducible apply Stays.ite_fst
    | with_reducible apply State.modTst_stays | with_reducible apply inject_stays
    | (refine Stays.of_eq (by with_reducible assumption) ?_) | (simp only [stays_mk]) | split

theorem execTstInjectWrite_stays {s t : State} {link : BitVec 2} {value : Word} (hn : execTstInjectWrite link value s = .next t) : Stays s t := by
  unfold execTstInjectWrite at hn
  injection hn with hn
  subst hn
  have hz0 : Stays s s := Stays.refl s
  repeat' first
    | with_reducible assumption | exact Nat.le_refl _ | exact id | exact Eq.refl _ | intro _ | with_reducible apply Stays.ite | with_reducible apply Stays.ite_fst
    | with_reducible apply ctlWrite_stays | with_reducible apply setInject_stays
    | (refine Stays.of_eq (by with_reducible assumption) ?_) | (simp only [stays_mk]) | split

theorem loadTap_stays {z0 s : State} {i : JtagInstr} (hz0 : Stays z0 s) : Stays z0 (loadTap s i) := by
  unfold loadTap
  repeat' first
    | with_reducible assumption | exact Nat.le_refl _ | exact id | exact Eq.refl _ | intro _ | with_reducible apply Stays.ite | with_reducible apply Stays.ite_fst
    | with_reducible apply State.modTst_stays
    | (refine Stays.of_eq (by with_reducible assumption) ?_) | (simp only [stays_mk]) | split

theorem loadDriving_stays {z0 s : State} {i : JtagInstr} (hz0 : Stays z0 s) : Stays z0 (loadDriving s i) := by
  unfold loadDriving
  repeat' first
    | with_reducible assumption | exact Nat.le_refl _ | exact id | exact Eq.refl _ | intro _ | with_reducible apply Stays.ite | with_reducible apply Stays.ite_fst
    | with_reducible apply loadTap_stays
    | (refine Stays.of_eq (by with_reducible assumption) ?_) | (simp only [stays_mk]) | split

theorem readIdcode_stays {z0 s : State}  (hz0 : Stays z0 s) : Stays z0 (readIdcode s) := by
  unfold readIdcode
  repeat' first
    | with_reducible assumption | exact Nat.le_refl _ | exact id | exact Eq.refl _ | intro _ | with_reducible apply Stays.ite | with_reducible apply Stays.ite_fst
    | with_reducible apply loadTap_stays | with_reducible apply State.sent_stays
    | (refine Stays.of_eq (by with_reducible assumption) ?_) | (simp only [stays_mk]) | split

theorem execBypass_stays {s t : State} (hn : execBypass s = .next t) : Stays s t := by
  unfold execBypass at hn
  injection hn with hn
  subst hn
  have hz0 : Stays s s := Stays.refl s
  repeat' first
    | with_reducible assumption | exact Nat.le_refl _ | exact id | exact Eq.refl _ | intro _ | with_reducible apply Stays.ite | with_reducible apply Stays.ite_fst
    | with_reducible apply loadTap_stays
    | (refine Stays.of_eq (by with_reducible assumption) ?_) | (simp only [stays_mk]) | split

theorem execIdcode_stays {s t : State} (hn : execIdcode s = .next t) : Stays s t := by
  unfold execIdcode at hn
  injection hn with hn
  subst hn
  have hz0 : Stays s s := Stays.refl s
  repeat' first
    | with_reducible assumption | exact Nat.le_refl _ | exact id | exact Eq.refl _ | intro _ | with_reducible apply Stays.ite | with_reducible apply Stays.ite_fst
    | with_reducible apply readIdcode_stays
    | (refine Stays.of_eq (by with_reducible assumption) ?_) | (simp only [stays_mk]) | split

theorem execSamplePreload_stays {s t : State} (hn : execSamplePreload s = .next t) : Stays s t := by
  unfold execSamplePreload at hn
  injection hn with hn
  subst hn
  have hz0 : Stays s s := Stays.refl s
  repeat' first
    | with_reducible assumption | exact Nat.le_refl _ | exact id | exact Eq.refl _ | intro _ | with_reducible apply Stays.ite | with_reducible apply Stays.ite_fst
    | with_reducible apply loadTap_stays
    | (refine Stays.of_eq (by with_reducible assumption) ?_) | (simp only [stays_mk]) | split

theorem execExtest_stays {s t : State} (hn : execExtest s = .next t) : Stays s t := by
  unfold execExtest at hn
  injection hn with hn
  subst hn
  have hz0 : Stays s s := Stays.refl s
  repeat' first
    | with_reducible assumption | exact Nat.le_refl _ | exact id | exact Eq.refl _ | intro _ | with_reducible apply Stays.ite | with_reducible apply Stays.ite_fst
    | with_reducible apply loadDriving_stays
    | (refine Stays.of_eq (by with_reducible assumption) ?_) | (simp only [stays_mk]) | split

theorem execExtestPulse_stays {s t : State} (hn : execExtestPulse s = .next t) : Stays s t := by
  unfold execExtestPulse at hn
  injection hn with hn
  subst hn
  have hz0 : Stays s s := Stays.refl s
  repeat' first
    | with_reducible assumption | exact Nat.le_refl _ | exact id | exact Eq.refl _ | intro _ | with_reducible apply Stays.ite | with_reducible apply Stays.ite_fst
    | with_reducible apply loadDriving_stays
    | (refine Stays.of_eq (by with_reducible assumption) ?_) | (simp only [stays_mk]) | split

theorem execExtestTrain_stays {s t : State} (hn : execExtestTrain s = .next t) : Stays s t := by
  unfold execExtestTrain at hn
  injection hn with hn
  subst hn
  have hz0 : Stays s s := Stays.refl s
  repeat' first
    | with_reducible assumption | exact Nat.le_refl _ | exact id | exact Eq.refl _ | intro _ | with_reducible apply Stays.ite | with_reducible apply Stays.ite_fst
    | with_reducible apply loadDriving_stays
    | (refine Stays.of_eq (by with_reducible assumption) ?_) | (simp only [stays_mk]) | split

theorem execClamp_stays {s t : State} (hn : execClamp s = .next t) : Stays s t := by
  unfold execClamp at hn
  injection hn with hn
  subst hn
  have hz0 : Stays s s := Stays.refl s
  repeat' first
    | with_reducible assumption | exact Nat.le_refl _ | exact id | exact Eq.refl _ | intro _ | with_reducible apply Stays.ite | with_reducible apply Stays.ite_fst
    | with_reducible apply loadDriving_stays
    | (refine Stays.of_eq (by with_reducible assumption) ?_) | (simp only [stays_mk]) | split

theorem execHighz_stays {s t : State} (hn : execHighz s = .next t) : Stays s t := by
  unfold execHighz at hn
  injection hn with hn
  subst hn
  have hz0 : Stays s s := Stays.refl s
  repeat' first
    | with_reducible assumption | exact Nat.le_refl _ | exact id | exact Eq.refl _ | intro _ | with_reducible apply Stays.ite | with_reducible apply Stays.ite_fst
    | with_reducible apply loadDriving_stays
    | (refine Stays.of_eq (by with_reducible assumption) ?_) | (simp only [stays_mk]) | split

end Sys2Proof.Machine
end

