-- ==== Sys2Proof/Laws/StaysControl.lean ====
section
/-! SUPPORT. The operations of Machine/Control.lean keep what `Stays` names. -/

namespace Sys2Proof.Machine

theorem writePtpCfg_stays {z0 s : State} {p : Nat} {v : Word} (hz0 : Stays z0 s) : Stays z0 (writePtpCfg s p v) := by
  unfold writePtpCfg
  repeat' first
    | with_reducible assumption | exact Nat.le_refl _ | exact id | exact Eq.refl _ | intro _ | with_reducible apply Stays.ite | with_reducible apply Stays.ite_fst
    | with_reducible apply State.modTime_stays
    | (refine Stays.of_eq (by with_reducible assumption) ?_) | (simp only [stays_mk]) | split

theorem clearIsobar_stays {z0 s : State} {v : Word} (hz0 : Stays z0 s) : Stays z0 (clearIsobar s v) := by
  unfold clearIsobar
  repeat' first
    | with_reducible assumption | exact Nat.le_refl _ | exact id | exact Eq.refl _ | intro _ | with_reducible apply Stays.ite | with_reducible apply Stays.ite_fst
    | with_reducible apply State.modTime_stays
    | (refine Stays.of_eq (by with_reducible assumption) ?_) | (simp only [stays_mk]) | split

theorem vectorWrite_stays {z0 s : State} {i : Nat} {v : Word} {f : Bool → Nat → State} (h_f : ∀ x1 x2, Stays z0 (f x1 x2)) (hz0 : Stays z0 s) : Stays z0 (vectorWrite s i v f) := by
  unfold vectorWrite
  repeat' first
    | with_reducible assumption | exact Nat.le_refl _ | exact id | exact Eq.refl _ | intro _ | with_reducible apply Stays.ite | with_reducible apply Stays.ite_fst
    | with_reducible apply h_f
    | (refine Stays.of_eq (by with_reducible assumption) ?_) | (simp only [stays_mk]) | split

theorem writeEthCfg_stays {z0 s : State} {p : Nat} {v : Word} (hz0 : Stays z0 s) : Stays z0 (writeEthCfg s p v) := by
  unfold writeEthCfg
  repeat' first
    | with_reducible assumption | exact Nat.le_refl _ | exact id | exact Eq.refl _ | intro _ | with_reducible apply Stays.ite | with_reducible apply Stays.ite_fst
    | with_reducible apply State.modEth_stays
    | (refine Stays.of_eq (by with_reducible assumption) ?_) | (simp only [stays_mk]) | split

theorem writeVlan_stays {z0 s : State} {f : Vlan → Vlan} (hz0 : Stays z0 s) : Stays z0 (writeVlan s f) := by
  unfold writeVlan
  repeat' first
    | with_reducible assumption | exact Nat.le_refl _ | exact id | exact Eq.refl _ | intro _ | with_reducible apply Stays.ite | with_reducible apply Stays.ite_fst
    | with_reducible apply State.modEth_stays | with_reducible apply announceVlan_stays
    | (refine Stays.of_eq (by with_reducible assumption) ?_) | (simp only [stays_mk]) | split

theorem writePolice_stays {z0 s : State} {p : Nat} {t : Nat} {v : Word} (hz0 : Stays z0 s) : Stays z0 (writePolice s p t v) := by
  unfold writePolice
  repeat' first
    | with_reducible assumption | exact Nat.le_refl _ | exact id | exact Eq.refl _ | intro _ | with_reducible apply Stays.ite | with_reducible apply Stays.ite_fst
    | with_reducible apply State.modEth_stays | with_reducible apply police_stays
    | (refine Stays.of_eq (by with_reducible assumption) ?_) | (simp only [stays_mk]) | split

theorem writeNode_stays {z0 s : State} {v : Word} (hz0 : Stays z0 s) : Stays z0 (writeNode s v) := by
  unfold writeNode
  repeat' first
    | with_reducible assumption | exact Nat.le_refl _ | exact id | exact Eq.refl _ | intro _ | with_reducible apply Stays.ite | with_reducible apply Stays.ite_fst
    | with_reducible apply State.modEth_stays
    | (refine Stays.of_eq (by with_reducible assumption) ?_) | (simp only [stays_mk]) | split

theorem writeApt_stays {z0 s : State} {v : Word} (hz0 : Stays z0 s) : Stays z0 (writeApt s v) := by
  unfold writeApt
  repeat' first
    | with_reducible assumption | exact Nat.le_refl _ | exact id | exact Eq.refl _ | intro _ | with_reducible apply Stays.ite | with_reducible apply Stays.ite_fst
    | with_reducible apply State.modLink_stays
    | (refine Stays.of_eq (by with_reducible assumption) ?_) | (simp only [stays_mk]) | split

theorem writeVec_stays {z0 s : State} {i : Nat} {v : Word} (hz0 : Stays z0 s) : Stays z0 (writeVec s i v) := by
  unfold writeVec
  repeat' first
    | with_reducible assumption | exact Nat.le_refl _ | exact id | exact Eq.refl _ | intro _ | with_reducible apply Stays.ite | with_reducible apply Stays.ite_fst
    | with_reducible apply servePending_stays | with_reducible apply State.modVec_stays
    | (refine Stays.of_eq (by with_reducible assumption) ?_) | (simp only [stays_mk]) | split

theorem writeReq_stays {z0 s : State} {i : Nat} {w : Nat} {v : Word} (hz0 : Stays z0 s) : Stays z0 (writeReq s i w v) := by
  unfold writeReq
  repeat' first
    | with_reducible assumption | exact Nat.le_refl _ | exact id | exact Eq.refl _ | intro _ | with_reducible apply Stays.ite | with_reducible apply Stays.ite_fst
    | with_reducible apply State.modDoor_stays
    | (refine Stays.of_eq (by with_reducible assumption) ?_) | (simp only [stays_mk]) | split

theorem plainWrite_stays {z0 s : State} {l : Nat} {a : Nat} {v : Word} {f : State → State} (h_f : ∀ s, Stays z0 s → Stays z0 (f s)) (hz0 : Stays z0 s) : Stays z0 (plainWrite s l a v f) := by
  unfold plainWrite
  repeat' first
    | with_reducible assumption | exact Nat.le_refl _ | exact id | exact Eq.refl _ | intro _ | with_reducible apply Stays.ite | with_reducible apply Stays.ite_fst
    | with_reducible apply refuseAccess_stays | with_reducible apply violate_stays | with_reducible apply ctlWrite_stays
    | with_reducible apply h_f
    | (refine Stays.of_eq (by with_reducible assumption) ?_) | (simp only [stays_mk]) | split

theorem devTakes_stays {z0 s : State} {off : Nat} {v : Word} (hz0 : Stays z0 s) : Stays z0 (devTakes off v s) := by
  unfold devTakes
  repeat' first
    | with_reducible assumption | exact Nat.le_refl _ | exact id | exact Eq.refl _ | intro _ | with_reducible apply Stays.ite | with_reducible apply Stays.ite_fst
    | with_reducible apply State.modTime_stays | with_reducible apply clearIsobar_stays | with_reducible apply State.modColl_stays
    | with_reducible apply State.modRouting_stays | with_reducible apply writeVlan_stays | with_reducible apply writeNode_stays
    | with_reducible apply State.modHbm_stays | with_reducible apply writeApt_stays | with_reducible apply State.modPwr_stays
    | with_reducible apply State.modFlt_stays | with_reducible apply vectorWrite_stays | with_reducible apply State.modMtr_stays
    | with_reducible apply State.modTst_stays | with_reducible apply writePtpCfg_stays | with_reducible apply writeEthCfg_stays
    | with_reducible apply State.modEth_stays | with_reducible apply writePolice_stays
    | (refine Stays.of_eq (by with_reducible assumption) ?_) | (simp only [stays_mk]) | split

theorem devWrite_stays {z0 s : State} {l : BitVec 2} {off : Nat} {v : Word} (hz0 : Stays z0 s) : Stays z0 (devWrite s l off v) := by
  unfold devWrite
  repeat' first
    | with_reducible assumption | exact Nat.le_refl _ | exact id | exact Eq.refl _ | intro _ | with_reducible apply Stays.ite | with_reducible apply Stays.ite_fst
    | exact execTimeCtrlWrite_stays (by with_reducible assumption) | exact execTimeEpochWrite_stays (by with_reducible assumption) | exact execIsobarArm_stays (by with_reducible assumption)
    | exact execFabNodeWrite_stays (by with_reducible assumption) | exact execRouteCopy_stays (by with_reducible assumption) | exact execRouteDiscard_stays (by with_reducible assumption)
    | exact execTableFrontWrite_stays (by with_reducible assumption) | exact execRouteTblDataWrite_stays (by with_reducible assumption) | exact execPwrCapWrite_stays (by with_reducible assumption)
    | exact execCoreAckWrite_stays (by with_reducible assumption) | exact execPhyLoop_stays (by with_reducible assumption) | exact execSelfTest_stays (by with_reducible assumption)
    | exact execTstInjectWrite_stays (by with_reducible assumption) | exact execFllCfgWrite_stays (by with_reducible assumption) | exact execPlCfgWrite_stays (by with_reducible assumption)
    | exact execForceDown_stays (by with_reducible assumption) | exact execTstLoopWrite_stays (by with_reducible assumption) | exact execTstPlLoopWrite_stays (by with_reducible assumption)
    | with_reducible apply plainWrite_stays | with_reducible apply devTakes_stays | with_reducible apply after_stays
    | (refine Stays.of_eq (by with_reducible assumption) ?_) | (simp only [stays_mk]) | split

theorem winTakes_stays {z0 s : State} {i : BitVec 7} {off : Nat} {l : BitVec 2} {v : Word} (hz0 : Stays z0 s) : Stays z0 (winTakes i off l v s) := by
  unfold winTakes
  repeat' first
    | with_reducible assumption | exact Nat.le_refl _ | exact id | exact Eq.refl _ | intro _ | with_reducible apply Stays.ite | with_reducible apply Stays.ite_fst
    | with_reducible apply State.modWin_stays | with_reducible apply vectorWrite_stays | with_reducible apply segDone_stays
    | with_reducible apply writeVec_stays | with_reducible apply mailGo_stays | with_reducible apply State.modDoor_stays
    | with_reducible apply writeReq_stays
    | (refine Stays.of_eq (by with_reducible assumption) ?_) | (simp only [stays_mk]) | split

theorem winWrite_stays {z0 s : State} {l : BitVec 2} {i : BitVec 7} {off : Nat} {v : Word} (hz0 : Stays z0 s) : Stays z0 (winWrite s l i off v) := by
  unfold winWrite
  repeat' first
    | with_reducible assumption | exact Nat.le_refl _ | exact id | exact Eq.refl _ | intro _ | with_reducible apply Stays.ite | with_reducible apply Stays.ite_fst
    | exact execWqCreate_stays (by with_reducible assumption) | exact execCqCreate_stays (by with_reducible assumption) | exact execSyncInit_stays (by with_reducible assumption)
    | exact execSyncGshareWrite_stays (by with_reducible assumption) | exact execSegSet_stays (by with_reducible assumption) | exact execSegClear_stays (by with_reducible assumption)
    | exact execSyncDoorbell_stays (by with_reducible assumption) | exact execWqDoorbell_stays (by with_reducible assumption) | exact execCqDoorbell_stays (by with_reducible assumption)
    | with_reducible apply after_stays | with_reducible apply plainWrite_stays | with_reducible apply winTakes_stays
    | (refine Stays.of_eq (by with_reducible assumption) ?_) | (simp only [stays_mk]) | split

theorem ctrlWrite_stays {z0 s : State} {l : BitVec 2} {a : Nat} {v : Word} (hz0 : Stays z0 s) : Stays z0 (ctrlWrite s l a v) := by
  unfold ctrlWrite
  repeat' first
    | with_reducible assumption | exact Nat.le_refl _ | exact id | exact Eq.refl _ | intro _ | with_reducible apply Stays.ite | with_reducible apply Stays.ite_fst
    | with_reducible apply winWrite_stays | with_reducible apply devWrite_stays | with_reducible apply plainWrite_stays
    | (refine Stays.of_eq (by with_reducible assumption) ?_) | (simp only [stays_mk]) | split

theorem narrowWrite_stays {z0 s : State} {l : Nat} {a : Nat} (hz0 : Stays z0 s) : Stays z0 (narrowWrite s l a) := by
  unfold narrowWrite
  repeat' first
    | with_reducible assumption | exact Nat.le_refl _ | exact id | exact Eq.refl _ | intro _ | with_reducible apply Stays.ite | with_reducible apply Stays.ite_fst
    | with_reducible apply refuseAccess_stays | with_reducible apply violate_stays
    | (refine Stays.of_eq (by with_reducible assumption) ?_) | (simp only [stays_mk]) | split

theorem execRegisterWrite_stays {s t : State} {link : BitVec 2} {addr : BitVec 34} {value : Word} (hn : execRegisterWrite link addr value s = .next t) : Stays s t := by
  unfold execRegisterWrite at hn
  injection hn with hn
  subst hn
  have hz0 : Stays s s := Stays.refl s
  repeat' first
    | with_reducible assumption | exact Nat.le_refl _ | exact id | exact Eq.refl _ | intro _ | with_reducible apply Stays.ite | with_reducible apply Stays.ite_fst
    | with_reducible apply ctrlWrite_stays | with_reducible apply narrowWrite_stays
    | (refine Stays.of_eq (by with_reducible assumption) ?_) | (simp only [stays_mk]) | split

theorem readCtrl_stays {z0 s : State} {l : Nat} {a : Nat} {n : Nat} (hz0 : Stays z0 s) : Stays z0 (readCtrl s l a n) := by
  unfold readCtrl
  repeat' first
    | with_reducible assumption | exact Nat.le_refl _ | exact id | exact Eq.refl _ | intro _ | with_reducible apply Stays.ite | with_reducible apply Stays.ite_fst
    | with_reducible apply State.sent_stays | with_reducible apply refuseAccess_stays | with_reducible apply violate_stays
    | with_reducible apply advanceSel_stays
    | (refine Stays.of_eq (by with_reducible assumption) ?_) | (simp only [stays_mk]) | split

theorem maskedCtrl_stays {z0 s : State} {l : BitVec 2} {line : Nat} {mask : BitVec 64} {data : BitVec 512} (hz0 : Stays z0 s) : Stays z0 (maskedCtrl s l line mask data) := by
  unfold maskedCtrl
  repeat' first
    | with_reducible assumption | exact Nat.le_refl _ | exact id | exact Eq.refl _ | intro _ | with_reducible apply Stays.ite | with_reducible apply Stays.ite_fst
    | with_reducible apply forEach_stays | with_reducible apply ctrlWrite_stays | with_reducible apply narrowWrite_stays
    | (refine Stays.of_eq (by with_reducible assumption) ?_) | (simp only [stays_mk]) | split

end Sys2Proof.Machine
end

