-- ==== Sys2Proof/Laws/StaysAperture.lean ====
section
/-! SUPPORT. The operations of Machine/Aperture.lean keep what `Stays` names. -/

namespace Sys2Proof.Machine

theorem readHbm_stays {z0 s : State} {l : Nat} {a : Nat} {n : Nat} (hz0 : Stays z0 s) : Stays z0 (readHbm s l a n) := by
  unfold readHbm
  repeat' first
    | with_reducible assumption | exact Nat.le_refl _ | exact id | exact Eq.refl _ | intro _ | with_reducible apply Stays.ite | with_reducible apply Stays.ite_fst
    | with_reducible apply hbmReadBy_stays | with_reducible apply boardBytes_stays | with_reducible apply State.sent_stays
    | with_reducible apply settle_stays
    | (refine Stays.of_eq (by with_reducible assumption) ?_) | (simp only [stays_mk]) | split

theorem readAperture_stays {z0 s : State} {l : Nat} {cls : ReqClass} {a : Nat} {n : Nat} (hz0 : Stays z0 s) : Stays z0 (readAperture s l cls a n) := by
  unfold readAperture
  repeat' first
    | with_reducible assumption | exact Nat.le_refl _ | exact id | exact Eq.refl _ | intro _ | with_reducible apply Stays.ite | with_reducible apply Stays.ite_fst
    | with_reducible apply aptViolate_stays | with_reducible apply State.sent_stays | with_reducible apply readHbm_stays
    | (refine Stays.of_eq (by with_reducible assumption) ?_) | (simp only [stays_mk]) | split

theorem readLine_stays {z0 s : State} {l : Nat} {cls : ReqClass} {own : Bool} {line : Nat} (hz0 : Stays z0 s) : Stays z0 (readLine s l cls own line) := by
  unfold readLine
  repeat' first
    | with_reducible assumption | exact Nat.le_refl _ | exact id | exact Eq.refl _ | intro _ | with_reducible apply Stays.ite | with_reducible apply Stays.ite_fst
    | with_reducible apply aptViolate_stays | with_reducible apply State.sent_stays | with_reducible apply backInvOthers_stays
    | with_reducible apply readHbm_stays | with_reducible apply trackLine_stays
    | (refine Stays.of_eq (by with_reducible assumption) ?_) | (simp only [stays_mk]) | split

theorem readForwarded_stays {z0 s : State} {l : Nat} {n : Nat} (hz0 : Stays z0 s) : Stays z0 (readForwarded s l n) := by
  unfold readForwarded
  repeat' first
    | with_reducible assumption | exact Nat.le_refl _ | exact id | exact Eq.refl _ | intro _ | with_reducible apply Stays.ite | with_reducible apply Stays.ite_fst
    | with_reducible apply aptViolate_stays | with_reducible apply State.sent_stays
    | (refine Stays.of_eq (by with_reducible assumption) ?_) | (simp only [stays_mk]) | split

theorem lineRead_stays {z0 s : State} {l : Nat} {cls : ReqClass} {ctrl : Bool} {a : Nat} {n : Nat} {hbm : State} (h_hbm : Stays z0 hbm) (hz0 : Stays z0 s) : Stays z0 (lineRead s l cls ctrl a n hbm) := by
  unfold lineRead
  repeat' first
    | with_reducible assumption | exact Nat.le_refl _ | exact id | exact Eq.refl _ | intro _ | with_reducible apply Stays.ite | with_reducible apply Stays.ite_fst
    | with_reducible apply readCtrl_stays | with_reducible apply readForwarded_stays | with_reducible apply h_hbm
    | (refine Stays.of_eq (by with_reducible assumption) ?_) | (simp only [stays_mk]) | split

theorem execRdShr_stays {s t : State} {pl : BitVec 2} {cls : ReqClass} {addr : LineAddr} (hn : execRdShr pl cls addr s = .next t) : Stays s t := by
  unfold execRdShr at hn
  injection hn with hn
  subst hn
  have hz0 : Stays s s := Stays.refl s
  repeat' first
    | with_reducible assumption | exact Nat.le_refl _ | exact id | exact Eq.refl _ | intro _ | with_reducible apply Stays.ite | with_reducible apply Stays.ite_fst
    | with_reducible apply lineRead_stays | with_reducible apply readLine_stays
    | (refine Stays.of_eq (by with_reducible assumption) ?_) | (simp only [stays_mk]) | split

theorem execRdOwn_stays {s t : State} {pl : BitVec 2} {cls : ReqClass} {addr : LineAddr} (hn : execRdOwn pl cls addr s = .next t) : Stays s t := by
  unfold execRdOwn at hn
  injection hn with hn
  subst hn
  have hz0 : Stays s s := Stays.refl s
  repeat' first
    | with_reducible assumption | exact Nat.le_refl _ | exact id | exact Eq.refl _ | intro _ | with_reducible apply Stays.ite | with_reducible apply Stays.ite_fst
    | with_reducible apply lineRead_stays | with_reducible apply readLine_stays
    | (refine Stays.of_eq (by with_reducible assumption) ?_) | (simp only [stays_mk]) | split

theorem execRdNc_stays {s t : State} {pl : BitVec 2} {cls : ReqClass} {ctrl : Bool} {addr : BitVec 40} {size : BitVec 7} (hn : execRdNc pl cls ctrl addr size s = .next t) : Stays s t := by
  unfold execRdNc at hn
  injection hn with hn
  subst hn
  have hz0 : Stays s s := Stays.refl s
  repeat' first
    | with_reducible assumption | exact Nat.le_refl _ | exact id | exact Eq.refl _ | intro _ | with_reducible apply Stays.ite | with_reducible apply Stays.ite_fst
    | with_reducible apply lineRead_stays | with_reducible apply readAperture_stays
    | (refine Stays.of_eq (by with_reducible assumption) ?_) | (simp only [stays_mk]) | split

theorem maskedWord_stays {z0 s : State} {a : Nat} {mask : Nat} {bs : List Byte} (hz0 : Stays z0 s) : Stays z0 (maskedWord s a mask bs).1 := by
  unfold maskedWord
  repeat' first
    | with_reducible assumption | exact Nat.le_refl _ | exact id | exact Eq.refl _ | intro _ | with_reducible apply Stays.ite | with_reducible apply Stays.ite_fst
    | with_reducible apply hbmWrite_stays | with_reducible apply hbmRead_stays
    | (refine Stays.of_eq (by with_reducible assumption) ?_) | (simp only [stays_mk]) | split

theorem maskedLine_stays {s0 s : State} {a : Nat} {mask : BitVec 64} {bs : List Byte} (h : Stays s0 s) :
    Stays s0 (maskedLine s a mask bs).1 :=
  foldl_fst_stays h (fun _ _ h => maskedWord_stays h)

theorem ownWrite_stays {z0 s : State} {l : Nat} {a : Nat} {mask : BitVec 64} {bs : List Byte} (hz0 : Stays z0 s) : Stays z0 (ownWrite s l a mask bs).1 := by
  unfold ownWrite
  repeat' first
    | with_reducible assumption | exact Nat.le_refl _ | exact id | exact Eq.refl _ | intro _ | with_reducible apply Stays.ite | with_reducible apply Stays.ite_fst
    | with_reducible apply maskedLine_stays | with_reducible apply State.modLink_stays
    | (refine Stays.of_eq (by with_reducible assumption) ?_) | (simp only [stays_mk]) | split

theorem writeAperture_stays {z0 s : State} {l : Nat} {cls : ReqClass} {line : Nat} {mask : BitVec 64} {data : BitVec 512} (hz0 : Stays z0 s) : Stays z0 (writeAperture s l cls line mask data) := by
  unfold writeAperture
  repeat' first
    | with_reducible assumption | exact Nat.le_refl _ | exact id | exact Eq.refl _ | intro _ | with_reducible apply Stays.ite | with_reducible apply Stays.ite_fst
    | with_reducible apply aptViolate_stays | with_reducible apply ownWrite_stays | with_reducible apply boardBytes_stays
    | with_reducible apply settle_stays | with_reducible apply State.sent_stays
    | (refine Stays.of_eq (by with_reducible assumption) ?_) | (simp only [stays_mk]) | split

theorem lineWrite_stays {z0 s : State} {l : BitVec 2} {cls : ReqClass} {ctrl : Bool} {a : Nat} {mask : BitVec 64} {data : BitVec 512} (hz0 : Stays z0 s) : Stays z0 (lineWrite s l cls ctrl a mask data) := by
  unfold lineWrite
  repeat' first
    | with_reducible assumption | exact Nat.le_refl _ | exact id | exact Eq.refl _ | intro _ | with_reducible apply Stays.ite | with_reducible apply Stays.ite_fst
    | with_reducible apply writeAperture_stays | with_reducible apply maskedCtrl_stays | with_reducible apply aptViolate_stays
    | (refine Stays.of_eq (by with_reducible assumption) ?_) | (simp only [stays_mk]) | split

theorem execWrLine_stays {s t : State} {pl : BitVec 2} {cls : ReqClass} {ctrl : Bool} {addr : BitVec 40} {data : BitVec 512} (hn : execWrLine pl cls ctrl addr data s = .next t) : Stays s t := by
  unfold execWrLine at hn
  injection hn with hn
  subst hn
  have hz0 : Stays s s := Stays.refl s
  repeat' first
    | with_reducible assumption | exact Nat.le_refl _ | exact id | exact Eq.refl _ | intro _ | with_reducible apply Stays.ite | with_reducible apply Stays.ite_fst
    | with_reducible apply lineWrite_stays
    | (refine Stays.of_eq (by with_reducible assumption) ?_) | (simp only [stays_mk]) | split

theorem execWrPart_stays {s t : State} {pl : BitVec 2} {cls : ReqClass} {ctrl : Bool} {addr : BitVec 40} {mask : BitVec 64} {data : BitVec 512} (hn : execWrPart pl cls ctrl addr mask data s = .next t) : Stays s t := by
  unfold execWrPart at hn
  injection hn with hn
  subst hn
  have hz0 : Stays s s := Stays.refl s
  repeat' first
    | with_reducible assumption | exact Nat.le_refl _ | exact id | exact Eq.refl _ | intro _ | with_reducible apply Stays.ite | with_reducible apply Stays.ite_fst
    | with_reducible apply lineWrite_stays
    | (refine Stays.of_eq (by with_reducible assumption) ?_) | (simp only [stays_mk]) | split

end Sys2Proof.Machine
end

