-- ==== Sys2Proof/Laws/StaysFronts.lean ====
section
/-! SUPPORT. The operations of Machine/Fronts.lean keep what `Stays` names. -/

namespace Sys2Proof.Machine

theorem reachFront_stays {z0 s : State}  (hz0 : Stays z0 s) : Stays z0 (reachFront s) := by
  unfold reachFront
  repeat' first
    | with_reducible assumption | exact Nat.le_refl _ | exact id | exact Eq.refl _ | intro _ | with_reducible apply Stays.ite | with_reducible apply Stays.ite_fst
    | with_reducible apply latchDue_stays | with_reducible apply State.arriveAt_stays | with_reducible apply switchPlan_stays
    | with_reducible apply missFront_stays
    | (refine Stays.of_eq (by with_reducible assumption) ?_) | (simp only [stays_mk]) | split

theorem execPlanFront_stays {s t : State} (hn : execPlanFront s = .next t) : Stays s t := by
  unfold execPlanFront at hn
  injection hn with hn
  subst hn
  have hz0 : Stays s s := Stays.refl s
  repeat' first
    | with_reducible assumption | exact Nat.le_refl _ | exact id | exact Eq.refl _ | intro _ | with_reducible apply Stays.ite | with_reducible apply Stays.ite_fst
    | with_reducible apply reachFront_stays
    | (refine Stays.of_eq (by with_reducible assumption) ?_) | (simp only [stays_mk]) | split

theorem rejoin_stays {z0 s : State}  (hz0 : Stays z0 s) : Stays z0 (rejoin s) := by
  unfold rejoin
  repeat' first
    | with_reducible assumption | exact Nat.le_refl _ | exact id | exact Eq.refl _ | intro _ | with_reducible apply Stays.ite | with_reducible apply Stays.ite_fst
    | with_reducible apply switchPlan_stays | with_reducible apply latchDue_stays | with_reducible apply State.arriveAt_stays
    | with_reducible apply resumePlan_stays
    | (refine Stays.of_eq (by with_reducible assumption) ?_) | (simp only [stays_mk]) | split

theorem execRejoinPoint_stays {s t : State} (hn : execRejoinPoint s = .next t) : Stays s t := by
  unfold execRejoinPoint at hn
  injection hn with hn
  subst hn
  have hz0 : Stays s s := Stays.refl s
  repeat' first
    | with_reducible assumption | exact Nat.le_refl _ | exact id | exact Eq.refl _ | intro _ | with_reducible apply Stays.ite | with_reducible apply Stays.ite_fst
    | with_reducible apply rejoin_stays
    | (refine Stays.of_eq (by with_reducible assumption) ?_) | (simp only [stays_mk]) | split

theorem reachTableFront_stays {z0 s : State}  (hz0 : Stays z0 s) : Stays z0 (reachTableFront s) := by
  unfold reachTableFront
  repeat' first
    | with_reducible assumption | exact Nat.le_refl _ | exact id | exact Eq.refl _ | intro _ | with_reducible apply Stays.ite | with_reducible apply Stays.ite_fst
    | with_reducible apply moveInjection_stays | with_reducible apply latchDue_stays | with_reducible apply State.arriveAt_stays
    | with_reducible apply State.modRouting_stays
    | (refine Stays.of_eq (by with_reducible assumption) ?_) | (simp only [stays_mk]) | split

theorem execTableFront_stays {s t : State} (hn : execTableFront s = .next t) : Stays s t := by
  unfold execTableFront at hn
  injection hn with hn
  subst hn
  have hz0 : Stays s s := Stays.refl s
  repeat' first
    | with_reducible assumption | exact Nat.le_refl _ | exact id | exact Eq.refl _ | intro _ | with_reducible apply Stays.ite | with_reducible apply Stays.ite_fst
    | with_reducible apply reachTableFront_stays
    | (refine Stays.of_eq (by with_reducible assumption) ?_) | (simp only [stays_mk]) | split

end Sys2Proof.Machine
end

