-- ==== Sys2Proof/Laws/StaysTransport.lean ====
section
/-! SUPPORT. The operations of Machine/Transport.lean keep what `Stays` names. -/

namespace Sys2Proof.Machine

theorem execZtpPacketSend_stays {s t : State} {qp : BitVec 20} (hn : execZtpPacketSend qp s = .next t) : Stays s t := by
  unfold execZtpPacketSend at hn
  injection hn with hn
  subst hn
  have hz0 : Stays s s := Stays.refl s
  repeat' first
    | with_reducible assumption | exact Nat.le_refl _ | exact id | exact Eq.refl _ | intro _ | with_reducible apply Stays.ite | with_reducible apply Stays.ite_fst
    | with_reducible apply settle_stays | with_reducible apply sendNext_stays
    | (refine Stays.of_eq (by with_reducible assumption) ?_) | (simp only [stays_mk]) | split

theorem takeAck_stays {z0 s : State} {q : Nat} {p : ZtpPacket} (hz0 : Stays z0 s) : Stays z0 (takeAck s q p) := by
  unfold takeAck
  repeat' first
    | with_reducible assumption | exact Nat.le_refl _ | exact id | exact Eq.refl _ | intro _ | with_reducible apply Stays.ite | with_reducible apply Stays.ite_fst
    | with_reducible apply sampleRtt_stays | with_reducible apply advanceAck_stays | with_reducible apply State.modMsg_stays
    | with_reducible apply settleAck_stays | with_reducible apply endMsg_stays
    | (refine Stays.of_eq (by with_reducible assumption) ?_) | (simp only [stays_mk]) | split

theorem execAck_stays {s t : State} {arr : Arrival} {pkt : ZtpPacket} (hn : execAck arr pkt s = .next t) : Stays s t := by
  unfold execAck at hn
  injection hn with hn
  subst hn
  have hz0 : Stays s s := Stays.refl s
  repeat' first
    | with_reducible assumption | exact Nat.le_refl _ | exact id | exact Eq.refl _ | intro _ | with_reducible apply Stays.ite | with_reducible apply Stays.ite_fst
    | with_reducible apply respGate_stays | with_reducible apply takeAck_stays
    | (refine Stays.of_eq (by with_reducible assumption) ?_) | (simp only [stays_mk]) | split

theorem takeNakSequence_stays {z0 s : State} {q : Nat} {e : Nat} (hz0 : Stays z0 s) : Stays z0 (takeNakSequence s q e) := by
  unfold takeNakSequence
  repeat' first
    | with_reducible assumption | exact Nat.le_refl _ | exact id | exact Eq.refl _ | intro _ | with_reducible apply Stays.ite | with_reducible apply Stays.ite_fst
    | with_reducible apply resendFrom_stays | with_reducible apply State.modQp_stays
    | (refine Stays.of_eq (by with_reducible assumption) ?_) | (simp only [stays_mk]) | split

theorem takeNakBusy_stays {z0 s : State} {q : Nat} {port : Nat} {psn : Nat} (hz0 : Stays z0 s) : Stays z0 (takeNakBusy s q port psn) := by
  unfold takeNakBusy
  repeat' first
    | with_reducible assumption | exact Nat.le_refl _ | exact id | exact Eq.refl _ | intro _ | with_reducible apply Stays.ite | with_reducible apply Stays.ite_fst
    | with_reducible apply State.modDie_stays | with_reducible apply State.modQp_stays | with_reducible apply qpError_stays
    | (refine Stays.of_eq (by with_reducible assumption) ?_) | (simp only [stays_mk]) | split

theorem takeNakFailed_stays {z0 s : State} {port : Nat} {q : Nat} {p : ZtpPacket} (hz0 : Stays z0 s) : Stays z0 (takeNakFailed s port q p) := by
  unfold takeNakFailed
  repeat' first
    | with_reducible assumption | exact Nat.le_refl _ | exact id | exact Eq.refl _ | intro _ | with_reducible apply Stays.ite | with_reducible apply Stays.ite_fst
    | with_reducible apply staleDrop_stays | with_reducible apply qpError_stays | with_reducible apply endMsg_stays
    | with_reducible apply resendFrom_stays | with_reducible apply settleAck_stays | with_reducible apply advanceAck_stays
    | (refine Stays.of_eq (by with_reducible assumption) ?_) | (simp only [stays_mk]) | split

theorem takeNak_stays {z0 s : State} {arr : Arrival} {q : Nat} {p : ZtpPacket} (hz0 : Stays z0 s) : Stays z0 (takeNak s arr q p) := by
  unfold takeNak
  repeat' first
    | with_reducible assumption | exact Nat.le_refl _ | exact id | exact Eq.refl _ | intro _ | with_reducible apply Stays.ite | with_reducible apply Stays.ite_fst
    | with_reducible apply takeNakSequence_stays | with_reducible apply takeNakBusy_stays | with_reducible apply takeNakFailed_stays
    | (refine Stays.of_eq (by with_reducible assumption) ?_) | (simp only [stays_mk]) | split

theorem execNak_stays {s t : State} {arr : Arrival} {pkt : ZtpPacket} (hn : execNak arr pkt s = .next t) : Stays s t := by
  unfold execNak at hn
  injection hn with hn
  subst hn
  have hz0 : Stays s s := Stays.refl s
  repeat' first
    | with_reducible assumption | exact Nat.le_refl _ | exact id | exact Eq.refl _ | intro _ | with_reducible apply Stays.ite | with_reducible apply Stays.ite_fst
    | with_reducible apply respGate_stays | with_reducible apply takeNak_stays
    | (refine Stays.of_eq (by with_reducible assumption) ?_) | (simp only [stays_mk]) | split

theorem restoreCopy_stays {z0 s : State} {m : Msg} {bs : List Byte} (hz0 : Stays z0 s) : Stays z0 (restoreCopy s m bs) := by
  unfold restoreCopy
  repeat' first
    | with_reducible assumption | exact Nat.le_refl _ | exact id | exact Eq.refl _ | intro _ | with_reducible apply Stays.ite | with_reducible apply Stays.ite_fst
    | with_reducible apply hbmStore_stays | with_reducible apply State.modFlt_stays
    | (refine Stays.of_eq (by with_reducible assumption) ?_) | (simp only [stays_mk]) | split

theorem placeResponse_stays {z0 s : State} {q : Nat} {m : Msg} {bs : List Byte} (hz0 : Stays z0 s) : Stays z0 (placeResponse s q m bs) := by
  unfold placeResponse
  repeat' first
    | with_reducible assumption | exact Nat.le_refl _ | exact id | exact Eq.refl _ | intro _ | with_reducible apply Stays.ite | with_reducible apply Stays.ite_fst
    | with_reducible apply State.modMsg_stays | with_reducible apply settleAck_stays | with_reducible apply endMsg_stays
    | with_reducible apply xlatWrite_stays | with_reducible apply restoreCopy_stays
    | (refine Stays.of_eq (by with_reducible assumption) ?_) | (simp only [stays_mk]) | split

/-- Both the state before the response was measured and the one after must stay. -/
theorem landReadResp_stays {z0 s0 s : State} {arr : Arrival} {q : Nat} {p : ZtpPacket} (h0 : Stays z0 s0) (h : Stays z0 s) :
    Stays z0 (landReadResp s0 s arr q p) := by
  unfold landReadResp
  repeat' first
    | with_reducible assumption | with_reducible apply Stays.ite
    | with_reducible apply outOfWindow_stays | with_reducible apply placeResponse_stays
    | (simp only [stays_mk]) | split

theorem takeReadResp_stays {z0 s0 s : State} {arr : Arrival} {q : Nat} {p : ZtpPacket} (h0 : Stays z0 s0) (h : Stays z0 s) :
    Stays z0 (takeReadResp s0 s arr q p) :=
  landReadResp_stays h0 (Stays.ite (takeCnp_stays (sampleRtt_stays h)) (sampleRtt_stays h))

theorem execReadResp_stays {s t : State} {arr : Arrival} {pkt : ZtpPacket} (hn : execReadResp arr pkt s = .next t) : Stays s t := by
  unfold execReadResp at hn
  injection hn with hn
  subst hn
  have hz0 : Stays s s := Stays.refl s
  repeat' first
    | with_reducible assumption | exact Nat.le_refl _ | exact id | exact Eq.refl _ | intro _ | with_reducible apply Stays.ite | with_reducible apply Stays.ite_fst
    | with_reducible apply respGate_stays | with_reducible apply takeReadResp_stays
    | (refine Stays.of_eq (by with_reducible assumption) ?_) | (simp only [stays_mk]) | split

theorem takeSyncDone_stays {z0 s : State} {port : Nat} {q : Nat} {p : ZtpPacket} (hz0 : Stays z0 s) : Stays z0 (takeSyncDone s port q p) := by
  unfold takeSyncDone
  repeat' first
    | with_reducible assumption | exact Nat.le_refl _ | exact id | exact Eq.refl _ | intro _ | with_reducible apply Stays.ite | with_reducible apply Stays.ite_fst
    | with_reducible apply staleDrop_stays | with_reducible apply settleAck_stays | with_reducible apply endMsg_stays
    | (refine Stays.of_eq (by with_reducible assumption) ?_) | (simp only [stays_mk]) | split

theorem execSyncDone_stays {s t : State} {arr : Arrival} {pkt : ZtpPacket} (hn : execSyncDone arr pkt s = .next t) : Stays s t := by
  unfold execSyncDone at hn
  injection hn with hn
  subst hn
  have hz0 : Stays s s := Stays.refl s
  repeat' first
    | with_reducible assumption | exact Nat.le_refl _ | exact id | exact Eq.refl _ | intro _ | with_reducible apply Stays.ite | with_reducible apply Stays.ite_fst
    | with_reducible apply respGate_stays | with_reducible apply takeSyncDone_stays
    | (refine Stays.of_eq (by with_reducible assumption) ?_) | (simp only [stays_mk]) | split

theorem execCnp_stays {s t : State} {arr : Arrival} {pkt : ZtpPacket} (hn : execCnp arr pkt s = .next t) : Stays s t := by
  unfold execCnp at hn
  injection hn with hn
  subst hn
  have hz0 : Stays s s := Stays.refl s
  repeat' first
    | with_reducible assumption | exact Nat.le_refl _ | exact id | exact Eq.refl _ | intro _ | with_reducible apply Stays.ite | with_reducible apply Stays.ite_fst
    | with_reducible apply respGate_stays | with_reducible apply takeCnp_stays
    | (refine Stays.of_eq (by with_reducible assumption) ?_) | (simp only [stays_mk]) | split

theorem retryExpired_stays {z0 s : State} {q : Nat} (hz0 : Stays z0 s) : Stays z0 (retryExpired s q) := by
  unfold retryExpired
  repeat' first
    | with_reducible assumption | exact Nat.le_refl _ | exact id | exact Eq.refl _ | intro _ | with_reducible apply Stays.ite | with_reducible apply Stays.ite_fst
    | with_reducible apply State.arriveAt_stays | with_reducible apply qpError_stays | with_reducible apply State.modDie_stays
    | with_reducible apply resendFrom_stays | with_reducible apply State.modQp_stays
    | (refine Stays.of_eq (by with_reducible assumption) ?_) | (simp only [stays_mk]) | split

theorem execRetryTimerExpiry_stays {s t : State} {qp : BitVec 20} (hn : execRetryTimerExpiry qp s = .next t) : Stays s t := by
  unfold execRetryTimerExpiry at hn
  injection hn with hn
  subst hn
  have hz0 : Stays s s := Stays.refl s
  repeat' first
    | with_reducible assumption | exact Nat.le_refl _ | exact id | exact Eq.refl _ | intro _ | with_reducible apply Stays.ite | with_reducible apply Stays.ite_fst
    | with_reducible apply settle_stays | with_reducible apply retryExpired_stays
    | (refine Stays.of_eq (by with_reducible assumption) ?_) | (simp only [stays_mk]) | split

theorem sendProbe_stays {z0 s : State} {q : Nat} {m : Msg} (hz0 : Stays z0 s) : Stays z0 (sendProbe s q m) := by
  unfold sendProbe
  repeat' first
    | with_reducible assumption | exact Nat.le_refl _ | exact id | exact Eq.refl _ | intro _ | with_reducible apply Stays.ite | with_reducible apply Stays.ite_fst
    | with_reducible apply sendSealed_stays | with_reducible apply State.modWin_stays
    | (refine Stays.of_eq (by with_reducible assumption) ?_) | (simp only [stays_mk]) | split

theorem probeExpired_stays {z0 s : State} {q : Nat} {msn : Nat} (hz0 : Stays z0 s) : Stays z0 (probeExpired s q msn) := by
  unfold probeExpired
  repeat' first
    | with_reducible assumption | exact Nat.le_refl _ | exact id | exact Eq.refl _ | intro _ | with_reducible apply Stays.ite | with_reducible apply Stays.ite_fst
    | with_reducible apply State.arriveAt_stays | with_reducible apply sendProbe_stays | with_reducible apply State.modMsg_stays
    | with_reducible apply qpError_stays | with_reducible apply endMsg_stays | with_reducible apply State.modDie_stays
    | with_reducible apply State.modQp_stays
    | (refine Stays.of_eq (by with_reducible assumption) ?_) | (simp only [stays_mk]) | split

theorem execProbeTimerExpiry_stays {s t : State} {qp : BitVec 20} {msn : BitVec 32} (hn : execProbeTimerExpiry qp msn s = .next t) : Stays s t := by
  unfold execProbeTimerExpiry at hn
  injection hn with hn
  subst hn
  have hz0 : Stays s s := Stays.refl s
  repeat' first
    | with_reducible assumption | exact Nat.le_refl _ | exact id | exact Eq.refl _ | intro _ | with_reducible apply Stays.ite | with_reducible apply Stays.ite_fst
    | with_reducible apply settle_stays | with_reducible apply probeExpired_stays
    | (refine Stays.of_eq (by with_reducible assumption) ?_) | (simp only [stays_mk]) | split

theorem backoffEnds_stays {z0 s : State} {q : Nat} (hz0 : Stays z0 s) : Stays z0 (backoffEnds s q) := by
  unfold backoffEnds
  repeat' first
    | with_reducible assumption | exact Nat.le_refl _ | exact id | exact Eq.refl _ | intro _ | with_reducible apply Stays.ite | with_reducible apply Stays.ite_fst
    | with_reducible apply State.arriveAt_stays | with_reducible apply State.modQp_stays | with_reducible apply sendProbe_stays
    | with_reducible apply resendFrom_stays
    | (refine Stays.of_eq (by with_reducible assumption) ?_) | (simp only [stays_mk]) | split

theorem execBusyBackoffEnd_stays {s t : State} {qp : BitVec 20} (hn : execBusyBackoffEnd qp s = .next t) : Stays s t := by
  unfold execBusyBackoffEnd at hn
  injection hn with hn
  subst hn
  have hz0 : Stays s s := Stays.refl s
  repeat' first
    | with_reducible assumption | exact Nat.le_refl _ | exact id | exact Eq.refl _ | intro _ | with_reducible apply Stays.ite | with_reducible apply Stays.ite_fst
    | with_reducible apply settle_stays | with_reducible apply backoffEnds_stays
    | (refine Stays.of_eq (by with_reducible assumption) ?_) | (simp only [stays_mk]) | split

end Sys2Proof.Machine
end

