-- ==== Sys2Proof/Laws/Table.lean ====
section
/-! SUPPORT. Laws of sparse tables: a read after a write, and the canonical form. -/

namespace Sys2Proof.Machine

namespace Tbl

variable {α : Type}

theorem lookup_insert_same (k : Nat) (v : α) : ∀ l : List (Nat × α), lookup k (insertCell k v l) = some v
  | [] => by simp [insertCell, lookup]
  | (j, w) :: rest => by
    unfold insertCell
    split
    · simp [lookup]
    · split
      · simp [lookup]
      · rename_i h1 h2
        have : j ≠ k := fun h => h2 h.symm
        simp [lookup, this, lookup_insert_same k v rest]

theorem lookup_insert_ne {k j : Nat} (v : α) (h : j ≠ k) :
    ∀ l : List (Nat × α), lookup j (insertCell k v l) = lookup j l
  | [] => by simp [insertCell, lookup, Ne.symm h]
  | (i, w) :: rest => by
    unfold insertCell
    split
    · simp [lookup, Ne.symm h]
    · split
      · rename_i _ h2
        subst h2
        simp [lookup, Ne.symm h]
      · simp only [lookup]
        split
        · rfl
        · exact lookup_insert_ne v h rest

/-- A cell reads back as it was put. -/
@[simp] theorem find_put_same (t : Tbl α) (k : Nat) (v : α) : (t.put k v).find k = some v :=
  lookup_insert_same k v t.cells

/-- Putting a cell leaves every other cell. -/
theorem find_put_ne (t : Tbl α) {k j : Nat} (v : α) (h : j ≠ k) : (t.put k v).find j = t.find j :=
  lookup_insert_ne v h t.cells

@[simp] theorem findD_put_same (t : Tbl α) (k : Nat) (v d : α) : (t.put k v).findD k d = v := by
  simp [findD]

theorem findD_put_ne (t : Tbl α) {k j : Nat} (v d : α) (h : j ≠ k) : (t.put k v).findD j d = t.findD j d := by
  simp [findD, find_put_ne t v h]

@[simp] theorem findD_modifyD_same (t : Tbl α) (k : Nat) (d : α) (f : α → α) :
    (t.modifyD k d f).findD k d = f (t.findD k d) := by simp [modifyD]

theorem findD_modifyD_ne (t : Tbl α) {k j : Nat} (d e : α) (f : α → α) (h : j ≠ k) :
    (t.modifyD k d f).findD j e = t.findD j e := by simp [modifyD, findD_put_ne t _ e h]

theorem find_modify_same (t : Tbl α) (k : Nat) (f : α → α) : (t.modify k f).find k = (t.find k).map f := by
  unfold modify
  split
  · rename_i v h
    simp [h]
  · rename_i h
    simp [h]

theorem find_modify_ne (t : Tbl α) {k j : Nat} (f : α → α) (h : j ≠ k) : (t.modify k f).find j = t.find j := by
  unfold modify
  split
  · exact find_put_ne t _ h
  · rfl

theorem lookup_map (f : Nat → α → α) (k : Nat) :
    ∀ l : List (Nat × α), lookup k (l.map (fun c => (c.1, f c.1 c.2))) = (lookup k l).map (f k)
  | [] => rfl
  | (j, w) :: rest => by
    simp only [List.map_cons, lookup]
    split
    · rename_i h
      simp [h]
    · exact lookup_map f k rest

/-- Changing every cell changes each in its place. -/
@[simp] theorem find_mapCells (t : Tbl α) (f : Nat → α → α) (k : Nat) : (t.mapCells f).find k = (t.find k).map (f k) :=
  lookup_map f k t.cells

theorem rising_cons {j : Nat} {w : α} {l : List (Nat × α)} :
    rising ((j, w) :: l) = true ↔ (∀ c ∈ l.head?, j < c.1) ∧ rising l = true := by
  cases l with
  | nil => simp [rising]
  | cons c r => simp [rising]

theorem head_insert (k : Nat) (v : α) (l : List (Nat × α)) :
    ∀ c ∈ (insertCell k v l).head?, c.1 = k ∨ ∃ d ∈ l.head?, c.1 = d.1 := by
  cases l with
  | nil => simp [insertCell]
  | cons d r =>
    unfold insertCell
    split
    · simp
    · split <;> simp

theorem rising_insert (k : Nat) (v : α) :
    ∀ l : List (Nat × α), rising l = true → rising (insertCell k v l) = true
  | [], _ => by simp [insertCell, rising]
  | (j, w) :: rest, h => by
    have h' := rising_cons.mp h
    unfold insertCell
    split
    · rename_i hk
      exact rising_cons.mpr ⟨by simpa using hk, h⟩
    · split
      · rename_i _ hj
        subst hj
        exact rising_cons.mpr ⟨h'.1, h'.2⟩
      · rename_i h1 h2
        refine rising_cons.mpr ⟨?_, rising_insert k v rest h'.2⟩
        intro c hc
        rcases head_insert k v rest c hc with h3 | ⟨d, hd, h3⟩
        · rw [h3]; omega
        · rw [h3]; exact h'.1 d hd

/-- Putting a cell keeps the canonical form. -/
theorem wf_put (t : Tbl α) (k : Nat) (v : α) (h : t.wf = true) : (t.put k v).wf = true := rising_insert k v t.cells h

theorem wf_modifyD (t : Tbl α) (k : Nat) (d : α) (f : α → α) (h : t.wf = true) : (t.modifyD k d f).wf = true :=
  wf_put t k _ h

theorem wf_modify (t : Tbl α) (k : Nat) (f : α → α) (h : t.wf = true) : (t.modify k f).wf = true := by
  unfold modify
  split
  · exact wf_put t k _ h
  · exact h

end Tbl

/-! ### Accessors after the updates of their own table -/

@[simp] theorem link_modLink (s : State) (l : Nat) (f : PLink → PLink) : (s.modLink l f).link l = f (s.link l) := by
  simp [State.link, State.modLink]

theorem link_modLink_ne (s : State) {l k : Nat} (f : PLink → PLink) (h : k ≠ l) : (s.modLink l f).link k = s.link k := by
  simp [State.link, State.modLink, Tbl.findD_modifyD_ne _ _ _ _ h]

@[simp] theorem port_modPort (s : State) (p : Nat) (f : Port → Port) : (s.modPort p f).port p = f (s.port p) := by
  simp [State.port, State.modPort]

theorem port_modPort_ne (s : State) {p k : Nat} (f : Port → Port) (h : k ≠ p) : (s.modPort p f).port k = s.port k := by
  simp [State.port, State.modPort, Tbl.findD_modifyD_ne _ _ _ _ h]

@[simp] theorem inst_modInst (s : State) (i : Nat) (f : Inst → Inst) : (s.modInst i f).inst i = f (s.inst i) := by
  simp [State.inst, State.modInst]

theorem inst_modInst_ne (s : State) {i k : Nat} (f : Inst → Inst) (h : k ≠ i) : (s.modInst i f).inst k = s.inst k := by
  simp [State.inst, State.modInst, Tbl.findD_modifyD_ne _ _ _ _ h]

@[simp] theorem inst_modWin (s : State) (i : Nat) (f : Window → Window) :
    (s.modWin i f).inst i = { s.inst i with win := f (s.inst i).win } := by
  simp [State.modWin]

theorem inst_modWin_ne (s : State) {i k : Nat} (f : Window → Window) (h : k ≠ i) : (s.modWin i f).inst k = s.inst k :=
  inst_modInst_ne s _ h

@[simp] theorem qp_modQp (s : State) (q : Nat) (f : Qp → Qp) : (s.modQp q f).qp q = f (s.qp q) := by
  simp [State.qp, State.modQp]

theorem qp_modQp_ne (s : State) {q k : Nat} (f : Qp → Qp) (h : k ≠ q) : (s.modQp q f).qp k = s.qp k := by
  simp [State.qp, State.modQp, Tbl.findD_modifyD_ne _ _ _ _ h]

@[simp] theorem vec_modVec (s : State) (v : Nat) (f : Vec → Vec) : (s.modVec v f).vec v = f (s.vec v) := by
  simp [State.vec, State.modVec]

@[simp] theorem door_modDoor (s : State) (d : Nat) (f : DoorState → DoorState) : (s.modDoor d f).door d = f (s.door d) := by
  simp [State.door, State.modDoor]

@[simp] theorem slot_modSlot (s : State) (n : Nat) (f : Slot → Slot) : (s.modSlot n f).slot n = f (s.slot n) := by
  simp [State.slot, State.modSlot, State.modColl]

@[simp] theorem granule_modGranule (s : State) (g : Nat) (f : Granule → Granule) :
    (s.modGranule g f).granule g = f (s.granule g) := by
  simp [State.granule, State.modGranule, State.modSync]

@[simp] theorem stack_modStack (s : State) (n : Nat) (f : Stack → Stack) : (s.modStack n f).stack n = f (s.stack n) := by
  simp [State.stack, State.modStack, State.modHbm]

@[simp] theorem ethPort_modEth (s : State) (p : Nat) (f : EthPort → EthPort) : (s.modEth p f).ethPort p = f (s.ethPort p) := by
  simp [State.ethPort, State.modEth]

theorem find_modQueue_same (s : State) (q : Nat) (f : WorkQueue → WorkQueue) :
    (s.modQueue q f).queues.find q = (s.queues.find q).map f := Tbl.find_modify_same _ _ _

theorem find_modQueue_ne (s : State) {q k : Nat} (f : WorkQueue → WorkQueue) (h : k ≠ q) :
    (s.modQueue q f).queues.find k = s.queues.find k := Tbl.find_modify_ne _ _ h

end Sys2Proof.Machine
end

