-- ==== Sys2Proof/WellFormed.lean ====
section
/-! DEFINITION. Which commands are well formed: where the type of an operand admits more than the spec gives
the command, the operand must be what the spec says can arrive. Every meaning is total all the same, and says
what an ill-formed command does. -/

namespace Sys2Proof

/-- The KIND of a fabric frame names its payload (R192). -/
def kindFits (f : FabFrame) : Bool :=
  match f.body with
  | .ztp _ => f.kind == 0x1
  | .csp _ => f.kind == 0x2
  | .ptp _ => f.kind == 0x3
  | .ctl _ => f.kind == 0xF
  | .other _ => f.kind != 0x1 && f.kind != 0x2 && f.kind != 0x3 && f.kind != 0xF

/-- A frame that pauses (R232): IEEE 802.3x, or PFC with one time for each of the eight priorities. -/
def pauseFits : EthBody → Bool
  | .pause _ => true
  | .pfc _ qs => qs.length == 8
  | .ztp _ => false
  | .csp _ => false
  | .ptp _ => false
  | .arp _ _ => false
  | .ns _ _ => false
  | .raw _ => false

/-- A message of the peer-delay mechanism (R17). -/
def peerMsg : PtpMsg → Bool
  | .pdelayReq => true
  | .pdelayResp _ => true
  | .sync _ _ => false
  | .followUp _ => false
  | .announce _ _ => false
  | .delayReq _ _ => false
  | .delayResp _ _ _ => false

/-- A message of the end-to-end delay mechanism (R18). -/
def delayMsg : PtpMsg → Bool
  | .delayReq _ _ => true
  | .delayResp _ _ _ => true
  | .sync _ _ => false
  | .followUp _ => false
  | .announce _ _ => false
  | .pdelayReq => false
  | .pdelayResp _ => false

/-- The command is well formed. -/
def Instr.wf : Instr → Bool
  | .timeEpochWrite _ _ => true
  | .timeCtrlWrite _ _ => true
  | .ptpSyncReceived _ _ _ => true
  | .announceReceived _ _ _ _ => true
  | .syncIntervalExpiry => true
  | .holdoverLimitExceeded => true
  | .timePpsInEdge _ _ => true
  | .timeTod _ _ => true
  | .ppsOutPulse => true
  | .ppsOutPulseEnd => true
  | .isobarArm _ _ => true
  | .isobarLatch => true
  | .sheetStart _ => true
  | .egressFrameStart _ => true
  | .planLoad _ _ => true
  | .planLoadComplete => true
  | .planArm _ _ => true
  | .planCancel _ _ => true
  | .planUnload _ _ => true
  | .planFront => true
  | .rejoinPoint => true
  | .planDrainBound => true
  | .wqDoorbell _ _ _ _ => true
  | .entryStart _ => true
  | .entryComplete _ _ => true
  | .cqDoorbell _ _ _ _ => true
  | .wqCreate _ _ _ => true
  | .cqCreate _ _ _ => true
  | .nop _ => true
  | .fence _ => true
  | .write _ => true
  | .read _ => true
  | .copy _ => true
  | .copyComplete _ _ => true
  | .signal _ => true
  | .waitCounter _ => true
  | .semAdd _ => true
  | .semWait _ => true
  | .waitQueue _ => true
  | .timeWait _ => true
  | .timeWaitReached _ => true
  | .waitDeadline _ => true
  | .hostSignal _ => true
  | .collStep _ => true
  | .couchCopy _ => true
  | .rawSend _ => true
  | .syncInit _ _ _ => true
  | .syncGshareWrite _ _ _ _ => true
  | .syncDoorbell _ _ _ => true
  | .syncReclaim _ _ => true
  | .syncMemoryUe _ => true
  | .lullBegin _ => true
  | .ztpPacketSend _ => true
  | .writePacket _ pkt => pkt.typ == 0x01
  | .readReq _ pkt => pkt.typ == 0x02
  | .syncReq _ pkt => pkt.typ == 0x03
  | .ack _ pkt => pkt.typ == 0x11
  | .nak _ pkt => pkt.typ == 0x12
  | .readResp _ pkt => pkt.typ == 0x13
  | .syncDone _ pkt => pkt.typ == 0x14
  | .cnp _ pkt => pkt.typ == 0x15
  | .ackDelayExpiry _ => true
  | .retryTimerExpiry _ => true
  | .probeTimerExpiry _ _ => true
  | .busyBackoffEnd _ => true
  | .ratePeriod _ => true
  | .contextFetchComplete _ => true
  | .qpOpen _ _ => true
  | .qpClose _ _ => true
  | .connReq _ pkt => pkt.typ == 0x21
  | .connRep _ pkt => pkt.typ == 0x22
  | .connRtu _ pkt => pkt.typ == 0x23
  | .discReq _ pkt => pkt.typ == 0x24
  | .discRep _ pkt => pkt.typ == 0x25
  | .connReqTimer _ => true
  | .setupTimeout _ => true
  | .discReqTimer _ => true
  | .qpDrainBound _ => true
  | .cspData _ pkt => pkt.typ == 0x41 && pkt.payload.length == pkt.len.toNat
  | .cspAck _ pkt => pkt.typ == 0x42
  | .pieceSend _ _ => true
  | .pieceConsume _ _ => true
  | .pieceResendTimer _ _ => true
  | .stepLimitExpiry _ => true
  | .collStepComplete _ => true
  | .fabricFrameReceived _ frame => kindFits frame
  | .hello _ _ _ _ _ => true
  | .helloTimer _ => true
  | .linkAck _ _ => true
  | .linkNak _ _ => true
  | .credit _ _ _ => true
  | .replayTimeout _ => true
  | .pcsAlignmentLoss _ => true
  | .retrainMaxExpiry _ => true
  | .fabricRetrainTimer _ => true
  | .fllCfgWrite _ _ _ => true
  | .fabNodeWrite _ _ => true
  | .vc0HoldExpiry _ => true
  | .routeCopy _ _ => true
  | .routeDiscard _ _ => true
  | .routeTblDataWrite _ _ => true
  | .routeTblDataRead _ => true
  | .tableFrontWrite _ _ => true
  | .tableFront => true
  | .bankDrainBound => true
  | .ethFrameReceived _ _ _ => true
  | .pfcRefresh _ _ _ => true
  | .pauseFrame _ _ frame => pauseFits frame.body
  | .pauseExpiry _ _ _ => true
  | .ethFrameStart _ _ => true
  | .gateEntry _ => true
  | .subportLinkUp _ _ => true
  | .subportLinkDown _ _ => true
  | .segSet _ _ _ => true
  | .segClear _ _ _ => true
  | .patrolScrub addr _ => addr.toNat % 8 == 0
  | .channelRetrain stack _ => decide (stack.toNat < 12)
  | .couchReopen _ => true
  | .plCfgWrite _ _ _ => true
  | .forceDown _ _ _ => true
  | .plTrainingComplete _ ver _ _ => decide (ver.toNat ≤ 2)
  | .plTrainingTimeout _ => true
  | .plRetrainTimer _ => true
  | .plAlignmentLoss _ => true
  | .plRealigned _ _ => true
  | .plRetrainTimeout _ => true
  | .resetNotice _ => true
  | .rdShr _ _ _ => true
  | .rdOwn _ _ _ => true
  | .rdNc _ _ _ addr size => decide (1 ≤ size.toNat) && decide (addr.toNat % 64 + size.toNat ≤ 64)
  | .wrLine _ _ _ _ _ => true
  | .wrPart _ _ _ _ _ _ => true
  | .snpInv _ _ _ => true
  | .watchPoll _ => true
  | .pomelFence _ => true
  | .cmp _ _ _ => true
  | .registerWrite _ addr _ => addr.toNat % 8 == 0
  | .mbxInfo _ _ => true
  | .instCreate _ _ => true
  | .instCalm _ _ => true
  | .instReset _ _ => true
  | .instRemove _ _ => true
  | .instDrainBound _ => true
  | .instZeroingComplete _ => true
  | .pwrCapWrite _ _ => true
  | .creditPeriod => true
  | .coefficientUpdate measured _ => measured.length == 5
  | .throttleRequest _ => true
  | .throttleRelease _ => true
  | .deferExpiry => true
  | .thermalOverride _ => true
  | .emergClear _ => true
  | .faultLogAppend => true
  | .coreAckWrite _ _ => true
  | .altNotice _ _ _ _ _ => true
  | .noticeRepeat _ => true
  | .decisionPoint => true
  | .restoreComplete _ => true
  | .coreWatchdogExpiry _ _ => true
  | .porstNRelease _ _ => true
  | .porstNAssert _ => true
  | .flashRetry _ => true
  | .bootComplete => true
  | .wrstNAssert => true
  | .wrstNRelease => true
  | .railLoss => true
  | .refclkSysLoss => true
  | .refclkSysRecovery => true
  | .thermalTrip => true
  | .fwStageLoad _ _ => true
  | .fwStageCommit _ _ => true
  | .fwStageAbort _ _ => true
  | .fwStageAdvance _ _ => true
  | .flashWriteComplete _ => true
  | .fwQuery _ _ => true
  | .identity _ _ => true
  | .attest _ _ => true
  | .i3cIdentity => true
  | .i3cMbxWr w _ => decide (w.toNat ≤ 63)
  | .i3cMbxGo => true
  | .i3cMbxRd w => decide (w.toNat ≤ 7)
  | .i3cMbxStat => true
  | .setdasa _ => true
  | .entdaa _ => true
  | .rstdaa => true
  | .getpid => true
  | .getbcr => true
  | .getdcr => true
  | .mtrVddRise => true
  | .meterPeriodClose => true
  | .meterRingFlush => true
  | .mtrIdentity => true
  | .cert _ => true
  | .lastSeq => true
  | .record _ => true
  | .spot inst _ => decide (inst.toNat < 128) || inst == 0xFF
  | .tstLoopWrite _ _ _ => true
  | .tstPlLoopWrite _ _ _ => true
  | .phyLoop _ _ => true
  | .selfTest _ _ => true
  | .memTestComplete failing => failing.all (fun a => a.toNat % 8 == 0)
  | .tstInjectWrite _ _ => true
  | .bypass => true
  | .idcode => true
  | .samplePreload => true
  | .extest => true
  | .extestPulse => true
  | .extestTrain => true
  | .clamp => true
  | .highz => true
  | .stackStopsAnswering stack => decide (stack.toNat < 12)
  | .mtrVddFall => true
  | .ptpSyncSend _ => true
  | .announceSend _ => true
  | .pdelayReq _ msg _ => peerMsg msg
  | .delayReq _ msg _ => delayMsg msg

end Sys2Proof
end

