-- ==== Sys2Proof/Tests/Slice0.lean ====
section
/-! SUPPORT. The model's own tests. A theorem test_wf_… shows an ill-formed command that WellFormed refuses. A
theorem test_meets_<Obligation> shows, for each clause of that statement in turn, a state and operands that meet
the clause's hypotheses. The others run one command on a small state; their expected values are worked out from
the rule each names. -/

namespace Sys2Proof.Tests

open Sys2Proof Sys2Proof.Machine

/-! ### Small states -/

/-- In service, fabric time 1,600 ns and LOCKED, the ticks before evaluated, Pomel link 0 UP. -/
def base : State := { State.reset with
  boot := { Boot.reset with phase := .service }
  links := ⟨[(0, { PLink.reset with cond := .up })]⟩
  pins := { Pins.reset with porstLow := false }
  time := { TimeUnit.reset with lock := .locked, now := 1600 }
  sync := { State.reset.sync with tickAt := 1600 } }

/-- A state with the words of a request at a door. -/
def ask (s : State) (d : Door) (ws : List Word) : State :=
  s.modDoor (doorKey d) (fun x => { x with req := ⟨(List.range ws.length).zip ws⟩ })

/-- A state with one plan active. -/
def withPlan (s : State) (p : Plan) (f : Nat) : State := { s with plans := { s.plans with active := some p, activeF := f } }

/-- An instance 1 that is ACTIVE and holds some resources, with an access link 0. -/
def withInst (s : State) (st : InstState) (res : List Claim) : State :=
  s.modInst 1 (fun x => { x with st := st, res := ⟨0x0D, 0, 1, 0, 0, 1, 0⟩ :: res })

/-! ### WellFormed refuses what cannot arrive -/

theorem test_wf_packet_types :
    Instr.wf (.writePacket default { (default : ZtpPacket) with typ := 2 }) = false
    ∧ Instr.wf (.readReq default { (default : ZtpPacket) with typ := 3 }) = false
    ∧ Instr.wf (.syncReq default { (default : ZtpPacket) with typ := 4 }) = false
    ∧ Instr.wf (.ack default { (default : ZtpPacket) with typ := 0x12 }) = false
    ∧ Instr.wf (.nak default { (default : ZtpPacket) with typ := 0x13 }) = false
    ∧ Instr.wf (.readResp default { (default : ZtpPacket) with typ := 0x14 }) = false
    ∧ Instr.wf (.syncDone default { (default : ZtpPacket) with typ := 0x15 }) = false
    ∧ Instr.wf (.cnp default { (default : ZtpPacket) with typ := 0x16 }) = false
    ∧ Instr.wf (.connReq default { (default : ZtpPacket) with typ := 0x22 }) = false
    ∧ Instr.wf (.connRep default { (default : ZtpPacket) with typ := 0x23 }) = false
    ∧ Instr.wf (.connRtu default { (default : ZtpPacket) with typ := 0x24 }) = false
    ∧ Instr.wf (.discReq default { (default : ZtpPacket) with typ := 0x25 }) = false
    ∧ Instr.wf (.discRep default { (default : ZtpPacket) with typ := 0x26 }) = false := by decide

theorem test_wf_csp_packets :
    Instr.wf (.cspData default { (default : CspPacket) with typ := 0x42 }) = false
    ∧ Instr.wf (.cspData default { (default : CspPacket) with typ := 0x41, len := 2, payload := [7] }) = false
    ∧ Instr.wf (.cspData default { (default : CspPacket) with typ := 0x41, len := 1, payload := [7] }) = true
    ∧ Instr.wf (.cspAck default { (default : CspPacket) with typ := 0x41 }) = false := by decide

theorem test_wf_frames :
    Instr.wf (.fabricFrameReceived 0 { (default : FabFrame) with kind := 2, body := .ztp default }) = false
    ∧ Instr.wf (.fabricFrameReceived 0 { (default : FabFrame) with kind := 1, body := .csp default }) = false
    ∧ Instr.wf (.fabricFrameReceived 0 { (default : FabFrame) with kind := 1, body := .ptp .pdelayReq }) = false
    ∧ Instr.wf (.pauseFrame 0 0 { (default : EthFrame) with body := .pfc 1 [1, 2] }) = false
    ∧ Instr.wf (.pauseFrame 0 0 { (default : EthFrame) with body := .csp default }) = false
    ∧ Instr.wf (.pdelayReq 0 (.followUp 0) 0) = false
    ∧ Instr.wf (.delayReq 0 .pdelayReq 0) = false := by decide

theorem test_wf_numbers :
    Instr.wf (.patrolScrub 12 .clean) = false ∧ Instr.wf (.channelRetrain 12 .trained) = false
    ∧ Instr.wf (.channelRetrain 11 .trained) = true ∧ Instr.wf (.stackStopsAnswering 12) = false
    ∧ Instr.wf (.plTrainingComplete 0 3 true 0) = false ∧ Instr.wf (.rdNc 0 default false 0 0) = false
    ∧ Instr.wf (.rdNc 0 default false 60 5) = false ∧ Instr.wf (.rdNc 0 default false 60 4) = true
    ∧ Instr.wf (.registerWrite 0 0x61004 0) = false ∧ Instr.wf (.coefficientUpdate [1, 2, 3, 4] 0) = false
    ∧ Instr.wf (.i3cMbxWr 64 0) = false ∧ Instr.wf (.i3cMbxRd 8) = false ∧ Instr.wf (.spot 128 0) = false
    ∧ Instr.wf (.spot 255 0) = true ∧ Instr.wf (.memTestComplete [4]) = false := by decide

/-! ### Time -/

/-- GPIO_7 claimed for TIME_PPS_OUT and enabled. -/
def ppsState : State :=
  { withPlan base { (default : Plan) with claims := [⟨0x09, 0, 0, 0, 7, 1, 3⟩] } 0 with
    time := { base.time with ppsCfg := 0x186A0001 } }

theorem test_meets_TimeRegistersPulsesAndSnapshots :
    (taken base 0 0x10028 [(63, 48)] 0xFFFFFFFFFFFF = true ∧ anyPlan base = false ∧ ∀ w ∈ base.queues.vals, w.st = .idle)
    ∧ (taken base 0 0x10000 [(63, 32), (15, 4)] 0x01100000 = true ∧ fld (0x01100000 : Word) 3 2 ≠ 3
      ∧ 16 ≤ fld (0x01100000 : Word) 23 16 ∧ 1 ≤ fld (0x01100000 : Word) 31 24)
    ∧ (let s := ask { base with time := { base.time with ctrl := 0x32500006 } } .i3c [0x10050, 9]
      posted s .i3c 0 0x0050 1 true = true ∧ timeRole s = 1)
    ∧ (ppsState.inService = true ∧ ppsMayDrive ppsState = true)
    ∧ ({ base.time with ppsOut := some 0 } : TimeUnit).ppsOut = some 0
    ∧ (let s := { base with time := { base.time with isoTime := 5696 } }
      taken s 0 0x10208 [(63, 16)] 0xFFFF = true ∧ s.now + 4096 ≤ s.time.isoTime.toNat)
    ∧ (let s := { base with time := { base.time with isoArmed := true } }
      s.running = true ∧ s.time.isoArmed = true) := by decide

/-- Port 3 runs PTP as SLAVE on a fabric link that is UP. -/
def ptpState1 : State :=
  { base with
    time := { base.time with ports := ⟨[(3, { PtpPort.reset with cfg := 0x2A01, lastReq := some 1000 })]⟩, lastValid := some 16 }
    ports := ⟨[(3, { Port.reset with cond := .up })]⟩ }

/-- Port 3 runs PTP on an Ethernet sub-port that is up, with STATE as given. -/
def ptpStateEth (cfg : Word) : State :=
  { base with
    time := { base.time with ports := ⟨[(3, { PtpPort.reset with cfg := cfg, lastReq := some 1000 })]⟩ }
    ports := ⟨[(3, { Port.reset with cfg := 3 })]⟩
    eth := { base.eth with ports := ⟨[(3, { EthPort.reset with subs := ⟨[(0, { (default : SubPort) with up := true })]⟩ })]⟩ } }

theorem test_meets_ClockSourcesMoveTheLock :
    (ptpState1.running = true ∧ timeRole ptpState1 = 0 ∧ parentPort ptpState1 = some 3
      ∧ (ptpState1.ptp 3).tlv ≠ some 0xFFFF ∧ ptpState1.time.lock = .locked ∧ syncOffset ptpState1 3 1520 0 = 80
      ∧ (80 : Int).natAbs ≤ errLimit ptpState1)
    ∧ ptpOn ptpState1 3 = true ∧ ptpState1.time.lastValid = some 16
    ∧ (let s := { ptpState1 with time := { ptpState1.time with lock := .holdover } }
      s.running = true ∧ s.time.lock = .holdover ∧ s.time.lastValid = some 16)
    ∧ (let s := { base with time := { base.time with ctrl := 0x32500006, tod := some (1, 0), now := 1000000080 } }
      s.running = true ∧ timeRole s = 1 ∧ bit s.time.ctrl 1 = true ∧ todInForce s = some 1 ∧ s.time.lock = .locked
      ∧ (((s.now + 0 : Nat) : Int) - ((1000000000 : Nat) - (epochNs s : Int))).natAbs ≤ errLimit s) := by decide

theorem test_meets_PtpMessagesSentAndAnswered :
    (let s := { ptpState1 with time := { ptpState1.time with ports := ⟨[(3, { PtpPort.reset with cfg := 0x1A01 })]⟩ } };
      s.running = true ∧ isMaster s 3 = true)
    ∧ (ptpState1.running = true ∧ isEth ptpState1 3 = false ∧ ptpOn ptpState1 3 = true
      ∧ (ptpState1.ptp 3).lastReq = some 1000)
    ∧ (let s := ptpStateEth 0x1A01
      s.running = true ∧ isEth s 3 = true ∧ ptpOn s 3 = true ∧ isMaster s 3 = true)
    ∧ (let s := ptpStateEth 0x2A01
      isEth s 3 = true ∧ ptpOn s 3 = true ∧ (s.ptp 3).lastReq = some 1000) := by decide

/-! ### Plans and fronts -/

/-- The 64 bytes of a header before its DIGEST, and what follows it: one empty section of claims (R38, R39). -/
def imageHead : List Byte :=
  [0x5A, 0x4E, 0x50, 0x4C] ++ leBytes 2 1 ++ leBytes 2 0 ++ leBytes 8 7 ++ leBytes 4 0 ++ leBytes 2 1 ++ leBytes 2 0
    ++ leBytes 8 384 ++ leBytes 8 0 ++ leBytes 4 80 ++ leBytes 4 0 ++ leBytes 8 0 ++ leBytes 8 0
def imageTail : List Byte :=
  leBytes 160 0 ++ leBytes 2 1 ++ leBytes 2 1 ++ leBytes 4 0 ++ leBytes 4 320 ++ leBytes 4 64 ++ leBytes 112 0

/-- The image with the digest that R38 asks for. -/
def image : List Byte :=
  imageHead ++ (beBytes 32 (sm3 (imageHead ++ (List.replicate 32 0 ++ imageTail))).toNat ++ imageTail)

theorem leBytes_length (k n : Nat) : (leBytes k n).length = k := by
  induction k generalizing n with
  | zero => rfl
  | succ k ih => simp [leBytes, ih]

theorem leVal_leBytes (k n : Nat) (h : n < 256 ^ k) : leVal (leBytes k n) = n := by
  induction k generalizing n with
  | zero => simp only [Nat.pow_zero, Nat.lt_one_iff] at h; simp [leBytes, leVal, h]
  | succ k ih =>
    have : n / 256 < 256 ^ k := by rw [Nat.pow_succ] at h; omega
    simp only [leBytes, leVal, ih _ this, byteOf, BitVec.toNat_ofNat]; omega

theorem digestOk_image : digestOk image = true := by
  have hA : imageHead.length = 64 := by decide
  have hD (n : Nat) : (beBytes 32 n).length = 32 := by rw [beBytes, List.length_reverse, leBytes_length]
  have h1 : undigested image = imageHead ++ (List.replicate 32 0 ++ imageTail) := by
    simp [undigested, image, List.drop_append, hA, hD]
  have h2 : slice image 64 32 = beBytes 32 (sm3 (imageHead ++ (List.replicate 32 0 ++ imageTail))).toNat := by
    simp [slice, image, hA, hD]
  rw [digestOk, h1, h2, beVal, beBytes, List.reverse_reverse,
    leVal_leBytes 32 _ (by have := (sm3 (imageHead ++ (List.replicate 32 0 ++ imageTail))).isLt; omega)]
  exact beq_self_eq_true _

/-- The next slot in a condition, with a plan and a front. -/
def slotState (c : NextCond) (p : Plan) (f : Nat) : State :=
  { base with plans := { base.plans with nextCond := c, next := some p, front := f } }

/-- The image is being loaded. -/
def loadingState : State := slotState .loading { (default : Plan) with image := image } 0

theorem test_good_image_loads : imageFail loadingState image (activeClaims loadingState) true false = none := by
  have h : headOk image = true := by decide +kernel
  rw [imageFail, if_neg (by rw [h]; decide), if_neg (by rw [digestOk_image]; decide)]
  decide +kernel

/-- A plan of one sheet of 16,384 ns that admits every channel, and a claim. -/
def smallPlan : Plan :=
  { (default : Plan) with
    image := [1], rejoin := 16384, drainBound := 100000
    claims := [⟨0x04, 0, 0, 0, 3, 1, 0⟩], scheds := [⟨3, 0, [0x00000040]⟩] }

theorem test_meets_PlanSlotCommandsMoveTheNextSlot :
    (∃ u img, (let s := ask base .i3c [0x10020, 64, 128]; posted s .i3c 0 0x0020 1 true = true
        ∧ rangeOk (took s .i3c) (loadRange s .i3c) = true ∧ readImage (took s .i3c) (loadRange s .i3c) = (u, .ok img))
      ∧ u.plans.nextCond = .empty)
    ∧ (loadingState.inService = true ∧ loadingState.plans.nextCond = .loading
      ∧ imageFail loadingState image (activeClaims loadingState) true false = none)
    ∧ (let s := ask (slotState .loaded smallPlan 0) .i3c [0x10021, 10001664]; posted s .i3c 0 0x0021 1 true = true
      ∧ s.plans.nextCond = .loaded ∧ s.plans.next = some smallPlan ∧ s.flt.restoring.cells.isEmpty = true
      ∧ frontAhead s (reqFld s .i3c 8 8) = true)
    ∧ (let s := ask (slotState .loaded smallPlan 0) .i3c [0x10022]; posted s .i3c 0 0x0022 1 true = true
      ∧ s.plans.nextCond = .loaded)
    ∧ (let s := ask (withPlan base smallPlan 0) .i3c [0x10023, 10001664]; posted s .i3c 0 0x0023 1 true = true
      ∧ s.plans.active = some smallPlan ∧ s.plans.nextCond = .empty ∧ frontAhead s (reqFld s .i3c 8 8) = true
      ∧ s.routing.tableFront = none) :=
  ⟨⟨_, _, ⟨by decide, by decide, rfl⟩, by decide⟩, ⟨by decide, by decide, test_good_image_loads⟩, by decide, by decide,
    by decide⟩

/-- R48: a front 10 ms ahead is far enough, one 256 ns earlier is not, nor one off a multiple of 256. -/
theorem test_front_ahead :
    frontAhead base 10001664 = true ∧ frontAhead base 10001408 = false ∧ frontAhead base 10001665 = false := by decide

/-- Port 3 UP in fabric mode with full credit, a frame on VC1 waiting, and a schedule. -/
def egressState : State :=
  { withPlan base smallPlan 0 with
    ports := ⟨[(3, { Port.reset with
      cond := .up, credits := ⟨[(1, 100)]⟩
      queues := ⟨[(1, [⟨{ (default : FabFrame) with vc := 1, kind := 1, len := 4 }, 16, 1, 0, 0, false⟩])]⟩ })]⟩ }

theorem test_meets_FrontsRejoinPointsAndDrainBoundSwitchPlans :
    (let s := slotState .armed smallPlan 1600; s.inService = true ∧ s.plans.nextCond = .armed ∧ s.plans.next = some smallPlan
      ∧ knowsTime s = true ∧ (s.arriveAt s.plans.front).plans.drainAt = none)
    ∧ (let s := slotState .missed smallPlan 256; s.inService = true ∧ (missedPoint s).isSome = true
      ∧ resumePoint s = none)
    ∧ (let s := withPlan { base with plans := { base.plans with resuming := true } } smallPlan 256;
      s.inService = true ∧ missedPoint s = none ∧ (resumePoint s).isSome = true ∧ s.plans.active = some smallPlan)
    ∧ (let s := { base with plans := { base.plans with drainAt := some 1600 } };
      s.inService = true ∧ s.plans.drainAt = some 1600)
    ∧ (portSheet egressState 3 egressState.now).isSome = true
    ∧ (egressState.inService = true ∧ isEth egressState 3 = false ∧ (egressState.port 3).cond = .up
      ∧ portMute egressState 3 = false ∧ loopOf egressState 3 = 0
      ∧ (pickFrame (egressState.arriveAt (egressState.port 3).busyUntil) 3).isSome = true) := by decide

/-! ### Queues and instructions -/

/-- Instance 1 with granules 0 to 2, segment registers and an access link; queue 5 as given, ring 6 empty. -/
def queueState (w : WorkQueue) : State :=
  { withInst base .active [⟨0x04, 0, 1, 0, 0, 3, 0⟩, ⟨0x01, 0, 1, 0, 7, 1, 0⟩, ⟨0x02, 0, 1, 0, 6, 2, 0⟩] with
    queues := ⟨[(5, w)]⟩
    rings := ⟨[(6, { (default : Ring) with inst := 1, depthLog := 4 })]⟩ }

/-- A queue of instance 1, level 2, raw, depth 16, that has fetched 9 entries. -/
def idleQueue : WorkQueue :=
  { (default : WorkQueue) with
    inst := 1, depthLog := 4, level := 2, raw := true, ring := 6, st := .idle, reason := .none, pi := 9, fetch := 9 }

/-- The entry with a first word, and words 3, 4, 5, 7. -/
def ent (w0 w3 w4 w5 w7 : Word) : Entry := ⟨w0, 0, 0, w3, w4, w5, 0, w7⟩

/-- Queue 5 with an entry started as number 9, its translations as given. -/
def started (e : Entry) (xs : List Xlat) : Started := ⟨9, 0, e, 1600, xs, false, none, 0⟩
def runState (e : Entry) (xs : List Xlat) : State :=
  queueState { idleQueue with st := .running, started := [started e xs] }

/-- 16 bytes of HBM. -/
def hbm16 (a : Nat) : Xlat := ⟨1, 0, false, 0, a, 16, 0⟩

/-- What nextToRun finds there. -/
def idleRun (e : Entry) (xs : List Xlat) : WorkQueue × Started :=
  ({ idleQueue with st := .running, started := [started e xs] }, started e xs)

theorem test_meets_DoorbellsMoveQueuesAndRings :
    (let s := queueState idleQueue; taken s 0 (winAddr 1 (wqDbOff + 64 * 5)) [(63, 32)] 25 = true
      ∧ s.queues.find 5 = some idleQueue ∧ (s.inst 1).st = .active ∧ 1 ≤ dmod 32 (fld (25 : Word) 31 0) 9
      ∧ dmod 32 (fld (25 : Word) 31 0) 9 < 2 ^ 31 ∧ dmod 32 (fld (25 : Word) 31 0) 9 ≤ 2 ^ idleQueue.depthLog)
    ∧ (taken (queueState idleQueue) 0 (winAddr 1 (wqDbOff + 64 * 5)) [(63, 32)] 9 = true ∧ dmod 32 (fld (9 : Word) 31 0) 9 = 0
      ∧ 2 ^ 31 ≤ dmod 32 (fld (8 : Word) 31 0) 9 ∧ 2 ^ idleQueue.depthLog < dmod 32 (fld (26 : Word) 31 0) 9)
    ∧ (let s := queueState idleQueue; taken s 0 (winAddr 1 (cqDbOff + 64 * 6)) [(63, 33)] 0x100000000 = true
      ∧ (∃ r, s.rings.find 6 = some r ∧ r.inst = 1 ∧ dmod 32 (fld (0x100000000 : Word) 31 0) r.ci ≤ dmod 32 r.wp r.ci))
    ∧ (taken (queueState idleQueue) 0 (winAddr 1 0x1018) [(63, 8)] 1 = true ∧ fld (1 : Word) 7 0 = 1)
    ∧ taken (queueState idleQueue) 0 (winAddr 1 0x1118) [(63, 8)] 1 = true := by
  refine ⟨by decide, by decide, ⟨by decide, _, rfl, by decide, by decide⟩, by decide, by decide⟩

/-- R63, R64: a doorbell of PI 10 takes PI; the entry it tells of is not written yet, and the queue waits. -/
theorem test_doorbell_takes_pi : ∃ t w, exec (.wqDoorbell 0 1 5 10) (queueState idleQueue) = .next t
    ∧ t.queues.find 5 = some w ∧ w.pi = 10 ∧ w.st = .waiting ∧ w.reason = .early :=
  ⟨_, _, rfl, rfl, by decide, by decide, by decide⟩

theorem test_meets_EntriesStartAndComplete :
    (let h : Issued := ⟨ent 0 0 0 0 0, 1600, [], none, none⟩;
      let t := serveHead (queueState { idleQueue with st := .running, pi := 10, head := some h }) 5;
      (headReady t 5).map (fun p => p.2.entry) = some h.entry ∧ dispatched t = some 5 ∧ badStep t h.entry = false)
    ∧ (let x : Started := { started (ent 0 0 0 0 0) [] with ran := true, ending := some ⟨0, 0, 0⟩ };
      startedAt (catchUp (queueState { idleQueue with started := [x] })) 5 9 = some x)
    ∧ (nextToRun (runState (ent 3 16 0 0 0) [hbm16 0, hbm16 4096]) 5 0x03).isSome = true
    ∧ (let x : Started := { started (ent 3 16 0 0 0) [hbm16 0, hbm16 4096] with ran := true };
      startedAt (queueState { idleQueue with started := [x] }) 5 9 = some x ∧ x.entry.op = 0x03
      ∧ x.xlats = [hbm16 0, hbm16 4096] ∧ xlatHeld (queueState idleQueue) (hbm16 0) = false
      ∧ xlatHeld (queueState idleQueue) (hbm16 4096) = false) := by decide

/-- A QP 2 that is OPEN. -/
def openState (s : State) : State := { s with qps := ⟨[(2, { Qp.reset with st := .opened })]⟩ }

theorem test_meets_EntryEffectsOfPlainInstructions :
    (nextToRun (runState (ent 0 0 0 0 0) []) 5 0x00).isSome = true
    ∧ (nextToRun (runState (ent 0x18 0 0 0 0) []) 5 0x18).isSome = true
    ∧ (let s := openState (runState (ent 1 16 2 0 0) [hbm16 0]); nextToRun s 5 0x01 = some (idleRun (ent 1 16 2 0 0) [hbm16 0])
      ∧ (s.qp 2).st = .opened)
    ∧ (let s := openState (runState (ent 2 16 2 0 0) [hbm16 0]); nextToRun s 5 0x02 = some (idleRun (ent 2 16 2 0 0) [hbm16 0])
      ∧ (s.qp 2).st = .opened)
    ∧ nextToRun (runState (ent 0x1A 0 0x20000 0 0) []) 5 0x1A = some (idleRun (ent 0x1A 0 0x20000 0 0) [])
    ∧ (let s := runState (ent 0x1A 0 0x10000 7 0) [hbm16 0];
      nextToRun s 5 0x1A = some (idleRun (ent 0x1A 0 0x10000 7 0) [hbm16 0]) ∧ xlatHeld s (hbm16 0) = false
      ∧ (xlatWrite s (hbm16 0) 0 (leBytes 8 7)).2 = .done)
    ∧ (nextToRun (runState (ent 0x21 0 0 0 0) []) 5 0x21).isSome = true
    ∧ (let s := runState (ent 0x22 16 0 0 0) [hbm16 0];
      nextToRun s 5 0x22 = some (idleRun (ent 0x22 16 0 0 0) [hbm16 0]) ∧ xlatHeld s (hbm16 0) = false
      ∧ (xlatRead s (hbm16 0) 0 16).2.1 = .done) := by decide

theorem test_meets_CounterAndSemaphoreInstructions :
    (let e := ent 0x10 16384 0 5 0; nextToRun (runState e []) 5 0x10 = some (idleRun e []) ∧ e.isRemote = false
      ∧ ((runState e []).granule (granOf e.id)).orphan = false)
    ∧ (let e := ent 0x10 16384 0x100002 5 0; let s := openState (runState e []);
      nextToRun s 5 0x10 = some (idleRun e []) ∧ e.isRemote = true ∧ (s.qp e.qp).st = .opened)
    ∧ (let e := ent 0x2000000011 16384 0 5 1616; nextToRun (runState e []) 5 0x11 = some (idleRun e []) ∧ e.isRemote = false
      ∧ ((runState e []).granule (granOf e.id)).orphan = false)
    ∧ (let e := ent 0x13 16384 0 5 0; nextToRun (runState e []) 5 0x13 = some (idleRun e []) ∧ e.isRemote = false
      ∧ ((runState e []).granule (granOf e.id)).orphan = false) := by decide

theorem test_meets_SemAddAddsOrEndsInOverflow :
    (let e := ent 0x12 16384 0 5 0; let s := runState e [];
      nextToRun s 5 0x12 = some (idleRun e []) ∧ e.isRemote = false ∧ (s.granule (granOf e.id)).orphan = false
      ∧ fld e.w5 31 0 = 5 ∧ s.now ≤ s.sync.tickAt ∧ s.sync.ranks.findD e.id 0 ≤ 5
      ∧ objVal (takeTurn s e.id (localRank 5)) e.id + 5 ≤ 2 ^ 32 - 1)
    ∧ (let e := ent 0x12 16384 0 0xFFFFFFFF 0;
      let s := { runState e [] with sync := { base.sync with values := ⟨[(16384, 1)]⟩, granules := ⟨[(1, { (default : Granule) with semMode := true })]⟩ } };
      nextToRun s 5 0x12 = some (idleRun e []) ∧ (s.granule (granOf e.id)).orphan = false 
      ∧ 2 ^ 32 - 1 < objVal (takeTurn s e.id (localRank 5)) e.id + fld e.w5 31 0) := by
  decide

theorem test_meets_QueueWaitsTimeWaitsDeadlinesAndLulls :
    (let e := ent 0x14 5 0 9 0; let s := runState e []; nextToRun s 5 0x14 = some (idleRun e [])
      ∧ queueWaitMet (markRan s 5 9) (started e []) = true)
    ∧ (let e := ent 0x19 0 0 1600 0; let s := runState e []; nextToRun s 5 0x19 = some (idleRun e [])
      ∧ timeTarget (started e []) ≤ s.now)
    ∧ (let e := ent 0x19 0 0 1601 0; let s := runState e []; nextToRun s 5 0x19 = some (idleRun e [])
      ∧ s.now < timeTarget (started e []) ∧ timeTarget (started e []) < (started e []).issuedAt + lullNs s)
    ∧ (let e := ent 0x19 0 1 50000 0; let s := runState e []; nextToRun s 5 0x19 = some (idleRun e [])
      ∧ (started e []).issuedAt + lullNs s ≤ timeTarget (started e []))
    ∧ (let x : Started := { started (ent 0x19 0 0 1700 0) [] with ran := true, target := 1700 };
      let w := { idleQueue with started := [x] }; (queueState w).queues.find 5 = some w ∧ timeWaitOf w = some x)
    ∧ (let x : Started := { started (ent 0x2000000011 16384 0 5 1616) [] with ran := true };
      headDeadline (queueState { idleQueue with started := [x] }) 5 = some (x, 1616))
    ∧ (let s := { base with sync := { base.sync with waits := [⟨.held 2 4, false, 16384, 5, some 1616, 1600, 0⟩] } };
      pendingWait s (.held 2 4) = some ⟨.held 2 4, false, 16384, 5, some 1616, 1600, 0⟩)
    ∧ base.now ≤ base.sync.tickAt ∧ tickStart 1616 ≤ 1616
    ∧ (let w := { idleQueue with st := .waiting, reason := .sync, waitSince := some 16 };
      (queueState w).queues.find 5 = some w ∧ w.waitSince = some 16 ∧ w.st = .waiting ∧ (w.reason = .sync ∨ w.reason = .time)
      ∧ w.lull = false) := by decide

theorem test_meets_SyncMemoryCommands :
    (let s := queueState idleQueue; taken s 0 (winAddr 1 0x2010) [(63, 9)] 0x101 = true ∧ fld (0x101 : Word) 7 0 = 1
      ∧ ownsGran s 1 (s.inst 1).win.gSel = true ∧ planClaimsGran s 0 = false ∧ granWaits s 0 = [])
    ∧ (let s := queueState idleQueue; taken s 0 (winAddr 1 0x2020) [] 0xFFFFFFFFFFFFFFFF = true
      ∧ taken s 0 (winAddr 1 0x2028) [] 0x8000000000000000 = true)
    ∧ (let s := queueState idleQueue; let v : Word := 0x000040010000FFFF; taken s 0 (winAddr 1 syncDbOff) [(62, 53)] v = true
      ∧ fld v 52 32 = 16385 ∧ (s.granule 1).orphan = false ∧ namesObject s 1 (bit v 63) 16385 = true ∧ bit v 63 = false)
    ∧ (let s := { queueState idleQueue with
        sync := { base.sync with granules := ⟨[(1, { (default : Granule) with semMode := true })]⟩ } };
      let v : Word := 0x800040010000FFFF; taken s 0 (winAddr 1 syncDbOff) [(62, 53)] v = true
      ∧ fld v 52 32 = 16385 ∧ (s.granule 1).orphan = false ∧ namesObject s 1 (bit v 63) 16385 = true ∧ bit v 63 = true
      ∧ objVal (takeTurn s 16385 doorbellRank) 16385 + fld v 31 0 < 2 ^ 32)
    ∧ (let s := { ask base .i3c [0x10030, 127] with
        sync := { base.sync with granules := ⟨[(127, { (default : Granule) with orphan := true })]⟩ } };
      posted s .i3c 0 0x0030 1 true = true ∧ reqFld s .i3c 8 1 = 127 ∧ s.plans.nextCond ≠ .loading
      ∧ (s.granule 127).orphan = true ∧ (∀ x ∈ s.insts.vals, covers x.res 0x04 127 = false)
      ∧ covers (activeClaims s ++ s.plans.oldClaims) 0x04 127 = false ∧ s.now ≤ s.sync.tickAt) := by decide


/-- A WAIT_COUNTER for 5 whose deadline is now, on a counter that stands at `v`. -/
def waitingAt (v : Nat) : State :=
  let e := ent 0x2000000011 16384 0 5 1600
  { runState e [] with
    queues := ⟨[(5, { idleQueue with st := .waiting, reason := .sync, started := [{ started e [] with ran := true }] })]⟩
    sync := { base.sync with values := ⟨[(16384, v)]⟩, waits := [⟨.queue 5 9, false, 16384, 5, some 1600, 1600, 5⟩] } }

/-- How entry 9 of queue 5 has ended after a command. -/
def endingOf (r : Host.Outcome State Fault Refusal) : Option Nat :=
  match r with
  | .next t => (startedAt t 5 9).bind (fun x => x.ending.map (·.status))
  | _ => none

/-- R14, R107: a wait that is satisfied in the tick of its deadline ends OK; one that is not ends WAIT_TIMEOUT. -/
theorem test_satisfied_beats_expired : endingOf (exec (.waitDeadline (.queue 5)) (waitingAt 5)) = some St.ok
    ∧ endingOf (exec (.waitDeadline (.queue 5)) (waitingAt 4)) = some St.waitTimeout := by decide
/-! ### Queue pairs -/

/-- The far end of QP 2: QP 4 of instance 1 of node 9, key 1, PMTU 1,024. -/
def peer : QpIdent :=
  { (default : QpIdent) with
    owner := 1, peerNode := 9, peerInst := 1, peerQp := 4, path := 0, pkey := 1, pmtu := 2, verMin := 1, verMax := 1
    ver := 1, limit := 4, ack := 0x03E8271000101404, baseUs := 64, capUs := 1000 }

/-- QP 2 of instance 1, with key 1 in set 16 of the injecting bank, granule 1, and segment 0 open to the far end. -/
def qpState (k : Qp) : State :=
  let s := withInst base .active [⟨0x04, 0, 1, 0, 1, 1, 0⟩, ⟨0x03, 0, 1, 0, 2, 1, 0⟩]
  { s.modSeg 1 0 (fun _ => { (default : Seg) with valid := true, base := 2097152, len := 1, rr := true, rw := true, key := 5 }) with
    qps := ⟨[(2, k)]⟩
    routing := { s.routing with bank0 := { Bank.reset with
      cond := .inject, sets := ⟨[(16, ⟨Tbl.empty, Tbl.empty, ⟨[(0, 2)]⟩⟩)]⟩ } } }

def openQp2 : Qp := { Qp.reset with st := .opened, ident := peer, resident := true }

/-- A message of a kind with PSN 0 and MSN 1. -/
def message (k : MsgKind) (n : Nat) : Msg :=
  { (default : Msg) with msn := 1, kind := k, owner := .entry 5 9, psn := some 0, span := 1, len := n }

/-- QP 2 with one such message in its window, not yet sent, or sent. -/
def sending (k : MsgKind) : Qp := { openQp2 with nextPsn := 1, msgs := [message k 1024] }
def sent (k : MsgKind) : Qp := { openQp2 with nextPsn := 1, sendPsn := 1, msgs := [message k 4] }

/-- A packet from that far end. -/
def packet (typ : Byte) (body : ZtpBody) : ZtpPacket :=
  { (default : ZtpPacket) with
    typ := typ, ver := 1, dstQp := 2, srcQp := 4, msn := 1, pkey := 1, body := body, ecrcOk := true, first := true }
def fromNode9 : Arrival := ⟨none, 9, 0, false, false⟩

theorem test_meets_RequesterSendsAndTakesAnswers :
    (maySend (sending .sync) = true ∧ (sending .sync).resident = true
      ∧ nextToSend (sending .sync) 3 (sending .sync).sendPsn = some (message .sync 1024, 0)
      ∧ nextToSend (sending .read) 3 (sending .read).sendPsn = some (message .read 1024, 0))
    ∧ (let m := { message .write 16 with xlat := some (hbm16 0) }; let k := { sending .write with msgs := [m] };
      maySend k = true ∧ k.resident = true ∧ nextToSend k 3 k.sendPsn = some (m, 0)
      ∧ (qpCircuit (qpState k) 2).isSome = false ∧ xlatHeld ((qpState k).arriveAt k.readyAt) (hbm16 0) = false
      ∧ (xlatRead ((qpState k).arriveAt k.readyAt) (hbm16 0) 0 16).2.1 = .done)
    ∧ (let s := qpState (sent .write); let p := packet 0x11 .none;
      forRequester (takeInbox s fromNode9 (.ztp p)) fromNode9 p = true ∧ comesIn s p 0x11 = true
      ∧ msgOf (sampleRtt s 2 p.ts) 2 1 = some (message .write 4) ∧ (message .write 4).kind ≠ .sync)
    ∧ (let s := qpState (sent .sync); let p := packet 0x11 .none;
      forRequester (takeInbox s fromNode9 (.ztp p)) fromNode9 p = true ∧ comesIn s p 0x11 = true
      ∧ msgOf (sampleRtt s 2 p.ts) 2 1 = some (message .sync 4) ∧ (message .sync 4).psn = some p.psn.toNat ∧ p.syndrome = 0)
    ∧ (let s := qpState (sent .write); let p := { packet 0x12 .none with syndrome := 2 };
      forRequester (takeInbox s fromNode9 (.ztp p)) fromNode9 p = true ∧ comesIn s p 0x12 = true
      ∧ (s.qp 2).ignoreNak ≠ some p.epsn.toNat ∧ ahead p.epsn.toNat (s.qp 2).unacked < 2 ^ 31
      ∧ ahead (s.qp 2).sendPsn p.epsn.toNat < 2 ^ 31)
    ∧ (let s := qpState (sent .read); let p := packet 0x13 (.data [1, 2, 3, 4]);
      forRequester (takeInbox s fromNode9 (.ztp p)) fromNode9 p = true ∧ comesIn s p 0x13 = true
      ∧ msgAt (s.qp 2) 0 = some (message .read 4) ∧ (message .read 4).xlat = none ∧ p.psn.toNat = readNext (s.qp 2) (message .read 4)
      ∧ [1, 2, 3, 4].length = min (pmtuBytes (s.qp 2).ident.pmtu) ((message .read 4).len - (message .read 4).placed))
    ∧ (let s := qpState (sent .sync); let p := packet 0x14 .none;
      forRequester (takeInbox s fromNode9 (.ztp p)) fromNode9 p = true ∧ comesIn s p 0x14 = true
      ∧ msgOf s 2 p.msn.toNat = some (message .sync 4))
    ∧ (let s := qpState openQp2; let p := packet 0x15 .none;
      forRequester (takeInbox s fromNode9 (.ztp p)) fromNode9 p = true ∧ comesIn s p 0x15 = true) := by decide

/-- With no error noted and no stack dead every range reads well. -/
theorem noBad (h : Hbm) (a n : Nat) (hb : h.bad = []) (hd : h.dead = 0) : firstBad h a n = none := by
  simp [firstBad, wordBad, hb, hd]

/-- What the responder finds for a WRITE of 4 bytes at the last four bytes of segment 0. -/
def writeTop : ZtpPacket := { packet 0x01 (.data [1, 2, 3, 4]) with raddr := 2097148, rkey := 5, length := 4 }

theorem test_meets_ResponderAppliesExpectedRequests :
    (let s := qpState openQp2;
      forResponder (takeInbox s fromNode9 (.ztp writeTop)) fromNode9 writeTop = true ∧ ((requestTaken s writeTop).qp 2).cur = none
      ∧ 1 ≤ dmod 32 writeTop.msn.toNat ((requestTaken s writeTop).qp 2).applied
      ∧ dmod 32 writeTop.msn.toNat ((requestTaken s writeTop).qp 2).applied < 2 ^ 31
      ∧ comesIn s writeTop 0x01 = true ∧ writeTop.first = true
      ∧ (checkTarget (requestTaken s writeTop) fromNode9 2 writeTop).2 = .range ⟨1, 0, false, 0, 4194300, 4, 0⟩
      ∧ targetHeld (checkTarget (requestTaken s writeTop) fromNode9 2 writeTop).1 (some ⟨1, 0, false, 0, 4194300, 4, 0⟩) = false)
    ∧ (let s := qpState openQp2; let p := { writeTop with typ := 0x02, body := .none };
      forResponder (takeInbox s fromNode9 (.ztp p)) fromNode9 p = true ∧ comesIn s p 0x02 = true
      ∧ (checkTarget (requestTaken s p) fromNode9 2 p).2 = .range ⟨1, 0, false, 0, 4194300, 4, 0⟩
      ∧ targetHeld (checkTarget (requestTaken s p) fromNode9 2 p).1 (some ⟨1, 0, false, 0, 4194300, 4, 0⟩) = false)
    ∧ (let s := qpState openQp2; let p := packet 0x03 (.sync ⟨0, 0, 0, 16384, 3, 0⟩);
      forResponder (takeInbox s fromNode9 (.ztp p)) fromNode9 p = true ∧ comesIn s p 0x03 = true
      ∧ (checkTarget (requestTaken s p) fromNode9 2 p).2 = .object)
    ∧ (let s := qpState { openQp2 with firstUnacked := some 1600 }; (s.qp 2).firstUnacked = some 1600 ∧ (s.qp 2).st = .opened)
    ∧ (let s := qpState { openQp2 with fetching := true, resident := false };
      (s.qp 2).fetching = true ∧ (s.qp 2).resident = false ∧ ((makeResident s 2).qp 2).resident = true
      ∧ firstBad (makeResident s 2).hbm (Config.contextAt 2) 512 = none) := by
  refine ⟨by decide, by decide, by decide, by decide, by decide, by decide, by decide, ?_⟩
  apply noBad <;> decide

theorem test_meets_RetriesProbesAndBackoffs :
    (let k := { sent .write with timerAt := some 1600, k := 3 }; maySend k = true ∧ k.k < k.ident.limit
      ∧ answerWaits (qpState k) 2 = false)
    ∧ (let k := { sent .write with timerAt := some 1600, k := 4 }; maySend k = true ∧ k.ident.limit ≤ k.k
      ∧ answerWaits (qpState k) 2 = false)
    ∧ (let m := { message .sync 4 with passed := true, held := true, timerAt := some 1700 };
      let s := qpState { sent .sync with msgs := [m] }; msgOf s 2 1 = some m ∧ maySend (s.qp 2) = true ∧ answerWaits s 2 = false)
    ∧ (let k := { openQp2 with backoff := some (1700, 3) }; k.backoff = some (1700, 3) ∧ msgAt k 3 = none)
    ∧ (let m := { message .sync 4 with passed := true }; let k := { sent .sync with msgs := [m], backoff := some (1700, 0) };
      k.backoff = some (1700, 0) ∧ msgAt k 0 = some m)
    ∧ (openQp2.st = .opened ∧ qpCircuit (qpState openQp2) 2 = none)
    ∧ (let s := { withPlan base { (default : Plan) with paths := [⟨7, 1, 3, false, 0, 0, 0⟩] } 0 with
        coll := { base.coll with slots := ⟨[(7, { Slot.reset with outs := ⟨[(2, { (default : OutStream) with rate := 16 })]⟩ })]⟩ } };
      ratedPort s 7 1 = some 3 ∧ [2, 3].filter (fun k => ((s.slot 7).outs.findD k default).rate != 0) = [2]) := by decide

/-- The CONN block of that far end. -/
def conn : ConnBlock :=
  { (default : ConnBlock) with
    node := 9, inst := 1, peerInst := 1, qp := 4, peerQp := 2, verMin := 1, ver := 1, pmtu := 2, pkey := 1, startPsn := 7 }

theorem test_meets_ConnectionsOpenAndClose :
    (let s := ask (base.modInst 0 (fun x => { x with res := [⟨0x03, 0, 0, 0, 2, 1, 0⟩] })) .i3c
        [0x10040, 0x0000000900000002, 0x0001000002000001, 0x0000010100000004];
      posted s .i3c 0 0x0040 1 false = true ∧ openRefused (took s .i3c) .i3c = false ∧ reqFld s .i3c 8 4 = 2)
    ∧ (let s := ask { base.modInst 0 (fun x => { x with res := [⟨0x03, 0, 0, 0, 2, 1, 0⟩] }) with
          qps := ⟨[(2, { Qp.reset with st := .opened })]⟩ } .i3c [0x10041, 2];
      posted s .i3c 0 0x0041 1 false = true ∧ reqFld s .i3c 8 4 = 2 ∧ holds s 0 0x03 2 = true ∧ (s.qp 2).st ≠ .closed
      ∧ (s.qp 2).ident.owner = 0)
    ∧ (let p := packet 0x21 (.conn conn); let k := { openQp2 with st := .opening };
      connFrom (takeInbox (qpState k) fromNode9 (.ztp p)) p conn = true ∧ comesIn (qpState k) p 0x21 = true
      ∧ k.ident.active = false ∧ k.reply = none ∧ decideSetup k conn = (0, 1))
    ∧ (let p := packet 0x22 (.conn conn); let k := { openQp2 with st := .opening, ident := { peer with active := true } };
      connFrom (takeInbox (qpState k) fromNode9 (.ztp p)) p conn = true ∧ comesIn (qpState k) p 0x22 = true
      ∧ k.ident.active = true ∧ conn.tag = k.ident.conn ∧ conn.reason = 0)
    ∧ (let p := packet 0x23 (.conn conn); let k := { openQp2 with st := .opening, reply := some conn };
      connFrom (takeInbox (qpState k) fromNode9 (.ztp p)) p conn = true ∧ comesIn (qpState k) p 0x23 = true
      ∧ k.reply = some conn ∧ conn.tag = k.ident.conn)
    ∧ (let p := packet 0x24 (.conn conn);
      connFrom (takeInbox (qpState openQp2) fromNode9 (.ztp p)) p conn = true ∧ comesIn (qpState openQp2) p 0x24 = true)
    ∧ (let p := packet 0x25 (.conn conn); let k := { openQp2 with st := .draining, lastTry := 16 };
      connFrom (takeInbox (qpState k) fromNode9 (.ztp p)) p conn = true ∧ comesIn (qpState k) p 0x25 = true
      ∧ k.msgs = [] ∧ k.lastTry ≠ 0) := by decide

theorem test_meets_ConnectionTimers :
    (let k := { openQp2 with st := .opening, ident := { peer with active := true } }; k.st = .opening ∧ k.ident.active = true
      ∧ k.lastTry + 1000000 < k.setupAt + max 1 (fld k.ident.ack 63 48) * 1000000)
    ∧ (let k := { openQp2 with st := .draining, lastTry := 16 }; k.st = .draining ∧ k.msgs = [] ∧ k.lastTry ≠ 0) := by decide

/-! ### Collectives -/

/-- A descriptor of slot 7: a ring of members 0 and 1 of one pod, this device member 0. -/
def ringDesc : Descriptor :=
  { (default : Descriptor) with
    collId := 12, slot := 7, owner := 1, n1 := 2, n2 := 1, self := 0, pieceLog := 12, stage := 2, pkey := 1, stepLimit := 5
    inputs := 1, members := [0, 9] }

/-- Its step 0 of 64 elements by rings. -/
def ringRun : Run := { (default : Run) with q := 5, seq := 9, step := 0, elems := 64, half := 0, tree := false }

/-- Slot 7 holding that descriptor. -/
def collState (x : Slot) : State :=
  { qpState openQp2 with coll := { Coll.reset with slots := ⟨[(7, x)]⟩ } }
def idleSlot : Slot := { Slot.reset with cond := .idle, desc := some ringDesc }
def runningSlot : Slot := { idleSlot with cond := .running, run := some ringRun }

/-- A CSP packet of member 1 on stream 0. -/
def piecePacket (typ : Byte) (n : BitVec 16) : CspPacket :=
  { (default : CspPacket) with
    typ := typ, level := 1, collId := 12, sender := 1, pkey := 1, len := n, payload := List.replicate n.toNat 0, crcOk := true }

theorem test_meets_CollectiveStepsStartAndEnd :
    (∃ u r, (let e := ent 0x20 64 7 0 0; let s := { collState idleSlot with queues := (runState e [hbm16 0, hbm16 4096]).queues };
      nextToRun s 5 0x20 = some (idleRun e [hbm16 0, hbm16 4096]) ∧ e.slot = 7 ∧ (s.slot 7).desc = some ringDesc
      ∧ (s.slot 7).cond ≠ .fault ∧ missedLike s = false ∧ (s.slot 7).run = none
      ∧ (∀ y ∈ [hbm16 0, hbm16 4096], xlatHeld s y = false)
      ∧ u = forEach streamKeys (openRun (markRan s 5 9) 7 5 (started e [hbm16 0, hbm16 4096]) ringDesc [hbm16 0] (some (hbm16 4096)))
        (fun s k => rescan s 7 k) ∧ (u.slot 7).run = some r))
    ∧ (let r := { ringRun with final := ⟨(List.range 64).map (fun u => (u, [0]))⟩ };
      let s := collState { runningSlot with run := some r, outs := ⟨[(0, { (default : OutStream) with units := 32 })]⟩ };
      (s.slot 7).desc = some ringDesc ∧ (s.slot 7).run = some r ∧ missedLike s = false ∧ stepWhole s 7 ringDesc r = true)
    ∧ (let s := collState runningSlot; (s.slot 7).desc = some ringDesc ∧ (s.slot 7).run = some ringRun ∧ 0 < ringDesc.stepLimit) :=
  ⟨⟨_, _, by decide, by decide, by decide, by decide, by decide, by decide, by decide, rfl, rfl⟩, by decide, by decide⟩

theorem test_meets_PiecesAreSentStagedPressedAndRepeated :
    (let x : SentPiece := ⟨0, 0, false, [1], 0, 0⟩;
      let s := collState { runningSlot with outs := ⟨[(0, { (default : OutStream) with sent := 1, pieces := [x] })]⟩ };
      (s.slot 7).desc = some ringDesc ∧ s.inService = true ∧ missedLike s = false ∧ mayCharge s (bucketOf s 2 7) = true
      ∧ sendable s 7 ringDesc [0, 1] = some (0, x))
    ∧ (let s := collState runningSlot; let p := piecePacket 0x41 4;
      s.inService = true ∧ p.crcOk = true ∧ slotOfColl (takeInbox s fromNode9 (.csp p)) p.collId.toNat = some (7, ringDesc)
      ∧ p.pkey.toNat = ringDesc.pkey ∧ keyMember s fromNode9.bank (arrSet fromNode9) p.pkey.toNat = true
      ∧ inKey ringDesc p.sender.toNat p.level.toNat (p.stream.toNat % 8) = some 0
      ∧ dmod 32 p.seq.toNat ((s.slot 7).ins.findD 0 default).arrived = 0 ∧ p.payload.length = p.len.toNat
      ∧ p.offset.toNat = ((s.slot 7).ins.findD 0 default).partialPiece.bytes.length
      ∧ ((s.slot 7).ins.findD 0 default).staged.length < ringDesc.stage)
    ∧ (let s := collState { runningSlot with ins := ⟨[(0, { (default : InStream) with arrived := 1 })]⟩ }; let p := piecePacket 0x41 4;
      slotOfColl s p.collId.toNat = some (7, ringDesc) ∧ 2 ^ 31 ≤ dmod 32 p.seq.toNat ((s.slot 7).ins.findD 0 default).arrived)
    ∧ (let o : OutStream := { (default : OutStream) with sent := 1 }; let s := collState { runningSlot with outs := ⟨[(0, o)]⟩ };
      let p := { piecePacket 0x42 0 with seq := 1, offset := 1 };
      slotOfColl s p.collId.toNat = some (7, ringDesc)
      ∧ outKey ringDesc p.sender.toNat p.level.toNat (p.stream.toNat % 8) = some 0 ∧ (s.slot 7).outs.findD 0 default = o
      ∧ dmod 32 p.seq.toNat o.arrivedAck ≤ dmod 64 o.sent o.arrivedAck ∧ dmod 32 p.offset.toNat o.consumedAck ≤ dmod 64 o.sent o.consumedAck)
    ∧ (let x : StagedPiece := ⟨0, false, List.replicate 32 0⟩;
      let s := collState { runningSlot with ins := ⟨[(0, { (default : InStream) with arrived := 1, staged := [x] })]⟩ };
      (s.slot 7).desc = some ringDesc ∧ (s.slot 7).run = some ringRun ∧ mayCharge s (bucketOf s 2 7) = true ∧ ringRun.dst = none
      ∧ ((s.slot 7).ins.findD 0 default).staged = [x] ∧ pieceAt ringDesc (streamLevel 0) (inList ringDesc ringRun 0) 0 = some (false, 32)
      ∧ x.bytes.length = 32
      ∧ (unitsIn ringDesc (streamLevel 0) (inList ringDesc ringRun 0) (x.bytes.length + 1) 0 x.bytes).1.all
          (fun u => takeReady ringDesc ringRun 0 u.1 u.2.1) = true
      ∧ (hbmRead s (stageAt ringDesc 0 ((s.slot 7).ins.findD 0 default).consumed) 32).2.1 = .done)
    ∧ (let x : SentPiece := ⟨0, 0, false, [1], 1, 1600⟩; let y : SentPiece := ⟨0, 0, false, [1], 17, 1600⟩;
      let s := collState { runningSlot with outs := ⟨[(0, { (default : OutStream) with sent := 1, pieces := [x] })]⟩ };
      let t := collState { runningSlot with outs := ⟨[(0, { (default : OutStream) with sent := 1, pieces := [y] })]⟩ };
      (outstanding s 7 0).map (fun z => (z.1, z.2.1)) = [(0, x)] ∧ x.sends ≤ collRetries s 7
      ∧ (outstanding t 7 0).map (fun z => (z.1, z.2.1)) = [(0, y)] ∧ collRetries t 7 < y.sends) := by decide

/-! ### Fabric -/

/-- Port 3 in fabric mode as given, the injecting bank routing node 5 from port 3 by port 7, which is UP. -/
def fabState (k : Port) : State :=
  { base with
    ports := ⟨[(3, k), (7, { Port.reset with cond := .up })]⟩
    routing := { base.routing with bank0 := { Bank.reset with
      cond := .inject
      sets := ⟨[(3, ⟨Tbl.empty, ⟨[(5, 0x80070000), (6, 0x80070400), (8, 0x80730100)]⟩, ⟨[(0, 2)]⟩⟩)]⟩ } } }
def upPort : Port := { Port.reset with cond := .up, ver := 2, nbrNode := 9, nbrPort := 4 }

/-- A routed frame to a node, on VC1, with key 1. -/
def frameTo (n : BitVec 32) : FabFrame :=
  { (default : FabFrame) with
    kind := 1, vc := 1, hops := 32, dst := n, src := 9, pkey := 1, len := 64, body := .ztp default, lcrcOk := true }

/-- Such a frame as the replay buffer keeps it. -/
def sentFrame (n : BitVec 16) : Queued := ⟨{ frameTo 5 with lseq := n }, 16, 1, 0, 0, false⟩

theorem test_meets_FabricFramesArriveAndAreReplayed :
    (fromLine (fabState upPort) 3 = true ∧ isEth (fabState upPort) 3 = false ∧ ((fabState upPort).port 3).cond = .up
      ∧ ({ frameTo 5 with lcrcOk := false } : FabFrame).lcrcOk = false ∧ upPort.nakSent = false)
    ∧ (replayed (frameTo 5) = true ∧ (frameTo 5).lseq.toNat = upPort.rxSeq ∧ upPort.ver = 2
      ∧ badFormat (fabState upPort) 3 (frameTo 5) = false ∧ (frameTo 5).vc ≠ 7)
    ∧ 2 ^ 15 ≤ dmod 16 ({ frameTo 5 with lseq := 0xFFFF } : FabFrame).lseq.toNat upPort.rxSeq
    ∧ (let k := { upPort with replay := [sentFrame 0, sentFrame 1] };
      fromLine (fabState k) 3 = true
      ∧ (k.replay.filter (fun q => decide (dmod 16 0 q.frame.lseq.toNat ≥ 2 ^ 15))).length < k.replay.length
      ∧ k.replay ≠ [] ∧ k.again = [] ∧ k.fruitless < 8)
    ∧ (let k := { upPort with queues := ⟨[(0, [⟨frameTo 5, 16, 0, 16, 0, false⟩])]⟩ };
      k.queues.findD 0 [] = [⟨frameTo 5, 16, 0, 16, 0, false⟩] ∧ k.credits.findD 0 0 < frameCredits (frameTo 5)) := by decide

theorem test_meets_FabricLinksChangeCondition :
    (let k := { upPort with cond := .training, helloFrom := some (9, 4, 2), helloCount := 2, aligned := true };
      fromLine (fabState k) 3 = true ∧ isEth (fabState k) 3 = false ∧ k.helloFrom = some (9, 4, 2) ∧ 2 ≤ k.helloCount)
    ∧ (upPort.cond = .up ∧ upPort.nbrNode = (9 : BitVec 18).toNat ∧ upPort.nbrPort = (4 : BitVec 4).toNat
      ∧ upPort.nbrNode ≠ (8 : BitVec 18).toNat)
    ∧ (let k := { upPort with cond := .retrain }; k.cond = .retrain ∧ k.nbrNode = (9 : BitVec 18).toNat)
    ∧ (let s := fabState upPort;
      s.inService = true ∧ upPort.cond ≠ .down ∧ portMute s 3 = false ∧ loopOf s 3 = 0)
    ∧ (let k := { Port.reset with cfg := 0x00C80FA000000022, cond := .down };
      let s := { fabState k with routing := { (fabState k).routing with node := 0x40000 } };
      s.inService = true ∧ k.cond = .down ∧ fabMayTrain s 3 = true)
    ∧ (let k := { upPort with cfg := 0x00C80FA000000022 };
      taken (fabState k) 0 (0x60000 + 0x100 * 3) [(31, 6), (3, 2)] 0x00C80FA000000022 = true
      ∧ bit (0x00C80FA000000022 : Word) 1 = true ∧ bit k.cfg 1 = true ∧ k.cond ≠ .down)
    ∧ (let s := { base with routing := { base.routing with node := 0x40000 } };
      taken s 0 0x61000 [(63, 19)] 0x7FFFF = true ∧ bit s.routing.node 18 = true) := by decide

/-- Both banks as given. -/
def banks (a b : Bank) : State := { base with routing := { base.routing with bank0 := a, bank1 := b } }
def injecting : Bank := { Bank.reset with cond := .inject }
def stagedByManager : Bank := { Bank.reset with cond := .staged, mgr := true }

theorem test_meets_RoutingBanksMoveAsTheirTableSays :
    (let s := banks injecting Bank.reset;
      taken s 0 0x61018 [(63, 8)] 1 = true ∧ injectBank s = some false ∧ (bankOf s.routing (!false)).cond = .retired
      ∧ s.plans.nextCond = .empty)
    ∧ injectBank (banks Bank.reset Bank.reset) = none
    ∧ (let s := banks injecting stagedByManager;
      taken s 0 0x61018 [(63, 8)] 2 = true ∧ (bankOf s.routing true).cond = .staged
      ∧ stagedOrArmed (bankOf s.routing (!true)) = false ∧ (bankOf s.routing true).mgr = true)
    ∧ (let s := banks injecting { stagedByManager with mgr := false };
      (bankOf s.routing true).cond = .staged ∧ (bankOf s.routing true).mgr = false)
    ∧ (let s := { banks injecting stagedByManager with routing :=
        { (banks injecting stagedByManager).routing with sel := 0x110100001FF } };
      taken s 0 0x61030 [] 0xFFFFFFFFFFFFFFFF = true ∧ selBank s = true ∧ selSet s = 16 ∧ selTable s = 1 ∧ selIndex s = 511 ∧ selValid s = true
      ∧ (bankOf s.routing (selBank s)).cond = .staged ∧ bit s.routing.sel 31 = false)
    ∧ (arrives base 0 = true ∧ serves base 0 0x61030 = true)
    ∧ (let s := banks injecting stagedByManager;
      taken s 0 0x61020 [] 10001664 = true ∧ (bankOf s.routing true).cond = .staged ∧ (bankOf s.routing true).mgr = true
      ∧ (bankOf s.routing (!true)).cond ≠ .staged ∧ (10001664 : Word).toNat % 256 = 0
      ∧ s.now + 10000000 ≤ (10001664 : Word).toNat)
    ∧ (let s := { banks injecting { stagedByManager with cond := .armed } with routing :=
        { (banks injecting { stagedByManager with cond := .armed }).routing with tableFront := some 1600 } };
      s.routing.tableFront = some 1600 ∧ (bankOf s.routing true).cond = .armed ∧ (bankOf s.routing (!true)).cond = .inject)
    ∧ (let s := banks { Bank.reset with cond := .drain } injecting;
      (bankOf s.routing false).cond = .drain ∧ (bankOf s.routing (!false)).cond ≠ .drain) := by decide

/-- R202, R206: node 5 goes out of port 7 and keeps its VC; node 6 crosses a
dateline there; node 8 has port 3, where the frame came from, first, and goes by port 7 second. -/
theorem test_meets_LookupFollowsItsPseudocode :
    lookupFrame (fabState upPort) (frameTo 5) 3 = .out 7 0 1 ∧ lookupFrame (fabState upPort) (frameTo 6) 3 = .out 7 0 2
    ∧ lookupFrame (fabState upPort) (frameTo 8) 3 = .out 7 1 1
    ∧ lookupFrame (fabState upPort) { frameTo 5 with bank := true } 3 = .drop .bank
    ∧ lookupFrame (fabState upPort) (frameTo 0) 3 = .here
    ∧ lookupFrame (fabState upPort) { frameTo 5 with hops := 0 } 3 = .drop .hop
    ∧ lookupFrame (fabState upPort) { frameTo 5 with pkey := 64 } 3 = .drop .pkey
    ∧ lookupFrame (fabState upPort) (frameTo 511) 3 = .drop .noRoute
    ∧ (bankOf (fabState upPort).routing false).cond ≠ .retired ∧ (frameTo 5).dst.toNat ≠ nodeId (fabState upPort)
    ∧ keyMember (fabState upPort) false 3 64 = false := by decide

/-! ### Ethernet -/

/-- Port 3 in Ethernet mode, enabled, with VLAN 0 of address 10.0.0.1 and MAC 02:..:01 as filter 0; sub-port 0 as
given. -/
def ethState (cfg : Word) (x : SubPort) : State :=
  { base with
    ports := ⟨[(3, { Port.reset with cfg := 3 })]⟩
    eth := { base.eth with ports := ⟨[(3, { EthPort.reset with
      cfg := cfg, filter := ⟨[(0, 0x8000020000000001)]⟩, vlans := ⟨[(0, ⟨0x8000000000000000, 0x10A000001, 0, 0⟩)]⟩
      rxHeld := ⟨[(5, 1563648)]⟩, subs := ⟨[(0, x)]⟩ })]⟩ } }
def plainPort : Word := 0x9000500008000000
def upSub : SubPort := { (default : SubPort) with up := true }

/-- A ZTP packet in UDP for that address, CE marked, in DSCP 46. -/
def udpFrame : EthFrame :=
  { (default : EthFrame) with
    dst := 0x020000000001, length := 9216, fcsOk := true, body := .ztp default
    ip := some { (default : IpHeader) with
      dst := 0x0A000001000000000000000000000000, dscp := 46, ecn := 3, udp := true, udpDst := 0x5074, udpSumZero := true } }

theorem test_meets_EthernetFramesAreFilteredAndPauses :
    (isEth (ethState plainPort upSub) 3 = true ∧ ({ udpFrame with length := 63 } : EthFrame).length < 64
      ∧ maxFrame ((ethState plainPort upSub).ethPort 3) < ({ udpFrame with length := 9217 } : EthFrame).length)
    ∧ (let s := ethState plainPort upSub; let f := { udpFrame with dst := 0x020000000002 };
      f.length ≤ maxFrame (s.ethPort 3) ∧ f.doubleTag = false ∧ f.control = false ∧ passesFilter s 3 f.dst = false)
    ∧ (let s := ethState plainPort upSub; let f := udpFrame;
      f.fcsOk = true ∧ 64 ≤ f.length ∧ f.length ≤ maxFrame (s.ethPort 3) ∧ passesFilter s 3 f.dst = true
      ∧ (vlansFor (s.ethPort 3) (frameVid f)).any (fun v => forDevice s v f) = true
      ∧ bit ((s.ethPort 3).police.findD (framePrio f) 0) 63 = false
      ∧ (s.ethPort 3).rxHeld.vals.foldl (· + ·) 0 + f.length ≤ 1572864)
    ∧ (let s := ethState plainPort upSub; let f : EthFrame := { udpFrame with length := 64, body := .ptp .pdelayReq, ip := none };
      f.fcsOk = true ∧ 64 ≤ f.length ∧ f.length ≤ maxFrame (s.ethPort 3) ∧ f.doubleTag = false ∧ f.control = false
      ∧ passesFilter s 3 f.dst = true ∧ vlansFor (s.ethPort 3) (frameVid f) ≠ [])
    ∧ pauseMode ((ethState 0x9000500048000000 upSub).ethPort 3) = 1
    ∧ pauseMode ((ethState 0x9000502088000000 upSub).ethPort 3) = 2
    ∧ (let e := (ethState 0x9000502088000000 { upSub with xoffAt := ⟨[(5, 1600)]⟩, pauseEnd := ⟨[(5, 1700)]⟩ }).ethPort 3;
      pauseMode e = 2 ∧ (subOf e 0).xoffAt.find 5 = some 1600 ∧ xonLevel e < rxOccupancy e 5
      ∧ (subOf e 0).pauseEnd.findD 5 0 = 1700)
    ∧ (let e := (ethState 0x9000500048000000 { upSub with portPause := 1700 }).ethPort 3;
      pauseMode e = 1 ∧ (subOf e 0).portPause = 1700) := by
  refine ⟨by decide, by decide, by decide, by decide, by decide, by decide⟩

theorem test_meets_EthernetFramesStartAndSubPortsMove :
    (let q : EthQueued := ⟨udpFrame, 0, 1, 5, false, 2, false, none, 0⟩; let s := ethState plainPort { upSub with waiting := [q] };
      isEth s 3 = true ∧ (subOf (s.ethPort 3) 0).up = true ∧ (subOf (s.ethPort 3) 0).waiting = [q]
      ∧ (pickEth (countHeld (s.arriveAt (subOf (s.ethPort 3) 0).nextAt) 3 0) 3 0).map (·.1) = some q)
    ∧ (let s := withPlan (ethState plainPort upSub) { (default : Plan) with gates := [⟨3, 0, 0, [0xFF000010, 0x00000010]⟩] } 0;
      (gateNow s 3).isSome = true)
    ∧ (let s := ethState plainPort upSub; isEth s 3 = true ∧ (0 : BitVec 2).toNat < subCount (s.ethPort 3) ∧ bit (s.port 3).cfg 1 = true)
    ∧ (∀ f ∈ upSub.waiting, f.rank = 2) ∧ upSub.flying = none
    ∧ (let q : EthQueued := ⟨udpFrame, 0, 1, 5, false, 0, false, none, 0⟩; let s := ethState 0x9000500018000000 { upSub with waiting := [q] };
      let u := s.modEth 3 (fun e => { e with subs := ⟨[(0, default), (1, upSub)]⟩ });
      (subOf (s.ethPort 3) 0).waiting = [q] ∧ q.rank ≠ 2 ∧ pickSub (u.ethPort 3) 1 = some 1) := by decide

/-! ### Memory and the Pomel links -/

/-- Instance 1 with a region of two granules from granule 4 and the segment registers as given. -/
def segState (base cfg : Word) (g : Seg) : State :=
  (withInst Tests.base .active [⟨0x06, 0, 1, 0, 4, 2, 0⟩]).modInst 1 (fun x => { x with
    win := { x.win with segSel := 0, segBase := base, segCfg := cfg, segs := ⟨[(0, g)]⟩ } })

theorem test_meets_SegmentsAreSetAndCleared :
    (let s := segState 0x800000 0x300000002 default; let w := (s.inst 1).win;
      taken s 0 (winAddr 1 0x5020) [(63, 8)] 1 = true ∧ (s.seg 1 0).valid = false ∧ (s.seg 1 0).draining = false
      ∧ w.segBase.toNat % 2097152 = 0 ∧ fld w.segCfg 31 0 ≠ 0 ∧ bit w.segCfg 36 = false
      ∧ inRegion ((s.inst 1).res ++ claimsFor s 1) (segOf w) = true ∧ segClaimed s 1 0 = false)
    ∧ (let s := segState 0x800000 0x1300000002 default; let w := (s.inst 1).win;
      bit w.segCfg 36 = true ∧ mayUse s 1 (fld w.segCfg 39 38) = true ∧ (s.link (fld w.segCfg 39 38)).cond = .up)
    ∧ (let s := segState 0x800001 0x300000002 default; (s.inst 1).win.segBase.toNat % 2097152 ≠ 0)
    ∧ (let s := segState 0 0 { (default : Seg) with valid := true };
      taken s 0 (winAddr 1 0x5020) [(63, 8)] 2 = true ∧ segQueued s 1 0 = false ∧ segClaimed s 1 0 = false
      ∧ covers ((nextClaims s).filter (fun c => c.owner == 1)) 0x05 0 = false ∧ (s.seg 1 0).valid = true) := by decide

theorem test_meets_HbmIsScrubbedAndStacksRetire :
    (base.inService = true ∧ (95999999999 * 8 < hbmTop base.hbm ∧ hbmTop base.hbm = 95999999999 * 8 + 8)
      ∧ wordBad base.hbm 0 = false ∧ base.hbm.soft.contains 0 = false)
    ∧ base.hbm.injected.contains 0 = false
    ∧ base.hbm.scrubRows.contains (rowOf base.hbm 0, wrap 32 (base.hbm.passes + 2 ^ 32 - 1)) = false
    ∧ base.hbm.live.getLsbD 11 = true
    ∧ (let s := withPlan { base with qps := ⟨[(2, { Qp.reset with st := .error })]⟩ }
        { (default : Plan) with couch := [{ (default : CouchEnt) with qp := 2 }] } 0;
      couchOfQp s 2 = some { (default : CouchEnt) with qp := 2 } ∧ (s.qp 2).st = .error) := by decide

/-- Pomel link 1 as given; link 0 UP. -/
def pomelState (k : PLink) : State := { base with links := ⟨[(0, { PLink.reset with cond := .up }), (1, k)]⟩ }

theorem test_meets_PomelLinksChangeCondition :
    (let s := pomelState PLink.reset;
      taken s 0 (plAddr 1 0) [(63, 13), (11, 10), (7, 6), (3, 1)] 0x1021 = true ∧ bit (0x1021 : Word) 0 = true ∧ (s.link 1).cond = .down)
    ∧ (let s := pomelState { PLink.reset with cond := .up };
      taken s 0 (plAddr 1 0) [(63, 13), (11, 10), (7, 6), (3, 1)] 0x1020 = true ∧ bit (0x1020 : Word) 0 = false
      ∧ taken s 0 (plAddr 1 0x10) [(63, 8)] 1 = true ∧ (s.link 1).cond = .up)
    ∧ (let k := { PLink.reset with cond := .training };
      (pomelState k).running = true ∧ laneGroup (0x00FF : BitVec 16).toNat (boardWidthMax k) = some (1, 0x00FF)
      ∧ k.boardCause = false)
    ∧ bit PLink.reset.cfg 0 = true
    ∧ (let k := { PLink.reset with cond := .retrain, since := 0, width := 1 };
      (pomelState k).now ≤ k.since + 20000 ∧ laneGroup (0xFFFF : BitVec 16).toNat k.width = some (1, 0x00FF))
    ∧ (let k := { PLink.reset with cond := .up, ver := 1 }; k.cond = .up ∧ k.ver ≠ 0) := by decide

/-- Link 0 with an aperture entry that lets it read and write granule 2. -/
def aptState : State :=
  { base with links := ⟨[(0, { PLink.reset with cond := .up, apt := ⟨[(0, 0xE000000100000002)]⟩ })]⟩ }

theorem test_meets_CompanionsReadAndWriteThroughTheAperture :
    (aptState.inService = true ∧ linkCarries aptState 0 = true ∧ apertureWaits aptState = false)
    ∧ (min (7 : BitVec 7).toNat (64 - 6291449 % 64) = 7 ∧ aptPermits aptState 0 .agent false 6291449 7 = true
      ∧ firstBad (correctRange (takeOwned aptState (some 0) (linesOf 6291449 7)) 6291449 7).hbm 6291449 7 = none)
    ∧ aptPermits aptState 0 .agent false 6291456 1 = false ∧ aptPermits aptState 0 .forwarded false 6291449 1 = false
    ∧ (let v := backInvOthers aptState 0 98303;
      aptPermits aptState 0 .agent false (98303 * 64) 64 = true ∧ firstBad aptState.hbm (98303 * 64) 64 = none
      ∧ firstBad (correctRange (takeOwned aptState (some 0) (linesOf (98303 * 64) 64)) (98303 * 64) 64).hbm (98303 * 64) 64 = none
      ∧ firstBad v.hbm (98303 * 64) 64 = none
      ∧ firstBad (correctRange (takeOwned v (some 0) (linesOf (98303 * 64) 64)) (98303 * 64) 64).hbm (98303 * 64) 64 = none)
    ∧ aptPermits aptState 0 .agent true (65536 * 64) 64 = true ∧ aptPermits aptState 0 .agent true (65535 * 64) 64 = false := by
  decide

/-- R277: a read by link 0 takes back a line that link 1 holds for writing, and leaves one that it only shares. -/
theorem test_a_read_takes_back_an_owned_line :
    (let s := { aptState with links := aptState.links.put 1 { PLink.reset with snoop := [(98303, true), (98302, false)] } };
      (takeOwned s (some 0) [98303, 98302]).links.find 1).map (·.snoop) = some [(98302, false)] := by decide

theorem test_meets_WatchesFencesAndCompletions :
    (let s := pomelState { PLink.reset with cond := .up, watches := [(3, 5)] };
      (s.link 1).cond = .up ∧ ((s.link 1).watches.filter (fun w => w.1 == 3)).map (·.2) = [5])
    ∧ (let w := { idleQueue with st := .waiting, reason := .early };
      let s := (queueState w).modSeg 1 0 (fun _ => { (default : Seg) with valid := true, board := true, len := 1 });
      s.queues.find 5 = some w ∧ (headSlot s w).board = true ∧ (∀ c ∈ (s.link (headSlot s w).link).watches, c.2 ≠ 5))
    ∧ arrives base 0 = true
    ∧ (let s := pomelState { PLink.reset with cond := .up, reqs := [⟨0, 64, 64, true⟩, ⟨0, 0, 64, false⟩] };
      (s.link 1).cond = .up ∧ (s.link 1).reqs = [⟨0, 64, 64, true⟩, ⟨0, 0, 64, false⟩]) := by decide

theorem test_meets_RegisterWritesAreServedOrViolate :
    (arrives base 0 = true ∧ serves base 0 0x61004 = true ∧ (0x61004 : Nat) % 8 ≠ 0)
    ∧ (serves base 0 (winAddr 1 4) = false ∧ reservedMap (winAddr 1 4) = false)
    ∧ taken base 0 0x61008 [(15, 8)] 0xFFFFFFFFFFFF00FF = true ∧ taken base 0 0x100 [(63, 4)] 0xF = true
    ∧ taken base 0 0x10200 [] 0xFFFFFFFFFFFFFFFF = true := by decide

/-! ### Instances -/

theorem test_meets_InstancesAreCreatedCalmedResetAndRemoved :
    (let s := ask base .i3c [0x10010, 0x0000000000000101, 0x000000000001000D, 1];
      posted s .i3c 0 0x0010 1 true = true ∧ s.plans.nextCond ≠ .loading ∧ createFail (took s .i3c) .i3c = none)
    ∧ (let s := ask base .i3c [0x10010, 0x0000000000000180]; posted s .i3c 0 0x0010 1 true = true ∧ createFail (took s .i3c) .i3c = some (1, 0, 5))
    ∧ (let s := ask (withInst base .active []) .i3c [0x10011, 1];
      posted s .i3c 0 0x0011 1 true = true ∧ reqFld s .i3c 8 1 = 1 ∧ (s.inst 1).st = .active)
    ∧ (let s := ask base .i3c [0x10011, 0]; posted s .i3c 0 0x0011 1 true = true ∧ reqFld s .i3c 8 1 = 0)
    ∧ (let s := ask (withInst base .calm []) .i3c [0x10012, 1];
      posted s .i3c 0 0x0012 1 true = true ∧ (s.inst 1).st = .calm ∧ (s.inst 1).removing = false)
    ∧ (let s := ask (withInst base .active []) .i3c [0x10013, 1]; posted s .i3c 0 0x0013 1 true = true)
    ∧ (let s := ask (withInst base .active []) (.window 1) [0x10001]; posted s (.window 1) 0 0x0001 1 false = true)
    ∧ ((base.inst 127).st ≠ .calming)
    ∧ (let s := { withInst base .resetting [] with mtr := { base.mtr with running := false } };
      (s.inst 1).st = .resetting ∧ s.mtr.running = false ∧ (∀ c ∈ (s.inst 1).res, c.kind ≠ 0x06)) := by decide

theorem test_meets_InstanceDrainAndZeroing :
    (let s := withInst base .calming []; let v := meetTick (s.arriveAt (s.inst 1).calmAt);
      (s.inst 1).st = .calming ∧ (v.inst 1).st = .calming ∧ instQueues v 1 = [] ∧ instQps v 1 = [])
    ∧ (let s := { withInst base .resetting [⟨0x06, 0, 1, 0, 4, 2, 0⟩] with mem := [(8388608, 7)] };
      (s.inst 1).st = .resetting ∧ readByte s.mem 8388608 = 7) := by decide

/-! ### Power, faults and recovery -/

theorem test_meets_TheCapAndItsCredits :
    (taken base 0 0xA0000 [(63, 10)] 299 = true ∧ fld (299 : Word) 9 0 < 300 ∧ 700 < fld (701 : Word) 9 0
      ∧ fld (301 : Word) 9 0 % 5 ≠ 0 ∧ base.plans.nextCond ≠ .loading)
    ∧ (let s := withPlan base { (default : Plan) with energy := [⟨0, 0, 300001, 0⟩] } 0;
      taken s 0 0xA0000 [(63, 10)] 300 = true ∧ fld (300 : Word) 9 0 * 1000 < reservedMw s.plans.active)
    ∧ (let s := withPlan base { (default : Plan) with energy := [⟨0, 0, 300000, 0⟩] } 0;
      reservedMw s.plans.active ≤ fld (300 : Word) 9 0 * 1000 ∧ reservedMw s.plans.next ≤ fld (300 : Word) 9 0 * 1000)
    ∧ (base.inService = true ∧ base.running = true)
    ∧ (let s := { base with pwr := { base.pwr with estimated := ⟨[(4, 1000)]⟩ } }; s.pwr.estimated.findD 4 0 ≠ 0) := by decide

theorem test_meets_ThrottlingRisesDefersAndReleases :
    (let u := noteTj (base.arriveAt ((base.now / 100000 + 1) * 100000)) 100;
      base.pwr.emerg = false ∧ throttleTj base ≤ (100 : Byte).toNat ∧ averageUw u ≤ base.pwr.cap * 1000000
      ∧ (99 : Byte).toNat < throttleTj base)
    ∧ (let u := noteTj (base.arriveAt ((base.now / 1000000 + 1) * 1000000)) 96;
      averageUw u * 100 ≤ base.pwr.cap * 1000000 * 95 ∧ (96 : Byte).toNat + 3 < throttleTj base)
    ∧ (let s := { base with pwr := { base.pwr with units := ⟨[(4, { (default : Throttle) with deferredAt := some 1600 })]⟩ } };
      s.running = true ∧ (s.pwr.units.findD 4 default).deferredAt = some 1600
      ∧ ∀ j, j < 5 → j ≠ 4 → (s.pwr.units.findD j default).deferredAt = none)
    ∧ 105 ≤ (105 : Byte).toNat := by decide

theorem test_meets_FaultsAreLoggedInOrder :
    base.flt.raised = []
    ∧ (let e : FaultEntry := ⟨1600, 4, 0, 3, 0xFF, false, false, 3, 0⟩; let s := { base with flt := { base.flt with raised := [e] } };
      s.flt.raised = [e] ∧ s.flt.pending = false ∧ dmod 32 s.flt.nextSeq s.flt.oldest ≠ 65536)
    ∧ (let e : FaultEntry := ⟨1600, 4, 0, 3, 0xFF, false, false, 3, 0⟩;
      let s := { base with flt := { base.flt with raised := [e], nextSeq := 65535, oldest := 0xFFFFFFFF } };
      dmod 32 s.flt.nextSeq s.flt.oldest = 65536)
    ∧ (taken base 0 0xB0008 [(31, 10)] 0x300 = true ∧ base.running = true) := by decide

/-- A plan with one alternate 7, and its record. -/
def altState (r : Alt) : State :=
  withPlan { base with flt := { base.flt with alts := ⟨[(7, r)]⟩ } }
    { (default : Plan) with alts := [⟨7, 0, 0, 0, []⟩] } 0

/-- Region 8 being restored, its generation read or a READ of it ended badly. -/
def restoreState (k : Restore) : State :=
  { slotState .loaded { (default : Plan) with couch := [{ (default : CouchEnt) with region := 8 }] } 0 with
    flt := { base.flt with restoring := ⟨[(8, k)]⟩ } }

theorem test_meets_AlternatesAndRestores :
    (base.inService = true)
    ∧ (let r := { (default : Alt) with cond := .pending, e := 5000, sends := 2 };
      (altState r).flt.alts.find 7 = some r ∧ r.sends < 3 ∧ nextDecision (altState r) = some 5000
      ∧ (altState r).plans.nextCond ≠ .armed)
    ∧ (let s := { altState { (default : Alt) with cond := .pending, e := 5000 } with plans :=
        { (altState { (default : Alt) with cond := .pending, e := 5000 }).plans with nextCond := .armed, front := 5376 } };
      max s.now (tickStart 5000) < tickStart s.plans.front)
    ∧ (let k : Restore := ⟨2, 0, some ⟨6, 0, 0⟩, leBytes 9 1⟩; let s := restoreState k;
      s.flt.restoring.find 8 = some k ∧ restoreEnt s 8 = some { (default : CouchEnt) with region := 8 } ∧ k.phase = 2
      ∧ k.open_ = 0 ∧ k.bad = some ⟨6, 0, 0⟩)
    ∧ (let k : Restore := ⟨2, 0, none, leBytes 9 1⟩; k.bad = none ∧ leAt k.record 0 8 ≠ 0) := by decide

/-! ### Boot, trust and the island -/

/-- A boot that waits for the flash, or has passed its checks. -/
def bootState (b : Boot) : State := { base with boot := { b with phase := .boot } }

theorem test_meets_ResetInputsAndRails :
    9999 < 10000
    ∧ (State.reset.pins.porstLow = true ∧ State.reset.boot.haltFuse = false ∧ State.reset.pins.wrstLow = false
      ∧ State.reset.pins.refclkLost = false)
    ∧ ({ State.reset.boot with haltFuse := true } : Boot).haltFuse = true
    ∧ (base.inService = true ∧ base.boot.phase ≠ .off ∧ base.pins.porstLow = false ∧ base.pins.wrstLow = false
      ∧ base.pins.refclkLost = false)
    ∧ (let s := { bootState Boot.reset with pins := { base.pins with wrstLow := true } };
      s.pins.wrstLow = true ∧ s.pins.porstLow = false ∧ s.pins.refclkLost = false ∧ s.boot.phase = .boot)
    ∧ (let s := { bootState Boot.reset with pins := { base.pins with refclkLost := true } };
      s.pins.refclkLost = true ∧ s.pins.wrstLow = false ∧ s.boot.phase = .boot)
    ∧ (base.pins.porstLow = false ∧ scanDrive base .faultN = none) := by decide

/-- A firmware image of an empty body, SVN 128, version 3 (R342). -/
def firmware : List Byte :=
  [0x5A, 0x4E, 0x46, 0x57] ++ leBytes 2 1 ++ leBytes 2 512 ++ leBytes 4 0x9768 ++ leBytes 4 128 ++ leBytes 8 3 ++ leBytes 8 0
    ++ beBytes 32 0x1AB21D8355CFA17F8E61194831E81A8F22BEC8C728FEFB747ED035EB5082AA2B ++ leBytes 448 0

/-- R6: SM3 of no bytes and of "abc", and the CRC-32C of "123456789", as the standards' own examples give them. -/
theorem test_sm3_empty : sm3 [] = 0x1AB21D8355CFA17F8E61194831E81A8F22BEC8C728FEFB747ED035EB5082AA2B := by decide +kernel
theorem test_sm3_abc :
    sm3 [0x61, 0x62, 0x63] = 0x66C7F0F462EEEDD9D1F2D46BDC10E4E24167C4875CF2F7A2297DA02B8F4BA8E0 := by decide +kernel
theorem test_crc32c : crc32c [0x31, 0x32, 0x33, 0x34, 0x35, 0x36, 0x37, 0x38, 0x39] = 0xE3069283 := by decide +kernel

/-- The keys and signatures are open constants of the model, so no image can be shown to pass without them: where they
agree, this one passes every check of R344. -/
theorem test_firmware_passes_when_its_signatures_do (s : State) (h0 : s.boot.fuseSvn ≤ 128) (h1 : s.boot.keyRevoke = 0)
    (h2 : sm3 (slice firmware 0x40 64) = Config.rootHash)
    (h3 : Config.sm2Verify (slice firmware 0x40 64) (slice firmware 0x80 0x48) (slice firmware 0xC8 64) = true)
    (h4 : Config.sm2Verify (slice firmware 0x88 64) (slice firmware 0 0x1C0) (slice firmware 0x1C0 64) = true) :
    verifyFail s firmware = none := by
  have hs : imageSvn firmware = 128 := by decide
  have hb : sm3 (slice firmware 512 (bodyLength firmware)) = 0x1AB21D8355CFA17F8E61194831E81A8F22BEC8C728FEFB747ED035EB5082AA2B := by
    rw [show slice firmware 512 (bodyLength firmware) = [] from by decide +kernel]; exact test_sm3_empty
  rw [verifyFail, if_neg (by decide +kernel), if_neg (by rw [h2]; simp), if_neg (by rw [h1]; decide +kernel),
    if_neg (by rw [h3]; decide), if_neg (by rw [h4]; decide), if_neg (by rw [hs]; omega), if_neg (by rw [hb]; decide +kernel)]

theorem test_meets_BootsReadTheFlashAndFinish :
    (let s := bootState { Boot.reset with waitFlash := 1 }; s.boot.phase = .boot ∧ s.boot.waitFlash ≠ 0 ∧ bootHeld s = false
      ∧ verifyFail s [0x5A] = some 1)
    ∧ (let s := bootState { Boot.reset with verified := true }; s.boot.verified = true ∧ bootHeld s = false ∧ s.boot.warm = false)
    ∧ (bootState { Boot.reset with verified := true, warm := true }).boot.warm = true := by decide

theorem test_meets_FirmwareIsStagedAndWritten :
    (let s := ask base .i3c [0x10060, 1, 64, 512];
      posted s .i3c 0 0x0060 1 true = true ∧ reqFld s .i3c 8 1 = 1 ∧ s.boot.stage = .none ∧ reqFld s .i3c 0x10 8 % 64 = 0
      ∧ reqFld s .i3c 0x10 8 + reqFld s .i3c 0x18 8 ≤ hbmAvail s.hbm * 2097152 ∧ reqFld s .i3c 0x18 8 ≤ 33554432
      ∧ firstBad (correctRange (takeOwned (took s .i3c) none (linesOf 64 512)) 64 512).hbm 64 512 = none
      ∧ 512 = 512 + bodyLength (readBytes s.mem 64 512))
    ∧ (let s := ask base .i3c [0x10060, 1, 32, 512]; reqFld s .i3c 0x10 8 % 64 ≠ 0)
    ∧ (let s := ask { base with boot := { base.boot with stage := .staged } } .i3c [0x10060, 2];
      posted s .i3c 0 0x0060 1 true = true ∧ reqFld s .i3c 8 1 = 2 ∧ s.boot.stage = .staged)
    ∧ (let s := ask base .i3c [0x10060, 2]; reqFld s .i3c 8 1 = 2 ∧ s.boot.stage ≠ .staged)
    ∧ (let s := ask { base with boot := { base.boot with stage := .staged } } .i3c [0x10060, 3]; reqFld s .i3c 8 1 = 3)
    ∧ (let s := ask { base with boot := { base.boot with fuseSvn := 127, runningSvn := 128, flashSvn := 128 } } .i3c
        [0x10060, 4, 128];
      reqFld s .i3c 8 1 = 4 ∧ reqFld s .i3c 0x10 4 = 128 ∧ s.boot.stage ≠ .staged ∧ s.boot.stage ≠ .writing
      ∧ s.boot.fuseSvn < 128 ∧ 128 ≤ s.boot.runningSvn ∧ 128 ≤ s.boot.flashSvn)
    ∧ (let s := ask { base with boot := { base.boot with fuseSvn := 128 } } .i3c [0x10060, 4, 128];
      reqFld s .i3c 0x10 4 ≤ s.boot.fuseSvn)
    ∧ (let s := { base with boot := { base.boot with stage := .writing } }; s.boot.stage = .writing ∧ s.inService = true)
    ∧ posted (ask base .i3c [0x10061]) .i3c 0 0x0061 1 true = true := by decide

/-- Instance 0 with segment 0 behind link 0, writable, and a request for a report at an address in it. -/
def reportState (ws : List Word) : State :=
  ask (base.modSeg 0 0 (fun _ => { (default : Seg) with valid := true, board := true, len := 1, lw := true })) .i3c ws

theorem test_meets_IdentityAndAttestationAreReported :
    (∃ x w, let s := reportState [0x10062, 2088960]; posted s .i3c 0 0x0062 1 false = true
      ∧ reportRange (took s .i3c) .i3c (reqWord s .i3c 1) 8192 = some x
      ∧ xlatWrite (took s .i3c) x 0 ((Config.idCert ++ Config.caCert ++ akCert (took s .i3c)).take 8192) = (w, .done))
    ∧ reportRange (took (reportState [0x10062, 32]) .i3c) .i3c 32 8192 = none
    ∧ (∃ x w, let s := reportState [0x10063, 1, 2, 3, 4, 2096896]; posted s .i3c 0 0x0063 1 false = true
      ∧ reportRange (took s .i3c) .i3c (reqWord s .i3c 5) 256 = some x
      ∧ xlatWrite (took s .i3c) x 0 (attestation (took s .i3c) (slice (reqBytes s .i3c) 8 32)) = (w, .done))
    ∧ (i3cAnswers base = true ∧ base.pins.i3cDyn = none
      ∧ ({ base.pins with i3cDyn := some 8 } : Pins).i3cDyn ≠ none)
    ∧ (base.inService = true ∧ base.pins.porstLow = false ∧ (63 : Byte).toNat ≤ 63 ∧ (base.door 128).busy = false
      ∧ posted (ask base .i3c [0x10001]) .i3c 0 0x0001 1 false = true ∧ (7 : Byte).toNat ≤ 7) :=
  ⟨⟨_, _, by decide, rfl, rfl⟩, by decide, ⟨_, _, by decide, rfl, rfl⟩, by decide, by decide⟩

theorem test_meets_TheIslandCountsAndRecords :
    ({ base.mtr with running := false } : Island).running = false ∧ base.mtr.running = true ∧ base.inService = true
    ∧ (let s := { base with mtr := { base.mtr with spots := List.replicate 10 1600 } };
      10 ≤ (s.mtr.spots.filter (fun t => decide (s.now < t + 1000000000))).length)
    ∧ (let s := { base with mtr := { base.mtr with spots := List.replicate 9 1600 } };
      (s.mtr.spots.filter (fun t => decide (s.now < t + 1000000000))).length < 10 ∧ (127 : Byte).toNat < 128) := by decide

/-! ### Test and the machine as a whole -/

theorem test_meets_LoopbacksAndMemoryTests :
    (taken base 0 (0xE0100 + 8 * 15) loopRsvd 4 = true ∧ bit (base.port 15).cfg 1 = false ∧ planUses base 15 = false)
    ∧ (let s := withPlan base smallPlan 0; taken s 0 (0xE0100 + 8 * 3) loopRsvd 5 = true ∧ planUses s 3 = true)
    ∧ (let s := pomelState { PLink.reset with cfg := 0x1020 };
      taken s 0 (0xE0200 + 8 * 1) loopRsvd 3 = true ∧ bit (s.link 1).cfg 0 = false ∧ bit (s.link 0).cfg 0 = true)
    ∧ (taken base 0 0xE0400 [(63, 28), (15, 8)] 0x0FFF0001 = true ∧ fld (0x0FFF0001 : Word) 7 0 = 1
      ∧ taken base 0 0xE0400 [(63, 28), (15, 8)] 0x0FFF0002 = true ∧ fld (0x0FFF0002 : Word) 7 0 = 2)
    ∧ ({ base.tst with memRunning := some (1, 0xFFF) } : Test).memRunning = some (1, 0xFFF)
    ∧ (let s := { base with tst := { base.tst with memRunning := some (2, 0x800) } };
      s.tst.memRunning = some (2, 0x800) ∧ testedAddr s 0x800 (fld s.tst.inject 39 0) = false)
    ∧ (taken base 0 0xE0410 [(61, 40)] 0x4000000000000008 = true ∧ fld (0x4000000000000008 : Word) 2 0 = 0
      ∧ fld (0x4000000000000008 : Word) 39 0 < hbmAvail base.hbm * 2097152
      ∧ hbmAvail base.hbm * 2097152 ≤ fld (0x400000FFFFFFFFF8 : Word) 39 0
      ∧ taken base 0 0xE0410 [(61, 40)] 0x400000FFFFFFFFF8 = true) := by decide

theorem test_meets_BoundaryScanInstructionsLoad :
    (base.boot.phase ≠ .off ∧ base.pins.porstLow = false) ∧ State.reset.boot.phase = .off := by decide

/-- A command waits at the front. -/
def waiting : State := { base with pending := [Instr.bypass] }

theorem test_meets_AStepRunsTheCommandAtTheFront : waiting.pending = Instr.bypass :: [] := rfl

theorem test_meets_AnEmptyQueueIsATickOfTheClock :
    (base.pending = [] ∧ base.boot.phase ≠ .off ∧ base.queues.keys = [] ∧ base.sync.waits = [] ∧ base.coll.slots.keys = []
      ∧ base.now ≤ base.sync.tickAt ∧ quiet base = true)
    ∧ State.reset.pending = [] ∧ State.reset.boot.phase = .off := by decide

/-- A canonical state with a step, for this statement and, without the memory, for NoStepClearsAFuse and
CommandsAreTakenFirstInFirstOut. -/
theorem test_meets_EveryStepKeepsMemoryCanonical : MemInv waiting ∧ ∃ t, step waiting = .next t ∧ t.pending = [] :=
  ⟨⟨rfl, rfl, rfl, rfl, rfl⟩, _, rfl, rfl⟩

theorem test_meets_HbmWritesReplaceWholeWords :
    (Memory.wf [(7, 1)] = true ∧ (hbmWrite { base with mem := [(7, 1)] } 6 [2, 3, 4]).2 = .done)
    ∧ (base.tst.injArmed = false ∧ 1 ∈ wholeWords 8 8)
    ∧ (let s := { base with hbm := { base.hbm with bad := [1] } }; 1 ∈ wordsOf 8 7 ∧ wordBad s.hbm 1 = true ∧ 1 ∉ wholeWords 8 7) := by
  decide

theorem test_meets_CopyMovesItsBytes :
    Memory.wf base.mem = true ∧ (hbm16 0).board = false ∧ (hbm16 0).len = (hbm16 16).len ∧ sameMemory (hbm16 0) (hbm16 16) = false
    ∧ firstBad base.hbm (hbm16 0).addr 16 = none ∧ firstBad base.hbm (hbm16 16).addr 16 = none := by decide

theorem test_meets_SettlingAQuietDevice : quiet base = true ∧ base.flt.raised.isEmpty = true := by decide

/-- A frame on VC3 that survives a dateline and three hops without one. -/
theorem test_meets_NextVcCrossesAtMostOneDateline :
    [false, true, false, false].foldlM nextVc 3 = some 4 ∧ [false, false].foldlM nextVc 6 = some 6
    ∧ [true, true].foldlM nextVc 1 = none := by decide

theorem test_meets_SheetKindsAdmitTheirChannels :
    sheetKind (0x00000040 : BitVec 32) = 0 ∧ sheetKind (0x00400040 : BitVec 32) = 1 ∧ sheetKind (0x00800040 : BitVec 32) = 2 := by
  decide

/-- R13: an event due at 1,601 ns comes in the tick that starts at 1,616. -/
theorem test_tick_rounding : tickStart 1600 = 1600 ∧ tickStart 1601 = 1616 := by decide

/-- R377: IDCODE. -/
theorem test_idcode : ∃ t, exec .idcode base = .next t ∧ t.out = [.jtag 0x1976834B] := ⟨_, rfl, rfl⟩

/-- R90, R117: a target 50 microseconds past the issue is a lull at once, one a nanosecond nearer is not. -/
theorem test_lull_threshold : lullNs base = 50000 := by decide

/-- R320: at 105 degrees every unit goes to level 8; R318: the temperature alone asks for one level. -/
theorem test_thermal_override : ∃ t, exec (.thermalOverride 105) base = .next t ∧ levelOf t 4 = 8 ∧ t.pwr.emerg = true :=
  ⟨_, rfl, by decide, by decide⟩

/-- R105: 2^32 - 1 can be reached, not passed. -/
theorem test_semaphore_edge :
    (let s := { runState (ent 0x12 16384 0 0xFFFFFFFE 0) [] with sync := { base.sync with values := ⟨[(16384, 1)]⟩ } };
      ∃ t, exec (.semAdd 5) s = .next t ∧ objVal t 16384 = 0xFFFFFFFF) := ⟨_, rfl, by decide⟩

/-- R102: a counter wraps modulo 2^64. -/
theorem test_counter_wraps :
    (let s := { runState (ent 0x10 16384 0 3 0) [] with sync := { base.sync with values := ⟨[(16384, 0xFFFFFFFFFFFFFFFE)]⟩ } };
      ∃ t, exec (.signal 5) s = .next t ∧ objVal t 16384 = 1) := ⟨_, rfl, by decide⟩

/-- R296, R308: a companion outside MGR_LINKS is refused, and counted. -/
theorem test_refused_is_counted :
    (let s := { base with ctrl := { base.ctrl with mgrLinks := 14 } };
      ∃ t, exec (.timeEpochWrite 0 7) s = .next t ∧ t.time.epoch = 0 ∧ t.ctrl.refused.find 0 = some 1) :=
  ⟨_, rfl, by decide, by decide⟩

/-- R167: 7 blocks of 32 in 2 parts are 3 and 4 blocks. -/
theorem test_meets_PartsTileTheirRange :
    0 < 32 ∧ 32 ∣ 224 ∧ partOf 32 0 224 0 2 = (0, 96) ∧ partOf 32 0 224 1 2 = (96, 128) := by decide

theorem test_meets_OnlyManagerLinksReachTheDevice :
    (let s := { base with ctrl := { base.ctrl with mgrLinks := 14 } };
      arrives s 0 = true ∧ s.ctrl.mgrLinks.testBit (0 : BitVec 2).toNat = false) := by decide

theorem test_meets_MailboxDoorsRefuseAndAnswer :
    (let s := ask (withInst base .active []) (.window 1) [0x10061];
      arrives s 0 = true ∧ serves s 0 (winAddr 1 0x7240) = true ∧ (s.door 1).busy = false ∧ (s.inst 1).st = .active
      ∧ reqCmd s (.window 1) = 0x0061)
    ∧ (let s := (ask (withInst base .active []) (.window 1) [0x10040]).modDoor 1 (fun x => { x with busy := true });
      serves s 0 (winAddr 1 0x7240) = true ∧ (s.door 1).busy = true ∧ reqCmd s (.window 1) = 0x0040)
    ∧ (let s := ask (withInst base .calm []) (.window 1) [0x10040];
      serves s 0 (winAddr 1 0x7240) = true ∧ (s.door 1).busy = false ∧ (s.inst 1).st ≠ .active) := by decide

end Sys2Proof.Tests
end

section
/-! ## Steps

What every step keeps, said once for the dispatcher and for the clock, and what a step without a command does. -/

namespace Sys2Proof.Machine

theorem step_eq_exec {s : State} {c : Instr} {rest : List Instr} (h : s.pending = c :: rest) :
    step s = exec c { s with pending := rest } := by
  simp [step, h]

theorem step_eq_clockTick {s : State} (h : s.pending = []) : step s = .next (clockTick s) := by
  simp [step, h]

/-- No command touches the waiting commands, and each keeps memory canonical and the fuses blown. -/
theorem exec_stays {i : Instr} {s t : State} (h : exec i s = .next t) : Stays s t := by
  cases i with
  | timeEpochWrite => exact execTimeEpochWrite_stays h
  | timeCtrlWrite => exact execTimeCtrlWrite_stays h
  | ptpSyncReceived => exact execPtpSyncReceived_stays h
  | announceReceived => exact execAnnounceReceived_stays h
  | syncIntervalExpiry => exact execSyncIntervalExpiry_stays h
  | holdoverLimitExceeded => exact execHoldoverLimitExceeded_stays h
  | timePpsInEdge => exact execTimePpsInEdge_stays h
  | timeTod => exact execTimeTod_stays h
  | ppsOutPulse => exact execPpsOutPulse_stays h
  | ppsOutPulseEnd => exact execPpsOutPulseEnd_stays h
  | isobarArm => exact execIsobarArm_stays h
  | isobarLatch => exact execIsobarLatch_stays h
  | sheetStart => exact execSheetStart_stays h
  | egressFrameStart => exact execEgressFrameStart_stays h
  | planLoad => exact execPlanLoad_stays h
  | planLoadComplete => exact execPlanLoadComplete_stays h
  | planArm => exact execPlanArm_stays h
  | planCancel => exact execPlanCancel_stays h
  | planUnload => exact execPlanUnload_stays h
  | planFront => exact execPlanFront_stays h
  | rejoinPoint => exact execRejoinPoint_stays h
  | planDrainBound => exact execPlanDrainBound_stays h
  | wqDoorbell => exact execWqDoorbell_stays h
  | entryStart => exact execEntryStart_stays h
  | entryComplete => exact execEntryComplete_stays h
  | cqDoorbell => exact execCqDoorbell_stays h
  | wqCreate => exact execWqCreate_stays h
  | cqCreate => exact execCqCreate_stays h
  | nop => exact execNop_stays h
  | fence => exact execFence_stays h
  | write => exact execWrite_stays h
  | read => exact execRead_stays h
  | copy => exact execCopy_stays h
  | copyComplete => exact execCopyComplete_stays h
  | signal => exact execSignal_stays h
  | waitCounter => exact execWaitCounter_stays h
  | semAdd => exact execSemAdd_stays h
  | semWait => exact execSemWait_stays h
  | waitQueue => exact execWaitQueue_stays h
  | timeWait => exact execTimeWait_stays h
  | timeWaitReached => exact execTimeWaitReached_stays h
  | waitDeadline => exact execWaitDeadline_stays h
  | hostSignal => exact execHostSignal_stays h
  | collStep => exact execCollStep_stays h
  | couchCopy => exact execCouchCopy_stays h
  | rawSend => exact execRawSend_stays h
  | syncInit => exact execSyncInit_stays h
  | syncGshareWrite => exact execSyncGshareWrite_stays h
  | syncDoorbell => exact execSyncDoorbell_stays h
  | syncReclaim => exact execSyncReclaim_stays h
  | syncMemoryUe => exact execSyncMemoryUe_stays h
  | lullBegin => exact execLullBegin_stays h
  | ztpPacketSend => exact execZtpPacketSend_stays h
  | writePacket => exact execWritePacket_stays h
  | readReq => exact execReadReq_stays h
  | syncReq => exact execSyncReq_stays h
  | ack => exact execAck_stays h
  | nak => exact execNak_stays h
  | readResp => exact execReadResp_stays h
  | syncDone => exact execSyncDone_stays h
  | cnp => exact execCnp_stays h
  | ackDelayExpiry => exact execAckDelayExpiry_stays h
  | retryTimerExpiry => exact execRetryTimerExpiry_stays h
  | probeTimerExpiry => exact execProbeTimerExpiry_stays h
  | busyBackoffEnd => exact execBusyBackoffEnd_stays h
  | ratePeriod => exact execRatePeriod_stays h
  | contextFetchComplete => exact execContextFetchComplete_stays h
  | qpOpen => exact execQpOpen_stays h
  | qpClose => exact execQpClose_stays h
  | connReq => exact execConnReq_stays h
  | connRep => exact execConnRep_stays h
  | connRtu => exact execConnRtu_stays h
  | discReq => exact execDiscReq_stays h
  | discRep => exact execDiscRep_stays h
  | connReqTimer => exact execConnReqTimer_stays h
  | setupTimeout => exact execSetupTimeout_stays h
  | discReqTimer => exact execDiscReqTimer_stays h
  | qpDrainBound => exact execQpDrainBound_stays h
  | cspData => exact execCspData_stays h
  | cspAck => exact execCspAck_stays h
  | pieceSend => exact execPieceSend_stays h
  | pieceConsume => exact execPieceConsume_stays h
  | pieceResendTimer => exact execPieceResendTimer_stays h
  | stepLimitExpiry => exact execStepLimitExpiry_stays h
  | collStepComplete => exact execCollStepComplete_stays h
  | fabricFrameReceived => exact execFabricFrameReceived_stays h
  | hello => exact execHello_stays h
  | helloTimer => exact execHelloTimer_stays h
  | linkAck => exact execLinkAck_stays h
  | linkNak => exact execLinkNak_stays h
  | credit => exact execCredit_stays h
  | replayTimeout => exact execReplayTimeout_stays h
  | pcsAlignmentLoss => exact execPcsAlignmentLoss_stays h
  | retrainMaxExpiry => exact execRetrainMaxExpiry_stays h
  | fabricRetrainTimer => exact execFabricRetrainTimer_stays h
  | fllCfgWrite => exact execFllCfgWrite_stays h
  | fabNodeWrite => exact execFabNodeWrite_stays h
  | vc0HoldExpiry => exact execVc0HoldExpiry_stays h
  | routeCopy => exact execRouteCopy_stays h
  | routeDiscard => exact execRouteDiscard_stays h
  | routeTblDataWrite => exact execRouteTblDataWrite_stays h
  | routeTblDataRead => exact execRouteTblDataRead_stays h
  | tableFrontWrite => exact execTableFrontWrite_stays h
  | tableFront => exact execTableFront_stays h
  | bankDrainBound => exact execBankDrainBound_stays h
  | ethFrameReceived => exact execEthFrameReceived_stays h
  | pfcRefresh => exact execPfcRefresh_stays h
  | pauseFrame => exact execPauseFrame_stays h
  | pauseExpiry => exact execPauseExpiry_stays h
  | ethFrameStart => exact execEthFrameStart_stays h
  | gateEntry => exact execGateEntry_stays h
  | subportLinkUp => exact execSubportLinkUp_stays h
  | subportLinkDown => exact execSubportLinkDown_stays h
  | segSet => exact execSegSet_stays h
  | segClear => exact execSegClear_stays h
  | patrolScrub => exact execPatrolScrub_stays h
  | channelRetrain => exact execChannelRetrain_stays h
  | couchReopen => exact execCouchReopen_stays h
  | plCfgWrite => exact execPlCfgWrite_stays h
  | forceDown => exact execForceDown_stays h
  | plTrainingComplete => exact execPlTrainingComplete_stays h
  | plTrainingTimeout => exact execPlTrainingTimeout_stays h
  | plRetrainTimer => exact execPlRetrainTimer_stays h
  | plAlignmentLoss => exact execPlAlignmentLoss_stays h
  | plRealigned => exact execPlRealigned_stays h
  | plRetrainTimeout => exact execPlRetrainTimeout_stays h
  | resetNotice => exact execResetNotice_stays h
  | rdShr => exact execRdShr_stays h
  | rdOwn => exact execRdOwn_stays h
  | rdNc => exact execRdNc_stays h
  | wrLine => exact execWrLine_stays h
  | wrPart => exact execWrPart_stays h
  | snpInv => exact execSnpInv_stays h
  | watchPoll => exact execWatchPoll_stays h
  | pomelFence => exact execPomelFence_stays h
  | cmp => exact execCmp_stays h
  | registerWrite => exact execRegisterWrite_stays h
  | mbxInfo => exact execMbxInfo_stays h
  | instCreate => exact execInstCreate_stays h
  | instCalm => exact execInstCalm_stays h
  | instReset => exact execInstReset_stays h
  | instRemove => exact execInstRemove_stays h
  | instDrainBound => exact execInstDrainBound_stays h
  | instZeroingComplete => exact execInstZeroingComplete_stays h
  | pwrCapWrite => exact execPwrCapWrite_stays h
  | creditPeriod => exact execCreditPeriod_stays h
  | coefficientUpdate => exact execCoefficientUpdate_stays h
  | throttleRequest => exact execThrottleRequest_stays h
  | throttleRelease => exact execThrottleRelease_stays h
  | deferExpiry => exact execDeferExpiry_stays h
  | thermalOverride => exact execThermalOverride_stays h
  | emergClear => exact execEmergClear_stays h
  | faultLogAppend => exact execFaultLogAppend_stays h
  | coreAckWrite => exact execCoreAckWrite_stays h
  | altNotice => exact execAltNotice_stays h
  | noticeRepeat => exact execNoticeRepeat_stays h
  | decisionPoint => exact execDecisionPoint_stays h
  | restoreComplete => exact execRestoreComplete_stays h
  | coreWatchdogExpiry => exact execCoreWatchdogExpiry_stays h
  | porstNRelease => exact execPorstNRelease_stays h
  | porstNAssert => exact execPorstNAssert_stays h
  | flashRetry => exact execFlashRetry_stays h
  | bootComplete => exact execBootComplete_stays h
  | wrstNAssert => exact execWrstNAssert_stays h
  | wrstNRelease => exact execWrstNRelease_stays h
  | railLoss => exact execRailLoss_stays h
  | refclkSysLoss => exact execRefclkSysLoss_stays h
  | refclkSysRecovery => exact execRefclkSysRecovery_stays h
  | thermalTrip => exact execThermalTrip_stays h
  | fwStageLoad => exact execFwStageLoad_stays h
  | fwStageCommit => exact execFwStageCommit_stays h
  | fwStageAbort => exact execFwStageAbort_stays h
  | fwStageAdvance => exact execFwStageAdvance_stays h
  | flashWriteComplete => exact execFlashWriteComplete_stays h
  | fwQuery => exact execFwQuery_stays h
  | identity => exact execIdentity_stays h
  | attest => exact execAttest_stays h
  | i3cIdentity => exact execI3cIdentity_stays h
  | i3cMbxWr => exact execI3cMbxWr_stays h
  | i3cMbxGo => exact execI3cMbxGo_stays h
  | i3cMbxRd => exact execI3cMbxRd_stays h
  | i3cMbxStat => exact execI3cMbxStat_stays h
  | setdasa => exact execSetdasa_stays h
  | entdaa => exact execEntdaa_stays h
  | rstdaa => exact execRstdaa_stays h
  | getpid => exact execGetpid_stays h
  | getbcr => exact execGetbcr_stays h
  | getdcr => exact execGetdcr_stays h
  | mtrVddRise => exact execMtrVddRise_stays h
  | meterPeriodClose => exact execMeterPeriodClose_stays h
  | meterRingFlush => exact execMeterRingFlush_stays h
  | mtrIdentity => exact execMtrIdentity_stays h
  | cert => exact execCert_stays h
  | lastSeq => exact execLastSeq_stays h
  | record => exact execRecord_stays h
  | spot => exact execSpot_stays h
  | tstLoopWrite => exact execTstLoopWrite_stays h
  | tstPlLoopWrite => exact execTstPlLoopWrite_stays h
  | phyLoop => exact execPhyLoop_stays h
  | selfTest => exact execSelfTest_stays h
  | memTestComplete => exact execMemTestComplete_stays h
  | tstInjectWrite => exact execTstInjectWrite_stays h
  | bypass => exact execBypass_stays h
  | idcode => exact execIdcode_stays h
  | samplePreload => exact execSamplePreload_stays h
  | extest => exact execExtest_stays h
  | extestPulse => exact execExtestPulse_stays h
  | extestTrain => exact execExtestTrain_stays h
  | clamp => exact execClamp_stays h
  | highz => exact execHighz_stays h
  | stackStopsAnswering => exact execStackStopsAnswering_stays h
  | mtrVddFall => exact execMtrVddFall_stays h
  | ptpSyncSend => exact execPtpSyncSend_stays h
  | announceSend => exact execAnnounceSend_stays h
  | pdelayReq => exact execPdelayReq_stays h
  | delayReq => exact execDelayReq_stays h

/-- Every arm of the dispatcher answers with a next state. -/
theorem exec_goes (i : Instr) (s : State) : ∃ t, exec i s = .next t := by
  cases i <;> exact ⟨_, rfl⟩

/-- A step takes the front of the queue, and what it then runs keeps the rest. -/
theorem step_stays {s t : State} (h : step s = .next t) : Stays { s with pending := s.pending.tail } t := by
  match hq : s.pending with
  | [] =>
    rw [step_eq_clockTick hq] at h
    obtain rfl : clockTick s = t := Host.Outcome.next.inj h
    have hs : ({ s with pending := [] } : State) = s := by rw [← hq]
    rw [List.tail_nil, hs]
    exact clockTick_stays (Stays.refl s)
  | c :: rest =>
    rw [step_eq_exec hq] at h
    exact exec_stays h

/-- Settles O50: whatever a step runs leaves the queue's rest as it is. -/
theorem commandsAreTakenFirstInFirstOut : Obligations.CommandsAreTakenFirstInFirstOut :=
  fun _ _ h => (step_stays h).queue

/-- Settles O51: a tick has a next state, and so has every command. -/
theorem everyStepGoesOn : Obligations.EveryStepGoesOn := by
  intro s
  match hq : s.pending with
  | [] => exact ⟨_, step_eq_clockTick hq⟩
  | c :: rest =>
    obtain ⟨t, ht⟩ := exec_goes c { s with pending := rest }
    exact ⟨t, (step_eq_exec hq).trans ht⟩

/-- Settles O45: it is how a step is defined where a command waits. -/
theorem aStepRunsTheCommandAtTheFront : Obligations.AStepRunsTheCommandAtTheFront :=
  fun _ _ _ h => step_eq_exec h

/-! ### Settling with nothing to settle -/

theorem Tbl.mem_vals_of_find {α : Type} {t : Tbl α} {k : Nat} {v : α} (h : t.find k = some v) : v ∈ t.vals := by
  obtain ⟨l⟩ := t
  simp only [Tbl.find, Tbl.vals] at h ⊢
  induction l with
  | nil => cases h
  | cons c rest ih =>
    obtain ⟨j, w⟩ := c
    simp only [Tbl.lookup] at h
    split at h
    · simp_all
    · exact List.mem_cons_of_mem _ (ih h)

theorem forEach_eq_self {α : Type} {f : State → α → State} {s : State} {xs : List α}
    (h : ∀ x ∈ xs, f s x = s) : forEach xs s f = s := by
  induction xs with
  | nil => rfl
  | cons x xs ih =>
    rw [forEach, List.foldl_cons, h x List.mem_cons_self]
    exact ih (fun y hy => h y (List.mem_cons_of_mem _ hy))

/-- What every step of a list relates, the whole list relates. -/
theorem forEach_rel {α : Type} {R : State → State → Prop} (refl : ∀ s, R s s)
    (trans : ∀ {a b c}, R a b → R b c → R a c) {f : State → α → State} (hf : ∀ s x, R s (f s x))
    (xs : List α) (s : State) : R s (forEach xs s f) :=
  forEach_inv (R s) f (fun u x hu => trans hu (hf u x)) xs s (refl s)

theorem forEach_filter_none {α : Type} {p : α → Bool} {f : State → α → State} {s : State} {xs : List α}
    (h : ∀ x ∈ xs, p x = false) : forEach (xs.filter p) s f = s := by
  rw [List.filter_eq_nil_iff.mpr (fun x hx => by simp [h x hx])]
  rfl

theorem driveCouches_of_no_run {s : State} (h : ∀ c ∈ s.couch.vals, c.run = none) : driveCouches s = s := by
  refine forEach_eq_self (fun r _ => ?_)
  have stay : couchStep s r = s := by
    unfold couchStep
    split
    · rfl
    · rename_i c hc
      rw [h c (Tbl.mem_vals_of_find hc)]
  simp only [driveCouch, stay]

theorem driveRestores_of_none {s : State} (h : s.flt.restoring.cells = []) : driveRestores s = s := by
  simp [driveRestores, Tbl.keys, h, forEach]

/-- No head of `s` waits for its line, or for landing space. -/
def noHeadAwaits (s : State) : Prop :=
  ∀ q ∈ s.queues.keys, ∀ w, s.queues.find q = some w → awaitsWrite w = false

theorem retryEarly_of_none {s : State} (h : noHeadAwaits s) : retryEarly s = s := by
  refine forEach_filter_none (fun q hq => ?_)
  split
  · rename_i w hw
    have := h q hq w hw
    simp only [awaitsWrite, lineWritten] at this ⊢
    cases hst : w.st == .waiting <;> cases hr : w.reason == .early <;> simp_all
  · rfl

theorem retryHeads_landing_of_none {s : State} (h : noHeadAwaits s) : retryHeads s .landing = s := by
  refine forEach_filter_none (fun q hq => ?_)
  split
  · rename_i w hw
    have := h q hq w hw
    simp only [awaitsWrite] at this
    cases hst : w.st == .waiting <;> simp_all
  · rfl

theorem reachCalms_of_none {s : State} (h : ∀ i ∈ s.insts.keys, (s.inst i).st ≠ .calming) : reachCalms s = s :=
  forEach_filter_none (fun i hi => by simpa using h i hi)

theorem quiet_iff {s : State} : quiet s = true ↔
    (∀ c ∈ s.couch.vals, c.run = none) ∧ s.flt.restoring.cells = []
      ∧ (∀ q ∈ s.qps.keys, (s.qp q).st ≠ .draining) ∧ (∀ i ∈ s.insts.keys, (s.inst i).st ≠ .calming)
      ∧ noHeadAwaits s := by
  simp only [quiet, Bool.and_eq_true, and_assoc]
  refine and_congr (by simp) (and_congr (by simp) (and_congr (by simp) (and_congr (by simp) ?_)))
  simp only [List.all_eq_true, noHeadAwaits]
  refine forall₂_congr (fun q _ => ?_)
  cases s.queues.find q <;> simp

/-- With nothing that a command may end, settling only looks at the causes. -/
theorem settle_of_quiet {s : State} (h : quiet s = true) : settle s = noteCauses s := by
  obtain ⟨hcouch, hrestore, hqp, hinst, hheads⟩ := quiet_iff.mp h
  have hdrain : forEach (s.qps.keys.filter (fun q => (s.qp q).st == .draining)) s drainStep = s :=
    forEach_filter_none (fun q hq => by simpa using hqp q hq)
  simp only [settle, driveCouches_of_no_run hcouch, driveRestores_of_none hrestore, hdrain, retryEarly_of_none hheads,
    retryHeads_landing_of_none hheads, reachCalms_of_none hinst]

/-! ### Ticks with nothing to evaluate -/

theorem catchUp_of_evaluated {s : State} (h : s.now ≤ s.sync.tickAt) : catchUp s = s := by
  simp [catchUp, Nat.not_lt.mpr h]

theorem evaluateTick_of_idle {s : State} (hq : s.queues.keys = []) (hw : s.sync.waits = []) (t : Nat) :
    evaluateTick s t = s := by
  have served : serveAll s = s := by simp [serveAll, hw, forEach]
  simp [evaluateTick, served, hq, hw, forEach]

theorem endTick_of_idle {s : State} (hq : s.queues.keys = []) (hw : s.sync.waits = []) (ht : s.now ≤ s.sync.tickAt) :
    endTick s = freshTick (s.arriveAt (s.now + 16)) (s.arriveAt (s.now + 16)).now := by
  simp only [endTick, catchUp_of_evaluated ht, evaluateTick_of_idle hq hw]

theorem flushAcks_of_no_slot {s : State} (h : s.coll.slots.keys = []) : flushAcks s = s := by
  simp [flushAcks, h, forEach]

/-- Operations that change nothing but the ports. -/
def OnlyPorts (s t : State) : Prop := t = { s with ports := t.ports }

theorem OnlyPorts.refl (s : State) : OnlyPorts s s := rfl

theorem OnlyPorts.trans {a b c : State} (hab : OnlyPorts a b) (hbc : OnlyPorts b c) : OnlyPorts a c := by
  unfold OnlyPorts at hab hbc ⊢
  rw [hbc, hab]

theorem noteStalls_onlyPorts (s : State) (p : Nat) : OnlyPorts s (noteStalls s p) := by
  unfold noteStalls
  refine forEach_rel OnlyPorts.refl OnlyPorts.trans (fun u v => ?_) _ s
  rfl

theorem noteStallsAll_onlyPorts (ps : List Nat) (s : State) : OnlyPorts s (forEach ps s noteStalls) :=
  forEach_rel OnlyPorts.refl OnlyPorts.trans noteStalls_onlyPorts ps s

theorem noteStallsAll_coll (ps : List Nat) (s : State) : (forEach ps s noteStalls).coll = s.coll := by
  rw [noteStallsAll_onlyPorts ps s]

theorem clockTick_of_on {s : State} (h : s.boot.phase ≠ .off) :
    clockTick s = flushAcks (forEach s.ports.keys (settle (endTick s)) noteStalls) := by
  simp [clockTick, h]

theorem clockTick_of_off {s : State} (h : s.boot.phase = .off) : clockTick s = s := by
  simp [clockTick, h]

/-- A tick of a device on which no queue, wait, slot or other work stands. -/
theorem clockTick_of_idle {s : State} (hon : s.boot.phase ≠ .off) (hq : s.queues.keys = []) (hw : s.sync.waits = [])
    (hslot : s.coll.slots.keys = []) (ht : s.now ≤ s.sync.tickAt) (hquiet : quiet s = true) :
    clockTick s = forEach s.ports.keys
      (noteCauses (freshTick (s.arriveAt (s.now + 16)) (s.arriveAt (s.now + 16)).now)) noteStalls := by
  have settled := settle_of_quiet (s := freshTick (s.arriveAt (s.now + 16)) (s.arriveAt (s.now + 16)).now) hquiet
  rw [clockTick_of_on hon, endTick_of_idle hq hw ht, settled]
  refine flushAcks_of_no_slot ?_
  rw [noteStallsAll_coll]
  exact hslot

/-- Settles O46: with nothing to evaluate and nothing to settle, what is left of a tick is the clock, the look at the
causes and the stalls. -/
theorem anEmptyQueueIsATickOfTheClock : Obligations.AnEmptyQueueIsATickOfTheClock := by
  intro s hp
  rw [step_eq_clockTick hp]
  refine ⟨fun hon => ?_, fun u hon hq hw hslot ht hquiet hu => ⟨?_, ?_⟩, fun hoff => ?_⟩
  · rw [clockTick_of_on hon]
  · rw [hu]
    rfl
  · rw [clockTick_of_idle hon hq hw hslot ht hquiet, hu]
    rfl
  · rw [clockTick_of_off hoff]

end Sys2Proof.Machine
end

section
/-! ## The state at reset, and what a sheet admits -/

namespace Sys2Proof.Machine

theorem reset_memInv : MemInv State.reset := ⟨rfl, rfl, rfl, rfl, rfl⟩

theorem reset_bankOf (b : Bool) : bankOf State.reset.routing b = Bank.reset := by
  cases b <;> rfl

theorem reset_inst_tenant {i : Nat} (h : i ≠ 0) : State.reset.inst i = Inst.reset := by
  simp [State.inst, State.reset, Tbl.findD, Tbl.find, Tbl.lookup, h.symm]

/-- Settles O47: the tables at reset list nothing but the manager's entry, so every port, link, QP and tenant reads as
its reset value, whose fields are constants. -/
theorem resetLeavesTheValuesTheSpecGives : Obligations.ResetLeavesTheValuesTheSpecGives := by
  have fll : fld Port.reset.cfg 63 48 = 200 ∧ fld Port.reset.cfg 47 32 = 4000 ∧ fld Port.reset.cfg 5 4 = 2
      ∧ fld Port.reset.cfg 1 0 = 0 ∧ Port.reset.cond = .down := by decide
  have pl : bit PLink.reset.cfg 0 = true ∧ bit PLink.reset.cfg 12 = true ∧ fld PLink.reset.cfg 5 4 = 2 := by decide
  have fab : fld Routing.reset.cfg 63 48 = 32 ∧ fld Routing.reset.cfg 47 40 = 1 ∧ fld Routing.reset.cfg 39 32 = 1
      ∧ fld Routing.reset.cfg 31 16 = 100 ∧ fld Routing.reset.cfg 7 0 = 32 := by decide
  obtain ⟨markK, reqW, collW, hold, hops⟩ := fab
  exact ⟨rfl, reset_memInv, rfl, rfl, rfl, fun _ => fll, markK, reqW, collW, hold, hops,
    fun b => by rw [reset_bankOf]; rfl, fun _ => pl, rfl, rfl, rfl, fun _ hi => by rw [reset_inst_tenant hi]; rfl,
    fun _ => rfl⟩

theorem admits_no_schedule (vc c : Nat) : admits none vc c = true ↔ vc ≤ 6 := by
  simp [admits]

theorem admits_unplanned {x : SheetNow} (h : sheetKind x.entry = 0) (vc c : Nat) :
    admits (some x) vc c = true ↔ vc ≤ 6 := by
  simp [admits, h]

theorem admits_circuit {x : SheetNow} (h : sheetKind x.entry = 1) (vc c : Nat) :
    admits (some x) vc c = true ↔ vc = 0 ∨ (vc = 7 ∧ c = sheetCircuit x.entry) := by
  simp [admits, h]

theorem admits_closed {x : SheetNow} (h : sheetKind x.entry = 2) (vc c : Nat) :
    admits (some x) vc c = true ↔ vc = 0 := by
  simp [admits, h]

/-- Settles O56, kind by kind. -/
theorem sheetKindsAdmitTheirChannels : Obligations.SheetKindsAdmitTheirChannels :=
  fun _ vc c _ => ⟨fun h => admits_unplanned h vc c, fun h => admits_circuit h vc c, fun h => admits_closed h vc c,
    admits_no_schedule vc c⟩

end Sys2Proof.Machine
end

section
/-! ## Registers of the time unit, pulses and snapshots (chapter 1) -/

namespace Sys2Proof.Machine

/-! ### TIME_EPOCH, TIME_CTRL, TIME_TOD -/

theorem writeEpoch_of_idle {s : State} (hplan : anyPlan s = false) (hq : ∀ w ∈ s.queues.vals, w.st = .idle)
    (v : Word) : writeEpoch s v = { s with time := { s.time with epoch := fld v 47 0 } } := by
  have idle : s.queues.vals.any (fun w => w.st != .idle) = false := by
    simpa [List.any_eq_false] using hq
  simp only [writeEpoch, hplan, idle, Bool.or_false, Bool.false_eq_true, if_false]
  rfl

theorem writeTimeCtrl_of_legal {s : State} {v : Word} (hplan : anyPlan s = false) (hrole : fld v 3 2 ≠ 3)
    (hlimit : 16 ≤ fld v 23 16) (hrate : 1 ≤ fld v 31 24) :
    writeTimeCtrl s v = { s with time := { s.time with
      ctrl := reg [(31, 24, fld v 31 24), (23, 16, fld v 23 16), (3, 2, fld v 3 2), (1, 0, fld v 1 0)] } } := by
  simp only [writeTimeCtrl, hplan, hrole, Nat.not_lt.mpr hlimit, Nat.max_eq_right hrate, Bool.false_eq_true, or_self,
    if_false]
  rfl

theorem giveTod_of_grandmaster {s : State} (h : timeRole s = 1) (d : Door) :
    giveTod s d = ({ s with time := { s.time with tod := some ((reqWord s d 1).toNat, s.now) } }, St.ok) := by
  simp only [giveTod, h, if_true]
  rfl

theorem exec_timeTod_of_posted {s : State} {d : Door} {link : BitVec 2}
    (h : posted s d link.toNat 0x0050 1 true = true) (hrole : timeRole s = 1) :
    exec (.timeTod d link) s = .next (answer { took s d with time := { s.time with
      tod := some ((reqWord s d 1).toNat, s.now) } } d St.ok []) := by
  have run := mailRow_posted h (vs := [1]) rfl (fun s => answerSt d (giveTod s d))
  have hrole' : timeRole (took s d) = 1 := hrole
  rw [giveTod_of_grandmaster hrole', took_reqWord] at run
  exact congrArg Host.Outcome.next run

/-! ### TIME_PPS_OUT -/

theorem nextSecond_bounds (s : State) :
    nextSecond s % 1000000000 = 0 ∧ s.now ≤ nextSecond s ∧ nextSecond s ≤ s.now + 1000000000 := by
  unfold nextSecond
  split <;> omega

theorem ppsStart_of_mayDrive {s : State} (h : ppsMayDrive s = true) :
    ppsStart s = (s.arriveAt (nextSecond s)).modTime (fun t => { t with ppsOut := some t.now }) := by
  have h' : ppsMayDrive (s.arriveAt (nextSecond s)) = true := h
  simp only [ppsStart, h', if_true]

theorem ppsEnd_of_pulse {s : State} {t : Nat} (h : s.time.ppsOut = some t) :
    ppsEnd s = (s.arriveAt (t + ppsWidth s * 1000)).modTime (fun x => { x with ppsOut := none }) := by
  simp only [ppsEnd, h]

/-! ### Isobar snapshots -/

theorem armIsobar_of_ahead {s : State} (h : s.now + 4096 ≤ s.time.isoTime.toNat) (v : Word) :
    armIsobar s v = { s with time := { s.time with
      isoArmed := true, isoArmedSnap := fld v 15 0, isoAt := s.time.isoTime.toNat, isoLate := false } } := by
  simp only [armIsobar, Nat.not_lt.mpr h, if_false]
  rfl

/-- A latch notes the stalls of the ports and takes the shadows from what they then count. -/
theorem latchIsobar_eq (s : State) (stepped : Bool) :
    latchIsobar s stepped = { s with
      time := { s.time with
        isoSnap := s.time.isoArmedSnap, isoArmed := false, isoStepped := stepped, isoLost := s.time.lock == .lost }
      tst := { s.tst with
        shadowDev := shadowsDev (forEach s.ports.keys s noteStalls)
        shadowWin := shadowsWin (forEach s.ports.keys s noteStalls)
        shadowObj := shadowsObj (forEach s.ports.keys s noteStalls) }
      ports := (latchIsobar s stepped).ports, links := (latchIsobar s stepped).links } := by
  have counted := noteStallsAll_onlyPorts s.ports.keys s
  unfold OnlyPorts at counted
  unfold latchIsobar
  rw [counted]
  rfl

theorem isobarDue_of_armed {s : State} (hrun : s.running = true) (harm : s.time.isoArmed = true) :
    isobarDue s = latchIsobar (s.arriveAt s.time.isoAt) false := by
  simp only [isobarDue, hrun, harm, Bool.and_self, if_true]

/-- Settles O1: the gates of the control space let the writes through, and each effect is one equation. -/
theorem timeRegistersPulsesAndSnapshots : Obligations.TimeRegistersPulsesAndSnapshots := by
  intro s
  refine ⟨fun link v ht hplan hq => ?_, fun link v ht hplan hrole hlimit hrate => ?_,
    fun d link hp hrole => exec_timeTod_of_posted hp hrole, fun b hb hserve hdrive => ?_,
    fun t ht => congrArg Host.Outcome.next (ppsEnd_of_pulse ht), fun link v ht hahead => ?_, fun hrun harm => ?_⟩
  · exact congrArg Host.Outcome.next ((ctlWrite_taken ht _).trans (writeEpoch_of_idle hplan hq v))
  · exact congrArg Host.Outcome.next ((ctlWrite_taken ht _).trans (writeTimeCtrl_of_legal hplan hrole hlimit hrate))
  · obtain ⟨hsecond, hnow, hnext⟩ := nextSecond_bounds s
    subst hb
    refine ⟨hsecond, hnow, hnext, congrArg Host.Outcome.next ?_⟩
    rw [if_pos hserve, ppsStart_of_mayDrive hdrive]
  · exact congrArg Host.Outcome.next ((ctlWrite_taken ht _).trans (armIsobar_of_ahead hahead v))
  · have latched := latchIsobar_eq (s.arriveAt s.time.isoAt) false
    refine ⟨latchIsobar (s.arriveAt s.time.isoAt) false, _, rfl,
      congrArg Host.Outcome.next (isobarDue_of_armed hrun harm), ?_, ?_, ?_⟩
    all_goals rw [latched]; rfl

end Sys2Proof.Machine
end

section
/-! ## Syncs, announces and the lock (chapter 1) -/

namespace Sys2Proof.Machine

@[simp] theorem ptp_modPtp (s : State) (p : Nat) (f : PtpPort → PtpPort) : (s.modPtp p f).ptp p = f (s.ptp p) := by
  simp [State.modPtp, State.ptp]

@[simp] theorem passTo_lock (x : TimeUnit) (t : Nat) : (passTo x t).lock = x.lock := rfl

/-- Taking a delivered message changes nothing but the packets delivered. -/
theorem takePtp_inbox (s : State) (p : Nat) (is : PtpMsg → Bool) : ∃ x, takePtp s p is = { s with inbox := x } := by
  unfold takePtp
  split <;> exact ⟨_, rfl⟩

/-- A Sync or a Follow_Up that brings the time `origin`. -/
def bringsTime (origin : Nat) : PtpMsg → Bool
  | .sync a _ => a == origin
  | .followUp a => a == origin
  | _ => false

/-- What a valid sync with offset `o` and parent error `p` leaves in a locked time unit (R22, R33). -/
def syncedTime (t : TimeUnit) (o : Int) (p : Nat) : TimeUnit :=
  { t with
    offset := o, slew := o * 1000000, filt := filtered t.filt o.natAbs, parentErr := p
    estAtSync := min 0xFFFE (filtered t.filt o.natAbs + p), lastValid := some t.now }

theorem takeSync_of_locked {s : State} {o : Int} (hlock : s.time.lock = .locked) (ho : o.natAbs ≤ errLimit s)
    (p interval : Nat) : takeSync s o p interval = s.modTime (fun t => syncedTime t o p) := by
  have ho' : o.natAbs ≤ errLimit (s.modTime fun t => { t with offset := o }) := ho
  simp only [takeSync, syncLocked, ho', if_true, correctSlow, slewOff, State.modTime_time, reduceCtorEq, if_false,
    hlock]
  rfl

/-- The parent's port has heard a sync: it is the source, and knows the time the sync's leg took (R17, R18). -/
def syncHeard (s : State) (p origin sub : Nat) : State :=
  (s.modTime (fun t => { t with source := p })).modPtp p (fun x => { x with
    msLeg := recvStamp s p sub - ((origin : Int) - epochNs s) })

theorem syncHeard_ptp (s : State) (p origin sub : Nat) : (syncHeard s p origin sub).ptp p = { s.ptp p with
    msLeg := recvStamp s p sub - ((origin : Int) - epochNs s) } :=
  ptp_modPtp _ _ _

theorem syncOffset_syncHeard (s : State) (p origin sub : Nat) :
    syncOffset (syncHeard s p origin sub) p origin sub = syncOffset s p origin sub := by
  unfold syncOffset recvStamp asymmetryNs pathNs
  rw [syncHeard_ptp]
  rfl

theorem parentError_syncHeard (s : State) (p origin sub : Nat) :
    parentError (syncHeard s p origin sub) p = parentError s p := by
  unfold parentError
  rw [syncHeard_ptp]

theorem syncArrives_of_parent {s u : State} {p origin sub : Nat} (hu : u = takePtp s p (bringsTime origin))
    (hrun : u.running = true) (hrole : timeRole u = 0) (hparent : parentPort u = some p)
    (htlv : (u.ptp p).tlv ≠ some 0xFFFF) :
    syncArrives s p origin sub = askDelay (takeSync (syncHeard u p origin sub)
      (syncOffset u p origin sub) (parentError u p) (syncInterval (syncHeard u p origin sub) p)) p := by
  subst hu
  have htlv' : ((syncHeard (takePtp s p (bringsTime origin)) p origin sub).ptp p).tlv ≠ some 0xFFFF := by
    rwa [syncHeard_ptp]
  rw [← syncOffset_syncHeard, ← parentError_syncHeard _ p origin sub]
  refine (if_neg (c := (!(takePtp s p (bringsTime origin)).running || timeRole (takePtp s p (bringsTime origin)) != 0
    || parentPort (takePtp s p (bringsTime origin)) != some p) = true) (by simp [hrun, hrole, hparent])).trans ?_
  exact congrArg (askDelay · p) (if_neg htlv')

theorem syncArrives_of_locked {s u : State} {p origin sub : Nat} (hu : u = takePtp s p (bringsTime origin))
    (hrun : u.running = true) (hrole : timeRole u = 0) (hparent : parentPort u = some p)
    (htlv : (u.ptp p).tlv ≠ some 0xFFFF) (hlock : u.time.lock = .locked)
    (ho : (syncOffset u p origin sub).natAbs ≤ errLimit u) :
    syncArrives s p origin sub = askDelay ((syncHeard u p origin sub).modTime
      (fun t => syncedTime t (syncOffset u p origin sub) (parentError u p))) p := by
  rw [syncArrives_of_parent hu hrun hrole hparent htlv, takeSync_of_locked (s := syncHeard u p origin sub) hlock ho]

theorem announceArrives_of_on {s : State} {p : Nat} (hrun : s.running = true) (hon : ptpOn s p = true)
    (tlv : Option (BitVec 16)) (acc rank : Nat) :
    announceArrives s p tlv acc rank = (takePtp s p (· == .announce tlv (BitVec.ofNat 8 acc))).modPtp p
      (fun x => { x with
        tlv := tlv.map (·.toNat), accBound := accuracyBound acc, rank := some rank, heardAt := s.now }) := by
  obtain ⟨x, taken⟩ := takePtp_inbox s p (· == .announce tlv (BitVec.ofNat 8 acc))
  unfold announceArrives
  rw [taken]
  exact if_neg (c := (!s.running || !ptpOn s p) = true) (by simp [hrun, hon])

theorem syncExpired_of_locked {s : State} {t : Nat} (hrun : s.running = true) (hlock : s.time.lock = .locked)
    (ht : s.time.lastValid = some t) :
    syncExpired s = (s.arriveAt (t + 4 * lockInterval s)).modTime
      (fun x => { x with lock := .holdover, streak := 0 }) := by
  simp [syncExpired, ht, hrun, hlock, enterHoldover]

theorem holdoverLost_of_holdover {s : State} {t : Nat} (hrun : s.running = true) (hlock : s.time.lock = .holdover)
    (ht : s.time.lastValid = some t) : holdoverLost s = loseTime (s.arriveAt (lostAt s t)) := by
  simp [holdoverLost, ht, hrun, hlock]

theorem ppsEdge_of_locked {s : State} {sub sec : Nat} {o : Int} (hrole : timeRole s = 1)
    (hen : bit s.time.ctrl 1 = true) (htod : todInForce s = some sec) (hlock : s.time.lock = .locked)
    (hs : o = ((s.now + sub : Nat) : Int) - ((sec * 1000000000 : Nat) - (epochNs s : Int)))
    (ho : o.natAbs ≤ errLimit s) (refOk : Bool) :
    ppsEdge s sub refOk = s.modTime (fun t =>
      syncedTime { t with refOk := refOk, ppsLast := some t.now, tod := none } o 0) := by
  subst hs
  have hidle : ¬ (timeRole s ≠ 1 ∨ (!bit s.time.ctrl 1) = true) := by simp [hrole, hen]
  have htod' : todInForce (s.modTime fun t => { t with refOk := refOk, ppsLast := some t.now }) = some sec := htod
  refine (if_neg hidle).trans ?_
  rw [htod']
  exact takeSync_of_locked (s := s.modTime fun t => { t with refOk := refOk, ppsLast := some t.now, tod := none })
    hlock ho 0 1000000000

/-- A time fault is reported with the offset, under the lock that is left; the estimate stays as it was (R22, R323). -/
theorem loseTime_eq (s : State) :
    loseTime s = { s with
      time := { s.time with lock := .lost, estAtSync := estimateOf s, streak := 0 }, flt := (loseTime s).flt } := rfl

theorem loseTime_raised (s : State) : (loseTime s).flt.raised = s.flt.raised ++ [⟨s.now, 6, 0, 112, 0xFF,
    decide (s.time.lock ≠ .locked), false, 0, BitVec.ofNat 32 (satSigned 16 s.time.offset)⟩] := rfl

/-- Settles O2: a sync within the limit leaves a locked time unit as `syncedTime` says, whether it came by PTP or as an
edge; an expiry carries time to its tick and changes the lock. -/
theorem clockSourcesMoveTheLock : Obligations.ClockSourcesMoveTheLock := by
  intro s
  refine ⟨fun port origin sub o f hrun hrole hparent htlv hlock ho hlimit hf => ?_,
    fun port tlv acc rank hrun hon => ?_,
    fun t hrun hlock ht => congrArg Host.Outcome.next (syncExpired_of_locked hrun hlock ht), fun t hrun hlock ht => ?_,
    fun sub refOk sec o f hrun hrole hen htod hlock ho hlimit hf => ?_⟩
  · subst ho hf
    obtain ⟨x, taken⟩ := takePtp_inbox s port.toNat (bringsTime origin.toNat)
    have moved := syncArrives_of_locked taken.symm hrun hrole hparent htlv hlock hlimit
    refine congrArg Host.Outcome.next (moved.trans (congrArg (askDelay · port.toNat) ?_))
    change _ = ((takePtp s port.toNat (bringsTime origin.toNat)).modPtp port.toNat _).modTime _
    rw [taken]
    rfl
  · have kept := announceArrives_of_on hrun hon tlv acc.toNat rank.toNat
    rw [BitVec.ofNat_toNat, BitVec.setWidth_eq] at kept
    exact congrArg Host.Outcome.next kept
  · have hlock' : (s.arriveAt (lostAt s t)).time.lock ≠ .locked := by simp [hlock]
    refine ⟨_, congrArg Host.Outcome.next (holdoverLost_of_holdover hrun hlock ht), rfl, rfl, ?_⟩
    rw [loseTime_raised, decide_eq_true hlock']
    rfl
  · subst hf
    refine congrArg Host.Outcome.next ((if_pos hrun).trans ?_)
    exact ppsEdge_of_locked hrole hen htod hlock ho hlimit refOk

end Sys2Proof.Machine
end

section
/-! ## PTP messages sent and answered (R17, R18, R414) -/

namespace Sys2Proof.Machine

theorem running_and_isMaster {s : State} {p : Nat} (hrun : s.running = true) (hmaster : isMaster s p = true) :
    (s.running && isMaster s p) = true := by
  rw [hrun, hmaster]
  rfl

theorem ptpGate_peer {s : State} {p : Nat} (hrun : s.running = true) (heth : isEth s p = false)
    (hon : ptpOn s p = true) : ¬ (!s.running || isEth s p || !ptpOn s p) = true := by
  simp [hrun, heth, hon]

theorem ptpGate_endToEnd {s : State} {p : Nat} (hrun : s.running = true) (heth : isEth s p = true)
    (hon : ptpOn s p = true) : ¬ (!s.running || !isEth s p || !ptpOn s p) = true := by
  simp [hrun, heth, hon]

/-- A request is answered in its tick. -/
theorem peerDelay_req {s u : State} {p : Nat} (hu : u = takePtp s p (· == .pdelayReq)) (hrun : u.running = true)
    (heth : isEth u p = false) (hon : ptpOn u p = true) (sub : Nat) :
    peerDelay s p .pdelayReq sub = sendPtp u p (.pdelayResp 0) := by
  subst hu
  exact if_neg (ptpGate_peer hrun heth hon)

/-- An answer to a request sent at `t` gives the link delay. -/
theorem peerDelay_resp {s u : State} {p turn t : Nat} (hu : u = takePtp s p (· == .pdelayResp turn))
    (hrun : u.running = true) (heth : isEth u p = false) (hon : ptpOn u p = true)
    (hreq : (u.ptp p).lastReq = some t) (sub : Nat) :
    peerDelay s p (.pdelayResp turn) sub = (u.modPtp p (fun x => { x with lastReq := none })).modPort p
      (fun k => { k with delay := (u.now + sub - t - turn) / 2 }) := by
  subst hu
  refine (if_neg (ptpGate_peer hrun heth hon)).trans ?_
  rw [hreq]

/-- A master answers on the sub-port that the request came in on. -/
theorem endToEnd_req {s u : State} {p : Nat} {clock : BitVec 64} {seq : BitVec 16}
    (hu : u = takePtp s p (· == .delayReq clock seq)) (hrun : u.running = true) (heth : isEth u p = true)
    (hon : ptpOn u p = true) (hmaster : isMaster u p = true) (sub : Nat) :
    endToEnd s p (.delayReq clock seq) sub = sendPtpOn u p (subOfPtp s p (.delayReq clock seq))
      (.delayResp clock seq (recvStamp u p sub + epochNs u).toNat) := by
  subst hu
  exact (if_neg (ptpGate_endToEnd hrun heth hon)).trans (if_pos hmaster)

/-- A slave takes the answer to the request it sent at `t`. -/
theorem endToEnd_resp {s u : State} {p recv t : Nat} {clock : BitVec 64} {seq : BitVec 16}
    (hu : u = takePtp s p (· == .delayResp clock seq recv)) (hrun : u.running = true) (heth : isEth u p = true)
    (hon : ptpOn u p = true) (hreq : (u.ptp p).lastReq = some t) (sub : Nat) :
    endToEnd s p (.delayResp clock seq recv) sub
      = u.modPtp p (fun x => { x with lastReq := none, pathDelay := meanDelay u p recv t }) := by
  subst hu
  refine (if_neg (ptpGate_endToEnd hrun heth hon)).trans ?_
  rw [hreq]

/-- Settles O3: taking a delivered message changes only the packets delivered, so each answer follows from the port as
it stands. -/
theorem ptpMessagesSentAndAnswered : Obligations.PtpMessagesSentAndAnswered := by
  intro s port
  refine ⟨fun u hrun hmaster hu => ?_, fun hrun hmaster => ?_, fun sub hrun heth hon => ?_,
    fun sub turn t hrun heth hon hreq => ?_, fun sub clock seq hrun heth hon hmaster => ?_,
    fun sub clock seq recv t hrun heth hon hreq => ?_⟩
  · subst hu
    exact ⟨_, rfl, _, rfl, congrArg Host.Outcome.next (if_pos (running_and_isMaster hrun hmaster))⟩
  · exact congrArg Host.Outcome.next (if_pos (running_and_isMaster hrun hmaster))
  · obtain ⟨x, taken⟩ := takePtp_inbox s port.toNat (· == .pdelayReq)
    rw [taken]
    exact congrArg Host.Outcome.next (peerDelay_req taken.symm hrun heth hon sub.toNat)
  · obtain ⟨x, taken⟩ := takePtp_inbox s port.toNat (· == .pdelayResp turn)
    rw [taken]
    exact congrArg Host.Outcome.next (peerDelay_resp taken.symm hrun heth hon hreq sub.toNat)
  · obtain ⟨x, taken⟩ := takePtp_inbox s port.toNat (· == .delayReq clock seq)
    rw [taken]
    exact congrArg Host.Outcome.next (endToEnd_req taken.symm hrun heth hon hmaster sub.toNat)
  · obtain ⟨x, taken⟩ := takePtp_inbox s port.toNat (· == .delayResp clock seq recv)
    rw [taken]
    exact congrArg Host.Outcome.next (endToEnd_resp taken.symm hrun heth hon hreq sub.toNat)

end Sys2Proof.Machine
end

section
/-! ## Reset inputs, rails and FAULT_N (chapters 14 and 17) -/

namespace Sys2Proof.Machine

/-! ### What a cold reset leaves -/

/-- Operations that change nothing but the counts of the meters and the time up to which granules are counted. -/
def OnlyMeters (s t : State) : Prop := t = { s with mtr := { s.mtr with meters := t.mtr.meters, gmsAt := t.mtr.gmsAt } }

theorem OnlyMeters.refl (s : State) : OnlyMeters s s := rfl

theorem OnlyMeters.trans {a b c : State} (hab : OnlyMeters a b) (hbc : OnlyMeters b c) : OnlyMeters a c := by
  unfold OnlyMeters at hab hbc ⊢
  rw [hbc, hab]

theorem modMeter_onlyMeters (s : State) (i : Nat) (f : Meter → Meter) : OnlyMeters s (s.modMeter i f) := by
  unfold State.modMeter
  split <;> rfl

theorem countGranules_onlyMeters (s : State) : OnlyMeters s (countGranules s) := by
  unfold countGranules
  split
  · rfl
  · dsimp only
    refine OnlyMeters.trans (b := if s.now / 1000000 - s.mtr.gmsAt = 0 then s else _) ?_ rfl
    split
    · rfl
    · exact forEach_rel OnlyMeters.refl OnlyMeters.trans (fun u i => modMeter_onlyMeters u i _) _ s

/-- Operations that change nothing but HBM and the faults. -/
def OnlyHbmFaults (s t : State) : Prop := t = { s with hbm := t.hbm, flt := t.flt }

theorem OnlyHbmFaults.refl (s : State) : OnlyHbmFaults s s := rfl

theorem OnlyHbmFaults.trans {a b c : State} (hab : OnlyHbmFaults a b) (hbc : OnlyHbmFaults b c) :
    OnlyHbmFaults a c := by
  unfold OnlyHbmFaults at hab hbc ⊢
  rw [hbc, hab]

theorem markRetired_onlyHbmFaults (s : State) (n : Nat) : OnlyHbmFaults s (markRetired s n) := by
  unfold markRetired
  split <;> rfl

theorem repairRow_onlyHbmFaults (s : State) (n row : Nat) (inService : Bool) :
    OnlyHbmFaults s (repairRow s n row inService) := by
  unfold repairRow
  dsimp only
  split
  · rfl
  · split
    · exact markRetired_onlyHbmFaults _ n
    · rfl

theorem repairBad_onlyHbmFaults (s : State) : OnlyHbmFaults s (repairBad s) := by
  unfold repairBad
  exact forEach_rel OnlyHbmFaults.refl OnlyHbmFaults.trans 
    (fun u (r : Nat × Nat) => repairRow_onlyHbmFaults u r.1 r.2 false) _ s

/-- The cold state is built from a state that differs from `s` in HBM, the faults and the meters' counts alone. -/
theorem repaired_eq (s : State) : ∃ h f m g, repairBad (countGranules s)
    = { s with hbm := h, flt := f, mtr := { s.mtr with meters := m, gmsAt := g } } := by
  have counted := countGranules_onlyMeters s
  have repaired := repairBad_onlyHbmFaults (countGranules s)
  unfold OnlyMeters at counted
  refine ⟨(repairBad (countGranules s)).hbm, (repairBad (countGranules s)).flt, (countGranules s).mtr.meters,
    (countGranules s).mtr.gmsAt, Eq.trans repaired ?_⟩
  generalize (repairBad (countGranules s)).hbm = h
  generalize (repairBad (countGranules s)).flt = f
  rw [counted]

theorem coldState_boot (s : State) : (coldState s).boot = { Boot.reset with
    haltFuse := s.boot.haltFuse, haltStep := s.boot.haltStep, fuseSvn := s.boot.fuseSvn, keyRevoke := s.boot.keyRevoke
    flash := s.boot.flash } := by
  obtain ⟨h, f, m, g, e⟩ := repaired_eq s
  unfold coldState
  rw [e]

theorem coldState_pins (s : State) : (coldState s).pins = { s.pins with i3cDyn := none, gpio := Tbl.empty } := by
  obtain ⟨h, f, m, g, e⟩ := repaired_eq s
  unfold coldState
  rw [e]

theorem coldState_pending (s : State) : (coldState s).pending = s.pending := by
  obtain ⟨h, f, m, g, e⟩ := repaired_eq s
  unfold coldState
  rw [e]

theorem coldState_boards (s : State) : (coldState s).board0 = s.board0 ∧ (coldState s).board1 = s.board1
    ∧ (coldState s).board2 = s.board2 ∧ (coldState s).board3 = s.board3 := by
  obtain ⟨h, f, m, g, e⟩ := repaired_eq s
  unfold coldState
  rw [e]
  exact ⟨rfl, rfl, rfl, rfl⟩

theorem coldState_island (s : State) :
    (coldState s).mtr.running = s.mtr.running ∧ (coldState s).mtr.fuses = s.mtr.fuses := by
  obtain ⟨h, f, m, g, e⟩ := repaired_eq s
  unfold coldState
  rw [e]
  exact ⟨rfl, rfl⟩

/-! ### Inputs -/

theorem bootHeld_of_free {s : State} (hporst : s.pins.porstLow = false) (hwrst : s.pins.wrstLow = false)
    (hclk : s.pins.refclkLost = false) : bootHeld s = false := by
  simp [bootHeld, hporst, hwrst, hclk]

theorem released_of_free {s : State} (hboot : s.boot.phase = .boot) (hfree : bootHeld s = false) :
    released s = beginBoot s := by
  simp [released, hboot, hfree]

theorem warmAsserted_of_service {s : State} (h : s.inService = true) :
    warmAsserted s = (warmState s).modBoot (fun b => { b with phase := .boot, verified := false }) := by
  have hphase : s.boot.phase = .service := by simpa [State.inService] using h
  simp only [warmAsserted, hphase]

theorem wrstAsserted_eq {s : State} (hporst : s.pins.porstLow = false) (hwrst : s.pins.wrstLow = false)
    (hclk : s.pins.refclkLost = false) :
    wrstAsserted s = { warmAsserted s with pins := { (warmAsserted s).pins with wrstLow := true } } := by
  simp [wrstAsserted, hporst, hwrst, hclk]

theorem refclkStops_eq {s : State} (hporst : s.pins.porstLow = false) (hwrst : s.pins.wrstLow = false)
    (hclk : s.pins.refclkLost = false) :
    refclkStops s = { warmAsserted s with pins := { (warmAsserted s).pins with refclkLost := true } } := by
  simp [refclkStops, hporst, hwrst, hclk]

/-! ### FAULT_N -/

theorem openDrain_eq_low (b : Bool) : openDrain b = .low ↔ b = true := by
  cases b <;> simp [openDrain]

theorem drive_faultN {s : State} (hporst : s.pins.porstLow = false) (hscan : scanDrive s .faultN = none) :
    drive s .faultN = openDrain (faultNLow s) := by
  unfold drive
  rw [hporst, hscan]
  cases s.boot.phase <;> rfl

theorem faultNLow_iff {s : State} (hporst : s.pins.porstLow = false) : faultNLow s = true ↔
    s.boot.phase = .bootHalt ∨ (s.boot.phase = .boot ∧ s.boot.waitFlash ≠ 0) ∨ s.flt.coreCause = true
      ∨ s.pins.refclkLost = true ∨ (s.boot.phase = .off ∧ s.pins.offByFault = true) := by
  simp [faultNLow, hporst, or_assoc]

/-- Settles O38: a cold state keeps the fuses, the island's supply, companion memory and the levels of the inputs, so
each input decides by the pins of `s`; FAULT_N follows its five conditions in every phase. -/
theorem resetInputsAndRails : Obligations.ResetInputsAndRails := by
  intro s
  refine ⟨fun n hn => congrArg Host.Outcome.next (if_pos hn),
    fun n hn => congrArg Host.Outcome.next (if_neg (Nat.not_lt.mpr hn)), ?_,
    fun flash strap u hlow hu => ⟨?_, ?_⟩, rfl, fun hon => ?_, fun u hserve hporst hwrst hclk hu => ⟨?_, ?_⟩,
    fun u hwrst hporst hclk hboot hu => ?_,
    fun u hclk hporst hwrst hboot hu => ?_, fun hporst hscan => ?_⟩
  · have boot := coldState_boot s
    obtain ⟨h0, -, -, h3⟩ := coldState_boards s
    obtain ⟨hrun, hfuses⟩ := coldState_island s
    exact ⟨_, rfl, rfl, rfl, rfl, rfl, h0, h3, by rw [boot], by rw [boot], by rw [boot], by rw [boot], hrun, hfuses,
      coldState_pins s, coldState_pending s, rfl, rfl⟩
  · intro hhalt
    subst hu
    have halt : (coldState s).boot.haltFuse = true := by rw [coldState_boot]; exact hhalt
    exact congrArg Host.Outcome.next ((if_neg (by simp [hlow])).trans (if_pos halt))
  · intro hfuse hwrst hclk
    subst hu
    have go : (coldState s).boot.haltFuse ≠ true := by rw [coldState_boot]; simp [hfuse]
    have wrst : (coldState s).pins.wrstLow = false := by rw [coldState_pins]; exact hwrst
    have clk : (coldState s).pins.refclkLost = false := by rw [coldState_pins]; exact hclk
    exact congrArg Host.Outcome.next (((if_neg (by simp [hlow])).trans (if_neg go)).trans
      (released_of_free rfl (bootHeld_of_free rfl wrst clk)))
  · exact congrArg Host.Outcome.next (if_neg (by simpa using hon))
  · subst hu
    refine congrArg Host.Outcome.next ?_
    rw [wrstAsserted_eq hporst hwrst hclk, warmAsserted_of_service hserve]
  · subst hu
    refine congrArg Host.Outcome.next ?_
    rw [refclkStops_eq hporst hwrst hclk, warmAsserted_of_service hserve]
  · subst hu
    exact congrArg Host.Outcome.next ((if_neg (by simp [hwrst])).trans
      (released_of_free hboot (bootHeld_of_free hporst rfl hclk)))
  · subst hu
    exact congrArg Host.Outcome.next ((if_neg (by simp [hclk])).trans
      (released_of_free hboot (bootHeld_of_free hporst hwrst rfl)))
  · rw [drive_faultN hporst hscan, openDrain_eq_low, faultNLow_iff hporst]

end Sys2Proof.Machine
end

section
/-! ## Fronts, rejoin points, drain bounds and sheets (chapters 1, 2 and 7) -/

namespace Sys2Proof.Machine

/-! ### A latch and the granule count leave the plans -/

theorem latchDue_plans (s : State) (stepped : Bool) : (latchDue s stepped).plans = s.plans := by
  unfold latchDue
  split
  · rw [latchIsobar_eq]
  · rfl

theorem latchDue_knowsTime (s : State) (stepped : Bool) : knowsTime (latchDue s stepped) = knowsTime s := by
  unfold latchDue
  split
  · rw [latchIsobar_eq]
    rfl
  · rfl

theorem countGranules_plans (s : State) : (countGranules s).plans = s.plans := by
  rw [countGranules_onlyMeters s]

theorem countGranules_now (s : State) : (countGranules s).now = s.now := by
  unfold State.now
  rw [countGranules_onlyMeters s]

/-! ### The switch of the plans -/

theorem switchPlan_of_next {s : State} {p : Plan} (hnext : s.plans.next = some p) (hdrain : s.plans.drainAt = none) :
    switchPlan s = switchRest (switchSlots (countGranules s) p) p := by
  simp [switchPlan, hnext, hdrain]

theorem reachFront_of_armed {s : State} (hserve : s.inService = true) (harmed : s.plans.nextCond = .armed)
    (hknows : knowsTime s = true) : reachFront s = switchPlan (latchDue (s.arriveAt s.plans.front) false) := by
  have hknows' : knowsTime (latchDue (s.arriveAt s.plans.front) false) = true :=
    (latchDue_knowsTime _ _).trans hknows
  simp [reachFront, hserve, harmed, hknows']

theorem rejoin_of_missed {s : State} {m : Nat} (hserve : s.inService = true) (hmissed : missedPoint s = some m)
    (hresume : resumePoint s = none) : rejoin s = switchPlan (latchDue (s.arriveAt m) false) := by
  simp [rejoin, hserve, hmissed, hresume]

theorem rejoin_of_resume {s : State} {r : Nat} (hserve : s.inService = true) (hmissed : missedPoint s = none)
    (hresume : resumePoint s = some r) : rejoin s = resumePlan (latchDue (s.arriveAt r) false) := by
  simp [rejoin, hserve, hmissed, hresume]

theorem resumePlan_of_active {s : State} {p : Plan} (h : s.plans.active = some p) :
    resumePlan s = settleSteps (applyAllDue (forEach p.couch (s.modPlans (fun x => { x with resuming := false }))
      openCouchQp)) := by
  simp [resumePlan, h]

theorem drainPlan_of_due {s : State} {t : Nat} (hserve : s.inService = true) (h : s.plans.drainAt = some t) :
    drainPlan s = settleSteps (releaseOld (s.arriveAt t)) := by
  simp [drainPlan, h, hserve]

theorem reachSheet_of_sheet {s : State} {p : Nat} {x : SheetNow} (h : portSheet s p s.now = some x) :
    reachSheet s p = noteWaits (s.arriveAt x.stop) p := by
  simp [reachSheet, nextBoundary, h]

/-! ### Starting a frame leaves the loopbacks -/

theorem noteStalls_tst (s : State) (p : Nat) : (noteStalls s p).tst = s.tst := by
  rw [noteStalls_onlyPorts s p]

theorem sendVc0_tst (s : State) (p : Nat) (f : FabFrame) : (sendVc0 s p f).tst = s.tst := by
  unfold sendVc0
  split <;> rfl

theorem sendCtl_tst (s : State) (p : Nat) (m : LinkCtl) : (sendCtl s p m).tst = s.tst := sendVc0_tst s p _

theorem sendCredit_tst (p : Nat) (s : State) (vc : Nat) : (sendCredit p s vc).tst = s.tst := by
  unfold sendCredit
  simp only [apply_ite State.tst, sendCtl_tst, State.modPort_tst, ite_self]

theorem freeBuffer_tst (s : State) (arr vc n : Nat) : (freeBuffer s arr vc n).tst = s.tst := by
  unfold freeBuffer
  split
  · rfl
  · exact sendCredit_tst _ _ _

theorem bodyLeft_tst (s : State) (p : Nat) (b : FrameBody) : (bodyLeft s p b).tst = s.tst := by
  unfold bodyLeft
  split
  · unfold ptpLeft
    split <;> rfl
  · rfl

theorem modMeter_tst (s : State) (i : Nat) (f : Meter → Meter) : (s.modMeter i f).tst = s.tst := by
  rw [modMeter_onlyMeters s i f]

theorem meterFrame_tst (s : State) (f : FabFrame) : (meterFrame s f).tst = s.tst := by
  unfold meterFrame
  split
  · exact modMeter_tst _ _ _
  · rfl

theorem chargeShared_tst (s : State) (parts : List (Nat × Nat)) : (chargeShared s parts).tst = s.tst := by
  unfold chargeShared
  exact modMeter_tst _ _ _

theorem startFrame_tst (s : State) (p : Nat) (q : Queued) (turn : Nat) (d : Tbl Int) :
    (startFrame s p q turn d).tst = s.tst := by
  unfold startFrame
  simp only [State.sent_tst, meterFrame_tst, chargeShared_tst, freeBuffer_tst, bodyLeft_tst]
  rfl

theorem startAgain_tst (s : State) (p : Nat) (q : Queued) : (startAgain s p q).tst = s.tst := by
  unfold startAgain
  simp only [State.sent_tst, meterFrame_tst]
  rfl

theorem startFrame_out (s : State) (p : Nat) (q : Queued) (turn : Nat) (d : Tbl Int) :
    ∃ f rest, (startFrame s p q turn d).out = .frame p f :: rest := ⟨_, _, rfl⟩

theorem startAgain_out (s : State) (p : Nat) (q : Queued) :
    ∃ f rest, (startAgain s p q).out = .frame p f :: rest := ⟨_, _, rfl⟩

theorem loopBack_of_no_loop {s : State} {p : Nat} (h : loopOf s p = 0) (f : FabFrame) : loopBack s p f = s := by
  simp [loopBack, nearLoop, h]

theorem loopOf_congr {s t : State} (h : t.tst = s.tst) (p : Nat) : loopOf t p = loopOf s p := by
  unfold loopOf
  rw [h]

/-- A frame that a port without a loopback starts leaves, and the port's stalls are looked at. -/
theorem startEgress_of_again {s t : State} {p : Nat} {q : Queued}
    (hgate : (!s.inService || isEth s p || (s.port p).cond != .up || portMute s p) = false)
    (ht : t = forEach (List.range 7) (noteStalls (noteWaits (s.arriveAt (s.port p).busyUntil) p) p) (sendCredit p))
    (hloop : loopOf t p = 0) (hagain : pickAgain t p = some q) :
    startEgress s p = noteStalls (startAgain t p q) p := by
  obtain ⟨f, rest, hout⟩ := startAgain_out t p q
  have back : loopBack (startAgain t p q) p f = startAgain t p q :=
    loopBack_of_no_loop ((loopOf_congr (startAgain_tst t p q) p).trans hloop) f
  simp only [startEgress, hgate, ← ht, hagain, hout, back, Bool.false_eq_true, if_false]

theorem startEgress_of_pick {s t : State} {p turn : Nat} {q : Queued} {d : Tbl Int}
    (hgate : (!s.inService || isEth s p || (s.port p).cond != .up || portMute s p) = false)
    (ht : t = forEach (List.range 7) (noteStalls (noteWaits (s.arriveAt (s.port p).busyUntil) p) p) (sendCredit p))
    (hloop : loopOf t p = 0) (hagain : pickAgain t p = none) (hpick : pickFrame t p = some (q, turn, d)) :
    startEgress s p = noteStalls (startFrame t p q turn d) p := by
  obtain ⟨f, rest, hout⟩ := startFrame_out t p q turn d
  have back : loopBack (startFrame t p q turn d) p f = startFrame t p q turn d :=
    loopBack_of_no_loop ((loopOf_congr (startFrame_tst t p q turn d) p).trans hloop) f
  simp only [startEgress, hgate, ← ht, hagain, hpick, hout, back, Bool.false_eq_true, if_false]

/-- The state in which a port picks its next frame has the loopbacks it had. -/
theorem egressReady_loop (s : State) (p at_ : Nat) :
    loopOf (forEach (List.range 7) (noteStalls (noteWaits (s.arriveAt at_) p) p) (sendCredit p)) p = loopOf s p := by
  refine loopOf_congr ?_ p
  rw [forEach_keeps (·.tst) (sendCredit p) (sendCredit_tst p), noteStalls_tst]
  rfl

/-- Settles O5: a latch and the count of granules leave the plans, so a switch reads the plans as they stand; what a
port without a loopback starts does not come back to it. -/
theorem frontsRejoinPointsAndDrainBoundSwitchPlans : Obligations.FrontsRejoinPointsAndDrainBoundSwitchPlans := by
  intro s
  refine ⟨fun p u hserve harmed hnext hknows hu hdrain => ?_, fun m hserve hmissed hresume => ?_,
    fun r p u hserve hmissed hresume hactive hu => ?_, fun t hserve ht => ?_, fun port x hx => ?_,
    fun port t q turn d hserve heth hup hmute hloop ht => ?_⟩
  · have plans : (countGranules u).plans = s.plans := by
      rw [countGranules_plans, hu, latchDue_plans]
      rfl
    have uplans : u.plans = s.plans := by rw [← plans, countGranules_plans]
    refine congrArg Host.Outcome.next ((reachFront_of_armed hserve harmed hknows).trans ?_)
    rw [← hu, switchPlan_of_next (uplans ▸ hnext) (uplans ▸ hdrain)]
    refine congrArg (switchRest · p) ?_
    simp only [switchSlots, State.modPlans, activeClaims, plans, countGranules_now]
  · exact congrArg Host.Outcome.next (rejoin_of_missed hserve hmissed hresume)
  · subst hu
    have active : (latchDue (s.arriveAt r) false).plans.active = some p := by rw [latchDue_plans]; exact hactive
    exact congrArg Host.Outcome.next ((rejoin_of_resume hserve hmissed hresume).trans (resumePlan_of_active active))
  · exact congrArg Host.Outcome.next (drainPlan_of_due hserve ht)
  · exact congrArg Host.Outcome.next (reachSheet_of_sheet hx)
  · have hgate : (!s.inService || isEth s port.toNat || (s.port port.toNat).cond != .up
        || portMute s port.toNat) = false := by
      simp [hserve, heth, hup, hmute]
    have hloop' : loopOf t port.toNat = 0 := by rw [ht, egressReady_loop, hloop]
    exact ⟨fun hagain hpick => congrArg Host.Outcome.next (startEgress_of_pick hgate ht hloop' hagain hpick),
      fun hagain => congrArg Host.Outcome.next (startEgress_of_again hgate ht hloop' hagain)⟩

end Sys2Proof.Machine
end

section
/-! ## The commands of the plan slots (chapter 2) -/

namespace Sys2Proof.Machine

/-! ### A request that a door has taken -/

theorem took_reqFld (s : State) (d : Door) (off n : Nat) : reqFld (took s d) d off n = reqFld s d off n := by
  simp only [reqFld, reqBytes, took_reqWord]

theorem took_loadRange (s : State) (d : Door) : loadRange (took s d) d = loadRange s d := by
  simp only [loadRange, took_reqFld]

/-! ### What each command does in the condition it is meant for -/

/-- The next slot while the checks of an image from `r` run: the copy, its range, and whom to answer (R36). -/
def loadingSlots (x : PlanSlots) (img : List Byte) (r : Nat × Nat) (d : Door) (tag : Nat) : PlanSlots :=
  { x with
    nextCond := .loading, next := some { (default : Plan) with image := img }
    loadAddr := r.1, loadLen := r.2, loadDoor := d, loadTag := BitVec.ofNat 64 tag }

theorem loadPlan_of_empty {s u : State} {d : Door} {img : List Byte} (hrange : rangeOk s (loadRange s d) = true)
    (hread : readImage s (loadRange s d) = (u, .ok img)) (hempty : u.plans.nextCond = .empty) :
    loadPlan s d = (storeImage u img.length).modPlans
      (fun x => loadingSlots x img (loadRange s d) d (fld (reqWord u d 0) 63 32)) := by
  simp [loadPlan, hrange, hread, hempty, loadingSlots]

theorem endLoad_of_good {s : State} {p : Plan} (hloading : s.plans.nextCond = .loading)
    (hnext : s.plans.next = some p) (hgood : imageFail s p.image (activeClaims s) true false = none) :
    endLoad s = decideHeldCap (settle (answerResult (planLoaded s (planOf p.image)) s.plans.loadDoor none)) := by
  simp only [endLoad, hloading, hnext, hgood]

theorem armPlan_of_ahead {s : State} {d : Door} {p : Plan} (hloaded : s.plans.nextCond = .loaded)
    (hnext : s.plans.next = some p) (hrestore : s.flt.restoring.cells.isEmpty = true)
    (hahead : frontAhead s (reqFld s d 8 8) = true) :
    armPlan s d = answerResult (s.modPlans (fun x => { x with
      nextCond := .armed, front := reqFld s d 8 8, armedAt := s.now })) d none := by
  simp [armPlan, hloaded, hnext, hrestore, hahead]

theorem cancelPlan_of_loaded {s : State} (hloaded : s.plans.nextCond = .loaded) :
    cancelPlan s = (settle (dropNext s), St.ok) := by
  simp only [cancelPlan, hloaded]

theorem unloadFail_eq_none {s : State} {p : Plan} {f : Nat} (hactive : s.plans.active = some p)
    (hempty : s.plans.nextCond = .empty) (hahead : frontAhead s f = true) (htable : s.routing.tableFront = none) :
    unloadFail s f = none := by
  simp [unloadFail, hactive, hempty, hahead, htable]

theorem unloadPlan_of_none {s : State} {d : Door} {p : Plan} (hactive : s.plans.active = some p)
    (hgood : unloadFail s (reqFld s d 8 8) = none) :
    unloadPlan s d = ((setResult s none).modPlans (fun x => { x with
      nextCond := .armed, next := some (emptyPlan p.rejoin), front := reqFld s d 8 8, armedAt := s.now }), St.ok) := by
  have hactive' : (setResult s none).plans.active = some p := hactive
  simp only [unloadPlan, hgood, hactive']
  rfl

/-- Settles O4: a posted request runs on the state whose door took it, which has the plans, the time and the request
of the one before; there each command meets the condition it is meant for. -/
theorem planSlotCommandsMoveTheNextSlot : Obligations.PlanSlotCommandsMoveTheNextSlot := by
  intro s d link
  refine ⟨fun u img hp hrange hread hempty => ?_, fun p hserve hloading hnext hgood => ?_,
    fun p hp hloaded hnext hrestore hahead => ?_, fun hp hloaded => ?_, fun p hp hactive hempty hahead htable => ?_⟩
  · have range := took_loadRange s d
    have loaded := loadPlan_of_empty (s := took s d) (range.symm ▸ hrange) (range.symm ▸ hread) hempty
    rw [range] at loaded
    exact congrArg Host.Outcome.next ((mailRow_posted hp rfl (loadPlan · d)).trans loaded)
  · exact congrArg Host.Outcome.next ((if_pos hserve).trans (endLoad_of_good hloading hnext hgood))
  · have front := took_reqFld s d 8 8
    have armed := armPlan_of_ahead (s := took s d) hloaded hnext hrestore (front.symm ▸ hahead)
    rw [front] at armed
    exact congrArg Host.Outcome.next ((mailRow_posted hp rfl (armPlan · d)).trans armed)
  · have run := mailRow_posted hp (vs := [1]) rfl (fun t => answerSt d (cancelPlan t))
    rw [cancelPlan_of_loaded (s := took s d) hloaded] at run
    exact congrArg Host.Outcome.next run
  · have front := took_reqFld s d 8 8
    have good := unloadFail_eq_none (s := took s d) hactive hempty hahead htable
    have run := mailRow_posted hp (vs := [1]) rfl (fun t => answerSt d (unloadPlan t d))
    rw [unloadPlan_of_none (s := took s d) hactive (front.symm ▸ good), front] at run
    exact congrArg Host.Outcome.next run

end Sys2Proof.Machine
end

section
/-! ## Reading the flash, and the end of a boot (chapter 14) -/

namespace Sys2Proof.Machine

/-! ### What the flash holds -/

theorem readFlash_of_absent {s : State} (h : s.boot.flash = .absent) :
    readFlash s = s.modBoot (fun b => { b with waitFlash := 1 }) := by
  simp only [readFlash, h]

theorem readFlash_of_blank {s : State} (h : s.boot.flash = .blank) :
    readFlash s = s.modBoot (fun b => { b with waitFlash := 2 }) := by
  simp only [readFlash, h]

theorem readFlash_of_bad {s : State} {b : List Byte} {k : Nat} (h : s.boot.flash = .image b)
    (hbad : verifyFail s b = some k) : readFlash s = haltBoot s k := by
  simp only [readFlash, h, hbad]

theorem readFlash_of_good {s : State} {b : List Byte} (h : s.boot.flash = .image b) (hgood : verifyFail s b = none) :
    readFlash s = imageGood s b := by
  simp only [readFlash, h, hgood]

/-- The state in which a boot that waits has come to its next second, and reads the flash once more (R341). -/
def nextTry (s : State) (flash : Flash) : State :=
  (s.arriveAt (s.now + 1000000000)).modBoot (fun b => { b with
    flash := flash, startedAt := (s.arriveAt (s.now + 1000000000)).now, waitFlash := 0 })

theorem retryFlash_of_waiting {s : State} (hboot : s.boot.phase = .boot) (hwait : s.boot.waitFlash ≠ 0)
    (hfree : bootHeld s = false) (flash : Flash) : retryFlash s flash = readFlash (nextTry s flash) := by
  simp only [retryFlash, hboot, hfree, beq_eq_false_iff_ne.mpr hwait, bne_self_eq_false, Bool.or_self,
    Bool.false_eq_true, if_false]
  rfl

/-! ### The end of a boot -/

theorem bootGate_open {s : State} (hboot : s.boot.phase = .boot) (hverified : s.boot.verified = true)
    (hfree : bootHeld s = false) : ¬ (s.boot.phase != .boot || !s.boot.verified || bootHeld s) = true := by
  simp [hboot, hverified, hfree]

theorem endBoot_of_cold {s : State} (hboot : s.boot.phase = .boot) (hverified : s.boot.verified = true)
    (hfree : bootHeld s = false) (hcold : s.boot.warm = false) :
    endBoot s = settleSteps (initHbm (enterService (s.arriveAt (s.boot.startedAt + 5900 * ms)))) :=
  (if_neg (bootGate_open hboot hverified hfree)).trans (if_neg (by simp [hcold]))

theorem endBoot_of_warm {s : State} (hboot : s.boot.phase = .boot) (hverified : s.boot.verified = true)
    (hfree : bootHeld s = false) (hwarm : s.boot.warm = true) :
    endBoot s = settleSteps (warmPlans (warmRouting (enterService (s.arriveAt (s.boot.startedAt + 1480 * ms))))) :=
  (if_neg (bootGate_open hboot hverified hfree)).trans (if_pos hwarm)

/-- Settles O39: a boot that waits reads the flash a second on, and what the flash then holds decides; the end of a
verified boot is that of its kind. -/
theorem bootsReadTheFlashAndFinish : Obligations.BootsReadTheFlashAndFinish := by
  intro s
  refine ⟨fun flash u hboot hwait hfree hu => ?_, fun n u v spares hboot hverified hfree hn hu hv hspares => ?_⟩
  · have tried (t : State) (h : readFlash u = t) : exec (.flashRetry flash) s = .next t := by
      refine congrArg Host.Outcome.next ((retryFlash_of_waiting hboot hwait hfree flash).trans ?_)
      rw [← h, hu]
      rfl
    have holds : u.boot.flash = flash := by rw [hu]; rfl
    refine ⟨fun habsent => tried _ (readFlash_of_absent (holds.trans habsent)),
      fun hblank => tried _ (readFlash_of_blank (holds.trans hblank)),
      fun b k himage hbad => tried _ (readFlash_of_bad (holds.trans himage) hbad),
      fun b v himage hgood hv => ?_⟩
    rw [hv]
    exact tried _ (readFlash_of_good (holds.trans himage) hgood)
  · refine ⟨fun hcold => ?_, fun hwarm => ?_⟩
    · rw [hcold] at hn
      subst hn hu hv hspares
      exact congrArg Host.Outcome.next (endBoot_of_cold hboot hverified hfree hcold)
    · rw [hwarm] at hn
      subst hn hu hv
      exact congrArg Host.Outcome.next (endBoot_of_warm hboot hverified hfree hwarm)

end Sys2Proof.Machine
end

section
/-! ## Memory moved by a COPY (chapters 3 and 9) -/

namespace Sys2Proof.Machine

/-! ### Byte memory -/

theorem readBytes_length (m : List Host.Cell) (a n : Nat) : (readBytes m a n).length = n := by
  induction n generalizing a with
  | zero => rfl
  | succ n ih => simp [readBytes, ih]

/-- Bytes read back as they were stored. -/
theorem readBytes_writeBytes_same {m : List Host.Cell} (h : Memory.wf m = true) (a : Nat) (bs : List Byte) :
    readBytes (writeBytes m a bs) a bs.length = bs := by
  induction bs generalizing m a with
  | nil => rfl
  | cons b bs ih =>
    have first : readByte (writeBytes (writeByte m a b) (a + 1) bs) a = b := by
      rw [readByte_writeBytes_out (wf_writeByte h a b) (a + 1) bs (Or.inl (Nat.lt_succ_self a))]
      exact readByte_writeByte_same h a b
    simp only [writeBytes, List.length_cons, readBytes, first, ih (wf_writeByte h a b)]

theorem rangeFrom_succ (a n : Nat) : rangeFrom a (n + 1) = a :: rangeFrom (a + 1) n := by
  simp [rangeFrom, List.range_succ_eq_map, Nat.add_comm, Nat.add_left_comm]

/-- Storing each byte of a range at its own address stores the range. -/
theorem foldl_zip_rangeFrom (m : List Host.Cell) (a : Nat) (bs : List Byte) :
    ((rangeFrom a bs.length).zip bs).foldl (fun m c => writeByte m c.1 c.2) m = writeBytes m a bs := by
  induction bs generalizing m a with
  | nil => simp [writeBytes]
  | cons b bs ih => simp only [List.length_cons, rangeFrom_succ, List.zip_cons_cons, List.foldl_cons, writeBytes, ih]

/-! ### Words that can be read -/

theorem firstBad_eq_none {h : Hbm} {a n : Nat} : firstBad h a n = none ↔ ∀ w ∈ wordsOf a n, wordBad h w = false := by
  simp [firstBad]

theorem takeBack_hbm (s : State) (links : List Nat) (p : Nat × Bool → Bool) : (takeBack s links p).hbm = s.hbm := by
  unfold takeBack
  refine forEach_keeps (fun s => s.hbm) _ (fun s l => ?_) _ _
  dsimp only
  split
  · rfl
  · rw [State.modLink_hbm]
    exact forEach_keeps (fun s => s.hbm) _ (by intros; rfl) _ _

/-- Correcting words makes none unreadable, and none readable. -/
theorem correctWords_wordBad (s : State) (ws : List Nat) : wordBad (correctWords s ws).hbm = wordBad s.hbm := by
  unfold correctWords
  exact forEach_keeps (fun s => wordBad s.hbm) _ (by intros; rfl) _ _

theorem correctRange_takeOwned_wordBad (s : State) (asker : Option Nat) (ls : List Nat) (a n : Nat) :
    wordBad (correctRange (takeOwned s asker ls) a n).hbm = wordBad s.hbm :=
  (correctWords_wordBad _ _).trans (congrArg wordBad (takeBack_hbm s _ _))

theorem firstBad_congr {h k : Hbm} (e : wordBad h = wordBad k) (a n : Nat) : firstBad h a n = firstBad k a n := by
  unfold firstBad
  rw [e]

/-! ### Reads, writes and moves of readable words -/

/-- A read of readable words gives their bytes; it corrects some and changes no byte. -/
theorem hbmRead_of_readable {s : State} {a n : Nat} (h : firstBad s.hbm a n = none) :
    ∃ t, hbmRead s a n = (t, .done, readBytes s.mem a n) ∧ t.mem = s.mem ∧ wordBad t.hbm = wordBad s.hbm := by
  have same := correctRange_takeOwned_wordBad s none (linesOf a n) a n
  have good := (firstBad_congr same a n).trans h
  have mem : (correctRange (takeOwned s none (linesOf a n)) a n).mem = s.mem := by
    rw [correctRange_mem, takeOwned_mem]
  refine ⟨_, ?_, mem, same⟩
  simp only [hbmRead, hbmReadBy, good, mem]

/-- A write over readable words is refused nowhere, and stores every byte. -/
theorem hbmWrite_of_readable {s : State} {a : Nat} {bs : List Byte} (h : firstBad s.hbm a bs.length = none) :
    ∃ t, hbmWrite s a bs = (t, .done) ∧ t.mem = writeBytes s.mem a bs := by
  have none_stuck : (wordsOf a bs.length).filter
      (fun w => wordBad s.hbm w && !(wholeWords a bs.length).contains w) = [] :=
    List.filter_eq_nil_iff.mpr (fun w hw => by simp [firstBad_eq_none.mp h w hw])
  have accepted : (hbmWrite s a bs).2 = .done := by simp only [hbmWrite, none_stuck]
  refine ⟨(hbmWrite s a bs).1, Prod.ext rfl accepted, ?_⟩
  simp only [hbmWrite, none_stuck, applyInjection_mem, State.modHbm_mem, backInvLines_mem, correctWords_mem,
    List.contains_nil, Bool.false_eq_true, if_false]
  exact foldl_zip_rangeFrom s.mem a bs

theorem xlatRead_of_hbm {x : Xlat} (h : x.board = false) (s : State) (o n : Nat) :
    xlatRead s x o n = hbmRead s (x.addr + o) n := by
  simp [xlatRead, xlatLost, h]

theorem xlatWrite_of_hbm {x : Xlat} (h : x.board = false) (s : State) (o : Nat) (bs : List Byte) :
    xlatWrite s x o bs = hbmWrite s (x.addr + o) bs := by
  simp [xlatWrite, xlatLost, h]

/-- Two ranges of HBM that can be read and do not overlap: the destination takes the bytes of the source. -/
theorem copyData_of_readable {s : State} {src dst : Xlat} (hsrc : src.board = false) (hdst : dst.board = false)
    (hlen : src.len = dst.len) (hapart : sameMemory src dst = false) (hread : firstBad s.hbm src.addr src.len = none)
    (hwrite : firstBad s.hbm dst.addr dst.len = none) :
    ∃ t, copyData s src dst = (t, 0, 0) ∧ t.mem = writeBytes s.mem dst.addr (readBytes s.mem src.addr src.len) := by
  obtain ⟨u, hu, humem, hubad⟩ := hbmRead_of_readable hread
  have hulen : firstBad u.hbm dst.addr (readBytes s.mem src.addr src.len).length = none := by
    rw [readBytes_length, hlen, firstBad_congr hubad]
    exact hwrite
  obtain ⟨t, ht, htmem⟩ := hbmWrite_of_readable hulen
  refine ⟨t, ?_, by rw [htmem, humem]⟩
  simp only [copyData, xlatRead_of_hbm hsrc, Nat.add_zero, hu, hapart, Bool.false_eq_true, if_false,
    xlatWrite_of_hbm hdst, ht]
  rfl

/-- Settles O53: the destination is one write of the bytes read, which read back as they were stored. -/
theorem copyMovesItsBytes : Obligations.CopyMovesItsBytes := by
  intro s src dst hwf hsrc hdst hlen hapart hread hwrite
  obtain ⟨t, ht, htmem⟩ := copyData_of_readable hsrc hdst hlen hapart hread hwrite
  have moved : (readBytes s.mem src.addr src.len).length = dst.len := (readBytes_length _ _ _).trans hlen
  refine ⟨t, ht, ?_, fun x hx => ?_⟩
  · have back := readBytes_writeBytes_same hwf dst.addr (readBytes s.mem src.addr src.len)
    rwa [moved, ← htmem] at back
  · rw [htmem]
    exact readByte_writeBytes_out hwf dst.addr _ (by rwa [moved])

end Sys2Proof.Machine
end

section
/-! ## Doorbells, and queues and rings made (chapter 3) -/

namespace Sys2Proof.Machine

/-! ### Doorbells -/

theorem doorbellAt_taken {s : State} {l i a : Nat} {rsv : List (Nat × Nat)} {v : Word} {held : Bool}
    (h : taken s l a rsv v = true) (hheld : held = true) (f : State → State) :
    doorbellAt s l i a held rsv v f = f s := by
  have run := ctlDoorbell_taken h hheld f
  simp only [taken, Bool.and_eq_true, beq_iff_eq] at h
  obtain ⟨-, clear⟩ := h
  simp [doorbellAt, run, clear]

theorem queueOf_of_find {s : State} {i q : Nat} {w : WorkQueue} (hw : s.queues.find q = some w) (hi : w.inst = i) :
    queueOf s i q = true := by
  simp [queueOf, hw, hi]

theorem ringOf_of_find {s : State} {i n : Nat} {r : Ring} (hr : s.rings.find n = some r) (hi : r.inst = i) :
    ringOf s i n = true := by
  simp [ringOf, hr, hi]

/-- A PI that is ahead, and leaves the queue no fuller than its depth, moves the queue on (R63). -/
theorem takeWqDoorbell_of_ahead {s : State} {i q : Nat} {v : Word} {w : WorkQueue} (hw : s.queues.find q = some w)
    (herr : w.st ≠ .error) (hcalm : w.st ≠ .calm) (hact : (s.inst i).st = .active)
    (hpos : 1 ≤ dmod 32 (fld v 31 0) w.pi) (hlt : dmod 32 (fld v 31 0) w.pi < 2 ^ 31)
    (hfit : dmod 32 (fld v 31 0) w.fetch ≤ 2 ^ w.depthLog) :
    takeWqDoorbell s i q v = serveHead (s.modQueue q (fun w => { w with
      pi := fld v 31 0, st := if w.st = .idle then .running else w.st })) q := by
  have live : (w.st == .error || w.st == .calm || instCalming s i) = false := by
    simp [instCalming, herr, hcalm, hact]
  have inRange : ¬ (dmod 32 (fld v 31 0) w.pi = 0) := Nat.ne_of_gt hpos
  simp only [takeWqDoorbell, hw, live, inRange, ge_iff_le, Nat.not_le.mpr hlt, gt_iff_lt, Nat.not_lt.mpr hfit,
    decide_false, Bool.or_self, Bool.false_eq_true, if_false, beq_iff_eq]

/-- A PI out of range is only counted (R63). -/
theorem takeWqDoorbell_of_stale {s : State} {i q : Nat} {v : Word} {w : WorkQueue} (hw : s.queues.find q = some w)
    (hout : dmod 32 (fld v 31 0) w.pi = 0 ∨ 2 ^ 31 ≤ dmod 32 (fld v 31 0) w.pi
      ∨ 2 ^ w.depthLog < dmod 32 (fld v 31 0) w.fetch) :
    takeWqDoorbell s i q v = staleDoorbell s i := by
  simp only [takeWqDoorbell, hw]
  refine if_pos ?_
  simp only [Bool.or_eq_true, decide_eq_true_eq]
  obtain hsame | hbehind | hfull := hout
  · exact Or.inl (Or.inl (Or.inr hsame))
  · exact Or.inl (Or.inr hbehind)
  · exact Or.inr hfull

/-- Two changes that agree on the ring as it stands are one. -/
theorem modRing_congr {s : State} {n : Nat} {r : Ring} {f g : Ring → Ring} (hr : s.rings.find n = some r)
    (h : f r = g r) : s.modRing n f = s.modRing n g := by
  simp only [State.modRing, Tbl.modify, hr, h]

/-- A CI that does not pass WP is taken, ARM is kept or served at once, and the queues of the ring look again (R70). -/
theorem takeCqDoorbell_of_behind {s t u : State} {i n : Nat} {v : Word} {r : Ring} (hr : s.rings.find n = some r)
    (hci : dmod 32 (fld v 31 0) r.ci ≤ dmod 32 r.wp r.ci)
    (ht : t = s.modRing n (fun r => { r with
      ci := fld v 31 0, armed := if bit v 32 && r.vecEn then r.wp == fld v 31 0 else r.armed }))
    (hu : u = if bit v 32 && r.vecEn && r.wp != fld v 31 0 then fireVector t r.vector else t) :
    takeCqDoorbell s i n v = forEach
      (u.queues.keys.filter (fun q => match u.queues.find q with | some w => w.ring == n | none => false)) u
      (fun s q => match s.queues.find q with
        | some w => if w.st == .waiting && w.reason == .ringFull then serveHead (flushQueue s q) q else flushQueue s q
        | none => s) := by
  have armed : s.modRing n (fun x => { x with
      ci := fld v 31 0
      armed := if bit v 32 && r.vecEn then !(bit v 32 && r.vecEn && r.wp != fld v 31 0) else x.armed }) = t := by
    rw [ht]
    refine modRing_congr hr ?_
    cases harm : bit v 32 && r.vecEn <;> simp [bne]
  subst hu
  simp only [takeCqDoorbell, hr, gt_iff_lt, Nat.not_lt.mpr hci, if_false, armed]
    <;> rfl

/-! ### Creation -/

/-- CREATE shows DONE with the code of its checks, and makes the queue where the code is OK (R96). -/
theorem wqCommand_create {s : State} {i : Nat} {v : Word} (h : fld v 7 0 = 1) {u t : State} {w : Window} {n : WorkQueue}
    {c : Nat} (hu : u = s.modWin i (fun x => { x with wqDone := false })) (hw : w = (u.inst i).win)
    (hc : c = wqCreateCode u i) (hn : n = newQueue i (w.wqBase.findD w.wqSel 0) (w.wqCfg.findD w.wqSel 0))
    (ht : t = u.modWin i (fun x => { x with wqDone := true, wqCode := c })) :
    wqCommand s i v = if c = St.ok then calmQueue { t with queues := s.queues.put w.wqSel n } w.wqSel else t := by
  subst hu hw hc hn ht
  simp only [wqCommand, h, ne_eq, not_true_eq_false, if_false]
  rfl

/-- CREATE shows DONE with the code of its checks, and makes the ring where the code is OK (R96). -/
theorem cqCommand_create {s : State} {i : Nat} {v : Word} (h : fld v 7 0 = 1) {u t : State} {w : Window} {cfg : Word}
    {c : Nat} (hu : u = s.modWin i (fun x => { x with cqDone := false })) (hw : w = (u.inst i).win)
    (hc : c = cqCreateCode u i) (hcfg : cfg = w.cqCfg.findD w.cqSel 0)
    (ht : t = u.modWin i (fun x => { x with cqDone := true, cqCode := c })) :
    cqCommand s i v = if c = St.ok
      then { t with rings := s.rings.put w.cqSel ⟨i, w.cqBase.findD w.cqSel 0, fld cfg 21 17, bit cfg 11, fld cfg 10 0,
        0, 0, 0, false, false⟩ }
      else t := by
  subst hu hw hc hcfg ht
  simp only [cqCommand, h, ne_eq, not_true_eq_false, if_false]
  rfl

/-- Settles O6: the gate of the control space lets each doorbell and each CREATE through to its own equation. -/
theorem doorbellsMoveQueuesAndRings : Obligations.DoorbellsMoveQueuesAndRings := by
  intro s link inst v
  refine ⟨fun q w htaken hw hi herr hcalm hact => ?_, fun n r t u htaken hr hi hci ht hu => ?_,
    fun u w n c t htaken hcmd hu hw hc hn ht => ?_, fun u w cfg c t htaken hcmd hu hw hc hcfg ht => ?_⟩
  · have rung : exec (.wqDoorbell link inst q v) s = .next (takeWqDoorbell s inst.toNat q.toNat v) :=
      congrArg Host.Outcome.next (doorbellAt_taken htaken (queueOf_of_find hw hi) _)
    exact ⟨fun hpos hlt hfit => rung.trans (congrArg Host.Outcome.next
        (takeWqDoorbell_of_ahead hw herr hcalm hact hpos hlt hfit)),
      fun hout => rung.trans (congrArg Host.Outcome.next (takeWqDoorbell_of_stale hw hout))⟩
  · exact congrArg Host.Outcome.next
      ((doorbellAt_taken htaken (ringOf_of_find hr hi) _).trans (takeCqDoorbell_of_behind hr hci ht hu))
  · exact congrArg Host.Outcome.next ((ctlWrite_taken htaken _).trans (wqCommand_create hcmd hu hw hc hn ht))
  · exact congrArg Host.Outcome.next ((ctlWrite_taken htaken _).trans (cqCommand_create hcmd hu hw hc hcfg ht))

end Sys2Proof.Machine
end

section
/-! ## Entries that start and complete (chapter 3) -/

namespace Sys2Proof.Machine

/-- The head that the dispatcher takes next starts, and the turn moves past its queue (R74, R77, R316). -/
theorem startEntry_of_dispatched {s t : State} {q : Nat} {w : WorkQueue} {h : Issued} (ht : t = serveHead s q)
    (hready : headReady t q = some (w, h)) (hnext : dispatched t = some q) (hgood : badStep t h.entry = false) :
    startEntry s q = startHead (passTurn t q) q w h := by
  subst ht
  simp only [startEntry, hready, hnext, hgood, ne_eq, not_true_eq_false, if_false, Bool.false_eq_true]

/-- An entry that has ended by the last tick evaluated completes, after its SIG_LOCAL (R67, R75). -/
theorem finishEntry_of_ended {s t : State} {q seq : Nat} {x : Started} {e : Ending} (ht : t = catchUp s)
    (hx : startedAt t q seq = some x) (he : x.ending = some e) :
    finishEntry s q seq = completeEntry
      (if e.status = St.ok ∧ x.entry.sigLocal = true then signalLocal t q x.entry else t) q x e := by
  subst ht
  simp only [finishEntry, hx, he]

/-- A COPY that runs between ranges within reach moves its bytes and completes (R86). -/
theorem finishCopy_of_reachable {s : State} {q seq : Nat} {x : Started} {src dst : Xlat}
    (hx : startedAt s q seq = some x) (hop : x.entry.op = 0x03) (hran : x.ran = true) (hend : x.ending = none)
    (hxlats : x.xlats = [src, dst]) (hsrc : xlatHeld s src = false) (hdst : xlatHeld s dst = false) :
    finishCopy s q seq = completeOne (endEntry (copyData s src dst).1 q seq (copyData s src dst).2.1
      (BitVec.ofNat 64 x.entry.len) (copyData s src dst).2.2) q seq := by
  simp [finishCopy, hx, hop, hran, hend, hxlats, hsrc, hdst]

/-- The entry next to run has its effect, and the device settles. -/
theorem runEntry_of_next {s : State} {q op : Nat} {w : WorkQueue} {x : Started} (h : nextToRun s q op = some (w, x))
    (f : State → WorkQueue → Started → State) : runEntry s q op f = settle (f s w x) := by
  simp only [runEntry, h]

/-- Settles O7: the dispatcher's choice, the catching up before a completion, and the reach of a COPY's ranges decide. -/
theorem entriesStartAndComplete : Obligations.EntriesStartAndComplete := by
  intro s q
  refine ⟨fun w h x t u ht hready hnext hgood hu hx => ?_, fun seq t x e ht hx he => ?_,
    fun w x h => congrArg Host.Outcome.next (runEntry_of_next h _),
    fun seq x src dst t st d hx hop hran hend hxlats hsrc hdst hcopy => ?_⟩
  · subst hu hx
    exact congrArg Host.Outcome.next (startEntry_of_dispatched ht hready hnext hgood)
  · exact congrArg (fun t => Host.Outcome.next (settle t)) (finishEntry_of_ended ht hx he)
  · have moved := finishCopy_of_reachable hx hop hran hend hxlats hsrc hdst
    rw [hcopy] at moved
    exact congrArg Host.Outcome.next moved

end Sys2Proof.Machine
end

section
/-! ## Instructions of the entry next to run (chapters 3 and 4) -/

namespace Sys2Proof.Machine

/-- The state after a command that runs the entry next to run, whose effect leaves `t`. -/
theorem next_runEntry {s t : State} {q op : Nat} {w : WorkQueue} {x : Started}
    (h : nextToRun s q op = some (w, x)) {f : State → WorkQueue → Started → State} (ht : f s w x = t) :
    (.next (runEntry s q op f) : Host.Outcome State Fault Refusal) = .next (settle t) :=
  congrArg Host.Outcome.next ((runEntry_of_next h f).trans (congrArg settle ht))

/-! ### Messages -/

/-- On a QP that still carries its entries, an entry's message starts in its turn (R85, R119, R149). -/
theorem runMsg_of_carrying {s : State} {x : Started}
    (h : (s.qp x.entry.qp).st = .opened ∨ (s.qp x.entry.qp).st = .draining) (q : Nat) (kind : MsgKind) :
    runMsg s q x kind = startMsg (startTurn (markRan s q x.seq) x.entry.qp (entryMsg q x kind)) x.entry.qp
      (entryMsg q x kind) := by
  have carrying : (((markRan s q x.seq).qp x.entry.qp).st == .opened
      || ((markRan s q x.seq).qp x.entry.qp).st == .draining) = true := by
    rw [Bool.or_eq_true, beq_iff_eq, beq_iff_eq]
    exact h
  simp only [runMsg, startOnQp, carrying, if_true]

/-! ### Local data and vectors -/

theorem runHostSignal_of_vector_only {s : State} {x : Started} (h : x.xlats = []) (q : Nat) (w : WorkQueue) :
    runHostSignal s q w x = endEntry (if bit x.entry.w4 17 then fireVector s (fld x.entry.w4 10 0) else s) q x.seq
      St.ok 0 0 := by
  simp only [runHostSignal, h]

theorem runHostSignal_of_write {s t : State} {x : Started} {y : Xlat} (h : x.xlats = [y])
    (hreach : xlatHeld s y = false) (hwrite : xlatWrite s y 0 (leBytes 8 x.entry.w5.toNat) = (t, .done)) (q : Nat)
    (w : WorkQueue) :
    runHostSignal s q w x = endEntry (if bit x.entry.w4 17 then fireVector t (fld x.entry.w4 10 0) else t) q x.seq
      St.ok 0 0 := by
  simp only [runHostSignal, h, hreach, hwrite, Bool.false_and, Bool.false_eq_true, if_false]

theorem runRawSend_of_read {s t : State} {x : Started} {y : Xlat} {b : List Byte} (h : x.xlats = [y])
    (hreach : xlatHeld s y = false) (hread : xlatRead s y 0 x.entry.len = (t, .done, b)) (q : Nat) (w : WorkQueue) :
    runRawSend s q w x = queueRaw (markRan t q x.seq) q x.seq x.entry.port w.inst (bit x.entry.w4 8)
      (rawFrames x.entry b) := by
  simp only [runRawSend, h, hreach, hread, Bool.false_and, Bool.false_eq_true, if_false]

/-- Settles O8: each opcode's own equation, under the settling that follows the entry next to run. -/
theorem entryEffectsOfPlainInstructions : Obligations.EntryEffectsOfPlainInstructions := by
  intro s q w x
  refine ⟨fun h => next_runEntry h rfl, fun h => next_runEntry h rfl, fun h hqp => ?_, fun h hqp => ?_, fun h hx => ?_,
    fun y t h hx hreach hwrite => ?_, fun h => next_runEntry h rfl, fun y t b h hx hreach hread => ?_⟩
  · exact ⟨entryMsg q.toNat x .write, next_runEntry h (runMsg_of_carrying hqp q.toNat .write),
      rfl, rfl, rfl, rfl, rfl, rfl, rfl, rfl⟩
  · exact ⟨entryMsg q.toNat x .read, next_runEntry h (runMsg_of_carrying hqp q.toNat .read),
      rfl, rfl, rfl, rfl, rfl, rfl, rfl⟩
  · exact next_runEntry h (runHostSignal_of_vector_only hx q.toNat w)
  · exact next_runEntry h (runHostSignal_of_write hx hreach hwrite q.toNat w)
  · exact next_runEntry h (runRawSend_of_read hx hreach hread q.toNat w)

/-! ### Counters and semaphores -/

theorem Tbl.lookup_dropCell_same {α : Type} (k : Nat) (l : List (Nat × α)) : lookup k (dropCell k l) = none := by
  induction l with
  | nil => rfl
  | cons c rest ih =>
    obtain ⟨j, v⟩ := c
    by_cases hj : j = k <;> simp [dropCell, lookup, hj, ih]

@[simp] theorem Tbl.find_erase_same {α : Type} (t : Tbl α) (k : Nat) : (t.erase k).find k = none :=
  lookup_dropCell_same k t.cells

/-- An object reads as it was set, a zero too, which is not listed. -/
@[simp] theorem objVal_setObj_same (s : State) (id v : Nat) : objVal (setObj s id v) id = v := by
  by_cases hv : v = 0 <;> simp [objVal, setObj, Tbl.findD, hv]

theorem objectGone_of_live {s : State} {e : Entry} (h : (s.granule (granOf e.id)).orphan = false) :
    objectGone s e = false := by
  simp [objectGone, h]

theorem runSignal_of_remote {s : State} {x : Started} (h : x.entry.isRemote = true) (q : Nat) (w : WorkQueue) :
    runSignal s q w x = runMsg s q x .sync := by
  simp only [runSignal, h, if_true]

/-- A local SIGNAL adds in its turn, and ends with what the counter then holds (R102, R107). -/
theorem runSignal_of_local {s u : State} {x : Started} {q n : Nat} (hlocal : x.entry.isRemote = false)
    (hlive : (s.granule (granOf x.entry.id)).orphan = false) (hu : u = takeTurn s x.entry.id (localRank q))
    (hn : n = (objVal u x.entry.id + x.entry.w5.toNat) % 2 ^ 64) (w : WorkQueue) :
    runSignal s q w x = endEntry (setObj u x.entry.id n) q x.seq St.ok (BitVec.ofNat 64 n) 0 := by
  have added : addCounter s x.entry.id x.entry.w5.toNat (localRank q) = setObj u x.entry.id n := by
    subst hu hn
    rfl
  simp only [runSignal, hlocal, objectGone_of_live hlive, added, objVal_setObj_same, Bool.false_eq_true, if_false]

theorem runWaitCounter_of_local {s : State} {x : Started} (hlocal : x.entry.isRemote = false)
    (hlive : (s.granule (granOf x.entry.id)).orphan = false) (q : Nat) (w : WorkQueue) :
    runWaitCounter s q w x = joinWait (markRan s q x.seq) (entryWait s q x false x.entry.w5.toNat) := by
  simp only [runWaitCounter, hlocal, objectGone_of_live hlive, Bool.false_eq_true, if_false]

theorem runSemWait_of_local {s : State} {x : Started} (hlocal : x.entry.isRemote = false)
    (hlive : (s.granule (granOf x.entry.id)).orphan = false) (q : Nat) (w : WorkQueue) :
    runSemWait s q w x = joinWait (markRan s q x.seq) (entryWait s q x true (fld x.entry.w5 31 0)) := by
  simp only [runSemWait, hlocal, objectGone_of_live hlive, Bool.false_eq_true, if_false]

theorem entryMsg_sync_op_of_signal {x : Started} (h : x.entry.op = 0x10) (q : Nat) : (entryMsg q x .sync).sync.op = 0 := by
  simp [entryMsg, h]

theorem op_of_nextToRun {s : State} {q op : Nat} {w : WorkQueue} {x : Started} (h : nextToRun s q op = some (w, x)) :
    x.entry.op = op := by
  unfold nextToRun at h
  split at h
  · cases h
  · split at h
    · split at h
      · rename_i hop
        obtain ⟨-, rfl⟩ := Prod.mk.inj (Option.some.inj h)
        exact hop
      · cases h
    · cases h

/-- Settles O9: a local object is added to or waited on here, a remote one through the message of its entry. -/
theorem counterAndSemaphoreInstructions : Obligations.CounterAndSemaphoreInstructions := by
  intro s q w x
  refine ⟨fun u n h hlocal hlive hu hn => ⟨?_, objVal_setObj_same u x.entry.id n⟩, fun h hremote hqp => ?_,
    fun h hlocal hlive => ?_, fun h hlocal hlive => ?_⟩
  · exact next_runEntry h (runSignal_of_local hlocal hlive hu hn w)
  · exact ⟨entryMsg q.toNat x .sync,
      next_runEntry h ((runSignal_of_remote hremote q.toNat w).trans (runMsg_of_carrying hqp q.toNat .sync)),
      rfl, rfl, rfl, entryMsg_sync_op_of_signal (op_of_nextToRun h) q.toNat, rfl, rfl⟩
  · exact next_runEntry h (runWaitCounter_of_local hlocal hlive q.toNat w)
  · exact next_runEntry h (runSemWait_of_local hlocal hlive q.toNat w)

end Sys2Proof.Machine
end

section
/-! ## What ending waits and sending their answers leaves of the time unit (chapters 4, 5, 7 and 8) -/

namespace Sys2Proof.Machine

theorem forEach_time {α : Type} {f : State → α → State} (hf : ∀ s x, (f s x).time = s.time) (xs : List α) (s : State) :
    (forEach xs s f).time = s.time :=
  forEach_keeps (·.time) f hf xs s

/-! ### Frames on their way -/

theorem modMeter_time (s : State) (i : Nat) (f : Meter → Meter) : (s.modMeter i f).time = s.time := by
  rw [modMeter_onlyMeters s i f]

theorem chargeShared_time (s : State) (parts : List (Nat × Nat)) : (chargeShared s parts).time = s.time :=
  modMeter_time _ _ _

theorem sendVc0_time (s : State) (p : Nat) (f : FabFrame) : (sendVc0 s p f).time = s.time := by
  unfold sendVc0
  split <;> rfl

theorem sendCredit_time (p : Nat) (s : State) (vc : Nat) : (sendCredit p s vc).time = s.time := by
  unfold sendCredit sendCtl
  simp only [apply_ite State.time, sendVc0_time, State.modPort_time, ite_self]

theorem freeBuffer_time (s : State) (arr vc n : Nat) : (freeBuffer s arr vc n).time = s.time := by
  unfold freeBuffer
  split
  · rfl
  · exact sendCredit_time _ _ _

theorem handleFrame_time (s : State) (f : FabFrame) (set : Nat) : (handleFrame s f set).time = s.time := by
  unfold handleFrame
  split
  · exact freeBuffer_time _ _ _ _
  · exact freeBuffer_time _ _ _ _
  · dsimp only
    split <;> rfl

theorem inject_time (s : State) (dst kind vc len : Nat) (pkey : BitVec 16) (body : FrameBody) :
    (inject s dst kind vc len pkey body).time = s.time := by
  unfold inject
  split
  · rfl
  · exact handleFrame_time _ _ _

theorem ethZtp_time (s : State) (q : Nat) (i : QpIdent) (response : Bool) (p : ZtpPacket) :
    (ethZtp s q i response p).time = s.time := by
  unfold ethZtp ethQueue
  split
  · rfl
  · split <;> rfl

theorem sendOut_time (s : State) (q vc : Nat) (p : ZtpPacket) : (sendOut s q vc p).time = s.time := by
  unfold sendOut
  dsimp only
  split
  · exact (ethZtp_time _ _ _ _ _).trans (chargeShared_time _ _)
  · split
    · exact chargeShared_time _ _
    · exact (inject_time _ _ _ _ _ _ _).trans (chargeShared_time _ _)

/-! ### Entries, messages and QPs that end -/

theorem endEntry_time (s : State) (q seq status : Nat) (result : Word) (detail : BitVec 32) :
    (endEntry s q seq status result detail).time = s.time := by
  unfold endEntry
  split
  · rfl
  · split <;> rfl

/-- Only COUNTER_RANGE halts a queue, which is not looked at here. -/
theorem tellOwner_time {status : Nat} (h : status ≠ St.counterRange) (s : State) (m : Msg) (result : Word)
    (detail : BitVec 32) : (tellOwner s m status result detail).time = s.time := by
  unfold tellOwner
  split
  · rw [if_neg h]
    exact endEntry_time _ _ _ _ _ _
  · rfl
  · rfl

theorem endMsg_time {status : Nat} (h : status ≠ St.counterRange) (s : State) (q msn : Nat) (result : Word)
    (detail : BitVec 32) : (endMsg s q msn status result detail).time = s.time := by
  unfold endMsg
  split
  · rfl
  · exact tellOwner_time h _ _ _ _

theorem endAll_time {status : Nat} (h : status ≠ St.counterRange) (s : State) (q : Nat) (detail : BitVec 32) :
    (endAll s q status detail).time = s.time := by
  unfold endAll
  split
  · rfl
  · exact (forEach_time (fun _ _ => endMsg_time (by decide) _ _ _ _ _) _ _).trans (endMsg_time h _ _ _ _ _)

theorem dropApplying_time (s : State) (q : Nat) : (dropApplying s q).time = s.time := by
  unfold dropApplying endApplying
  split
  · split
    · split <;> rfl
    · rfl
  · rfl

theorem qpError_time {status : Nat} (h : status ≠ St.counterRange) (s : State) (q lastStatus : Nat) (detail : BitVec 32)
    (reason : Nat) : (qpError s q lastStatus status detail reason).time = s.time :=
  (endAll_time h _ _ _).trans (dropApplying_time s q)

theorem sendSealed_time (s : State) (q vc : Nat) (p : ZtpPacket) : (sendSealed s q vc p).time = s.time := by
  unfold sendSealed
  dsimp only
  split
  · exact sendOut_time _ _ _ _
  · split
    · exact qpError_time (by decide) _ _ _ _ _
    · exact sendOut_time _ _ _ _

theorem heldEnded_time (s : State) (q msn status : Nat) (result : Word) :
    (heldEnded s q msn status result).time = s.time := by
  unfold heldEnded
  dsimp only
  split
  · exact sendSealed_time _ _ _ _
  · rfl

/-! ### The evaluation of a tick -/

/-- Only OWNER_LOST halts a queue, which does not end a wait that a tick evaluates. -/
theorem endWait_time {status : Nat} (h : status ≠ St.ownerLost) (s : State) (w : Wait) (result : Word) :
    (endWait s w status result).time = s.time := by
  unfold endWait
  dsimp only
  split
  · rw [if_neg h]
    exact endEntry_time _ _ _ _ _ _
  · exact heldEnded_time _ _ _ _ _

theorem serveAll_time (s : State) : (serveAll s).time = s.time := by
  refine forEach_time (fun s o => ?_) _ _
  split
  · exact forEach_time (fun _ _ => endWait_time (by decide) _ _ _) _ _
  · exact forEach_time (fun _ _ => endWait_time (by decide) _ _ _) _ _

theorem passTimeWait_time (t : Nat) (s : State) (q : Nat) : (passTimeWait t s q).time = s.time := by
  unfold passTimeWait
  split
  · split
    · exact endEntry_time _ _ _ _ _ _
    · rfl
  · rfl

theorem expireHead_time (t : Nat) (s : State) (q : Nat) : (expireHead t s q).time = s.time := by
  unfold expireHead
  split
  · split
    · exact endEntry_time _ _ _ _ _ _
    · rfl
  · rfl

theorem expireHeld_time (t : Nat) (s : State) (w : Wait) : (expireHeld t s w).time = s.time := by
  unfold expireHeld
  split
  · split
    · exact endWait_time (by decide) _ _ _
    · rfl
  · rfl

theorem noteUnmet_time (t : Nat) (s : State) (w : Wait) : (noteUnmet t s w).time = s.time := by
  unfold noteUnmet
  split <;> rfl

/-- Evaluating the waits of a tick takes no time. -/
theorem evaluateTick_time (s : State) (t : Nat) : (evaluateTick s t).time = s.time := by
  unfold evaluateTick
  rw [forEach_time (noteUnmet_time t), forEach_time (expireHeld_time t), forEach_time (expireHead_time t),
    forEach_time (passTimeWait_time t), serveAll_time]

end Sys2Proof.Machine
end

section
/-! ## Waits on queues and on time, deadlines and lulls (chapters 3 and 4) -/

namespace Sys2Proof.Machine

theorem runWaitQueue_of_met {s : State} {q : Nat} {x : Started} (h : queueWaitMet (markRan s q x.seq) x = true)
    (w : WorkQueue) : runWaitQueue s q w x = endEntry (markRan s q x.seq) q x.seq St.ok
      (BitVec.ofNat 64 (cplOf (markRan s q x.seq) (fld x.entry.w3 18 0))) 0 := by
  simp only [runWaitQueue, h, if_true]

/-- A TIME_WAIT that has begun: its target is noted (R90). -/
def timeWaitBegun (s : State) (q : Nat) (x : Started) : State :=
  s.modStarted q x.seq (fun y => { y with ran := true, target := timeTarget x })

theorem runTimeWait_of_reached {s : State} {x : Started} (h : timeTarget x ≤ s.now) (q : Nat) (w : WorkQueue) :
    runTimeWait s q w x = endEntry (timeWaitBegun s q x) q x.seq St.ok (BitVec.ofNat 64 s.now) 0 :=
  if_pos (decide_eq_true h)

/-- A target ahead holds the head, as a lull where it lies the threshold beyond the issue (R90, R117). -/
theorem runTimeWait_of_ahead {s : State} {x : Started} (h : s.now < timeTarget x) (q : Nat) (w : WorkQueue) :
    runTimeWait s q w x = if x.issuedAt + lullNs s ≤ timeTarget x
      then beginLull (waitAtHead (timeWaitBegun s q x) q .time) q
      else waitAtHead (timeWaitBegun s q x) q .time :=
  if_neg (fun hreached => Nat.not_le.mpr h (of_decide_eq_true hreached))

theorem reachTimeWait_of_running {s : State} {q : Nat} {w : WorkQueue} {x : Started} (hw : s.queues.find q = some w)
    (hx : timeWaitOf w = some x) : reachTimeWait s q
      = endEntry (s.arriveAt x.target) q x.seq St.ok (BitVec.ofNat 64 (max s.now (tickStart x.target))) 0 := by
  simp only [reachTimeWait, hw, hx]
  rfl

theorem expireWait_of_deadline {s : State} {r : WaitRef} {t : Nat} (h : deadlineOf s r = some t) :
    expireWait s r = settle (endTick (s.arriveAt t)) := by
  simp only [expireWait, h]

/-- A tick evaluated up to now ends with the evaluation of its waits, and the next begins (R107). -/
theorem endTick_of_evaluated {s : State} (h : s.now ≤ s.sync.tickAt) :
    endTick s = freshTick ((evaluateTick s s.now).arriveAt (s.now + 16)) (max s.now (tickStart (s.now + 16))) := by
  have next : ((evaluateTick s s.now).arriveAt (s.now + 16)).now = max s.now (tickStart (s.now + 16)) :=
    congrArg (fun x : TimeUnit => max x.now (tickStart (s.now + 16))) (evaluateTick_time s s.now)
  simp only [endTick, catchUp_of_evaluated h, next]

theorem expireHead_of_due {s : State} {q t d : Nat} {x : Started} (h : headDeadline s q = some (x, d))
    (ht : tickStart d ≤ t) : expireHead t s q = endEntry s q x.seq St.waitTimeout 0 0 := by
  simp only [expireHead, h, ht, if_true]

theorem expireHeld_of_due {s : State} {w : Wait} {qp msn t d : Nat} (hw : w.who = .held qp msn)
    (hd : w.deadline = some d) (ht : tickStart d ≤ t) : expireHeld t s w = endWait s w St.waitTimeout 0 := by
  simp only [expireHeld, hw, hd, ht, if_true]

theorem beginLull_of_find {s : State} {q : Nat} {w : WorkQueue} (hw : s.queues.find q = some w) :
    beginLull s q = (s.modQueue q (fun w => { w with lull := true })).modWin w.inst
      (fun v => { v with lulls := wrap 32 (v.lulls + 1) }) := by
  simp only [beginLull, hw]

theorem lullDue_of_waiting {s : State} {q t : Nat} {w : WorkQueue} (hw : s.queues.find q = some w)
    (hsince : w.waitSince = some t) (hst : w.st = .waiting) (hreason : w.reason = .sync ∨ w.reason = .time)
    (hlull : w.lull = false) : lullDue s q = beginLull (s.arriveAt (t + lullNs s)) q := by
  simp [lullDue, hw, hsince, hst, hreason, hlull]

/-- Settles O11: a wait ends by its own equation, a deadline by the end of its tick, whose evaluation takes no time. -/
theorem queueWaitsTimeWaitsDeadlinesAndLulls : Obligations.QueueWaitsTimeWaitsDeadlinesAndLulls := by
  intro s q
  refine ⟨fun w x h hmet => next_runEntry h (runWaitQueue_of_met hmet w),
    fun w x h hreached => next_runEntry h (runTimeWait_of_reached hreached q.toNat w),
    fun w x h hahead hshort => next_runEntry h
      ((runTimeWait_of_ahead hahead q.toNat w).trans (if_neg (Nat.not_le.mpr hshort))),
    fun w x h hahead hlong => next_runEntry h ((runTimeWait_of_ahead hahead q.toNat w).trans (if_pos hlong)),
    fun w x t hw hx ht => ?_, fun x t hx => ?_, fun qp msn w t hw ht => ?_, fun t hnow ht => ?_,
    fun t u hu => ?_, fun x t d hx ht => expireHead_of_due hx ht,
    fun w t d qp msn hw hd ht => expireHeld_of_due hw hd ht, fun w t hw hsince hst hreason hlull => ?_⟩
  · rw [ht]
    exact congrArg Host.Outcome.next (reachTimeWait_of_running hw hx)
  · have due : deadlineOf s (.queue q) = some t := by simp only [deadlineOf, hx, Option.map_some]
    exact congrArg Host.Outcome.next (expireWait_of_deadline due)
  · have due : deadlineOf s (.held qp msn) = some t := by simp only [deadlineOf, hw, Option.bind_some, ht]
    exact congrArg Host.Outcome.next (expireWait_of_deadline due)
  · rw [ht]
    exact ⟨_, _, endTick_of_evaluated hnow, rfl, rfl⟩
  · rw [hu]
    exact ⟨_, rfl, rfl⟩
  · have hw' : (s.arriveAt (t + lullNs s)).queues.find q.toNat = some w := hw
    exact congrArg Host.Outcome.next
      ((lullDue_of_waiting hw hsince hst hreason hlull).trans (beginLull_of_find hw'))

end Sys2Proof.Machine
end

section
/-! ## Steps of collectives that start and end (chapter 6) -/

namespace Sys2Proof.Machine

/-- The ranges a COLL_STEP reads, in the order it reads them: the input to be combined with the others first, or this
member's chunk for HALF 2 (R92, R171). -/
def stepInputs (x : Started) : List Xlat :=
  let ins := x.xlats.take (x.xlats.length - 1)
  if x.entry.half = 2 then ins else ins.drop (ins.length - 1) ++ ins.take (ins.length - 1)

/-- The step of an entry is open on its slot, and its streams start (R187). -/
def stepOpened (s : State) (q : Nat) (x : Started) (d : Descriptor) : State :=
  forEach streamKeys (openRun (markRan s q x.seq) x.entry.slot q x d (stepInputs x) x.xlats.getLast?)
    (fun s k => rescan s x.entry.slot k)

/-- A COLL_STEP on a slot that can run it opens the step, takes its inputs and feeds its streams (R168, R187). -/
theorem runCollStep_of_free {s : State} {q : Nat} {x : Started} {d : Descriptor} {r : Run}
    (hdesc : (s.slot x.entry.slot).desc = some d) (hgood : (s.slot x.entry.slot).cond ≠ .fault)
    (hfront : missedLike s = false) (hfree : (s.slot x.entry.slot).run = none)
    (hreach : ∀ y ∈ x.xlats, xlatHeld s y = false)
    (hrun : ((stepOpened s q x d).slot x.entry.slot).run = some r) (w : WorkQueue) :
    runCollStep s q w x = pump (if r.half = 2 then beginGather (stepOpened s q x d) x.entry.slot d r
      else beginReduce (stepOpened s q x d) x.entry.slot d r) x.entry.slot := by
  have gate : (missedLike s || (s.slot x.entry.slot).run.isSome
      || x.xlats.any (fun y => xlatHeld s y && !xlatLost s y)) = false := by
    simp only [hfront, hfree, Option.isSome_none, Bool.false_or, List.any_eq_false]
    exact fun y hy => by simp [hreach y hy]
  unfold stepOpened stepInputs at hrun
  simp only [runCollStep, hdesc, beq_eq_false_iff_ne.mpr hgood, gate, Bool.false_eq_true, if_false, hrun]
  rfl

/-- A step that is whole leaves its slot IDLE and ends its entry OK with its number (R92, R178). -/
theorem completeStep_of_whole {s : State} {n : Nat} {d : Descriptor} {r : Run} (hdesc : (s.slot n).desc = some d)
    (hrun : (s.slot n).run = some r) (hfront : missedLike s = false) (hwhole : stepWhole s n d r = true) :
    completeStep s n = settleSlot (endEntry (s.modSlot n (fun x => { x with
      cond := .idle, run := none, nextStep := wrap 32 (x.nextStep + 1), stepsOk := wrap 32 (x.stepsOk + 1) }))
      r.q r.seq St.ok (BitVec.ofNat 64 r.step) 0) n := by
  simp only [completeStep, hdesc, hrun, hfront, hwhole, Bool.not_true, Bool.or_self, Bool.false_eq_true, if_false]

/-- A step limit of at least one microsecond ends the step that long after its start (R185, R188). -/
theorem stepLimit_of_running {s : State} {n : Nat} {d : Descriptor} {r : Run} (hdesc : (s.slot n).desc = some d)
    (hrun : (s.slot n).run = some r) (hlimit : 0 < d.stepLimit) :
    stepLimit s n = endStep (s.arriveAt (r.startAt + d.stepLimit * 1000)) n St.waitTimeout (missingPeer s n d r).1
      (missingPeer s n d r).2 := by
  simp only [stepLimit, hdesc, hrun, Nat.ne_of_gt hlimit, if_false]

/-- Settles O18: a step starts on a slot that is free for it, and ends whole or at its limit. -/
theorem collectiveStepsStartAndEnd : Obligations.CollectiveStepsStartAndEnd := by
  intro s
  refine ⟨fun q w x n d ins u r h hn hdesc hgood hfront hfree hreach hins hu hr => ?_,
    fun slot d r hdesc hrun hfront hwhole => ?_, fun slot d r hdesc hrun hlimit => ?_⟩
  · subst hn hins
    have opened : u = stepOpened s q.toNat x d := hu
    rw [opened] at hr ⊢
    have started := runCollStep_of_free hdesc hgood hfront hfree hreach hr w
    have ran : runEntry s q.toNat 0x20 (fun s => runCollStep s q.toNat) = _ :=
      (runEntry_of_next h _).trans (congrArg settle started)
    exact congrArg (fun t => Host.Outcome.next (stepBoundary t)) ran
  · exact congrArg (fun t => Host.Outcome.next (settleSteps (flushAcks t)))
      (completeStep_of_whole hdesc hrun hfront hwhole)
  · exact congrArg (fun t => Host.Outcome.next (settleSteps t)) (stepLimit_of_running hdesc hrun hlimit)

end Sys2Proof.Machine
end

section
/-! ## Watches, fences and completions on the board (chapter 10) -/

namespace Sys2Proof.Machine

/-- A line that the companion of an UP link writes arrives, and its watches end with a look by their queues (R278). -/
theorem snooped_of_up {s : State} {l : Nat} (hup : (s.link l).cond = .up) (addr : Nat) (bs : List Byte) :
    snooped s l addr bs = settle (forEach (((s.link l).watches.filter (fun w => w.1 == addr / 64)).map (·.2))
      ((boardLine s l (addr / 64 * 64) bs).modLink l (fun k => { k with
        watches := k.watches.filter (fun w => w.1 != addr / 64) })) serveHead) := by
  simp only [snooped, hup, bne_self_eq_false, Bool.false_eq_true, if_false]

/-- A queue without a watch on the board line it waits for reads it again a microsecond on (R278). -/
theorem pollHead_of_unwatched {s : State} {q : Nat} {w : WorkQueue} {x : Xlat} (hw : s.queues.find q = some w)
    (hx : x = headSlot s w) (hst : w.st = .waiting) (hreason : w.reason = .early) (hboard : x.board = true)
    (hwatch : ∀ c ∈ (s.link x.link).watches, c.2 ≠ q) :
    pollHead s q = settle (serveHead ((s.arriveAt (s.now + 1000)).modLink x.link (fun k => { k with
      watchFull := wrap 17 (k.watchFull + 1) })) q) := by
  subst hx
  have unwatched : ((s.link (headSlot s w).link).watches.any (fun c => c.2 == q)) = false := by
    simpa [List.any_eq_false] using hwatch
  simp only [pollHead, hw, hst, hreason, hboard, unwatched, bne_self_eq_false, Bool.not_true, Bool.or_self,
    Bool.false_eq_true, if_false]

theorem fenced_of_arrives {s : State} {l : Nat} (h : arrives s l = true) : fenced s l = s.sent (.cmp l) := by
  simp [fenced, h]

/-- A completion ends the oldest request, and brings the line of a read that succeeds (R275, R287). -/
theorem completed_of_oldest {s : State} {l : Nat} {r : BoardReq} {rest : List BoardReq} (hup : (s.link l).cond = .up)
    (hreqs : (s.link l).reqs = r :: rest) (err : Bool) (bs : List Byte) :
    completed s l err bs = if r.write || err then s.modLink l (fun k => { k with reqs := rest })
      else boardLine (s.modLink l (fun k => { k with reqs := rest })) l (r.addr / 64 * 64) bs := by
  simp only [completed, hup, hreqs]

/-- Settles O30: each packet of the companion has its own equation on a link that carries it. -/
theorem watchesFencesAndCompletions : Obligations.WatchesFencesAndCompletions := by
  intro s pl l hl
  subst hl
  refine ⟨fun addr data n qs hup hn hqs => ?_, fun q w x hw hx hst hreason hboard hwatch => ?_,
    fun h => congrArg Host.Outcome.next (fenced_of_arrives h), fun err data r rest u hup hreqs hu => ?_⟩
  · subst hn hqs
    exact congrArg Host.Outcome.next (snooped_of_up hup addr.toNat (lineBytes data))
  · exact congrArg Host.Outcome.next (pollHead_of_unwatched hw hx hst hreason hboard hwatch)
  · subst hu
    have ended := completed_of_oldest hup hreqs err (lineBytes data)
    refine ⟨fun hdone => congrArg Host.Outcome.next (ended.trans (if_pos (by simpa using hdone))),
      fun hread herr => congrArg Host.Outcome.next (ended.trans (if_neg (by simp [hread, herr])))⟩

end Sys2Proof.Machine
end

section
/-! ## Additions to semaphores (chapter 4) -/

namespace Sys2Proof.Machine

/-- A semaphore with room for the amount takes it, and the value before is told (R105). -/
theorem addSem_of_fits {s u : State} {id n rank : Nat} (hu : u = takeTurn s id rank)
    (hfits : objVal u id + n < 2 ^ 32) : addSem s id n rank = (setObj u id (objVal u id + n), some (objVal u id)) := by
  subst hu
  simp only [addSem, semFits, hfits, decide_true, if_true]

/-- A semaphore without room for the amount only has its turn taken (R105). -/
theorem addSem_of_overflow {s u : State} {id n rank : Nat} (hu : u = takeTurn s id rank)
    (hover : 2 ^ 32 ≤ objVal u id + n) : addSem s id n rank = (u, none) := by
  subst hu
  simp only [addSem, semFits, Nat.not_lt.mpr hover, decide_false, Bool.false_eq_true, if_false]

/-- In a tick evaluated so far, a turn that is not too late leaves every object (R107). -/
theorem objVal_takeTurn {s : State} {id rank : Nat} (hnow : s.now ≤ s.sync.tickAt)
    (hrank : s.sync.ranks.findD id 0 ≤ rank) (o : Nat) : objVal (takeTurn s id rank) o = objVal s o := by
  simp only [takeTurn, catchUp_of_evaluated hnow, Nat.not_lt.mpr hrank, if_false]
  rfl

/-- An entry that ends leaves the waits, and changes no object. -/
theorem endEntry_values (s : State) (q seq status : Nat) (result : Word) (detail : BitVec 32) :
    (endEntry s q seq status result detail).sync.values = s.sync.values := by
  unfold endEntry
  split
  · rfl
  · split <;> rfl

theorem runSemAdd_of_fits {s u : State} {x : Started} {q n : Nat} (hlocal : x.entry.isRemote = false)
    (hlive : (s.granule (granOf x.entry.id)).orphan = false) (hn : n = fld x.entry.w5 31 0)
    (hu : u = takeTurn s x.entry.id (localRank q)) (hfits : objVal u x.entry.id + n < 2 ^ 32) (w : WorkQueue) :
    runSemAdd s q w x = endEntry (setObj u x.entry.id (objVal u x.entry.id + n)) q x.seq St.ok
      (BitVec.ofNat 64 (objVal u x.entry.id)) 0 := by
  subst hn
  simp only [runSemAdd, hlocal, objectGone_of_live hlive, addSem_of_fits hu hfits, Bool.false_eq_true, if_false]

theorem runSemAdd_of_overflow {s u : State} {x : Started} {q n : Nat} (hlocal : x.entry.isRemote = false)
    (hlive : (s.granule (granOf x.entry.id)).orphan = false) (hn : n = fld x.entry.w5 31 0)
    (hu : u = takeTurn s x.entry.id (localRank q)) (hover : 2 ^ 32 ≤ objVal u x.entry.id + n) (w : WorkQueue) :
    runSemAdd s q w x = endEntry u q x.seq St.semOverflow 0 0 := by
  subst hn
  simp only [runSemAdd, hlocal, objectGone_of_live hlive, addSem_of_overflow hu hover, Bool.false_eq_true, if_false]

/-- Settles O10: the turn in the tick gives the value that the amount is added to, and whether the sum fits decides. -/
theorem semAddAddsOrEndsInOverflow : Obligations.SemAddAddsOrEndsInOverflow := by
  intro s u q w x n h hlocal hlive hn hu
  refine ⟨fun hnow hrank => ?_, fun hfits => ?_,
    fun hover => ⟨?_, endEntry_values u q.toNat x.seq St.semOverflow 0 0⟩⟩
  · rw [hu]
    exact objVal_takeTurn hnow hrank x.entry.id
  · exact ⟨_, next_runEntry h (runSemAdd_of_fits hlocal hlive hn hu (by omega) w), rfl,
      objVal_setObj_same u x.entry.id _⟩
  · exact next_runEntry h (runSemAdd_of_overflow hlocal hlive hn hu (by omega) w)

end Sys2Proof.Machine
end

section
/-! ## Commands of the sync memory (chapter 4) -/

namespace Sys2Proof.Machine

/-! ### Granules initialized and shared -/

/-- A change of cell `k` that keeps whether the cell meets `p` keeps the number of the first cell that does, where that
number is `k` or there is none. -/
theorem Tbl.find?_insertCell_fst {α : Type} {p : α → Bool} {k : Nat} {v d : α} {l : List (Nat × α)} (hd : p d = false)
    (hv : p v = p ((lookup k l).getD d)) (hfirst : ∀ c, l.find? (fun c => p c.2) = some c → c.1 = k) :
    ((insertCell k v l).find? (fun c => p c.2)).map Prod.fst = (l.find? (fun c => p c.2)).map Prod.fst := by
  induction l with
  | nil => simp_all [insertCell, lookup]
  | cons c rest ih =>
    obtain ⟨j, w⟩ := c
    unfold insertCell
    split
    · cases hp : p v with
      | false => simp only [List.find?_cons, hp]
      | true =>
        obtain ⟨u, hu⟩ : ∃ u, lookup k ((j, w) :: rest) = some u := by
          cases hl : lookup k ((j, w) :: rest) with
          | none => simp_all
          | some u => exact ⟨u, rfl⟩
        have met : p u = true := by simpa [hu, hp] using hv.symm
        obtain ⟨x, hx, rfl⟩ := List.mem_map.mp (mem_vals_of_find (t := ⟨(j, w) :: rest⟩) hu)
        obtain ⟨y, hy⟩ := Option.isSome_iff_exists.mp
          ((List.find?_isSome (p := fun c => p c.2)).mpr ⟨x, hx, met⟩)
        simp only [hy, Option.map_some, hfirst y hy, List.find?_cons, hp]
    · split
      · rename_i hkj
        subst hkj
        have same : p v = p w := by simpa [lookup] using hv
        simp only [List.find?_cons, same]
        cases p w <;> rfl
      · rename_i hkj
        cases hp : p w with
        | true => simp only [List.find?_cons, hp]
        | false =>
          simp only [List.find?_cons, hp, lookup, if_neg (Ne.symm hkj)] at hfirst hv ⊢
          exact ih hv hfirst

/-- A change of a window leaves the resources beside it, and with them the granules owned (R98). -/
theorem granOwner_modWin {s : State} {i g : Nat} (h : granOwner s g = some i) (f : Window → Window) :
    granOwner (s.modWin i f) g = some i := by
  have first : ∀ c, s.insts.cells.find? (fun c => covers c.2.res 0x04 g) = some c → c.1 = i := by
    intro c hc
    simpa only [granOwner, hc, Option.some.injEq] using h
  have kept := Tbl.find?_insertCell_fst (p := fun x : Inst => covers x.res 0x04 g) (k := i) (d := Inst.reset)
    (v := { s.inst i with win := f (s.inst i).win }) rfl rfl first
  change ((s.modWin i f).insts.cells.find? (fun c => covers c.2.res 0x04 g)).map Prod.fst = _ at kept
  cases hs : s.insts.cells.find? (fun c => covers c.2.res 0x04 g) with
  | some c =>
    rw [hs, Option.map_some] at kept
    obtain ⟨c', hc', hfst⟩ := Option.map_eq_some_iff.mp kept
    simp only [granOwner, hc', hfst, first c hs]
  | none =>
    rw [hs, Option.map_none, Option.map_eq_none_iff] at kept
    simp only [granOwner, hs] at h
    simp only [granOwner, kept]
    exact h

theorem ownsGran_iff {s : State} {i g : Nat} : ownsGran s i g = true ↔
    granOwner s g = some i ∧ (s.granule g).orphan = false ∧ (s.granule g).unnamed = false := by
  simp [ownsGran, and_assoc]

theorem ownsGran_modWin {s : State} {i g : Nat} (h : ownsGran s i g = true) (f : Window → Window) :
    ownsGran (s.modWin i f) i g = true := by
  obtain ⟨howner, hlive⟩ := ownsGran_iff.mp h
  exact ownsGran_iff.mpr ⟨granOwner_modWin howner f, hlive⟩

/-- INIT by the owner of the selected granule, with no claim and no wait on it, is done with OK (R100). -/
theorem granCommand_init {s : State} {i g : Nat} {v : Word} (hg : g = (s.inst i).win.gSel) (hcmd : fld v 7 0 = 1)
    (howns : ownsGran s i g = true) (hclaim : planClaimsGran s g = false) (hwaits : granWaits s g = []) :
    granCommand s i v = (initGranule (s.modWin i (fun w => { w with gDone := false })) g (bit v 8)).modWin i
      (fun w => { w with gDone := true, gCode := St.ok }) := by
  subst hg
  have owns' := ownsGran_modWin howns (fun w => { w with gDone := false })
  have claim' : planClaimsGran (s.modWin i (fun w => { w with gDone := false })) (s.inst i).win.gSel = false := hclaim
  have waits' : granWaits (s.modWin i (fun w => { w with gDone := false })) (s.inst i).win.gSel = [] := hwaits
  simp [granCommand, mayName, howns, hcmd, owns', claim', waits']

/-- The share last written to a granule: the one that waits for the next tick, or the one in force (R99, R118). -/
def lastShare (s : State) (g : Nat) : BitVec 128 :=
  match (s.granule g).shareNext with
  | some x => x.1
  | none => shareOf s g

/-- The owner's write of a half of the share waits for the next tick beside the other half last written (R99, R118). -/
theorem shareWrite_of_owner {s : State} {i g : Nat} (hg : g = (s.inst i).win.gSel) (howns : ownsGran s i g = true)
    (upper : Bool) (v : Word) : shareWrite s i upper v = s.modGranule g (fun x => { x with
      share := shareOf s g
      shareNext := some (if upper then v ++ (lastShare s g).extractLsb' 0 64
        else (lastShare s g).extractLsb' 64 64 ++ v, s.now) }) := by
  subst hg
  simp only [shareWrite, howns, Bool.not_true, Bool.false_eq_true, if_false]
  rfl

/-! ### Doorbells -/

theorem syncDoorbellAt_taken {s : State} {l i : Nat} {v : Word}
    (h : taken s l (winAddr i syncDbOff) [(62, 53)] v = true) :
    syncDoorbellAt s l i v = settle (syncDoorbell s i v) := by
  have run := ctlDoorbell_taken h rfl (fun s => settle (syncDoorbell s i v))
  simp only [taken, Bool.and_eq_true, beq_iff_eq] at h
  obtain ⟨-, clear⟩ := h
  simp only [syncDoorbellAt, run, clear, bne_self_eq_false, Bool.and_false, Bool.false_eq_true, if_false]

/-- A doorbell that names an object validly adds in its turn, to a semaphore where the sum fits (R112). -/
theorem syncDoorbell_of_valid {s u : State} {i id n : Nat} {v : Word} (hid : id = fld v 52 32) (hn : n = fld v 31 0)
    (hlive : (s.granule (granOf id)).orphan = false) (hnames : namesObject s i (bit v 63) id = true)
    (hu : u = takeTurn s id doorbellRank) (hfits : bit v 63 = true → objVal u id + n < 2 ^ 32) :
    syncDoorbell s i v = setObj u id (if bit v 63 then objVal u id + n else (objVal u id + n) % 2 ^ 64) := by
  subst hid hn
  cases hsem : bit v 63 with
  | true =>
    rw [hsem] at hnames
    simp [syncDoorbell, hlive, hnames, hsem, addSem_of_fits hu (hfits hsem)]
  | false =>
    rw [hsem] at hnames
    subst hu
    simp [syncDoorbell, hlive, hnames, hsem, addCounter, wrap]

/-! ### Reclaim -/

/-- Claims that do not cover a granule are the claims without it. -/
theorem withoutGran_of_uncovered {g : Nat} {cs : List Claim} (h : covers cs 0x04 g = false) :
    withoutGran g cs = cs := by
  induction cs with
  | nil => rfl
  | cons c rest ih =>
    simp only [covers, List.any_cons, Bool.or_eq_false_iff] at h
    obtain ⟨hc, hrest⟩ := h
    simp only [withoutGran, List.flatMap_cons, hc, Bool.false_eq_true, if_false, List.singleton_append] at ih ⊢
    rw [ih hrest]

theorem covers_append {cs ds : List Claim} {kind n : Nat} :
    covers (cs ++ ds) kind n = (covers cs kind n || covers ds kind n) := List.any_append

theorem Tbl.mapCells_eq_self {α : Type} {t : Tbl α} {f : Nat → α → α} (h : ∀ k, ∀ x ∈ t.vals, f k x = x) :
    t.mapCells f = t := by
  have kept : t.cells.map (fun c => (c.1, f c.1 c.2)) = t.cells.map id :=
    List.map_congr_left (fun c hc => by rw [h c.1 c.2 (List.mem_map_of_mem hc)]; rfl)
  rw [List.map_id] at kept
  exact congrArg Tbl.mk kept

/-- An orphaned granule that nothing holds or claims returns to the pool (R115). -/
theorem reclaim_of_unheld {s : State} {g : Nat} (hg : g < 128) (horphan : (s.granule g).orphan = true)
    (hres : ∀ x ∈ s.insts.vals, covers x.res 0x04 g = false)
    (hclaim : covers (activeClaims s ++ s.plans.oldClaims) 0x04 g = false) :
    reclaim s g = (poolGranule s g, St.ok) := by
  rw [covers_append, Bool.or_eq_false_iff] at hclaim
  obtain ⟨hactive, hold⟩ := hclaim
  have insts : s.insts.mapCells (fun _ x => { x with res := withoutGran g x.res }) = s.insts :=
    Tbl.mapCells_eq_self (fun _ x hx => by rw [withoutGran_of_uncovered (hres x hx)])
  have kept : (s.modInsts (fun t => t.mapCells (fun _ x => { x with res := withoutGran g x.res }))).modPlans
      (fun x => { x with oldClaims := withoutGran g x.oldClaims }) = s := by
    simp only [State.modInsts, State.modPlans, insts, withoutGran_of_uncovered hold]
  have unclaimed : (activeClaims s).find? (fun c => c.kind == 0x04 && within g 1 c.first c.count) = none :=
    List.find?_eq_none.mpr (by simpa [covers] using hactive)
  simp only [reclaim, kept, unclaimed, horphan, Nat.not_le.mpr hg, Bool.not_true, Bool.false_eq_true, or_self, if_false]

theorem poolTurn_of_no_load {s : State} (h : s.plans.nextCond ≠ .loading) : poolTurn s = s := by
  unfold poolTurn endLoad
  split
  · exact absurd ‹_› h
  · rfl

/-- A table keeps the cells whose numbers it is asked to keep, as they are. -/
theorem Tbl.find_keep {α : Type} (t : Tbl α) (p : Nat → Bool) (k : Nat) :
    (t.keep (fun j _ => p j)).find k = if p k then t.find k else none := by
  obtain ⟨l⟩ := t
  simp only [Tbl.keep, Tbl.find]
  induction l with
  | nil => simp [lookup]
  | cons c rest ih =>
    obtain ⟨j, w⟩ := c
    by_cases hj : j = k
    · subst hj
      cases hp : p j <;> simp_all [lookup]
    · cases hp : p j <;> simp [lookup, hp, hj, ih]

/-- A granule that is initialized holds zeros, and no other object changes (R100). -/
theorem objVal_initGranule {s : State} (hnow : s.now ≤ s.sync.tickAt) (g : Nat) (sem : Bool) (id : Nat) :
    objVal (initGranule s g sem) id = if granOf id = g then 0 else objVal s id := by
  have kept := Tbl.find_keep s.sync.values (fun j => granOf j != g) id
  simp only [initGranule, catchUp_of_evaluated hnow, objVal, State.modGranule_sync, State.modSync_sync, Tbl.findD, kept]
  by_cases hid : granOf id = g <;> simp [hid]

/-- Returning a granule to the pool changes nothing but the sync memory. -/
theorem poolGranule_onlySync {s : State} (hnow : s.now ≤ s.sync.tickAt) (g : Nat) :
    poolGranule s g = { s with sync := (poolGranule s g).sync } := by
  simp only [poolGranule, initGranule, catchUp_of_evaluated hnow]
  rfl

theorem objVal_poolGranule {s : State} (hnow : s.now ≤ s.sync.tickAt) (g id : Nat) :
    objVal (poolGranule s g) id = if granOf id = g then 0 else objVal s id :=
  objVal_initGranule hnow g false id

/-- A granule of the pool is in counter mode and shared with nobody (R101, R115). -/
theorem granule_poolGranule (s : State) (g : Nat) : (poolGranule s g).granule g = ⟨false, false, false, 0, none⟩ := by
  simp [poolGranule, initGranule]

theorem granule_modGranule_ne (s : State) {g h : Nat} (f : Granule → Granule) (hne : h ≠ g) :
    (s.modGranule g f).granule h = s.granule h := Tbl.findD_modifyD_ne _ _ _ _ hne

theorem granule_poolGranule_ne {s : State} (hnow : s.now ≤ s.sync.tickAt) {g h : Nat} (hne : h ≠ g) :
    (poolGranule s g).granule h = s.granule h := by
  simp only [poolGranule, initGranule, catchUp_of_evaluated hnow, granule_modGranule_ne _ _ hne]
  rfl

/-- A posted SYNC_RECLAIM of a granule that nothing holds or claims answers OK from the pool (R115). -/
theorem exec_syncReclaim_of_posted {s : State} {d : Door} {link : BitVec 2} {g : Nat}
    (h : posted s d link.toNat 0x0030 1 true = true) (hg : g = reqFld s d 8 1) (hbound : g < 128)
    (hload : s.plans.nextCond ≠ .loading) (horphan : (s.granule g).orphan = true)
    (hres : ∀ x ∈ s.insts.vals, covers x.res 0x04 g = false)
    (hclaim : covers (activeClaims s ++ s.plans.oldClaims) 0x04 g = false) :
    exec (.syncReclaim d link) s = .next (answer (poolGranule (took s d) g) d St.ok []) := by
  have run := mailRow_posted h (vs := [1]) rfl (fun s => answerSt d (reclaim (poolTurn s) (reqFld s d 8 1)))
  rw [took_reqFld, ← hg, poolTurn_of_no_load (s := took s d) hload,
    reclaim_of_unheld (s := took s d) hbound horphan hres hclaim] at run
  exact congrArg Host.Outcome.next run

/-- Settles O12: each register write and each request runs its own equation, on the granule or object it names. -/
theorem syncMemoryCommands : Obligations.SyncMemoryCommands := by
  intro s link inst v
  refine ⟨fun g htaken hg hcmd howns hclaim hwaits => ?_, fun g last htaken hg howns hlast => ?_,
    fun g last htaken hg howns hlast => ?_, fun id n u htaken hid hn hlive hnames hu hfits => ?_,
    fun d g hposted hg hbound hload horphan hres hclaim hnow => ?_, fun g => rfl⟩
  · exact congrArg Host.Outcome.next ((ctlWrite_taken htaken _).trans (granCommand_init hg hcmd howns hclaim hwaits))
  · subst hlast
    exact congrArg Host.Outcome.next ((ctlWrite_taken htaken _).trans (shareWrite_of_owner hg howns false v))
  · subst hlast
    exact congrArg Host.Outcome.next ((ctlWrite_taken htaken _).trans (shareWrite_of_owner hg howns true v))
  · exact congrArg Host.Outcome.next ((syncDoorbellAt_taken htaken).trans
      (congrArg settle (syncDoorbell_of_valid hid hn hlive hnames hu hfits)))
  · have hnow' : (took s d).now ≤ (took s d).sync.tickAt := hnow
    have pooled := granule_poolGranule (took s d) g
    refine ⟨poolGranule (took s d) g, exec_syncReclaim_of_posted hposted hg hbound hload horphan hres hclaim,
      poolGranule_onlySync hnow' g, by rw [pooled], by rw [pooled], by rw [pooled], by rw [pooled], fun id hid => ?_,
      fun id hid => ?_, fun h hne => granule_poolGranule_ne hnow' hne⟩
    · rw [objVal_poolGranule hnow', if_pos hid]
    · rw [objVal_poolGranule hnow', if_neg hid]
      rfl

end Sys2Proof.Machine
end

section
/-! ## Requests that a responder expects, acknowledgements owed, and contexts fetched (chapter 5) -/

namespace Sys2Proof.Machine

/-! ### The gates of R127 -/

theorem comesIn_iff {s : State} {p : ZtpPacket} {typ : Byte} : comesIn s p typ = true ↔
    s.inService = true ∧ p.typ = typ ∧ p.ecrcOk = true ∧ zeroBroken p = false := by
  simp [comesIn, and_assoc]

theorem typ_of_comesIn {s : State} {p : ZtpPacket} {typ : Byte} (h : comesIn s p typ = true) : p.typ = typ := by
  obtain ⟨-, htyp, -⟩ := comesIn_iff.mp h
  exact htyp

/-- A packet that comes in whole leaves the packets delivered, and its row runs (R121 to R123). -/
theorem pktGate_of_comesIn {s : State} {p : ZtpPacket} {typ : Byte} (h : comesIn s p typ = true) (arr : Arrival)
    (run : State → State) : pktGate s arr p typ run = run (takeInbox s arr (.ztp p)) := by
  obtain ⟨hserve, htyp, hecrc, hzero⟩ := comesIn_iff.mp h
  simp [pktGate, hserve, htyp, hecrc, hzero]

/-- What `forResponder` says, one fact each. -/
theorem forResponder_iff {u : State} {arr : Arrival} {p : ZtpPacket} : forResponder u arr p = true ↔
    fromFarEnd u arr p = true ∧ (u.qp p.dstQp.toNat).resident = true ∧ arr.ce = false
      ∧ p.psn.toNat = (u.qp p.dstQp.toNat).epsn ∧ (u.qp p.dstQp.toNat).epsn < 2 ^ 32 := by
  simp [forResponder, and_assoc]

theorem fromFarEnd_iff {u : State} {arr : Arrival} {p : ZtpPacket} : fromFarEnd u arr p = true ↔
    ((u.qp p.dstQp.toNat).st = .opened ∨ (u.qp p.dstQp.toNat).st = .draining)
      ∧ fromPeer u arr (u.qp p.dstQp.toNat) p = true ∧ connMatch (u.qp p.dstQp.toNat) p = true
      ∧ sealOk (u.qp p.dstQp.toNat) p = true := by
  simp [fromFarEnd, and_assoc]

theorem dmod_self {w n : Nat} (h : n < 2 ^ w) : dmod w n n = 0 := by
  simp [dmod, Nat.mod_eq_of_lt h]

/-- A QP that is used keeps everything but the time of its last use. -/
theorem qp_touchQp (s : State) (q : Nat) : (touchQp s q).qp q = { s.qp q with lastUse := s.tp.uses } := by
  simp only [touchQp, qp_modQp]
  rfl

theorem maybeCnp_of_unmarked {arr : Arrival} (h : arr.ce = false) (s : State) (q : Nat) (p : ZtpPacket) :
    maybeCnp s arr q p = s := by
  simp [maybeCnp, h]

/-- The packet expected next, its seal right and not marked CE, is taken with its SEAL number (R127). -/
theorem takeOpened_of_expected {s : State} {arr : Arrival} {q : Nat} {p : ZtpPacket} (hseal : sealOk (s.qp q) p = true)
    (hce : arr.ce = false) (hpsn : p.psn.toNat = (s.qp q).epsn) (hepsn : (s.qp q).epsn < 2 ^ 32) (port : Nat) :
    takeOpened s arr q port p = takeExpected
      (s.modQp q (fun k => { k with sealRx := if p.sealedBit then p.sealNo.toNat else k.sealRx })) arr q port p := by
  simp only [takeOpened, hseal, maybeCnp_of_unmarked hce, hpsn, dmod_self hepsn, Bool.not_true, Bool.false_eq_true,
    if_false, if_true]

/-- A request from the far end of a QP that is open goes on to its seal (R127 steps 3 and 4). -/
theorem takeRequest_of_farEnd {s : State} {arr : Arrival} {p : ZtpPacket} (h : fromFarEnd s arr p = true) :
    takeRequest s arr p
      = takeOpened s arr p.dstQp.toNat (arrPort s arr p.dstQp.toNat) p := by
  obtain ⟨hst, hpeer, hconn, -⟩ := fromFarEnd_iff.mp h
  rcases hst with hst | hst <;> simp [takeRequest, hst, hpeer, hconn]

theorem fromFarEnd_touchQp {u : State} {arr : Arrival} {p : ZtpPacket} (h : fromFarEnd u arr p = true) :
    fromFarEnd (touchQp u p.dstQp.toNat) arr p = true := by
  obtain ⟨hst, hpeer, hconn, hseal⟩ := fromFarEnd_iff.mp h
  refine fromFarEnd_iff.mpr ?_
  rw [qp_touchQp]
  exact ⟨hst, hpeer, hconn, hseal⟩

/-- The request that the responder expects is taken as the packet after those placed (R127). -/
theorem requestGate_of_expected {s u : State} {arr : Arrival} {p : ZtpPacket} {typ : Byte}
    (hu : u = takeInbox s arr (.ztp p)) (hin : comesIn s p typ = true) (h : forResponder u arr p = true) :
    requestGate s arr p typ = settle (takeExpected (requestTaken u p) arr p.dstQp.toNat
      (arrPort (touchQp u p.dstQp.toNat) arr p.dstQp.toNat) p) := by
  obtain ⟨hfar, hres, hce, hpsn, hepsn⟩ := forResponder_iff.mp h
  have far := fromFarEnd_touchQp hfar
  obtain ⟨-, -, -, hseal⟩ := fromFarEnd_iff.mp far
  have opened := takeOpened_of_expected hseal hce (by rw [qp_touchQp]; exact hpsn) (by rw [qp_touchQp]; exact hepsn)
    (arrPort (touchQp u p.dstQp.toNat) arr p.dstQp.toNat)
  subst hu
  simp only [requestGate, pktGate_of_comesIn hin, hres, if_true, takeRequest_of_farEnd far, opened]
  rfl

/-- The state after the request that the responder expects, whose taking leaves `t` whatever port it counts in. -/
theorem next_requestGate {s u t : State} {arr : Arrival} {p : ZtpPacket} {typ : Byte}
    (hu : u = takeInbox s arr (.ztp p)) (hin : comesIn s p typ = true) (h : forResponder u arr p = true)
    (ht : ∀ port, takeExpected (requestTaken u p) arr p.dstQp.toNat port p = t) :
    (.next (requestGate s arr p typ) : Host.Outcome State Fault Refusal) = .next (settle t) :=
  congrArg Host.Outcome.next ((requestGate_of_expected hu hin h).trans (congrArg settle (ht _)))

/-! ### The expected packet -/

/-- A packet begins a message above APPLIED_MSN on a QP that is part-way through none (R129). -/
structure BeginsMessage (k : Qp) (p : ZtpPacket) : Prop where
  first : p.typ = 0x01 → p.first = true
  free : k.cur = none
  above : 1 ≤ dmod 32 p.msn.toNat k.applied
  below : dmod 32 p.msn.toNat k.applied < 2 ^ 31

/-- The branches of `takeExpected` that a packet which begins a message does not take. -/
theorem BeginsMessage.gates {k : Qp} {p : ZtpPacket} (h : BeginsMessage k p) :
    ¬ (p.typ = 0x01 ∧ (!p.first) = true)
      ∧ (k.cur.isSome
        || decide (dmod 32 p.msn.toNat k.applied = 0 ∨ dmod 32 p.msn.toNat k.applied ≥ 2 ^ 31)) = false := by
  obtain ⟨hfirst, hfree, habove, hbelow⟩ := h
  refine ⟨fun ⟨htyp, hnot⟩ => by simp [hfirst htyp] at hnot, ?_⟩
  rw [hfree, Option.isSome_none, Bool.false_or, decide_eq_false_iff_not]
  omega

/-- A message whose range passes its checks and can be reached is placed, or read (R127, R252, R253). -/
theorem takeExpected_of_range {v w : State} {arr : Arrival} {q : Nat} {p : ZtpPacket} {x : Xlat}
    (hbegins : BeginsMessage (v.qp q) p) (hcheck : checkTarget v arr q p = (w, .range x))
    (hreach : targetHeld w (some x) = false) (port : Nat) :
    takeExpected v arr q port p = if p.typ = 0x01
      then placeWrite (holdXlat w x) arr q (applyingOf p (v.qp q).ident.pmtu (some x) none) p
      else runReadReq w q p (.range x) true := by
  obtain ⟨hfirst, hfresh⟩ := hbegins.gates
  simp only [takeExpected, hfirst, hfresh, hcheck, hreach, Bool.false_eq_true, if_false]

/-- A sync message on an object that it may use is applied (R109, R127). -/
theorem takeExpected_of_object {v w : State} {arr : Arrival} {q : Nat} {p : ZtpPacket} {b : SyncBlock}
    (hbegins : BeginsMessage (v.qp q) p) (hcheck : checkTarget v arr q p = (w, .object)) (hbody : p.body = .sync b)
    (port : Nat) : takeExpected v arr q port p = applySync w arr q port p b := by
  obtain ⟨hfirst, hfresh⟩ := hbegins.gates
  simp only [takeExpected, hfirst, hfresh, hcheck, hbody, Bool.false_eq_true, if_false]

/-- A remote SIGNAL adds in its turn, and is answered OK with the new value (R102, R110). -/
theorem applySync_signal {w t : State} {arr : Arrival} {b : SyncBlock} {n : Nat} (hop : b.op = 0)
    (ht : t = takeTurn w b.id.toNat (remoteRank arr.port))
    (hn : n = (objVal t b.id.toNat + b.value.toNat) % 2 ^ 64) (q port : Nat) (p : ZtpPacket) :
    applySync w arr q port p b = answerSync (setObj t b.id.toNat n) q p St.ok (BitVec.ofNat 64 n) := by
  have added : addCounter w b.id.toNat b.value.toNat (remoteRank arr.port) = setObj t b.id.toNat n := by
    subst ht hn
    rfl
  simp only [applySync, hop, if_true, added, objVal_setObj_same]

/-! ### Acknowledgements and contexts -/

/-- The message that an acknowledgement owed names: the one being placed, or the last applied (R128, R129). -/
def owedMsn (k : Qp) : Nat :=
  match k.cur with
  | some a => a.msn
  | none => k.applied

/-- An open or draining QP that owes an acknowledgement gives it when its delay has passed (R128). -/
theorem ackDelayed_of_owed {s : State} {q t : Nat} (howed : (s.qp q).firstUnacked = some t)
    (hst : (s.qp q).st = .opened ∨ (s.qp q).st = .draining) :
    ackDelayed s q = giveAck (s.arriveAt (t + ackDelayNs (s.qp q).ident)) q (dmod 32 (s.qp q).epsn 1)
      (owedMsn (s.qp q)) 0 (s.qp q).lastTs := by
  have carrying : ((s.qp q).st == .opened || (s.qp q).st == .draining) = true := by
    rw [Bool.or_eq_true, beq_iff_eq, beq_iff_eq]
    exact hst
  simp only [ackDelayed, howed, carrying, Bool.not_true, Bool.false_eq_true, if_false]
  rfl

/-- Packets for a QP that a die's miss buffer holds. -/
def missOf (q : Nat) (d : DieCounts) : List (Nat × Arrival × ZtpPacket) :=
  d.miss.filter (fun x => x.2.2.dstQp.toNat == q)

/-- A die's miss buffer gives up what it holds of a QP. -/
def missCleared (q : Nat) (d : DieCounts) : DieCounts :=
  { d with miss := d.miss.filter (fun x => x.2.2.dstQp.toNat != q), missDrop := d.missDrop.filter (· != q) }

/-- The miss buffers have given up what they hold of a QP, and the fetch is counted on a die (R152, R155). -/
def fetchCounted (u : State) (q : Nat) (onB : Bool) : State :=
  ({ u with tp := { u.tp with pa := missCleared q u.tp.pa, pb := missCleared q u.tp.pb } }).modDie
    (if onB then 8 else 0) (fun d => { d with fetches := wrap 32 (d.fetches + 1) })

theorem fetchCounted_eq (u : State) (q : Nat) (onB : Bool) : fetchCounted u q onB = { u with tp := { u.tp with
    pa := { missCleared q u.tp.pa with fetches := if onB then u.tp.pa.fetches else wrap 32 (u.tp.pa.fetches + 1) }
    pb := { missCleared q u.tp.pb with
      fetches := if onB then wrap 32 (u.tp.pb.fetches + 1) else u.tp.pb.fetches } } } := by
  cases onB <;> rfl

/-- A context that becomes resident and reads well passes the held packets on in arrival order (R151, R152). -/
theorem contextFetched_of_readable {s u : State} {q : Nat} {onB : Bool} (hfetch : (s.qp q).fetching = true)
    (haway : (s.qp q).resident = false) (hu : u = makeResident s q) (hres : (u.qp q).resident = true)
    (hread : firstBad u.hbm (Config.contextAt q) 512 = none)
    (honB : onB = (!(missOf q s.tp.pb).isEmpty || ((missOf q s.tp.pa).isEmpty && dieOf (qpPort s q)))) :
    contextFetched s q = settle (forEach (mergeMiss (missOf q s.tp.pa) (missOf q s.tp.pb)) (fetchCounted u q onB)
      (fun s x => takeRequest s x.2.1 x.2.2)) := by
  subst hu honB
  have readable : ∀ onB,
      contextRead (fetchCounted (makeResident s q) q onB) q = fetchCounted (makeResident s q) q onB := by
    intro onB
    have hread' : firstBad (fetchCounted (makeResident s q) q onB).hbm (Config.contextAt q) 512 = none := by
      rw [fetchCounted_eq]
      exact hread
    simp only [contextRead, hread']
  have passed := readable (!(missOf q s.tp.pb).isEmpty || ((missOf q s.tp.pa).isEmpty && dieOf (qpPort s q)))
  unfold fetchCounted missCleared missOf at passed
  simp only [contextFetched, hfetch, haway, hres, Bool.not_true, Bool.or_self, Bool.false_eq_true, if_false, passed]
  rfl

/-- Settles O14: the gates of R127 let the expected packet through to what its target decides; an acknowledgement owed
and a context fetched each have their own equation. -/
theorem responderAppliesExpectedRequests : Obligations.ResponderAppliesExpectedRequests := by
  intro s
  refine ⟨fun arr p u v q hu hq hfor hv hfree habove hbelow => ?_,
    fun qp t howed hst => congrArg Host.Outcome.next (ackDelayed_of_owed howed hst),
    fun qp u held onB hfetch haway hu hres hread hheld honB => ?_⟩
  · subst hq hv
    have begins : (p.typ = 0x01 → p.first = true) → BeginsMessage ((requestTaken u p).qp p.dstQp.toNat) p :=
      fun hfirst => ⟨hfirst, hfree, habove, hbelow⟩
    have noWrite : ∀ {typ : Byte}, comesIn s p typ = true → typ ≠ 0x01 → p.typ ≠ 0x01 := fun hin => by
      rw [typ_of_comesIn hin]
      exact id
    refine ⟨fun w x hin hfirst hcheck hreach => ?_, fun w x hin hcheck hreach => ?_,
      fun w b t n hin hcheck hbody hop ht hn => ⟨?_, objVal_setObj_same t b.id.toNat n⟩⟩
    · exact next_requestGate hu hin hfor fun port =>
        (takeExpected_of_range (begins fun _ => hfirst) hcheck hreach port).trans (if_pos (typ_of_comesIn hin))
    · have notWrite := noWrite hin (by decide)
      exact next_requestGate hu hin hfor fun port =>
        (takeExpected_of_range (begins fun h => absurd h notWrite) hcheck hreach port).trans (if_neg notWrite)
    · have notWrite := noWrite hin (by decide)
      exact next_requestGate hu hin hfor fun port =>
        (takeExpected_of_object (begins fun h => absurd h notWrite) hcheck hbody port).trans
          (applySync_signal hop ht hn _ port p)
  · subst hheld
    refine ⟨fetchCounted u qp.toNat onB,
      congrArg Host.Outcome.next (contextFetched_of_readable hfetch haway hu hres hread honB), ?_⟩
    rw [fetchCounted_eq]
    exact ⟨rfl, rfl, rfl, rfl, rfl⟩

end Sys2Proof.Machine
end

section
/-! ## Packets that the requester sends, and the answers that it takes (chapter 5) -/

namespace Sys2Proof.Machine

/-- What a command comes to before settling decides the state after it. -/
theorem next_settle {t u : State} (h : t = u) :
    (.next (settle t) : Host.Outcome State Fault Refusal) = .next (settle u) :=
  congrArg (fun s => Host.Outcome.next (settle s)) h

/-! ### The next packet -/

/-- The next packet of a QP that may send, its context resident, is one of `m` at `psn` (R133, R136, R151). -/
structure SendsNext (k : Qp) (m : Msg) (psn : Nat) : Prop where
  may : maySend k = true
  resident : k.resident = true
  next : nextToSend k (k.msgs.length + 2) k.sendPsn = some (m, psn)

/-- A QP comes to send: in the sheets of its circuit at once, else in the tick that its rate budget allows
(R138; log entry 39). -/
def budgetReached (s : State) (q : Nat) : State :=
  if ((s.qp q).ident.path = 0 && (qpCircuit s q).isSome) = true then s else s.arriveAt (s.qp q).readyAt

/-- Offset in its message of the WRITE packet at `psn` (R125). -/
def writeOffset (k : Qp) (m : Msg) (psn : Nat) : Nat := ahead psn (m.psn.getD 0) * pmtuBytes k.ident.pmtu

section Sending
variable {s t : State} {q psn : Nat} {m : Msg}

/-- A sync message goes as a SYNC_REQ (R124). -/
theorem sendNext_of_sync (h : SendsNext (s.qp q) m psn) (ht : t = budgetReached s q) (hkind : m.kind = .sync) :
    sendNext s q = sendRequest t q (syncPacket t q m) (wrap 32 (psn + 1)) (ztpLen (syncPacket t q m)) := by
  obtain ⟨hmay, hres, hnext⟩ := h
  subst ht
  simp only [sendNext, hmay, hnext, hres, hkind, Bool.not_true, Bool.false_eq_true, if_false]
  rfl

/-- A READ goes as one READ_REQ for all that it misses (R124, R133). -/
theorem sendNext_of_read (h : SendsNext (s.qp q) m psn) (ht : t = budgetReached s q) (hkind : m.kind = .read) :
    sendNext s q = sendRequest t q (readPacket t q m psn) (wrap 32 (m.psn.getD 0 + m.span)) (m.len - m.placed) := by
  obtain ⟨hmay, hres, hnext⟩ := h
  subst ht
  simp only [sendNext, hmay, hnext, hres, hkind, Bool.not_true, Bool.false_eq_true, if_false]
  rfl

/-- A WRITE whose bytes for the packet read well goes packet by packet (R119, R128). -/
theorem sendNext_of_write {v : State} {x : Xlat} {off : Nat} {bs : List Byte} (h : SendsNext (s.qp q) m psn)
    (ht : t = budgetReached s q) (hkind : m.kind = .write) (hx : m.xlat = some x) (hreach : xlatHeld t x = false)
    (hoff : off = writeOffset (s.qp q) m psn)
    (hread : xlatRead t x off (min (pmtuBytes (s.qp q).ident.pmtu) (m.len - off)) = (v, .done, bs)) :
    sendNext s q = sendRequest v q (writePacketOf v q m psn off bs) (wrap 32 (psn + 1))
      (ztpLen (writePacketOf v q m psn off bs)) := by
  obtain ⟨hmay, hres, hnext⟩ := h
  subst ht hoff
  unfold budgetReached writeOffset at *
  simp only [sendNext, hmay, hnext, hres, hkind, hx, hreach, hread, Bool.not_true, Bool.false_and, Bool.false_eq_true,
    if_false]

end Sending

/-! ### Answers that come to the requester -/

theorem forRequester_iff {u : State} {arr : Arrival} {p : ZtpPacket} : forRequester u arr p = true ↔
    fromFarEnd u arr p = true ∧ pkeyOk u arr (u.qp p.dstQp.toNat) p = true := by
  simp [forRequester]

/-- A response that its QP expects passes every gate to what it does (R122, R144, R211). -/
theorem respGate_of_expected {s u : State} {arr : Arrival} {p : ZtpPacket} {typ : Byte}
    (hu : u = takeInbox s arr (.ztp p)) (hin : comesIn s p typ = true) (h : forRequester u arr p = true)
    (run : State → Nat → State) : respGate s arr p typ run = settle (run u p.dstQp.toNat) := by
  obtain ⟨hfar, hkey⟩ := forRequester_iff.mp h
  obtain ⟨hst, hpeer, hconn, hseal⟩ := fromFarEnd_iff.mp hfar
  subst hu
  rcases hst with hst | hst <;> simp [respGate, pktGate_of_comesIn hin, hst, hpeer, hconn, hseal, hkey]

/-- The state after such a response, when it leaves `t` before settling. -/
theorem next_respGate {s u t : State} {arr : Arrival} {p : ZtpPacket} {typ : Byte} {run : State → Nat → State}
    (hu : u = takeInbox s arr (.ztp p)) (hin : comesIn s p typ = true) (h : forRequester u arr p = true)
    (ht : run u p.dstQp.toNat = t) :
    (.next (respGate s arr p typ run) : Host.Outcome State Fault Refusal) = .next (settle t) := by
  rw [respGate_of_expected hu hin h, ht]

section Answers
variable {s u v : State} {q : Nat} {p : ZtpPacket} {m : Msg}

/-- An ACK that names no sync message only acknowledges (R128). -/
theorem takeAck_of_unsynced (hu : u = sampleRtt s q p.ts)
    (hmsg : ∀ m, msgOf u q p.msn.toNat = some m → m.kind ≠ .sync) :
    takeAck s q p = advanceAck u q (wrap 32 (p.psn.toNat + 1)) := by
  subst hu
  unfold takeAck
  dsimp only
  split
  case h_1 => rfl
  case h_2 m hm => simp [hmsg m hm]

/-- An ACK of a sync message, not HELD, ends it with the result (R131). -/
theorem takeAck_of_sync (hu : u = sampleRtt s q p.ts) (hmsg : msgOf u q p.msn.toNat = some m) (hkind : m.kind = .sync)
    (hpsn : m.psn = some p.psn.toNat) (hsyn : p.syndrome = 0) :
    takeAck s q p = settleAck (advanceAck (endMsg u q m.msn St.ok p.result 0) q (wrap 32 (p.psn.toNat + 1))) q := by
  subst hu
  simp [takeAck, hmsg, hkind, hpsn, hsyn]

/-- A NAK SEQUENCE for a PSN in the window, not yet asked for, sends again from it (R133). -/
theorem takeNak_of_gap {arr : Arrival} (hsyn : p.syndrome = 2) (hnew : (u.qp q).ignoreNak ≠ some p.epsn.toNat)
    (hfrom : ahead p.epsn.toNat (u.qp q).unacked < 2 ^ 31) (hto : ahead (u.qp q).sendPsn p.epsn.toNat < 2 ^ 31) :
    takeNak u arr q p
      = resendFrom (u.modQp q (fun k => { k with ignoreNak := some p.epsn.toNat })) q p.epsn.toNat := by
  have inWindow : ¬ ((u.qp q).ignoreNak = some p.epsn.toNat ∨ ahead p.epsn.toNat (u.qp q).unacked ≥ 2 ^ 31
      ∨ ahead (u.qp q).sendPsn p.epsn.toNat ≥ 2 ^ 31) := by
    rintro (h | h | h)
    · exact hnew h
    · omega
    · omega
  simp only [takeNak, hsyn, if_true, takeNakSequence, if_neg inWindow]

/-- The next response of a READ whose landing space can be reached is placed (R137, R287). -/
theorem landReadResp_of_next {bs : List Byte} (s0 : State) (arr : Arrival)
    (hmsg : msgAt (v.qp q) p.psn.toNat = some m) (hkind : m.kind = .read)
    (hreach : ∀ x, m.xlat = some x → xlatHeld v x = false) (hnext : p.psn.toNat = readNext (v.qp q) m)
    (hbody : p.body = .data bs) (hlen : bs.length = min (pmtuBytes (v.qp q).ident.pmtu) (m.len - m.placed)) :
    landReadResp s0 v arr q p = placeResponse v q m bs := by
  rw [hnext] at hmsg
  cases hx : m.xlat with
  | none => simp [landReadResp, hmsg, hkind, hnext, hbody, hlen, hx]
  | some x => simp [landReadResp, hmsg, hkind, hnext, hbody, hlen, hx, hreach x hx]

/-- OK needs no DETAIL (R254). -/
theorem remoteDetail_ok (m : Msg) (sig : Bool) : remoteDetail m St.ok sig = 0 := rfl

/-- A SYNC_DONE with OK ends its sync message with the result (R131). -/
theorem takeSyncDone_of_ok (hmsg : msgOf u q p.msn.toNat = some m) (hkind : m.kind = .sync) (hsyn : p.syndrome = 0)
    (port : Nat) : takeSyncDone u port q p = settleAck (endMsg u q m.msn St.ok p.result 0) q := by
  simp [takeSyncDone, hmsg, hkind, hsyn, remoteDetail_ok]

end Answers

/-- Settles O13: the kind of the message decides what goes, and the gates of R122 let each answer through to its own
equation. -/
theorem requesterSendsAndTakesAnswers : Obligations.RequesterSendsAndTakesAnswers := by
  intro s
  refine ⟨fun qp k m psn t hk hmay hres hnext ht => ?_, fun arr p u q hu hq hfor => ?_⟩
  · subst hk
    have sends : SendsNext (s.qp qp.toNat) m psn := ⟨hmay, hres, hnext⟩
    exact ⟨fun hkind => next_settle (sendNext_of_sync sends ht hkind),
      fun x off v bs hkind hx hreach hoff hread =>
        next_settle (sendNext_of_write sends ht hkind hx hreach hoff hread),
      fun hkind => next_settle (sendNext_of_read sends ht hkind)⟩
  · subst hq
    refine ⟨fun hin hmsg => next_respGate hu hin hfor (takeAck_of_unsynced rfl hmsg),
      fun m hin hmsg hkind hpsn hsyn => next_respGate hu hin hfor (takeAck_of_sync rfl hmsg hkind hpsn hsyn),
      fun hin hsyn hnew hfrom hto => next_respGate hu hin hfor (takeNak_of_gap hsyn hnew hfrom hto),
      fun m bs v hin hv hmsg hkind hreach hnext hbody hlen => next_respGate hu hin hfor ?_,
      fun m hin hmsg hkind hsyn => next_respGate hu hin hfor (takeSyncDone_of_ok hmsg hkind hsyn _),
      fun hin => next_respGate hu hin hfor rfl⟩
    subst hv
    exact landReadResp_of_next s arr hmsg hkind hreach hnext hbody hlen

end Sys2Proof.Machine
end

section
/-! ## The timers of the requester: retries, probes, back-offs and rate periods (chapter 5) -/

namespace Sys2Proof.Machine

theorem State.modDie_now (s : State) (p : Nat) (f : DieCounts → DieCounts) : (s.modDie p f).now = s.now := by
  unfold State.modDie
  split <;> rfl

/-! ### Retries and probes -/

/-- One retry more is counted, on the QP and on its die, and the timer runs on with the timeout raised (R132, R133). -/
def retryCounted (s : State) (q : Nat) : State :=
  (s.modDie (qpPort s q) (fun d => { d with retries := wrap 32 (d.retries + 1) })).modQp q (fun k => { k with
    k := k.k + 1, retries := wrap 32 (k.retries + 1), ignoreNak := none
    timerAt := some (s.now + rto k.ident (k.k + 1)) })

/-- The retry timer of a QP runs, and no answer of its tick stands before its expiry (R132, R135). -/
structure RetryDue (s : State) (q t : Nat) : Prop where
  timer : (s.qp q).timerAt = some t
  may : maySend (s.qp q) = true
  first : answerWaits s q = false

/-- A back-off has ended: the timer restarts while a PSN sent is unacknowledged (R132, R136). -/
def backoffOver (s : State) (q t : Nat) : State :=
  (s.arriveAt t).modQp q (fun k => { k with
    backoff := none
    timerAt := if k.unacked = k.sentTo then none else some (max s.now (tickStart t) + rto k.ident k.k) })

section Timers
variable {s u : State} {q t : Nat}

/-- Below the limit the QP tries again from the oldest PSN not acknowledged (R133). -/
theorem retryExpired_of_below (h : RetryDue s q t) (hlimit : (s.qp q).k < (s.qp q).ident.limit)
    (hu : u = s.arriveAt t) : retryExpired s q = resendFrom (retryCounted u q) q (s.qp q).unacked := by
  obtain ⟨htimer, hmay, hfirst⟩ := h
  subst hu
  simp only [retryExpired, htimer, hmay, hfirst, ge_iff_le, Nat.not_le.mpr hlimit, Bool.not_true, Bool.or_self,
    Bool.false_eq_true, if_false, State.modDie_now]
  rfl

/-- At the limit it gives up (R134). -/
theorem retryExpired_of_limit (h : RetryDue s q t) (hlimit : (s.qp q).ident.limit ≤ (s.qp q).k) :
    retryExpired s q
      = qpError (s.arriveAt t) q St.retryExhausted St.retryExhausted (retryDetail (s.qp q).k false) 0 := by
  obtain ⟨htimer, hmay, hfirst⟩ := h
  simp only [retryExpired, htimer, hmay, hfirst, ge_iff_le, hlimit, Bool.not_true, Bool.or_self, Bool.false_eq_true,
    if_false, if_true]

/-- The timer of a sync message ACKed HELD sends a probe, with its count and timer fresh (R131). -/
theorem probeExpired_of_held {msn : Nat} {m : Msg} (hmsg : msgOf s q msn = some m) (htimer : m.timerAt = some t)
    (hkind : m.kind = .sync) (hpassed : m.passed = true) (hheld : m.held = true) (hmay : maySend (s.qp q) = true)
    (hfirst : answerWaits s q = false) (hu : u = s.arriveAt t) :
    probeExpired s q msn = sendProbe (u.modMsg q msn (fun m => { m with
      held := false, k := 0, timerAt := some (u.now + rto (s.qp q).ident 0) })) q m := by
  subst hu
  simp [probeExpired, hmsg, htimer, hkind, hpassed, hheld, hmay, hfirst]

/-! ### Back-offs -/

/-- From the NAK's PSN on everything is sent again, unless a sync message holds that PSN and has been passed (R136). -/
theorem backoffEnds_of_unpassed {psn : Nat} (hback : (s.qp q).backoff = some (t, psn)) (hu : u = backoffOver s q t)
    (hmsg : ∀ m, msgAt (u.qp q) psn = some m → m.kind = .sync → m.passed = false) :
    backoffEnds s q = resendFrom u q psn := by
  subst hu
  simp only [backoffEnds, hback]
  split
  case h_1 m hm =>
    refine if_neg fun hsync => ?_
    obtain ⟨hkind, hpassed⟩ := Bool.and_eq_true_iff.mp hsync
    simp [hmsg m hm (beq_iff_eq.mp hkind)] at hpassed
  case h_2 => rfl

/-- A sync message whose PSN is passed is sent again alone (R131, R136). -/
theorem backoffEnds_of_passed {psn : Nat} {m : Msg} (hback : (s.qp q).backoff = some (t, psn))
    (hu : u = backoffOver s q t) (hmsg : msgAt (u.qp q) psn = some m) (hkind : m.kind = .sync)
    (hpassed : m.passed = true) : backoffEnds s q = sendProbe u q m := by
  subst hu
  unfold backoffOver at *
  simp only [backoffEnds, hback, hmsg, hkind, hpassed, beq_self_eq_true, Bool.and_self, if_true]

/-! ### Rate periods -/

/-- A period of an open QP without a circuit ends with its rate rule (R138, R140). -/
theorem rateFlow_of_unbound {qp : BitVec 20} (hst : (s.qp qp.toNat).st = .opened ∨ (s.qp qp.toNat).st = .draining)
    (hfree : (s.qp qp.toNat).ident.path ≠ 0 ∨ qpCircuit s qp.toNat = none)
    (hu : u = s.arriveAt (s.qp qp.toNat).periodAt) :
    rateFlow s (.qp qp) = u.modQp qp.toNat (fun k => { k.setRate (onPeriod u (lineRate u k.ident) k.rateOf) with
      periodAt := u.now + ccPeriod u }) := by
  have unbound : (decide ((s.qp qp.toNat).ident.path = 0) && (qpCircuit s qp.toNat).isSome) = false := by
    rcases hfree with h | h <;> simp [h]
  have carrying : ((s.qp qp.toNat).st == .opened || (s.qp qp.toNat).st == .draining) = true := by
    rcases hst with h | h <;> simp [h]
  subst hu
  simp only [rateFlow, carrying, unbound, Bool.not_true, Bool.or_self, Bool.false_eq_true, if_false]

/-- So does a period of a stream that one tree sends over an Ethernet path (R184). -/
theorem rateFlow_of_stream {slot : BitVec 6} {st : BitVec 3} {p key : Nat}
    (hport : ratedPort s slot.toNat st.toNat = some p)
    (hkey : [2 * st.toNat, 2 * st.toNat + 1].filter
      (fun k => ((s.slot slot.toNat).outs.findD k default).rate != 0) = [key])
    (hu : u = s.arriveAt ((s.slot slot.toNat).outs.findD key default).periodAt) :
    rateFlow s (.stream slot st) = u.modOut slot.toNat key (fun o => { o.setRate
      (onPeriod u (streamLine u p) o.rateOf) with periodAt := u.now + ccPeriod u }) := by
  subst hu
  simp only [rateFlow, hport, hkey]
  rfl

end Timers

/-- Settles O15: each timer runs its own equation in the tick in which it is due. -/
theorem retriesProbesAndBackoffs : Obligations.RetriesProbesAndBackoffs := by
  intro s qp k hk
  subst hk
  exact ⟨fun t u htimer hmay hfirst hlimit hu =>
      next_settle (retryExpired_of_below ⟨htimer, hmay, hfirst⟩ hlimit hu),
    fun t htimer hmay hfirst hlimit => next_settle (retryExpired_of_limit ⟨htimer, hmay, hfirst⟩ hlimit),
    fun msn m t u hmsg htimer hkind hpassed hheld hmay hfirst hu =>
      next_settle (probeExpired_of_held hmsg htimer hkind hpassed hheld hmay hfirst hu),
    fun t psn u hback hu => ⟨fun hmsg => next_settle (backoffEnds_of_unpassed hback hu hmsg),
      fun m hmsg hkind hpassed => next_settle (backoffEnds_of_passed hback hu hmsg hkind hpassed)⟩,
    fun u hst hfree hu => congrArg Host.Outcome.next (rateFlow_of_unbound hst hfree hu),
    fun slot st p key u hport hkey hu => congrArg Host.Outcome.next (rateFlow_of_stream hport hkey hu)⟩

end Sys2Proof.Machine
end

section
/-! ## Opening and closing connections (chapter 5) -/

namespace Sys2Proof.Machine

/-! ### QP_OPEN and QP_CLOSE -/

section Requests
variable {s : State} {d : Door} {q : Nat}

/-- A QP_OPEN that no check refuses begins setup (R145). -/
theorem openCommand_of_accepted (h : openRefused s d = false) (hq : q = reqFld s d 8 4) :
    openCommand s d = (openQp (makeResident s q) q (identOf s d), St.ok) := by
  subst hq
  simp only [openCommand, h, Bool.false_eq_true, if_false]

/-- A QP_CLOSE by the owner of a QP, which holds it still, closes it (R149, R306). -/
theorem closeCommand_of_held (hq : q = reqFld s d 8 4) (hbound : q < 2 ^ 20)
    (hheld : holds s (doorInst d) 0x03 q = true) (hst : (s.qp q).st ≠ .closed)
    (howner : (s.qp q).ident.owner = doorInst d) :
    closeCommand s d = (closeQp s q (drainBoundUs (s.qp q).ident), St.ok) := by
  subst hq
  have inRange : ¬ 1048576 ≤ reqFld s d 8 4 := Nat.not_le.mpr hbound
  simp [closeCommand, inRange, hheld, hst, howner]

end Requests

/-! ### The gate of connection packets -/

theorem connFrom_iff {u : State} {p : ZtpPacket} {c : ConnBlock} : connFrom u p c = true ↔
    p.body = .conn c ∧ p.ver = 1 ∧ p.sealedBit = false
      ∧ blockMatches (u.qp p.dstQp.toNat) p.dstQp.toNat c = true := by
  simp [connFrom, and_assoc]

/-- A connection packet from the far end reaches what its row does with the block (R122, R123, R144). -/
theorem connGate_of_farEnd {s u : State} {arr : Arrival} {p : ZtpPacket} {c : ConnBlock} {typ : Byte}
    (hu : u = takeInbox s arr (.ztp p))
    (hin : comesIn s p typ = true) (h : connFrom u p c = true) (run : State → Nat → ConnBlock → State) :
    connGate s arr p typ run = settle (run u p.dstQp.toNat c) := by
  obtain ⟨hbody, hver, hseal, -⟩ := connFrom_iff.mp h
  subst hu
  simp [connGate, pktGate_of_comesIn hin, hbody, hver, hseal]

/-- The state after such a packet, when its block leaves `t` before settling. -/
theorem next_connGate {s u t : State} {arr : Arrival} {p : ZtpPacket} {c : ConnBlock} {typ : Byte}
    {run : State → Nat → ConnBlock → State} (hu : u = takeInbox s arr (.ztp p)) (hin : comesIn s p typ = true)
    (h : connFrom u p c = true) (ht : run u p.dstQp.toNat c = t) :
    (.next (connGate s arr p typ run) : Host.Outcome State Fault Refusal) = .next (settle t) := by
  rw [connGate_of_farEnd hu hin h, ht]

/-! ### What each packet does at the end it is meant for -/

section Packets
variable {u w : State} {q : Nat} {c : ConnBlock} (arr : Arrival)

/-- The setup agreed with the far end: its tag, the version, and the PSN that it starts from (R146, R147). -/
def setupAgreed (u : State) (q : Nat) (c : ConnBlock) (v : Nat) : State :=
  u.modQp q (fun k => { k with ident := { k.ident with conn := c.tag, ver := v }, epsn := c.startPsn.toNat })

/-- The block of the CONN_REP that accepts (R147, R148). -/
def acceptBlock (w : State) (q v : Nat) : ConnBlock := { connBlock w q with ver := BitVec.ofNat 8 v, reason := 0 }

/-- The first CONN_REQ that a passive QP accepts is answered by CONN_REP, and nothing else (R146, R147). -/
theorem takeConnReq_of_accepted {v : Nat} (hblock : blockMatches (u.qp q) q c = true) (hst : (u.qp q).st = .opening)
    (hpassive : (u.qp q).ident.active = false) (hfirst : (u.qp q).reply = none)
    (hdecide : decideSetup (u.qp q) c = (0, v)) (hw : w = setupAgreed u q c v) :
    takeConnReq u arr q c
      = sendConn (w.modQp q (fun k => { k with reply := some (acceptBlock w q v) })) q 0x22 (acceptBlock w q v) := by
  subst hw
  simp only [takeConnReq, hst, hpassive, hblock, hfirst, decideConnReq, hdecide, bne_self_eq_false, Bool.not_true,
    Bool.or_self, Bool.false_eq_true, if_false, if_true]
  rfl

/-- CONN_REP with REASON 0 and the tag of the active end is answered by CONN_RTU and opens the QP (R146, R147). -/
theorem takeConnRep_of_accepted (hblock : blockMatches (u.qp q) q c = true) (hst : (u.qp q).st = .opening)
    (hactive : (u.qp q).ident.active = true) (htag : c.tag = (u.qp q).ident.conn) (hreason : c.reason = 0)
    (hw : w = u.modQp q (fun k => { k with
      ident := { k.ident with ver := c.ver.toNat }, epsn := c.startPsn.toNat })) :
    takeConnRep u arr q c = qpOpened (sendConn w q 0x23 (plainBlock w q)) q := by
  subst hw
  simp [takeConnRep, hst, hactive, hblock, htag, hreason]

/-- CONN_RTU with the agreed tag opens the passive end (R146). -/
theorem takeConnRtu_of_agreed {r : ConnBlock} (hblock : blockMatches (u.qp q) q c = true) (hst : (u.qp q).st = .opening)
    (hpassive : (u.qp q).ident.active = false) (hreply : (u.qp q).reply = some r) (hreason : r.reason = 0)
    (htag : c.tag = (u.qp q).ident.conn) : takeConnRtu u arr q c = qpOpened u q := by
  simp [takeConnRtu, hst, hpassive, hblock, hreply, hreason, htag]

/-- DISC_REQ drains an OPEN QP (R149, R154). -/
theorem takeDiscReq_of_opened (hblock : blockMatches (u.qp q) q c = true) (hst : (u.qp q).st = .opened)
    (p : ZtpPacket) : takeDiscReq u arr q p c = drainQp u q (drainBoundUs (u.qp q).ident) true := by
  simp only [takeDiscReq, hst, hblock, if_true]

/-- DISC_REP closes a QP that has drained and has asked (R154). -/
theorem takeDiscRep_of_drained (hblock : blockMatches (u.qp q) q c = true) (hst : (u.qp q).st = .draining)
    (hmsgs : (u.qp q).msgs = []) (hasked : (u.qp q).lastTry ≠ 0) : takeDiscRep u arr q c = qpClosed u q := by
  simp [takeDiscRep, hst, hblock, hmsgs, hasked]

end Packets

/-- Settles O16: a posted request runs on the state whose door took it, and a packet of the far end runs its row's own
equation. -/
theorem connectionsOpenAndClose : Obligations.ConnectionsOpenAndClose := by
  intro s
  refine ⟨fun d link q ver hver hp hopen hq => ?_, fun d link q hp hq hbound hheld hst howner => ?_,
    fun arr p c u q k hu hq hk hfrom => ?_⟩
  · have version : [1, 2].contains ver = true := by rcases hver with rfl | rfl <;> rfl
    have run := mailRow_posted hp version (fun t => answerSt d (openCommand t d))
    rw [openCommand_of_accepted hopen (hq.trans (took_reqFld s d 8 4).symm)] at run
    exact congrArg Host.Outcome.next run
  · have run := mailRow_posted hp (vs := [1]) rfl (fun t => answerSt d (closeCommand t d))
    rw [closeCommand_of_held (s := took s d) (hq.trans (took_reqFld s d 8 4).symm) hbound hheld hst howner] at run
    exact next_settle run
  · subst hq hk
    obtain ⟨-, -, -, hblock⟩ := connFrom_iff.mp hfrom
    exact ⟨fun v w hin hst hpassive hfirst hdecide hw => next_connGate hu hin hfrom
        (takeConnReq_of_accepted arr hblock hst hpassive hfirst hdecide hw),
      fun w hin hst hactive htag hreason hw => next_connGate hu hin hfrom
        (takeConnRep_of_accepted arr hblock hst hactive htag hreason hw),
      fun r hin hst hpassive hreply hreason htag => next_connGate hu hin hfrom
        (takeConnRtu_of_agreed arr hblock hst hpassive hreply hreason htag),
      fun hin hst => next_connGate hu hin hfrom (takeDiscReq_of_opened arr hblock hst p),
      fun hin hst hmsgs hasked => next_connGate hu hin hfrom (takeDiscRep_of_drained arr hblock hst hmsgs hasked)⟩

end Sys2Proof.Machine
end

section
/-! ## The timers of setup and of draining (chapter 5) -/

namespace Sys2Proof.Machine

section ConnectionTimers
variable {s : State} {q : Nat}

/-- When the setup of a QP is out of tries: CONN_TRIES milliseconds after its start (R146, R155). -/
def setupEnd (k : Qp) : Nat := k.setupAt + connTries k.ident * msNs

/-- The active end asks again while its tries last (R146). -/
theorem connAgain_of_early {u : State} (hst : (s.qp q).st = .opening) (hactive : (s.qp q).ident.active = true)
    (hearly : (s.qp q).lastTry + msNs < setupEnd (s.qp q)) (hu : u = s.arriveAt ((s.qp q).lastTry + msNs)) :
    connAgain s q = sendConn (u.modQp q (fun x => { x with lastTry := u.now })) q 0x21 (connBlock u q) := by
  unfold setupEnd at hearly
  subst hu
  simp only [connAgain, hst, hactive, ge_iff_le, Nat.not_le.mpr hearly, bne_self_eq_false, Bool.not_true, Bool.or_self,
    Bool.false_eq_true, if_false]

/-- A QP still in OPENING when its tries are over enters ERROR with REASON 0xFF (R146, R154). -/
theorem setupLate_of_opening (hst : (s.qp q).st = .opening) :
    setupLate s q = settle (qpError (s.arriveAt (setupEnd (s.qp q))) q 0 St.flushed 0 0xFF) := by
  simp only [setupLate, hst, bne_self_eq_false, Bool.false_eq_true, if_false]
  rfl

/-- A QP that has drained and has asked asks again a millisecond later (R149). -/
theorem discAgain_of_drained (hst : (s.qp q).st = .draining) (hmsgs : (s.qp q).msgs = [])
    (hasked : (s.qp q).lastTry ≠ 0) : discAgain s q = sendDiscReq (s.arriveAt ((s.qp q).lastTry + msNs)) q := by
  simp [discAgain, hst, hmsgs, hasked]

/-- A QP still draining at its bound is closed (R149, R154). -/
theorem qpDrained_of_draining (hst : (s.qp q).st = .draining) :
    qpDrained s q = settle (qpClosed (s.arriveAt (s.qp q).drainAt) q) := by
  simp only [qpDrained, hst, bne_self_eq_false, Bool.false_eq_true, if_false]

end ConnectionTimers

/-- Settles O17: each timer of a connection has its own equation, at the time from which it is counted. -/
theorem connectionTimers : Obligations.ConnectionTimers := by
  intro s qp k hk
  subst hk
  refine ⟨fun u hst hactive hearly hu => congrArg Host.Outcome.next (connAgain_of_early hst hactive hearly hu),
    fun hst => congrArg Host.Outcome.next (setupLate_of_opening hst), fun u v hst hmsgs hasked hu hv => ?_,
    fun hst => congrArg Host.Outcome.next (qpDrained_of_draining hst)⟩
  subst hu hv
  exact congrArg Host.Outcome.next (discAgain_of_drained hst hmsgs hasked)

end Sys2Proof.Machine
end

section
/-! ## Parts of an element range (chapter 6) -/

namespace Sys2Proof.Machine

theorem partOf_zero_fst (g a len n : Nat) : (partOf g a len 0 n).1 = a := by
  simp [partOf]

/-- Each part ends where the next begins, for no part begins before the one in front of it (R167). -/
theorem partOf_add (g a len k n : Nat) :
    (partOf g a len k n).1 + (partOf g a len k n).2 = (partOf g a len (k + 1) n).1 := by
  have ascending : g * (k * (len / g) / n) ≤ g * ((k + 1) * (len / g) / n) :=
    Nat.mul_le_mul_left g (Nat.div_le_div_right (Nat.mul_le_mul_right (len / g) k.le_succ))
  simp only [partOf]
  omega

/-- A part after the last would begin where the range ends, if that is whole blocks (R167). -/
theorem partOf_self_fst {g len n : Nat} (a : Nat) (hn : 0 < n) (hlen : g ∣ len) :
    (partOf g a len n n).1 = a + len := by
  simp only [partOf, Nat.mul_div_cancel_left _ hn, Nat.mul_div_cancel' hlen]

/-- Settles O58: the ends of the parts are the beginnings of the next, and that of the last is the range's. -/
theorem partsTileTheirRange : Obligations.PartsTileTheirRange := by
  intro g a len n _ hn hlen
  refine ⟨partOf_zero_fst g a len n, fun k => partOf_add g a len k n, ?_⟩
  rw [partOf_add, Nat.sub_add_cancel hn]
  exact partOf_self_fst a hn hlen

end Sys2Proof.Machine
end

section
/-! ## Pieces of collectives that are sent, staged, pressed and sent again (chapter 6) -/

namespace Sys2Proof.Machine

/-- The state after a command that may end a step, and that leaves `t` before settling. -/
theorem next_settleSteps {t u : State} (h : t = u) :
    (.next (settleSteps t) : Host.Outcome State Fault Refusal) = .next (settleSteps u) :=
  congrArg (fun s => Host.Outcome.next (settleSteps s)) h

/-! ### Sending -/

/-- With energy credit, the piece that has landing space goes, at the stream's rate (R180, R184, R316). -/
theorem pieceSend_of_sendable {s u : State} {n st key : Nat} {d : Descriptor} {x : SentPiece}
    (hdesc : (s.slot n).desc = some d) (hserve : s.inService = true) (hfront : missedLike s = false)
    (hcredit : mayCharge s (bucketOf s 2 n) = true) (hpiece : sendable s n d [2 * st, 2 * st + 1] = some (key, x))
    (hu : u = startRate s n key) :
    pieceSend s n st = flushAcks (sendPiece (if (ratedPort u n st).isSome
      then u.arriveAt ((u.slot n).outs.findD key default).readyAt else u) n key d x) := by
  subst hu
  simp only [pieceSend, hdesc, hserve, hfront, hcredit, hpiece, Bool.not_true, Bool.or_self,
    Bool.false_eq_true, if_false]

/-! ### Arriving packets -/

/-- A CSP packet of any type comes in whole, and once it has left the packets delivered, in `u`, its number names the
slot `n` with descriptor `d` and its partition key is theirs (R181, R211). -/
structure CspComesTo (s u : State) (arr : Arrival) (p : CspPacket) (n : Nat) (d : Descriptor) : Prop where
  inbox : u = takeInbox s arr (.csp p)
  serve : s.inService = true
  crc : p.crcOk = true
  slot : slotOfColl u p.collId.toNat = some (n, d)
  key : p.pkey.toNat = d.pkey
  member : keyMember u arr.bank (arrSet arr) p.pkey.toNat = true

/-- Such a packet of the row's type reaches what its row does for that slot (R181). -/
theorem cspGate_of_comesTo {s u : State} {arr : Arrival} {p : CspPacket} {n : Nat} {d : Descriptor} {typ : Byte}
    (h : CspComesTo s u arr p n d) (htyp : p.typ = typ) (run : State → Nat → Descriptor → State) :
    cspGate s arr p typ run = settleSteps (flushAcks (run u n d)) := by
  obtain ⟨rfl, hserve, hcrc, hslot, hkey, hmember⟩ := h
  have keyed : (p.pkey.toNat == d.pkey) = true := beq_iff_eq.mpr hkey
  simp only [cspGate, hserve, htyp, hcrc, hslot, keyed, hmember, bne_self_eq_false, Bool.not_true, Bool.or_self,
    Bool.and_self, Bool.false_eq_true, if_false, if_true]

/-- The state after such a packet, when what its row does leaves `t`. -/
theorem next_cspGate {s u t : State} {arr : Arrival} {p : CspPacket} {n : Nat} {d : Descriptor} {typ : Byte}
    {run : State → Nat → Descriptor → State} (h : CspComesTo s u arr p n d) (htyp : p.typ = typ) (ht : run u n d = t) :
    (.next (cspGate s arr p typ run) : Host.Outcome State Fault Refusal) = .next (settleSteps (flushAcks t)) := by
  rw [cspGate_of_comesTo h htyp, ht]

/-- The stream notes of a DATA what its next ACK says: time, way back and congestion (R184). -/
def ackNoted (s : State) (arr : Arrival) (p : CspPacket) (n key : Nat) : State :=
  s.modIn n key (fun i => { i with ackTs := p.ts, ackArr := arr, ce := i.ce || arr.ce })

section Data
variable {u : State} {arr : Arrival} {p : CspPacket} {n key : Nat} {d : Descriptor} {i : InStream}

/-- A DATA that begins or continues the piece now arriving is staged while landing space is free (R180, R181). -/
theorem takeCspData_of_next (hkey : inKey d p.sender.toNat p.level.toNat (p.stream.toNat % 8) = some key)
    (hi : i = (u.slot n).ins.findD key default) (hnext : dmod 32 p.seq.toNat i.arrived = 0)
    (hlen : p.payload.length = p.len.toNat)
    (hoff : p.offset.toNat = 0 ∨ p.offset.toNat = i.partialPiece.bytes.length) (hfree : i.staged.length < d.stage) :
    takeCspData u arr p n d = stageData (ackNoted u arr p n key) n key d p := by
  have notBefore : ¬ dmod 32 p.seq.toNat i.arrived ≥ 2 ^ 31 := by omega
  have fits : ¬ (dmod 32 p.seq.toNat i.arrived ≠ 0 ∨ p.payload.length ≠ p.len.toNat
      ∨ p.offset.toNat > i.partialPiece.bytes.length
      ∨ (p.offset.toNat ≠ 0 ∧ p.offset.toNat < i.partialPiece.bytes.length) ∨ d.stage ≤ i.staged.length) := by omega
  simp only [takeCspData, hkey, ← hi]
  rw [if_neg notBefore, if_neg fits]
  rfl

/-- A DATA of a piece that has arrived only makes an ACK owed (R181). -/
theorem takeCspData_of_repeated (hkey : inKey d p.sender.toNat p.level.toNat (p.stream.toNat % 8) = some key)
    (hi : i = (u.slot n).ins.findD key default) (hbefore : 2 ^ 31 ≤ dmod 32 p.seq.toNat i.arrived) :
    takeCspData u arr p n d = oweAck (ackNoted u arr p n key) n key := by
  simp only [takeCspData, hkey, ← hi]
  exact if_pos hbefore

end Data

/-! ### Acknowledgements -/

/-- Counts that lie within what was sent move by what the ACK newly says (R180, R183). -/
theorem ackMoves_of_within {o : OutStream} {p : CspPacket} {a c : Nat} (ha : a = dmod 32 p.seq.toNat o.arrivedAck)
    (hc : c = dmod 32 p.offset.toNat o.consumedAck) (haNew : a < 2 ^ 31) (haSent : a ≤ dmod 64 o.sent o.arrivedAck)
    (hcNew : c < 2 ^ 31) (hcSent : c ≤ dmod 64 o.sent o.consumedAck) : ackMoves o p = (a, c) := by
  subst ha hc
  simp only [ackMoves, haNew, haSent, hcNew, hcSent, and_self, if_true]

/-- The stream after the round-trip time that an ACK gives (R184). -/
def rttHeard (now : Nat) (p : CspPacket) (o : OutStream) : OutStream := { o with rtt := nextRtt now o.rtt p.ts }

/-- The rate of a stream hears an ACK on an Ethernet path alone, and takes an echo of CE as a CNP (R184). -/
theorem rateAck_eq_ite (v : State) (n key : Nat) (p : CspPacket) :
    rateAck v n key p = if (ratedPort v n (key / 2)).isNone then v
      else v.modOut n key (fun o => if p.ceEcho
        then (rttHeard v.now p o).setRate (onCnp (rttHeard v.now p o).rateOf) else rttHeard v.now p o) := by
  cases h : ratedPort v n (key / 2) with
  | none => simp [rateAck, h]
  | some port => simp [rateAck, h, rttHeard]

/-- An ACK within what was sent moves its stream by what it newly acknowledges (R180, R183, R184). -/
theorem takeCspAck_of_within {u : State} {p : CspPacket} {n key a c : Nat} {d : Descriptor} {o : OutStream}
    (hkey : outKey d p.sender.toNat p.level.toNat (p.stream.toNat % 8) = some key)
    (ho : o = (u.slot n).outs.findD key default) (hmoves : ackMoves o p = (a, c)) :
    takeCspAck u p n d = rateAck (moveStream u n key d (a, c)) n key p := by
  subst ho
  simp only [takeCspAck, hkey, hmoves]

/-! ### Pressing -/

section Pressing
variable {s : State} {n key : Nat} {d : Descriptor} {r : Run} {i : InStream} {x : StagedPiece}

/-- The piece at the head of a stream is the one that the running step expects there (R181). -/
structure HeadExpected (d : Descriptor) (r : Run) (key : Nat) (i : InStream) (x : StagedPiece) : Prop where
  head : ∃ rest, i.staged = x :: rest
  step : x.step = r.step
  shape : pieceAt d (streamLevel (key / 2)) (inList d r key) (dmod 64 i.consumed i.base)
    = some (x.gather, x.bytes.length)

/-- The whole units that the carried bytes of a stream and its head piece make, and the bytes left over (R172). -/
def headUnits (d : Descriptor) (r : Run) (key : Nat) (i : InStream) (x : StagedPiece) :
    List (Transfer × Nat × List Byte) × List Byte :=
  unitsIn d (streamLevel (key / 2)) (inList d r key) (x.bytes.length + 1) i.units (i.carry ++ x.bytes)

/-- The expected piece is pressed when its units can be taken and its bytes in the staging area read well (R172). -/
theorem tryConsume_of_ready {w : State} {bs : List Byte} (hi : i = (s.slot n).ins.findD key default)
    (hx : HeadExpected d r key i x)
    (hready : (headUnits d r key i x).1.all (fun u => takeReady d r key u.1 u.2.1) = true)
    (hread : hbmRead s (stageAt d key i.consumed) x.bytes.length = (w, .done, bs)) :
    tryConsume s n key d r = some (consumePiece w n key d x (headUnits d r key i x).1 (headUnits d r key i x).2) := by
  obtain ⟨⟨rest, hhead⟩, hstep, hshape⟩ := hx
  subst hi
  unfold headUnits at hready ⊢
  simp only [tryConsume, hhead, hshape, hstep, ne_eq, not_true_eq_false, or_self, if_false, hready, if_true, hread]

/-- A press that may work takes the first piece of a stream that it can (R180, R287, R316). -/
theorem pieceConsume_of_ready {st : Nat} {t : State} (hdesc : (s.slot n).desc = some d) (hrun : (s.slot n).run = some r)
    (hserve : s.inService = true) (hfront : missedLike s = false) (hcredit : mayCharge s (bucketOf s 2 n) = true)
    (hdst : ∀ y, r.dst = some y → xlatHeld s y = false) (htry : tryConsume s n (2 * st) d r = some t) :
    pieceConsume s n st = flushAcks t := by
  have first : [2 * st, 2 * st + 1].findSome? (fun key => tryConsume s n key d r) = some t := by
    simp only [List.findSome?_cons, htry]
  cases hwrite : r.dst with
  | none => simp [pieceConsume, hdesc, hrun, hserve, hfront, hcredit, hwrite, first]
  | some y => simp [pieceConsume, hdesc, hrun, hserve, hfront, hcredit, hwrite, hdst y hwrite, first]

end Pressing

/-! ### Repeats -/

/-- A piece outstanding on a stream is one of those its slot holds. -/
theorem mem_pieces_of_outstanding {s : State} {n st key t : Nat} {x : SentPiece}
    (h : (key, x, t) ∈ outstanding s n st) :
    x ∈ ((s.slot n).outs.findD key default).pieces := by
  simp only [outstanding, List.mem_flatMap, List.mem_map, Prod.mk.injEq] at h
  obtain ⟨k, -, y, hy, rfl, rfl, -⟩ := h
  exact (List.mem_filter.mp hy).1

/-- The event of a time has come in the tick to which its command carries fabric time (R13). -/
theorem le_arriveAt_now (s : State) (t : Nat) : t ≤ (s.arriveAt t).now := by
  simp only [State.arriveAt_now, tickStart]
  omega

/-- Where a circuit's next sheet starts is a matter of the plan, not of the time it is (R183). -/
theorem nextSheet_arriveAt (s : State) (t p c k start : Nat) :
    nextSheet (s.arriveAt t) p c k start = nextSheet s p c k start := by
  have sheet : ∀ x, portSheet (s.arriveAt t) p x = portSheet s p x := fun _ => rfl
  induction k generalizing start with
  | zero => rfl
  | succ k ih => simp only [nextSheet, sheet, ih]

theorem pieceDue_arriveAt (s : State) (t n key : Nat) (x : SentPiece) :
    pieceDue (s.arriveAt t) n key x = pieceDue s n key x := by
  simp only [pieceDue, nextSheet_arriveAt]
  rfl

/-- Waiting changes neither which pieces are outstanding nor when they are due (R183). -/
theorem outstanding_arriveAt (s : State) (t n st : Nat) : outstanding (s.arriveAt t) n st = outstanding s n st := by
  simp only [outstanding, pieceDue_arriveAt]
  rfl

/-- The one piece outstanding on a stream, when it is due, is sent again or ends the step (R183). -/
theorem pieceResend_of_single {s : State} {n st key t : Nat} {d : Descriptor} {x : SentPiece}
    (hdesc : (s.slot n).desc = some d) (hserve : s.inService = true) (hfront : missedLike s = false)
    (hone : outstanding s n st = [(key, x, t)]) :
    pieceResend s n st = if x.sends ≥ collRetries s n + 1 then exhaustPiece (s.arriveAt t) n key d
      else sendPiece (s.arriveAt t) n key d x := by
  have held : (((s.arriveAt t).slot n).outs.findD key default).pieces.contains x = true :=
    List.contains_iff_mem.mpr (mem_pieces_of_outstanding (s := s) (by rw [hone]; exact List.mem_singleton_self _))
  have soonest : ((outstanding s n st).map (·.2.2)).min? = some t := by rw [hone]; rfl
  have due : (outstanding (s.arriveAt t) n st).filter (fun x => decide (x.2.2 ≤ (s.arriveAt t).now))
      = [(key, x, t)] := by
    rw [outstanding_arriveAt, hone]
    exact List.filter_cons_of_pos (decide_eq_true (le_arriveAt_now s t))
  simp only [pieceResend, hdesc, soonest, hserve, hfront, due, Bool.not_true, Bool.or_self,
    Bool.false_eq_true, if_false]
  exact if_pos held

/-- Settles O19: each row runs its own equation, a packet's row once it has come in for its slot. -/
theorem piecesAreSentStagedPressedAndRepeated : Obligations.PiecesAreSentStagedPressedAndRepeated := by
  intro s
  refine ⟨fun slot st d key x u hdesc hserve hfront hcredit hpiece hu => congrArg Host.Outcome.next
      (pieceSend_of_sendable hdesc hserve hfront hcredit hpiece hu),
    fun arr p u n d hu hserve hcrc hslot hpkey hmember => ?_,
    fun slot st d r x rest e us key w bs hkey hdesc hrun hserve hfront hcredit hdst hhead hexpect hstep hgather hlen hus
      hready hread => ?_, fun slot st d key x t hdesc hserve hfront hone => ?_⟩
  · have comes : CspComesTo s u arr p n d := ⟨hu, hserve, hcrc, hslot, hpkey, hmember⟩
    refine ⟨fun key i htyp hkey hi hnext hlen hoff hfree => next_cspGate comes htyp
        (takeCspData_of_next hkey hi hnext hlen hoff hfree),
      fun key i htyp hkey hi hbefore => next_cspGate comes htyp (takeCspData_of_repeated hkey hi hbefore),
      fun key o a c v htyp hkey ho ha hc haNew haSent hcNew hcSent hv => ?_⟩
    have moves := ackMoves_of_within ha hc haNew haSent hcNew hcSent
    have moved : v = moveStream u n key d (a, c) := hv
    refine next_cspGate comes htyp ((takeCspAck_of_within hkey ho moves).trans ?_)
    rw [← moved]
    exact rateAck_eq_ite v n key p
  · subst hkey hus
    obtain ⟨gather, len⟩ := e
    subst hgather hlen
    exact next_settleSteps (pieceConsume_of_ready hdesc hrun hserve hfront hcredit hdst
      (tryConsume_of_ready rfl ⟨⟨rest, hhead⟩, hstep, hexpect⟩ hready hread))
  · have again := pieceResend_of_single hdesc hserve hfront hone
    exact ⟨fun hleft => next_settleSteps (again.trans (if_neg (by omega))),
      fun hspent => next_settleSteps (again.trans (if_pos hspent))⟩

end Sys2Proof.Machine
end

section
/-! ## Lookup and the next VC (R200 to R206) -/

namespace Sys2Proof.Machine

/-! ### next_vc -/

theorem nextVc_no_dateline (v : Nat) : nextVc v false = some v := by
  unfold nextVc
  split
  · next h => rw [h]
  · rfl

theorem nextVc_lower {v : Nat} (h : v % 2 = 1) : nextVc v true = some (v + 1) := by
  have hv : v ≠ 0 := by omega
  simp [nextVc, hv, h]

theorem nextVc_upper {v : Nat} (hv : v ≠ 0) (h : v % 2 = 0) : nextVc v true = none := by
  simp [nextVc, hv, h]

/-- A hop keeps the VC, or crosses a dateline from a lower VC to the one above it. -/
theorem nextVc_eq_some {v w : Nat} {dl : Bool} (h : nextVc v dl = some w) :
    w = v ∧ (v = 0 ∨ dl = false) ∨ w = v + 1 ∧ v % 2 = 1 ∧ dl = true := by
  match dl, Nat.eq_zero_or_pos v with
  | _, .inl hv =>
    subst hv
    exact .inl ⟨(Option.some.inj h).symm, .inl rfl⟩
  | false, _ =>
    rw [nextVc_no_dateline] at h
    exact .inl ⟨(Option.some.inj h).symm, .inr rfl⟩
  | true, .inr hv =>
    rcases Nat.mod_two_eq_zero_or_one v with hmod | hmod
    · simp [nextVc_upper (by omega) hmod] at h
    · rw [nextVc_lower hmod] at h
      exact .inr ⟨(Option.some.inj h).symm, hmod, rfl⟩

/-- Along hops that a frame off VC0 survives, each dateline moves it from a lower VC to an upper one, which crosses
none. -/
theorem datelines_of_foldlM_nextVc {hops : List Bool} {v w : Nat} (hv : v ≠ 0) (h : hops.foldlM nextVc v = some w) :
    hops.count true ≤ v % 2 ∧ (v % 2 = 0 → w = v) := by
  induction hops generalizing v with
  | nil => exact ⟨Nat.zero_le _, fun _ => (Option.some.inj h).symm⟩
  | cons dl hops ih =>
    rw [List.foldlM_cons] at h
    obtain ⟨x, hx, hrest⟩ := Option.bind_eq_some_iff.mp h
    rcases nextVc_eq_some hx with ⟨rfl, hstay⟩ | ⟨rfl, hlower, rfl⟩
    · obtain rfl : dl = false := hstay.resolve_left hv
      simpa using ih hv hrest
    · obtain ⟨hcount, -⟩ := ih (Nat.succ_ne_zero v) hrest
      rw [List.count_cons_self]
      omega

/-- Settles O55, by the cases of `nextVc` and by induction over the hops. -/
theorem nextVcCrossesAtMostOneDateline : Obligations.NextVcCrossesAtMostOneDateline := by
  have lower : ∀ v ∈ [1, 3, 5], v % 2 = 1 := by decide
  have upper : ∀ v ∈ [2, 4, 6], v ≠ 0 ∧ v % 2 = 0 := by decide
  refine ⟨fun _ => rfl, fun v hv => ⟨nextVc_no_dateline v, nextVc_lower (lower v hv)⟩,
    fun v hv => ⟨nextVc_no_dateline v, nextVc_upper (upper v hv).1 (upper v hv).2⟩, fun hops v w hv _ h => ?_⟩
  obtain ⟨hcount, hstays⟩ := datelines_of_foldlM_nextVc (Nat.one_le_iff_ne_zero.mp hv) h
  exact ⟨Nat.le_trans hcount (Nat.lt_succ_iff.mp (Nat.mod_lt v (by decide))), hstays⟩

/-! ### The choices of an entry -/

/-- Choice `i` of a table entry, with its port and its dateline bit (R201). -/
def entryChoice (e : BitVec 32) (i : Nat) : Nat × Nat × Bool := (i, e.toNat / 2 ^ (16 + 4 * i) % 16, e.getLsbD (10 + i))

/-- A table entry names choice `i` (R201). -/
def namesChoice (e : BitVec 32) (i : Nat) : Bool := i == 0 || e.getLsbD (7 + i)

theorem choicesOf_eq_map (e : BitVec 32) :
    choicesOf e = ((List.range 3).filter (namesChoice e)).map (entryChoice e) := by
  have range : List.range 3 = [0, 1, 2] := rfl
  have first : namesChoice e 0 = true := rfl
  have second : namesChoice e 1 = e.getLsbD 8 := rfl
  have third : namesChoice e 2 = e.getLsbD 9 := rfl
  simp only [choicesOf, range, List.filter, first, second, third]
  cases e.getLsbD 8 <;> cases e.getLsbD 9 <;> rfl

/-- The choice found is the first one named that satisfies the condition. -/
theorem find?_choicesOf_eq_some {e : BitVec 32} {ok : Nat × Nat × Bool → Bool} {c : Nat × Nat × Bool}
    (h : (choicesOf e).find? ok = some c) :
    ∃ i ≤ 2, c = entryChoice e i ∧ ok c = true ∧ namesChoice e i = true
      ∧ ∀ j < i, namesChoice e j = true → ok (entryChoice e j) = false := by
  rw [choicesOf_eq_map, List.find?_map, List.find?_filter] at h
  obtain ⟨i, hi, rfl⟩ := Option.map_eq_some_iff.mp h
  obtain ⟨hfound, hmem, hbefore⟩ := List.find?_range_eq_some.mp hi
  obtain ⟨hnamed, hok⟩ := of_decide_eq_true hfound
  refine ⟨i, Nat.lt_succ_iff.mp (List.mem_range.mp hmem), rfl, hok, hnamed, fun j hj hj_named => ?_⟩
  have hskipped := of_decide_eq_false (Bool.not_eq_eq_eq_not.mp (hbefore j hj))
  exact eq_false_of_ne_true fun hj_ok => hskipped ⟨hj_named, hj_ok⟩

/-! ### The lookup, outcome by outcome -/

/-- Choice `c` of an entry may be taken by a frame of set `set`: its port is not the frame's, and is UP (R202). -/
def choiceLive (s : State) (set : Nat) (c : Nat × Nat × Bool) : Bool := c.2.1 != set && fabUp s c.2.1

theorem choiceLive_iff {s : State} {set : Nat} {c : Nat × Nat × Bool} :
    choiceLive s set c = true ↔ c.2.1 ≠ set ∧ fabUp s c.2.1 = true := by
  simp [choiceLive]

theorem isEth_of_fabUp {s : State} {p : Nat} (h : fabUp s p = true) : isEth s p = false := by
  simp only [fabUp, Bool.and_eq_true, Bool.not_eq_true'] at h
  obtain ⟨⟨heth, -⟩, -⟩ := h
  exact heth

theorem xportOf_lt {s : State} {p : Nat} (h : xportOf s = some p) : p < 16 := by
  simp only [xportOf, Option.ite_none_right_eq_some, Option.some.injEq] at h
  obtain ⟨-, rfl⟩ := h
  exact Nat.mod_lt _ (by decide)

/-- A check that drops a frame has passed for one that is sent out. -/
theorem ite_drop_eq_out {c : Prop} [Decidable c] {why : DropWhy} {x : Lookup} {p i v : Nat} :
    (if c then Lookup.drop why else x) = .out p i v ↔ ¬c ∧ x = .out p i v := by
  by_cases h : c <;> simp [h]

section Lookup
variable {s : State} {f : FabFrame} {set : Nat}

theorem lookupFrame_of_retired (h : (bankOf s.routing f.bank).cond = .retired) : lookupFrame s f set = .drop .bank := by
  simp [lookupFrame, h]

theorem lookupFrame_of_own_from_link (hbank : (bankOf s.routing f.bank).cond ≠ .retired) (hown : f.dst.toNat = nodeId s)
    (hset : set ≠ 16) : lookupFrame s f set = .here := by
  simp [lookupFrame, hbank, hown, hset]

theorem lookupFrame_of_no_hops (hbank : (bankOf s.routing f.bank).cond ≠ .retired) (hother : f.dst.toNat ≠ nodeId s)
    (hset : set ≠ 16) (hhops : f.hops = 0) : lookupFrame s f set = .drop .hop := by
  simp [lookupFrame, hbank, hother, hset, hhops]

theorem lookupFrame_of_no_key (hbank : (bankOf s.routing f.bank).cond ≠ .retired) (hother : f.dst.toNat ≠ nodeId s)
    (hset : set ≠ 16) (hhops : f.hops ≠ 0) (hkey : keyMember s f.bank set f.pkey.toNat = false) :
    lookupFrame s f set = .drop .pkey := by
  simp only [lookupFrame, beq_iff_eq, hbank, hother, hset, hhops, hkey, ne_eq, not_false_eq_true, and_false, and_self,
    if_false, if_true]

/-- A frame for this device that leaves is one it injects, through the looped port asked for (R373). -/
theorem lookupFrame_own_out {p i v : Nat} (hown : f.dst.toNat = nodeId s) (h : lookupFrame s f set = .out p i v) :
    (bankOf s.routing f.bank).cond ≠ .retired ∧ set = 16 ∧ p < 16 ∧ isEth s p = false ∧ v = f.vc.toNat := by
  by_cases hbank : (bankOf s.routing f.bank).cond = .retired
  · simp [lookupFrame_of_retired hbank] at h
  by_cases hset : set = 16
  · simp only [lookupFrame, beq_iff_eq, hbank, hown, hset, if_false, if_true] at h
    split at h
    case h_1 => contradiction
    case h_2 x hx =>
      split at h
      case isFalse => contradiction
      case isTrue hloop =>
        obtain ⟨rfl, -, rfl⟩ := Lookup.out.inj h
        obtain ⟨-, heth⟩ := Bool.and_eq_true_iff.mp hloop
        exact ⟨hbank, hset, xportOf_lt hx, Bool.not_eq_eq_eq_not.mp heth, rfl⟩
  · simp [lookupFrame_of_own_from_link hbank hown hset] at h

/-- A frame for another node that leaves takes the first live choice of a valid entry, and its next VC (R202, R203). -/
theorem lookupFrame_other_out {p i v : Nat} (hother : f.dst.toNat ≠ nodeId s) (h : lookupFrame s f set = .out p i v) :
    (bankOf s.routing f.bank).cond ≠ .retired ∧ (routeEntry s f.bank set f.dst.toNat).getLsbD 31 = true
      ∧ ∃ dl, (choicesOf (routeEntry s f.bank set f.dst.toNat)).find? (choiceLive s set) = some (i, p, dl)
        ∧ nextVc f.vc.toNat dl = some v := by
  simp only [lookupFrame, hother, if_false, ite_drop_eq_out] at h
  obtain ⟨hbank, -, -, hvalid, h⟩ := h
  split at h
  case h_1 => contradiction
  case h_2 c hlive =>
    split at h
    case h_1 => contradiction
    case h_2 hvc =>
      obtain ⟨rfl, rfl, rfl⟩ := Lookup.out.inj h
      exact ⟨by simpa using hbank, by simpa using hvalid, _, hlive, hvc⟩

end Lookup

/-- Settles O23: what a frame sent out says of its choice is read off the choice found; each other outcome is its own
equation of the lookup. -/
theorem lookupFollowsItsPseudocode : Obligations.LookupFollowsItsPseudocode := by
  intro s f set hset hvc
  refine ⟨fun p i v h => ?_, lookupFrame_of_retired, lookupFrame_of_own_from_link, lookupFrame_of_no_hops,
    lookupFrame_of_no_key, fun why h => by simp only [handleFrame, h]⟩
  by_cases hown : f.dst.toNat = nodeId s
  · obtain ⟨hbank, rfl, hp, heth, rfl⟩ := lookupFrame_own_out hown h
    exact ⟨hbank, heth, Nat.ne_of_lt hp, hvc, .inl rfl, fun hother => absurd hown hother⟩
  · obtain ⟨hbank, hvalid, dl, hfind, hnext⟩ := lookupFrame_other_out hown h
    obtain ⟨i, hi, hc, hlive, hnamed, hbefore⟩ := find?_choicesOf_eq_some hfind
    obtain ⟨rfl, rfl, rfl⟩ : _ = i ∧ p = _ ∧ dl = _ := by simpa only [entryChoice, Prod.mk.injEq] using hc
    obtain ⟨hne, hup⟩ := choiceLive_iff.mp hlive
    have hmove := nextVc_eq_some hnext
    refine ⟨hbank, isEth_of_fabUp hup, hne, by omega, by omega, fun _ => ⟨hup, _, rfl, hvalid, hi, rfl, ?_, ?_, ?_⟩⟩
    · intro hi0
      simpa [namesChoice, hi0] using hnamed
    · intro hvc0
      have hvc0' : f.vc.toNat ≠ 0 := fun h0 => hvc0 (BitVec.eq_of_toNat_eq h0)
      rcases hmove with ⟨rfl, hstay⟩ | ⟨rfl, -, hdl⟩
      · simp [hstay.resolve_left hvc0']
      · simp [hdl]
    · intro j hj hj_named
      have hdead := hbefore j hj (by simpa [namesChoice] using hj_named)
      rw [← Bool.not_eq_true, choiceLive_iff] at hdead
      exact Decidable.or_iff_not_imp_left.mpr fun hne' => eq_false_of_ne_true fun hup' => hdead ⟨hne', hup'⟩

end Sys2Proof.Machine
end

section
/-! ## Frames and control frames from a fabric link, replay and the VC0 hold (R190 to R199) -/

namespace Sys2Proof.Machine

/-! ### Updates of a port -/

theorem modPort_congr {s : State} {p : Nat} {f g : Port → Port} (h : f (s.port p) = g (s.port p)) :
    s.modPort p f = s.modPort p g := congrArg (fun k => { s with ports := s.ports.put p k }) h

@[simp] theorem port_modCnt (s : State) (p : Nat) (f : PortCounts → PortCounts) :
    (s.modCnt p f).port p = { s.port p with cnt := f (s.port p).cnt } :=
  port_modPort s p _

@[simp] theorem port_arriveAt (s : State) (t p : Nat) : (s.arriveAt t).port p = s.port p := rfl

/-! ### Control frames that come as commands -/

/-- The bytes of a control frame are counted (R222). -/
def ctlCounted (s : State) (p : Nat) : State := s.modCnt p (fun c => { c with rxBytes := wrap 64 (c.rxBytes + 44) })

/-- The VC0 buffer of a control frame is free again if the link is UP then (R198). -/
def ctlFreed (p : Nat) (t : State) : State := if (t.port p).cond = .up then freeBuffer t p 0 1 else t

theorem port_ctlCounted (s : State) (p : Nat) : (ctlCounted s p).port p = { s.port p with
    cnt := { (s.port p).cnt with rxBytes := wrap 64 ((s.port p).cnt.rxBytes + 44) } } :=
  port_modCnt s p _

theorem ctlIn_of_fabric {s : State} {p : Nat} (heth : isEth s p = false) (hcond : (s.port p).cond ≠ .down)
    (f : State → State) : ctlIn s p f = ctlFreed p (f (ctlCounted s p)) := by
  have gate : ((s.port p).cond == .down || isEth s p) = false := by simp [heth, hcond]
  have freed (t : State) : (if (t.port p).cond == .up then freeBuffer t p 0 1 else t) = ctlFreed p t := by
    simp only [ctlFreed, beq_iff_eq]
  simp only [ctlIn, gate, freed, Bool.false_eq_true, if_false]
  rfl

/-- A control frame that only a link in UP takes. -/
theorem ctlIn_of_up {s : State} {p : Nat} (hline : fromLine s p = true) (heth : isEth s p = false)
    (hup : (s.port p).cond = .up) (f : State → State) :
    (if fromLine s p && (s.port p).cond == .up then ctlIn s p f else s) = ctlFreed p (f (ctlCounted s p)) := by
  have hcond : (s.port p).cond ≠ .down := by simp [hup]
  simp [hline, hup, ctlIn_of_fabric heth hcond]

theorem ackFrames_of_progress {s : State} {p l : Nat} {still : Queued → Bool}
    (hstill : still = fun q => decide (dmod 16 l q.frame.lseq.toNat ≥ 2 ^ 15))
    (hless : ((s.port p).replay.filter still).length < (s.port p).replay.length) :
    ackFrames s p l = s.modPort p (fun k => { k with
      replay := k.replay.filter still, again := k.again.filter still
      progressAt := s.now, fruitless := 0, ackedSeq := l }) := by
  subst hstill
  exact modPort_congr (if_pos hless)

theorem nakIn_of_up {s : State} {p : Nat} (hup : (s.port p).cond = .up) (l : Nat) :
    nakIn s p l = replayOr (ackFrames s p (dmod 16 l 1)) p (some l) := by
  simp [nakIn, hup]

theorem addCredits_of_vc {s : State} {p vc : Nat} (hvc : vc ≤ 6) (n : Nat) :
    addCredits s p vc n = s.modPort p (fun k => { k with
      credits := k.credits.put vc (min (if vc = 0 then 1024 else 3712) (k.credits.findD vc 0 + n)) }) := by
  simp only [addCredits, fullCredits, hvc, if_true]
  rfl

/-! ### Frames -/

/-- The bytes of a frame that arrives are counted (R222). -/
def frameCounted (s : State) (p : Nat) (f : FabFrame) : State :=
  s.modCnt p (fun c => { c with rxBytes := wrap 64 (c.rxBytes + frameLen f) })

theorem sendNak_of_none_sent {s : State} {p : Nat} (h : (s.port p).nakSent = false) :
    sendNak s p
      = sendCtl (s.modPort p (fun k => { k with nakSent := true })) p (.nak (BitVec.ofNat 16 (s.port p).rxSeq)) := by
  simp [sendNak, h]

section Receiving
variable {s u : State} {p : Nat} {f : FabFrame}

theorem receiveFrame_of_bad_lcrc (heth : isEth s p = false) (hup : (s.port p).cond = .up) (hu : u = frameCounted s p f)
    (hlcrc : f.lcrcOk = false) :
    receiveFrame s p f = sendNak (u.modCnt p (fun c => { c with lcrcErr := wrap 32 (c.lcrcErr + 1) })) p := by
  subst hu
  simp [receiveFrame, frameCounted, heth, hup, hlcrc]

/-- A routed frame comes in whole over a fabric link that is UP; only its place in LSEQ order is left to say (R196). -/
structure RoutedComes (s : State) (p : Nat) (f : FabFrame) : Prop where
  fabric : isEth s p = false
  up : (s.port p).cond = .up
  whole : f.lcrcOk = true
  routed : replayed f = true

theorem receiveFrame_of_seen (h : RoutedComes s p f) (hu : u = frameCounted s p f)
    (hseen : 2 ^ 15 ≤ dmod 16 f.lseq.toNat (s.port p).rxSeq) : receiveFrame s p f = u := by
  obtain ⟨heth, hup, hlcrc, hrouted⟩ := h
  have hseen' : dmod 16 f.lseq.toNat (s.port p).rxSeq ≥ 32768 := hseen
  subst hu
  simp [receiveFrame, frameCounted, heth, hup, hlcrc, hrouted, hseen']

theorem receiveFrame_of_gap (h : RoutedComes s p f) (hu : u = frameCounted s p f)
    (hgap : 0 < dmod 16 f.lseq.toNat (s.port p).rxSeq) (hahead : dmod 16 f.lseq.toNat (s.port p).rxSeq < 2 ^ 15) :
    receiveFrame s p f = sendNak u p := by
  obtain ⟨heth, hup, hlcrc, hrouted⟩ := h
  have hahead' : ¬ dmod 16 f.lseq.toNat (s.port p).rxSeq ≥ 32768 := Nat.not_le.mpr hahead
  have hgap' := Nat.ne_of_gt hgap
  subst hu
  simp [receiveFrame, frameCounted, heth, hup, hlcrc, hrouted, hahead', hgap']

theorem receiveFrame_of_next {v w : State} (h : RoutedComes s p f) (hu : u = frameCounted s p f)
    (hnext : dmod 16 f.lseq.toNat (s.port p).rxSeq = 0)
    (hv : v = (takeLinkWord u p f).modPort p (fun k => { k with rxSeq := wrap 16 (k.rxSeq + 1), nakSent := false }))
    (hw : w = if (s.port p).ver = 1 then sendCtl v p (.ack f.lseq) else v) (hformat : badFormat w p f = false)
    (hvc : f.vc ≠ 7) : receiveFrame s p f = handleFrame w f p := by
  obtain ⟨heth, hup, hlcrc, hrouted⟩ := h
  have gate : (isEth s p || (s.port p).cond == .down) = false := by simp [heth, hup]
  have up : ((s.port p).cond != .up) = false := by simp [hup]
  have looked {x : State} (hx : x = w) : (if badFormat x p f = true
      then freeBuffer (formatDrop x p) p f.vc.toNat (frameCredits f)
      else if f.vc = 7 then circuitFrame x p f else handleFrame x f p) = handleFrame w f p := by
    rw [hx, hformat, if_neg Bool.false_ne_true, if_neg hvc]
  subst hu hv
  simp only [receiveFrame, gate, up, hlcrc, hrouted, hnext, Bool.not_true, Bool.false_eq_true, ne_eq,
    not_true_eq_false, if_false]
  exact looked hw.symm

end Receiving

/-! ### Replay and the VC0 hold -/

theorem replayLate_of_waiting {s : State} {p : Nat} (hup : (s.port p).cond = .up) (hreplay : (s.port p).replay ≠ [])
    (hagain : (s.port p).again = []) (hfruit : (s.port p).fruitless < 8) :
    replayLate s p = replayFrom (s.arriveAt ((s.port p).progressAt + max 1000 (fld (s.port p).cfg 47 32))) p none := by
  have gate : ((s.port p).cond != .up || (s.port p).replay.isEmpty || !(s.port p).again.isEmpty) = false := by
    simp [hup, hreplay, hagain]
  simp only [replayLate, gate, replayOr, port_arriveAt, ge_iff_le, Nat.not_le.mpr hfruit, Bool.false_eq_true, if_false]

theorem holdOver_of_short {s u : State} {p : Nat} {q : Queued} {rest : List Queued} (heth : isEth s p = false)
    (hqueue : (s.port p).queues.findD 0 [] = q :: rest)
    (hshort : (s.port p).credits.findD 0 0 < frameCredits q.frame)
    (hu : u = s.arriveAt (q.since + max 1 (fld s.routing.cfg 31 16) * 1000)) :
    holdOver s p = freeBuffer ((u.modPort p (fun k => { k with queues := k.queues.put 0 rest })).modCnt p
      (fun c => { c with vc0Drop := wrap 16 (c.vc0Drop + 1) })) q.arr q.arrVc (frameCredits q.frame) := by
  have dropped : u.modPort p (fun k => { k with queues := k.queues.modifyD 0 [] (dropQueued q) })
      = u.modPort p (fun k => { k with queues := k.queues.put 0 rest }) := by
    subst hu
    exact modPort_congr (by simp only [port_arriveAt, Tbl.modifyD, hqueue, dropQueued, if_true])
  have gate : (isEth s p || decide (frameCredits q.frame ≤ (s.port p).credits.findD 0 0)) = false := by
    simp [heth, hshort]
  simp only [holdOver, hqueue, gate, Bool.false_eq_true, if_false, ← hu, dropped]

/-- Settles O20: a command from the line runs its own effect between the count of its bytes and the return of its
buffer. -/
theorem fabricFramesArriveAndAreReplayed : Obligations.FabricFramesArriveAndAreReplayed := by
  intro s port p k ctl free hp hk hctl hfree
  subst hp hk
  obtain rfl : ctl = ctlCounted s port.toNat := hctl
  obtain rfl : free = ctlFreed port.toNat := hfree
  refine ⟨fun f u hline heth hup hu => ?_, fun l still hline heth hup hstill hless => ?_,
    fun l u hline heth hup hu => ?_, fun vc n hline heth hup hvc => ?_,
    fun hup hreplay hagain hfruit => congrArg Host.Outcome.next (replayLate_of_waiting hup hreplay hagain hfruit),
    fun q rest u heth hqueue hshort hu => congrArg Host.Outcome.next (holdOver_of_short heth hqueue hshort hu)⟩
  · have received : exec (.fabricFrameReceived port f) s = .next (receiveFrame s port.toNat f) :=
      congrArg Host.Outcome.next (if_pos hline)
    have counted : u = frameCounted s port.toNat f := hu
    rw [received]
    refine ⟨fun v hlcrc hnak hv => ?_, fun v w hlcrc hrouted hnext hv hw hformat hvc => congrArg Host.Outcome.next
        (receiveFrame_of_next ⟨heth, hup, hlcrc, hrouted⟩ counted hnext hv hw hformat hvc),
      fun hlcrc hrouted hseen => congrArg Host.Outcome.next
        (receiveFrame_of_seen ⟨heth, hup, hlcrc, hrouted⟩ counted hseen),
      fun hlcrc hrouted hgap hahead => congrArg Host.Outcome.next
        (receiveFrame_of_gap ⟨heth, hup, hlcrc, hrouted⟩ counted hgap hahead)⟩
    obtain ⟨c, hport⟩ : ∃ c, v.port port.toNat = { s.port port.toNat with cnt := c } :=
      ⟨_, by rw [hv, port_modCnt, hu, port_modCnt]⟩
    have nak := sendNak_of_none_sent (s := v) (p := port.toNat) (by rw [hport]; exact hnak)
    rw [hport] at nak
    exact congrArg Host.Outcome.next ((receiveFrame_of_bad_lcrc heth hup counted hlcrc).trans (hv ▸ nak))
  · refine congrArg Host.Outcome.next ((ctlIn_of_up hline heth hup _).trans (congrArg (ctlFreed _) ?_))
    exact ackFrames_of_progress hstill (by rw [port_ctlCounted]; exact hless)
  · refine congrArg Host.Outcome.next ((ctlIn_of_up hline heth hup _).trans (congrArg (ctlFreed _) ?_))
    subst hu
    exact nakIn_of_up (by rw [port_ctlCounted]; exact hup) l.toNat
  · refine congrArg Host.Outcome.next ((ctlIn_of_up hline heth hup _).trans (congrArg (ctlFreed _) ?_))
    exact congrArg (noteStalls · port.toNat) (addCredits_of_vc hvc n.toNat)

end Sys2Proof.Machine
end

section
/-! ## The conditions of a fabric link (R193 to R195), FLL_CFG and FAB_NODE (R222) -/

namespace Sys2Proof.Machine

/-! ### HELLO -/

section Hello
variable {s : State} {p src ver nbrPort : Nat} {id : Word}

/-- The third HELLO in a row from one neighbour. -/
theorem helloIn_of_third (hcond : (s.port p).cond = .training)
    (hfrom : (s.port p).helloFrom = some (src, nbrPort, ver)) (hcount : 2 ≤ (s.port p).helloCount)
    (haligned : (s.port p).aligned = true) : helloIn s p src ver nbrPort id = linkUp s p src ver nbrPort id := by
  have third : (s.port p).helloCount + 1 ≥ 3 ∧ (s.port p).aligned = true := ⟨Nat.succ_le_succ hcount, haligned⟩
  simp only [helloIn, hcond, hfrom, third, if_true, and_self]

theorem helloIn_of_up_same (hcond : (s.port p).cond = .up) (hnode : (s.port p).nbrNode = src)
    (hport : (s.port p).nbrPort = nbrPort) :
    helloIn s p src ver nbrPort id = s.modPort p (fun k => { k with nbrPlan := some id }) := by
  simp [helloIn, hcond, hnode, hport]

theorem helloIn_of_up_other (hcond : (s.port p).cond = .up)
    (hother : (s.port p).nbrNode ≠ src ∨ (s.port p).nbrPort ≠ nbrPort) :
    helloIn s p src ver nbrPort id = portDown s p false := by
  have other : ((s.port p).nbrNode == src && (s.port p).nbrPort == nbrPort) = false := by
    rcases hother with h | h <;> simp [h]
  simp only [helloIn, hcond, other, Bool.false_eq_true, if_false]

theorem helloIn_of_retrain_same (hcond : (s.port p).cond = .retrain) (hnode : (s.port p).nbrNode = src)
    (hport : (s.port p).nbrPort = nbrPort) :
    helloIn s p src ver nbrPort id = replayFrom (s.modPort p (fun k => { k with
      cond := .up, since := s.now, aligned := true, nbrPlan := some id, lastHello := s.now, nakSent := false }))
      p none := by
  simp [helloIn, hcond, hnode, hport]

theorem exec_hello_of_fabric {port : BitVec 4} {src : BitVec 18} {ver : Byte} {np : BitVec 4}
    (hline : fromLine s port.toNat = true) (heth : isEth s port.toNat = false)
    (hcond : (s.port port.toNat).cond ≠ .down) :
    exec (.hello port src ver np id) s = .next (ctlFreed port.toNat
      (helloIn (ctlCounted s port.toNat) port.toNat src.toNat ver.toNat np.toNat id)) :=
  congrArg Host.Outcome.next ((if_pos hline).trans (ctlIn_of_fabric heth hcond _))

end Hello

/-! ### The timers of a link -/

theorem helloDue_of_alive {s u : State} {p : Nat} (hserve : s.inService = true) (heth : isEth s p = false)
    (hcond : (s.port p).cond ≠ .down) (hmute : portMute s p = false) (hloop : loopOf s p = 0)
    (hu : u = (s.arriveAt ((s.port p).lastHello + (if (s.port p).cond = .up then 1000000 else 10000))).modPort p
      (fun k => { k with lastHello := (s.arriveAt ((s.port p).lastHello
        + (if (s.port p).cond = .up then 1000000 else 10000))).now })) :
    helloDue s p = sendCtl u p (helloOf u p) := by
  have gate : (!s.inService || isEth s p || (s.port p).cond == .down || portMute s p) = false := by
    simp [hserve, heth, hcond, hmute]
  have back : loopBack (sendCtl u p (helloOf u p)) p (ctlFrame u p (helloOf u p)) = sendCtl u p (helloOf u p) :=
    loopBack_of_no_loop ((loopOf_congr (sendCtl_tst u p _) p).trans (by rw [hu]; exact hloop)) _
  simp only [helloDue, gate, beq_iff_eq, ← hu, back, Bool.false_eq_true, if_false, ite_self]

theorem pcsLost_of_up {s : State} {p : Nat} (hup : (s.port p).cond = .up) : pcsLost s p = fabRetrain s p := by
  simp [pcsLost, hup]

theorem retrainOver_of_retrain {s : State} {p : Nat} (h : (s.port p).cond = .retrain) :
    retrainOver s p = portDown (s.arriveAt ((s.port p).since + max 1 (fld (s.port p).cfg 63 48) * 1000)) p false := by
  simp [retrainOver, h]

theorem trainAgain_of_down {s : State} {p : Nat} (hserve : s.inService = true) (hdown : (s.port p).cond = .down)
    (hmay : fabMayTrain s p = true) : trainAgain s p = startTraining (s.arriveAt ((s.port p).since + 1000000)) p := by
  simp [trainAgain, hserve, hdown, hmay]

/-! ### FLL_CFG and FAB_NODE -/

theorem setFld_mod_two_pow (r : Word) (hi lo v : Nat) :
    (r.toNat - fld r hi lo * 2 ^ lo + v % 2 ^ (hi + 1 - lo) * 2 ^ lo) % 2 ^ lo = r.toNat % 2 ^ lo := by
  have taken : 2 ^ lo * fld r hi lo ≤ r.toNat :=
    Nat.le_trans (Nat.mul_le_mul_left _ (Nat.mod_le _ _)) (Nat.mul_div_le _ _)
  rw [Nat.add_mul_mod_self_right, Nat.mul_comm, Nat.sub_mul_mod taken]

/-- Setting a field leaves the bits below it. -/
theorem bit_setFld_of_lt {r : Word} {i hi lo : Nat} (h : i < lo) (v : Nat) : bit (setFld r hi lo v) i = bit r i := by
  have below := congrArg (Nat.testBit · i) (setFld_mod_two_pow r hi lo v)
  simp only [Nat.testBit_mod_two_pow, h, decide_true, Bool.true_and] at below
  rw [bit, setFld, BitVec.getLsbD_ofNat, below]
  by_cases hi64 : i < 64
  · rw [decide_eq_true hi64, Bool.true_and]
    rfl
  · rw [decide_eq_false hi64, Bool.false_and, bit, BitVec.getLsbD_of_ge r i (Nat.not_lt.mp hi64)]

theorem bit_fllValue (v : Word) : bit (fllValue v) 1 = bit v 1 := by
  simp only [fllValue, bit_setFld_of_lt (show 1 < 4 by decide), bit_setFld_of_lt (show 1 < 32 by decide),
    bit_setFld_of_lt (show 1 < 48 by decide)]

/-- A write with EN 1 to an enabled port whose link is not DOWN sets RETRAIN_MAX and REPLAY_TO (R193, R222). -/
theorem writeFllCfg_of_enabled {s : State} {p : Nat} {v : Word} (hen : bit v 1 = true)
    (hold : bit (s.port p).cfg 1 = true) (hcond : (s.port p).cond ≠ .down) :
    writeFllCfg s p v = s.modPort p (fun k => { k with cfg := merge [(63, 48), (47, 32), (1, 1)] k.cfg v }) := by
  have alive (f : Port → Word) : (((s.modPort p (fun k => { k with cfg := f k })).port p).cond == .down) = false := by
    simp [hcond]
  simp only [writeFllCfg, hen, hold, alive, Bool.not_true, Bool.false_and, Bool.or_self, Bool.and_false,
    Bool.false_eq_true, if_true, if_false, List.append_nil]

theorem writeFabNode_of_set {s : State} {v : Word} (hset : bit s.routing.node 18 = true) :
    writeFabNode s v = { s with routing := { s.routing with
      node := reg [(18, 18, 1), (17, 0, if holdsPlan s then fld s.routing.node 17 0 else fld v 17 0)] } } := by
  simp only [writeFabNode, State.modRouting, hset, Bool.true_or, Bool.toNat_true, if_true]

/-- Settles O21: a HELLO runs its case between the count of its bytes and the return of its buffer, and each timer and
write is one equation of its operation. -/
theorem fabricLinksChangeCondition : Obligations.FabricLinksChangeCondition := by
  intro s port p k ctl free hp hk hctl hfree
  subst hp hk
  obtain rfl : ctl = ctlCounted s port.toNat := hctl
  obtain rfl : free = ctlFreed port.toNat := hfree
  refine ⟨fun src ver np id hline heth => ?_, fun u hserve heth hcond hmute hloop hu => ?_,
    fun hup => congrArg Host.Outcome.next ((pcsLost_of_up hup).trans (modPort_congr rfl)),
    fun u hretrain hu => ?_, fun hserve hdown hmay => congrArg Host.Outcome.next (trainAgain_of_down hserve hdown hmay),
    fun link v ht hen hold hcond => ?_, fun link v ht hset => ?_⟩
  · have port_eq := port_ctlCounted s port.toNat
    have runs (hcond : (s.port port.toNat).cond ≠ .down) {t : State}
        (h : helloIn (ctlCounted s port.toNat) port.toNat src.toNat ver.toNat np.toNat id = t) :
        exec (.hello port src ver np id) s = .next (ctlFreed port.toNat t) :=
      (exec_hello_of_fabric hline heth hcond).trans (congrArg (fun t => Host.Outcome.next (ctlFreed port.toNat t)) h)
    refine ⟨fun hcond hfrom hcount haligned => runs (by simp [hcond]) (helloIn_of_third ?_ ?_ ?_ ?_),
      fun hcond hnode hport => runs (by simp [hcond]) (helloIn_of_up_same ?_ ?_ ?_),
      fun hcond hother => runs (by simp [hcond]) (helloIn_of_up_other ?_ ?_),
      fun hcond hnode hport => runs (by simp [hcond]) (helloIn_of_retrain_same ?_ ?_ ?_)⟩
    all_goals rw [port_eq]; assumption
  · subst hu
    exact congrArg Host.Outcome.next (helloDue_of_alive hserve heth hcond hmute hloop rfl)
  · subst hu
    exact congrArg Host.Outcome.next (retrainOver_of_retrain hretrain)
  · refine congrArg Host.Outcome.next ((ctlWrite_taken ht _).trans (congrArg settle ?_))
    exact writeFllCfg_of_enabled ((bit_fllValue v).trans hen) hold hcond
  · exact congrArg Host.Outcome.next ((ctlWrite_taken ht _).trans (writeFabNode_of_set hset))

end Sys2Proof.Machine
end

section
/-! ## The routing banks (R217 to R219, R222) -/

namespace Sys2Proof.Machine

/-! ### Finding and changing a bank -/

/-- Of the two banks the one that satisfies a condition is found, where the other does not. -/
theorem find?_banks {q : Bool → Bool} {b : Bool} (h : q b = true) (hother : q (!b) = false) :
    [false, true].find? q = some b := by
  cases b with
  | false => exact List.find?_cons_of_pos h
  | true => rw [List.find?_cons_of_neg (by simpa using hother), List.find?_cons_of_pos h]

theorem modBank_congr {s : State} {b : Bool} {f g : Bank → Bank} (h : f (bankOf s.routing b) = g (bankOf s.routing b)) :
    s.modBank b f = s.modBank b g := by
  cases b with
  | false => exact congrArg (fun k => { s with routing := { s.routing with bank0 := k } }) h
  | true => exact congrArg (fun k => { s with routing := { s.routing with bank1 := k } }) h

theorem modBank_sel (s : State) (b : Bool) (f : Bank → Bank) : (s.modBank b f).routing.sel = s.routing.sel := by
  cases b <;> rfl

theorem stagedOrArmed_of_staged {k : Bank} (h : k.cond = .staged) : stagedOrArmed k = true := by
  simp [stagedOrArmed, h]

/-! ### ROUTE_CMD -/

theorem routeRow_taken {s : State} {l cmd : Nat} {v : Word} (ht : taken s l 0x61018 [(63, 8)] v = true)
    (hcmd : fld v 7 0 = cmd) (f : State → State) : routeRow s l v cmd f = f s :=
  (if_neg (not_not_intro hcmd)).trans (ctlWrite_taken ht f)

theorem copyBank_of_retired {s : State} {b : Bool} (hinject : injectBank s = some b)
    (hretired : (bankOf s.routing (!b)).cond = .retired) (hslot : s.plans.nextCond = .empty) :
    copyBank s = routeCode (s.modBank (!b) (fun _ => ⟨.staged, (bankOf s.routing b).sets, true, 0⟩)) St.ok := by
  simp [copyBank, hinject, hretired, hslot]

theorem copyBank_of_none {s : State} (hinject : injectBank s = none) : copyBank s = routeCode s St.planMismatch := by
  simp [copyBank, hinject]

section Discard
variable {s : State} {b : Bool} (hstaged : (bankOf s.routing b).cond = .staged)
  (hother : stagedOrArmed (bankOf s.routing (!b)) = false)
include hstaged hother

theorem discardBank_of_manager (hmgr : (bankOf s.routing b).mgr = true) :
    discardBank s
      = routeCode ((s.modBank b (fun _ => Bank.reset)).modRouting (fun r => { r with tableFront := none })) St.ok := by
  have found := find?_banks (q := fun b => stagedOrArmed (bankOf s.routing b)) (stagedOrArmed_of_staged hstaged) hother
  simp [discardBank, found, hmgr, hstaged]

theorem discardBank_of_plan (hmgr : (bankOf s.routing b).mgr = false) :
    discardBank s = routeCode s St.planMismatch := by
  have found := find?_banks (q := fun b => stagedOrArmed (bankOf s.routing b)) (stagedOrArmed_of_staged hstaged) hother
  simp [discardBank, found, hmgr]

end Discard

/-! ### ROUTE_TBL_DATA -/

theorem advanceSel_of_fixed {s : State} (h : bit s.routing.sel 31 = false) : advanceSel s = s := by
  simp [advanceSel, h]

theorem writeTable_of_staged {s : State} {v : Word} {b : Bool} (hb : b = selBank s)
    (hslot : s.plans.nextCond = .empty) (hvalid : selValid s = true)
    (hstaged : (bankOf s.routing b).cond = .staged) (hmgr : (bankOf s.routing b).mgr = true)
    (hfixed : bit s.routing.sel 31 = false) :
    writeTable s v = s.modBank b (fun k => { k with
      cond := .staged, mgr := true
      sets := k.sets.put (selSet s) (storeEntry (routeSet s b (selSet s)) (selTable s) (selIndex s) v) }) := by
  subst hb
  have may : (s.plans.nextCond == .empty && selValid s && (((bankOf s.routing (selBank s)).cond == .staged
      && (bankOf s.routing (selBank s)).mgr) || ((bankOf s.routing (selBank s)).cond == .retired
      && !stagedOrArmed (bankOf s.routing (!selBank s))))) = true := by
    simp [hslot, hvalid, hstaged, hmgr]
  simp only [writeTable, may, if_true]
  rw [advanceSel_of_fixed (by rw [modBank_sel]; exact hfixed)]
  exact modBank_congr rfl

theorem ctlRead_of_served {s : State} {l a : Nat} (harrives : arrives s l = true) (hserves : serves s l a = true)
    (f : State → Word × State) : ctlRead s l a f = (f s).2.sent (.regRead l (f s).1) := by
  simp [ctlRead, harrives, hserves]

/-! ### TABLE_FRONT and the drain bound -/

theorem armTable_of_staged {s : State} {v : Word} {b : Bool} (hstaged : (bankOf s.routing b).cond = .staged)
    (hmgr : (bankOf s.routing b).mgr = true) (hother : (bankOf s.routing (!b)).cond ≠ .staged)
    (hslot : s.plans.nextCond = .empty) (hmult : v.toNat % 256 = 0) (hahead : s.now + 10000000 ≤ v.toNat) :
    armTable s v = routeCode ((s.modBank b (fun k => { k with cond := .armed })).modRouting
      (fun r => { r with tableFront := some v.toNat })) St.ok := by
  have found := find?_banks (q := fun b => (bankOf s.routing b).cond == .staged && (bankOf s.routing b).mgr) (b := b)
    (by simp [hstaged, hmgr]) (by simp [hother])
  simp [armTable, found, hslot, hmult, hahead]

theorem reachTableFront_of_armed {s : State} {f : Nat} {b : Bool} (hfront : s.routing.tableFront = some f)
    (harmed : (bankOf s.routing b).cond = .armed) (hother : (bankOf s.routing (!b)).cond = .inject)
    (hserve : s.inService = true) :
    reachTableFront s
      = (moveInjection (latchDue (s.arriveAt f) false) b).modRouting (fun r => { r with tableFront := none }) := by
  have found := find?_banks (q := fun b => (bankOf s.routing b).cond == .armed) (b := b) (by simp [harmed])
    (by simp [hother])
  simp [reachTableFront, hfront, found, hserve]

theorem drainBank_of_drain {s : State} {b : Bool} (hdrain : (bankOf s.routing b).cond = .drain)
    (hother : (bankOf s.routing (!b)).cond ≠ .drain) : drainBank s
      = (s.arriveAt ((bankOf s.routing b).drainFrom + bankDrain s)).modBank b (fun _ => Bank.reset) := by
  have found := find?_banks (q := fun b => (bankOf s.routing b).cond == .drain) (b := b) (by simp [hdrain])
    (by simp [hother])
  simp [drainBank, found]

/-- Settles O22: each command is one equation of its operation, on the bank its conditions single out. -/
theorem routingBanksMoveAsTheirTableSays : Obligations.RoutingBanksMoveAsTheirTableSays := by
  intro s
  refine ⟨fun link v b ht hcmd hinject hretired hslot => ?_, fun link v ht hcmd hinject => ?_,
    fun link v b ht hcmd hstaged hother => ⟨fun hmgr => ?_, fun hmgr => ?_⟩,
    fun link v b k ht hb hk hslot hvalid hstaged hmgr hfixed => ?_, fun link harrives hserves hfixed => ?_,
    fun link v b ht hstaged hmgr hother hslot hmult hahead => ?_,
    fun f b u hfront harmed hother hserve hu => ?_, fun b u hdrain hother hu => ?_⟩
  · exact congrArg Host.Outcome.next ((routeRow_taken ht hcmd _).trans (copyBank_of_retired hinject hretired hslot))
  · exact congrArg Host.Outcome.next ((routeRow_taken ht hcmd _).trans (copyBank_of_none hinject))
  · exact congrArg Host.Outcome.next ((routeRow_taken ht hcmd _).trans (discardBank_of_manager hstaged hother hmgr))
  · exact congrArg Host.Outcome.next ((routeRow_taken ht hcmd _).trans (discardBank_of_plan hstaged hother hmgr))
  · subst hk
    exact congrArg Host.Outcome.next ((ctlWrite_taken ht _).trans
      (writeTable_of_staged hb hslot hvalid hstaged hmgr hfixed))
  · refine congrArg Host.Outcome.next ((ctlRead_of_served harrives hserves _).trans ?_)
    rw [advanceSel_of_fixed hfixed]
    rfl
  · exact congrArg Host.Outcome.next ((ctlWrite_taken ht _).trans
      (armTable_of_staged hstaged hmgr hother hslot hmult hahead))
  · subst hu
    exact congrArg Host.Outcome.next (reachTableFront_of_armed hfront harmed hother hserve)
  · subst hu
    exact congrArg Host.Outcome.next (drainBank_of_drain hdrain hother)

end Sys2Proof.Machine
end

section
/-! ## Writes of registers without a row of their own (R295 to R297) -/

namespace Sys2Proof.Machine

/-! ### Violations -/

/-- A violation of another kind than reserved bits counts a refused access, and is recorded (R297). -/
theorem violate_of_access {s : State} {kind : Nat} (hkind : kind ≠ Viol.reservedBits) (l addr : Nat) :
    violate s l kind addr true = { s with ctrl := { s.ctrl with
      refused := s.ctrl.refused.put l (wrap 32 (s.ctrl.refused.findD l 0 + 1))
      lastViol := reg [(63, 63, 1), (62, 61, l), (60, 56, kind), (33, 0, addr)] } } := by
  simp only [violate, hkind, if_false]
  rfl

theorem narrowWrite_of_served {s : State} {l a : Nat} (harrives : arrives s l = true) (hserves : serves s l a = true) :
    narrowWrite s l a = violate s l Viol.narrow a true := by
  simp [narrowWrite, harrives, hserves]

theorem narrowWrite_of_unserved {s : State} {l a : Nat} (harrives : arrives s l = true) (hserves : serves s l a = false)
    (hmap : reservedMap a = false) : narrowWrite s l a = violate s l Viol.notServed a true := by
  simp [narrowWrite, refuseAccess, harrives, hserves, hmap]

/-! ### Writes that are taken -/

/-- A write taken with the register's reserved bits zero does what its chapter says. -/
theorem plainWrite_taken {s : State} {l a : Nat} {rsv : List (Nat × Nat)} {v : Word} {fs : Fields}
    (ht : taken s l a rsv v = true) (hreg : regAt s a = some fs) (hrsv : maskOf (rsvdOf fs) = maskOf rsv)
    (f : State → State) : plainWrite s l a v f = f s := by
  have ht' : taken s l a (rsvdOf fs) v = true := by rwa [taken, hrsv]
  simp only [taken, Bool.and_eq_true] at ht
  obtain ⟨⟨harrives, hserves⟩, -⟩ := ht
  simp only [plainWrite, harrives, hserves, hreg, Bool.not_true, Bool.false_eq_true, if_false]
  exact ctlWrite_taken ht' f

/-- A write of a device-global register that has no row of its own and no reserved bit set takes the register's
fields. -/
theorem exec_registerWrite_taken {s : State} {link : BitVec 2} {addr : BitVec 34} {v : Word} {rsv : List (Nat × Nat)}
    {fs : Fields} (hplain : exec (.registerWrite link addr v) s
      = .next (plainWrite s link.toNat addr.toNat v (devTakes addr.toNat v)))
    (ht : taken s link.toNat addr.toNat rsv v = true) (hreg : regAt s addr.toNat = some fs)
    (hrsv : maskOf (rsvdOf fs) = maskOf rsv) :
    exec (.registerWrite link addr v) s = .next (devTakes addr.toNat v s) :=
  hplain.trans (congrArg Host.Outcome.next (plainWrite_taken ht hreg hrsv _))

theorem devTakes_mgrLinks (s : State) (v : Word) : devTakes 0x100 v s = { s with ctrl := { s.ctrl with
    mgrLinks := if fld v 3 0 = 0 then s.ctrl.mgrLinks else fld v 3 0 } } := by
  have row : devTakes 0x100 v s
      = if fld v 3 0 = 0 then s else { s with ctrl := { s.ctrl with mgrLinks := fld v 3 0 } } := rfl
  rw [row]
  by_cases hzero : fld v 3 0 = 0
  · rw [if_pos hzero, if_pos hzero]
  · rw [if_neg hzero, if_neg hzero]

/-- Settles O31: a write at a narrow address is a violation of its kind, and a register without a row of its own takes
its fields. -/
theorem registerWritesAreServedOrViolate : Obligations.RegisterWritesAreServedOrViolate := by
  intro s link v
  refine ⟨fun addr hnarrow harrives => ?_, fun ht => exec_registerWrite_taken (addr := 0x61008) rfl ht rfl rfl,
    fun ht => (exec_registerWrite_taken (addr := 0x100) rfl ht rfl rfl).trans
      (congrArg Host.Outcome.next (devTakes_mgrLinks s v)),
    fun ht => exec_registerWrite_taken (addr := 0x10200) rfl ht rfl rfl⟩
  have narrow : exec (.registerWrite link addr v) s = .next (narrowWrite s link.toNat addr.toNat) :=
    congrArg Host.Outcome.next (if_neg hnarrow)
  rw [narrow]
  exact ⟨fun hserves => congrArg Host.Outcome.next
      ((narrowWrite_of_served harrives hserves).trans (violate_of_access (by decide) _ _)),
    fun hserves hmap => congrArg Host.Outcome.next
      ((narrowWrite_of_unserved harrives hserves hmap).trans (violate_of_access (by decide) _ _))⟩

end Sys2Proof.Machine
end

section
/-! ## Frames received on an Ethernet-mode port, and pauses (chapter 8) -/

namespace Sys2Proof.Machine

/-! ### Receiving -/

/-- A frame counted as received (R229). -/
def rxCounted (s : State) (p : Nat) : State := s.modEth p (fun e => { e with rxFrames := wrap 64 (e.rxFrames + 1) })

@[simp] theorem ethPort_rxCounted (s : State) (p : Nat) :
    (rxCounted s p).ethPort p = { s.ethPort p with rxFrames := wrap 64 ((s.ethPort p).rxFrames + 1) } :=
  ethPort_modEth _ _ _

theorem passesFilter_rxCounted (s : State) (p : Nat) (d : BitVec 48) :
    passesFilter (rxCounted s p) p d = passesFilter s p d := by
  unfold passesFilter
  rw [ethPort_rxCounted]
  rfl

/-- A priority without a policer passes every frame (R230). -/
theorem police_of_unused {s : State} {p t : Nat} (h : bit ((s.ethPort p).police.findD t 0) 63 = false) (f : EthFrame) :
    police s p t f = (s, .pass) := by
  simp only [police, h, Bool.not_false, Bool.true_or, if_true]

theorem police_of_unpoliced {f : EthFrame} (h : unpoliced f.body = true) (s : State) (p t : Nat) :
    police s p t f = (s, .pass) := by
  simp only [police, h, Bool.or_true, if_true]

section Receiving
variable {s : State} {p : Nat} {f : EthFrame}

theorem receiveEth_of_malformed (heth : isEth s p = true)
    (hbad : f.fcsOk = false ∨ f.length < 64 ∨ maxFrame (s.ethPort p) < f.length ∨ f.doubleTag = true) (sub : Nat) :
    receiveEth s p sub f = s.modEth p (fun e => { e with dropFormat := wrap 16 (e.dropFormat + 1) }) := by
  have bad : (!f.fcsOk || decide (f.length < 64) || decide (f.length > maxFrame (s.ethPort p)) || f.doubleTag) = true := by
    rcases hbad with h | h | h | h <;> simp [h]
  simp only [receiveEth, heth, bad, Bool.not_true, Bool.false_eq_true, if_false, if_true]

/-- A frame that step 1 of R229 lets on comes to an Ethernet-mode port. -/
structure SoundComes (s : State) (p : Nat) (f : EthFrame) : Prop where
  ethernet : isEth s p = true
  fcs : f.fcsOk = true
  notShort : 64 ≤ f.length
  notLong : f.length ≤ maxFrame (s.ethPort p)
  oneTag : f.doubleTag = false

theorem SoundComes.gates (h : SoundComes s p f) : (!isEth s p) = false
    ∧ (!f.fcsOk || decide (f.length < 64) || decide (f.length > maxFrame (s.ethPort p)) || f.doubleTag) = false := by
  obtain ⟨heth, hfcs, hshort, hlong, htag⟩ := h
  simp [heth, hfcs, htag, hshort, hlong]

theorem receiveEth_of_control (h : SoundComes s p f) (hctl : f.control = true) (sub : Nat) :
    receiveEth s p sub f = applyPause (rxCounted s p) p sub f.body := by
  obtain ⟨heth, hsound⟩ := h.gates
  simp only [receiveEth, heth, hsound, hctl, Bool.false_eq_true, if_false, if_true]
  rfl

theorem receiveEth_of_filtered (h : SoundComes s p f) (hctl : f.control = false)
    (hfilter : passesFilter s p f.dst = false) (sub : Nat) :
    receiveEth s p sub f
      = (rxCounted s p).modEth p (fun e => { e with dropFilter := wrap 16 (e.dropFilter + 1) }) := by
  obtain ⟨heth, hsound⟩ := h.gates
  have refused : passesFilter (rxCounted s p) p f.dst = false := (passesFilter_rxCounted s p _).trans hfilter
  rw [rxCounted] at refused
  simp only [receiveEth, heth, hsound, hctl, refused, Bool.not_false, Bool.false_eq_true, if_false, if_true]
  rfl

/-- Steps 2 to 4 of R229 let the frame on too: it is no MAC control frame, and is for an address and a VLAN of the
port. -/
structure PassedComes (s : State) (p : Nat) (f : EthFrame) : Prop extends SoundComes s p f where
  data : f.control = false
  addressed : passesFilter s p f.dst = true
  inVlan : vlansFor (s.ethPort p) (frameVid f) ≠ []

theorem receiveEth_of_ptp {m : PtpMsg} (h : PassedComes s p f) (hptp : f.body = .ptp m) (sub : Nat) :
    receiveEth s p sub f = ptpReceived (rxCounted s p) p sub f m := by
  obtain ⟨hsound, hdata, haddr, hvlan⟩ := h
  obtain ⟨heth, hok⟩ := hsound.gates
  obtain ⟨v, vs, hvs⟩ := List.exists_cons_of_ne_nil hvlan
  have addressed := (passesFilter_rxCounted s p f.dst).trans haddr
  have unlimited : police (rxCounted s p) p (framePrio f) f = (rxCounted s p, .pass) :=
    police_of_unpoliced (by rw [hptp]; rfl) _ _ _
  rw [rxCounted] at addressed unlimited
  simp only [receiveEth, heth, hok, hdata, addressed, hvs, unlimited, hptp, Bool.not_true, Bool.false_eq_true, if_false]
  rfl

/-- What the transport or the sequencer is handed of a frame that no policer marks. -/
def inboxedOf (s : State) (p sub : Nat) (f : EthFrame) : Inboxed where
  arr := ⟨some (BitVec.ofNat 4 p), 0, (f.ip.map (·.src)).getD 0, (injectBank s).getD false, ceOf f .pass⟩
  body := payloadOf f
  prio := framePrio f
  bytes := f.length
  sub := sub

theorem receiveEth_of_forDevice (h : PassedComes s p f)
    (hpolice : bit ((s.ethPort p).police.findD (framePrio f) 0) 63 = false)
    (hbody : (∃ z, f.body = .ztp z) ∨ ∃ c, f.body = .csp c)
    (hdevice : (vlansFor (s.ethPort p) (frameVid f)).any (fun v => forDevice s v f) = true)
    (hroom : (s.ethPort p).rxHeld.vals.foldl (· + ·) 0 + f.length ≤ 1572864) (sub : Nat) :
    receiveEth s p sub f = checkXoff (({ rxCounted s p with
      inbox := s.inbox ++ [inboxedOf s p sub f] } : State).modEth p (fun e => { e with
        rxHeld := e.rxHeld.modifyD (framePrio f) 0 (· + f.length) })) p (framePrio f) := by
  obtain ⟨hsound, hdata, haddr, hvlan⟩ := h
  obtain ⟨heth, hok⟩ := hsound.gates
  obtain ⟨v, vs, hvs⟩ := List.exists_cons_of_ne_nil hvlan
  have addressed := (passesFilter_rxCounted s p f.dst).trans haddr
  have unlimited : police (rxCounted s p) p (framePrio f) f = (rxCounted s p, .pass) :=
    police_of_unused (by rw [ethPort_rxCounted]; exact hpolice) _
  have device : (v :: vs).any (fun v => forDevice (rxCounted s p) v f) = true := hvs ▸ hdevice
  have room : ¬ ((rxCounted s p).ethPort p).rxHeld.vals.foldl (· + ·) 0 + f.length > 1572864 := by
    rw [ethPort_rxCounted]
    exact Nat.not_lt.mpr hroom
  rw [rxCounted] at addressed unlimited device room
  rcases hbody with ⟨_, hbody⟩ | ⟨_, hbody⟩
  all_goals
    simp only [receiveEth, heth, hok, hdata, addressed, hvs, unlimited, hbody, device, room, Bool.not_true,
      Bool.false_eq_true, if_false]
    rfl

end Receiving

/-! ### Pauses -/

section Pauses
variable {s : State} {p sub t : Nat}

/-- A pause or PFC frame counted (R232). -/
def pauseCounted (s : State) (p : Nat) : State := s.modEth p (fun e => { e with pauseRx := wrap 16 (e.pauseRx + 1) })

theorem applyPause_pause (hmode : pauseMode (s.ethPort p) = 1) (q : BitVec 16) :
    applyPause s p sub (.pause q) = (pauseCounted s p).modSub p sub (fun x => { x with
      portPause := s.now + ceilDiv (q.toNat * 64) (ethRate (s.ethPort p)) }) := by
  simp only [applyPause, hmode, if_true]
  rfl

theorem pfcOn_of_pfc {e : EthPort} (hmode : pauseMode e = 2) (t : Nat) : pfcOn e t = bit e.cfg (32 + t) := by
  simp only [pfcOn, hmode, beq_self_eq_true, Bool.true_and]

theorem applyPause_pfc (hmode : pauseMode (s.ethPort p) = 2) (cls : Byte) (qs : List (BitVec 16)) :
    applyPause s p sub (.pfc cls qs)
      = forEach ((List.range 8).filter (fun t => cls.getLsbD t && bit (s.ethPort p).cfg (32 + t))) (pauseCounted s p)
        (fun w t => w.modSub p sub (fun x => { x with
          pauseEnd := x.pauseEnd.put t (s.now + ceilDiv ((qs.getD t 0).toNat * 64) (ethRate (s.ethPort p))) })) := by
  simp only [applyPause, hmode, pfcOn_of_pfc hmode, ne_eq, not_true_eq_false, if_false]
  rfl

theorem refreshPfc_of_xoff {a : Nat} (hxoff : (subOf (s.ethPort p) sub).xoffAt.find t = some a)
    (habove : xonLevel (s.ethPort p) < rxOccupancy (s.ethPort p) t) :
    refreshPfc s p sub t = sendPause (s.arriveAt (a + fld (s.ethPort p).pfc 63 48 * 32 / ethRate (s.ethPort p))) p t
      (fld (s.ethPort p).pfc 63 48) := by
  simp only [refreshPfc, hxoff, Nat.not_le.mpr habove, if_false]

theorem expirePause_of_port {a : Nat} (hmode : pauseMode (s.ethPort p) = 1)
    (hend : (subOf (s.ethPort p) sub).portPause = a) (ha : a ≠ 0) :
    expirePause s p sub t = (s.arriveAt a).modSub p sub (fun x => { x with portPause := 0 }) := by
  simp only [expirePause, hmode, hend, ha, if_true, if_false]

theorem expirePause_of_priority {a : Nat} (hmode : pauseMode (s.ethPort p) ≠ 1)
    (hend : (subOf (s.ethPort p) sub).pauseEnd.findD t 0 = a) (ha : a ≠ 0) :
    expirePause s p sub t = (s.arriveAt a).modSub p sub (fun x => { x with pauseEnd := x.pauseEnd.erase t }) := by
  simp only [expirePause, hmode, hend, ha, if_false]

end Pauses

/-- Settles O24: a frame ends in the first step of R229 that decides it, each outcome one equation of `receiveEth`, and
a pause and its end are the equations of `applyPause`, `refreshPfc` and `expirePause`. -/
theorem ethernetFramesAreFilteredAndPauses : Obligations.EthernetFramesAreFilteredAndPauses := by
  intro s port sub p e hp he heth
  subst hp he
  refine ⟨fun f hbad => congrArg Host.Outcome.next (receiveEth_of_malformed heth hbad _),
    fun f u hfcs hshort hlong htag hu => ?_,
    fun t a hxoff habove => congrArg Host.Outcome.next (refreshPfc_of_xoff hxoff habove),
    fun t a hmode hend ha => congrArg Host.Outcome.next (expirePause_of_port hmode hend ha),
    fun t a hmode hend ha => congrArg Host.Outcome.next (expirePause_of_priority hmode hend ha)⟩
  obtain rfl : u = rxCounted s port.toNat := hu
  have sound : SoundComes s port.toNat f := ⟨heth, hfcs, hshort, hlong, htag⟩
  refine ⟨fun hdata hfilter => congrArg Host.Outcome.next (receiveEth_of_filtered sound hdata hfilter _),
    fun b hdata haddr hvlan hpolice hbody hdevice hroom hb => ?_, fun m v hdata haddr hvlan hptp hv => ?_,
    fun v hv => ?_⟩
  · have kind : (∃ z, f.body = .ztp z) ∨ ∃ c, f.body = .csp c := hbody.elim fun z h => h.imp_left (⟨z, ·⟩)
    have handed : b = inboxedOf s port.toNat sub.toNat f := by
      rw [hb, inboxedOf, BitVec.ofNat_toNat, BitVec.setWidth_eq]
    rw [handed]
    exact congrArg Host.Outcome.next
      (receiveEth_of_forDevice ⟨sound, hdata, haddr, hvlan⟩ hpolice kind hdevice hroom _)
  · subst hv
    exact congrArg Host.Outcome.next (receiveEth_of_ptp ⟨sound, hdata, haddr, hvlan⟩ hptp _)
  · obtain rfl : v = pauseCounted (rxCounted s port.toNat) port.toNat := hv
    have control : SoundComes s port.toNat { f with control := true } := ⟨heth, hfcs, hshort, hlong, htag⟩
    have obeyed {t : State} (h : applyPause (rxCounted s port.toNat) port.toNat sub.toNat f.body = t) :
        exec (.pauseFrame port sub f) s = .next t :=
      congrArg Host.Outcome.next ((receiveEth_of_control control rfl _).trans h)
    refine ⟨fun q hbody hmode => obeyed ?_, fun cls qs hbody hmode => obeyed ?_⟩
    · have paused := applyPause_pause (s := rxCounted s port.toNat) (sub := sub.toNat)
        (by rw [ethPort_rxCounted]; exact hmode) q
      rw [ethPort_rxCounted] at paused
      rw [hbody]
      exact paused
    · have paused := applyPause_pfc (s := rxCounted s port.toNat) (sub := sub.toNat)
        (by rw [ethPort_rxCounted]; exact hmode) cls qs
      rw [ethPort_rxCounted] at paused
      rw [hbody]
      exact paused

end Sys2Proof.Machine
end

section
/-! ## Frames that start, gate entries, and sub-ports that come up and go down (chapter 8) -/

namespace Sys2Proof.Machine

section Sending
variable {s u : State} {p sub : Nat} {f : EthQueued} {y : SubPort}

/-- The picked frame `f` takes the line as `g`: the scheduler, left as `y` by the choice, is charged, the frame counted
and metered to its subscriber (R233, R235, R363). -/
def frameCharged (u : State) (p sub : Nat) (f : EthQueued) (y : SubPort) (g : EthFrame) : State :=
  ((u.modSub p sub (fun _ => { spendFrame u p y f with flying := some { f with frame := g } })).modEth p
    (fun e => { e with
      txFrames := wrap 64 (e.txFrames + 1)
      pauseTx := if f.rank = 2 then wrap 16 (e.pauseTx + 1) else e.pauseTx })).modMeter
    f.subscriber (fun m => if f.rank = 0 then { m with netTx := wrap 64 (m.netTx + f.frame.length) } else m)

/-- A PTP message in a frame that leaves is noted at its port; any other frame is not (R17). -/
def noteLeft (v : State) (p : Nat) (g : EthFrame) : State :=
  match g.body with
  | .ptp m => ptpLeft v p m
  | _ => v

theorem noteLeft_ptp {g : EthFrame} {m : PtpMsg} (h : g.body = .ptp m) (v : State) (p : Nat) :
    noteLeft v p g = ptpLeft v p m := by
  simp only [noteLeft, h]

theorem noteLeft_other {g : EthFrame} (h : ∀ m, g.body ≠ .ptp m) (v : State) (p : Nat) : noteLeft v p g = v := by
  unfold noteLeft
  split
  case h_1 m hm => exact absurd hm (h m)
  case h_2 => rfl

theorem startEth_of_picked (heth : isEth s p = true) (hup : (subOf (s.ethPort p) sub).up = true)
    (hwait : (subOf (s.ethPort p) sub).waiting ≠ [])
    (hu : u = countHeld (s.arriveAt (subOf (s.ethPort p) sub).nextAt) p sub) (hpick : pickEth u p sub = some (f, y)) :
    startEth s p sub = rawFrameDone ((noteLeft (frameCharged u p sub f y (leaveFrame u p f)) p
      (leaveFrame u p f)).sent (.eth p sub (leaveFrame u p f))) f.rawOf := by
  have gate : (!isEth s p || !(subOf (s.ethPort p) sub).up || (subOf (s.ethPort p) sub).waiting.isEmpty) = false := by
    simp [heth, hup, hwait]
  subst hu
  simp only [startEth, gate, hpick, Bool.false_eq_true, if_false]
  rfl

end Sending

theorem nextGate_of_entry {s u : State} {p i start : Nat} {g : GateBlock}
    (hu : u = forEach (List.range (subCount (s.ethPort p))) s (fun s i => countHeld s p i))
    (hgate : gateNow u p = some (g, i, start)) :
    nextGate s p = u.arriveAt (start + 16 * gateTicks (g.entries.getD i 0)) := by
  subst hu
  simp only [nextGate, hgate]

theorem subUp_of_enabled {s u : State} {p sub : Nat} (heth : isEth s p = true) (hsub : sub < subCount (s.ethPort p))
    (hen : bit (s.port p).cfg 1 = true)
    (hu : u = s.modSub p sub (fun x => { x with up := true, portPause := 0, pauseEnd := Tbl.empty })) :
    subUp s p sub = forEach (u.ethPort p).vlans.vals u (fun s v => announceVlan s p sub default v) := by
  have gate : (!isEth s p || decide (sub ≥ subCount (s.ethPort p)) || !bit (s.port p).cfg 1) = false := by
    simp [heth, hsub, hen]
  subst hu
  simp only [subUp, gate, Bool.false_eq_true, if_false]

/-! ### Sub-ports that go down -/

section Down
variable {s : State} {p sub : Nat}

theorem loseFlying_of_none (h : (subOf (s.ethPort p) sub).busyUntil ≤ s.now ∨ (subOf (s.ethPort p) sub).flying = none) :
    loseFlying s p sub = s := by
  have landed : (if s.now < (subOf (s.ethPort p) sub).busyUntil then (subOf (s.ethPort p) sub).flying else none)
      = none := by
    rcases h with h | h
    · exact if_neg (Nat.not_lt.mpr h)
    · rw [h, ite_self]
  simp only [loseFlying, landed]

theorem subDown_of_control (h : ∀ f ∈ (subOf (s.ethPort p) sub).waiting, f.rank = 2) :
    subDown s p sub = (loseFlying s p sub).modSub p sub emptySub :=
  forEach_filter_none (fun f hf => by simp [h f hf])

theorem subDown_of_single {f : EthQueued} {j : Nat} (hwait : (subOf (s.ethPort p) sub).waiting = [f])
    (hrank : f.rank ≠ 2)
    (hnext : pickSub (((loseFlying s p sub).modSub p sub emptySub).ethPort p) (sub + 1) = some j) :
    subDown s p sub = ((loseFlying s p sub).modSub p sub emptySub).modSub p j (fun y => queueOn y f) := by
  have kept : [f].filter (fun f => f.rank != 2) = [f] := by simp [hrank]
  simp only [subDown, hwait, kept, forEach, List.foldl_cons, List.foldl_nil, hnext]

end Down

/-- Settles O25: each command is one equation of its operation; that a frame which leaves is noted only if it holds a
PTP message is `noteLeft`. -/
theorem ethernetFramesStartAndSubPortsMove : Obligations.EthernetFramesStartAndSubPortsMove := by
  intro s port sub p x hp hx
  subst hp hx
  refine ⟨fun u f y g v w heth hup hwait hu hpick hg hv hptp hother => ?_,
    fun u g i start hu hgate => congrArg Host.Outcome.next (nextGate_of_entry hu hgate),
    fun u heth hsub hen hu => congrArg Host.Outcome.next (subUp_of_enabled heth hsub hen hu), fun u hu => ?_⟩
  · subst hg
    obtain rfl : v = frameCharged u port.toNat sub.toNat f y (leaveFrame u port.toNat f) := hv
    have left : w = noteLeft (frameCharged u port.toNat sub.toNat f y (leaveFrame u port.toNat f)) port.toNat
        (leaveFrame u port.toNat f) := by
      by_cases h : ∃ m, (leaveFrame u port.toNat f).body = .ptp m
      · obtain ⟨m, hm⟩ := h
        rw [hptp m hm, noteLeft_ptp hm]
      · have noPtp := not_exists.mp h
        rw [hother noPtp, noteLeft_other noPtp]
    rw [left]
    exact congrArg Host.Outcome.next (startEth_of_picked heth hup hwait hu hpick)
  · obtain rfl : u = (loseFlying s port.toNat sub.toNat).modSub port.toNat sub.toNat emptySub := hu
    exact ⟨loseFlying_of_none, fun h => congrArg Host.Outcome.next (subDown_of_control h),
      fun f j hwait hrank hnext => congrArg Host.Outcome.next (subDown_of_single hwait hrank hnext)⟩

end Sys2Proof.Machine
end

section
/-! ## Canonical memory, quiet devices, and writes of HBM (chapter 9) -/

namespace Sys2Proof.Machine

/-- Settles O48: what a step keeps of a state, `Stays`, includes the canonical form of its memories. -/
theorem everyStepKeepsMemoryCanonical : Obligations.EveryStepKeepsMemoryCanonical :=
  fun _ _ hs h => (step_stays h).mem hs

/-- Settles O54: of the parts of `settle`, only the look at the causes finds anything to do. -/
theorem settlingAQuietDevice : Obligations.SettlingAQuietDevice :=
  fun _ h => settle_of_quiet h

/-! ### Storing bytes but those at some addresses -/

/-- A byte that is stored nowhere, or only where storing is skipped, stays. -/
theorem readByte_foldl_write_of_skipped {skip : Nat → Bool} {x : Nat} {cs : List (Nat × Byte)} {m : List Host.Cell}
    (h : Memory.wf m = true) (hx : ∀ c ∈ cs, c.1 = x → skip c.1 = true) :
    readByte (cs.foldl (fun m c => if skip c.1 then m else writeByte m c.1 c.2) m) x = readByte m x := by
  induction cs generalizing m with
  | nil => rfl
  | cons c cs ih =>
    obtain ⟨hc, hcs⟩ := List.forall_mem_cons.mp hx
    rw [List.foldl_cons]
    split
    · exact ih h hcs
    · rename_i hskip
      rw [ih (wf_writeByte h c.1 c.2) hcs]
      exact readByte_writeByte_ne h c.2 (fun e => hskip (hc e.symm))

theorem mem_rangeFrom {a n x : Nat} : x ∈ rangeFrom a n ↔ a ≤ x ∧ x < a + n := by
  simp only [rangeFrom, List.mem_map, List.mem_range]
  exact ⟨fun ⟨i, hi, hx⟩ => by omega, fun hx => ⟨x - a, by omega, by omega⟩⟩

/-! ### What a write of HBM does -/

/-- The words of a range that refuse a write of it: those covered in part that cannot be read (R253). -/
def stuckWords (s : State) (a n : Nat) : List Nat :=
  (wordsOf a n).filter (fun w => wordBad s.hbm w && !(wholeWords a n).contains w)

theorem mem_stuckWords {s : State} {a n w : Nat} :
    w ∈ stuckWords s a n ↔ w ∈ wordsOf a n ∧ wordBad s.hbm w = true ∧ w ∉ wholeWords a n := by
  simp [stuckWords]

theorem hbmWrite_mem (s : State) (a : Nat) (bs : List Byte) :
    (hbmWrite s a bs).1.mem = ((rangeFrom a bs.length).zip bs).foldl
      (fun m c => if (stuckWords s a bs.length).contains (c.1 / 8) then m else writeByte m c.1 c.2) s.mem := by
  unfold hbmWrite
  dsimp only
  split <;> simp only [logUe_mem, applyInjection_mem, State.modHbm_mem, backInvLines_mem, correctWords_mem] <;> rfl

theorem hbmWrite_of_stuck_nil {s : State} {a : Nat} {bs : List Byte} (h : stuckWords s a bs.length = []) :
    (hbmWrite s a bs).2 = .done := by
  unfold stuckWords at h
  simp only [hbmWrite, h]

theorem hbmWrite_of_stuck_cons {s : State} {a w : Nat} {ws : List Nat} {bs : List Byte}
    (h : stuckWords s a bs.length = w :: ws) : ∃ d, (hbmWrite s a bs).2 = .failed St.memoryUncorrectable d := by
  unfold stuckWords at h
  simp only [hbmWrite, h]
  exact ⟨_, rfl⟩

/-- A write is done where no word refuses it, and fails otherwise. -/
theorem hbmWrite_done_iff {s : State} {a : Nat} {bs : List Byte} :
    (hbmWrite s a bs).2 = .done ↔ stuckWords s a bs.length = [] := by
  refine ⟨fun hdone => ?_, hbmWrite_of_stuck_nil⟩
  match hstuck : stuckWords s a bs.length with
  | [] => rfl
  | w :: ws =>
    obtain ⟨d, failed⟩ := hbmWrite_of_stuck_cons hstuck
    rw [hdone] at failed
    cases failed

/-- A write that is done stores every byte. -/
theorem hbmWrite_mem_of_done {s : State} {a : Nat} {bs : List Byte} (h : (hbmWrite s a bs).2 = .done) :
    (hbmWrite s a bs).1.mem = writeBytes s.mem a bs := by
  rw [hbmWrite_mem, hbmWrite_done_iff.mp h]
  simp only [List.contains_nil, Bool.false_eq_true, if_false]
  exact foldl_zip_rangeFrom s.mem a bs

/-- A byte outside the range of a write, or in a word that refuses it, stays. -/
theorem readByte_hbmWrite_of_kept {s : State} (hwf : Memory.wf s.mem = true) {a x : Nat} {bs : List Byte}
    (h : a ≤ x → x < a + bs.length → x / 8 ∈ stuckWords s a bs.length) :
    readByte (hbmWrite s a bs).1.mem x = readByte s.mem x := by
  rw [hbmWrite_mem]
  refine readByte_foldl_write_of_skipped (skip := fun k => (stuckWords s a bs.length).contains (k / 8)) hwf
    (fun c hc hx => ?_)
  obtain ⟨hle, hlt⟩ := mem_rangeFrom.mp (List.of_mem_zip hc).1
  subst hx
  exact List.contains_iff_mem.mpr (h hle hlt)

/-! ### Words in error after a write -/

theorem takeBack_tst (s : State) (links : List Nat) (p : Nat × Bool → Bool) : (takeBack s links p).tst = s.tst := by
  unfold takeBack
  refine forEach_keeps (fun s => s.tst) _ (fun s l => ?_) _ _
  dsimp only
  split
  · rfl
  · rw [State.modLink_tst]
    exact forEach_keeps (fun s => s.tst) _ (by intros; rfl) _ _

theorem backInvLines_tst (s : State) (ls : List Nat) : (backInvLines s ls).tst = s.tst := takeBack_tst s _ _

theorem correctWords_tst (s : State) (ws : List Nat) : (correctWords s ws).tst = s.tst := by
  unfold correctWords
  exact forEach_keeps (fun s => s.tst) _ (by intros; rfl) _ _

theorem applyInjection_of_unarmed {s : State} (h : s.tst.injArmed = false) (ws : List Nat) : applyInjection s ws = s := by
  simp [applyInjection, h]

theorem ite_markRetired_bad (c : Prop) [Decidable c] (s : State) (n : Nat) :
    (if c then markRetired s n else s).hbm.bad = s.hbm.bad := by
  unfold markRetired
  split
  · split <;> rfl
  · rfl

theorem logUe_bad (s : State) (w : Nat) (scrub : Bool) : (logUe s w scrub).hbm.bad = s.hbm.bad :=
  ite_markRetired_bad _ _ _

/-- Without an armed injection, a word that a write covers whole is in no error after it. -/
theorem hbmWrite_bad_of_whole {s : State} (h : s.tst.injArmed = false) {a w : Nat} {bs : List Byte}
    (hw : w ∈ wholeWords a bs.length) : (hbmWrite s a bs).1.hbm.bad.contains w = false := by
  unfold hbmWrite
  dsimp only
  rw [applyInjection_of_unarmed]
  · split <;> simp [logUe_bad, hw]
  · rw [State.modHbm_tst]
    dsimp only
    rw [backInvLines_tst, correctWords_tst]
    exact h

/-- Settles O52: a byte is stored unless its word refuses the write, and the write is done where no word refuses. -/
theorem hbmWritesReplaceWholeWords : Obligations.HbmWritesReplaceWholeWords := by
  intro s a bs hwf
  refine ⟨fun hdone => ?_, fun x hx => ?_, fun hinj w hw => hbmWrite_bad_of_whole hinj hw, fun w hw hbad hpart => ?_⟩
  · rw [hbmWrite_mem_of_done hdone]
    exact readBytes_writeBytes_same hwf a bs
  · exact readByte_hbmWrite_of_kept hwf (fun _ _ => by omega)
  · have stuck : w ∈ stuckWords s a bs.length := mem_stuckWords.mpr ⟨hw, hbad, hpart⟩
    obtain ⟨v, vs, hvs⟩ := List.exists_cons_of_ne_nil (List.ne_nil_of_mem stuck)
    exact ⟨hbmWrite_of_stuck_cons hvs, fun x hx => readByte_hbmWrite_of_kept hwf (fun _ _ => hx ▸ stuck)⟩

end Sys2Proof.Machine
end

section
/-! ## Segments set and cleared (R255 to R258) -/

namespace Sys2Proof.Machine

theorem segRow_taken {s : State} {l i cmd : Nat} {v : Word} (ht : taken s l (winAddr i 0x5020) [(63, 8)] v = true)
    (hcmd : fld v 7 0 = cmd) (f : State → Nat → State) : segRow s l i v cmd f = f s i := by
  simp only [segRow, hcmd, ne_eq, not_true_eq_false, if_false]
  exact ctlWrite_taken ht _

/-- Window `i` notes that its SEG_CMD ended, and with which code (R256). -/
def segCoded (s : State) (i code : Nat) : State := s.modWin i (fun w => { w with segDone := true, segCode := code })

/-! ### SET -/

section Setting
variable {s : State} {i : Nat} {w : Window}

/-- What SET asks of the descriptor `w` whatever kind of memory it names: a segment to put it in, a base on a granule,
a length (R256). -/
def segFits (s : State) (i : Nat) (w : Window) : Prop :=
  (s.seg i w.segSel).valid = false ∧ (s.seg i w.segSel).draining = false ∧ (segOf w).base % gran = 0 ∧ (segOf w).len ≠ 0

theorem segSetCode_of_hbm (hw : w = (s.inst i).win) (hfits : segFits s i w) (hhbm : (segOf w).board = false)
    (hregion : inRegion ((s.inst i).res ++ claimsFor s i) (segOf w) = true) (hclaim : segClaimed s i w.segSel = false) :
    segSetCode s i = St.ok := by
  subst hw
  obtain ⟨hvalid, hdrain, hbase, hlen⟩ := hfits
  simp [segSetCode, hvalid, hdrain, hbase, hlen, hhbm, hregion, hclaim]

theorem segSetCode_of_board (hw : w = (s.inst i).win) (hfits : segFits s i w) (hboard : (segOf w).board = true)
    (hmay : mayUse s i (segOf w).link = true)
    (hlink : (s.link (segOf w).link).cond = .up ∨ (s.link (segOf w).link).cond = .retrain) :
    segSetCode s i = St.ok := by
  subst hw
  obtain ⟨hvalid, hdrain, hbase, hlen⟩ := hfits
  simp [segSetCode, hvalid, hdrain, hbase, hlen, hboard, hmay, hlink]

theorem segSetCode_of_off_granule (hw : w = (s.inst i).win) (hbase : (segOf w).base % gran ≠ 0) :
    segSetCode s i = St.malformed := by
  subst hw
  simp [segSetCode, hbase]

theorem setSeg_of_ok (h : segSetCode s i = St.ok) (hw : w = (s.inst i).win) :
    setSeg s i = ((segCoded s i St.ok).modSeg i w.segSel (fun _ => segOf w)).arriveAt (s.now + 16) := by
  subst hw
  simp only [setSeg, h]
  rfl

theorem setSeg_of_malformed (h : segSetCode s i = St.malformed) :
    setSeg s i = (segCoded s i St.malformed).arriveAt (s.now + 16) := by
  simp only [setSeg, h]
  rfl

end Setting

/-! ### CLEAR -/

section Clearing
variable {s : State} {i n : Nat}

theorem segClearCode_of_unused (hn : n = (s.inst i).win.segSel) (hqueued : segQueued s i n = false)
    (hclaim : segClaimed s i n = false)
    (hnext : covers ((nextClaims s).filter (fun c => c.owner == i)) 0x05 n = false) : segClearCode s i = St.ok := by
  subst hn
  simp [segClearCode, hqueued, hclaim, hnext]

theorem seg_segCoded (s : State) (i code n : Nat) : (segCoded s i code).seg i n = s.seg i n := by
  simp [segCoded, State.seg, State.inst, State.modWin, State.modInst, Tbl.modifyD]

theorem dropSeg_of_valid (hn : n = (s.inst i).win.segSel) (h : segClearCode s i = St.ok)
    (hvalid : (s.seg i n).valid = true) :
    dropSeg s i = (clearSeg (segCoded s i St.ok) i n).arriveAt (s.now + 16) := by
  subst hn
  have still : ((segCoded s i St.ok).seg i (s.inst i).win.segSel).valid = true := by rw [seg_segCoded]; exact hvalid
  calc dropSeg s i
      = (if ((segCoded s i St.ok).seg i (s.inst i).win.segSel).valid then
          clearSeg (segCoded s i St.ok) i (s.inst i).win.segSel else segCoded s i St.ok).arriveAt (s.now + 16) := by
        simp only [dropSeg, h]
        rfl
    _ = (clearSeg (segCoded s i St.ok) i (s.inst i).win.segSel).arriveAt (s.now + 16) := by rw [if_pos still]

end Clearing

/-- Settles O26: a write of SEG_CMD that is taken runs its command, which does what its code allows. -/
theorem segmentsAreSetAndCleared : Obligations.SegmentsAreSetAndCleared := by
  intro s link inst v i n w hi hw hn ht
  subst hi hn
  refine ⟨fun g hset hvalid hdrain hbase hlen hg => ?_, fun hset hbase => ?_, fun hclear hqueued hclaim hnext hvalid => ?_⟩
  · subst hg
    have fits : segFits s inst.toNat w := ⟨hvalid, hdrain, hbase, hlen⟩
    have run := segRow_taken ht hset setSeg
    refine ⟨fun hhbm hregion hclaim => ?_, fun hboard hmay hlink => ?_⟩
    · exact congrArg Host.Outcome.next (run.trans (setSeg_of_ok (segSetCode_of_hbm hw fits hhbm hregion hclaim) hw))
    · exact congrArg Host.Outcome.next (run.trans (setSeg_of_ok (segSetCode_of_board hw fits hboard hmay hlink) hw))
  · exact congrArg Host.Outcome.next ((segRow_taken ht hset setSeg).trans
      (setSeg_of_malformed (segSetCode_of_off_granule hw hbase)))
  · subst hw
    exact congrArg Host.Outcome.next ((segRow_taken ht hclear dropSeg).trans
      (dropSeg_of_valid rfl (segClearCode_of_unused rfl hqueued hclaim hnext) hvalid))

end Sys2Proof.Machine
end

section
/-! ## Patrol scrub, channel training, stacks that stop, couch QPs (R248 to R252, R263) -/

namespace Sys2Proof.Machine

theorem chargeShared_hbm (s : State) (parts : List (Nat × Nat)) : (chargeShared s parts).hbm = s.hbm := by
  unfold chargeShared
  dsimp only
  rw [modMeter_onlyMeters]
  rfl

/-! ### Scrub -/

/-- A scrub of word `w` is over: the position moves on and, past the top of HBM, a new pass begins (R248). -/
def scrubPassed (s : State) (w : Nat) (last : Bool) : State :=
  s.modHbm (fun h => { h with
    position := if last then 0 else w * 8 / gran, passes := if last then wrap 32 (h.passes + 1) else h.passes })

/-- The scrub of a word at work, its 8 bytes charged: what it does to a word that it finds in some condition. -/
def scrubDoes (s : State) (w : Nat) (found : ScrubFind) : State :=
  if wordBad s.hbm w || found == .uncorrectable then
    logUe ((chargeShared s [(0, 8)]).modHbm (fun h => { h with bad := w :: h.bad.filter (· != w) })) w true
  else if s.hbm.soft.contains w || found == .corrected then scrubCorrect (chargeShared s [(0, 8)]) w
  else chargeShared s [(0, 8)]

theorem scrubWord_of_service {s : State} {addr w : Nat} {last : Bool} (hserve : s.inService = true) (hw : w = addr / 8)
    (htop : w * 8 < hbmTop s.hbm) (hlast : last = decide (hbmTop s.hbm = w * 8 + 8)) (found : ScrubFind) :
    scrubWord s addr found = settle (scrubPassed (scrubDoes s w found) w last) := by
  subst hw hlast
  have gate : (!s.inService || decide (hbmTop s.hbm ≤ addr / 8 * 8)) = false := by simp [hserve, htop]
  simp only [scrubWord, gate, Bool.false_eq_true, if_false, chargeShared_hbm]
  rfl

section ScrubDoes
variable {s : State} {w : Nat}

theorem scrubDoes_clean (hgood : wordBad s.hbm w = false) (hsoft : s.hbm.soft.contains w = false) :
    scrubDoes s w .clean = chargeShared s [(0, 8)] := by
  simp only [scrubDoes, hgood, hsoft]
  rfl

theorem scrubDoes_corrected (hgood : wordBad s.hbm w = false) :
    scrubDoes s w .corrected = scrubCorrect (chargeShared s [(0, 8)]) w := by
  simp only [scrubDoes, hgood, beq_self_eq_true, Bool.or_true]
  rfl

theorem scrubDoes_uncorrectable (s : State) (w : Nat) : scrubDoes s w .uncorrectable = logUe ((chargeShared s [(0, 8)]).modHbm
    (fun h => { h with bad := w :: h.bad.filter (· != w) })) w true := by
  simp only [scrubDoes, beq_self_eq_true, Bool.or_true, if_true]

/-- A corrected word whose error was not injected: its row is remembered, and repaired where the pass before remembered it
too and none of its words is uncorrectable (R250). -/
theorem scrubCorrect_of_own {st row : Nat} {t : State} (hst : st = stackOf s.hbm (w * 8)) (hrow : row = rowOf s.hbm (w * 8))
    (hown : s.hbm.injected.contains w = false)
    (ht : t = ((s.modStack st (fun k => { k with corrected := wrap 32 (k.corrected + 1) })).modHbm
      (fun h => { h with soft := h.soft.filter (· != w) })).modHbm (fun h => { h with
        scrubRows := (row, s.hbm.passes) :: h.scrubRows.filter (fun r => r.1 != row &&
          (r.2 == s.hbm.passes || r.2 == wrap 32 (s.hbm.passes + 2 ^ 32 - 1))) })) :
    scrubCorrect s w = if (s.hbm.scrubRows.contains (row, wrap 32 (s.hbm.passes + 2 ^ 32 - 1))
      && !s.hbm.bad.any (fun b => rowOf s.hbm (b * 8) == row)) = true then repairRow t st row true else t := by
  subst hst hrow ht
  unfold scrubCorrect
  dsimp only
  exact if_neg (by simpa using hown)

end ScrubDoes

/-! ### Training, and stacks that stop -/

section Stacks
variable {s : State} {st : Nat}

theorem retrainChannel_trained (hserve : s.inService = true) (hlive : s.hbm.live.getLsbD st = true) :
    retrainChannel s st .trained = s.modStack st (fun k => { k with retrains := wrap 32 (k.retrains + 1) }) := by
  simp only [retrainChannel, hserve, hlive]
  rfl

theorem retrainChannel_failed (hserve : s.inService = true) (hlive : s.hbm.live.getLsbD st = true) :
    retrainChannel s st .failed
      = settle (markRetired (s.modStack st (fun k => { k with retrains := wrap 32 (k.retrains + 1) })) st) := by
  simp only [retrainChannel, hserve, hlive]
  rfl

theorem stackStops_of_live (hserve : s.inService = true) (hlive : s.hbm.live.getLsbD st = true) :
    stackStops s st = settle (markRetired (s.modHbm (fun h => { h with dead := h.dead ||| (1#12 <<< st) })) st) := by
  simp only [stackStops, hserve, hlive]
  rfl

end Stacks

theorem reopenCouch_of_error {s : State} {q : Nat} {e : CouchEnt} (hserve : s.inService = true)
    (hcouch : couchOfQp s q = some e) (herr : (s.qp q).st = .error) :
    reopenCouch s q = settle (openCouchQp (closeQp s q (drainBoundUs (s.qp q).ident)) e) := by
  simp only [reopenCouch, hcouch, hserve, herr]
  rfl

/-- Settles O27: a scrub does to its word what `scrubDoes` says of what it finds, and moves on; each other event is one
equation. -/
theorem hbmIsScrubbedAndStacksRetire : Obligations.HbmIsScrubbedAndStacksRetire := by
  intro s hserve
  refine ⟨fun addr found w last hw htop hlast => ?_, fun st u hlive hu => ?_, fun qp e hcouch herr =>
    congrArg Host.Outcome.next (reopenCouch_of_error hserve hcouch herr)⟩
  · have scrubbed : ∀ u, scrubDoes s w found = u →
        exec (.patrolScrub addr found) s = .next (settle (scrubPassed u w last)) := fun u hu =>
      congrArg Host.Outcome.next (by rw [scrubWord_of_service hserve hw htop hlast found, hu])
    refine ⟨fun hgood hsoft hfound => ?_, fun st row t u hgood hfound hst hrow hown ht hu => ?_, fun hfound => ?_⟩
    · subst hfound
      exact scrubbed _ (scrubDoes_clean hgood hsoft)
    · subst hfound
      refine scrubbed u ((scrubDoes_corrected hgood).trans ?_)
      rw [← chargeShared_hbm s [(0, 8)]] at hst hrow hown ht hu
      rw [hu]
      exact scrubCorrect_of_own hst hrow hown ht
    · subst hfound
      exact scrubbed _ (scrubDoes_uncorrectable s w)
  · subst hu
    exact ⟨congrArg Host.Outcome.next (retrainChannel_trained hserve hlive),
      congrArg Host.Outcome.next (retrainChannel_failed hserve hlive),
      congrArg Host.Outcome.next (stackStops_of_live hserve hlive)⟩

end Sys2Proof.Machine
end

section
/-! ## Accesses of companions through the aperture (R273 to R279) -/

namespace Sys2Proof.Machine

theorem arrives_of_service {s : State} {l : Nat} (hserve : s.inService = true) (hlink : linkCarries s l = true) :
    arrives s l = true := by
  simp [arrives, hserve, hlink]

theorem apertureOpen_of_service {s : State} {l : Nat} (hserve : s.inService = true) (hlink : linkCarries s l = true)
    (hwaits : apertureWaits s = false) : apertureOpen s l = true := by
  simp [apertureOpen, arrives_of_service hserve hlink, hwaits]

theorem backInvOthers_mem (s : State) (l line : Nat) : (backInvOthers s l line).mem = s.mem := takeBack_mem s _ _

section Reads
variable {s u : State} {l : Nat} {cls : ReqClass}

/-- A companion's read of readable words answers their bytes. -/
theorem readHbm_of_readable {a n : Nat} (hu : u = correctRange (takeOwned s (some l) (linesOf a n)) a n)
    (hgood : firstBad u.hbm a n = none) :
    readHbm s l a n = (boardBytes u l 0xFF true n).sent (.readData l (readBytes s.mem a n)) := by
  have mem : u.mem = s.mem := by rw [hu, correctRange_mem, takeOwned_mem]
  have read : hbmReadBy (some l) s a n = (u, .done, readBytes s.mem a n) := by
    simp only [hbmReadBy, ← hu, hgood, mem]
  simp only [readHbm, read]

theorem readAperture_of_permitted {a n : Nat} (hopen : apertureOpen s l = true) (hmay : aptPermits s l cls false a n = true) :
    readAperture s l cls a n = readHbm s l a n := by
  simp [readAperture, hopen, hmay]

theorem readAperture_of_refused {a n : Nat} (hopen : apertureOpen s l = true) (hmay : aptPermits s l cls false a n = false) :
    readAperture s l cls a n = (aptViolate s l).sent (.readData l (List.replicate n 0)) := by
  simp [readAperture, hopen, hmay]

theorem readLine_shared {n : Nat} (hopen : apertureOpen s l = true) (hmay : aptPermits s l cls false (n * 64) 64 = true)
    (hgood : firstBad s.hbm (n * 64) 64 = none) :
    readLine s l cls false n = trackLine (readHbm s l (n * 64) 64) l n false := by
  simp [readLine, hopen, hmay, hgood]

theorem readLine_owned {n : Nat} (hopen : apertureOpen s l = true) (hmay : aptPermits s l cls false (n * 64) 64 = true)
    (hgood : firstBad (backInvOthers s l n).hbm (n * 64) 64 = none) :
    readLine s l cls true n = trackLine (readHbm (backInvOthers s l n) l (n * 64) 64) l n true := by
  simp [readLine, hopen, hmay, hgood]

end Reads

section Writes
variable {s : State} {l : BitVec 2} {cls : ReqClass} {a : Nat} {mask : BitVec 64} {data : BitVec 512}

theorem lineWrite_of_permitted (hopen : apertureOpen s l.toNat = true)
    (hmay : aptPermits s l.toNat cls true (a / 64 * 64) 64 = true) {r : State × Bool}
    (hr : r = ownWrite (boardBytes s l.toNat 0xFF false (maskCount mask)) l.toNat (a / 64 * 64) mask (lineBytes data)) :
    lineWrite s l cls false a mask data = settle (r.1.sent (if r.2 then .cmp l.toNat else .cmpErr l.toNat)) := by
  subst hr
  simp [lineWrite, writeAperture, hopen, hmay]

theorem lineWrite_of_refused (hopen : apertureOpen s l.toNat = true)
    (hmay : aptPermits s l.toNat cls true (a / 64 * 64) 64 = false) :
    lineWrite s l cls false a mask data = aptViolate s l.toNat := by
  simp [lineWrite, writeAperture, hopen, hmay]

end Writes

theorem maskCount_allOnes : maskCount (BitVec.allOnes 64) = 64 := by decide

/-- Settles O29: the gates of the aperture are open, so each access is served or refused as an entry permits. -/
theorem companionsReadAndWriteThroughTheAperture : Obligations.CompanionsReadAndWriteThroughTheAperture := by
  intro s pl cls addr l a n hl ha hn hserve hlink hwaits
  subst hl ha hn
  have isOpen := apertureOpen_of_service hserve hlink hwaits
  refine ⟨fun size m u hm hu => ?_, fun u hmay hgood hu hgood' => ?_, fun v u hmay hv hgood hu hgood' => ?_,
    ⟨rfl, rfl, rfl⟩, fun mask data => ⟨fun hmay => ⟨fun r hr => ?_, fun r hr => ?_⟩, fun hmay => ?_⟩⟩
  · subst hm
    exact ⟨fun hmay hgood => congrArg Host.Outcome.next
        ((readAperture_of_permitted isOpen hmay).trans (readHbm_of_readable hu hgood)),
      fun hmay => congrArg Host.Outcome.next (readAperture_of_refused isOpen hmay)⟩
  · exact congrArg Host.Outcome.next ((readLine_shared isOpen hmay hgood).trans
      (congrArg (fun t => trackLine t _ _ _) (readHbm_of_readable hu hgood')))
  · subst hv
    rw [← backInvOthers_mem s pl.toNat (addr.toNat / 64)]
    exact congrArg Host.Outcome.next ((readLine_owned isOpen hmay hgood).trans
      (congrArg (fun t => trackLine t _ _ _) (readHbm_of_readable hu hgood')))
  · have hr' : r = ownWrite (boardBytes s pl.toNat 0xFF false (maskCount (BitVec.allOnes 64))) pl.toNat
        (addr.toNat / 64 * 64) (BitVec.allOnes 64) (lineBytes data) := by
      rw [maskCount_allOnes]
      exact hr
    exact congrArg Host.Outcome.next (lineWrite_of_permitted isOpen hmay hr')
  · exact congrArg Host.Outcome.next (lineWrite_of_permitted isOpen hmay hr)
  · exact ⟨congrArg Host.Outcome.next (lineWrite_of_refused isOpen hmay),
      congrArg Host.Outcome.next (lineWrite_of_refused isOpen hmay)⟩

end Sys2Proof.Machine
end

section
/-! ## Loopbacks, memory tests and injected errors (chapter 16) -/

namespace Sys2Proof.Machine

/-! ### Loop registers -/

theorem setLoop_of_off {s : State} {p : Nat} (hoff : bit (s.port p).cfg 1 = false) (hplan : planUses s p = false) (v : Word) :
    setLoop s p v = s.modTst (fun t => { t with loop := t.loop.put p (loopValue v 4) }) := by
  simp [setLoop, hoff, hplan]

theorem setLoop_of_used {s : State} {p : Nat} (h : bit (s.port p).cfg 1 = true ∨ planUses s p = true) (v : Word) :
    setLoop s p v = s := by
  simp [setLoop, h]

theorem setPlLoop_of_off {s : State} {l : Nat} (hoff : bit (s.link l).cfg 0 = false) (v : Word) :
    setPlLoop s l v = s.modTst (fun t => { t with plLoop := t.plLoop.put l (loopValue v 3) }) := by
  simp [setPlLoop, hoff]

theorem setPlLoop_of_on {s : State} {l : Nat} (hon : bit (s.link l).cfg 0 = true) (v : Word) : setPlLoop s l v = s := by
  simp [setPlLoop, hon]

/-! ### Memory tests -/

theorem memRow_taken {s : State} {l cmd : Nat} {v : Word} (ht : taken s l 0xE0400 [(63, 28), (15, 8)] v = true)
    (hcmd : fld v 7 0 = cmd) : memRow s l v cmd = startMemTest s v := by
  simp only [memRow, hcmd, ne_eq, not_true_eq_false, if_false]
  exact ctlWrite_taken ht _

theorem sat_zero (w : Nat) : sat w 0 = 0 := Nat.zero_min _

theorem bitsOf_false (n : Nat) : bitsOf n (fun _ => false) = 0 := by
  simp only [bitsOf, Bool.false_eq_true, if_false]
  induction List.range n with
  | nil => rfl
  | cons _ _ ih => exact ih

/-- The results of a memory test that has ended: how many words failed, and in which stacks (R380). -/
def memTested (s : State) (fails : Nat) (failed : BitVec 12) : State :=
  s.modTst (fun t => { t with memRunning := none, memDone := true, memCode := St.ok, memFails := fails, memFailed := failed })

theorem endMemTest_of_phy {s : State} {st : BitVec 12} (hrun : s.tst.memRunning = some (1, st)) (failing : List (BitVec 40)) :
    endMemTest s failing = memTested s 0 (BitVec.ofNat 12 (bitsOf 12 (fun k =>
      (((failing.map (fun a => a.toNat / 8 * 8)).filter (testedAddr s st)).eraseDups).any (fun a => stackOf s.hbm a == k)))) := by
  simp only [endMemTest, hrun, Nat.reduceEqDiff, if_false, List.length_nil, sat_zero]
  rfl

/-- A SELF_TEST without a failing word only clears the pool of its stacks. -/
theorem endMemTest_of_good {s : State} {st : BitVec 12} (hrun : s.tst.memRunning = some (2, st)) :
    endMemTest s [] = memTested (clearPool s st) 0 0 := by
  simp only [endMemTest, hrun, if_true, List.map_nil, List.filter_nil, List.eraseDups_nil, List.length_nil, sat_zero,
    List.any_nil, bitsOf_false]
  rfl

/-! ### What clearing the pool leaves -/

/-- Operations that change nothing but the links and what is sent. -/
def OnlyLinksSent (s t : State) : Prop := t = { s with links := t.links, out := t.out }

theorem OnlyLinksSent.refl (s : State) : OnlyLinksSent s s := rfl

theorem OnlyLinksSent.trans {a b c : State} (hab : OnlyLinksSent a b) (hbc : OnlyLinksSent b c) : OnlyLinksSent a c := by
  unfold OnlyLinksSent at hab hbc ⊢
  rw [hbc, hab]

theorem sent_onlyLinksSent (s : State) (x : Sent) : OnlyLinksSent s (s.sent x) := rfl

theorem modLink_onlyLinksSent (s : State) (l : Nat) (f : PLink → PLink) : OnlyLinksSent s (s.modLink l f) := rfl

theorem takeBack_onlyLinksSent (s : State) (links : List Nat) (p : Nat × Bool → Bool) :
    OnlyLinksSent s (takeBack s links p) := by
  unfold takeBack
  refine forEach_rel OnlyLinksSent.refl OnlyLinksSent.trans (fun u l => ?_) _ s
  dsimp only
  split
  · rfl
  · exact (forEach_rel OnlyLinksSent.refl OnlyLinksSent.trans (fun v (e : Nat × Bool) =>
      sent_onlyLinksSent v (.backInv l e.1)) _ u).trans
      (modLink_onlyLinksSent _ l _)

theorem readByte_filter_out {p : Nat → Bool} {a : Nat} (h : p a = false) (m : List Host.Cell) :
    readByte (m.filter (fun c => p c.1)) a = unlistedByte := by
  induction m with
  | nil => rfl
  | cons c rest ih =>
    obtain ⟨k, v⟩ := c
    rw [List.filter_cons]
    split
    · rename_i hk
      have hka : k ≠ a := fun e => by simp [e, h] at hk
      simpa [readByte, hka] using ih
    · exact ih

theorem readByte_filter_kept {p : Nat → Bool} {a : Nat} (h : p a = true) (m : List Host.Cell) :
    readByte (m.filter (fun c => p c.1)) a = readByte m a := by
  induction m with
  | nil => rfl
  | cons c rest ih =>
    obtain ⟨k, v⟩ := c
    rw [List.filter_cons]
    split
    · simp only [readByte, ih]
    · rename_i hk
      have hka : k ≠ a := fun e => hk (by simpa [e] using h)
      simpa [readByte, hka] using ih

section ClearPool
variable {s : State} {st : BitVec 12}

theorem testedAddr_congr {t : State} (h : t.hbm = s.hbm) (st : BitVec 12) : testedAddr t st = testedAddr s st := by
  funext a
  unfold testedAddr poolEnd
  rw [h]

theorem clearPool_of_uninjected (hinject : testedAddr s st (fld s.tst.inject 39 0) = false) :
    ∃ h l o, clearPool s st = { s with
      mem := s.mem.filter (fun c => !testedAddr s st c.1), hbm := h, links := l, out := o } := by
  have back := takeBack_onlyLinksSent s [0, 1, 2, 3] (fun e => testedAddr s st (e.1 * 64))
  have same := testedAddr_congr (takeBack_hbm s [0, 1, 2, 3] (fun e => testedAddr s st (e.1 * 64))) st
  unfold OnlyLinksSent at back
  simp only [clearPool, same, hinject, Bool.false_eq_true, if_false]
  rw [back]
  exact ⟨_, _, _, rfl⟩

end ClearPool

/-! ### Injected errors -/

theorem setInject_of_aligned {s : State} {v : Word} (halign : fld v 2 0 = 0) (hpool : fld v 39 0 < poolEnd s) :
    setInject s v = s.modTst (fun t => { t with
      inject := merge [(63, 62), (39, 0)] 0 v, injArmed := fld v 63 62 != 0 }) :=
  if_neg (fun h => h.elim (fun h => h halign) (fun h => Nat.not_le.mpr hpool h))

theorem setInject_of_beyond {s : State} {v : Word} (hpool : poolEnd s ≤ fld v 39 0) : setInject s v = s :=
  if_pos (Or.inr hpool)

/-- Settles O43: the gate of the control space lets each write through to its own equation, and a SELF_TEST that ends
well leaves of memory what `clearPool` filters. -/
theorem loopbacksAndMemoryTests : Obligations.LoopbacksAndMemoryTests := by
  intro s link v
  refine ⟨fun port ht => ?_, fun pl ht => ?_, fun t ht hstart => ?_, fun st failing words hrun hwords => ?_,
    fun st hrun hinject => ?_, fun ht => ?_⟩
  · exact ⟨fun hoff hplan => congrArg Host.Outcome.next ((ctlWrite_taken ht _).trans (setLoop_of_off hoff hplan v)),
      fun h => congrArg Host.Outcome.next ((ctlWrite_taken ht _).trans (setLoop_of_used h v))⟩
  · exact ⟨fun hoff => congrArg Host.Outcome.next ((ctlWrite_taken ht _).trans (setPlLoop_of_off hoff v)),
      fun hon => congrArg Host.Outcome.next ((ctlWrite_taken ht _).trans (setPlLoop_of_on hon v))⟩
  · subst hstart
    exact ⟨fun hcmd => congrArg Host.Outcome.next (memRow_taken ht hcmd),
      fun hcmd => congrArg Host.Outcome.next (memRow_taken ht hcmd)⟩
  · subst hwords
    exact congrArg Host.Outcome.next (endMemTest_of_phy hrun failing)
  · obtain ⟨h, l, o, cleared⟩ := clearPool_of_uninjected hinject
    refine ⟨memTested (clearPool s st) 0 0, congrArg Host.Outcome.next (endMemTest_of_good hrun), ?_, ?_,
      fun a ha => ?_, fun a ha => ?_⟩
    all_goals rw [cleared]
    · rfl
    · rfl
    · exact readByte_filter_out (p := fun k => !testedAddr s st k) (by simp [ha]) s.mem
    · exact readByte_filter_kept (p := fun k => !testedAddr s st k) (by simp [ha]) s.mem
  · exact ⟨fun halign hpool => congrArg Host.Outcome.next ((ctlWrite_taken ht _).trans (setInject_of_aligned halign hpool)),
      fun hpool => congrArg Host.Outcome.next ((ctlWrite_taken ht _).trans (setInject_of_beyond hpool))⟩

end Sys2Proof.Machine
end

section
/-! ## The conditions of a Pomel link (R270 to R272), PL_CFG and PL_CMD (R292) -/

namespace Sys2Proof.Machine

/-! ### The way DOWN -/

/-- A link that carried traffic, UP or RETRAIN, loses its epoch as it goes DOWN (R272, R288). -/
theorem boardDown_of_connected {s : State} {l : Nat} (h : (s.link l).cond = .up ∨ (s.link l).cond = .retrain) :
    boardDown s l = epochBump (s.modLink l (fun k => { k with
      cond := .down, since := s.now, lanes := 0, boardCause := false })) l := by
  have was : ((s.link l).cond == .up || (s.link l).cond == .retrain) = true := by
    rcases h with h | h <;> simp [h]
  exact if_pos was

theorem not_down_of_connected {k : PLink} (h : k.cond = .up ∨ k.cond = .retrain) : (k.cond == .down) = false := by
  rcases h with h | h <;> simp [h]

theorem resetNoticed_of_up {s : State} {l : Nat} (hup : (s.link l).cond = .up) (hver : (s.link l).ver ≠ 0) :
    resetNoticed s l = boardDown s l := by
  simp [resetNoticed, hup, hver]

theorem retrainTimeout_of_retrain {s : State} {l : Nat} (h : (s.link l).cond = .retrain) :
    retrainTimeout s l = boardDown (noteStall (s.arriveAt ((s.link l).since + 20000)) l) l := by
  simp [retrainTimeout, retrainEnd, h]

/-! ### PL_CFG and PL_CMD -/

/-- EN is below the fields of PL_CFG that are taken as another value (R292). -/
theorem bit_plCfgValue (v : Word) : bit (plCfgValue v) 0 = bit v 0 := by
  simp only [plCfgValue, bit_setFld_of_lt (show 0 < 4 by decide), bit_setFld_of_lt (show 0 < 8 by decide)]

/-- Setting the fields of PL_CFG leaves the condition of the link. -/
theorem cond_setCfg (s : State) (l : Nat) (f : PLink → Word) :
    ((s.modLink l (fun k => { k with cfg := f k })).link l).cond = (s.link l).cond := by
  rw [link_modLink]

theorem setPlCfg_of_enable {s : State} {l : Nat} {v : Word} (hen : bit v 0 = true) (hdown : (s.link l).cond = .down) :
    setPlCfg s l v = boardTrain (s.modLink l (fun k => { k with cfg := merge plCfgFields k.cfg v })) l := by
  simp only [setPlCfg, hen, cond_setCfg, hdown, beq_self_eq_true, if_true]

theorem setPlCfg_of_disable {s : State} {l : Nat} {v : Word} (hen : bit v 0 = false)
    (h : (s.link l).cond = .up ∨ (s.link l).cond = .retrain) :
    setPlCfg s l v = boardDown (s.modLink l (fun k => { k with cfg := merge plCfgFields k.cfg v })) l := by
  simp only [setPlCfg, hen, cond_setCfg, not_down_of_connected h, Bool.false_eq_true, if_false]

theorem plCommand_of_forceDown {s : State} {l : Nat} {v : Word} (hcmd : fld v 7 0 = 1)
    (h : (s.link l).cond = .up ∨ (s.link l).cond = .retrain) : plCommand s l v = boardDown s l := by
  simp [plCommand, hcmd, not_down_of_connected h]

/-! ### Training -/

theorem trained_of_training {s : State} {l ver lanes w g : Nat} {agent : Bool} (hrun : s.running = true)
    (hcond : (s.link l).cond = .training) (hgroup : laneGroup lanes (boardWidthMax (s.link l)) = some (w, g)) :
    trained s l ver agent lanes = boardServe (s.modLink l (fun k => { k with
      cond := .up, since := s.now, boardCause := false, agent := agent, width := w, lanes := g
      ver := min (min ver 2) (boardVerMax k) })) l := by
  simp [trained, hrun, hcond, hgroup]

theorem trainTimeout_of_training {s : State} {l : Nat} (hrun : s.running = true)
    (hcond : (s.link l).cond = .training) (hfirst : (s.link l).boardCause = false) :
    trainTimeout s l = noteCauses (raiseFault
      ((s.arriveAt ((s.link l).trainSince + 500000000)).modLink l (fun k => { k with boardCause := true }))
      0x05 0 (32 + l) 0xFF l (BitVec.ofNat 32 (s.link l).epoch)) := by
  simp [trainTimeout, hrun, hcond, hfirst]

theorem boardRetry_of_down {s : State} {l : Nat} (hrun : s.running = true) (hdown : (s.link l).cond = .down)
    (hen : bit (s.link l).cfg 0 = true) :
    boardRetry s l = boardTrain (s.arriveAt ((s.link l).since + 1000000)) l := by
  simp [boardRetry, boardMayTrain, hrun, hdown, hen]

/-! ### RETRAIN -/

theorem misaligned_of_up {s : State} {l : Nat} (hup : (s.link l).cond = .up) :
    misaligned s l = s.modLink l (fun k => { k with
      cond := .retrain, since := s.now, retrains := wrap 16 (k.retrains + 1) }) := by
  simp [misaligned, hup]

/-- A time is not after the tick in which it is reached (R13). -/
theorem le_tickStart (t : Nat) : t ≤ tickStart t := by
  unfold tickStart
  omega

/-- Lanes that align within 20 µs bring the link UP again (R272). -/
theorem realigned_of_retrain {s : State} {l lanes w g : Nat} (hcond : (s.link l).cond = .retrain)
    (htime : s.now ≤ (s.link l).since + 20000) (hgroup : laneGroup lanes (s.link l).width = some (w, g)) :
    realigned s l lanes = boardServe ((noteStall s l).modLink l (fun k => { k with
      cond := .up, since := s.now, width := w, lanes := g
      replays := if k.reqs.isEmpty then k.replays else wrap 8 (k.replays + 1) })) l := by
  have inTime : ¬ tickStart (retrainEnd (s.link l)) < s.now :=
    Nat.not_lt.mpr (Nat.le_trans htime (le_tickStart _))
  simp [realigned, hcond, inTime, hgroup]

/-- Settles O28: each write passes the gate of the control space, each event is one equation of its operation, and what
takes a connected link DOWN does so by `boardDown_of_connected`. -/
theorem pomelLinksChangeCondition : Obligations.PomelLinksChangeCondition := by
  intro s pl l k hl hk
  subst hl hk
  refine ⟨fun link v u ht hu => ⟨fun hen hdown => ?_, fun hen hcond => ?_⟩, fun link v ht hcmd hcond => ?_,
    fun ver agent lanes w g hrun hcond hgroup => congrArg Host.Outcome.next (trained_of_training hrun hcond hgroup),
    fun u hrun hcond hfirst hu => ?_, fun u hrun hdown hen hu => ?_,
    fun hup => congrArg Host.Outcome.next (misaligned_of_up hup),
    fun lanes w g hcond htime hgroup => congrArg Host.Outcome.next (realigned_of_retrain hcond htime hgroup),
    fun hcond => congrArg Host.Outcome.next (retrainTimeout_of_retrain hcond), fun hup hver => ?_⟩
  · subst hu
    exact congrArg Host.Outcome.next ((ctlWrite_taken ht _).trans (setPlCfg_of_enable ((bit_plCfgValue v).trans hen) hdown))
  · subst hu
    have connected := hcond
    rw [← cond_setCfg s pl.toNat (fun k => merge plCfgFields k.cfg (plCfgValue v))] at connected
    exact congrArg Host.Outcome.next ((ctlWrite_taken ht _).trans
      ((setPlCfg_of_disable ((bit_plCfgValue v).trans hen) hcond).trans (boardDown_of_connected connected)))
  · exact congrArg Host.Outcome.next ((ctlWrite_taken ht _).trans
      ((plCommand_of_forceDown hcmd hcond).trans (boardDown_of_connected hcond)))
  · subst hu
    exact congrArg Host.Outcome.next (trainTimeout_of_training hrun hcond hfirst)
  · subst hu
    exact congrArg Host.Outcome.next (boardRetry_of_down hrun hdown hen)
  · exact congrArg Host.Outcome.next ((resetNoticed_of_up hup hver).trans (boardDown_of_connected (Or.inl hup)))

end Sys2Proof.Machine
end

section
/-! ## Writes of device-global registers from links that MGR_LINKS does not hold (R296, R297, R308) -/

namespace Sys2Proof.Machine

section OtherLinks
variable {s : State} {l a : Nat}

/-- Only the links in MGR_LINKS reach the device-global registers (R296). -/
theorem serves_global (ha : a < globalEnd) : serves s l a = s.ctrl.mgrLinks.testBit l := if_pos ha

theorem reservedMap_global (ha : a < globalEnd) : reservedMap a = false := by
  have low : ¬ globalEnd ≤ a := Nat.not_le.mpr ha
  have high : ¬ winTop ≤ a := fun h => low (Nat.le_trans (by decide) h)
  simp [reservedMap, low, high]

/-- The register's own effect `f` does not run: the write is a violation and nothing else (R297). -/
theorem ctlWrite_of_otherLink (harrives : arrives s l = true) (hlink : s.ctrl.mgrLinks.testBit l = false)
    (ha : a < globalEnd) (rsv : List (Nat × Nat)) (v : Word) (f : State → State) :
    ctlWrite s l a rsv v f = violate s l Viol.notServed a true := by
  simp [ctlWrite, refuseAccess, harrives, serves_global ha, hlink, reservedMap_global ha]

end OtherLinks

theorem plAddr_global (pl : BitVec 2) {off : Nat} (hoff : off < 0x100) : plAddr pl.toNat off < globalEnd := by
  have := pl.isLt
  simp only [plAddr, globalEnd]
  omega

/-- Settles O59: every one of these commands is a write of a register below the end of the device-global ones, which
the control space refuses before the register's effect runs. -/
theorem onlyManagerLinksReachTheDevice : Obligations.OnlyManagerLinksReachTheDevice := by
  intro s link pl port v no harrives hlink hno
  have refused : ∀ (a : Nat) (rsv : List (Nat × Nat)) (f : State → State), a < globalEnd →
      Host.Outcome.next (φ := Fault) (ρ := Refusal) (ctlWrite s link.toNat a rsv v f) = .next (no a) :=
    fun a rsv f ha => congrArg Host.Outcome.next (((ctlWrite_of_otherLink harrives hlink ha rsv v f).trans
      (violate_of_access (by decide) _ _)).trans (hno a).symm)
  have portAddr : 0x60000 + 0x100 * port.toNat < globalEnd := by
    have := port.isLt
    simp only [globalEnd]
    omega
  exact ⟨refused _ _ _ (by decide), refused _ _ _ (by decide), refused _ _ _ (by decide), refused _ _ _ portAddr,
    refused _ _ _ (by decide), refused _ _ _ (by decide), refused _ _ _ (by decide),
    refused _ _ _ (plAddr_global pl (by decide)), refused _ _ _ (plAddr_global pl (by decide)),
    refused _ _ _ (by decide), refused _ _ _ (by decide), refused _ _ _ (by decide)⟩

end Sys2Proof.Machine
end

section
/-! ## Mailbox doors that refuse, and their answers (R303 to R306) -/

namespace Sys2Proof.Machine

/-! ### The gate of a door -/

theorem mailRow_of_served {s : State} {i : BitVec 7} {l cmd : Nat} (harrives : arrives s l = true)
    (hserves : serves s l (winAddr i.toNat 0x7240) = true) (hcmd : reqCmd s (.window i) = cmd) (run : State → State) :
    mailRow s (.window i) l cmd run = run s := by
  simp [mailRow, doorInst, harrives, hserves, hcmd]

section Gate
variable {s : State} {d : Door}

theorem mailGate_of_busy (hbusy : (s.door (doorKey d)).busy = true) (mgr : Bool) (vs : List Nat)
    (run : State → State) : mailGate s d mgr vs run
      = s.modDoor (doorKey d) (fun x => { x with ignored := wrap 16 (x.ignored + 1) }) :=
  if_pos hbusy

theorem took_reqCmd (s : State) (d : Door) : reqCmd (took s d) d = reqCmd s d := by
  rw [reqCmd, reqCmd, took_reqWord]

/-- A door that is not BUSY takes the request before it checks it. -/
theorem mailGate_of_idle (hidle : (s.door (doorKey d)).busy = false) (mgr : Bool) (vs : List Nat)
    (run : State → State) : mailGate s d mgr vs run
      = if reqCmd (took s d) d ≠ 0x0001 ∧ (s.inst (doorInst d)).st ≠ .active then answer (took s d) d St.flushed []
        else if fld (reqWord (took s d) d 0) 31 24 ≠ 0
            ∨ !vs.contains (fld (reqWord (took s d) d 0) 23 16) ∨ (mgr ∧ doorInst d ≠ 0)
          then answer (took s d) d St.malformed []
        else run (took s d) :=
  if_neg (by simp [hidle])

/-- Only MBX_INFO runs at a door whose holder is not ACTIVE (R305). -/
theorem mailGate_of_inactive (hidle : (s.door (doorKey d)).busy = false) (hcmd : reqCmd s d ≠ 0x0001)
    (hinst : (s.inst (doorInst d)).st ≠ .active) (mgr : Bool) (vs : List Nat) (run : State → State) :
    mailGate s d mgr vs run = answer (took s d) d St.flushed [] :=
  (mailGate_of_idle hidle mgr vs run).trans (if_pos ⟨took_reqCmd s d ▸ hcmd, hinst⟩)

/-- A command of the manager's doors is MALFORMED at a tenant's door (R305). -/
theorem mailGate_of_tenant (hidle : (s.door (doorKey d)).busy = false) (hinst : (s.inst (doorInst d)).st = .active)
    (hdoor : doorInst d ≠ 0) (vs : List Nat) (run : State → State) :
    mailGate s d true vs run = answer (took s d) d St.malformed [] :=
  (mailGate_of_idle hidle true vs run).trans ((if_neg (fun h => h.2 hinst)).trans
    (if_pos (Or.inr (Or.inr ⟨rfl, hdoor⟩))))

end Gate

/-- Settles O60: a served request meets the gate of its door, whose three refusals are one equation each. -/
theorem mailboxDoorsRefuseAndAnswer : Obligations.MailboxDoorsRefuseAndAnswer := by
  intro s i link d hd harrives hserves
  subst hd
  have row := fun cmd (hcmd : reqCmd s (.window i) = cmd) => mailRow_of_served harrives hserves hcmd
  refine ⟨fun hbusy => ⟨fun hcmd => ?_, fun hcmd => ?_⟩, fun hidle hinst => ⟨fun hcmd => ?_, fun hcmd => ?_⟩,
    fun hidle hinst hi hcmd => ?_, fun st ws => ⟨_, ?_, rfl⟩⟩
  · exact congrArg Host.Outcome.next ((row _ hcmd _).trans (mailGate_of_busy hbusy _ _ _))
  · exact congrArg Host.Outcome.next ((row _ hcmd _).trans (mailGate_of_busy hbusy _ _ _))
  · exact congrArg Host.Outcome.next ((row _ hcmd _).trans (mailGate_of_inactive hidle (by simp [hcmd]) hinst _ _ _))
  · exact congrArg Host.Outcome.next ((row _ hcmd _).trans (mailGate_of_inactive hidle (by simp [hcmd]) hinst _ _ _))
  · have tenant : doorInst (.window i) ≠ 0 := fun h => hi (BitVec.eq_of_toNat_eq h)
    exact congrArg Host.Outcome.next ((row _ hcmd _).trans (mailGate_of_tenant hidle hinst tenant _ _))
  · have vector : ((s.door i.toNat).vecEn && (Door.window i != Door.i3c)) = (s.door i.toNat).vecEn := by simp
    simp only [answer, doorKey, vector]

end Sys2Proof.Machine
end

section
/-! ## Creation, calm, reset and removal of instances, the drain bound and zeroing (R299 to R306) -/

namespace Sys2Proof.Machine

/-- A posted command runs on the door that took it, with the field of its request that it names. -/
theorem mailRow_posted_field {s : State} {d : Door} {l cmd : Nat} {mgr : Bool} (h : posted s d l cmd 1 mgr = true)
    (off n : Nat) (f : State → Nat → State) :
    mailRow s d l cmd (fun s => mailGate s d mgr [1] (fun s => f s (reqFld s d off n)))
      = f (took s d) (reqFld s d off n) :=
  (mailRow_posted h rfl (fun t => f t (reqFld t d off n))).trans
    (congrArg (f (took s d)) (took_reqFld s d off n))

/-- Taking a request changes the door alone (R303). -/
theorem took_inst (s : State) (d : Door) (i : Nat) : (took s d).inst i = s.inst i := by
  simp only [State.inst, took, State.modDoor_insts]

theorem answerSt_pair (d : Door) (t : State) (st : Nat) : answerSt d (t, st) = answer t d st [] := rfl

section Commands
variable {s : State} {d : Door} {i : Nat}

theorem runCreate_of_accepted (hload : s.plans.nextCond ≠ .loading) (h : createFail s d = none) :
    runCreate s d = answer (createInst s d) d St.ok [0] := by
  simp only [runCreate, poolTurn_of_no_load hload, h]

theorem runCreate_of_refused {step k st : Nat} (hload : s.plans.nextCond ≠ .loading)
    (h : createFail s d = some (step, k, st)) :
    runCreate s d = answer s d st [reg [(15, 8, step), (7, 0, k)]] := by
  simp only [runCreate, poolTurn_of_no_load hload, h]

/-- Instances 1 to 127 can be named by INST_CALM, INST_RESET and INST_REMOVE. -/
theorem onInst_of_named (hlow : 0 < i) (hhigh : i < 128) (f : InstState → State × Nat) :
    onInst s i f = f (s.inst i).st :=
  if_neg (by omega)

theorem calmInst_of_active (hlow : 0 < i) (hhigh : i < 128) (hst : (s.inst i).st = .active) :
    calmInst s i = (settleSteps (enterCalming s i false), St.ok) := by
  rw [calmInst, onInst_of_named hlow hhigh, hst]

theorem calmInst_zero : calmInst s 0 = (s, St.malformed) := rfl

theorem resetInst_of_calm (hlow : 0 < i) (hhigh : i < 128) (hst : (s.inst i).st = .calm)
    (hkept : (s.inst i).removing = false) : resetInst s i = (settleSteps (beginReset s i), St.ok) := by
  rw [resetInst, onInst_of_named hlow hhigh, hst]
  simp [hkept]

theorem removeInst_of_active (hlow : 0 < i) (hhigh : i < 128) (hst : (s.inst i).st = .active) :
    removeInst s i = (settleSteps (enterCalming s i true), St.ok) := by
  rw [removeInst, onInst_of_named hlow hhigh, hst]

end Commands

/-! ### The drain bound -/

section Drain
variable {s : State} {i : Nat}

theorem forEach_nil {α : Type} (s : State) (f : State → α → State) : forEach [] s f = s := rfl

theorem instDrained_of_not_calming (h : (s.inst i).st ≠ .calming) : instDrained s i = s := by
  simp [instDrained, h]

/-- Without queues and QPs nothing is left running (R300). -/
theorem instBusy_of_idle (hqueues : instQueues s i = []) (hqps : instQps s i = []) : instBusy s i = false := by
  simp [instBusy, hqueues, hqps]

theorem reachCalm_of_idle (hst : (s.inst i).st = .calming) (hqueues : instQueues s i = []) (hqps : instQps s i = []) :
    reachCalm s i = if ((s.modInst i (fun x => { x with st := .calm })).inst i).removing
      then beginReset (s.modInst i (fun x => { x with st := .calm })) i
      else s.modInst i (fun x => { x with st := .calm }) :=
  if_pos (by simp [hst, instBusy_of_idle hqueues hqps])

/-- Without queues and QPs of its own, no step, copy or entry is flushed at the drain bound (R301). -/
theorem instDrained_of_idle {v : State} (hst : (s.inst i).st = .calming)
    (hv : v = meetTick (s.arriveAt (s.inst i).calmAt)) (hqueues : instQueues v i = [])
    (hqps : instQps v i = []) : instDrained s i = reachCalm v i := by
  subst hv
  have calming : ((s.inst i).st != .calming) = false := by simp [hst]
  simp only [instDrained, calming, hqps, List.filter_nil, forEach_nil, hqueues, List.contains_nil, Bool.false_eq_true,
    if_false]
  refine congrArg (reachCalm · i) ((forEach_eq_self fun r _ => ?_).trans (forEach_eq_self fun n _ => ?_))
  · split
    · split <;> rfl
    · rfl
  · split <;> rfl

end Drain

/-! ### Zeroing -/

/-- Every HBM region among the resources `cs` is zeroed (R302). -/
def zeroRegions (s : State) (cs : List Claim) : State :=
  forEach cs s (fun s c => if c.kind = 0x06 then hbmZero s (c.first * gran) (c.count * gran) else s)

/-- Address `a` of HBM lies in region `c`, which is counted in granules of 2 MiB (R298). -/
def zeroedBy (a : Nat) (c : Claim) : Bool :=
  c.kind == 0x06 && decide (c.first * gran ≤ a) && decide (a < (c.first + c.count) * gran)

theorem zeroedBy_iff {x : Nat} {c : Claim} : zeroedBy x c = true
    ↔ c.kind = 0x06 ∧ c.first * 2097152 ≤ x ∧ x < (c.first + c.count) * 2097152 := by
  simp only [zeroedBy, Bool.and_eq_true, beq_iff_eq, decide_eq_true_eq, and_assoc]
  rfl

section Zeroing
variable {s : State} {i : Nat}

theorem instZeroed_of_resetting (h : (s.inst i).st = .resetting) :
    instZeroed s i = (zeroRegions (countGranules s) (s.inst i).res).modInst i (fun x => { x with
      st := .free, res := [], removing := false, drainUs := 0, calmAt := 0 }) :=
  if_neg (by simp [h])

theorem countGranules_of_stopped (h : s.mtr.running = false) : countGranules s = s := by
  simp [countGranules, h]

theorem zeroRegions_of_none {cs : List Claim} (h : ∀ c ∈ cs, c.kind ≠ 0x06) : zeroRegions s cs = s :=
  forEach_eq_self (fun c hc => if_neg (h c hc))

theorem hbmZero_insts (s : State) (a n : Nat) : (hbmZero s a n).insts = s.insts := by
  simp only [hbmZero, backInvRange]
  rw [takeBack_onlyLinksSent s]

/-- Zeroing regions leaves all instances as they were. -/
theorem zeroRegions_inst (s : State) (cs : List Claim) (j : Nat) : (zeroRegions s cs).inst j = s.inst j := by
  refine forEach_keeps (fun s => s.inst j) _ (fun u c => ?_) cs s
  split
  · exact congrArg (fun t : Tbl Inst => t.findD j Inst.reset) (hbmZero_insts u _ _)
  · rfl

theorem countGranules_inst (s : State) (j : Nat) : (countGranules s).inst j = s.inst j := by
  rw [countGranules_onlyMeters s]
  rfl

theorem countGranules_mem (s : State) : (countGranules s).mem = s.mem := by
  rw [countGranules_onlyMeters s]

/-- The bytes of the zeroed range are no longer listed, and no other byte moves. -/
theorem readByte_hbmZero (s : State) (a n x : Nat) : readByte (hbmZero s a n).mem x
    = if decide (a ≤ x) && decide (x < a + n) then unlistedByte else readByte s.mem x := by
  have kept : (hbmZero s a n).mem
      = s.mem.filter (fun c => !(decide (a ≤ c.1) && decide (c.1 < a + n))) := by
    simp only [hbmZero, backInvRange_mem]
  rw [kept]
  split
  · next hin =>
    exact readByte_filter_out (p := fun k => !(decide (a ≤ k) && decide (k < a + n))) (by simp [hin]) s.mem
  · next hout =>
    exact readByte_filter_kept (p := fun k => !(decide (a ≤ k) && decide (k < a + n))) (by simp [hout]) s.mem

theorem readByte_zeroRegions (s : State) (cs : List Claim) (x : Nat) : readByte (zeroRegions s cs).mem x
    = if cs.any (zeroedBy x) then unlistedByte else readByte s.mem x := by
  induction cs generalizing s with
  | nil => rfl
  | cons c cs ih =>
    have first : readByte (if c.kind = 0x06 then hbmZero s (c.first * gran) (c.count * gran) else s).mem x
        = if zeroedBy x c then unlistedByte else readByte s.mem x := by
      by_cases hkind : c.kind = 0x06
      · simp [hkind, zeroedBy, readByte_hbmZero, Nat.add_mul]
      · simp [hkind, zeroedBy]
    refine (ih _).trans ?_
    rw [first, List.any_cons]
    cases zeroedBy x c <;> simp

theorem readByte_instZeroed (h : (s.inst i).st = .resetting) (x : Nat) : readByte (instZeroed s i).mem x
    = if (s.inst i).res.any (zeroedBy x) then unlistedByte else readByte s.mem x := by
  rw [instZeroed_of_resetting h, State.modInst_mem, readByte_zeroRegions, countGranules_mem]

end Zeroing

/-- Settles O33: without queues and QPs nothing is left but to become CALM, and zeroing takes the bytes of its HBM
regions out of the memory and nothing else. -/
theorem instanceDrainAndZeroing : Obligations.InstanceDrainAndZeroing := by
  intro s i
  refine ⟨fun v u hst hv hcalming hqueues hqps hu => ?_, fun hst => ⟨instZeroed s i.toNat, rfl, ?_, ?_, fun j hj => ?_,
    fun c hc hkind x hlow hhigh => ?_, fun x hout => ?_⟩⟩
  · subst hu
    exact congrArg (fun t => Host.Outcome.next (settleSteps t))
      ((instDrained_of_idle hst hv hqueues hqps).trans (reachCalm_of_idle hcalming hqueues hqps))
  · rw [instZeroed_of_resetting hst, inst_modInst]
  · rw [instZeroed_of_resetting hst, inst_modInst]
  · rw [instZeroed_of_resetting hst, inst_modInst_ne _ _ hj, zeroRegions_inst, countGranules_inst]
  · have held : (s.inst i.toNat).res.any (zeroedBy x) = true :=
      List.any_eq_true.mpr ⟨c, hc, zeroedBy_iff.mpr ⟨hkind, hlow, hhigh⟩⟩
    rw [readByte_instZeroed hst, if_pos held]
    rfl
  · have clear : ¬ (s.inst i.toNat).res.any (zeroedBy x) = true := by
      intro held
      obtain ⟨c, hc, hin⟩ := List.any_eq_true.mp held
      obtain ⟨hkind, hlow, hhigh⟩ := zeroedBy_iff.mp hin
      rcases hout c hc hkind with below | above
      · exact Nat.not_lt.mpr hlow below
      · exact Nat.not_lt.mpr above hhigh
    rw [readByte_instZeroed hst, if_neg clear]

/-- Settles O32: a posted command runs on the state whose door took it, where what each command does is
one equation. -/
theorem instancesAreCreatedCalmedResetAndRemoved : Obligations.InstancesAreCreatedCalmedResetAndRemoved := by
  intro s
  refine ⟨fun d link u i hu hi hload => ⟨fun hp => ?_, fun hp => ?_, fun hp hlow hhigh hst hkept => ?_,
    fun hp hlow hhigh hst => ?_⟩, fun d link hp => ?_, fun i hst => ?_, fun i hst hstopped hnone => ?_⟩
  · subst hu
    have run := mailRow_posted hp (vs := [1]) rfl (runCreate · d)
    exact ⟨fun h => congrArg Host.Outcome.next (run.trans (runCreate_of_accepted (s := took s d) hload h)),
      fun step k st h => congrArg Host.Outcome.next (run.trans (runCreate_of_refused (s := took s d) hload h))⟩
  · subst hu
    have run := mailRow_posted_field hp 8 1 (fun t i => answerSt d (calmInst t i))
    rw [← hi] at run
    refine ⟨fun hlow hhigh hst => ?_, fun hzero => ?_⟩
    · have active : ((took s d).inst i).st = .active := by rwa [took_inst]
      rw [calmInst_of_active (s := took s d) hlow hhigh active, answerSt_pair] at run
      exact congrArg Host.Outcome.next run
    · rw [hzero, calmInst_zero] at run
      exact congrArg Host.Outcome.next run
  · subst hu
    have calm : ((took s d).inst i).st = .calm := by rwa [took_inst]
    have kept : ((took s d).inst i).removing = false := by rwa [took_inst]
    have run := mailRow_posted_field hp 8 1 (fun t i => answerSt d (resetInst (poolTurn t) i))
    rw [← hi, poolTurn_of_no_load (s := took s d) hload, resetInst_of_calm (s := took s d) hlow hhigh calm kept,
      answerSt_pair] at run
    exact congrArg Host.Outcome.next run
  · subst hu
    have active : ((took s d).inst i).st = .active := by rwa [took_inst]
    have run := mailRow_posted_field hp 8 1 (fun t i => answerSt d (removeInst (poolTurn t) i))
    rw [← hi, poolTurn_of_no_load (s := took s d) hload, removeInst_of_active (s := took s d) hlow hhigh active,
      answerSt_pair] at run
    exact congrArg Host.Outcome.next run
  · exact congrArg Host.Outcome.next (mailRow_posted_field hp 8 2 (fun t cmd => answer t d St.ok [mailInfo d cmd]))
  · exact congrArg (fun t => Host.Outcome.next (settleSteps t)) (instDrained_of_not_calming hst)
  · have zeroed := instZeroed_of_resetting hst
    rw [countGranules_of_stopped hstopped, zeroRegions_of_none hnone] at zeroed
    exact congrArg Host.Outcome.next zeroed

end Sys2Proof.Machine
end

section
/-! ## The cap, credit, coefficients and throttling (R310 to R321) -/

namespace Sys2Proof.Machine

/-! ### The cap -/

section Cap
variable {s : State} {v : Word}

theorem writeCap_of_no_load (hload : s.plans.nextCond ≠ .loading) :
    writeCap s v = decideCap (s.modPwr (fun p => { p with capDone := false })) (fld v 9 0) := by
  simp [writeCap, hload]

theorem decideCap_of_malformed {w : Nat} (h : w < 300 ∨ 700 < w ∨ w % 5 ≠ 0) :
    decideCap s w = s.modPwr (fun p => { p with capDone := true, capCode := St.malformed, capHeld := none }) := by
  simp only [decideCap, if_pos h]
  rfl

theorem decideCap_of_reserved {w : Nat} (h : ¬(w < 300 ∨ 700 < w ∨ w % 5 ≠ 0))
    (hless : w * 1000 < reservedMw s.plans.active ∨ w * 1000 < reservedMw s.plans.next) :
    decideCap s w = s.modPwr (fun p => { p with capDone := true, capCode := St.energyRefused, capHeld := none }) := by
  simp only [decideCap, if_neg h, if_pos hless]
  rfl

theorem decideCap_of_accepted {w : Nat} (h : ¬(w < 300 ∨ 700 < w ∨ w % 5 ≠ 0))
    (hleast : ¬(w * 1000 < reservedMw s.plans.active ∨ w * 1000 < reservedMw s.plans.next)) :
    decideCap s w = s.modPwr (fun p => { p with
      capDone := true, capCode := St.ok, capHeld := none, capNext := some w }) := by
  simp only [decideCap, if_neg h, if_neg hleast]
  rfl

end Cap

/-! ### Coefficients -/

/-- Operations that change nothing but the time, the power manager, the meters and the free values drawn. -/
def OnlyEnergy (s t : State) : Prop := t = { s with time := t.time, pwr := t.pwr, mtr := t.mtr, draw := t.draw }

theorem OnlyEnergy.refl (s : State) : OnlyEnergy s s := rfl

theorem OnlyEnergy.trans {a b c : State} (hab : OnlyEnergy a b) (hbc : OnlyEnergy b c) : OnlyEnergy a c := by
  unfold OnlyEnergy at hab hbc ⊢
  rw [hbc, hab]

theorem newK_onlyEnergy (s : State) (m d : Nat) : OnlyEnergy s (newK s m d) := by
  unfold newK
  dsimp only
  split <;> rfl

theorem newK_time (s : State) (m d : Nat) : (newK s m d).time = s.time := by
  unfold newK
  dsimp only
  split <;> rfl

theorem newK_estimated (s : State) (m d : Nat) : (newK s m d).pwr.estimated = s.pwr.estimated := by
  unfold newK
  dsimp only
  split <;> rfl

theorem kOf_newK_ne (s : State) (m : Nat) {d j : Nat} (h : j ≠ d) : kOf (newK s m d) j = kOf s j := by
  unfold newK kOf
  dsimp only
  split <;> exact Tbl.findD_put_ne _ _ _ h

/-- R313 holds K within its bounds, whatever it is computed from. -/
theorem kOf_newK_bounds (s : State) (m d : Nat) : 2048 ≤ kOf (newK s m d) d ∧ kOf (newK s m d) d ≤ 8192 := by
  unfold newK
  simp only [kOf, State.modPwr_pwr, Tbl.findD_put_same]
  omega

theorem kOf_newK_of_estimated {s : State} {d : Nat} (m : Nat) (h : s.pwr.estimated.findD d 0 ≠ 0) :
    kOf (newK s m d) d = max 2048 (min 8192
      ((3 * kOf s d * s.pwr.estimated.findD d 0 + kOf s d * m) / (4 * s.pwr.estimated.findD d 0))) := by
  unfold newK
  simp only [kOf, State.modPwr_pwr, Tbl.findD_put_same, if_neg h]

/-- The coefficients of some domains, one after the other, from the energy measured in each (R313). -/
def newKs (s : State) (measured : List Nat) (ds : List Nat) : State :=
  forEach ds s (fun s d => newK s (measured.getD d 0) d)

theorem newKs_cons (s : State) (measured : List Nat) (d : Nat) (ds : List Nat) :
    newKs s measured (d :: ds) = newKs (newK s (measured.getD d 0) d) measured ds := rfl

theorem newKs_onlyEnergy (s : State) (measured ds : List Nat) : OnlyEnergy s (newKs s measured ds) :=
  forEach_rel OnlyEnergy.refl OnlyEnergy.trans (fun u d => newK_onlyEnergy u _ d) ds s

theorem newKs_time (s : State) (measured ds : List Nat) : (newKs s measured ds).time = s.time :=
  forEach_time (fun u d => newK_time u _ d) ds s

theorem kOf_newKs_of_not_mem {measured ds : List Nat} {d : Nat} (h : d ∉ ds) (s : State) :
    kOf (newKs s measured ds) d = kOf s d := by
  induction ds generalizing s with
  | nil => rfl
  | cons x ds ih =>
    obtain ⟨hx, hds⟩ := not_or.mp (mt List.mem_cons.mpr h)
    rw [newKs_cons, ih hds, kOf_newK_ne s _ hx]

/-- A domain's K comes from its own update, which finds its K and its estimate as they were: no other domain's update
touches them. -/
theorem kOf_newKs_of_mem {measured ds : List Nat} {d : Nat} (hnodup : ds.Nodup) (hd : d ∈ ds) (s : State) :
    ∃ w, kOf w d = kOf s d ∧ w.pwr.estimated = s.pwr.estimated
      ∧ kOf (newKs s measured ds) d = kOf (newK w (measured.getD d 0) d) d := by
  induction ds generalizing s with
  | nil => cases hd
  | cons x ds ih =>
    obtain ⟨hx, hnodup⟩ := List.nodup_cons.mp hnodup
    rw [newKs_cons]
    by_cases h : d = x
    · subst h
      exact ⟨s, rfl, rfl, kOf_newKs_of_not_mem hx _⟩
    · obtain ⟨w, hk, hestimated, hw⟩ := ih hnodup ((List.mem_cons.mp hd).resolve_left h) (newK s (measured.getD x 0) x)
      exact ⟨w, hk.trans (kOf_newK_ne s _ h), hestimated.trans (newK_estimated s _ x), hw⟩

theorem modMeter_onlyEnergy (s : State) (i : Nat) (f : Meter → Meter) : OnlyEnergy s (s.modMeter i f) := by
  unfold State.modMeter
  split <;> rfl

theorem modMeter_pwr (s : State) (i : Nat) (f : Meter → Meter) : (s.modMeter i f).pwr = s.pwr := by
  rw [modMeter_onlyMeters s i f]

/-- An update of the coefficients, with what it adds to the device's meter left open. -/
theorem updateCoefs_eq (s : State) (measured : List Nat) (staticW : Nat) :
    ∃ f, updateCoefs s measured staticW =
      ((newKs (s.arriveAt (nextMultiple s 10000000)) measured (List.range 5)).modPwr (fun p => { p with
        staticW := staticW, estimated := Tbl.empty })).modMeter 0xFF f := ⟨_, rfl⟩

/-- The power manager once the coefficients have been updated. -/
theorem updateCoefs_pwr (s : State) (measured : List Nat) (staticW : Nat) :
    (updateCoefs s measured staticW).pwr =
      { (newKs (s.arriveAt (nextMultiple s 10000000)) measured (List.range 5)).pwr with
        staticW := staticW, estimated := Tbl.empty } := by
  obtain ⟨f, update⟩ := updateCoefs_eq s measured staticW
  rw [update, modMeter_pwr, State.modPwr_pwr]

/-- Each of the five domains has its own update, on its K and its estimate as they were. -/
theorem kOf_updateCoefs (s : State) (measured : List Nat) (staticW : Nat) {d : Nat} (hd : d < 5) :
    ∃ w, kOf w d = kOf s d ∧ w.pwr.estimated = s.pwr.estimated
      ∧ kOf (updateCoefs s measured staticW) d = kOf (newK w (measured.getD d 0) d) d := by
  obtain ⟨w, hkept, hestimated, hk⟩ := kOf_newKs_of_mem (measured := measured) List.nodup_range
    (List.mem_range.mpr hd) (s.arriveAt (nextMultiple s 10000000))
  refine ⟨w, hkept, hestimated, Eq.trans ?_ hk⟩
  simp only [kOf, updateCoefs_pwr]

theorem updateCoefs_time (s : State) (measured : List Nat) (staticW : Nat) :
    (updateCoefs s measured staticW).time = (s.arriveAt (nextMultiple s 10000000)).time := by
  obtain ⟨f, update⟩ := updateCoefs_eq s measured staticW
  rw [update, modMeter_time, State.modPwr_time, newKs_time]

theorem updateCoefs_onlyEnergy (s : State) (measured : List Nat) (staticW : Nat) :
    OnlyEnergy s (updateCoefs s measured staticW) := by
  obtain ⟨f, update⟩ := updateCoefs_eq s measured staticW
  rw [update]
  have arrived : OnlyEnergy s (s.arriveAt (nextMultiple s 10000000)) := rfl
  have modPwr_onlyEnergy : ∀ (u : State) (g : Power → Power), OnlyEnergy u (u.modPwr g) := fun _ _ => rfl
  exact ((arrived.trans (newKs_onlyEnergy _ _ _)).trans (modPwr_onlyEnergy _ _)).trans (modMeter_onlyEnergy _ _ f)

/-- Settles O34: the decision on the cap, and K of each domain from its own update alone. -/
theorem theCapAndItsCredits : Obligations.TheCapAndItsCredits := by
  intro s
  refine ⟨fun link v w htaken hload hw => ?_, fun u w hserve hu hw => ?_, fun measured static hrun =>
    ⟨updateCoefs s measured static.toNat, ?_, ?_, ?_, fun d hd => ?_, fun d e hd he hne => ?_, ?_, ?_⟩⟩
  · have run : exec (.pwrCapWrite link v) s = .next (decideCap (s.modPwr (fun p => { p with capDone := false })) w) :=
      congrArg Host.Outcome.next ((ctlWrite_taken htaken _).trans (hw ▸ writeCap_of_no_load hload))
    refine ⟨fun h => ?_, fun hmin hmax h5 h => ?_, fun hmin hmax h5 hactive hnext => ?_⟩
    · exact run.trans (congrArg Host.Outcome.next (decideCap_of_malformed h))
    · exact run.trans (congrArg Host.Outcome.next (decideCap_of_reserved (by omega) h))
    · exact run.trans (congrArg Host.Outcome.next (decideCap_of_accepted (by omega)
        (not_or.mpr ⟨Nat.not_lt.mpr hactive, Nat.not_lt.mpr hnext⟩)))
  · subst hw hu
    exact congrArg Host.Outcome.next (if_pos hserve)
  · exact congrArg Host.Outcome.next (if_pos hrun)
  · rw [updateCoefs_pwr]
  · rw [updateCoefs_pwr]
  · obtain ⟨w, -, -, hk⟩ := kOf_updateCoefs s measured static.toNat hd
    rw [hk]
    exact kOf_newK_bounds w _ d
  · obtain ⟨w, hkept, hestimated, hk⟩ := kOf_updateCoefs s measured static.toNat hd
    have estimate : w.pwr.estimated.findD d 0 = e := by rw [hestimated, he]
    rw [hk, kOf_newK_of_estimated _ (estimate ▸ hne), estimate, hkept]
  · exact updateCoefs_time s measured static.toNat
  · exact updateCoefs_onlyEnergy s measured static.toNat

/-! ### Throttling -/

theorem throttleRequest_of_over {s : State} {tj : Nat} {u : State}
    (hu : u = noteTj (s.arriveAt (nextMultiple s 100000)) tj) (hemerg : s.pwr.emerg = false)
    (h : s.pwr.cap * 1000000 < averageUw u ∨ throttleTj s ≤ tj) :
    throttleRequest s tj = forEach throttleUnits u requestUnit := by
  subst hu
  refine if_pos ?_
  simp only [Bool.and_eq_true, Bool.not_eq_true', Bool.or_eq_true, decide_eq_true_eq]
  exact ⟨hemerg, h⟩

theorem throttleRequest_of_under {s : State} {tj : Nat} {u : State}
    (hu : u = noteTj (s.arriveAt (nextMultiple s 100000)) tj)
    (hpower : averageUw u ≤ s.pwr.cap * 1000000) (hcool : tj < throttleTj s) : throttleRequest s tj = u := by
  subst hu
  refine if_neg (fun h => ?_)
  simp only [Bool.and_eq_true, Bool.or_eq_true, decide_eq_true_eq] at h
  exact h.2.elim (Nat.not_lt.mpr hpower) (Nat.not_le.mpr hcool)

theorem throttleRelease_of_low {s : State} {tj : Nat} {u : State}
    (hu : u = noteTj (s.arriveAt (nextMultiple s 1000000)) tj) (hemerg : s.pwr.emerg = false)
    (hpower : averageUw u * 100 ≤ s.pwr.cap * 1000000 * 95) (hcool : tj + 3 < throttleTj s) :
    throttleRelease s tj = forEach throttleUnits u (fun s k => setLevel s k (levelOf s k - 1)) := by
  subst hu
  refine if_pos ?_
  simp only [Bool.and_eq_true, Bool.not_eq_true', decide_eq_true_eq]
  exact ⟨⟨hemerg, hpower⟩, hcool⟩

/-! ### Deferred requests -/

theorem mem_throttleUnits {k : Nat} : k ∈ throttleUnits ↔ k < 5 := by
  simp only [throttleUnits, List.mem_cons, List.not_mem_nil, or_false]
  omega

/-- What only one unit has, only that unit is picked for. -/
theorem throttleUnits_filter_of_one {k : Nat} (hk : k < 5) {p : Nat → Bool} (hp : p k = true)
    (hother : ∀ j, j < 5 → j ≠ k → p j = false) : throttleUnits.filter p = [k] := by
  have same : throttleUnits.filter p = throttleUnits.filter (· == k) := by
    refine List.filter_congr (fun j hj => ?_)
    by_cases h : j = k
    · simp [h, hp]
    · simp [h, hother j (mem_throttleUnits.mp hj) h]
  have one : ∀ k, k < 5 → throttleUnits.filter (· == k) = [k] := by decide
  rw [same, one k hk]

theorem throttleUnits_filterMap_of_one {k e : Nat} (hk : k < 5) {f : Nat → Option Nat} (hf : f k = some e)
    (hother : ∀ j, j < 5 → j ≠ k → f j = none) : throttleUnits.filterMap f = [e] := by
  have picked : throttleUnits.filter (fun j => (f j).isSome) = [k] :=
    throttleUnits_filter_of_one hk (by simp [hf]) (fun j hj h => by simp [hother j hj h])
  have same : throttleUnits.filterMap f = (throttleUnits.filter (fun j => (f j).isSome)).filterMap f := by
    rw [List.filterMap_filter]
    exact congrArg (List.filterMap · throttleUnits) (funext (fun j => by cases f j <;> rfl))
  rw [same, picked, List.filterMap_cons_some hf, List.filterMap_nil]

theorem deferralEnd_of_deferred {s : State} {k t : Nat} (h : (s.pwr.units.findD k default).deferredAt = some t) :
    deferralEnd s k = some (t + deferNs s) := by
  simp only [deferralEnd, h, Option.map_some]

theorem deferralEnd_of_none {s : State} {k : Nat} (h : (s.pwr.units.findD k default).deferredAt = none) :
    deferralEnd s k = none := by
  simp only [deferralEnd, h, Option.map_none]

/-- The deferral of a unit has ended by now. -/
def deferralOver (s : State) (u : Nat) : Bool :=
  match deferralEnd s u with
  | some e => decide (e ≤ s.now)
  | none => false

theorem deferralOver_arriveAt {s : State} {e : Nat} (u : Nat) (h : deferralEnd s u = some e) :
    deferralOver (s.arriveAt e) u = true := by
  have same : deferralEnd (s.arriveAt e) u = some e := h
  simp only [deferralOver, same, decide_eq_true (le_arriveAt_now s e)]

theorem deferralOver_arriveAt_of_none {s : State} {u : Nat} (e : Nat) (h : deferralEnd s u = none) :
    deferralOver (s.arriveAt e) u = false := by
  have same : deferralEnd (s.arriveAt e) u = none := h
  simp only [deferralOver, same]

/-- A deferred request takes effect, and is counted (R319, R321). -/
def expireDeferral (s : State) (u : Nat) : State :=
  (applyDeferred s u).modPwr (fun p => { p with deferExpired := wrap 16 (p.deferExpired + 1) })

theorem deferExpiry_of_end {s : State} {e : Nat} (h : (throttleUnits.filterMap (deferralEnd s)).min? = some e) :
    deferExpiry s = forEach (throttleUnits.filter (deferralOver (s.arriveAt e))) (s.arriveAt e) expireDeferral := by
  unfold deferExpiry
  rw [h]
  rfl

/-- The one deferred request takes effect when its deferral ends. -/
theorem deferExpiry_of_one {s : State} {k e : Nat} (hk : k < 5) (hend : deferralEnd s k = some e)
    (hother : ∀ j, j < 5 → j ≠ k → deferralEnd s j = none) : deferExpiry s = expireDeferral (s.arriveAt e) k := by
  have ended : throttleUnits.filter (deferralOver (s.arriveAt e)) = [k] :=
    throttleUnits_filter_of_one hk (deferralOver_arriveAt k hend)
      (fun j hj h => deferralOver_arriveAt_of_none e (hother j hj h))
  have first : (throttleUnits.filterMap (deferralEnd s)).min? = some e := by
    rw [throttleUnits_filterMap_of_one hk hend hother, List.min?_singleton]
  rw [deferExpiry_of_end first, ended]
  rfl

/-! ### The thermal override -/

/-- The override of one unit: level 8, and nothing deferred (R320). -/
def overrideUnit (s : State) (u : Nat) : State :=
  (setLevel s u 8).modPwr (fun p => { p with units := p.units.modify u (fun t => { t with deferredAt := none }) })

theorem levelOf_overrideUnit (s : State) (u k : Nat) :
    levelOf (overrideUnit s u) k = if k = u then 8 else levelOf s k := by
  split
  · rename_i h
    subst h
    simp [overrideUnit, levelOf, setLevel, Tbl.findD, Tbl.find_modify_same, Tbl.modifyD]
  · rename_i h
    simp [overrideUnit, levelOf, setLevel, Tbl.findD, Tbl.find_modify_ne _ _ h, Tbl.modifyD, Tbl.find_put_ne _ _ h]

theorem levelOf_overrideUnits (us : List Nat) (s : State) (k : Nat) :
    levelOf (forEach us s overrideUnit) k = if k ∈ us then 8 else levelOf s k := by
  induction us generalizing s with
  | nil => rfl
  | cons u us ih =>
    have first : forEach (u :: us) s overrideUnit = forEach us (overrideUnit s u) overrideUnit := rfl
    rw [first, ih, levelOf_overrideUnit]
    by_cases hus : k ∈ us
    · rw [if_pos hus, if_pos (List.mem_cons_of_mem u hus)]
    · rw [if_neg hus]
      by_cases hu : k = u
      · rw [if_pos hu, if_pos (List.mem_cons.mpr (Or.inl hu))]
      · rw [if_neg hu, if_neg (fun h => (List.mem_cons.mp h).elim hu hus)]

/-- The overrides of units change nothing but the units. -/
theorem overrideUnits_frame (us : List Nat) (s : State) :
    ∃ x, forEach us s overrideUnit = s.modPwr (fun p => { p with units := x }) :=
  forEach_inv (fun t => ∃ x, t = s.modPwr (fun p => { p with units := x })) overrideUnit
    (fun t u ⟨x, hx⟩ => ⟨(overrideUnit t u).pwr.units, by rw [hx]; rfl⟩) us s ⟨s.pwr.units, rfl⟩

/-- The override as it engages: every unit at level 8, EMERG and its counts, and the fault reported. -/
theorem thermalOverride_of_hot {s : State} {tj : Nat} (hemerg : s.pwr.emerg = false) (htj : 105 ≤ tj) :
    ∃ x n, (∀ k, k < 5 → (x.findD k default).level = 8) ∧ thermalOverride s tj = noteCauses (raiseFault
      (s.modPwr (fun p => { p with tj := tj, units := x, emerg := true, emergencies := wrap 16 (p.emergencies + 1)
                                   deferExpired := wrap 16 (p.deferExpired + n) }))
      0x07 0 113 0xFF 0 (BitVec.ofNat 32 (tj % 256))) := by
  have level := fun k (hk : k < 5) =>
    (levelOf_overrideUnits throttleUnits (noteTj s tj) k).trans (if_pos (mem_throttleUnits.mpr hk))
  obtain ⟨x, hx⟩ := overrideUnits_frame throttleUnits (noteTj s tj)
  rw [hx] at level
  refine ⟨x, (throttleUnits.filter (fun u => ((noteTj s tj).pwr.units.findD u default).deferredAt.isSome)).length,
    level, ?_⟩
  have engages : ¬(tj < 105 ∨ (noteTj s tj).pwr.emerg = true) :=
    not_or.mpr ⟨Nat.not_lt.mpr htj, Bool.eq_false_iff.mp hemerg⟩
  unfold thermalOverride
  dsimp only
  rw [if_neg engages]
  change noteCauses (raiseFault ((forEach throttleUnits (noteTj s tj) overrideUnit).modPwr _) _ _ _ _ _ _) = _
  rw [hx]
  rfl

theorem emergClear_of_cool {s : State} {tj : Nat} (h : tj < throttleTj s) :
    emergClear s tj = noteCauses { s with pwr := { s.pwr with tj := tj, emerg := false } } := if_pos h

/-- Settles O35: each row acts at its time on the units that its condition names. -/
theorem throttlingRisesDefersAndReleases : Obligations.ThrottlingRisesDefersAndReleases := by
  intro s hrun
  refine ⟨fun tj u hu hemerg => ⟨fun h => ?_, fun hpower hcool => ?_⟩, fun tj u hu hemerg hpower hcool => ?_,
    fun k t u hk hdeferred hother hu => ?_, fun tj hemerg htj => ?_, fun tj hcool => ?_⟩
  · exact congrArg Host.Outcome.next ((if_pos hrun).trans (throttleRequest_of_over hu hemerg h))
  · exact congrArg Host.Outcome.next ((if_pos hrun).trans (throttleRequest_of_under hu hpower hcool))
  · exact congrArg Host.Outcome.next ((if_pos hrun).trans (throttleRelease_of_low hu hemerg hpower hcool))
  · subst hu
    exact congrArg Host.Outcome.next (deferExpiry_of_one hk (deferralEnd_of_deferred hdeferred)
      (fun j hj h => deferralEnd_of_none (hother j hj h)))
  · obtain ⟨x, n, level, hot⟩ := thermalOverride_of_hot hemerg htj
    rw [Nat.mod_eq_of_lt tj.isLt] at hot
    exact ⟨_, congrArg Host.Outcome.next ((if_pos hrun).trans hot), rfl, rfl, rfl, rfl, level, rfl⟩
  · exact congrArg Host.Outcome.next ((if_pos hrun).trans (emergClear_of_cool hcool))

end Sys2Proof.Machine
end

section
/-! ## The fault log, control cores, alternates and restores (chapter 13) -/

namespace Sys2Proof.Machine

/-! ### The order of the log -/

/-- Entry `a` may stand before entry `b`: by TIME, then ENGINE, then OBJECT (R324). -/
def inLogOrder (a b : FaultEntry) : Prop :=
  a.time < b.time ∨ (a.time = b.time ∧ (a.engine < b.engine ∨ (a.engine = b.engine ∧ a.object ≤ b.object)))

theorem inLogOrder.trans {a b c : FaultEntry} (hab : inLogOrder a b) (hbc : inLogOrder b c) : inLogOrder a c := by
  unfold inLogOrder at hab hbc ⊢
  omega

theorem inLogOrder_of_before {a b : FaultEntry} (h : faultBefore a b = true) : inLogOrder a b := by
  simp only [faultBefore, Bool.or_eq_true, Bool.and_eq_true, decide_eq_true_eq, beq_iff_eq] at h
  unfold inLogOrder
  omega

theorem inLogOrder_of_not_before {a b : FaultEntry} (h : faultBefore a b ≠ true) : inLogOrder b a := by
  simp only [faultBefore, ne_eq, Bool.or_eq_true, Bool.and_eq_true, decide_eq_true_eq, beq_iff_eq] at h
  unfold inLogOrder
  omega

theorem insertFault_perm (e : FaultEntry) (es : List FaultEntry) : (insertFault e es).Perm (e :: es) := by
  induction es with
  | nil => exact .refl _
  | cons x xs ih =>
    unfold insertFault
    split
    · exact .refl _
    · exact (ih.cons x).trans (.swap e x xs)

theorem insertFault_ordered {e : FaultEntry} {es : List FaultEntry} (h : es.Pairwise inLogOrder) :
    (insertFault e es).Pairwise inLogOrder := by
  induction es with
  | nil => exact List.pairwise_singleton _ e
  | cons x xs ih =>
    obtain ⟨hx, hxs⟩ := List.pairwise_cons.mp h
    unfold insertFault
    split
    case isTrue before =>
      have ex := inLogOrder_of_before before
      exact List.pairwise_cons.mpr ⟨List.forall_mem_cons.mpr ⟨ex, fun y hy => ex.trans (hx y hy)⟩, h⟩
    case isFalse after =>
      have behind := List.forall_mem_cons.mpr ⟨inLogOrder_of_not_before after, hx⟩
      exact List.pairwise_cons.mpr ⟨fun y hy => behind y ((insertFault_perm e xs).mem_iff.mp hy), ih hxs⟩

/-- Entries already in order stay so while the rest are put in, and none is lost. -/
theorem foldl_insertFault (es acc : List FaultEntry) (h : acc.Pairwise inLogOrder) :
    (es.foldl (fun a e => insertFault e a) acc).Perm (es ++ acc)
      ∧ (es.foldl (fun a e => insertFault e a) acc).Pairwise inLogOrder := by
  induction es generalizing acc with
  | nil => exact ⟨.refl _, h⟩
  | cons e es ih =>
    obtain ⟨perm, ordered⟩ := ih (insertFault e acc) (insertFault_ordered h)
    exact ⟨perm.trans (((insertFault_perm e acc).append_left es).trans List.perm_middle), ordered⟩

/-- Settles O57: an insertion puts an entry behind those that do not come after it. -/
theorem faultEntriesAreOrdered : Obligations.FaultEntriesAreOrdered := by
  intro es
  obtain ⟨perm, ordered⟩ := foldl_insertFault es [] .nil
  exact ⟨by rwa [List.append_nil] at perm, ordered⟩

/-! ### Appending to the log -/

/-- The entry as the log takes it: DEGRADES set where its cause has set in its tick (R322). -/
def markedFault (f : Faults) (e : FaultEntry) : FaultEntry :=
  { e with degrades := match causeOfClass e.cls e.detail e.status with
      | some b => f.rises.contains (b, e.time)
      | none => false }

/-- One entry is appended, marked; only the rises still to be given to an entry may change besides. -/
theorem appendFaults_singleton (f : Faults) (e : FaultEntry) :
    ∃ r, appendFaults [e] f = { appendFault f (markedFault f e) with rises := r } := by
  unfold markedFault
  simp only [appendFaults]
  cases causeOfClass e.cls e.detail e.status with
  | none => exact ⟨_, rfl⟩
  | some b => exact ⟨_, rfl⟩

theorem logFaults_of_none {s : State} (h : s.flt.raised = []) : logFaults s = s :=
  if_pos (by rw [h]; rfl)

/-- The reported faults are in the log, PENDING set, and a line printed for each (R324, R325, R403). -/
def faultsTaken (s : State) : State :=
  forEach ((rangeFrom s.flt.nextSeq s.flt.raised.length).map (wrap 32))
    ((noteCauses s).modFlt (fun f => { appendFaults (sortFaults f.raised) f with raised := [], pending := true }))
    (fun s n => s.sent (.uart n))

theorem logFaults_of_some {s : State} (hraised : s.flt.raised ≠ []) (hpending : s.flt.pending = false) :
    logFaults s = noteCauses (if (faultsTaken s).flt.vecEn
      then fireVector (faultsTaken s) (faultsTaken s).flt.vector else faultsTaken s) := by
  unfold logFaults
  rw [if_neg (by simpa using hraised), hpending]
  rfl

/-- What is left of the only reported fault: its entry, PENDING, and one line. -/
theorem faultsTaken_of_one {s : State} {e : FaultEntry} (h : s.flt.raised = [e]) :
    ∃ r, faultsTaken s = { s with
      flt := { appendFault (noteCauses s).flt (markedFault (noteCauses s).flt e) with
        rises := r, raised := [], pending := true }
      out := .uart (wrap 32 s.flt.nextSeq) :: s.out } := by
  obtain ⟨r, appended⟩ := appendFaults_singleton (noteCauses s).flt e
  have lines : (rangeFrom s.flt.nextSeq s.flt.raised.length).map (wrap 32) = [wrap 32 s.flt.nextSeq] := by
    simp [rangeFrom, h]
  have sorted : sortFaults (noteCauses s).flt.raised = [e] := congrArg sortFaults h
  have taken := (congrArg (appendFaults · (noteCauses s).flt) sorted).trans appended
  refine ⟨r, ?_⟩
  unfold faultsTaken State.modFlt
  rw [lines]
  dsimp only at taken ⊢
  rw [taken]
  rfl

/-- Settles O36: one reported fault is its own order, so the log takes it as it is. -/
theorem faultsAreLoggedInOrder : Obligations.FaultsAreLoggedInOrder := by
  intro s
  refine ⟨fun h => congrArg Host.Outcome.next (logFaults_of_none h), fun e full hraised hpending hfull => ?_,
    fun link v htaken => congrArg Host.Outcome.next (ctlWrite_taken htaken _), fun core task times hrun htimes => ?_⟩
  · have run := logFaults_of_some (by simp [hraised]) hpending
    obtain ⟨r, taken⟩ := faultsTaken_of_one hraised
    rw [taken] at run
    subst hfull
    exact ⟨_, congrArg Host.Outcome.next run, rfl, rfl, rfl, rfl, rfl, rfl, rfl, Tbl.findD_modifyD_same _ _ _ _⟩
  · subst htimes
    exact congrArg Host.Outcome.next (if_pos hrun)

/-! ### Alternates -/

theorem takeNotice_of_service {s : State} (hserve : s.inService = true) (p alt e hops origin : Nat) :
    takeNotice s p alt e hops origin = settleSteps (applyAllDue (noticeIn s p alt e hops origin)) := by
  simp [takeNotice, hserve]

theorem repeatKey_of_active {s : State} {alt : Nat} {r : Alt} (h : s.flt.alts.find alt = some r)
    (hsends : r.sends < 3) : repeatKey s alt = some (alt, r) := by
  simp [repeatKey, h, hsends]

theorem repeatNotice_of_active {s : State} {alt : Nat} {r : Alt} (h : s.flt.alts.find alt = some r)
    (hsends : r.sends < 3) : repeatNotice s alt
      = (sendNotice (s.arriveAt (r.lastSend + 50000)) alt r).modFlt (fun f => { f with
          alts := f.alts.modify alt (fun x => { x with
            sends := x.sends + 1, lastSend := (sendNotice (s.arriveAt (r.lastSend + 50000)) alt r).now }) }) := by
  simp only [repeatNotice, repeatKey_of_active h hsends]

/-- A decision point before any armed front applies what is due then. -/
theorem decisionPoint_of_next {s : State} {e : Nat} (h : nextDecision s = some e)
    (hfront : s.plans.nextCond ≠ .armed ∨ max s.now (tickStart e) < tickStart s.plans.front) :
    decisionPoint s = settleSteps (applyAllDue (s.arriveAt e)) := by
  simp only [decisionPoint, h]
  refine if_neg (fun passed => ?_)
  simp only [Bool.and_eq_true, beq_iff_eq, decide_eq_true_eq] at passed
  exact hfront.elim (fun harmed => harmed passed.1) (Nat.not_lt.mpr passed.2)

/-! ### Restores -/

section Restores
variable {s : State} {r : Nat} {k : Restore} {e : CouchEnt}

theorem restoreEnd_of_bad {b : Ending} (hphase : k.phase = 2) (hopen : k.open_ = 0) (hbad : k.bad = some b) :
    restoreEnd s e k = some (.error b) := by
  simp [restoreEnd, hphase, hopen, hbad]

theorem restoreEnd_of_read (hphase : k.phase = 2) (hopen : k.open_ = 0) (hbad : k.bad = none)
    (hseq : leAt k.record 0 8 ≠ 0) :
    restoreEnd s e k = some (.ok (some (leAt k.record 8 1, leAt k.record 0 8))) := by
  simp [restoreEnd, hphase, hopen, hbad, hseq]

variable (hfind : s.flt.restoring.find r = some k) (hent : restoreEnt s r = some e)
include hfind hent

theorem restoreComplete_of_bad {b : Ending} (hend : restoreEnd s e k = some (.error b)) :
    restoreComplete s r = settle (raiseFault ((undefineHbm ((s.modFlt (fun f => { f with
        restoring := f.restoring.erase r })).modFlt (fun f => { f with
          restoreFailed := true, restoreStatus := b.status })) (e.source * gran) (e.length * gran)).modCouch r
            (fun c => { c with cond := .none, validGen := none }))
      0x0A b.status (taskEngine 4) e.owner r (BitVec.ofNat 32 (leAt k.record 0 8))) := by
  simp only [restoreComplete, hfind, hent, hend]

theorem restoreComplete_of_read {g sq : Nat} (hend : restoreEnd s e k = some (.ok (some (g, sq)))) {w : State}
    (hw : w = restoreDone (s.modFlt (fun f => { f with restoring := f.restoring.erase r })) r e g sq) :
    restoreComplete s r = settle (raiseFault { w with draw := w.draw + 1 } 0x0B 0 (taskEngine 4) e.owner r
      (BitVec.ofNat 32 (Config.freeValue w.draw).toNat)) := by
  simp only [restoreComplete, hfind, hent, hend, hw]
  rfl

end Restores

/-- Settles O37: each row is one equation of its operation, on the record or the restore it names. -/
theorem alternatesAndRestores : Obligations.AlternatesAndRestores := by
  intro s hserve
  refine ⟨fun port alt e hops origin => congrArg Host.Outcome.next (takeNotice_of_service hserve _ _ _ _ _),
    fun alt r u hfind hsends hu => ?_, fun e hnext hfront => ?_, fun region k e u r hr hfind hent hu hphase hopen => ?_⟩
  · subst hu
    exact congrArg Host.Outcome.next ((if_pos hserve).trans (repeatNotice_of_active hfind hsends))
  · exact congrArg Host.Outcome.next ((if_pos hserve).trans (decisionPoint_of_next hnext hfront))
  · subst hr hu
    refine ⟨fun b hbad => ?_, fun w hbad hseq hw => ?_⟩
    · exact congrArg Host.Outcome.next (restoreComplete_of_bad hfind hent (restoreEnd_of_bad hphase hopen hbad))
    · exact congrArg Host.Outcome.next
        (restoreComplete_of_read hfind hent (restoreEnd_of_read hphase hopen hbad hseq) hw)

end Sys2Proof.Machine
end

section
/-! ## The fuses (R343, R345, R352, R362) -/

namespace Sys2Proof.Machine

/-- Settles O49: what a step keeps of a state, `Stays`, includes its fuses, and taking a command blows none. -/
theorem noStepClearsAFuse : Obligations.NoStepClearsAFuse :=
  fun _ _ h => (step_stays h).fuses

end Sys2Proof.Machine
end

section
/-! ## Staging firmware, identity and attestation, and the I3C port (chapters 14 and 17) -/

namespace Sys2Proof.Machine

/-! ### Requests of FW_STAGE -/

theorem mailRow_congr {s : State} {f g : State → State} (h : f s = g s) (d : Door) (l cmd : Nat) :
    mailRow s d l cmd f = mailRow s d l cmd g := by
  simp only [mailRow, h]

/-- The row of the operation that a posted FW_STAGE names runs on the door that took the request. -/
theorem stageRow_posted {s : State} {d : Door} {l op : Nat} (h : posted s d l 0x0060 1 true = true)
    (hop : reqFld s d 8 1 = op) (run : State → State) : stageRow s d l op run = run (took s d) :=
  (mailRow_congr (if_neg (fun other => other hop)) d l _).trans (mailRow_posted h rfl run)

/-! ### LOAD -/

theorem takeBack_boot (s : State) (links : List Nat) (p : Nat × Bool → Bool) : (takeBack s links p).boot = s.boot := by
  unfold takeBack
  refine forEach_keeps (·.boot) _ (fun s l => ?_) _ _
  dsimp only
  split
  · rfl
  · rw [State.modLink_boot]
    exact forEach_keeps (·.boot) _ (by intros; rfl) _ _

theorem correctWords_boot (s : State) (ws : List Nat) : (correctWords s ws).boot = s.boot := by
  unfold correctWords
  exact forEach_keeps (·.boot) _ (by intros; rfl) _ _

theorem correctWords_live (s : State) (ws : List Nat) : (correctWords s ws).hbm.live = s.hbm.live := by
  unfold correctWords
  exact forEach_keeps (·.hbm.live) _ (by intros; rfl) _ _

/-- The checks of an image look at the fuses alone (R344). -/
theorem verifyFail_congr {s t : State} (h : s.boot = t.boot) (b : List Byte) : verifyFail s b = verifyFail t b := by
  rw [verifyFail, verifyFail, h]

/-- The size of the pool is that of the stacks in the map (R246). -/
theorem hbmAvail_congr {h k : Hbm} (e : h.live = k.live) : hbmAvail h = hbmAvail k :=
  have same : liveList h = liveList k := by rw [liveList, liveList, e]
  congrArg (fun l : List Nat => l.length * 64000000000 / 2097152 - 1536) same

/-- The state in which an engine reads a range: lines owned elsewhere taken back, and words corrected (R247, R277). -/
def readyToRead (s : State) (a n : Nat) : State := correctRange (takeOwned s none (linesOf a n)) a n

theorem hbmRead_of_good {s : State} {a n : Nat} (h : firstBad (readyToRead s a n).hbm a n = none) :
    hbmRead s a n = (readyToRead s a n, .done, readBytes s.mem a n) := by
  have mem : (readyToRead s a n).mem = s.mem := by rw [readyToRead, correctRange_mem, takeOwned_mem]
  unfold readyToRead at h mem ⊢
  simp only [hbmRead, hbmReadBy, h, mem]

/-- Getting ready to read moves neither the end of the pool nor the outcome of the checks. -/
theorem loadFail_readyToRead (s : State) (a n addr len : Nat) (b : List Byte) :
    loadFail (readyToRead s a n) addr len b = loadFail s addr len b := by
  have live : (readyToRead s a n).hbm.live = s.hbm.live := by
    unfold readyToRead correctRange takeOwned
    rw [correctWords_live, takeBack_hbm]
  have boot : (readyToRead s a n).boot = s.boot := by
    unfold readyToRead correctRange takeOwned
    rw [correctWords_boot, takeBack_boot]
  simp only [loadFail, hbmAvail_congr live, verifyFail_congr boot]

section Load
variable {s : State} {d : Door} {addr len : Nat}

theorem loadFail_of_good {b : List Byte} (halign : addr % 64 = 0) (hfit : addr + len ≤ hbmAvail s.hbm * gran)
    (hlen : len = 512 + bodyLength b) (hverify : verifyFail s b = none) : loadFail s addr len b = none := by
  unfold loadFail
  rw [if_neg (by omega), hverify]

variable (hstage : s.boot.stage = .none ∨ s.boot.stage = .staged) (haddr : reqFld s d 0x10 8 = addr)
include hstage haddr

theorem stageLoad_of_good {b : List Byte} (hlen : reqFld s d 0x18 8 = len) (halign : addr % 64 = 0)
    (hfit : addr + len ≤ hbmAvail s.hbm * gran) (hmax : len ≤ imageMax)
    (hgood : firstBad (readyToRead s addr len).hbm addr len = none) (hb : b = readBytes s.mem addr len)
    (hbody : len = 512 + bodyLength b) (hverify : verifyFail s b = none) :
    stageLoad s d = answer ((readyToRead s addr len).modBoot (fun x => { x with stage := .staged, staged := b })) d
      St.ok [] := by
  have idle : ¬(s.boot.stage ≠ .none ∧ s.boot.stage ≠ .staged) := fun h => hstage.elim h.1 h.2
  have inRange : ¬(addr % 64 ≠ 0 ∨ addr + len > hbmAvail s.hbm * gran ∨ len > imageMax) := by omega
  have passes := (loadFail_readyToRead s addr len addr len b).trans (loadFail_of_good halign hfit hbody hverify)
  subst hb
  simp only [stageLoad, haddr, hlen, if_neg idle, if_neg inRange, hbmRead_of_good hgood, passes]

theorem stageLoad_of_unaligned (halign : addr % 64 ≠ 0) : stageLoad s d = stageRefused s d 8 := by
  have idle : ¬(s.boot.stage ≠ .none ∧ s.boot.stage ≠ .staged) := fun h => hstage.elim h.1 h.2
  simp only [stageLoad, haddr, if_neg idle, if_pos (Or.inl halign), halign, false_and, and_false, if_false]

end Load

/-! ### COMMIT, ABORT, ADVANCE, and the end of a write -/

section Stage
variable {s : State}

theorem stageCommit_of_staged (h : s.boot.stage = .staged) :
    stageCommit s = (({ s with draw := s.draw + 1 } : State).modBoot (fun b => { b with
      stage := .writing, bytesWritten := 0, attempts := 0, flash := .image (Config.flashPart s.draw) }), St.ok) :=
  if_neg (fun other => other h)

theorem stageCommit_of_not_staged (h : s.boot.stage ≠ .staged) : stageCommit s = (s, St.malformed) := if_pos h

theorem stageAbort_of_staged (h : s.boot.stage = .staged) :
    stageAbort s = (s.modBoot (fun b => { b with stage := .none, staged := [] }), St.ok) := if_neg (fun other => other h)

theorem stageAdvance_of_allowed {v : Nat} (hstaged : s.boot.stage ≠ .staged) (hwriting : s.boot.stage ≠ .writing)
    (hmore : s.boot.fuseSvn < v) (hmost : v ≤ 128) (hrunning : v ≤ s.boot.runningSvn) (hflash : v ≤ s.boot.flashSvn) :
    stageAdvance s v = (s.modBoot (fun b => { b with fuseSvn := v }), St.ok) := by
  have allowed : ¬(s.boot.stage = .staged ∨ s.boot.stage = .writing ∨ v ≤ s.boot.fuseSvn ∨ v > 128
      ∨ s.boot.runningSvn < v ∨ s.boot.flashSvn < v) := by
    simp only [hstaged, hwriting, false_or]
    omega
  exact if_neg allowed

theorem stageAdvance_of_lower {v : Nat} (h : v ≤ s.boot.fuseSvn) : stageAdvance s v = (s, St.malformed) :=
  if_pos (Or.inr (Or.inr (Or.inl h)))

theorem flashWritten_of_writing (hstage : s.boot.stage = .writing) (hserve : s.inService = true) (ok : Bool) :
    flashWritten s ok = s.modBoot (fun b =>
      let b := { b with attempts := b.attempts + 1, bytesWritten := b.staged.length }
      if ok then { b with stage := .committed, flash := .image b.staged
                          flashVersion := imageVersion b.staged, flashSvn := imageSvn b.staged }
      else if b.attempts ≥ 3 then { b with stage := .failed } else b) :=
  if_neg (by simp [hstage, hserve])

theorem flashWritten_good (hstage : s.boot.stage = .writing) (hserve : s.inService = true) :
    flashWritten s true = { s with boot := { s.boot with
      attempts := s.boot.attempts + 1, bytesWritten := s.boot.staged.length, stage := .committed
      flash := .image s.boot.staged, flashVersion := imageVersion s.boot.staged
      flashSvn := imageSvn s.boot.staged } } := flashWritten_of_writing hstage hserve true

theorem flashWritten_bad (hstage : s.boot.stage = .writing) (hserve : s.inService = true) :
    flashWritten s false = { s with boot := { s.boot with
      attempts := s.boot.attempts + 1, bytesWritten := s.boot.staged.length
      stage := if s.boot.attempts + 1 < 3 then .writing else .failed } } := by
  rw [flashWritten_of_writing hstage hserve]
  simp only [State.modBoot, Bool.false_eq_true, if_false]
  by_cases h : s.boot.attempts + 1 < 3
  · rw [if_neg (by omega), if_pos h, hstage]
  · rw [if_pos (by omega), if_neg h]

end Stage

/-- Settles O40: each operation runs on the state whose door took the request, where its condition decides. -/
theorem firmwareIsStagedAndWritten : Obligations.FirmwareIsStagedAndWritten := by
  intro s
  refine ⟨fun d link u op hp hu hop => ⟨?_, ?_, ?_, ?_, ?_, ?_⟩, fun ok hstage hserve => ⟨fun hok => ?_, fun hok => ?_⟩,
    fun d link hp => congrArg Host.Outcome.next (mailRow_posted hp rfl _)⟩
  · intro addr len w b hload hstage haddr hlen halign hfit hmax hw hgood hb hbody hverify
    subst hu hw
    have loaded := stageLoad_of_good (s := took s d) hstage ((took_reqFld s d _ _).trans haddr.symm)
      ((took_reqFld s d _ _).trans hlen.symm) halign hfit hmax hgood hb hbody hverify
    exact congrArg Host.Outcome.next ((stageRow_posted hp (hop.symm.trans hload) _).trans loaded)
  · intro hload hstage halign
    subst hu
    have refused := stageLoad_of_unaligned (s := took s d) hstage (took_reqFld s d _ _) halign
    exact congrArg Host.Outcome.next ((stageRow_posted hp (hop.symm.trans hload) _).trans refused)
  · intro hcommit hstage
    subst hu
    exact congrArg Host.Outcome.next ((stageRow_posted hp (hop.symm.trans hcommit) _).trans
      (congrArg (answerSt d) (stageCommit_of_staged (s := took s d) hstage)))
  · intro hcommit hstage
    subst hu
    exact congrArg Host.Outcome.next ((stageRow_posted hp (hop.symm.trans hcommit) _).trans
      (congrArg (answerSt d) (stageCommit_of_not_staged (s := took s d) hstage)))
  · intro habort hstage
    subst hu
    exact congrArg Host.Outcome.next ((stageRow_posted hp (hop.symm.trans habort) _).trans
      (congrArg (answerSt d) (stageAbort_of_staged (s := took s d) hstage)))
  · intro v hadvance hv hstaged hwriting
    subst hu
    have run := stageRow_posted hp (hop.symm.trans hadvance) (fun s => answerSt d (stageAdvance s (reqFld s d 0x10 4)))
    rw [took_reqFld, ← hv] at run
    refine ⟨fun hmore hmost hrunning hflash => ?_, fun hlower => ?_⟩
    · exact congrArg Host.Outcome.next (run.trans (congrArg (answerSt d)
        (stageAdvance_of_allowed (s := took s d) hstaged hwriting hmore hmost hrunning hflash)))
    · exact congrArg Host.Outcome.next (run.trans (congrArg (answerSt d)
        (stageAdvance_of_lower (s := took s d) hlower)))
  · subst hok
    exact congrArg Host.Outcome.next (flashWritten_good hstage hserve)
  · subst hok
    exact congrArg Host.Outcome.next (flashWritten_bad hstage hserve)

/-! ### Reports -/

section Report
variable {s : State} {d : Door} {addr : Word} {len : Nat}

theorem report_of_outside (h : reportRange s d addr len = none) (bytes : List Byte) (ws : List Word) :
    report s d addr len bytes ws = answer s d St.localBounds [] := by
  simp only [report, h]

theorem report_of_written {bytes : List Byte} {x : Xlat} {w : State} (h : reportRange s d addr len = some x)
    (hw : xlatWrite s x 0 bytes = (w, .done)) (ws : List Word) :
    report s d addr len bytes ws = retryEarly (answer w d St.ok ws) := by
  simp only [report, h, hw]

end Report

theorem took_reqBytes (s : State) (d : Door) : reqBytes (took s d) d = reqBytes s d := by
  simp only [reqBytes, took_reqWord]

theorem runIdentity_took (s : State) (d : Door) : runIdentity (took s d) d =
    report (took s d) d (reqWord s d 1) 8192 ((Config.idCert ++ Config.caCert ++ akCert (took s d)).take 8192)
      [reg [(47, 32, (akCert (took s d)).length), (31, 16, Config.caCert.length), (15, 0, Config.idCert.length)]] := by
  rw [runIdentity, took_reqWord]

theorem runAttest_took (s : State) (d : Door) : runAttest (took s d) d =
    report (took s d) d (reqWord s d 5) 256 (attestation (took s d) (slice (reqBytes s d) 8 32)) [] := by
  rw [runAttest, took_reqWord, took_reqBytes]

/-! ### The I3C port -/

section I3c
variable {s : State}

theorem i3cAnswers_of_service (hserve : s.inService = true) (hporst : s.pins.porstLow = false) :
    i3cAnswers s = true := by
  have phase : s.boot.phase = .service := by simpa [State.inService] using hserve
  simp [i3cAnswers, phase, hporst]

theorem i3cRead_of_service (hserve : s.inService = true) (hporst : s.pins.porstLow = false) (bytes : List Byte) :
    i3cRead s bytes = s.sent (.i3c bytes) := by
  simp [i3cRead, i3cAnswers_of_service hserve hporst, hserve]

theorem i3cStore_of_idle {w : Nat} (hserve : s.inService = true) (hw : w ≤ 63) (hidle : (s.door 128).busy = false)
    (v : Word) : i3cStore s w v = s.modDoor 128 (fun d => { d with req := d.req.put w v }) := by
  simp [i3cStore, hserve, Nat.not_lt.mpr hw, hidle]

theorem setDyn_of_answers (h : i3cAnswers s = true) (a : Option Nat) :
    setDyn s a = { s with pins := { s.pins with i3cDyn := a } } := if_pos h

theorem sendFreeByte_of_answers (h : i3cAnswers s = true) : sendFreeByte s = { s with
    draw := s.draw + 1, out := .i3c [(Config.freeValue s.draw).setWidth 8] :: s.out } := if_pos h

theorem posted_reqCmd {d : Door} {l cmd ver : Nat} {mgr : Bool} (h : posted s d l cmd ver mgr = true) :
    reqCmd s d = cmd := by
  simp only [posted, Bool.and_eq_true, beq_iff_eq] at h
  obtain ⟨⟨⟨⟨⟨_, hcmd⟩, _⟩, _⟩, _⟩, _⟩ := h
  exact hcmd

/-- GO at the I3C door runs the command that the request names: here MBX_INFO (R402, R306). -/
theorem mailGo_of_info (h : posted s .i3c 0 0x0001 1 false = true) :
    mailGo s .i3c 0 = answer (took s .i3c) .i3c St.ok [mailInfo .i3c (reqFld s .i3c 8 2)] := by
  simp only [mailGo, posted_reqCmd h, execMbxInfo, after]
  exact mailRow_posted_field h 8 2 (fun t cmd => answer t .i3c St.ok [mailInfo .i3c cmd])

end I3c

/-- Settles O41: a report goes to the range its request names, and the port answers out of OFF. -/
theorem identityAndAttestationAreReported : Obligations.IdentityAndAttestationAreReported := by
  intro s
  refine ⟨fun d link u hu => ⟨fun hp => ⟨fun x w hx hw => ?_, fun hx => ?_⟩, fun hp x w hx hw => ?_⟩, fun h => ?_,
    fun hserve hporst => ⟨fun w v hw hidle => ?_, fun hp => ?_, fun w hw => ?_, ?_⟩⟩
  · subst hu
    exact congrArg Host.Outcome.next ((mailRow_posted hp rfl _).trans
      ((runIdentity_took s d).trans (report_of_written hx hw _)))
  · subst hu
    exact congrArg Host.Outcome.next ((mailRow_posted hp rfl _).trans
      ((runIdentity_took s d).trans (report_of_outside hx _ _)))
  · subst hu
    exact congrArg Host.Outcome.next ((mailRow_posted hp rfl _).trans
      ((runAttest_took s d).trans (report_of_written hx hw _)))
  · refine ⟨congrArg Host.Outcome.next (if_pos h), congrArg Host.Outcome.next (if_pos h),
      congrArg Host.Outcome.next (sendFreeByte_of_answers h), congrArg Host.Outcome.next (sendFreeByte_of_answers h),
      congrArg Host.Outcome.next (setDyn_of_answers h none), fun a =>
      ⟨congrArg Host.Outcome.next (setDyn_of_answers h _), fun hfree => ?_, fun hheld => ?_⟩⟩
    · exact congrArg Host.Outcome.next ((if_neg (by simp [hfree])).trans (setDyn_of_answers h _))
    · exact congrArg Host.Outcome.next (if_pos (Option.isSome_iff_ne_none.mpr hheld))
  · exact congrArg Host.Outcome.next (i3cStore_of_idle hserve hw hidle v)
  · exact congrArg Host.Outcome.next ((if_pos hserve).trans (mailGo_of_info hp))
  · have inside : ¬7 < w.toNat := Nat.not_lt.mpr hw
    exact congrArg Host.Outcome.next ((i3cRead_of_service hserve hporst _).trans (by rw [if_neg inside]; rfl))
  · exact congrArg Host.Outcome.next (i3cRead_of_service hserve hporst _)

end Sys2Proof.Machine
end

section
/-! ## The metering island and its auditor (chapter 15) -/

namespace Sys2Proof.Machine

theorem islandRise_of_stopped {s : State} (h : s.mtr.running = false) :
    islandRise s = s.modMtr (fun m => { m with
      running := true, fuses := if m.fuses < 1024 then m.fuses + 1 else m.fuses
      meters := Tbl.empty, gen := Tbl.empty, seq := 0, prev := Tbl.empty, sram := [], ringHeld := []
      notFree := notFreeNow s, period := 60, periodNext := 60, lastClose := s.now, gmsAt := s.now / 1000000
      rdSel := 0, spots := [] }) :=
  if_neg (Bool.eq_false_iff.mp h)

theorem auditorRead_of_running {s : State} (h : s.mtr.running = true) (bs : List Byte) :
    auditorRead s bs = s.sent (.auditor bs) := if_pos h

theorem countGranules_running (s : State) : (countGranules s).mtr.running = s.mtr.running := by
  rw [countGranules_onlyMeters s]

theorem countGranules_time (s : State) : (countGranules s).time = s.time := by
  rw [countGranules_onlyMeters s]

/-! ### A close -/

/-- Two operations that agree wherever an invariant of the first holds do the same to a list. -/
theorem forEach_congr_inv {α : Type} {P : State → Prop} {f g : State → α → State} (keeps : ∀ u x, P u → P (f u x))
    (agree : ∀ u x, P u → f u x = g u x) (xs : List α) {s : State} (h : P s) : forEach xs s f = forEach xs s g := by
  induction xs generalizing s with
  | nil => rfl
  | cons x xs ih =>
    calc forEach (x :: xs) s f = forEach xs (f s x) f := rfl
      _ = forEach xs (f s x) g := ih (keeps s x h)
      _ = forEach (x :: xs) s g := by rw [agree s x h]; rfl

/-- Whether a close is doubted can be read off any state that stands at its time: the lock is the same, and the tick
of the close is past there only if it was past before (R34, R366). -/
theorem closeDoubt_of_arrived {s u : State} {t : Nat} (h : u.time = (s.arriveAt t).time) :
    (timeDoubt u || decide (tickStart t < u.now)) = (timeDoubt s || decide (tickStart t < s.now)) := by
  have lock : timeDoubt u = timeDoubt s := by rw [timeDoubt, h]; rfl
  have now : u.now = max s.now (tickStart t) := by rw [State.now, h]; rfl
  rw [lock, now]
  congr 2
  exact propext (by omega)

theorem writeRecord_time (s : State) (i : Nat) (doubt isFinal : Bool) :
    (writeRecord s i doubt isFinal).time = s.time := rfl

theorem closePeriod_eq {s u v : State} {t : Nat} (ht : t = closeTime s) (hu : u = countGranules (s.arriveAt t))
    (hv : v = forEach (closeInsts u ++ [0xFF]) u
      (fun s i => writeRecord s i (timeDoubt s || decide (tickStart t < s.now)) false)) :
    closePeriod s = v.modMtr (fun m => { m with
      lastClose := max v.now t, notFree := notFreeNow v, period := m.periodNext }) := by
  subst ht
  have time : u.time = (s.arriveAt (closeTime s)).time := hu ▸ countGranules_time _
  have records : v = forEach (closeInsts u ++ [0xFF]) u
      (fun w i => writeRecord w i (timeDoubt s || decide (tickStart (closeTime s) < s.now)) false) := by
    rw [hv]
    refine forEach_congr_inv (P := fun w => w.time = (s.arriveAt (closeTime s)).time)
      (fun w i hw => (writeRecord_time w i _ false).trans hw) (fun w i hw => ?_) _ time
    rw [closeDoubt_of_arrived hw]
  subst records hu
  rfl

/-! ### SPOT -/

section Spot
variable {s : State} {i : Nat} {nonce : BitVec 256} {recent : List Nat}
variable (hrun : s.mtr.running = true)
variable (hrecent : recent = s.mtr.spots.filter (fun t => decide (s.now < t + 1000000000)))
include hrun hrecent

theorem spotMark_of_many (h : 10 ≤ recent.length) :
    spotMark s i nonce = s.sent (.auditor (List.replicate 256 0xFF)) := by
  subst hrecent
  exact (if_pos h).trans (auditorRead_of_running hrun _)

theorem spotMark_of_few (h : recent.length < 10) (hi : i < 128 ∨ i = 0xFF) {u : State} {w : Watermark}
    (hu : u = countGranules (s.modMtr (fun m => { m with spots := s.now :: recent })))
    (hw : w = makeRecord u i (timeDoubt u) false true nonce) :
    spotMark s i nonce = (keepRecord u w).sent (.auditor (markBytes w)) := by
  have record : spotRecord u i nonce = (w, u) := by rw [hw]; exact if_pos hi
  have running : (keepRecord u w).mtr.running = true := by
    rw [hu]
    exact (countGranules_running _).trans hrun
  subst hrecent
  unfold spotMark
  dsimp only
  rw [if_neg (Nat.not_le.mpr h), ← hu, record]
  exact auditorRead_of_running running _

end Spot

/-- Settles O42: each row is one equation of the island, and a close doubts all its records or none. -/
theorem theIslandCountsAndRecords : Obligations.TheIslandCountsAndRecords := by
  intro s
  refine ⟨fun h => congrArg Host.Outcome.next (islandRise_of_stopped h), rfl, fun hrun => ?_⟩
  have read := fun bs => congrArg (Host.Outcome.next (φ := Fault) (ρ := Refusal)) (auditorRead_of_running hrun bs)
  refine ⟨fun t u v ht hu hv => ?_, fun hserve => ?_, read _, fun _ => read _, read _, fun _ => read _,
    fun i nonce recent hrecent => ⟨fun h => ?_, fun u w h hi hu hw => ?_⟩⟩
  · exact congrArg Host.Outcome.next ((if_pos hrun).trans (closePeriod_eq ht hu hv))
  · exact congrArg Host.Outcome.next (if_pos (Bool.and_eq_true_iff.mpr ⟨hrun, hserve⟩))
  · exact congrArg Host.Outcome.next ((if_pos hrun).trans (spotMark_of_many hrun hrecent h))
  · exact congrArg Host.Outcome.next ((if_pos hrun).trans (spotMark_of_few hrun hrecent h hi hu hw))

end Sys2Proof.Machine
end

section
/-! ## Boundary scan (R377) -/

namespace Sys2Proof.Machine

section Tap
variable {s : State}

theorem tapWorks_of_powered (hphase : s.boot.phase ≠ .off) (hporst : s.pins.porstLow = false) : tapWorks s = true := by
  simp [tapWorks, hphase, hporst]

theorem tapWorks_of_held (h : s.boot.phase = .off ∨ s.pins.porstLow = true) : tapWorks s = false := by
  rcases h with h | h <;> simp [tapWorks, h]

theorem loadTap_of_works (h : tapWorks s = true) (i : JtagInstr) :
    loadTap s i = { s with tst := { s.tst with jtag := i } } := if_pos h

theorem loadTap_of_held (h : tapWorks s = false) (i : JtagInstr) : loadTap s i = s := if_neg (Bool.eq_false_iff.mp h)

theorem readIdcode_of_works (h : tapWorks s = true) : readIdcode s = { s with
    tst := { s.tst with jtag := .idcode }, out := .jtag 0x1976834B :: s.out } :=
  (if_pos h).trans (congrArg (·.sent (.jtag 0x1976834B)) (loadTap_of_works h .idcode))

theorem readIdcode_of_held (h : tapWorks s = false) : readIdcode s = s := if_neg (Bool.eq_false_iff.mp h)

end Tap

/-- Settles O44: every instruction loads through the TAP, which works or does not. -/
theorem boundaryScanInstructionsLoad : Obligations.BoundaryScanInstructionsLoad := by
  intro s
  refine ⟨fun hphase hporst => ?_, fun hheld => ?_⟩
  · have works := tapWorks_of_powered hphase hporst
    have loads := fun i => congrArg (Host.Outcome.next (φ := Fault) (ρ := Refusal)) (loadTap_of_works works i)
    refine ⟨loads _, loads _, congrArg Host.Outcome.next (readIdcode_of_works works), fun b hb => ?_⟩
    subst hb
    exact ⟨loads _, loads _, loads _, loads _, loads _⟩
  · have held := tapWorks_of_held hheld
    have stays := fun i => congrArg (Host.Outcome.next (φ := Fault) (ρ := Refusal)) (loadTap_of_held held i)
    exact ⟨stays _, congrArg Host.Outcome.next (readIdcode_of_held held), stays _, stays _, stays _, stays _, stays _,
      stays _⟩

end Sys2Proof.Machine
end
